-- ==== Sys2Proof/Word.lean ====
section
/-!
DEFINITION. The word types of the block: bytes in memory and 64-bit registers (R15, R742).
-/
namespace Sys2Proof

/-- One byte of memory, of a packet or of a cell (R15). -/
abbrev Byte := BitVec 8

/-- One 64-bit register or pennant value (R436, R742). -/
abbrev Word := BitVec 64

end Sys2Proof
end

