-- ==== Sys2Proof/Syntax.lean ====
section
/-!
DEFINITION. The commands and events of the block: one constructor of `Instr` per row of opcode_table.json,
with the operands the row's rules name. What the surroundings supply (contributions of other members, answers of the
memory fabric, verdicts of seal and code checks, sensor values, outcomes of physical tests) is an operand.
-/
namespace Sys2Proof

/-- An accepted command: function, queue and the ring sequence RSEQ of its first entry (R486, R504). -/
structure CmdId where
  f : Nat
  q : Nat
  rseq : Nat
deriving DecidableEq, Repr

/-- How a memory or translation access failed (R723, R728, R729). -/
inductive AccErr where
  | pageFault
  | accessViolation
  | error
deriving DecidableEq, Repr

/-- A failing access of a command: its kind, the space selector of R555 and the virtual address (R625). -/
structure AccFault where
  kind : AccErr
  space : Nat
  addr : Nat
deriving DecidableEq, Repr

/-- What the other members bring to a collective (R67, R87): per rank, the bytes of its SRC (its contribution) and its
SCOUNTS (ALLTOALLV) or its one COUNT (COUNTS_FIRST); and an access of this member that failed, if one did. The entry of
the executing member is not read: its own buffers are. -/
structure CollEnv where
  xs : List (List Byte)
  counts : List (List Nat)
  fault : Option AccFault
deriving DecidableEq, Repr

/-- What one member brings to DISPATCH (R283, R289, R293): its tokens' FP32 scores, row by row, and its rows of X. -/
structure DispMember where
  scores : List (List Nat)
  rows : List (List Byte)
deriving DecidableEq, Repr

structure DispEnv where
  members : List DispMember
  fault : Option AccFault
deriving DecidableEq, Repr

/-- What the owners bring to COMBINE: per rank, the bytes of its YOUT (R298). -/
structure CombEnv where
  yout : List (List Byte)
  fault : Option AccFault
deriving DecidableEq, Repr

/-- Header of a routed cell (R311). PATH is the 84-bit field. -/
structure RHdr where
  net : Nat
  cls : Nat
  hop : Nat
  src : Nat
  dst : Nat
  pseq : Nat
  path : Nat
deriving DecidableEq, Repr

/-- The packet prefix of a COLL-class packet (R315); `spec` is bytes 36 to 47 as one little-endian number. -/
structure Prefix where
  type : Nat
  sat : Bool
  resend : Bool
  mcseq : Bool
  step : Nat
  gid : Nat
  gen : Nat
  cseq : Nat
  srcRank : Nat
  rosterDig : Nat
  schedDig : Nat
  descDig : Nat
  e2e : Nat
  spec : Nat
deriving DecidableEq, Repr

/-- The body of a routed packet: a prefix with its data bytes (R315, R317), or OTHER-class payload (R320). -/
inductive Body where
  | coll (pre : Prefix) (data : List Byte)
  | other (data : List Byte)
deriving DecidableEq, Repr

/-- A routed packet (R311 to R320). -/
structure Pkt where
  hdr : RHdr
  body : Body
deriving DecidableEq, Repr

/-- The content of one cell slot of a link frame (R310, R311, R321, R322). -/
inductive FCell where
  | idle
  | routed (h : RHdr) (first last : Bool) (pay : List Byte)
  | halyard (id seq : Nat) (pay : List Byte)
  | link (bytes : List Byte)
deriving DecidableEq, Repr

/-- A received frame: trailer fields of R324, the verdicts of the CRC and of the AES-256-GCM tag (R325), its cells. -/
structure FrameRx where
  fseq : Nat
  ack : Nat
  fc : Nat
  nak : Bool
  crcOk : Bool
  tagOk : Bool
  cells : List FCell
deriving DecidableEq, Repr

/-- A BEAT_MARK cell (R384). Times in ns. -/
structure Mark where
  dist : Nat
  locked : Bool
  master : Bool
  period : Nat
  beat : Nat
  tTx : Nat
  echoOf : Nat
  echoBeat : Nat
  echoRx : Nat
  guard : Nat
  dipLen : Nat
  masterEp : Nat
deriving DecidableEq, Repr

/-- A complete training message, or a fragment that fails the attempt (R634, R640, R703). -/
inductive TrainMsg where
  /-- One of the two SPDM sessions finished (`ours`: the one this side requested) with the verdict of R635. -/
  | session (ours ok : Bool)
  /-- The FS exchange: the partner's fabric secret as a 384-bit number, if it holds one. -/
  | fs (secret : Option Nat)
  /-- A TRAIN fragment of length 0: the acknowledgement of a message number. -/
  | ack (num : Nat)
  /-- A fragment whose length exceeds 1,900. -/
  | overlong
deriving DecidableEq, Repr

/-- The unit whose fly is raised (R526): a running command, or a stream of a function. -/
inductive FlyRef where
  | cmd (id : CmdId)
  | stream (f n : Nat)
deriving DecidableEq, Repr

/-- A firmware image of serial flash, with the verdict of its signature (R650). -/
structure FwImage where
  version : Nat
  svn : Nat
  sigOk : Bool
deriving DecidableEq, Repr

/-- What step 4 of the cold reset finds in serial flash (R778, R779). -/
structure FlashImage where
  directoryOk : Bool
  repairOk : Bool
  fwA : Option FwImage
  fwB : Option FwImage
  patternsOk : Bool
  patset0Ver : Nat
  flashKib : Nat
  /-- Route records of a TABLES region: endpoint and the entry of R342 as one 256-bit number. -/
  routes : List (Nat × Nat)
  /-- Domain records of a TABLES region: domain index and the entry of R366 as 64 words. -/
  domains : List (Nat × List Nat)
deriving DecidableEq, Repr

/-- What one unit's test of a SELFTEST finds (R783, R786). `result` is PASS 0, FAIL 1 or REPAIRED 2 as found by the
patterns; RESTORED is decided by R784. -/
structure UnitTest where
  kind : Nat
  index : Nat
  phys : Nat
  sub : Nat
  result : Nat
  rows : Nat
  pattern : Nat
  us : Nat
deriving DecidableEq, Repr

/-- The outcome of recombining a transfer (R603): the tiles whose sliver digests differ, and whether the new data passes
the original CHECK. -/
structure Recomb where
  badTiles : List Nat
  badArrays : List (Nat × Nat)
deriving DecidableEq, Repr

/-- The verdict on the tail of a chunk transfer (R592, R599, R601). -/
inductive TailVerdict where
  /-- The packet is not the last of its chunk transfer and carries no tail. -/
  | inner
  | good
  | digestMismatch (observed : Nat)
  | checkMismatch (observed : Nat)
deriving DecidableEq, Repr

/-- THE COMMANDS AND EVENTS, one per row of opcode_table.json, in its order. -/
inductive Instr where
  -- collectives (R67): the running command, and what the other members bring
  | allreduce (id : CmdId) (env : CollEnv)
  | reduceScatter (id : CmdId) (env : CollEnv)
  | allgather (id : CmdId) (env : CollEnv)
  | broadcast (id : CmdId) (env : CollEnv)
  | reduce (id : CmdId) (env : CollEnv)
  | gather (id : CmdId) (env : CollEnv)
  | scatter (id : CmdId) (env : CollEnv)
  | alltoall (id : CmdId) (env : CollEnv)
  | alltoallv (id : CmdId) (env : CollEnv)
  | barrier (id : CmdId) (env : CollEnv)
  | topkGather (id : CmdId) (env : CollEnv)
  -- routed dispatch (R288, R289, R299)
  | dispatch (id : CmdId) (env : DispEnv)
  | combine (id : CmdId) (env : CombEnv)
  | score (id : CmdId) (fault : Option AccFault)
  -- point to point (R82, R84)
  | put (id : CmdId) (fault : Option AccFault)
  | get (id : CmdId) (fault : Option AccFault)
  | putSignal (id : CmdId) (fault : Option AccFault)
  | memAtomic (id : CmdId) (fault : Option AccFault)
  -- pennants (R438, R450)
  | pennantSet (id : CmdId)
  | pennantAdd (id : CmdId)
  | pennantWait (id : CmdId)
  -- streams (R407, R422, R427, R432)
  | streamOpen (id : CmdId)
  | stageAhead (id : CmdId)
  | streamResume (id : CmdId)
  | streamCloseFinish (id : CmdId)
  | streamCloseAbort (id : CmdId)
  -- queue control (R541, R544, R546, R547)
  | strike (id : CmdId)
  | queueShutdown (id : CmdId)
  | functionEnable (id : CmdId)
  | functionDisable (id : CmdId)
  -- management (R442, R444, R131, R148, R134, R161, R162, R576, R370, R580, R662, R646, R638, R582, R781)
  | pennantMap (id : CmdId)
  | unmap (id : CmdId)
  | groupCreate (id : CmdId) (fault : Option AccFault)
  | groupReform (id : CmdId) (fault : Option AccFault)
  | groupDestroy (id : CmdId)
  | hoistCompile (id : CmdId)
  | hoistInstall (id : CmdId) (fault : Option AccFault)
  | hoistRelease (id : CmdId)
  | routeUpdate (id : CmdId) (fault : Option AccFault)
  | tableRead (id : CmdId) (fault : Option AccFault)
  | powerPolicy (id : CmdId)
  | fnRotate (id : CmdId)
  | linkSession (id : CmdId)
  | linkRekey (id : CmdId)
  | attest (id : CmdId) (fault : Option AccFault)
  | selftest (id : CmdId) (tests : List UnitTest) (fault : Option AccFault)
  | unlistedOpcode (id : CmdId)
  -- CTL writes: the page, queue, vector or port, and the word written (R735)
  | doorbell (f q : Nat) (v : Word)
  | fnQring (f q : Nat) (v : Word)
  | fnCring (f : Nat) (v : Word)
  | fnChead (f : Nat) (v : Word)
  | fnEqring (f : Nat) (v : Word)
  | fnEqhead (f : Nat) (v : Word)
  | fnSpill (f : Nat) (v : Word)
  | fnIrqcfg (f : Nat) (v : Word)
  | fnMsiAddr (f vec : Nat) (v : Word)
  | fnPenSel (f : Nat) (v : Word)
  | fnStrSel (f : Nat) (v : Word)
  | blkAdmin (v : Word)
  | blkReset (v : Word)
  | fltFence (v : Word)
  | beatCfg (v : Word)
  | fabSelf (v : Word)
  | secFabricGen (v : Word)
  | clrCnt (n : Nat) (v : Word)
  | beatOvrClr (v : Word)
  | prbsEn (n : Nat) (v : Word)
  | prbsInject (n : Nat) (v : Word)
  | prbsClr (n : Nat) (v : Word)
  | flashRel (v : Word)
  | dbgDis (v : Word)
  | registerWrite (off : Nat) (v : Word)
  -- the command engine (R493, R515, R516, R36, R526, R528, R764, R127, R136, R141)
  | scan (f q : Nat) (fault : Option AccFault)
  | accept (id : CmdId)
  | commandDispatch (id : CmdId)
  | hoistOnDemand (id : CmdId)
  | fly (r : FlyRef)
  | completion (id : CmdId)
  | cqDelay (f : Nat)
  | generationWaitTimeout (id : CmdId)
  | stepTimeout (id : CmdId) (missing : List Nat)
  | autoReform (gid : Nat)
  -- the beat (R379, R380, R393, R389, R476, R479)
  | beatStart
  | dipWindow (util : List Nat)
  | partnerAbsent (ep : Nat)
  | parentLost
  | deadlock (f : Nat)
  | blockDeadlock
  -- link frames and packets (R323 to R371)
  | frameSend (n : Nat)
  | frameReceive (n : Nat) (fr : FrameRx)
  | replay (n : Nat)
  | replayTimeout (n : Nat)
  | routedCell (n vn : Nat)
  | data (port : Nat) (p : Pkt) (tail : TailVerdict)
  | signal (port : Nat) (p : Pkt)
  | getReq (port : Nat) (p : Pkt) (fault : Option AccFault)
  | getResp (port : Nat) (p : Pkt) (tail : TailVerdict)
  | atomic (port : Nat) (p : Pkt) (fault : Option AccFault) (tail : TailVerdict)
  | e2eAck (port : Nat) (p : Pkt)
  | e2eAckSend (ep : Nat)
  | e2eResend (ep seq : Nat)
  | hold (port : Nat) (p : Pkt)
  | holdResend (ep seq : Nat)
  | recompute (port : Nat) (p : Pkt) (rc : Recomb)
  | checkerSelftest (ep seq : Nat) (checkerOk : Bool) (tail : TailVerdict)
  | abortNotice (port : Nat) (p : Pkt)
  | breakNotice (port : Nat) (p : Pkt)
  | reserve (port : Nat) (p : Pkt)
  | reserveReply (port : Nat) (p : Pkt)
  | reserveTimeout (idx : Nat)
  | release (port : Nat) (p : Pkt)
  | halyardCell (port id seq : Nat) (inWindow : Bool) (pay : List Byte)
  | halyardWindow (idx : Nat)
  | overrun (idx : Nat)
  | multicast (port : Nat) (p : Pkt)
  | ident (n ep code : Nat)
  | beatMark (n : Nat) (m : Mark) (rx : Nat)
  | keepAlive (n ep beat : Nat) (locked : Bool)
  | beatIn (t : Nat)
  | beatInMissing
  | drainTimeout (id : CmdId)
  | routeDrainDone (id : CmdId)
  -- training, lanes and sleep (R701 to R710)
  | linkTrainStart (n : Nat)
  | adaptDone (n : Nat) (good : Nat)
  | rxGood (n : Nat) (mask : Nat)
  | trainMessage (n : Nat) (m : TrainMsg)
  | trainResend (n : Nat)
  | trainingTimeout (n : Nat)
  | laneFault (n lane : Nat)
  | lossOfSignal (n : Nat)
  | sleepRequest (n : Nat)
  | sleep (n : Nat) (kind : Nat)
  | wake (n : Nat) (deskewed : Bool)
  -- D2D (R711 to R721)
  | d2dDoorbell (p f q : Nat)
  | d2dSet (p f vid tag : Nat) (fence : Bool) (v : Word)
  | d2dAdd (p f vid tag : Nat) (fence : Bool) (v : Word)
  | d2dRead (p f vid tag : Nat)
  | watch (p f vid tag wtag form : Nat) (v mask : Word)
  | unwatch (p f tag wtag : Nat)
  | mwr (p f tag addr : Nat) (enables : List Bool) (lines : List Byte)
  | mrd (p f tag addr len : Nat)
  | mwrRsp (p tag status : Nat)
  | mrdData (p tag status : Nat) (bytes : List Byte)
  | pktTx (p f tag dst : Nat) (bytes : List Byte)
  | credit (p req rsp oth : Nat)
  | fdiState (p : Nat) (active cfgOk : Bool)
  | d2dTimeout (p tag : Nat)
  | d2dLinkLoss (p : Nat)
  -- memory ports (R723 to R732)
  | readData (m tag stat : Nat) (bytes : List Byte)
  | writeCompletion (m tag stat : Nat)
  | translationAnswer (m tag stat page size : Nat) (wr : Bool)
  | invalidation (m tag ctx page size : Nat) (all : Bool)
  | memTimeout (m kind tag : Nat)
  | haltDone (m : Nat)
  | haltTimeout (m : Nat)
  -- scheduling, activity, power (R418, R234, R664, R665, R737)
  | streamPiece (t : Nat)
  | activityWindow (tile arr : Nat) (waited : Bool) (idle : Nat)
  | powerEstimate (watts amps : Nat)
  | thermal (sector temp : Nat)
  | emerg
  | emergClear
  | vgrant
  | vgrantTimeout
  -- faults (R609, R610, R37, R537, R539, R627)
  | stagingEcc (tile : Nat)
  | tableEcc (table idx : Nat)
  | seqWatchdog (tile seq : Nat)
  | coreWatchdog (core : Nat)
  | roleRestart (core : Nat)
  | sectorFault (sector cause : Nat)
  | fatal (cause : Nat)
  -- resets and firmware (R681 to R686, R651)
  | coldReset
  | rstDone
  | firmwareLoad (fl : FlashImage)
  | quiesce (stuck : List Nat)
  | firmwareRestart (us : Nat)
  -- test (R771 to R775, R789)
  | scanMode
  | tapReset
  | tapInstruction (ir : Nat)
  | ctlrd (v : Nat)
  -- further signals of the ports (R701, R709, R725, R789, R658)
  | phyrdy (n : Nat)
  | lpAck (n : Nat) (level : Bool)
  | sleepAnswerTimeout (n : Nat)
  | memCredit (m rq wq xq : Nat)
  | prbsChecker (n lane : Nat) (bits : List Bool)
  | pllRetune (sector : Nat)
deriving DecidableEq, Repr

end Sys2Proof
end

