-- ==== Sys2Proof/Decode.lean ====
section
/-!
DEFINITION. The words of commands. The opcode table gives no row any bits: a command reaches the block as a register write,
a packet, a cell, a message or a pin, never as a word of the table.
-/
namespace Sys2Proof

/-- The command that a word spells by the table's bits: none, for the table gives no row bits. -/
def decodeTableWord (nbits w : Nat) : Option Instr :=
  match nbits, w with
  | _, _ => none

end Sys2Proof
end

