-- ==== Sys2Proof/Machine/Bits.lean ====
section
/-!
DEFINITION. Bit fields and little-endian bytes (R15), and the generator mix64 (R189).
-/
namespace Sys2Proof.Machine

/-- Bits [hi:lo] of a number. -/
def fld (w hi lo : Nat) : Nat := (w >>> lo) % 2 ^ (hi + 1 - lo)

/-- Bit k of a number. -/
def tb (w k : Nat) : Bool := w.testBit k

/-- A Boolean as a one-bit field. -/
def b2n (b : Bool) : Nat := if b then 1 else 0

/-- A number built from fields (hi, lo, value), each value cut to its field. -/
def mk : List (Nat × Nat × Nat) → Nat
  | [] => 0
  | (hi, lo, v) :: r => (v % 2 ^ (hi + 1 - lo)) <<< lo ||| mk r

/-- The k bytes of a number, least significant first (R15). -/
def leBytes (n : Nat) : Nat → List Byte
  | 0 => []
  | k + 1 => BitVec.ofNat 8 n :: leBytes (n >>> 8) k

/-- The number that bytes hold, least significant first (R15). -/
def ofLe : List Byte → Nat
  | [] => 0
  | b :: r => b.toNat + 256 * ofLe r

/-- The bytes [off, off+k) of a list; bytes beyond its end read 0. -/
def slice (bs : List Byte) (off k : Nat) : List Byte :=
  let s := (bs.drop off).take k
  s ++ List.replicate (k - s.length) 0

/-- The number held in the k bytes from offset off. -/
def leAt (bs : List Byte) (off k : Nat) : Nat := ofLe ((bs.drop off).take k)

/-- The list with the bytes from offset off replaced (the list keeps its length). -/
def splice (bs : List Byte) (off : Nat) (new : List Byte) : List Byte :=
  let new := new.take (bs.length - off)
  bs.take off ++ new ++ bs.drop (off + new.length)

/-- Consecutive groups of k elements (fuel bounds the number of groups). -/
def groupsOf {α : Type} (k : Nat) : Nat → List α → List (List α)
  | 0, _ => []
  | _ + 1, [] => []
  | fuel + 1, xs => xs.take k :: groupsOf k fuel (xs.drop k)

/-- Groups of k elements, the last one perhaps shorter. -/
def chunksOf {α : Type} (k : Nat) (xs : List α) : List (List α) := groupsOf k xs.length xs

/-- ⌈a/b⌉. -/
def cdiv (a b : Nat) : Nat := (a + b - 1) / b

/-- a rounded up to a multiple of b. -/
def upTo (a b : Nat) : Nat := cdiv a b * b

/-- The least k with n ≤ 2^k. -/
def clog2 (n : Nat) : Nat := if n ≤ 1 then 0 else Nat.log2 (n - 1) + 1

/-- Addition that stops at a maximum: the saturating counters of the registers. -/
def satAdd (a b max : Nat) : Nat := min (a + b) max

/-- Whether n is a power of two. -/
def isPow2 (n : Nat) : Bool := n != 0 && 2 ^ Nat.log2 n == n

/-- The positions of the set bits of w below k, ascending. -/
def bitsSet (w k : Nat) : List Nat := (List.range k).filter fun i => w.testBit i

/-- The number with bit k set to b. -/
def setBit (w k : Nat) (b : Bool) : Nat := if w.testBit k == b then w else if b then w + 2 ^ k else w - 2 ^ k

/-- Signed value of an n-bit field. -/
def sext (n w : Nat) : Int := if w % 2 ^ n < 2 ^ (n - 1) then (w % 2 ^ n : Nat) else (w % 2 ^ n : Nat) - (2 ^ n : Nat)

/-- The n-bit field of a signed value, two's complement. -/
def unsext (n : Nat) (i : Int) : Nat := (i % (2 ^ n : Nat)).toNat

/-- The list with its element k replaced. -/
def setAt {α : Type} (xs : List α) (k : Nat) (v : α) : List α := xs.set k v

/-- The mixing function of R189, modulo 2^64. -/
def mix64 (z : Word) : Word :=
  let z := z ^^^ (z >>> 30)
  let z := z * 0xBF58476D1CE4E5B9#64
  let z := z ^^^ (z >>> 27)
  let z := z * 0x94D049BB133111EB#64
  z ^^^ (z >>> 31)

end Sys2Proof.Machine
end

