-- ==== Sys2Proof/Machine/Crc.lean ====
section
/-!
DEFINITION. The cyclic codes of the block: CRC-64 of R123 (rosters, schedules, descriptors, seeds, digests) and the
CRC-32 of link frames (R325).
-/
namespace Sys2Proof.Machine

/-- k shift steps of the CRC-64 register (polynomial 0x42F0E1EBA9EA3693, most significant bit first). -/
def crc64Shift : Nat → Word → Word
  | 0, c => c
  | k + 1, c => crc64Shift k (if c.msb then (c <<< 1) ^^^ 0x42F0E1EBA9EA3693#64 else c <<< 1)

/-- One byte into the CRC-64. -/
def crc64Byte (c : Word) (b : Byte) : Word := crc64Shift 8 (c ^^^ ((b.setWidth 64) <<< 56))

/-- CRC-64 of a byte string: initial value 0, no reflection, no final exclusive-or (R123). -/
def crc64 (bs : List Byte) : Word := bs.foldl crc64Byte 0

/-- The low 32 bits of the CRC-64, as digests carry it (R123, R153, R316). -/
def dig32 (bs : List Byte) : Nat := (crc64 bs).toNat % 2 ^ 32

/-- k shift steps of the reflected CRC-32 register. -/
def crc32Shift : Nat → BitVec 32 → BitVec 32
  | 0, c => c
  | k + 1, c => crc32Shift k (if c.getLsbD 0 then (c >>> 1) ^^^ 0xEDB88320#32 else c >>> 1)

/-- CRC-32 of R325: polynomial 0x04C11DB7 reflected, initial value and final exclusive-or all ones. -/
def crc32 (bs : List Byte) : BitVec 32 :=
  (bs.foldl (fun c b => crc32Shift 8 (c ^^^ b.setWidth 32)) 0xFFFFFFFF#32) ^^^ 0xFFFFFFFF#32

end Sys2Proof.Machine
end

