-- ==== Sys2Proof/Config.lean ====
section
/-!
DEFINITION. What an implementation fixes and the spec leaves open: free values, and the cryptographic functions whose
values no statement may rest on. None has a body.
-/
namespace Sys2Proof.Config

/-- A free number: a value the spec leaves open, one per draw of State's counter. -/
opaque freeNat : Nat → Nat

/-- A free byte at an address: the bytes that R109 leaves undefined after an unsuccessful completion, per draw. -/
opaque freeByte : Nat → Nat → BitVec 8

/-- AES-256 of a 128-bit block under a 256-bit key (R325, R644), as numbers. -/
opaque aes256 : Nat → Nat → Nat

/-- The group key of R642: HKDF with SHA-384 over FS, GID, generation and roster digest. -/
opaque groupKey : Nat → Nat → Nat → Nat → Nat

/-- FS_ID of a fabric secret (R639). -/
opaque fsId : Nat → Nat

/-- A fabric secret drawn by the security unit (R639), per draw. -/
opaque drawFs : Nat → Nat

/-- AES-256-XTS of a spill unit: function, its key (function epoch and key epoch as one number), unit number, plaintext (R646, R648). -/
opaque xts : Nat → Nat → Nat → List (BitVec 8) → List (BitVec 8)

/-- The response of the SPDM responder to a request message (R582, R631 to R633), and whether it opens or ends a host session. -/
opaque spdmResponse : List (BitVec 8) → Nat → List (BitVec 8)

/-- The number of host SPDM sessions after a request, given the number before (R632, R653). -/
opaque spdmSessions : List (BitVec 8) → Nat → Nat

/-- What a point-to-point packet's prefix does not carry and its target acts on (R81, R318), by field and by GID, generation, CSEQ
and issuing rank: 0 REMOTE, 1 REMOTE_SPACE, 2 LEN, 3 log2 of the chunk size, 4 FORMAT, 5 OPERATOR, 6 TAG, 7 TARGET of the command. -/
opaque p2pField : Nat → Nat → Nat → Nat → Nat → Nat

/-- The order in which the updates of ATOMIC_LOCAL reach one element (R210), as a number that names a permutation: by GID, generation,
CSEQ, engine and element. -/
opaque arrival : Nat → Nat → Nat → Nat → Nat → Nat

/-- The estimated block power in W after a sector's raise (R663): from the estimate before, the OPP it has and the OPP it would have. -/
opaque powerAfter : Nat → Nat → Nat → Nat

end Sys2Proof.Config
end

