-- ==== Sys2Proof/Machine/Float.lean ====
section
/-!
DEFINITION. Number formats and exact arithmetic on them (chapter 04): codes R170, encodings R173 and R174, special values
R181 to R184, rounding R186 to R190, order R193, EXP R204 and RCP R205.
-/
namespace Sys2Proof.Machine

/-- A floating value: NaN, an infinity, or the exact dyadic (−1)^neg · m · 2^e. -/
inductive FVal where
  | nan
  | inf (neg : Bool)
  | fin (neg : Bool) (m : Nat) (e : Int)
deriving DecidableEq, Repr

/-- A number under arithmetic: a floating value or an integer (R191). -/
inductive Num where
  | fp (v : FVal)
  | int (i : Int)
deriving DecidableEq, Repr

/-- How an encoding treats its all-ones exponent (R173). -/
inductive Specials where
  | ieee
  | onlyNan
  | none
deriving DecidableEq, Repr

/-- A floating encoding of R173: exponent bits, mantissa bits, bias, special values. -/
structure FFmt where
  eb : Nat
  mb : Nat
  bias : Nat
  sp : Specials
deriving DecidableEq, Repr

def fp64 : FFmt := ⟨11, 52, 1023, .ieee⟩
def fp32 : FFmt := ⟨8, 23, 127, .ieee⟩
def bf16 : FFmt := ⟨8, 7, 127, .ieee⟩
def fp16 : FFmt := ⟨5, 10, 15, .ieee⟩
def e4m3 : FFmt := ⟨4, 3, 7, .onlyNan⟩
def e5m2 : FFmt := ⟨5, 2, 15, .ieee⟩
def e3m2 : FFmt := ⟨3, 2, 3, .none⟩
def e2m3 : FFmt := ⟨2, 3, 1, .none⟩
def e2m1 : FFmt := ⟨2, 1, 1, .none⟩

/-- The floating element encoding of a format code (R170); none for the integer formats and MX-INT8. -/
def fmtOf (f : Nat) : Option FFmt :=
  match f with
  | 0x0 => some fp32
  | 0x1 => some bf16
  | 0x2 => some fp16
  | 0x3 => some e4m3
  | 0x4 => some e5m2
  | 0x5 => some e3m2
  | 0x6 => some e2m3
  | 0x7 => some e2m1
  | 0xB => some fp64
  | 0xC => some e4m3
  | 0xD => some e5m2
  | _ => none

/-- The scaled formats (R171). -/
def isScaled (f : Nat) : Bool := f == 5 || f == 6 || f == 7 || f == 0xC || f == 0xD || f == 0xE

/-- All floating formats in the sense of R171. -/
def isFloating (f : Nat) : Bool := f ≤ 4 || f == 0xB || isScaled f

/-- Element bits of a format (R173, R174). -/
def elemBits (f : Nat) : Nat :=
  match f with
  | 0x0 => 32
  | 0x1 => 16
  | 0x2 => 16
  | 0x5 => 6
  | 0x6 => 6
  | 0x7 => 4
  | 0x8 => 32
  | 0xA => 32
  | 0xB => 64
  | _ => 8

/-- Block bytes E of a scaled format (R176). -/
def blockBytes (f : Nat) : Nat := 32 * elemBits f / 8

/-- Scale lines S of a frame (R176). -/
def scaleLines (f : Nat) : Nat := if f == 7 then 4 else if f == 5 || f == 6 then 3 else 2

/-- Blocks per frame G (R176). -/
def frameBlocks (f : Nat) : Nat := if f == 7 then 240 else if f == 5 || f == 6 then 162 else 124

/-- B(n): the bytes of n elements (R178). -/
def bytesOf (f n : Nat) : Nat :=
  if isScaled f then 4096 * cdiv (cdiv n 32) (frameBlocks f) else n * (elemBits f / 8)

/-- Ec: the elements in C bytes of a format (R189). -/
def elemsIn (f c : Nat) : Nat :=
  if isScaled f then c / 4096 * frameBlocks f * 32 else c / (elemBits f / 8)

/-- The exponent of the largest normal of an element format (R187). -/
def emax (f : Nat) : Int :=
  match f with
  | 0x5 => 4
  | 0x6 => 2
  | 0x7 => 2
  | 0xC => 8
  | 0xD => 15
  | _ => 0

/-- Largest finite value of an encoding as (m, e) (R173). -/
def maxFinite (f : FFmt) : Nat × Int :=
  match f.sp with
  | .ieee => (2 ^ (f.mb + 1) - 1, (2 ^ f.eb - 2 : Nat) - (f.bias : Int) - f.mb)
  | .onlyNan => (2 ^ (f.mb + 1) - 2, (2 ^ f.eb - 1 : Nat) - (f.bias : Int) - f.mb)
  | .none => (2 ^ (f.mb + 1) - 1, (2 ^ f.eb - 1 : Nat) - (f.bias : Int) - f.mb)

/-- m·2^e < m'·2^e'. -/
def magLt (m : Nat) (e : Int) (m' : Nat) (e' : Int) : Bool :=
  if e ≤ e' then m < m' * 2 ^ (e' - e).toNat else m * 2 ^ (e - e').toNat < m'

/-- The value of an encoding's bits (R173). -/
def decodeF (f : FFmt) (w : Nat) : FVal :=
  let s := w.testBit (f.eb + f.mb)
  let e := (w >>> f.mb) % 2 ^ f.eb
  let m := w % 2 ^ f.mb
  let ones := e == 2 ^ f.eb - 1
  if ones && f.sp == .ieee then (if m == 0 then .inf s else .nan)
  else if ones && f.sp == .onlyNan && m == 2 ^ f.mb - 1 then .nan
  else if e == 0 then .fin s m (1 - (f.bias : Int) - f.mb)
  else .fin s (2 ^ f.mb + m) ((e : Int) - f.bias - f.mb)

/-- The bits of a canonical NaN (R181); formats without NaN have none and answer 0. -/
def nanBits (f : FFmt) : Nat :=
  match f.sp with
  | .ieee => (2 ^ f.eb - 1) <<< f.mb ||| 2 ^ (f.mb - 1)
  | .onlyNan => 2 ^ (f.eb + f.mb) - 1
  | .none => 0

/-- The bits of the largest finite magnitude (R173). -/
def maxBits (f : FFmt) : Nat :=
  match f.sp with
  | .ieee => ((2 ^ f.eb - 2) <<< f.mb) + (2 ^ f.mb - 1)
  | .onlyNan => 2 ^ (f.eb + f.mb) - 2
  | .none => 2 ^ (f.eb + f.mb) - 1

/-- The spacing exponent of a magnitude m·2^e in a format: subnormal spacing below the smallest normal (R186). -/
def ulpExp (f : FFmt) (m : Nat) (e : Int) : Int :=
  max ((Nat.log2 m : Int) + e - f.mb) (1 - (f.bias : Int) - f.mb)

/-- The magnitude in units of 2^u, rounded to nearest, ties to even (R186). -/
def roundUnits (m : Nat) (e u : Int) : Nat :=
  if u ≤ e then m * 2 ^ (e - u).toNat
  else
    let k := (u - e).toNat
    let q := m / 2 ^ k
    let r := m % 2 ^ k
    let h := 2 ^ (k - 1)
    if r > h || (r == h && q % 2 == 1) then q + 1 else q

/-- The magnitude in units of 2^u under stochastic rounding with 24 drawn bits (R190). -/
def stochUnits (m : Nat) (e u : Int) (bits : Nat) : Nat :=
  if u ≤ e then m * 2 ^ (e - u).toNat
  else
    let k := (u - e).toNat
    let q := m / 2 ^ k
    let r := m % 2 ^ k
    if r == 0 then q else if r * 2 ^ 24 / 2 ^ k + bits ≥ 2 ^ 24 then q + 1 else q

/-- A finite value rounded to a format in an unbounded exponent range; `sr` gives the drawn bits of stochastic rounding. -/
def roundFin (f : FFmt) (sr : Option Nat) (m : Nat) (e : Int) : Nat × Int :=
  if m == 0 then (0, 0) else
  let u := ulpExp f m e
  (match sr with
   | some b => stochUnits m e u b
   | none => roundUnits m e u, u)

/-- Rounding in an accumulator format (R184, R186): NaN and infinities stay; beyond range gives the largest finite value
and is a saturation event (the Boolean). -/
def rndAcc (f : FFmt) (v : FVal) : FVal × Bool :=
  match v with
  | .nan => (.nan, false)
  | .inf s => (.inf s, false)
  | .fin s m e =>
    let r := roundFin f none m e
    let mx := maxFinite f
    if magLt mx.1 mx.2 r.1 r.2 then (.fin s mx.1 mx.2, true) else (.fin s r.1 r.2, false)

/-- The bits of a value that the format represents (its magnitude is a multiple of the format's spacing). -/
def encodeFin (f : FFmt) (s : Bool) (m : Nat) (e : Int) : Nat :=
  let sb := if s then 2 ^ (f.eb + f.mb) else 0
  if m == 0 then sb else
  let u := ulpExp f m e
  let q := roundUnits m e u
  if q < 2 ^ f.mb then sb + q
  else sb + ((u + f.bias + f.mb).toNat <<< f.mb) + (q - 2 ^ f.mb)

/-- Conversion into a format's bits (R183, R186): NaN, infinities, and values beyond range as the table of R183 gives. -/
def toBits (f : FFmt) (v : FVal) : Nat × Bool :=
  match v with
  | .nan => (nanBits f, false)
  | .inf s =>
    let sb := if s then 2 ^ (f.eb + f.mb) else 0
    match f.sp with
    | .ieee => (sb + ((2 ^ f.eb - 1) <<< f.mb), false)
    | _ => (sb + maxBits f, true)
  | .fin s m e =>
    let r := roundFin f none m e
    let mx := maxFinite f
    if magLt mx.1 mx.2 r.1 r.2 then ((if s then 2 ^ (f.eb + f.mb) else 0) + maxBits f, true)
    else (encodeFin f s r.1 r.2, false)

/-- The exact sum of two values (IEEE 754 under R184; a zero sum of opposite signs is +0). -/
def addExact (a b : FVal) : FVal :=
  match a, b with
  | .nan, _ => .nan
  | _, .nan => .nan
  | .inf s, .inf t => if s == t then .inf s else .nan
  | .inf s, _ => .inf s
  | _, .inf t => .inf t
  | .fin s m e, .fin t n d =>
    let lo := min e d
    let x : Int := (m * 2 ^ (e - lo).toNat : Nat)
    let y : Int := (n * 2 ^ (d - lo).toNat : Nat)
    let z := (if s then -x else x) + (if t then -y else y)
    if z == 0 then .fin (s && t) 0 0
    else .fin (z < 0) z.natAbs lo

/-- The exact product of two values (IEEE 754 under R184). -/
def mulExact (a b : FVal) : FVal :=
  match a, b with
  | .nan, _ => .nan
  | _, .nan => .nan
  | .inf s, .inf t => .inf (s != t)
  | .inf s, .fin t n _ => if n == 0 then .nan else .inf (s != t)
  | .fin s m _, .inf t => if m == 0 then .nan else .inf (s != t)
  | .fin s m e, .fin t n d => .fin (s != t) (m * n) (e + d)

/-- The value with its sign inverted. -/
def negF (a : FVal) : FVal :=
  match a with
  | .nan => .nan
  | .inf s => .inf (!s)
  | .fin s m e => .fin (!s) m e

/-- a · 2^k, exactly. -/
def scaleF (a : FVal) (k : Int) : FVal :=
  match a with
  | .fin s m e => .fin s m (e + k)
  | x => x

/-- The magnitude of a value. -/
def absF (a : FVal) : FVal :=
  match a with
  | .nan => .nan
  | .inf _ => .inf false
  | .fin _ m e => .fin false m e

/-- a is strictly greater than b in the order of R193 (NaN greatest, +0 above −0). -/
def gtF (a b : FVal) : Bool :=
  match a, b with
  | .nan, .nan => false
  | .nan, _ => true
  | _, .nan => false
  | .inf s, .inf t => !s && t
  | .inf s, .fin _ _ _ => !s
  | .fin _ _ _, .inf t => t
  | .fin s m e, .fin t n d =>
    match s, t with
    | false, true => true
    | true, false => false
    | false, false => magLt n d m e
    | true, true => magLt m e n d

/-- a is strictly greater than b: R193 for floating values, by value for integers. -/
def gtN (a b : Num) : Bool :=
  match a, b with
  | .fp x, .fp y => gtF x y
  | .int x, .int y => y < x
  | .fp _, .int _ => false
  | .int _, .fp _ => false

/-- Whether a number is NaN. -/
def isNan (a : Num) : Bool := a == .fp .nan

/-- Sum rounded in FP32 (R192), with its saturation event. -/
def add32 (a b : FVal) : FVal × Bool := rndAcc fp32 (addExact a b)

/-- Product rounded in FP32 (R192), with its saturation event. -/
def mul32 (a b : FVal) : FVal × Bool := rndAcc fp32 (mulExact a b)

/-- The integer nearest m·2^e with a sign, ties to even (used by EXP). -/
def nearestInt (s : Bool) (m : Nat) (e : Int) : Int :=
  let q : Int := (roundUnits m e 0 : Nat)
  if s then -q else q

/-- An FP32 constant from its bits. -/
def c32 (w : Nat) : FVal := decodeF fp32 w

/-- The Horner steps of EXP: p := rnd32(rnd32(p·f) + c), the coefficients in the order used (R204). -/
def expPoly (f : FVal) : FVal → List FVal → FVal
  | p, [] => p
  | p, c :: r => expPoly f (add32 (mul32 p f).1 c).1 r

/-- EXP of R204, with its saturation event. -/
def expF (x : FVal) : FVal × Bool :=
  match x with
  | .nan => (.nan, false)
  | .inf s => (if s then .fin false 0 0 else .inf false, false)
  | .fin _ _ _ =>
    match (mul32 x (c32 0x3FB8AA3B)).1 with
    | .fin s m e =>
      if s && magLt 150 0 m e then (.fin false 0 0, false)
      else
        let n := nearestInt s m e
        let f := addExact (.fin s m e) (.fin (0 < n) n.natAbs 0)
        let p := expPoly f (c32 0x39218489)
          [c32 0x3AAEC3FF, c32 0x3C1D955B, c32 0x3D635847, c32 0x3E75FDF0, c32 0x3F317218, c32 0x3F800000]
        rndAccTrunc (scaleF p n)
    | v => (v, false)
where
  /-- The last lines of R204: a value above the FP32 range saturates before rounding; otherwise one rounding. -/
  rndAccTrunc (z : FVal) : FVal × Bool :=
    match z with
    | .fin s m e =>
      let mx := maxFinite fp32
      if !s && magLt mx.1 mx.2 m e then (.fin false mx.1 mx.2, true) else rndAcc fp32 z
    | v => (v, false)

/-- RCP of R205. A reciprocal beyond the FP32 range (of a subnormal) follows R184. -/
def rcpF (y : FVal) : FVal × Bool :=
  match y with
  | .nan => (.nan, false)
  | .inf s => (.fin s 0 0, false)
  | .fin s m e =>
    if m == 0 then (.inf s, false)
    else
      let k := Nat.log2 m + 64
      let q := 2 ^ k / m
      let r := 2 ^ k % m
      rndAcc fp32 (.fin s (2 * q + (if r == 0 then 0 else 1)) (-(k : Int) - 1 - e))

/-- The clamp of the saturating INT32 accumulator (R194), with its event. -/
def clampInt (bits : Nat) (i : Int) : Int × Bool :=
  let hi : Int := (2 ^ (bits - 1) : Nat) - 1
  let lo : Int := -((2 ^ (bits - 1) : Nat) : Int)
  if i < lo then (lo, true) else if hi < i then (hi, true) else (i, false)

end Sys2Proof.Machine
end

