-- ==== Sys2Proof/Machine/Formats.lean ====
section
/-!
DEFINITION. Elements in memory and under reduction: reading and writing vectors of a format (R76, R173 to R181), scaled
blocks and frames (R175 to R180, R187, R188), packed blocks (R251), combination (R192 to R194), folds (R199).
-/
namespace Sys2Proof.Machine

/-- An element under reduction: its value in the accumulator, the position of an ARGMAX or ARGMIN record (R76; 0
otherwise), and whether it depends on a saturation event (R197). -/
structure Elem where
  v : Num
  pos : Nat
  sat : Bool
deriving DecidableEq, Repr

/-- The element +0. -/
def zeroElem : Elem := ⟨.fp (.fin false 0 0), 0, false⟩

/-- Whether an operator works on records (R76). -/
def isArg (op : Nat) : Bool := op == 7 || op == 8

/-- Bytes of n elements of a command: 8 per record under ARGMAX and ARGMIN (R76), else B(n). -/
def vecBytes (f op n : Nat) : Nat := if isArg op then 8 * n else bytesOf f n

/-- A number from the bits of a non-scaled format (R173, R174, R191). -/
def decodeNum (f w : Nat) : Num :=
  match fmtOf f with
  | some ff => .fp (decodeF ff w)
  | none => if f == 0xA then .int (w % 2 ^ 32 : Nat) else .int (sext (elemBits f) w)

/-- The bits of a number in a non-scaled format, with the saturation event of R183 or R186. -/
def encodeNum (f : Nat) (v : Num) : Nat × Bool :=
  match v with
  | .fp x =>
    match fmtOf f with
    | some ff => toBits ff x
    | none => (0, false)
  | .int i => if f == 9 then let c := clampInt 8 i; (unsext 8 c.1, c.2) else (unsext 32 i, false)

/-- Element k of a block's data (R177), as bits. -/
def blockElem (f : Nat) (data k : Nat) : Nat := (data >>> (elemBits f * k)) % 2 ^ elemBits f

/-- A block element's value in FP32 (R175, R180, R185), with the widening's saturation event. -/
def decodeScaled (f scale w : Nat) : FVal × Bool :=
  if scale == 0xFF then (.nan, false)
  else
    let v := match fmtOf f with
      | some ff => decodeF ff w
      | none => let i := sext 8 w; FVal.fin (i < 0) i.natAbs (-6)
    rndAcc fp32 (scaleF v ((scale : Int) - 127))

/-- The elements of one block from its scale and data (R175). -/
def decodeBlock (f scale data count : Nat) : List Elem :=
  (List.range count).map fun k =>
    let d := decodeScaled f scale (blockElem f data k)
    ⟨.fp d.1, 0, d.2⟩

/-- Offset of block b's scale in a scaled buffer (R177). -/
def scaleOff (f b : Nat) : Nat := 4096 * (b / frameBlocks f) + b % frameBlocks f

/-- Offset of block b's data in a scaled buffer (R177). -/
def dataOff (f b : Nat) : Nat := 4096 * (b / frameBlocks f) + 64 * scaleLines f + b % frameBlocks f * blockBytes f

/-- The n elements of a buffer in the command's layout (R76, R177, R203). -/
def decodeVec (f op n : Nat) (bs : List Byte) : List Elem :=
  if isArg op then
    (List.range n).map fun i =>
      let w := leAt bs (8 * i) 4
      ⟨decodeNum f (w % 2 ^ elemBits f), leAt bs (8 * i + 4) 4, false⟩
  else if isScaled f then
    ((List.range (cdiv n 32)).map fun b =>
      decodeBlock f (leAt bs (scaleOff f b) 1) (leAt bs (dataOff f b) (blockBytes f)) (min 32 (n - 32 * b))).flatten
  else
    let k := elemBits f / 8
    (List.range n).map fun i => ⟨decodeNum f (leAt bs (k * i) k), 0, false⟩

/-- The floating value of an element (0 for an integer, which no scaled encoding meets). -/
def fval (e : Elem) : FVal := match e.v with | .fp x => x | .int _ => .fin false 0 0

/-- The largest finite magnitude of a block as (m, e); m = 0 when none is finite and non-zero (R187). -/
def amaxOf : List Elem → Nat × Int
  | [] => (0, 0)
  | x :: r =>
    let a := amaxOf r
    match fval x with
    | .fin _ m e => if magLt a.1 a.2 m e then (m, e) else a
    | _ => a

/-- One element of a scaled block for block exponent e (R187, R188), with its saturation event (infinities, R183).
`sr` gives the drawn bits under stochastic rounding (R190). -/
def encodeElem (f : Nat) (e : Int) (sr : Option Nat) (v : FVal) : Nat × Bool :=
  match fmtOf f with
  | some ff =>
    (match v with
     | .fin s m x =>
       let r := roundFin ff sr m (x - e)
       let mx := maxFinite ff
       if magLt mx.1 mx.2 r.1 r.2 then (encodeFin ff s mx.1 mx.2, false) else (encodeFin ff s r.1 r.2, false)
     | w => toBits ff w)
  | none =>
    (match v with
     | .fin s m x =>
       let q := match sr with
         | some b => stochUnits m (x - e + 6) 0 b
         | none => roundUnits m (x - e + 6) 0
       let q := min q 127
       (unsext 8 (if s then -(q : Int) else q), false)
     | .inf s => (if s then 0x81 else 0x7F, true)
     | .nan => (0, false))

/-- One scaled block: its scale, its element bits, and the saturation events (R187). `draw` gives stochastic bits. -/
def encodeBlock (f : Nat) (draw : Nat → Option Nat) (xs : List Elem) : Nat × List (Nat × Bool) :=
  if xs.any fun x => isNan x.v then (0xFF, xs.map fun _ => (0, false))
  else
    let a := amaxOf xs
    let e : Int := if a.1 == 0 then -127 else max (-127) ((Nat.log2 a.1 : Int) + a.2 - emax f)
    ((e + 127).toNat, (List.range xs.length).map fun k => encodeElem f e (draw k) (fval (xs.getD k zeroElem)))

/-- The data number of a block's element bits (R177). -/
def packElems (f : Nat) : List Nat → Nat
  | [] => 0
  | w :: r => w + (packElems f r <<< elemBits f)

/-- Whether any element depends on a saturation event, or the conversions of its block have one. -/
def anySat (xs : List Elem) (cs : List (Nat × Bool)) : Bool := xs.any (·.sat) || cs.any (·.2)

/-- A buffer of elements in the command's layout; unused bytes are zero (R76, R177, R179, R181). The Boolean tells a
saturation event of the conversion. -/
def encodeVec (f op : Nat) (xs : List Elem) : List Byte × Bool :=
  if isArg op then
    ((xs.map fun x => leBytes (encodeNum f x.v).1 4 ++ leBytes x.pos 4).flatten, false)
  else if isScaled f then
    let bl := (chunksOf 32 xs).map (encodeBlock f (fun _ => none))
    let frames := (chunksOf (frameBlocks f) bl).map fun fr =>
      let scales := (fr.map fun b => leBytes b.1 1).flatten
      let data := (fr.map fun b => leBytes (packElems f (b.2.map (·.1))) (blockBytes f)).flatten
      slice (slice scales 0 (64 * scaleLines f) ++ data) 0 4096
    (frames.flatten, bl.any fun b => b.2.any (·.2))
  else
    let k := elemBits f / 8
    let ws := xs.map fun x => encodeNum f x.v
    ((ws.map fun w => leBytes w.1 k).flatten, ws.any (·.2))

/-- rnd of R75: each element converted to the command's format and read back into the accumulator; blocks of 32 for a
scaled format (R186, R187). The Boolean tells a saturation event. -/
def rndVec (f op : Nat) (xs : List Elem) : List Elem × Bool :=
  if isArg op then (xs, false)
  else if isScaled f then
    let bl := (chunksOf 32 xs).map fun b =>
      let en := encodeBlock f (fun _ => none) b
      ((List.range b.length).map fun k =>
        let c := en.2.getD k (0, false)
        let d := decodeScaled f en.1 c.1
        (⟨.fp d.1, 0, (b.getD k zeroElem).sat || c.2 || d.2⟩ : Elem), en.2.any (·.2))
    ((bl.map (·.1)).flatten, bl.any (·.2))
  else
    let ys := xs.map fun x =>
      let c := encodeNum f x.v
      ((⟨decodeNum f c.1, x.pos, x.sat || c.2⟩ : Elem), c.2)
    (ys.map (·.1), ys.any (·.2))

/-- combine(a, b) of R192 for one element in the accumulator of the format (R191), with its saturation event. -/
def combine (f op : Nat) (a b : Elem) : Elem × Bool :=
  let acc := if f == 0xB then fp64 else fp32
  let s := a.sat || b.sat
  match op with
  | 0 =>
    (match a.v, b.v with
     | .fp x, .fp y => let r := rndAcc acc (addExact x y); (⟨.fp r.1, 0, s || r.2⟩, r.2)
     | .int x, .int y => let r := clampInt 32 (x + y); (⟨.int r.1, 0, s || r.2⟩, r.2)
     | _, _ => (⟨a.v, 0, s⟩, false))
  | 1 =>
    (match a.v, b.v with
     | .fp x, .fp y => let r := rndAcc acc (mulExact x y); (⟨.fp r.1, 0, s || r.2⟩, r.2)
     | _, _ => (⟨a.v, 0, s⟩, false))
  | 2 => (⟨if gtN b.v a.v then b.v else a.v, 0, s⟩, false)
  | 3 => (⟨if isNan a.v then a.v else if isNan b.v then b.v else if gtN a.v b.v then b.v else a.v, 0, s⟩, false)
  | 4 => (bitOp (· &&& ·) a b s, false)
  | 5 => (bitOp (· ||| ·) a b s, false)
  | 6 => (bitOp (· ^^^ ·) a b s, false)
  | 7 =>
    if gtN b.v a.v then (⟨b.v, b.pos, s⟩, false)
    else if gtN a.v b.v then (⟨a.v, a.pos, s⟩, false)
    else (⟨a.v, min a.pos b.pos, s⟩, false)
  | 8 =>
    if isNan a.v && isNan b.v then (⟨a.v, min a.pos b.pos, s⟩, false)
    else if isNan a.v then (⟨a.v, a.pos, s⟩, false)
    else if isNan b.v then (⟨b.v, b.pos, s⟩, false)
    else if gtN a.v b.v then (⟨b.v, b.pos, s⟩, false)
    else if gtN b.v a.v then (⟨a.v, a.pos, s⟩, false)
    else (⟨a.v, min a.pos b.pos, s⟩, false)
  | _ => (⟨a.v, a.pos, s⟩, false)
where
  /-- A bitwise operator on 32-bit two's complement; UINT32 stays unsigned (R73, R75). -/
  bitOp (g : Nat → Nat → Nat) (a b : Elem) (s : Bool) : Elem :=
    match a.v, b.v with
    | .int x, .int y =>
      let w := g (unsext 32 x) (unsext 32 y)
      ⟨.int (if f == 0xA then (w : Int) else sext 32 w), 0, s⟩
    | v, _ => ⟨v, 0, s⟩

/-- combine element by element, with whether any had a saturation event. -/
def combineVec (f op : Nat) (a b : List Elem) : List Elem × Bool :=
  let r := List.zipWith (combine f op) a b
  (r.map (·.1), r.any (·.2))

/-- A plain left fold from the first operand with an operation that reports events. -/
def foldl1 {α : Type} (g : α → α → α × Bool) (d : α) : List α → α × Bool
  | [] => (d, false)
  | x :: r => r.foldl (fun p y => let q := g p.1 y; (q.1, p.2 || q.2)) (x, false)

/-- The tile-span rule (R199): spans of 32 folded left, the partials folded left. -/
def foldSpans {α : Type} (g : α → α → α × Bool) (d : α) (xs : List α) : α × Bool :=
  let parts := (chunksOf 32 xs).map (foldl1 g d)
  let r := foldl1 g d (parts.map (·.1))
  (r.1, r.2 || parts.any (·.2))

/-- A dot product under R201: products rounded to FP32, then the fold of R199. -/
def dotF (a b : List FVal) : FVal × Bool :=
  let ps := List.zipWith mul32 a b
  let r := foldSpans add32 (.fin false 0 0) (ps.map (·.1))
  (r.1, r.2 || ps.any (·.2))

/-- A piece encoded as packed blocks (R251), with the elements a receiver decodes and the saturation events. `draw k`
gives the stochastic bits of element k of the piece. -/
def packBlocks (f : Nat) (draw : Nat → Option Nat) (xs : List Elem) : List Byte × List Elem × Bool :=
  let bs := chunksOf 32 xs
  let en := (List.range bs.length).map fun i => encodeBlock f (fun k => draw (32 * i + k)) (bs.getD i [])
  let scales := (en.map fun b => leBytes b.1 1).flatten
  let data := (en.map fun b => leBytes (packElems f (b.2.map (·.1))) (blockBytes f)).flatten
  let back := (List.zipWith (fun (e : Nat × List (Nat × Bool)) (b : List Elem) =>
    (List.range b.length).map fun k =>
      let c := e.2.getD k (0, false)
      let d := decodeScaled f e.1 c.1
      (⟨.fp d.1, 0, (b.getD k zeroElem).sat || c.2 || d.2⟩ : Elem)) en bs).flatten
  (slice scales 0 (16 * cdiv bs.length 16) ++ data, back, en.any fun b => b.2.any (·.2))

end Sys2Proof.Machine
end

