-- ==== Sys2Proof/Machine/Reduce.lean ====
section
/-!
DEFINITION. How contributions are combined across the members of a group (R97 to R108): the algorithms as reduction
trees, what each send puts on the wire, and the reduced vector. Transforms: QUANT (R248 to R252) here, SKETCH and
TOPK_SPARSE in Machine/Transforms.lean.
-/
namespace Sys2Proof.Machine

/-- The parameters of a collective as its schedule fixes them (R99, R150 to R157). -/
structure Coll where
  opc : Nat
  alg : Nat
  inner : Nat
  k : Nat
  f : Nat
  oper : Nat
  xform : Nat
  xparam : Nat
  n : Nat
  N : Nat
  root : Nat
  /-- Endpoint of each rank: ranks of one endpoint share an engine (R108). -/
  eps : List Nat
  preload : Bool
  seed : Nat
  cseq : Nat
  c : Nat
  gid : Nat
  gen : Nat
  /-- Whether the local level of HIER runs on memory atomics (R85). -/
  atomic : Bool
deriving DecidableEq, Repr

/-- What one step sends from one member to another (R318): the bytes, and the SAT mark of R197. -/
structure CMsg where
  step : Nat
  src : Nat
  dst : Nat
  bytes : List Byte
  sat : Bool
  /-- First element of the reduction vector that it carries, and the inputs of the combine whose result it is (R595): none
  for data that the sender has not combined (R589). -/
  lo : Nat
  ins : List (List Elem)
deriving DecidableEq, Repr

/-- A reduction of one piece: who contributes, who combines, who rounds, and what is sent at which step. -/
inductive RTree where
  | leaf (r : Nat)
  | comb (m : Nat) (a b : RTree)
  | rnd (m : Nat) (a : RTree)
  | send (step src dst : Nat) (a : RTree)
deriving DecidableEq, Repr

/-- The outcome of a reduction of a piece: the value, the members at which a saturation event took place, the messages,
and the bytes as they stand in memory while the value is still one member's own contribution. -/
structure RVal where
  val : List Elem
  ev : List Nat
  msgs : List CMsg
  raw : Option (List Byte)
  /-- Inputs of the fold that formed the value, and whether a rounding has closed that fold. -/
  ins : List (List Elem)
  closed : Bool
  /-- Whether the value is still a contribution in the command's format, whose widening is an event of the engine that combines or
  rounds it (R185, R195). -/
  fresh : Bool
deriving DecidableEq, Repr

/-- The engine at which the widening of a value counts as a saturation event, if it is still to be widened and saturates. -/
def widens (m : Nat) (x : RVal) : List Nat := if x.fresh && x.val.any (·.sat) then [m] else []

/-- How values travel (R248): src, step, value, raw bytes to bytes, value as received, saturation event. -/
abbrev Tx := Nat → Nat → List Elem → Option (List Byte) → List Byte × List Elem × Bool

/-- Evaluation of a reduction tree (R97 to R108). `own` gives a member's contribution to the piece. -/
def evalT (own : Nat → RVal) (cb : List Elem → List Elem → List Elem × Bool) (rn : List Elem → List Elem × Bool)
    (tx : Tx) : RTree → RVal
  | .leaf r => own r
  | .comb m a b =>
    let x := evalT own cb rn tx a
    let y := evalT own cb rn tx b
    let z := cb x.val y.val
    ⟨z.1, x.ev ++ y.ev ++ widens m x ++ widens m y ++ (if z.2 then [m] else []), x.msgs ++ y.msgs, none,
      (if x.closed || x.ins.isEmpty then [x.val] else x.ins) ++ [y.val], false, false⟩
  | .rnd m a =>
    let x := evalT own cb rn tx a
    let z := rn x.val
    ⟨z.1, x.ev ++ widens m x ++ (if z.2 then [m] else []), x.msgs, x.raw, x.ins, true, false⟩
  | .send st s d a =>
    let x := evalT own cb rn tx a
    let w := tx s st x.val x.raw
    ⟨w.2.1, x.ev ++ (if w.2.2 then [s] else []), x.msgs ++ [⟨st, s, d, w.1, w.2.1.any (·.sat), 0, x.ins⟩], none, [], false, x.fresh⟩

/-- Distinct elements in order of first appearance. -/
def firsts : List Nat → List Nat
  | [] => []
  | x :: r => x :: (firsts r).filter (· != x)

/-- The engines of a roster, ordered by the lowest rank each holds (R108). -/
def enginesOf (eps : List Nat) : List Nat := firsts eps

/-- The ranks on an engine, ascending. -/
def ranksOn (eps : List Nat) (e : Nat) : List Nat := (List.range eps.length).filter fun r => eps.getD r 0 == e

/-- The lowest rank on the engine of inner rank m (R108). -/
def leadOf (eps : List Nat) (m : Nat) : Nat := ((ranksOn eps ((enginesOf eps).getD m 0)).head?).getD 0

/-- The inner rank of the engine that holds a rank. -/
def innerOf (eps : List Nat) (r : Nat) : Nat := ((enginesOf eps).findIdx? (· == eps.getD r 0)).getD 0

/-- The largest power of two not above n (n ≥ 1). -/
def lowPow2 (n : Nat) : Nat := 2 ^ Nat.log2 n

/-- RING, piece j (R103): a left fold over ranks j+1, …, j, rounded after every combine; `fin` tells whether the last
rounding takes place (R202). -/
def ringTree (nm : Nat → Nat) (lf : Nat → RTree) (o N j : Nat) (fin : Bool) : RTree :=
  if N ≤ 1 then (if fin then .rnd (nm j) (lf j) else lf j) else
  (List.range (N - 1)).foldl (fun t q =>
    let a := (j + 1 + q) % N
    let b := (j + 2 + q) % N
    let x := RTree.comb (nm b) (.send (o + q) (nm a) (nm b) t) (lf b)
    if q + 2 == N && !fin then x else .rnd (nm b) x) (lf ((j + 1) % N))

/-- HALVING with N not a power of two: rank r first takes in rank r+P (R105). -/
def halveBase (nm : Nat → Nat) (lf : Nat → RTree) (o N P r : Nat) : RTree :=
  if r + P < N then .rnd (nm r) (.comb (nm r) (lf r) (.send o (nm (r + P)) (nm r) (lf (r + P)))) else lf r

/-- HALVING: the partial of one piece at position r after t rounds (R104). -/
def halveAt (nm : Nat → Nat) (base : Nat → RTree) (o P : Nat) (fin : Bool) : Nat → Nat → RTree
  | 0, r => base r
  | t + 1, r =>
    let d := P / 2 ^ (t + 1)
    let p := r ^^^ d
    let mine := halveAt nm base o P fin t r
    let his := RTree.send (o + t) (nm p) (nm r) (halveAt nm base o P fin t p)
    let x := if r < p then RTree.comb (nm r) mine his else .comb (nm r) his mine
    if d == 1 && !fin then x else .rnd (nm r) x

/-- HALVING, piece j (R104, R105). -/
def halveTree (nm : Nat → Nat) (lf : Nat → RTree) (o N j : Nat) (fin : Bool) : RTree :=
  let P := lowPow2 N
  let o' := if P == N then o else o + 1
  let t := halveAt nm (halveBase nm lf o N P) o' P fin (Nat.log2 P) j
  if P == 1 && fin then .rnd (nm j) t else t

/-- Depth of a tree position under fan-in K (fuel bounds the climb). -/
def depthOf (K : Nat) : Nat → Nat → Nat
  | 0, _ => 0
  | fuel + 1, v => if v == 0 then 0 else 1 + depthOf K fuel ((v - 1) / K)

/-- D of R795: the depth of a tree of fan-in K over N members. -/
def treeDepth (K N : Nat) : Nat := depthOf K N (N - 1)

/-- The children of tree position v. -/
def kids (K N v : Nat) : List Nat := ((List.range K).map fun i => v * K + 1 + i).filter (· < N)

/-- TREE below position v (R106): own value first, children ascending, one rounding. -/
def treeAt (nm : Nat → Nat) (lf : Nat → RTree) (o K N root D : Nat) (fin : Bool) : Nat → Nat → RTree
  | 0, v => lf ((v + root) % N)
  | fuel + 1, v =>
    let me := nm ((v + root) % N)
    let t := (kids K N v).foldl (fun t u =>
      RTree.comb me t (.send (o + (D - depthOf K N u)) (nm ((u + root) % N)) me (treeAt nm lf o K N root D fin fuel u)))
      (lf ((v + root) % N))
    if v == 0 && !fin then t else .rnd me t

/-- TREE over all N positions. -/
def treeTree (nm : Nat → Nat) (lf : Nat → RTree) (o K N root : Nat) (fin : Bool) : RTree :=
  treeAt nm lf o K N root (treeDepth K N) fin N 0

/-- DIRECT at member j (R107): a left fold over ranks 0, 1, …, rounded once. -/
def directTree (nm : Nat → Nat) (lf : Nat → RTree) (o N j : Nat) (fin : Bool) : RTree :=
  let at' := fun i => if i == j then lf i else RTree.send o (nm i) (nm j) (lf i)
  let t := (List.range (N - 1)).foldl (fun t i => RTree.comb (nm j) t (at' (i + 1))) (at' 0)
  if fin then .rnd (nm j) t else t

/-- The pieces of R102: (start, length) in elements, dividing blocks of b elements among P pieces. -/
def pieces (n b P : Nat) : List (Nat × Nat) :=
  let nb := cdiv n b
  (List.range P).map fun j =>
    let lo := min n ((j * (nb / P) + min j (nb % P)) * b)
    let hi := min n (((j + 1) * (nb / P) + min (j + 1) (nb % P)) * b)
    (lo, hi - lo)

/-- The member that finishes piece j, as a position among P participants. -/
def finisher (alg opc root j : Nat) : Nat :=
  if alg == 3 then root else if opc == 0x14 && alg == 4 then root else j

/-- The reduction tree of piece j under an algorithm over N positions. -/
def pieceTree (nm : Nat → Nat) (lf : Nat → RTree) (o alg opc K N root j : Nat) (fin : Bool) : RTree :=
  match alg with
  | 1 => ringTree nm lf o N j fin
  | 2 => halveTree nm lf o N j fin
  | 3 => treeTree nm lf o K N root fin
  | _ => directTree nm lf o N (finisher alg opc root j) fin

/-- Steps of the phase that distributes finished pieces: piece j's copies as (step, src, dst) in order (R103 to R107). -/
def spread (o alg opc K N root j : Nat) : List (Nat × Nat × Nat) :=
  if N ≤ 1 then [] else
  match opc, alg with
  | 0x10, 1 => (List.range (N - 1)).map fun s => (o + N - 1 + s, (j + s) % N, (j + s + 1) % N)
  | 0x10, 2 =>
    let P := lowPow2 N
    let L := Nat.log2 P
    let o' := if P == N then o else o + 1
    ((List.range L).map fun t =>
      ((List.range P).filter fun r => r / 2 ^ t == j / 2 ^ t).map fun r => (o' + L + t, r, r ^^^ 2 ^ t)).flatten ++
    ((List.range (N - P)).map fun e => (o' + 2 * L, e, e + P))
  | 0x10, 3 =>
    let D := treeDepth K N
    ((List.range N).map fun v => (kids K N v).map fun u =>
      (o + D + depthOf K N v, (v + root) % N, (u + root) % N)).flatten
  | 0x10, _ => ((List.range N).filter (· != j)).map fun d => (o + 1, j, d)
  | 0x14, 1 => if j == root then [] else [(o + N - 1, j, root)]
  | _, _ => []

/-- Number of steps of the inner algorithm or of a plain one (R795). -/
def stepsOf (opc alg K N : Nat) : Nat :=
  if N ≤ 1 then 0 else
  match alg with
  | 1 => if opc == 0x10 then 2 * (N - 1) else if opc == 0x14 then N else N - 1
  | 2 =>
    let P := lowPow2 N
    if opc == 0x10 then 2 * Nat.log2 P + (if P == N then 0 else 2)
    else if opc == 0x19 then clog2 N else Nat.log2 N
  | 3 =>
    let D := treeDepth K N
    if opc == 0x10 || opc == 0x19 || opc == 0x1A then 2 * D else D
  | _ => if opc == 0x10 then 2 else 1

/-- STEPS of R795; a group of one member has none (R63). -/
def stepsFull (opc alg inner K N M : Nat) : Nat :=
  if N ≤ 1 then 0 else if alg == 5 then stepsOf opc inner K M + 2 else stepsOf opc alg K N

/-- Blocks [b0, b0+nb) of a scaled buffer as packed blocks (R251). -/
def rawBlocks (f : Nat) (bs : List Byte) (b0 nb : Nat) : List Byte :=
  let ids := (List.range nb).map (· + b0)
  slice ((ids.map fun b => slice bs (scaleOff f b) 1).flatten) 0 (16 * cdiv nb 16) ++
    (ids.map fun b => slice bs (dataOff f b) (blockBytes f)).flatten

/-- The bytes of elements [lo, lo+len) of a member's buffer as they travel without a transform. -/
def rawPiece (f oper : Nat) (bs : List Byte) (lo len : Nat) : List Byte :=
  if isArg oper then slice bs (8 * lo) (8 * len)
  else if isScaled f then rawBlocks f bs (lo / 32) (cdiv len 32)
  else slice bs (lo * (elemBits f / 8)) (len * (elemBits f / 8))

/-- The format in which the accumulator travels under PRELOAD (R202): FP64, INT32 or FP32. -/
def accFmt (f : Nat) : Nat := if f == 0xB then 0xB else if f == 8 || f == 9 then 8 else if f == 0xA then 0xA else 0

/-- The bytes of elements in a format on the wire: packed blocks for a scaled format, else as in memory. -/
def wireBytes (f oper : Nat) (xs : List Elem) : List Byte :=
  if isScaled f && !isArg oper then (packBlocks f (fun _ => none) xs).1 else (encodeVec f oper xs).1

/-- The 24 bits drawn for element e of the reduction vector at member r in step s (R189). -/
def srBits (c : Coll) (r s e : Nat) : Nat :=
  let ec := max 1 (elemsIn c.f c.c)
  let k1 := mix64 (BitVec.ofNat 64 c.seed ^^^ BitVec.ofNat 64 c.cseq)
  let k2 := mix64 (k1 ^^^ BitVec.ofNat 64 (e / ec))
  let u := mix64 (k2 ^^^ BitVec.ofNat 64 (r <<< 48) ^^^ BitVec.ofNat 64 (s <<< 32) ^^^ BitVec.ofNat 64 (e % ec))
  u.toNat % 2 ^ 24

/-- QUANT's encoding of a value at member r, step s, from element lo (R248, R251, R252). -/
def quantTx (c : Coll) (lo : Nat) : Tx := fun r s xs _ =>
  let d := fun k => if tb c.xparam 5 then some (srBits c r s (lo + k)) else none
  packBlocks (c.xparam % 16) d xs

/-- How partials travel: QUANT encodes; otherwise the value is unchanged, in the command's format (R242). Under SKETCH
partials are FP32 (R261). -/
def partialTx (c : Coll) (lo : Nat) : Tx :=
  if c.xform == 1 then quantTx c lo
  else fun _ _ xs raw => (match raw with | some b => b | none => wireBytes (if c.xform == 2 then 0 else c.f) c.oper xs, xs, false)

/-- The rounding of partials: to the command's format (R75), or none under a transform (R248, R261). -/
def partialRnd (c : Coll) (xs : List Elem) : List Elem × Bool :=
  if c.xform == 0 then rndVec c.f c.oper xs else (xs, false)

/-- Operator and format of the combines: FP32 SUM under a transform (R244, R248, R261). -/
def combC (c : Coll) (a b : List Elem) : List Elem × Bool :=
  combineVec (if c.xform == 0 then c.f else 0) c.oper a b

/-- Block size that pieces respect: 32 for scaled formats and QUANT, else `b` (R102, R246). -/
def pieceBlock (c : Coll) (b : Nat) : Nat := if c.xform == 1 || (c.xform == 0 && isScaled c.f && !isArg c.oper) then 32 else b

/-- The pieces of a reduction: rank segments for REDUCE_SCATTER, the whole vector for TREE and for REDUCE under DIRECT,
else R102 among the participants. `len` is the length of the reduction vector, b its block. -/
def reducePieces (c : Coll) (alg N len b : Nat) : List (Nat × Nat) :=
  if c.opc == 0x11 then (List.range c.N).map fun j => (j * (len / c.N), len / c.N)
  else if alg == 3 || (c.opc == 0x14 && alg == 4) then [(0, len)]
  else pieces len (pieceBlock c b) (if alg == 2 then lowPow2 N else N)

/-- A finished piece as every member receives it: encoded once under QUANT when another member receives it (R248, R250),
else as it is. -/
def finishPiece (c : Coll) (lo : Nat) (who step : Nat) (sent : Bool) (v : RVal) : RVal × List Byte :=
  if c.xform == 1 then
    if sent then
      let w := quantTx c lo who step v.val none
      (⟨w.2.1, v.ev ++ (if w.2.2 then [who] else []), v.msgs, none, v.ins, true, false⟩, w.1)
    else (v, [])
  else (v, wireBytes (if c.xform == 2 then 0 else if c.preload || c.xform == 3 then (if c.preload then accFmt c.f else c.f) else c.f)
    c.oper v.val)

/-- The result of a cross-member reduction: the reduced vector y, the members at which saturation events took place, and
every message of every step (R97 to R108). -/
structure RAll where
  y : List Elem
  ev : List Nat
  msgs : List CMsg
deriving DecidableEq, Repr

/-- One piece: reduced, finished and distributed. -/
def reducePiece (c : Coll) (own : Nat → RVal) (o alg K N root : Nat) (nm : Nat → Nat) (lf : Nat → RTree)
    (pos j lo : Nat) : RAll :=
  let t := pieceTree nm lf o alg c.opc K N root pos (!c.preload)
  let v := evalT own (combC c) (partialRnd c) (partialTx c lo) t
  let sp := spread o alg c.opc K N root j
  let who := nm (finisher alg c.opc root pos)
  let step := match sp with | [] => o | (s, _, _) :: _ => s
  let f := finishPiece c lo who step (!sp.isEmpty) v
  let out := sp.map fun m => (⟨m.1, nm m.2.1, nm m.2.2, f.2, f.1.val.any (·.sat), lo, if nm m.2.1 == who then f.1.ins else []⟩ : CMsg)
  ⟨f.1.val, f.1.ev, (f.1.msgs.map fun m => { m with lo := lo }) ++ out⟩

/-- The pieces put together: the vector, the events, the messages. -/
def joinPieces (ps : List RAll) : RAll :=
  ⟨(ps.map (·.y)).flatten, (ps.map (·.ev)).flatten, (ps.map (·.msgs)).flatten⟩

/-- The permutation of a list that a number names: the item at code mod length comes first, the rest by what is left of the code. -/
def permute {α : Type} : Nat → Nat → List α → List α
  | 0, _, xs => xs
  | _, _, [] => []
  | fuel + 1, code, x :: r =>
    let k := code % (r.length + 1)
    ((x :: r).drop k).take 1 ++ permute fuel (code / (r.length + 1)) ((x :: r).eraseIdx k)

/-- One element of the local level under ATOMIC_LOCAL (R85, R209, R210): updates in their order of arrival, each rounded to the memory's
format; a saturation of the memory fabric leaves no mark. -/
def arrivedElem (c : Coll) (ep i : Nat) (xs : List Elem) : Elem :=
  let f := if c.xform == 0 then c.f else 0
  let step := fun (a b : Elem) => { (rndVec f 0 [(combine f 0 a b).1]).1.getD 0 a with sat := a.sat || b.sat }
  match permute xs.length (Config.arrival c.gid c.gen c.cseq ep i) xs with
  | [] => zeroElem
  | x :: r => r.foldl step x

/-- The local level of an engine under ATOMIC_LOCAL, element by element. -/
def arrivedVec (c : Coll) (ep : Nat) (vs : List (List Elem)) : List Elem :=
  (List.range (vs.headD []).length).map fun i => arrivedElem c ep i (vs.map fun v => v.getD i zeroElem)

/-- The cross-member reduction y of a vector of `len` elements with blocks of b elements (R97 to R108). `x r` is rank r's
contribution (under TOPK_SPARSE with HIER, the engine's level-1 value at its lowest rank); `raw r lo len` its bytes as
they travel. Under HIER, level 1 is step 0 and the inner steps follow (R795); for
REDUCE_SCATTER the pieces of all ranks of an engine are finished by that engine. -/
def reduceVec (c : Coll) (len b : Nat) (x : Nat → List Elem) (raw : Nat → Nat → Nat → List Byte) : RAll :=
  let hier := c.alg == 5
  let M := (enginesOf c.eps).length
  let alg := if hier then c.inner else c.alg
  let N := if hier then M else c.N
  let o := if hier then 1 else 0
  let nm := fun p => if hier then leadOf c.eps p else p
  let root := if c.opc == 0x14 then (if hier then innerOf c.eps c.root else c.root) else 0
  let lf := fun p =>
    if hier && (c.xform == 3 || c.atomic) then .leaf (leadOf c.eps p)
    else if hier then
      let rs := ranksOn c.eps ((enginesOf c.eps).getD p 0)
      let w := leadOf c.eps p
      RTree.rnd w ((rs.drop 1).foldl (fun t r => RTree.comb w t (.leaf r)) (.leaf (rs.headD 0)))
    else .leaf p
  let ps := reducePieces c alg N len b
  joinPieces ((List.range ps.length).map fun j =>
    let p := ps.getD j (0, 0)
    let xr := fun r => if hier && c.atomic && c.xform != 3 then arrivedVec c (c.eps.getD r 0) ((ranksOn c.eps (c.eps.getD r 0)).map x) else x r
    let own := fun r => (⟨((xr r).drop p.1).take p.2, [], [],
      if c.xform == 3 || (c.xform == 0 && (!hier || (ranksOn c.eps (c.eps.getD r 0)).length == 1))
      then some (raw r p.1 p.2) else none, [], false, c.xform == 0⟩ : RVal)
    let pos := if c.opc == 0x11 && hier then innerOf c.eps j else j
    reducePiece c own o alg c.k N root nm lf pos j p.1)

end Sys2Proof.Machine
end

