-- ==== Sys2Proof/Machine/Transforms.lean ====
section
/-!
DEFINITION. The result of a collective at one member (R67 to R91, R103 to R108): movement of data, reductions with and
without PRELOAD (R77, R202), SKETCH (R258 to R263), TOPK_SPARSE (R267 to R271), TOPK_GATHER (R79).
-/
namespace Sys2Proof.Machine

/-- Insert a record into a list kept best first, at most k long (R224): equal records keep their order of entry. -/
def insertBest {α : Type} (better : α → α → Bool) (k : Nat) (x : α) (l : List α) : List α :=
  (l.takeWhile (fun y => !better x y) ++ x :: l.dropWhile (fun y => !better x y)).take k

/-- The best k records, best first (R224). -/
def selectBest {α : Type} (better : α → α → Bool) (k : Nat) (xs : List α) : List α :=
  xs.foldl (fun l x => insertBest better k x l) []

/-- DESC key of R223: greater value first, then the lower position. -/
def descBetter (a b : Num × Nat) : Bool := gtN a.1 b.1 || (!gtN b.1 a.1 && a.2 < b.2)

/-- MAG key of R223: NaN, then greater magnitude, then the lower position. -/
def magBetter (a b : FVal × Nat) : Bool :=
  gtF (absF a.1) (absF b.1) || (!gtF (absF b.1) (absF a.1) && a.2 < b.2)

/-- Elements [i, i+cnt) of a buffer, bit for bit (R69): bytes, or for a scaled format each block's scale and data. -/
def takeEls (f : Nat) (bs : List Byte) (i cnt : Nat) : List Byte :=
  if isScaled f then
    ((List.range (cdiv cnt 32)).map fun b =>
      slice bs (scaleOff f (i / 32 + b)) 1 ++ slice bs (dataOff f (i / 32 + b)) (blockBytes f)).flatten
  else slice bs (i * (elemBits f / 8)) (cnt * (elemBits f / 8))

/-- A buffer that holds moved elements from element 0 on, unused bytes of its frames zero (R179). -/
def putEls (f : Nat) (p : List Byte) : List Byte :=
  if isScaled f then
    ((chunksOf (frameBlocks f) (chunksOf (1 + blockBytes f) p)).map fun fr =>
      slice (slice ((fr.map fun b => b.take 1).flatten) 0 (64 * scaleLines f) ++ (fr.map fun b => b.drop 1).flatten) 0 4096).flatten
  else p

/-- What a collective yields at one member. -/
structure CollOut where
  /-- Whether DST is written here, and its bytes from offset 0. -/
  dst : Option (List Byte)
  /-- The RCOUNTS array where the command writes one (R87, R88). -/
  rcounts : Option (List Byte)
  /-- The new error-feedback buffer where one is named (R255). -/
  efb : Option (List Byte)
  /-- Chunks any value of which depends on a saturation event (R197). -/
  satChunks : List Nat
  /-- Whether a saturation event took place at this member (R196). -/
  satOwn : Bool
  /-- Every member's messages (R103 to R108). -/
  msgs : List CMsg
  /-- A status with which the member's command ends without its DST (R65, R90). -/
  fail : Option Nat
deriving DecidableEq, Repr

def emptyOut : CollOut := ⟨none, none, none, [], false, [], none⟩

/-- Status codes used here (R584). -/
def stRejFormat : Nat := 0x61
def stFaultAccess : Nat := 0x31

/-- The steps of a data-moving opcode over N positions: (step, src, dst, units moved); the units are positions whose
data travel (R103 to R107). -/
def moveSched (opc alg K N root : Nat) : List (Nat × Nat × Nat × List Nat) :=
  if N ≤ 1 then [] else
  let all := List.range N
  let D := treeDepth K N
  let rk := fun v => (v + root) % N
  let below := fun v => all.filter fun u => isBelow K N v u
  match opc, alg with
  | 0x12, 1 => ((List.range (N - 1)).map fun s => all.map fun r => (s, r, (r + 1) % N, [(r + N - s) % N])).flatten
  | 0x12, 2 => ((List.range (Nat.log2 N)).map fun t => all.map fun r =>
      (t, r, r ^^^ 2 ^ t, all.filter fun u => u / 2 ^ t == r / 2 ^ t)).flatten
  | 0x12, _ => (all.map fun r => (all.filter (· != r)).map fun d => (0, r, d, [r])).flatten
  | 0x13, 1 => (List.range (N - 1)).map fun s => (s, (root + s) % N, (root + s + 1) % N, [root])
  | 0x13, 3 => (all.map fun v => (kids K N v).map fun u => (depthOf K N v, rk v, rk u, [root])).flatten
  | 0x13, _ => (all.filter (· != root)).map fun d => (0, root, d, [root])
  | 0x15, 3 => ((all.filter (· != 0)).map fun v => (D - depthOf K N v, rk v, rk ((v - 1) / K), (below v).map rk))
  | 0x15, _ => (all.filter (· != root)).map fun r => (0, r, root, [r])
  | 0x16, 3 => ((all.filter (· != 0)).map fun v => (depthOf K N v - 1, rk ((v - 1) / K), rk v, (below v).map rk))
  | 0x16, _ => (all.filter (· != root)).map fun d => (0, root, d, [d])
  | 0x17, 1 => ((List.range (N - 1)).map fun s => all.map fun r => (s, r, (r + s + 1) % N, [(r + s + 1) % N])).flatten
  | 0x17, _ => (all.map fun r => (all.filter (· != r)).map fun d => (0, r, d, [d])).flatten
  | 0x19, 2 => ((List.range (clog2 N)).map fun s => all.map fun r => (s, r, (r + 2 ^ s) % N, [])).flatten
  | 0x19, 3 => ((all.filter (· != 0)).map fun v => (D - depthOf K N v, rk v, rk ((v - 1) / K), [])) ++
      (all.map fun v => (kids K N v).map fun u => (D + depthOf K N v, rk v, rk u, [])).flatten
  | 0x19, _ => (all.map fun r => (all.filter (· != r)).map fun d => (0, r, d, [])).flatten
  | 0x1A, 3 => ((all.filter (· != 0)).map fun v => (D - depthOf K N v, rk v, rk ((v - 1) / K), (below v).map rk)) ++
      (all.map fun v => (kids K N v).map fun u => (D + depthOf K N v, rk v, rk u, all)).flatten
  | 0x1A, _ => (all.map fun r => (all.filter (· != r)).map fun d => (0, r, d, [r])).flatten
  | _, _ => []
where
  /-- Whether tree position u lies in the subtree of v. -/
  isBelow (K N v u : Nat) : Bool := (List.range (N + 1)).any fun i => climb K u i == v
  /-- The ancestor of u after i steps. -/
  climb (K u : Nat) : Nat → Nat
    | 0 => u
    | i + 1 => let v := climb K u i; if v == 0 then 0 else (v - 1) / K

/-- The messages of a data-moving opcode with the bytes of each (src, dst, unit), engines acting under HIER with inner
steps from 1 (R108, R795). -/
def moveMsgs (c : Coll) (opc : Nat) (unit : Nat → Nat → Nat → List Byte) : List CMsg :=
  let hier := c.alg == 5
  let M := (enginesOf c.eps).length
  let on := fun m => ranksOn c.eps ((enginesOf c.eps).getD m 0)
  if hier then
    (moveSched opc c.inner c.k M (innerOf c.eps c.root)).map fun (st, a, b, us) =>
      ⟨st + 1, leadOf c.eps a, leadOf c.eps b,
        (if opc == 0x13 then [unit c.root c.root c.root]
         else if opc == 0x17 then (on a).map fun i => ((on b).map fun j => unit i j j).flatten
         else us.map fun u => ((on u).map fun i => unit i i i).flatten).flatten, false, 0, []⟩
  else
    (moveSched opc c.alg c.k c.N c.root).map fun (st, a, b, us) =>
      ⟨st, a, b, (us.map fun u => unit a b u).flatten, false, 0, []⟩

/-- The chunks that hold a saturated element (R197). -/
def satChunksOf (c : Coll) (xs : List Elem) : List Nat :=
  let per := max 1 (if isArg c.oper then c.c / 8 else elemsIn c.f c.c)
  firsts (((List.range xs.length).filter fun i => (xs.getD i zeroElem).sat).map (· / per))

/-- The written result of a reduction: rnd(y), or rnd(combine(p, y)) under PRELOAD (R77, R202, R248, R262). -/
def writeOut (c : Coll) (y : List Elem) (pre : Option (List Byte)) : List Elem × List Byte × Bool :=
  let z := match pre with
    | some p =>
      let q := decodeVec c.f c.oper y.length p
      let z := combineVec (if c.xform == 0 then c.f else 0) c.oper q y
      (z.1, z.2 || q.any (·.sat))
    | none => (y, false)
  let r := rndVec c.f c.oper z.1
  let e := encodeVec c.f c.oper z.1
  (r.1, e.1, z.2 || r.2)

/-- The signs of row j of the projection of a chunk (R259): true for −1. -/
def projSign (kp : Word) (j t : Nat) : Bool := (mix64 (kp ^^^ BitVec.ofNat 64 j)).toNat.testBit t

/-- The key of chunk c's projection (R259). -/
def projKey (c : Coll) (chunk : Nat) : Word :=
  let k1 := mix64 (BitVec.ofNat 64 c.seed ^^^ BitVec.ofNat 64 c.cseq)
  mix64 (mix64 (k1 ^^^ BitVec.ofNat 64 chunk) ^^^ 0x3C6EF372FE94F82B#64)

/-- An element with its sign inverted or kept (a SIGN product, R219). -/
def signed (neg : Bool) (x : Elem) : Elem := if neg then ⟨.fp (negF (fval x)), 0, x.sat⟩ else x

/-- w and ρ of a SKETCH parameter (R243). -/
def sketchW (p : Nat) : Nat := 64 * 2 ^ (p % 8)
def sketchRho (p : Nat) : Nat := 4 * 2 ^ (p / 8 % 8)

/-- The sketch of one block of 32·w elements (R258, R260), with a saturation event. -/
def sketchBlock (c : Coll) (q : Nat) (g : List Elem) : List Elem × Bool :=
  let w := sketchW c.xparam
  let rho := sketchRho c.xparam
  let kp := projKey c (32 * w * q / max 1 (elemsIn c.f c.c))
  let ys := (List.range 32).map fun a =>
    let row := (List.range w).map fun j => g.getD (a * w + j) zeroElem
    (List.range rho).map fun t =>
      foldSpans (combine 0 0) zeroElem ((List.range w).map fun j => signed (projSign kp j t) (row.getD j zeroElem))
  (ys.flatten.map (·.1), ys.flatten.any (·.2))

/-- The lift of one block's sketch (R262). -/
def liftBlock (c : Coll) (q : Nat) (z : List Elem) : List Elem × Bool :=
  let w := sketchW c.xparam
  let rho := sketchRho c.xparam
  let kp := projKey c (32 * w * q / max 1 (elemsIn c.f c.c))
  let ys := (List.range 32).map fun a => (List.range w).map fun j =>
    let s := foldSpans (combine 0 0) zeroElem
      ((List.range rho).map fun t => signed (projSign kp j t) (z.getD (a * rho + t) zeroElem))
    let r := rndAcc fp32 (scaleF (fval s.1) (-(Nat.log2 rho : Int)))
    ((⟨.fp r.1, 0, s.1.sat || r.2⟩ : Elem), s.2 || r.2)
  (ys.flatten.map (·.1), ys.flatten.any (·.2))

/-- A function of blocks applied to a whole vector. -/
def perBlock (b : Nat) (g : Nat → List Elem → List Elem × Bool) (xs : List Elem) : List Elem × Bool :=
  let bs := chunksOf b xs
  let ys := (List.range bs.length).map fun q => g q (bs.getD q [])
  ((ys.map (·.1)).flatten, ys.any (·.2))

/-- s and k of a TOPK_SPARSE parameter (R243). -/
def sparseS (p : Nat) : Nat := 256 * 2 ^ (p / 16 % 4)
def sparseK (p : Nat) : Nat := 2 ^ (p % 16)

/-- Which elements of a vector TOPK_SPARSE selects (R267). -/
def sparseSel (p : Nat) (xs : List Elem) : List Nat :=
  let bs := chunksOf (sparseS p) xs
  ((List.range bs.length).map fun q =>
    let b := bs.getD q []
    (selectBest magBetter (sparseK p) ((List.range b.length).map fun i =>
      (fval (b.getD i zeroElem), sparseS p * q + i))).map (·.2)).flatten

/-- The contribution limited to the selected elements, the others +0 (R269). -/
def sparseOnly (sel : List Nat) (xs : List Elem) : List Elem :=
  (List.range xs.length).map fun i => if sel.contains i then xs.getD i zeroElem else zeroElem

/-- The records of a selection as they travel, block by block (R268). -/
def sparseWire (p : Nat) (sel : List Nat) (xs : List Elem) (lo len : Nat) : List Byte :=
  let s := sparseS p
  ((List.range (cdiv len s)).map fun b =>
    let q := lo / s + b
    let rs := sel.filter fun i => i / s == q
    leBytes q 4 ++ leBytes rs.length 4 ++
      (rs.map fun i => leBytes (encodeNum 0 (xs.getD i zeroElem).v).1 4 ++ leBytes i 4).flatten).flatten

/-- A contribution's elements: the command's format, or with error feedback and for other members under SKETCH and
TOPK_SPARSE the FP32 effective contribution x′ (R255). -/
def effective (c : Coll) (len : Nat) (src : List Byte) (efb : Option (List Byte)) : List Elem × Bool :=
  let x := decodeVec c.f c.oper len src
  match efb with
  | none => (x, false)
  | some e => combineVec 0 0 x (decodeVec 0 0 len e)

/-- The length of the reduction vector (R189). -/
def vecLen (c : Coll) : Nat := if c.opc == 0x11 then c.N * c.n else c.n

/-- ALLREDUCE, REDUCE_SCATTER and REDUCE at member r (R67, R77, R248 to R271). -/
def reduceOut (c : Coll) (r : Nat) (src : List Byte) (pre efb : Option (List Byte)) (env : CollEnv) : CollOut :=
  let len := vecLen c
  let me := effective c len src efb
  let other := fun i => if c.xform ≥ 2 then decodeVec 0 0 len (env.xs.getD i []) else decodeVec c.f c.oper len (env.xs.getD i [])
  let x := fun i => if i == r then me.1 else other i
  let rawOf := fun i lo l => rawPiece c.f c.oper (if i == r then src else env.xs.getD i []) lo l
  let writes := c.opc != 0x14 || r == c.root
  let mine := fun (y : List Elem) => if c.opc == 0x11 then (y.drop (r * c.n)).take c.n else y
  let engine := fun i => if c.alg == 5 then c.eps.getD i 0 == c.eps.getD r 0 else i == r
  if c.xform == 2 then
    let b := 32 * sketchW c.xparam
    let bs := 32 * sketchRho c.xparam
    let sk := fun i => perBlock b (sketchBlock c) (x i)
    let nb := cdiv len b
    let red := reduceVec c (nb * bs) bs (fun i => (sk i).1) (fun _ _ _ => [])
    let up := perBlock bs (liftBlock c) red.y
    let w := writeOut c (mine (up.1.take len)) pre
    let own := perBlock bs (liftBlock c) (sk r).1
    let res := (List.range len).map fun i =>
      (combine 0 0 (me.1.getD i zeroElem) (signed true (own.1.getD i zeroElem))).1
    { emptyOut with
      dst := if writes then some w.2.1 else none
      efb := efb.map fun _ => (encodeVec 0 0 res).1
      satChunks := if writes then satChunksOf c w.1 else []
      satOwn := me.2 || (sk r).2 || (writes && (up.2 || w.2.2)) || red.ev.any engine
      msgs := red.msgs }
  else if c.xform == 3 then
    let sel := fun i => sparseSel c.xparam (x i)
    -- under HIER an engine folds its members' selections and sends one record per element any of them selected (R270)
    let locals := fun i => ranksOn c.eps (c.eps.getD i 0)
    let xe := fun i => if c.alg == 5 && c.atomic then
        arrivedVec c (c.eps.getD i 0) ((locals i).map fun r => sparseOnly (sel r) (x r))
      else if c.alg == 5 then
        (foldl1 (combineVec 0 0) [] ((locals i).map fun r => sparseOnly (sel r) (x r))).1
      else sparseOnly (sel i) (x i)
    let se := fun i => if c.alg == 5 then
        (let ss := (locals i).map sel; (List.range len).filter fun e => ss.any (·.contains e))
      else sel i
    let red := reduceVec c len (sparseS c.xparam) xe (fun i lo l => sparseWire c.xparam (se i) (xe i) lo l)
    let w := writeOut c (mine red.y) pre
    let mysel := sel r
    let res := (List.range len).map fun i => if mysel.contains i then zeroElem else me.1.getD i zeroElem
    { emptyOut with
      dst := if writes then some w.2.1 else none
      efb := efb.map fun _ => (encodeVec 0 0 res).1
      satChunks := if writes then satChunksOf c w.1 else []
      satOwn := me.2 || (writes && w.2.2) || red.ev.any engine
      msgs := red.msgs }
  else
    let red := reduceVec c len 1 x rawOf
    let w := writeOut c (mine red.y) pre
    { emptyOut with
      dst := if writes then some w.2.1 else none
      satChunks := if writes then satChunksOf c w.1 else []
      satOwn := me.2 || (writes && w.2.2) || red.ev.any engine || (c.N ≤ 1 && c.preload && me.1.any (·.sat))
      msgs := red.msgs }

/-- Data movement without a counts phase (R66, R67, R69). -/
def moveOut (c : Coll) (r : Nat) (src : List Byte) (env : CollEnv) : CollOut :=
  let buf := fun i => if i == r then src else env.xs.getD i []
  let seg := fun i j => slice (buf i) (j * bytesOf c.f c.n) (bytesOf c.f c.n)
  let el := fun (bs : List Byte) => takeEls c.f bs 0 c.n
  let all := List.range c.N
  match c.opc with
  | 0x12 => { emptyOut with
      dst := some ((all.map fun j => putEls c.f (el (buf j))).flatten)
      msgs := moveMsgs c 0x12 fun _ _ u => el (buf u) }
  | 0x13 => { emptyOut with
      dst := some (putEls c.f (el (buf c.root)))
      msgs := moveMsgs c 0x13 fun _ _ _ => el (buf c.root) }
  | 0x15 => { emptyOut with
      dst := if r == c.root then some ((all.map fun j => putEls c.f (el (buf j))).flatten) else none
      msgs := moveMsgs c 0x15 fun _ _ u => el (buf u) }
  | 0x16 => { emptyOut with
      dst := some (putEls c.f (el (seg c.root r)))
      msgs := moveMsgs c 0x16 fun _ _ u => el (seg c.root u) }
  | _ => { emptyOut with
      dst := some ((all.map fun j => putEls c.f (el (seg j r))).flatten)
      msgs := moveMsgs c 0x17 fun a _ u => el (seg a u) }

/-- The sum of the first k counts (R87). -/
def countsBefore (cs : List Nat) (k : Nat) : Nat := ((cs.take k).foldl (· + ·) 0)

/-- ALLTOALLV, and ALLGATHER or GATHER under COUNTS_FIRST (R65, R87 to R91). `counts` is this member's SCOUNTS or its one
COUNT; `cap` its DST_CAP in elements. -/
def movevOut (c : Coll) (r cap : Nat) (src : List Byte) (counts : List Nat) (env : CollEnv) : CollOut :=
  let buf := fun i => if i == r then src else env.xs.getD i []
  let cnt := fun i => if i == r then counts else env.counts.getD i []
  let all := List.range c.N
  let writes := c.opc != 0x15 || r == c.root
  let rc := all.map fun j => if c.opc == 0x18 then (cnt j).getD r 0 else (cnt j).getD 0 0
  let total := countsBefore rc c.N
  let part := fun i j => if c.opc == 0x18 then takeEls c.f (buf i) (countsBefore (cnt i) j) ((cnt i).getD j 0)
    else takeEls c.f (buf i) 0 ((cnt i).getD 0 0)
  let msgs := moveMsgs c (if c.opc == 0x18 then 0x17 else c.opc) fun a _ u => if c.opc == 0x18 then part a u else part u u
  let o : CollOut := { emptyOut with
    rcounts := if writes then some ((rc.map fun v => leBytes v 4).flatten) else none
    msgs := msgs }
  if !writes then o
  else if isScaled c.f && rc.any (fun v => v % 32 != 0) then { o with fail := some stRejFormat }
  else if total > cap then { o with fail := some stFaultAccess }
  else { o with dst := some (putEls c.f ((all.map fun j => part j r).flatten)) }

/-- TOPK_GATHER (R79): the k greatest values with their bits, then their global positions. -/
def topkOut (c : Coll) (r k : Nat) (src : List Byte) (env : CollEnv) : CollOut :=
  let w := elemBits c.f / 8
  let cand := fun j =>
    let b := if j == r then src else env.xs.getD j []
    (List.range c.n).map fun i => ((decodeNum c.f (leAt b (w * i) w), j * c.n + i), leAt b (w * i) w)
  let best := fun (l : List ((Num × Nat) × Nat)) => selectBest (fun a b => descBetter a.1 b.1) k l
  let top := best (((List.range c.N).map fun j => best (cand j)).flatten)
  let vals := (top.map fun t => leBytes t.2 w).flatten
  let wire := fun (l : List ((Num × Nat) × Nat)) => (l.map fun t => leBytes t.2 4 ++ leBytes t.1.2 4).flatten
  { emptyOut with
    dst := some (slice vals 0 (upTo (w * k) 64) ++ (top.map fun t => leBytes t.1.2 4).flatten)
    msgs := (if c.alg == 3 || c.alg == 4 then moveSched 0x1A c.alg c.k c.N 0 else []).map fun (st, a, b, us) =>
      ⟨st, a, b, wire (best ((us.map cand).flatten)), false, 0, []⟩ }

/-- The result of any collective at member r (R67). -/
def collOut (c : Coll) (r k cap : Nat) (countsFirst : Bool) (src : List Byte) (counts : List Nat)
    (pre efb : Option (List Byte)) (env : CollEnv) : CollOut :=
  if c.opc == 0x10 || c.opc == 0x11 || c.opc == 0x14 then reduceOut c r src pre efb env
  else if c.opc == 0x19 then { emptyOut with msgs := moveMsgs c 0x19 fun _ _ _ => [] }
  else if c.opc == 0x1A then topkOut c r k src env
  else if c.opc == 0x18 || countsFirst then movevOut c r cap src counts env
  else moveOut c r src env

end Sys2Proof.Machine
end

