-- ==== Sys2Proof/Machine/Moe.lean ====
section
/-!
DEFINITION. The arithmetic and tables of routed dispatch (chapter 06): scores (R283), selection (R286), gates (R287),
admission (R289 to R291), rows and tables (R278 to R282), and the k-way combine (R299).
-/
namespace Sys2Proof.Machine

/-- Parameters of a SCORE or DISPATCH (R276). -/
structure MoeP where
  N : Nat
  rank : Nat
  T : Nat
  d : Nat
  E : Nat
  k : Nat
  cap : Nat
  policy : Nat
  rounds : Nat
  f : Nat
  wf : Nat
  gid : Nat
  gen : Nat
  cseq : Nat
deriving DecidableEq, Repr

/-- One slot of a token (R280): score, current expert, row (none while refused), the round of the last answer. -/
structure Slot where
  score : Nat
  expert : Nat
  row : Option Nat
  round : Nat
  dropped : Bool
deriving DecidableEq, Repr

/-- A bid of a round (R289). -/
structure Bid where
  src : Nat
  token : Nat
  slot : Nat
  expert : Nat
  score : Nat
deriving DecidableEq, Repr

/-- The scores of the rows of X as FP32 bits (R283), with a saturation event. -/
def scoreRows (p : MoeP) (x w : List Byte) : List (List Nat) × Bool :=
  let rs := bytesOf p.f p.d
  let wv := (decodeVec p.wf 0 (p.d * p.E) w).map fval
  let cols := (List.range p.E).map fun e => (List.range p.d).map fun i => wv.getD (i * p.E + e) .nan
  let rows := (List.range p.T).map fun t =>
    let xs := decodeVec p.f 0 p.d (slice x (t * rs) rs)
    let ds := cols.map fun c => dotF (xs.map fval) c
    (ds.map fun r => (toBits fp32 r.1).1, xs.any (·.sat) || ds.any (·.2))
  (rows.map (·.1), rows.any (·.2))

/-- The score rows read from LOGITS (R278, R285). -/
def logitRows (p : MoeP) (bs : List Byte) : List (List Nat) :=
  let st := upTo (4 * p.E) 64
  (List.range p.T).map fun t => (List.range p.E).map fun e => leAt bs (t * st + 4 * e) 4

/-- LOGITS as written: rows padded with zeros to 64 bytes (R278). -/
def logitBytes (rows : List (List Nat)) : List Byte :=
  (rows.map fun r => slice ((r.map fun w => leBytes w 4).flatten) 0 (upTo (4 * r.length) 64)).flatten

/-- The candidates of a token: the best L experts under DESC (R286). -/
def candidates (L : Nat) (row : List Nat) : List (Nat × Nat) :=
  (selectBest (fun a b => descBetter a.1 b.1) L
    ((List.range row.length).map fun e => ((Num.fp (c32 (row.getD e 0)), e), row.getD e 0))).map fun c => (c.1.2, c.2)

/-- Admission at the owner of one expert in one round (R290): the rows granted, by (source, token). -/
def admitRow (cap a : Nat) (bids : List Bid) : List (Bid × Option Nat) :=
  let better := fun (x y : Bid) =>
    let u := Num.fp (c32 x.score)
    let v := Num.fp (c32 y.score)
    gtN u v || (!gtN v u && (x.src < y.src || (x.src == y.src && x.token < y.token)))
  let won := selectBest better (min (cap - a) bids.length) bids
  let order := selectBest (fun (x y : Bid) => x.src < y.src || (x.src == y.src && x.token < y.token)) won.length won
  bids.map fun b => (b, match order.findIdx? (· == b) with | some i => some (a + i) | none => none)

/-- The state of admission: every member's tokens with their candidates and slots, and the rows granted per expert. -/
structure Adm where
  toks : List (List (List (Nat × Nat) × List Slot))
  granted : List Nat
deriving DecidableEq, Repr

/-- The bids of a round: the slots with no row that are still in the exchange (R289). -/
def bidsOf (a : Adm) : List Bid :=
  ((List.range a.toks.length).map fun s =>
    let ts := a.toks.getD s []
    ((List.range ts.length).map fun t =>
      let sl := (ts.getD t ([], [])).2
      ((List.range sl.length).filterMap fun j =>
        match sl[j]? with
        | some x => if x.row.isNone && !x.dropped then some (⟨s, t, j, x.expert, x.score⟩ : Bid) else none
        | none => none)).flatten).flatten

/-- One round of admission over all experts (R290). -/
def admRound (p : MoeP) (r : Nat) (a : Adm) : Adm :=
  let bids := bidsOf a
  let per := (List.range p.E).map fun e => admitRow p.cap (a.granted.getD e 0) (bids.filter (·.expert == e))
  let res := per.flatten
  let toks := (List.range a.toks.length).map fun s =>
    let ts := a.toks.getD s []
    (List.range ts.length).map fun t =>
      let tk := ts.getD t ([], [])
      (tk.1, (List.range tk.2.length).map fun j =>
        let sl := tk.2.getD j ⟨0, 0, none, 0, true⟩
        match res.find? fun b => b.1.src == s && b.1.token == t && b.1.slot == j with
        | some b => { sl with row := b.2, round := r }
        | none => sl)
  ⟨toks, (List.range p.E).map fun e => a.granted.getD e 0 +
    ((per.getD e []).filter fun b => b.2.isSome).length⟩

/-- The refused slots of one token move to the first candidates not yet bid to, in slot order (R291). -/
def moveSlots (cands : List (Nat × Nat)) : List Nat → List Slot → List Slot
  | _, [] => []
  | used, s :: r =>
    if s.row.isSome || s.dropped then s :: moveSlots cands used r
    else match cands.find? fun c => !used.contains c.1 with
      | some c => { s with expert := c.1, score := c.2 } :: moveSlots cands (c.1 :: used) r
      | none => { s with dropped := true } :: moveSlots cands used r

/-- The experts a token has bid to after a number of moves: the candidates used so far are a prefix of its list. -/
def usedBy (cands : List (Nat × Nat)) (n : Nat) : List Nat := (cands.take n).map (·.1)

/-- Rounds 1 to NC_ROUNDS of NEXT_CHOICE (R291): the bids of each and what it leaves. Candidates are taken in order, so the used
ones are a prefix whose length `used` per token counts. -/
def admNext (p : MoeP) : Nat → Nat → Adm → List (List Nat) → List (Adm × Adm)
  | 0, _, _, _ => []
  | fuel + 1, r, a, used =>
    let nu := (List.range a.toks.length).map fun s =>
      let ts := a.toks.getD s []
      (List.range ts.length).map fun t =>
        let tk := ts.getD t ([], [])
        let u := (used.getD s []).getD t p.k
        min tk.1.length (u + (tk.2.filter fun x => x.row.isNone && !x.dropped).length)
    let moved : Adm := ⟨(List.range a.toks.length).map fun s =>
      let ts := a.toks.getD s []
      (List.range ts.length).map fun t =>
        let tk := ts.getD t ([], [])
        (tk.1, moveSlots tk.1 (usedBy tk.1 ((used.getD s []).getD t p.k)) tk.2), a.granted⟩
    let after := admRound p r moved
    (moved, after) :: admNext p fuel (r + 1) after nu

/-- Every round of admission from every member's score rows (R286, R289 to R291): its bids and what it leaves. -/
def admRounds (p : MoeP) (scores : List (List (List Nat))) : List (Adm × Adm) :=
  let L := min p.E (p.k * (1 + p.rounds))
  let start : Adm := ⟨scores.map fun rows => rows.map fun row =>
    let c := candidates L row
    (c, (c.take p.k).map fun x => ⟨x.2, x.1, none, 0, false⟩), List.replicate p.E 0⟩
  let a := admRound p 0 start
  (start, a) :: if p.policy == 1 then admNext p p.rounds 1 a (scores.map fun rows => rows.map fun _ => p.k) else []

/-- The whole admission (R292). Slots still refused at the end are dropped. -/
def admission (p : MoeP) (scores : List (List (List Nat))) : Adm :=
  let a := match (admRounds p scores).getLast? with | some x => x.2 | none => ⟨[], []⟩
  ⟨a.toks.map fun ts => ts.map fun tk => (tk.1, tk.2.map fun s => if s.row.isNone then { s with dropped := true } else s),
    a.granted⟩

/-- What a round's three exchanges carry from member src to member dst (R289): the count, the bids, the grants of dst's bids. -/
def bidsTo (p : MoeP) (a : Adm) (src dst : Nat) : List Bid :=
  let epm := max 1 (p.E / p.N)
  let mine := (bidsOf a).filter fun x => x.src == src && x.expert / epm == dst
  selectBest (fun (x y : Bid) => decide (x.expert < y.expert) || (x.expert == y.expert && decide (x.token < y.token))) mine.length mine

def countMsg (p : MoeP) (a : Adm) (src dst : Nat) : List Byte := leBytes (bidsTo p a src dst).length 4
def bidMsg (p : MoeP) (a : Adm) (r src dst : Nat) : List Byte :=
  (bidsTo p a src dst).flatMap fun x => leBytes x.token 4 ++ leBytes x.score 4 ++ leBytes x.expert 2 ++ leBytes x.slot 1 ++
    leBytes r 1 ++ List.replicate 4 0
def grantMsg (p : MoeP) (a after : Adm) (src dst : Nat) : List Byte :=
  (bidsTo p a dst src).flatMap fun x =>
    let sl := (((after.toks.getD x.src []).getD x.token ([], [])).2.getD x.slot ⟨0, 0, none, 0, true⟩)
    leBytes (sl.row.getD 0xFFFFFFFF) 4

/-- The gates of a token from its slots' scores (R287), as FP32 bits, with a saturation event. -/
def gates (scores : List Nat) : List Nat × Bool :=
  let s := scores.map c32
  let m : FVal := (foldl1 (fun (a b : FVal) => (if gtF b a then b else a, false)) FVal.nan s).1
  let bad := match m with | .fin _ _ _ => s.any (· == FVal.nan) | _ => true
  if bad then (s.map fun _ => 0x7FC00000, false)
  else
    let ex := s.map fun x => expF (add32 x (negF m)).1
    let sum : FVal := (foldl1 add32 FVal.nan (ex.map (·.1))).1
    let rc := (rcpF sum).1
    (ex.map fun e => (toBits fp32 (mul32 e.1 rc).1).1, ex.any (·.2))

/-- A table header of R279 (KIND 1 ASSIGN, 2 ORIGIN, 3 SELECT). -/
def tableHeader (p : MoeP) (valid : Bool) (kind rows dropped : Nat) : List Byte :=
  let sc := kind == 3
  leBytes (mk [(63, 63, b2n valid), (62, 60, kind), (47, 0, if sc then 0 else p.cseq)]) 8 ++
  leBytes (mk [(63, 32, if sc then 0 else p.gid), (31, 0, if sc then 0 else p.gen)]) 8 ++
  leBytes (mk [(63, 40, p.T), (39, 29, p.E), (28, 25, p.k), (24, 24, p.policy), (23, 22, p.rounds)]) 8 ++
  leBytes (mk [(63, 40, if sc then 0 else p.cap), (39, 27, p.rank)]) 8 ++
  leBytes (mk [(63, 32, rows), (31, 0, dropped)]) 8 ++ List.replicate 24 0

/-- One record of ASSIGN (R280). -/
def assignRecord (gate score row expert status round : Nat) : List Byte :=
  leBytes gate 4 ++ leBytes score 4 ++ leBytes row 4 ++ leBytes expert 2 ++ leBytes status 1 ++ leBytes round 1

/-- The records of ASSIGN for a member's tokens after admission (R280, R287), with a saturation event. -/
def assignBytes (toks : List (List (Nat × Nat) × List Slot)) : List Byte × Bool :=
  let rs := toks.map fun tk =>
    let g := gates (tk.2.map (·.score))
    (((List.range tk.2.length).map fun j =>
      let s := tk.2.getD j ⟨0, 0, none, 0, true⟩
      assignRecord (g.1.getD j 0) s.score (s.row.getD 0xFFFFFFFF) s.expert (if s.row.isSome then 0 else 1) s.round).flatten, g.2)
  ((rs.map (·.1)).flatten, rs.any (·.2))

/-- The records of an ASSIGN table written by SCORE (R288), with a saturation event. -/
def selectBytes (k : Nat) (rows : List (List Nat)) : List Byte × Bool :=
  let rs := rows.map fun row =>
    let c := candidates k row
    let g := gates (c.map (·.2))
    (((List.range c.length).map fun j =>
      let x := c.getD j (0, 0)
      assignRecord (g.1.getD j 0) x.2 0xFFFFFFFF x.1 2 0).flatten, g.2)
  ((rs.map (·.1)).flatten, rs.any (·.2))

/-- The drop list of a member (R282): its dropped slots in token and slot order. -/
def dropList (toks : List (List (Nat × Nat) × List Slot)) : List (List Byte) :=
  ((List.range toks.length).map fun t =>
    let sl := (toks.getD t ([], [])).2
    (List.range sl.length).filterMap fun j =>
      match sl[j]? with
      | some s => if s.row.isNone then some (leBytes t 4 ++ leBytes s.expert 2 ++ leBytes j 1 ++ leBytes s.round 1) else none
      | none => none).flatten

/-- The origin of one row of an owner's receive buffer: source rank, token, slot. -/
def originOf (p : MoeP) (a : Adm) (e row : Nat) : Option (Nat × Nat × Nat) :=
  (((List.range p.N).map fun s =>
    let ts := a.toks.getD s []
    ((List.range ts.length).map fun t =>
      let sl := (ts.getD t ([], [])).2
      (List.range sl.length).filterMap fun j =>
        match sl[j]? with
        | some x => if x.expert == e && x.row == some row then some (s, t, j) else none
        | none => none).flatten).flatten).head?

/-- RCOUNT and the records of ORIGIN for this member's experts (R281). -/
def originBytes (p : MoeP) (a : Adm) : List Byte :=
  let epm := p.E / p.N
  let cnts := (List.range epm).map fun l => a.granted.getD (p.rank * epm + l) 0
  slice ((cnts.map fun c => leBytes c 4).flatten) 0 (upTo (4 * epm) 64) ++
  ((List.range epm).map fun l => ((List.range p.cap).map fun i =>
    match originOf p a (p.rank * epm + l) i with
    | some (s, t, j) => leBytes t 4 ++ leBytes s 2 ++ leBytes j 1 ++ leBytes 1 1
    | none => List.replicate 8 0).flatten).flatten

/-- The rows this member receives: (row index in RECV, source rank, token) (R293). -/
def recvRows (p : MoeP) (a : Adm) : List (Nat × Nat × Nat) :=
  let epm := p.E / p.N
  ((List.range epm).map fun l => (List.range (a.granted.getD (p.rank * epm + l) 0)).filterMap fun i =>
    (originOf p a (p.rank * epm + l) i).map fun o => (l * p.cap + i, o.1, o.2.1)).flatten

/-- One output row of COMBINE (R299) from the admitted slots' gates and YOUT rows, and the preload row. -/
def combineRow (f d : Nat) (ys : List (Nat × List Byte)) (pre : Option (List Byte)) : List Byte × Bool :=
  let vs := ys.map fun y => (c32 y.1, (decodeVec f 0 d y.2).map fval)
  let rows := (List.range d).map fun i =>
    let ps := vs.map fun v => mul32 v.1 (v.2.getD i .nan)
    let acc := foldl1 add32 (.fin false 0 0) (ps.map (·.1))
    let z := match pre with
      | some b => let q := add32 (fval ((decodeVec f 0 d b).getD i zeroElem)) acc.1; (q.1, acc.2 || q.2)
      | none => acc
    let o := encodeNum f (.fp z.1)
    (leBytes o.1 (elemBits f / 8), ps.any (·.2) || z.2 || o.2)
  ((rows.map (·.1)).flatten, rows.any (·.2))

end Sys2Proof.Machine
end

