-- ==== Sys2Proof/Machine/State.lean ====
section
/-!
DEFINITION. The state of the block: every register, table, queue, counter, mode and pin that the spec names, as plain data.
-/
namespace Sys2Proof.Machine

/-- A register whose fields take effect at a dip window: the value stored, the value stored as the dip window opened, and the value
in force (R380, R745). -/
structure Dip where
  stored : Word
  due : Word
  force : Word
deriving DecidableEq, Repr

/-! ### Pennants (chapter 10) -/

/-- A physical pennant (R436). -/
structure Pen where
  value : Word
  lastEp : Nat
  lastFn : Nat
  lastKind : Nat
  lastTag : Nat
  sigCount : Nat
  waiters : Nat
  mapped : Bool
  fn : Nat
  vid : Nat
deriving DecidableEq, Repr

/-- A pending D2D watch (R457, R459): port, watch tag, physical pennant, function, form, value, mask. -/
structure Watch where
  port : Nat
  wtag : Nat
  pen : Nat
  f : Nat
  form : Nat
  value : Word
  mask : Word
deriving DecidableEq, Repr

/-! ### Groups, rosters, hoists (chapter 03) -/

/-- A group entry (R116); LOCAL_k as (function, rank). `events` are the break events applied to the current generation
as (cause, rank, stamp) (R137, R141). -/
structure Group where
  valid : Bool
  state : Nat
  autoReform : Nat
  n : Nat
  gen : Nat
  gid : Nat
  base : Nat
  timeout : Nat
  minMembers : Nat
  brokenCause : Nat
  brokenRank : Nat
  derivedM : Nat
  pinUsed : Nat
  derivedBase : Nat
  digest : Nat
  locs : List (Nat × Nat)
  events : List (Nat × Nat × Nat)
deriving DecidableEq, Repr

/-- A hoist handle (R152), with what its compilation set by hand (R149): the fields a re-formation keeps, and the command
count bound to it (R151). -/
structure Hoist where
  valid : Bool
  pinned : Bool
  beatAligned : Bool
  atomicLocal : Bool
  alg : Nat
  inner : Nat
  fanin : Nat
  chunkLog2 : Nat
  sizeClass : Nat
  pin : Nat
  gen : Nat
  gid : Nat
  opcode : Nat
  format : Nat
  oper : Nat
  xform : Nat
  xparam : Nat
  seed : Nat
  steps : Nat
  beats : Nat
  window : Nat
  tolK : Nat
  tilesLo : Nat
  tilesHi : Nat
  seqPerTile : Nat
  ports : Nat
  halyardBase : Nat
  halyardCount : Nat
  stagingNeed : Nat
  /-- Bits of R149: 0 SEED, 1 CHUNK_LOG2, 2 FANIN, 3 INNER, 4 WINDOW, 5 tile mask, 6 port mask set by command. -/
  kept : Nat
  /-- The HALYARD option (R578). -/
  halyardOpt : Nat
  /-- Commands in flight bound to it. -/
  bound : Nat
  /-- Order of last use among shared handles (R151). -/
  used : Nat
  /-- HOIST_RELEASE has set it to release (R576). -/
  leaving : Bool
deriving DecidableEq, Repr

/-- A halyard entry (R356). -/
structure Haly where
  valid : Bool
  active : Bool
  /-- Its RESERVE_REPLY has granted it (R361, R362). -/
  granted : Bool
  inPort : Nat
  outPort : Nat
  outId : Nat
  handle : Nat
  resFloor : Nat
  step : Nat
  start : Nat
  len : Nat
  originEp : Nat
  originIdx : Nat
  actBeat : Nat
  /-- At the starting engine: the destination that firmware reserved it for (R360). -/
  dst : Nat
deriving DecidableEq, Repr

/-- The latest PROGRESS of a command (R508): its LSN, subkind, A, and words 4 to 7. -/
structure Prog where
  lsn : Nat
  sub : Nat
  a : Nat
  w : List Nat
deriving DecidableEq, Repr

/-- A stream-table entry (R435). -/
structure Stream where
  valid : Bool
  state : Nat
  cls : Nat
  sharded : Bool
  autoClose : Bool
  followsValid : Bool
  follows : Nat
  followers : List Nat
  queue : Nat
  vol : Bool
  srcSpace : Nat
  dstSpace : Nat
  slotLog2 : Nat
  nslots : Nat
  flyPen : Nat
  creditPen : Nat
  creditBase : Word
  drainNs : Nat
  tag : Nat
  opcode : Nat
  srcBase : Nat
  dstBase : Nat
  len0 : Nat
  counts : List Nat
  strides : List Nat
  gid : Nat
  gen : Nat
  cseq : Nat
  rank : Nat
  handle : Nat
  flies : Nat
  delivered : Nat
  /-- Bytes of the pieces that are visible in slots not yet flied, and pieces in flight (R415, R420). -/
  staged : Nat
  /-- Bytes of the piece in flight that have come, its tail among them. -/
  got : Nat
  openId : Nat × Nat
  acceptLsn : Nat
  lines : Nat
  fault : Nat
  closing : Nat
  served : List (Nat × Nat)
  servedAll : Bool
  /-- The entries of the open command as taken, and the latest PROGRESS (R508, R512). -/
  raw : List Byte
  prog : Option Prog
deriving DecidableEq, Repr

/-- The tables that TABLE_READ returns as they stood at the last dip window (R580). -/
structure Tables where
  group : Tab Group
  roster : Tab Nat
  route : Tab Nat
  mcast : Tab (List Nat)
  haly : Tab Haly
  hoist : Tab Hoist
  dir : Tab Nat
  stream : Tab Stream
deriving DecidableEq, Repr

/-! ### Commands, queues, functions (chapters 11 and 12) -/

/-- The phases of a command: its ACCEPT issued, accepted, dispatched, ended (R515, R516, R542). -/
inductive Phase where
  | taken
  | accepted
  | running
  | ended
deriving DecidableEq, Repr

/-- An accepted command (R515 to R528). `raw` are its entries as taken, 64 bytes each. -/
structure Cmd where
  id : CmdId
  raw : List Byte
  phase : Phase
  status : Nat
  result : Nat
  satTiles : Nat
  /-- Completion flags of R521: bit 0 NONDET, 1 REPLAYED, 3 DROP_TRUNC. -/
  flags : Nat
  lsn : Nat
  lines : Nat
  prog : Option Prog
  /-- The rank of the issuing member (R126). -/
  rank : Nat
  handle : Option Nat
  staging : Nat
  split : Bool
  /-- The wait registered on a physical pennant (R452, R453), and whether the wait clause is done (R451). -/
  waitOn : Option Nat
  waitDone : Bool
  /-- The head waits for a generation, a handle or staging (R485), and since which beat (R127). -/
  headOther : Bool
  waitBeat : Nat
  dispBeat : Nat
  /-- Chunks of the command, chunks visible, flies raised, saturated chunks (R92 to R94, R197). -/
  chunks : Nat
  ready : Nat
  flies : Nat
  satChunks : List Nat
  /-- Sequenced packets sent and those acknowledged (R82, R319), remote flies sent (R462), whether the SIGNAL is on its
  way (R464). -/
  sent : Nat
  acked : Nat
  rflies : Nat
  sigSent : Bool
  /-- Bytes of GET responses written so far, per request offset (R353). -/
  gotten : List Nat
  /-- Data packets received for it: (step, source rank, offset, length) (R318). -/
  recvd : List (Nat × Nat × Nat × Nat)
  /-- A management command's APPLIED LSN (R527) and the count of QUEUE_SHUTDOWN. -/
  applied : Option Nat
  count : Nat
  /-- Bytes of DST of a COMBINE, from the header of its ASSIGN table (R300). -/
  extent : Nat
  /-- Whether the command's own effect has been carried out. -/
  effectDone : Bool
deriving DecidableEq, Repr

/-- A queue (R481 to R486). -/
structure Queue where
  state : Nat
  cls : Nat
  base : Nat
  log2 : Nat
  scanPending : Bool
  scanSlot : Nat
  rseq : Nat
  taken : Nat
  ringFault : Bool
  /-- The state before the function was fenced (R619). -/
  was : Nat
deriving DecidableEq, Repr

/-- A record that waits for space in the completion ring (R525): its words 0 (without PHASE) to 3, and for a completion
its command. -/
structure RingRec where
  w : List Nat
  cmd : Option CmdId
deriving DecidableEq, Repr

/-- One message-signalled vector (R765, R766). -/
structure Msi where
  mask : Bool
  addr : Nat
  pend : Bool
  data : Nat
deriving DecidableEq, Repr

/-- Early data in the spill region of a function (R60, R648): its first 4 KiB unit, the units it takes, the key epoch. -/
structure Spilled where
  unit : Nat
  units : Nat
  epoch : Nat
  pkt : Pkt
deriving DecidableEq, Repr

/-- A function and its page (R164, R481 to R529, R575, R620 to R623, R647, R761 to R769). -/
structure Fn where
  enabled : Bool
  fenced : Bool
  disabling : Bool
  enableHeld : Option CmdId
  nq : Nat
  groupQuota : Nat
  rosterQuota : Nat
  stagingQuota : Nat
  context : Nat
  d2dMask : Nat
  logBase : Nat
  logLog2 : Nat
  epoch : Nat
  queues : Tab Queue
  head : Nat
  tailAnchor : Nat
  appliedLsn : Nat
  unquiesced : Bool
  cqEn : Bool
  cqBase : Nat
  cqLog2 : Nat
  consumed : Nat
  produced : Nat
  full : Bool
  ringWait : List RingRec
  eqEn : Bool
  eqBase : Nat
  eqLog2 : Nat
  eqConsumed : Nat
  eqProduced : Nat
  eqLost : Nat
  dropping : Bool
  dropped : Nat
  spEn : Bool
  spBase : Nat
  spLog2 : Nat
  spill : List Spilled
  keyEpoch : Nat
  irqCfg : Word
  irqA : Nat
  msi : Tab Msi
  penSel : Word
  penVal : Word
  penCnt : Word
  penLast : Word
  strSel : Word
  strState : Word
  strDeliv : Word
  strCur : Word
  strCur0 : Word
  episodes : Nat
  deadlocked : Bool
  /-- Beats in succession in which nothing of the function moved (R476). -/
  stillBeats : Nat
  moved : Bool
  stagingUsed : Nat
deriving DecidableEq, Repr

/-! ### Link ports and the fabric (chapters 07 and 16) -/

/-- Phases of training (R701): `reset` also while the lanes idle before a new attempt, `done` once IDENT has come. -/
inductive TrainPhase where
  | reset
  | phy
  | lanes
  | key
  | frames
  | done
deriving DecidableEq, Repr

/-- A packet queued at a link output: its virtual network (0 REQC, 1 REQO, 2 REP), the port it came from (63: injected
here), whether it is entering (R335), its remaining cells, whether it has started (R339). -/
structure QPkt where
  vn : Nat
  src : Nat
  entering : Bool
  started : Bool
  cells : List FCell
deriving DecidableEq, Repr

/-- A sealed frame kept for replay (R328). -/
structure SentFrame where
  fseq : Nat
  cells : List FCell
deriving DecidableEq, Repr

/-- What a port knows from the marks received on it (R385, R386): the last mark, the local beat and the time in it when it came, beat
starts since, the offset and delay measured with it, and whether it carried an echo. -/
structure MarkInfo where
  mark : Option Mark
  rxBeat : Nat
  rx : Nat
  age : Nat
  theta : Int
  delay : Int
  known : Bool
deriving DecidableEq, Repr

/-- A PRBS checker of one lane (R789): its generator's last bits, newest first, the correct bits in a row, its lock, the errors counted, the
ages in bits of those within 1,024 bits. -/
structure Checker where
  hist : List Bool
  run : Nat
  lock : Bool
  err : Nat
  win : List Nat
deriving DecidableEq, Repr

/-- A link port: its page (R307 to R309, R700, R707, R708, R787), training (R701 to R706), frames (R323 to R335), the
output queues (R338), its pins (R694). -/
structure Port where
  enable : Bool
  ring : Nat
  ringDue : Nat
  ringForce : Nat
  cable : Nat
  cableForce : Nat
  wakeNs : Nat
  adaptMs : Nat
  wakeForce : Nat
  adaptForce : Nat
  state : Nat
  spared : Bool
  serves : Nat
  partnerPort : Nat
  partnerEp : Nat
  downCount : Nat
  crcErr : Nat
  retry : Nat
  retryRun : Nat
  authFail : Nat
  downDrop : Nat
  framing : Nat
  corrSym : Nat
  uncorr : Nat
  skewNs : Nat
  txActive : Nat
  rxActive : Nat
  rxFault : Nat
  laneRetrains : Nat
  phase : TrainPhase
  retraining : Bool
  phyRdy : Bool
  adapted : Nat
  goodMine : Nat
  goodTheirs : Nat
  sessOurs : Bool
  sessTheirs : Bool
  fsDone : Bool
  fsConflict : Bool
  msgs : List (Nat × Nat)
  msgNext : Nat
  trained : Bool
  txNext : Nat
  replay : List SentFrame
  rxNext : Nat
  nakDue : Bool
  /-- A NAK has come and its replay has not started; the first frame of the last replay, until it is acknowledged (R329, R330). -/
  nakRx : Bool
  retried : Option Nat
  /-- The input last served on each virtual network (R339). -/
  rr : List Nat
  fcIn : Nat
  fcOut : Nat
  rxPkt : List (Option (RHdr × List (List Byte)))
  /-- Packets received whole, with their virtual network, in the input buffer (R333). -/
  inq : List (Nat × Pkt)
  out : List QPkt
  linkQ : List (List Byte)
  halyQ : List FCell
  /-- Cell slots since the start of the local beat (R113). -/
  slot : Nat
  downBeats : List Nat
  rate : Nat
  inject : Nat
  /-- OTHER-class cells injected here towards it since the beat began (R364). -/
  injected : Nat
  idle : Nat
  /-- 0: awake; 1: a sleep request is out; 2: granted; 3: LP_REQ raised; 4: asleep; 5: waking (R709, R710). -/
  sleep : Nat
  /-- It has woken and has not measured an offset within the guard since (R397, R399). -/
  woke : Bool
  keyEpoch : Nat
  /-- A KEY_MGMT handshake that waits or runs: 0 none, 1 LINK_SESSION, 2 LINK_REKEY (R638). -/
  rekey : Nat
  mark : MarkInfo
  sentMarks : List (Nat × Nat)
  /-- A spare port may take this code at the next dip window (R43, R46). -/
  spareDue : Bool
  phyRstN : Bool
  txei : Nat
  adaptReq : Nat
  lpReq : Bool
  prbsAct : Bool
  prbsCtl : Word
  prbs : Tab Checker
  prbsBits : Nat
deriving DecidableEq, Repr

/-- A sequenced packet without acknowledgement (R349 to R352): whether HOLD refused it, whether its path is the alternate,
its resends, and the command that sent it. -/
structure Unacked where
  seq : Nat
  pkt : Pkt
  cmd : Option CmdId
  /-- The rank it is for (R644), and the halyard index of a halyard transfer (R363). -/
  rank : Nat
  haly : Option Nat
  held : Bool
  alt : Bool
  resends : Nat
  /-- For a multicast packet: its domain and the members still to acknowledge (R368). -/
  mcast : Option (Nat × Nat)
deriving DecidableEq, Repr

/-- A packet that has not left: its command and the rank it is for. -/
structure Unsent where
  pkt : Pkt
  cmd : Option CmdId
  rank : Nat
deriving DecidableEq, Repr

/-- What this engine keeps per destination or domain it sends to (R349): the next sequence, the unacknowledged packets,
packets waiting for the window, for a route or for a drain to end (R344, R370). -/
structure DstSt where
  next : Nat
  unacked : List Unacked
  waiting : List Unsent
deriving DecidableEq, Repr

/-- What this engine keeps per source (R350, R351): the highest sequence, those applied within the window, those to
acknowledge, GET requests being served. -/
structure SrcSt where
  high : Option Nat
  seen : List Nat
  due : List Nat
deriving DecidableEq, Repr

/-- A flow's path (R345, R352): the command, the destination, whether it takes the alternate. -/
structure Flow where
  cmd : CmdId
  dst : Nat
  alt : Bool
deriving DecidableEq, Repr

/-- A SIGNAL packet held until its data are visible (R319): the source, the packet, the port it arrived on. -/
structure HeldSig where
  port : Nat
  pkt : Pkt
deriving DecidableEq, Repr

/-- Data packets applied per (source endpoint, GID, generation, CSEQ, source rank) (R319, R461). -/
structure Applied where
  src : Nat
  gid : Nat
  gen : Nat
  cseq : Nat
  rank : Nat
  count : Nat
deriving DecidableEq, Repr

/-- A chunk transfer under arbitration at this engine as receiver (R602 to R607): the transfer by its source, command, rank, step and
first offset; the sequence of the packet with its tail, the tail's DIGEST, the function and TAG concerned, the tile, the kind of
mismatch with its values, and whether the recomputed transfer has failed too. -/
structure Arb where
  src : Nat
  dom : Option Nat
  gid : Nat
  gen : Nat
  cseq : Nat
  rank : Nat
  step : Nat
  off : Nat
  seq : Nat
  digest : Nat
  fn : Nat
  tag : Nat
  chunk : Nat
  tile : Nat
  check : Bool
  expected : Nat
  observed : Nat
  second : Bool
deriving DecidableEq, Repr

/-- A packet of a chunk transfer whose tail has not been checked: it is not acknowledged yet (R602). `dom` names the domain of a
multicast sequence. -/
structure Unver where
  src : Nat
  dom : Option Nat
  seq : Nat
  gid : Nat
  gen : Nat
  cseq : Nat
  rank : Nat
  step : Nat
  off : Nat
deriving DecidableEq, Repr

/-- A halyard transfer that waits for its window or is being sent in it (R395, R396): its command, prefix, destination rank, its
bytes, the bytes already sent, its E2E_SEQ once a window has taken it. -/
structure HTrans where
  cmd : CmdId
  idx : Nat
  pre : Prefix
  rank : Nat
  bytes : List Byte
  seq : Option Nat
deriving DecidableEq, Repr

/-- A halyard transfer in assembly at its ending engine (R359): the entry, the payloads received by CELL_SEQ, and the length
known so far when DATA packets took over (R396). -/
structure HRx where
  idx : Nat
  cells : List (Nat × List Byte)
  cut : Option Nat
deriving DecidableEq, Repr

/-- A ROUTE_UPDATE draining (R370, R371): its command, the affected destinations and domains, the beat it began in, the entries it
brings, whether its drain is over (its APPLIED is issued), and the bits of its result. -/
structure Drain where
  cmd : CmdId
  eps : List Nat
  doms : List Nat
  since : Nat
  routes : List (Nat × Nat)
  domains : List (Nat × List Nat)
  drainOff : Bool
deriving DecidableEq, Repr

/-- The fabric state shared by the ports. -/
structure Fabric where
  dst : Tab DstSt
  mdst : Tab DstSt
  src : Tab SrcSt
  msrc : Tab SrcSt
  flows : List Flow
  arrived : List (Nat × Pkt)
  heldSigs : List HeldSig
  /-- ATOMIC packets of transfers whose tail has not come (R602). -/
  atoms : List Pkt
  applied : List Applied
  arbs : List Arb
  /-- Packet sequence PSEQ counters per (SRC, DST, NET, CLASS), keyed by dst·4 + net·2 + class (R311). -/
  pseq : Tab Nat
  drain : Option Drain
  /-- Abort notices held for commands not yet accepted (R60): (GID, generation, CSEQ, status). -/
  aborts : List (Nat × Nat × Nat × Nat)
  unver : List Unver
  /-- MODEL: (GID, generation, CSEQ) of commands that have ended at this engine, whose late packets are acknowledged. -/
  ended : List (Nat × Nat × Nat)
  halyT : List HTrans
  halyRx : List HRx
deriving DecidableEq, Repr

/-! ### D2D ports (chapter 16) -/

/-- A D2D message (R715, R716). -/
structure DMsg where
  type : Nat
  flags : Nat
  fn : Nat
  tag : Nat
  arg : Nat
  body : List Byte
deriving DecidableEq, Repr

/-- What an access of Dresis to a die is for (R719). -/
structure DOut where
  tag : Nat
  write : Bool
  addr : Nat
  who : FlyRef
deriving DecidableEq, Repr

/-- An access of a die that has no answer yet (R719): its number at the port, the die's tag, its function, the virtual address, whether it
writes, the bytes it writes as (offset, bytes), the lines it reads. -/
structure DAcc where
  n : Nat
  tag : Nat
  f : Nat
  va : Nat
  wr : Bool
  runs : List (Nat × List Byte)
  lines : Nat
deriving DecidableEq, Repr

/-- A fenced SET or ADD that waits for the writes the port passed before it (R458), by their numbers. -/
structure DHeld where
  f : Nat
  vid : Nat
  tag : Nat
  add : Bool
  value : Word
  waits : List Nat
deriving DecidableEq, Repr

/-- A D2D port (R712 to R722): credits held for sending and granted to the die, messages waiting for credit, Dresis's own
accesses, the die's accesses without an answer and the number of the next, fenced operations held. -/
structure D2d where
  state : Nat
  cfgErr : Bool
  denied : Nat
  dropped : Nat
  linkLoss : Nat
  everActive : Bool
  stateReq : Nat
  cReq : Nat
  cRsp : Nat
  cOth : Nat
  gReq : Nat
  gRsp : Nat
  gOth : Nat
  /-- OTH credits withheld from the die until the next beat (R364, R719). -/
  owed : Nat
  outq : List DMsg
  sent : List DMsg
  outs : List DOut
  nextTag : Nat
  accs : List DAcc
  nextAcc : Nat
  held : List DHeld
deriving DecidableEq, Repr

/-! ### Memory ports (chapter 16) -/

/-- What a memory access is for: a command's or stream's data, a logbook record (R507) or anchor (R510), an interrupt write
(R730), an access of a die (R719), the data of a point-to-point command of another engine at its target (R128). -/
inductive MUse where
  | cmd (id : CmdId) (space va : Nat)
  | stream (f n : Nat) (va : Nat)
  | log (f lsn : Nat)
  | anchor (f : Nat)
  | msi (f v : Nat)
  | die (p n : Nat)
  | remote (ep gid gen cseq rank va : Nat)
deriving DecidableEq, Repr

/-- A read outstanding or waiting for credit (R723 to R725). -/
structure MRd where
  tag : Nat
  addr : Nat
  lines : Nat
  vol : Bool
  use : MUse
deriving DecidableEq, Repr

/-- A write outstanding or waiting for credit: the bytes it enables as runs (key, bytes), and the credits it takes. -/
structure MWr where
  tag : Nat
  bytes : List (Nat × List Byte)
  puts : Nat
  msi : Bool
  use : MUse
deriving DecidableEq, Repr

/-- A translation outstanding or waiting for credit (R729): context, page, write intent, and whether an invalidation taken
meanwhile covers it. -/
structure MXl where
  tag : Nat
  ctx : Nat
  page : Nat
  wr : Bool
  stale : Bool
  use : MUse
deriving DecidableEq, Repr

/-- A memory port (R723 to R733). -/
structure MemP where
  state : Nat
  rq : Nat
  wq : Nat
  xq : Nat
  reads : List MRd
  writes : List MWr
  xlats : List MXl
  rdWait : List MRd
  wrWait : List MWr
  xlWait : List MXl
  /-- Invalidations taken and not yet answered: tag, and the physical ranges (base, length) whose requests they wait for. -/
  invals : List (Nat × List (Nat × Nat))
  done : List Nat
  errResp : Nat
  halt : Bool
  halted : Bool
deriving DecidableEq, Repr

/-- A kept translation (R729): context, virtual page and physical page (as addresses), log2 size, writes permitted. -/
structure Xl where
  ctx : Nat
  vpage : Nat
  ppage : Nat
  size : Nat
  wr : Bool
deriving DecidableEq, Repr

/-! ### The part, the block's life, and its flops (chapters 00, 01, 11, 15, 17) -/

/-- What is fixed at production (R3, R6, R7, R29, R239, R629, R650): the disabled physical sector of a DRS4-7S part, logical tiles
repaired by their sector's spare, and the fused SVN floor at its last cold reset. -/
structure Part where
  disabled : Option Nat
  repaired : List Nat
deriving DecidableEq, Repr

/-- The phases of a block reset (R686, R689); `run` outside one. -/
inductive RstPhase where
  | run
  | quiesce
  | firmware
  | replay
deriving DecidableEq, Repr

/-- Resets, firmware and the loss of the block (R8, R626, R685 to R689, R771). -/
structure Life where
  scanMode : Bool
  /-- RST_N is low or RST_DONE has not risen (R683). -/
  inReset : Bool
  fwVersion : Nat
  /-- Cause bits of BLK_FATAL, bits 0 to 6 (R626). -/
  fatal : Nat
  phase : RstPhase
  lastCold : Bool
  unquiesced : Nat
  blockResets : Nat
  replayUs : Nat
  /-- BEAT_CFG.RUN was 1 when the block reset began (R686). -/
  runWas : Bool
deriving DecidableEq, Repr

/-- A captured request of FLT_FENCE (R613), and fences decided elsewhere that firmware carries out in a dip window. -/
structure FenceReq where
  kind : Nat
  index : Nat
deriving DecidableEq, Repr

/-- Flop registers outside the function, link and beat pages (R744): values stored and, where the next dip window governs,
values in force (R745). -/
structure Ctl where
  arbSlack : Dip
  penDlck : Dip
  arrCur : Dip
  floor : Dip
  throttle : Dip
  e2e : Dip
  pwrLink : Dip
  admin : Word
  adminCtx : Word
  msiPort : Nat
  fabSelf : Word
  align : Nat
  pwrLimits : Word
  fences : List FenceReq
deriving DecidableEq, Repr

/-- An endpoint that has been an IDENT partner (R393): the local beat of its last KEEP_ALIVE, and whether it is declared
absent. -/
structure Seen where
  ep : Nat
  last : Nat
  absent : Bool
deriving DecidableEq, Repr

/-- The beat unit (R373 to R394). Fields of BEAT_CFG as stored; `per`, `grd`, `dip` govern the current beat. -/
structure Beat where
  run : Bool
  source : Nat
  dipLen : Nat
  guard : Nat
  period : Nat
  per : Nat
  grd : Nat
  dip : Nat
  /-- The beats are those of a running master or FABRIC engine, not pre-run beats (R381). -/
  live : Bool
  /-- The dip window of the current beat is open (R379). -/
  inDip : Bool
  locked : Bool
  master : Bool
  cfgErr : Bool
  mismatch : Bool
  parent : Nat
  dist : Nat
  offset : Int
  lockLoss : Nat
  count : Nat
  overrun : Nat
  demote : Nat
  masterEp : Option Nat
  /-- BEAT_IN: the local time of the last edge, edges missed in a row (R387). -/
  edge : Option Nat
  missed : Nat
  /-- Consecutive measurements with |θ| ≤ 8 ns against the parent (R388). -/
  good : Nat
  /-- The count adopted from the parent at the next beat start, and the phase step (R388). -/
  adopt : Option Nat
  step : Int
  lostBeat : Option Nat
  /-- The command engine has completed its tick of this beat (R392). -/
  ticked : Bool
  beatOut : Bool
  seen : List Seen
deriving DecidableEq, Repr

/-! ### Units: tiles, sectors, cores (chapters 01, 05, 13, 17, 18) -/

/-- A logical tile (R30, R43 to R51, R754, R755, R790): its state, the spares it uses, the cause and beat of its last fence,
replacements due at the next dip window, event counts, transient beats (R608), counters, and per array the activity level
and the idle gap (R234). -/
structure Tile where
  state : Nat
  slot : Nat
  arrSpare : Bool
  arrIdx : Nat
  seqSpares : Nat
  /-- Logical sequencers that spare sequencers 32 and 33 serve, in the order they were taken (R43). -/
  seqIdx : List Nat
  cause : Nat
  fenceBeat : Nat
  /-- The sector's spare tile is to take this number at the next dip window (R43). -/
  due : Bool
  /-- Logical arrays and sequencers fenced whose spares take over at the next dip window. -/
  arrDue : List Nat
  seqDue : List Nat
  arbRx : Nat
  transient : Nat
  sat : Nat
  selftest : Nat
  transBeats : List Nat
  busy : Nat
  slivers : Nat
  real : Nat
  dummy : Nat
  eccCorr : Nat
  rows : Nat
  fault : Nat
  level : List Nat
  gap : List Nat
deriving DecidableEq, Repr

/-- A logical sector (R48, R753): fenced or not, the slot of its unused spare tile (0x1F: none), cause and beat of its
fence, and the power state of R658 to R668. -/
structure Sector where
  fenced : Bool
  spare : Nat
  cause : Nat
  fenceBeat : Nat
  temp : Nat
  opp : Nat
  policyOpp : Nat
  fmin : Nat
  fmax : Nat
  actMax : Nat
  thermal : Bool
  /-- A raise that waits for its voltage, or whose voltage is granted, with the target OPP (R660). -/
  raiseTo : Option Nat
  granted : Bool
  /-- The clock runs from the bypass until a PLL_RETUNE (R658). -/
  bypass : Bool
deriving DecidableEq, Repr

/-- A control core (R36, R37, R751). -/
structure CoreSt where
  fenced : Bool
  role : Nat
  restarting : Bool
deriving DecidableEq, Repr

/-- The block's power state (R659 to R668): the cap, the limits in force, the voltage request, the estimates. -/
structure Pwr where
  cap : Nat
  crit : Bool
  current : Bool
  pmax : Bool
  emerg : Bool
  vgrant : Bool
  vreq : Nat
  vreqValid : Bool
  vgranted : Nat
  watts : Nat
  amps : Nat
  sumW : Nat
  sumA : Nat
  samples : Nat
  /-- Estimates in a row below the clearing value of CURRENT and of PMAX (R665). -/
  lowA : Nat
  lowW : Nat
  /-- Largest activity level that the cap allows (R664). -/
  actCap : Nat
  /-- PWR_MON_STB (R736). -/
  monStb : Bool
deriving DecidableEq, Repr

/-- Security (R638 to R654). Keys are numbers that no register shows; `gks` holds a key per (GID, generation). -/
structure Sec where
  idValid : Bool
  fwSlot : Nat
  svn : Nat
  svnFloor : Nat
  hostSessions : Nat
  hsFail : Nat
  fsConflict : Nat
  fs : Option Nat
  gks : List (Nat × Nat × Nat)
  erased : Bool
deriving DecidableEq, Repr

/-- The test controller (R772 to R780). -/
structure Test where
  ir : Nat
  capture : Word
  tapActive : Bool
  flashOk : Bool
  patternsOk : Bool
  selftestBusy : Bool
  flashBusy : Bool
  patVer : Nat
  flashKib : Nat
  dbgDis : Bool
  flashRel : Bool
  flashRelDue : Bool
deriving DecidableEq, Repr

/-- A management change that a dip window carries out once its APPLIED record is durable (R527, R574). -/
structure Staged where
  cmd : CmdId
  lsn : Nat
  /-- Pennant blocks reserved, or to be returned (R442, R444); for other commands the indices reserved. -/
  held : List Nat
  /-- The change is in force and waits for commands it has ended (R134, R148, R444). -/
  inForce : Bool
deriving DecidableEq, Repr

/-- A re-formation or formation under way at a group entry (R131, R141, R146): the beat in which it is to take effect,
the new generation, and the roster as (endpoint, function, absent or slow). -/
structure Forming where
  gid : Nat
  beat : Nat
  gen : Nat
  roster : List Nat
  cmd : Option CmdId
deriving DecidableEq, Repr

/-- A reservation walk that waits for its reply (R360 to R362): the command or key it serves, the halyard indices held, the
beat it began, and what the hoist still lacks. -/
structure Walk where
  idx : Nat
  outPort : Nat
  handle : Nat
  step : Nat
  dst : Nat
  beat : Nat
  cmd : Option CmdId
deriving DecidableEq, Repr

/-- A compile that a queue head or a HOIST_COMPILE waits for (R36, R154): it ends when no walk is left. -/
structure Compile where
  handle : Nat
  hoist : Hoist
  cmd : CmdId
  explicit : Bool
  walks : Nat
deriving DecidableEq, Repr

/-- The block-wide deadlock detector (R479): beats without movement, reported heads, detections. -/
structure Dlck where
  still : Nat
  reported : Bool
  episodes : Nat
deriving DecidableEq, Repr

/-- What the shadow registers show that only a dip window updates (R744): the sources as they stood at the last one. `beat` also
follows changes of LOCKED (R375); `ovr` are OVERRUN and DEMOTE of BEAT_OVR, `free` is PEN_FREE. -/
structure Shadow where
  tiles : List Tile
  sectors : List Sector
  pwr : Pwr
  beat : Beat
  ovr : Nat × Nat
  sec : Sec
  fns : Tab Fn
  free : Nat
deriving DecidableEq, Repr

/-- What stood requested as the dip window opened, and takes effect in the first cycle of the following beat (R380): staged changes,
re-formations, fences asked for by the host, fenced arrays and sequencers by tile, fenced tiles and ports that wait for a spare, ports
that have trained, halyard entries that become active or are freed, pages to unmap for functions that are being disabled, OPPs. -/
structure Due where
  staged : List CmdId
  reforms : List Nat
  fences : List FenceReq
  arrs : List (Nat × List Nat)
  seqs : List (Nat × List Nat)
  tiles : List Nat
  spares : List Nat
  ups : List Nat
  halyOn : List Nat
  halyOff : List Nat
  unmaps : List Nat
  opps : List (Nat × Nat)
deriving DecidableEq, Repr

/-- Everything of the block but its memory and its queue of commands. -/
structure Blk where
  part : Part
  life : Life
  ctl : Ctl
  beat : Beat
  pwr : Pwr
  sec : Sec
  test : Test
  tiles : List Tile
  sectors : List Sector
  cores : List CoreSt
  restarts : Nat
  t : Tables
  /-- The tables as they stood at the last dip window (R119, R580). -/
  snap : Tables
  shadow : Shadow
  due : Due
  pens : Tab Pen
  watches : List Watch
  fns : Tab Fn
  cmds : List Cmd
  dlck : Dlck
  staged : List Staged
  forming : List Forming
  walks : List Walk
  compiles : List Compile
  ports : List Port
  fab : Fabric
  d2d : List D2d
  memp : List MemP
  xlats : List Xl
  /-- MODEL: counts the free values drawn so far (Config). -/
  fresh : Nat
  /-- MODEL: bytes made visible by the command being carried out, in order; empty between commands. -/
  stores : List (Nat × List Byte)
deriving DecidableEq, Repr

/-- The machine: the block, package memory as it observes it (bytes at space·2^57 + address; an unlisted byte reads 0), and the
commands and events that wait, first in, first out. -/
structure State where
  b : Blk
  mem : Tab Byte
  pending : List Instr
deriving DecidableEq, Repr

/-- Why a run stops. -/
inductive Fault where
  /-- Raised by ACCEPT and COMMAND_DISPATCH on a command that breaks a rule without a status (R16, R72, R492, R549): R548
  calls its behaviour undefined within its function. Safe: the hardware goes on. -/
  | malformedCommand (id : CmdId)
deriving DecidableEq, Repr

/-- What the model turns away. -/
inductive Refusal where
  /-- Raised by the dispatch of a row without a meaning yet. Safe: the hardware goes on. -/
  | notModelled (mnemonic : String)
deriving DecidableEq, Repr

/-! ### Reset (R681 to R684, R747) -/

def group0 : Group :=
  { valid := false, state := 0, autoReform := 0, n := 0, gen := 0, gid := 0, base := 0, timeout := 0, minMembers := 0,
    brokenCause := 0, brokenRank := 0, derivedM := 0, pinUsed := 0, derivedBase := 0, digest := 0, locs := [], events := [] }

def hoist0 : Hoist :=
  { valid := false, pinned := false, beatAligned := false, atomicLocal := false, alg := 0, inner := 0, fanin := 0,
    chunkLog2 := 0, sizeClass := 0, pin := 0, gen := 0, gid := 0, opcode := 0, format := 0, oper := 0, xform := 0,
    xparam := 0, seed := 0, steps := 0, beats := 0, window := 0, tolK := 0, tilesLo := 0, tilesHi := 0, seqPerTile := 0,
    ports := 0, halyardBase := 0, halyardCount := 0, stagingNeed := 0, kept := 0, halyardOpt := 0, bound := 0, used := 0, leaving := false }

def haly0 : Haly :=
  { valid := false, active := false, granted := false, inPort := 0, outPort := 0, outId := 0, handle := 0, resFloor := 0, step := 0,
    start := 0, len := 0, originEp := 0, originIdx := 0, actBeat := 0, dst := 0 }

def stream0 : Stream :=
  { valid := false, state := 0, cls := 0, sharded := false, autoClose := false, followsValid := false, follows := 0,
    followers := [], queue := 0, vol := false, srcSpace := 0, dstSpace := 0, slotLog2 := 0, nslots := 0, flyPen := 0,
    creditPen := 0, creditBase := 0, drainNs := 0, tag := 0, opcode := 0, srcBase := 0, dstBase := 0, len0 := 0,
    counts := [], strides := [], gid := 0, gen := 0, cseq := 0, rank := 0, handle := 0, flies := 0, delivered := 0,
    staged := 0, got := 0, openId := (0, 0), acceptLsn := 0, lines := 0, fault := 0, closing := 0, served := [], servedAll := false,
    raw := [], prog := none }

def pen0 : Pen :=
  { value := 0, lastEp := 0, lastFn := 0, lastKind := 0, lastTag := 0, sigCount := 0, waiters := 0, mapped := false,
    fn := 0, vid := 0 }

def queue0 : Queue :=
  { state := 0, cls := 0, base := 0, log2 := 0, scanPending := false, scanSlot := 0, rseq := 0, taken := 0,
    ringFault := false, was := 0 }

/-- A vector is masked at reset (R765). -/
def msi0 : Msi := { mask := true, addr := 0, pend := false, data := 0 }

/-- A function page at reset (R481 to R519, R620 to R622, R647, R761 to R769). -/
def fn0 : Fn :=
  { enabled := false, fenced := false, disabling := false, enableHeld := none, nq := 0, groupQuota := 0, rosterQuota := 0,
    stagingQuota := 0, context := 0, d2dMask := 0, logBase := 0, logLog2 := 0, epoch := 0, queues := [], head := 0,
    tailAnchor := 0, appliedLsn := 0, unquiesced := false, cqEn := false, cqBase := 0, cqLog2 := 0, consumed := 0,
    produced := 0, full := false, ringWait := [], eqEn := false, eqBase := 0, eqLog2 := 0, eqConsumed := 0,
    eqProduced := 0, eqLost := 0, dropping := false, dropped := 0, spEn := false, spBase := 0,
    spLog2 := 0, spill := [], keyEpoch := 0, irqCfg := 0x0000000100000000#64, irqA := 0, msi := [],
    penSel := 0, penVal := 0, penCnt := 0, penLast := 0, strSel := 0, strState := 0, strDeliv := 0, strCur := 0,
    strCur0 := 0, episodes := 0, deadlocked := false, stillBeats := 0, moved := false, stagingUsed := 0 }

def tables0 : Tables :=
  { group := [], roster := [], route := [], mcast := [], haly := [], hoist := [], dir := [], stream := [] }

def checker0 : Checker := { hist := [], run := 0, lock := false, err := 0, win := [] }

/-- A link port at reset: electrical idle, DOWN, its own code (R307 to R309, R684, R700, R707, R708, R787). -/
def port0 (n : Nat) : Port :=
  { enable := false, ring := 0, ringDue := 0, ringForce := 0, cable := 0, cableForce := 0, wakeNs := 0x3E8, adaptMs := 0x14,
    wakeForce := 0x3E8, adaptForce := 0x14, state := 0, spared := false, serves := n, partnerPort := 0, partnerEp := 0,
    downCount := 0, crcErr := 0, retry := 0, retryRun := 0, authFail := 0, downDrop := 0, framing := 0, corrSym := 0,
    uncorr := 0, skewNs := 0, txActive := 0, rxActive := 0, rxFault := 0, laneRetrains := 0, phase := .reset,
    retraining := false, phyRdy := false, adapted := 0, goodMine := 0, goodTheirs := 0, sessOurs := false,
    sessTheirs := false, fsDone := false, fsConflict := false, msgs := [], msgNext := 0, trained := false, txNext := 0,
    replay := [], rxNext := 0, nakDue := false, nakRx := false, retried := none, rr := [63, 63, 63], fcIn := 0, fcOut := 0, rxPkt := [none, none, none], inq := [], out := [], linkQ := [], halyQ := [],
    slot := 0, downBeats := [], rate := 256, inject := 0, injected := 0, idle := 0, sleep := 0, woke := false, keyEpoch := 0, rekey := 0,
    mark := { mark := none, rxBeat := 0, rx := 0, age := 0, theta := 0, delay := 0, known := false }, sentMarks := [], spareDue := false, phyRstN := false, txei := 0x1FFF,
    adaptReq := 0, lpReq := false, prbsAct := false, prbsCtl := 0x0FFF800000000000#64, prbs := [], prbsBits := 0 }

def d2d0 : D2d :=
  { state := 0, cfgErr := false, denied := 0, dropped := 0, linkLoss := 0, everActive := false, stateReq := 0, cReq := 0,
    cRsp := 0, cOth := 0, gReq := 0, gRsp := 0, gOth := 0, owed := 0, outq := [], sent := [], outs := [], nextTag := 0, accs := [], nextAcc := 0,
    held := [] }

/-- A memory port at reset: every credit count zero (R684, R691). -/
def memp0 : MemP :=
  { state := 0, rq := 0, wq := 0, xq := 0, reads := [], writes := [], xlats := [], rdWait := [], wrWait := [],
    xlWait := [], invals := [], done := [], errResp := 0, halt := false, halted := false }

def tile0 (slot : Nat) : Tile :=
  { state := 0, slot := slot, arrSpare := false, arrIdx := 0, seqSpares := 0, seqIdx := [], cause := 0, fenceBeat := 0, due := false,
    arrDue := [], seqDue := [], arbRx := 0, transient := 0, sat := 0, selftest := 0, transBeats := [], busy := 0,
    slivers := 0, real := 0, dummy := 0, eccCorr := 0, rows := 0, fault := 0, level := List.replicate 8 0,
    gap := List.replicate 8 0 }

def sector0 : Sector :=
  { fenced := false, spare := 16, cause := 0, fenceBeat := 0, temp := 0, opp := 8, policyOpp := 8, fmin := 400,
    fmax := 1200, actMax := 16, thermal := false, raiseTo := none, granted := false, bypass := false }

def core0 : CoreSt := { fenced := false, role := 0, restarting := false }

def dstSt0 : DstSt := { next := 0, unacked := [], waiting := [] }

def srcSt0 : SrcSt := { high := none, seen := [], due := [] }

/-- The production values of the part (R3, R51): a DRS4 without repair, all eight sectors active (DESIGN CHOICE, log 2). -/
def part0 : Part := { disabled := none, repaired := [] }

def dip0 (v : Word) : Dip := { stored := v, due := v, force := v }

def due0 : Due :=
  { staged := [], reforms := [], fences := [], arrs := [], seqs := [], tiles := [], spares := [], ups := [], halyOn := [], halyOff := []
    unmaps := [], opps := [] }

def beat0 : Beat :=
  { run := false, source := 0, dipLen := 0xC8, guard := 0x40, period := 0x4E20, per := 0x4E20, grd := 0x40, dip := 0xC8
    live := false, inDip := false, locked := false, master := false, cfgErr := false, mismatch := false, parent := 63, dist := 255
    offset := 0, lockLoss := 0, count := 0, overrun := 0, demote := 0, masterEp := none, edge := none, missed := 0, good := 0
    adopt := none, step := 0, lostBeat := none, ticked := true, beatOut := false, seen := [] }

def pwr0 : Pwr :=
  { cap := 0, crit := false, current := false, pmax := false, emerg := false, vgrant := false, vreq := 800, vreqValid := false
    vgranted := 800, watts := 0, amps := 0, sumW := 0, sumA := 0, samples := 0, lowA := 0, lowW := 0, actCap := 16, monStb := false }

def sec0 (floor : Nat) : Sec :=
  { idValid := true, fwSlot := 0, svn := 0, svnFloor := floor, hostSessions := 0, hsFail := 0, fsConflict := 0, fs := none, gks := []
    erased := false }

/-- Tiles and sectors as produced (R51, R753, R754): a repaired tile holds its sector's spare slot. -/
def tilesOf (p : Part) : List Tile := (List.range 128).map fun t => if p.repaired.contains t then tile0 16 else tile0 (t % 16)
def sectorsOf (p : Part) : List Sector :=
  (List.range 8).map fun s => if p.repaired.any (fun t => t / 16 == s) then { sector0 with spare := 31 } else sector0

/-- The block right after a cold reset with RST_DONE high (R683, R747), apart from what it keeps (R654, R681): the part's
values and the fused SVN floor. -/
def blk0 (p : Part) (floor : Nat) : Blk :=
  { part := p
    life := { scanMode := false, inReset := false, fwVersion := 0, fatal := 0, phase := .run, lastCold := true,
              unquiesced := 0, blockResets := 0, replayUs := 0, runWas := false }
    ctl := { arbSlack := dip0 0x7D0, penDlck := dip0 0xC000000003E803E8#64, arrCur := dip0 0x100, floor := dip0 4,
             throttle := dip0 0x0100000004000100#64, e2e := dip0 0x40064, pwrLink := dip0 0x10, admin := 0,
             adminCtx := 0, msiPort := 0, fabSelf := 0, align := 0xFFFFF, pwrLimits := 0x000001C2646E0000#64,
             fences := [] }
    beat := beat0, pwr := pwr0, sec := sec0 floor
    test := { ir := 1, capture := 0, tapActive := false, flashOk := false, patternsOk := false, selftestBusy := false,
              flashBusy := false, patVer := 0, flashKib := 0, dbgDis := false, flashRel := false, flashRelDue := false }
    tiles := tilesOf p, sectors := sectorsOf p
    cores := [core0, core0, core0], restarts := 0, t := tables0, snap := tables0
    shadow := { tiles := tilesOf p, sectors := sectorsOf p, pwr := pwr0, beat := beat0, ovr := (0, 0), sec := sec0 floor, fns := [], free := 1024 }
    due := due0
    pens := [], watches := [], fns := []
    cmds := [], dlck := { still := 0, reported := false, episodes := 0 }, staged := [], forming := [], walks := []
    compiles := [], ports := (List.range 42).map port0
    fab := { dst := [], mdst := [], src := [], msrc := [], flows := [], arrived := [], heldSigs := [], atoms := [], applied := [],
             arbs := [], pseq := [], drain := none, aborts := [], unver := [], ended := [],
             halyT := [], halyRx := [] }
    d2d := List.replicate 4 d2d0, memp := List.replicate 16 memp0, xlats := [], fresh := 0, stores := [] }

/-- The machine right after reset: RST_DONE has risen, every register holds its reset value (R683, R747), memory lists
nothing, no command waits. Package memory is outside the block; an unlisted byte reads 0 (DESIGN CHOICE, log 1). -/
def State.reset : State := { b := blk0 part0 0, mem := [], pending := [] }

end Sys2Proof.Machine
end

