-- ==== Sys2Proof/Machine/Operands.lean ====
section
/-!
DEFINITION. Fields of a command packet (R487 to R492, R551 to R582): header, packet space, wait clause, and the fields of
each parameter block, read from the entries as taken.
-/
namespace Sys2Proof.Machine

/-- The header of a packet's first entry (R487). -/
def hdrOf (raw : List Byte) : Nat := leAt raw 0 8
/-- Packet space: bytes 8 to 63 of each entry, joined (R490). -/
def paramsOf (raw : List Byte) : List Byte := (chunksOf 64 raw).flatMap (·.drop 8)
/-- A field of n bytes at a packet offset. -/
def pf (c : Cmd) (off n : Nat) : Nat := leAt (paramsOf c.raw) off n
/-- Bits of one packet byte. -/
def pbits (c : Cmd) (off hi lo : Nat) : Nat := fld (pf c off 1) hi lo

def opOf (c : Cmd) : Nat := fld (hdrOf c.raw) 55 48
def tagOf (c : Cmd) : Nat := fld (hdrOf c.raw) 31 0
def clsOf (c : Cmd) : Nat := fld (hdrOf c.raw) 33 32
def entriesOf (c : Cmd) : Nat := c.raw.length / 64

def flVol (c : Cmd) : Bool := tb (hdrOf c.raw) 40
def flCounts (c : Cmd) : Bool := tb (hdrOf c.raw) 41
def flFly (c : Cmd) : Bool := tb (hdrOf c.raw) 42
def flPrior (c : Cmd) : Bool := tb (hdrOf c.raw) 43
def flUnordered (c : Cmd) : Bool := tb (hdrOf c.raw) 44
def flWait (c : Cmd) : Bool := tb (hdrOf c.raw) 45
def flRfly (c : Cmd) : Bool := tb (hdrOf c.raw) 46

/-! ### Kinds of opcode (R552) -/

def isColl (op : Nat) : Bool := decide (0x10 ≤ op) && decide (op ≤ 0x1A)
def isP2p (op : Nat) : Bool := decide (0x30 ≤ op) && decide (op ≤ 0x33)
def isOpen (op : Nat) : Bool := op == 0x40 || op == 0x41
def isAdmin (op : Nat) : Bool := decide (0x80 ≤ op) && decide (op ≤ 0x8E)
def isListed (op : Nat) : Bool :=
  isColl op || op == 0x20 || op == 0x21 || op == 0x22 || isP2p op || op == 0x34 ||
  (decide (0x40 ≤ op) && decide (op ≤ 0x43)) || op == 0x50 || op == 0x51 || isAdmin op
/-- STRIKE, QUEUE_SHUTDOWN and FUNCTION_ENABLE act at acceptance (R516). -/
def atAccept (op : Nat) : Bool := op == 0x50 || op == 0x51 || op == 0x80

def fieldExt (c : Cmd) : Bool := isColl (opOf c) && tb (pf c 14 1) 6

/-- Lp of an opcode (R552). -/
def lpOf (c : Cmd) : Nat :=
  let op := opOf c
  if isColl op then if fieldExt c then 88 else 56
  else if op == 0x20 then 96 else if op == 0x21 then 72 else if op == 0x22 then 56
  else if isP2p op then 56 else if op == 0x34 then 24
  else if isOpen op then 88 else if op == 0x42 || op == 0x43 || op == 0x50 || op == 0x51 then 8
  else if op == 0x80 then 32 else if op == 0x83 || op == 0x84 || op == 0x89 || op == 0x8A || op == 0x8D || op == 0x8E then 24
  else if op == 0x86 then 56 else if op == 0x87 then 16 else if op == 0x8B then 40 else 8

/-- The entry count that R551 demands. -/
def entriesWanted (c : Cmd) : Nat := cdiv (lpOf c + 24 * b2n (flWait c)) 56

/-! ### The wait clause (R557) -/

def wcPen (c : Cmd) : Nat := pf c (lpOf c) 2
def wcForm (c : Cmd) : Nat := pbits c (lpOf c + 2) 1 0
def wcValue (c : Cmd) : Nat := pf c (lpOf c + 8) 8
def wcMask (c : Cmd) : Nat := pf c (lpOf c + 16) 8

/-! ### Fields shared by collectives, point-to-point, DISPATCH and COMBINE (R561, R565, R568, R569) -/

def fGid (c : Cmd) : Nat := pf c 0 4
def fGen (c : Cmd) : Nat := pf c 4 4
def fCseq (c : Cmd) : Nat := pf c 8 6
def fAlg (c : Cmd) : Nat := pbits c 14 3 0
def fFormat (c : Cmd) : Nat := if opOf c == 0x22 then pbits c 11 3 0 else pbits c 15 3 0
def fOper (c : Cmd) : Nat := pbits c 15 7 4
def fFlyMode (c : Cmd) : Nat := pbits c 14 5 4
def fFlyPen (c : Cmd) : Nat := if opOf c == 0x22 then pf c 12 2 else pf c 20 2
/-- Whether the opcode names a group by GID and GENERATION. -/
def namesGroup (c : Cmd) : Bool :=
  let op := opOf c
  isColl op || isP2p op || op == 0x20 || op == 0x21 || (isOpen op && tb (pf c 14 1) 6)

/-- The two space selectors of byte 17, and their uses: (source, destination) (R555). -/
def fSpaceA (c : Cmd) : Nat := if opOf c == 0x22 then pbits c 14 2 0 else pbits c 17 2 0
def fSpaceB (c : Cmd) : Nat := pbits c 17 5 3

/-! Collectives (R561) -/
def fXform (c : Cmd) : Nat := pbits c 16 1 0
def fXparam (c : Cmd) : Nat := pbits c 16 7 2
def fRoot (c : Cmd) : Nat := fld (pf c 18 2) 13 0
def fTopk (c : Cmd) : Nat := pf c 22 2
def fCount (c : Cmd) : Nat := pf c 24 8
def fSrc (c : Cmd) : Nat := pf c 32 8
def fDst (c : Cmd) : Nat := pf c 40 8
def fPreload (c : Cmd) : Nat := pf c 48 8
def fEfb (c : Cmd) : Nat := if fieldExt c then pf c 56 8 else 0
def fScounts (c : Cmd) : Nat := if fieldExt c then pf c 64 8 else 0
def fRcounts (c : Cmd) : Nat := if fieldExt c then pf c 72 8 else 0
def fDstCap (c : Cmd) : Nat := if fieldExt c then pf c 80 8 else 0

/-! Point-to-point (R565) -/
def fSigAdd (c : Cmd) : Bool := tb (pf c 16 1) 0
def fTarget (c : Cmd) : Nat := fld (pf c 18 2) 13 0
def fSigPen (c : Cmd) : Nat := pf c 22 2
def fLocal (c : Cmd) : Nat := pf c 24 8
def fRemote (c : Cmd) : Nat := pf c 32 8
def fLen (c : Cmd) : Nat := pf c 40 4
def fRflyPen (c : Cmd) : Nat := pf c 44 2
def fSigValue (c : Cmd) : Nat := pf c 48 8

/-! SCORE (R567), DISPATCH (R568), COMBINE (R569) -/
def fT (c : Cmd) : Nat := if opOf c == 0x22 then pf c 0 4 else pf c 24 4
def fDim (c : Cmd) : Nat := if opOf c == 0x22 then pf c 4 4 else pf c 28 4
def fE (c : Cmd) : Nat := if opOf c == 0x22 then fld (pf c 8 2) 10 0 else fld (pf c 18 2) 10 0
def fK (c : Cmd) : Nat := if opOf c == 0x22 then pbits c 10 3 0 else pbits c 16 3 0
def fWfmt (c : Cmd) : Nat := if opOf c == 0x22 then pbits c 11 7 4 else pbits c 15 7 4
def fNext (c : Cmd) : Bool := tb (pf c 16 1) 4
def fRounds (c : Cmd) : Nat := pbits c 16 6 5
def fCap (c : Cmd) : Nat := fld (pf c 32 4) 23 0
def fDropCap (c : Cmd) : Nat := pf c 36 4
def fX (c : Cmd) : Nat := if opOf c == 0x22 then pf c 16 8 else pf c 40 8
def fW (c : Cmd) : Nat := if opOf c == 0x22 then pf c 24 8 else pf c 48 8
def fLogits (c : Cmd) : Nat := if opOf c == 0x22 then pf c 32 8 else pf c 56 8
def fAssign (c : Cmd) : Nat :=
  if opOf c == 0x22 then pf c 40 8 else if opOf c == 0x21 then pf c 32 8 else pf c 64 8
def fRecv (c : Cmd) : Nat := pf c 72 8
def fOrigin (c : Cmd) : Nat := if opOf c == 0x21 then pf c 40 8 else pf c 80 8
def fDrops (c : Cmd) : Nat := pf c 88 8
def fYout (c : Cmd) : Nat := pf c 48 8
def fCdst (c : Cmd) : Nat := pf c 56 8
def fCpre (c : Cmd) : Nat := pf c 64 8

/-! PENNANT (R570) -/
def fPenOp (c : Cmd) : Nat := pbits c 0 1 0
def fPenForm (c : Cmd) : Nat := pbits c 1 1 0
def fPen (c : Cmd) : Nat := pf c 2 2
def fPenValue (c : Cmd) : Nat := pf c 8 8
def fPenMask (c : Cmd) : Nat := pf c 16 8

/-! Streams (R571, R572) -/
def fStream (c : Cmd) : Nat := if isOpen (opOf c) then pbits c 14 5 0 else pbits c 0 5 0
def fSharded (c : Cmd) : Bool := tb (pf c 14 1) 6
def fAutoClose (c : Cmd) : Bool := tb (pf c 14 1) 7
def fFollows (c : Cmd) : Nat := pbits c 15 5 0
def fSlotLog2 (c : Cmd) : Nat := pbits c 16 4 0
def fNslots (c : Cmd) : Nat := fld (pf c 18 2) 10 0
def fCreditPen (c : Cmd) : Nat := pf c 22 2
def fLen0 (c : Cmd) : Nat := pf c 24 4
def fDrain (c : Cmd) : Nat := pf c 28 4
def fSrcBase (c : Cmd) : Nat := pf c 32 8
def fDstBase (c : Cmd) : Nat := pf c 40 8
def fCounts (c : Cmd) : List Nat := [pf c 48 2, pf c 50 2, pf c 52 2, pf c 54 2]
def fStrides (c : Cmd) : List Nat := [pf c 56 8, pf c 64 8, pf c 72 8, pf c 80 8]
def fCloseAbort (c : Cmd) : Bool := tb (pf c 1 1) 0

/-! Queue control and admin (R573 to R582) -/
def fFn (c : Cmd) : Nat := fld (pf c 0 2) 8 0
def fQ (c : Cmd) : Nat := pbits c 2 3 0
def fTtag (c : Cmd) : Nat := pf c 4 4

/-- The wait a queue head is held by: its clause, else the condition of a PENNANT WAIT: virtual ID, form, value, mask. -/
def waitCond (c : Cmd) : Nat × Nat × Nat × Nat :=
  if flWait c && !c.waitDone then (wcPen c, wcForm c, wcValue c, wcMask c)
  else (fPen c, fPenForm c, fPenValue c, fPenMask c)

/-- R448: a condition compares VALUE as an unsigned number. -/
def condHolds (form value mask v : Nat) : Bool :=
  if form == 0 then decide (value ≤ v) else if form == 1 then v == value else if form == 2 then (v &&& mask) != 0 else false

end Sys2Proof.Machine
end

