-- ==== Sys2Proof/Machine/Ops.lean ====
section
/-!
DEFINITION. The named operations over memory, memory ports, logbooks, event queues, completion rings, interrupts, pennants and
D2D messages, which every command's meaning is built from.
-/
namespace Sys2Proof.Machine

/-! ### Package memory -/

/-- The key of an address: space 0 is MEM, 1 to 4 are the dies behind D2D0 to D2D3 (R555). -/
def memKey (space a : Nat) : Nat := space * 2 ^ 57 + a % 2 ^ 57

/-- Reading one byte of memory: an unlisted byte reads 0. -/
def byteAt (m : Tab Byte) (k : Nat) : Byte := tget 0 m k

/-- n bytes from key k of memory whose entries below k have been left out. -/
def walkMem : Nat → Nat → Tab Byte → List Byte
  | 0, _, _ => []
  | n + 1, _, [] => List.replicate (n + 1) 0
  | n + 1, k, (j, v) :: r => if j = k then v :: walkMem n (k + 1) r else 0 :: walkMem n (k + 1) ((j, v) :: r)

def readMem (m : Tab Byte) (k n : Nat) : List Byte := walkMem n k (m.dropWhile fun e => decide (e.1 < k))

/-- Writing consecutive bytes from key k. -/
def putBytes (m : Tab Byte) : Nat → List Byte → Tab Byte
  | _, [] => m
  | k, b :: r => putBytes (tset 0 m k b) (k + 1) r

/-- The canonical form of memory. -/
def memWf (m : Tab Byte) : Bool := twf 0 m

/-- Bytes that the command being carried out makes visible from key k. -/
def store (b : Blk) (k : Nat) (bs : List Byte) : Blk := { b with stores := b.stores ++ [(k, bs)] }

/-- Memory with stores carried out in order. -/
def applyStores (m : Tab Byte) : List (Nat × List Byte) → Tab Byte
  | [] => m
  | st :: r => applyStores (putBytes m st.1 st.2) r

/-- The end of a command: its stores are in memory. -/
def commit (s : State) (b : Blk) : State :=
  { s with b := { b with stores := [] }, mem := applyStores s.mem b.stores }

/-- The block has its clocks and is not lost: out of reset, not in scan mode, no fatal cause (R627, R683, R771). -/
def alive (b : Blk) : Bool := !b.life.scanMode && !b.life.inReset && b.life.fatal == 0

/-- The block works: it is alive and no block reset is under way (R530, R686). -/
def awake (b : Blk) : Bool := alive b && decide (b.life.phase = .run)

/-- A command's effect while the block works; otherwise nothing happens. -/
def act (s : State) (f : Blk → Tab Byte → Blk) : Host.Outcome State Fault Refusal :=
  .next (if awake s.b then commit s (f s.b s.mem) else s)

/-- The same in every phase of a block reset: beats, power, memory-port answers, faults (R687, R688). -/
def actLive (s : State) (f : Blk → Tab Byte → Blk) : Host.Outcome State Fault Refusal :=
  .next (if alive s.b then commit s (f s.b s.mem) else s)

/-- A CTL access, which a lost block still takes (R627): only reset and scan mode stop it. -/
def actCtl (s : State) (f : Blk → Tab Byte → Blk) : Host.Outcome State Fault Refusal :=
  .next (if !s.b.life.scanMode && !s.b.life.inReset then commit s (f s.b s.mem) else s)

/-- A reset, pin or test event, taken whatever the block's condition. -/
def actAlways (s : State) (f : Blk → Tab Byte → Blk) : Host.Outcome State Fault Refusal := .next (commit s (f s.b s.mem))

/-! ### Lookups -/

def getFn (b : Blk) (f : Nat) : Fn := tget fn0 b.fns f
def modFn (b : Blk) (f : Nat) (g : Fn → Fn) : Blk := { b with fns := tmod fn0 b.fns f g }
def getQ (b : Blk) (f q : Nat) : Queue := tget queue0 (getFn b f).queues q
def modQ (b : Blk) (f q : Nat) (g : Queue → Queue) : Blk :=
  modFn b f fun n => { n with queues := tmod queue0 n.queues q g }
def findCmd (b : Blk) (id : CmdId) : Option Cmd := b.cmds.find? fun c => decide (c.id = id)
def modCmd (b : Blk) (id : CmdId) (g : Cmd → Cmd) : Blk :=
  { b with cmds := b.cmds.map fun c => if c.id = id then g c else c }
/-- Apply a change to a command if it exists. -/
def withCmd (b : Blk) (id : CmdId) (k : Cmd → Blk) : Blk :=
  match findCmd b id with
  | some c => k c
  | none => b
/-- A free value: the counter moves on with each draw. -/
def draw (b : Blk) : Nat × Blk := (Config.freeNat b.fresh, { b with fresh := b.fresh + 1 })
def beatNow (b : Blk) : Nat := b.beat.count
/-- This engine's endpoint (R305). -/
def selfEp (b : Blk) : Nat := b.ctl.fabSelf.toNat % 2 ^ 16
/-- Logical sectors and tiles that exist in the part's grade (R27, R28, R49). -/
def sectorExists (b : Blk) (s : Nat) : Bool := decide (s < if b.part.disabled.isSome then 7 else 8)
def tileExists (b : Blk) (t : Nat) : Bool := sectorExists b (t / 16)
/-- Physical sector of a logical sector (R28). -/
def physOf (b : Blk) (s : Nat) : Nat :=
  match b.part.disabled with
  | some d => if s < d then s else s + 1
  | none => s
/-- Link ports that exist: not a home port of the disabled sector (R24, R27). -/
def portExists (b : Blk) (n : Nat) : Bool :=
  decide (n < 42) && (match b.part.disabled with | some d => decide (n / 5 ≠ d) | none => true)

/-! ### Addresses -/

/-- A kept translation covers an address of a context (R729). -/
def xlCovers (x : Xl) (ctx va : Nat) : Bool :=
  x.ctx == ctx && va / 2 ^ x.size == x.vpage / 2 ^ x.size

/-- The physical address: through the kept translation that covers it; an address no kept translation covers keeps its
value (DESIGN CHOICE, log 3). -/
def translate (b : Blk) (ctx va : Nat) : Nat :=
  match b.xlats.find? (xlCovers · ctx va) with
  | some x => x.ppage + va % 2 ^ x.size
  | none => va

/-- The key of a function's address in a space. -/
def fnKey (b : Blk) (f space va : Nat) : Nat :=
  if space = 0 then memKey 0 (translate b (getFn b f).context va) else memKey space va

/-- An address range cut at 4 KiB boundaries. -/
def pageCuts : Nat → Nat → Nat → List (Nat × Nat)
  | 0, _, _ => []
  | fuel + 1, a, n =>
    if n = 0 then [] else
      let k := min n (4096 - a % 4096)
      (a, k) :: pageCuts fuel (a + k) (n - k)

def cutsOf (a n : Nat) : List (Nat × Nat) := pageCuts (n / 4096 + 2) a n

/-- A function's read. -/
def fnRead (b : Blk) (m : Tab Byte) (f space va n : Nat) : List Byte :=
  (cutsOf va n).flatMap fun (a, k) => readMem m (fnKey b f space a) k

/-- A function's write, visible with the command. -/
def fnStore (b : Blk) (f space va : Nat) (bs : List Byte) : Blk :=
  (cutsOf va bs.length).foldl (fun b (a, k) => store b (fnKey b f space a) (slice bs (a - va) k)) b

/-! ### Memory ports (R723 to R732) -/

def mem0 : MemP := memp0
def getM (b : Blk) (m : Nat) : MemP := b.memp.getD m memp0
def modM (b : Blk) (m : Nat) (g : MemP → MemP) : Blk := { b with memp := b.memp.modify m g }
def memFenced (b : Blk) (m : Nat) : Bool := (getM b m).state == 2

/-- The first in-service port from m on, wrapping (R730). -/
def portFrom (b : Blk) (m : Nat) : Option Nat := ((List.range 16).map fun i => (m + i) % 16).find? fun k => !memFenced b k

/-- The port of an access: fixed by the address, among those in service (DESIGN CHOICE, log 4). -/
def portOf (b : Blk) (k : Nat) : Option Nat := portFrom b (k / 4096 % 16)

def freeTag (n : Nat) (used : List Nat) : Nat := ((List.range n).find? fun t => !used.contains t).getD 0

/-- Blocks of 512 bytes that a write touches: its transfers, and the credits it takes (R724). -/
def putsOf (runs : List (Nat × List Byte)) : Nat :=
  (runs.flatMap fun (k, bs) => (List.range (cdiv (k % 512 + bs.length) 512)).map (· + k / 512)).eraseDups.length

/-- Requests that wait go out, in order, while credits and tags remain (R725); none during a halt (R732). -/
def startReads (p : MemP) : MemP :=
  p.rdWait.foldl (fun p r =>
    if p.rq > 0 && decide (p.reads.length < 1024) && !p.halt
    then { p with rq := p.rq - 1, reads := p.reads ++ [{ r with tag := freeTag 1024 (p.reads.map (·.tag)) }] }
    else { p with rdWait := p.rdWait ++ [r] }) { p with rdWait := [] }

def startWrites (p : MemP) : MemP :=
  p.wrWait.foldl (fun p r =>
    if decide (r.puts ≤ p.wq) && p.wrWait.isEmpty && decide (p.writes.length < 1024) && !p.halt
    then { p with wq := p.wq - r.puts, writes := p.writes ++ [{ r with tag := freeTag 1024 (p.writes.map (·.tag)) }] }
    else { p with wrWait := p.wrWait ++ [r] }) { p with wrWait := [] }

def startXlats (p : MemP) : MemP :=
  p.xlWait.foldl (fun p r =>
    if p.xq > 0 && decide (p.xlats.length < 256) && !p.halt
    then { p with xq := p.xq - 1, xlats := p.xlats ++ [{ r with tag := freeTag 256 (p.xlats.map (·.tag)) }] }
    else { p with xlWait := p.xlWait ++ [r] }) { p with xlWait := [] }

def startMem (p : MemP) : MemP := startXlats (startWrites (startReads p))

/-- Issue a read of lines from a key; a lost block issues no request (R627). -/
def issueRead (b : Blk) (k lines : Nat) (vol : Bool) (use : MUse) : Blk :=
  match (if b.life.fatal == 0 then portOf b k else none) with
  | some m => modM b m fun p => startMem { p with rdWait := p.rdWait ++ [{ tag := 0, addr := k, lines, vol, use }] }
  | none => b

/-- Issue a write of bytes from a key, one request for each 4 KiB page it touches (R724). -/
def issueWrite (b : Blk) (k : Nat) (bs : List Byte) (use : MUse) : Blk :=
  (cutsOf k bs.length).foldl (fun b (a, n) =>
    match (if b.life.fatal == 0 then portOf b a else none) with
    | some m =>
      let runs := [(a, slice bs (a - k) n)]
      modM b m fun p => startMem { p with wrWait := p.wrWait ++ [{ tag := 0, bytes := runs, puts := putsOf runs, msi := false, use }] }
    | none => b) b

/-- Ask for the translation of a page unless it is kept or asked for already (R729). -/
def needXl (b : Blk) (f va : Nat) (wr : Bool) (use : MUse) : Blk :=
  let ctx := (getFn b f).context
  let page := va / 4096 * 4096
  if b.xlats.any (xlCovers · ctx va) then b
  else if b.memp.any (fun p => (p.xlats ++ p.xlWait).any fun x => x.ctx == ctx && x.page == page && decide (x.use = use)) then b
  else match (if b.life.fatal == 0 then portOf b va else none) with
  | some m => modM b m fun p => startMem { p with xlWait := p.xlWait ++ [{ tag := 0, ctx, page, wr, stale := false, use }] }
  | none => b

/-- Every write of a kind that is issued and has no answer. -/
def writesOut (b : Blk) : List MWr := b.memp.flatMap fun p => p.writes ++ p.wrWait

/-- A record is durable when it and all records below it have their responses (R506, R507). -/
def durable (b : Blk) (f lsn : Nat) : Bool :=
  (writesOut b).all fun w => match w.use with
    | .log g l => !(g == f && decide (l ≤ lsn))
    | _ => true

/-- Every record of the function is durable. -/
def allDurable (b : Blk) (f : Nat) : Bool :=
  (writesOut b).all fun w => match w.use with
    | .log g _ => g != f
    | _ => true

/-! ### Logbooks (R502 to R512, R793, R794) -/

/-- Lines of a logbook region. -/
def logLines (n : Fn) : Nat := 2 ^ (n.logLog2 - 6)
/-- The address of the line with an LSN (R502). -/
def lineAddr (n : Fn) (lsn : Nat) : Nat := n.logBase + 64 * (1 + lsn % (logLines n - 1))

/-- A record's lines: the common header of R504 with words 4 to 7, further lines, and the CRC over all of them. -/
def logRecord (n : Fn) (kind sub q rseq tag a : Nat) (ws : List Nat) (rest : List Byte) : List Byte :=
  let rest := rest ++ List.replicate (upTo rest.length 64 - rest.length) 0
  let lines := 1 + rest.length / 64
  let w1 := mk [(63, 56, kind), (55, 48, lines), (47, 44, q), (43, 40, sub)]
  let w := fun crc => leBytes n.head 8 ++ leBytes (w1 + crc) 8 ++ leBytes (mk [(63, 16, rseq), (15, 0, n.epoch)]) 8 ++
    leBytes (mk [(63, 32, tag), (31, 0, a)]) 8 ++ (List.range 4).flatMap (fun i => leBytes (ws.getD i 0) 8) ++ rest
  w (crc32 (w 0)).toNat

/-- The (address, line) pairs of a record at the head. -/
def recordLines (n : Fn) (bs : List Byte) : List (Nat × List Byte) :=
  (chunksOf 64 bs).zipIdx.map fun (l, i) => (lineAddr n (n.head + i), l)

/-- Append a record and take it as durable within the command: its lines are visible and the head moves on (log 5). -/
def appendLog (b : Blk) (f : Nat) (bs : List Byte) : Blk :=
  let n := getFn b f
  let b := (recordLines n bs).foldl (fun b (a, l) => fnStore b f 0 a l) b
  modFn b f fun n => { n with head := n.head + bs.length / 64, moved := true }

/-- Append a record as writes on memory ports; it is durable once they are answered. -/
def issueLog (b : Blk) (f : Nat) (bs : List Byte) : Blk :=
  let n := getFn b f
  let b := (recordLines n bs).foldl (fun b (a, l) => issueWrite b (fnKey b f 0 a) l (.log f n.head)) b
  modFn b f fun n => { n with head := n.head + bs.length / 64, moved := true }

/-- The anchor line (R503). -/
def anchorBytes (n : Fn) (f tail : Nat) : List Byte :=
  let body := leBytes (mk [(63, 32, n.epoch), (8, 0, f)]) 8 ++ leBytes tail 8 ++ leBytes (n.logLog2 % 64) 8 ++
    List.replicate 32 0
  body ++ leBytes (crc32 (body ++ List.replicate 4 0)).toNat 4 ++ List.replicate 4 0

/-- The true tail (R509): the oldest live ACCEPT or CARRY, or the head. -/
def trueTail (b : Blk) (f : Nat) : Nat :=
  let n := getFn b f
  let cs := (b.cmds.filter fun c => c.id.f == f).map (·.lsn)
  let ss := (b.t.stream.filter fun e => e.1 / 64 == f && e.2.valid).map (·.2.acceptLsn)
  (cs ++ ss).foldl min n.head

/-- Sum of LINES of live commands and streams (R511). -/
def liveLines (b : Blk) (f : Nat) : Nat :=
  ((b.cmds.filter fun c => c.id.f == f).map (·.lines)).foldl (· + ·) 0 +
  ((b.t.stream.filter fun e => e.1 / 64 == f && e.2.valid).map (·.2.lines)).foldl (· + ·) 0

/-- Free space of R511. -/
def logFree (b : Blk) (f : Nat) : Nat := let n := getFn b f; (logLines n - 1) - (n.head - n.tailAnchor)

/-- Write the anchor with the true tail (R510). -/
def writeAnchor (b : Blk) (f : Nat) : Blk :=
  let n := getFn b f
  let tail := trueTail b f
  let b := fnStore b f 0 n.logBase (anchorBytes n f tail)
  modFn b f fun n => { n with tailAnchor := tail }

/-- A PROGRESS record of a command (R508), which stands as its latest. -/
def progress (b : Blk) (c : Cmd) (sub a : Nat) (ws : List Nat) : Blk :=
  let n := getFn b c.id.f
  let b := appendLog b c.id.f (logRecord n 3 sub c.id.q c.id.rseq (tagOf c) a ws [])
  modCmd b c.id fun c => { c with prog := some { lsn := n.head, sub, a, w := ws } }

/-- SUB and words 4 to 7 of a CARRY (R505, R794). -/
def carryWords (p : Option Prog) : Nat × List Nat :=
  match p with
  | some p => (p.sub, (List.range 3).map (fun i => p.w.getD i 0) ++ [p.a % 2 ^ 32])
  | none => (15, [])

/-- CARRY of the live command or stream at the true tail (R512, R794). -/
def carryOne (b : Blk) (f : Nat) : Blk :=
  let tail := trueTail b f
  let n := getFn b f
  match b.cmds.find? fun c => c.id.f == f && c.lsn == tail with
  | some c =>
    let (sub, ws) := carryWords c.prog
    let bs := logRecord n 2 sub c.id.q c.id.rseq (leAt c.raw 0 4) (c.raw.length / 64) ws c.raw
    writeAnchor (modCmd (appendLog b f bs) c.id fun c => { c with lsn := n.head, lines := bs.length / 64 }) f
  | none => match b.t.stream.find? fun e => e.1 / 64 == f && e.2.valid && e.2.acceptLsn == tail with
    | some (k, x) =>
      let (sub, ws) := carryWords x.prog
      let bs := logRecord n 2 sub x.queue x.openId.2 x.tag (x.raw.length / 64) ws x.raw
      let b := appendLog b f bs
      writeAnchor { b with t := { b.t with stream := tmod stream0 b.t.stream k fun e => { e with acceptLsn := n.head, lines := bs.length / 64 } } } f
    | none => writeAnchor b f

/-- Carries until F is at least S + 32 (R512); fuel bounds the commands carried. -/
def carryLoop : Nat → Nat → Blk → Blk
  | 0, _, b => b
  | k + 1, f, b => if logFree b f < liveLines b f + 32 then carryLoop k f (carryOne b f) else b

def carryIfShort (b : Blk) (f : Nat) : Blk := carryLoop (b.cmds.length + b.t.stream.length + 1) f b

/-! ### Interrupts (R763 to R767) and events (R620 to R625) -/

/-- Signal a vector: an interrupt write, or PEND while masked (R767). -/
def signalVec (b : Blk) (f v : Nat) : Blk :=
  let m := tget msi0 (getFn b f).msi v
  if m.mask then modFn b f fun n => { n with msi := tmod msi0 n.msi v fun m => { m with pend := true } }
  else match (if b.life.fatal == 0 then portFrom b b.ctl.msiPort else none) with
  | some p => modM b p fun pt => startMem { pt with wrWait := pt.wrWait ++
      [{ tag := 0, bytes := [(memKey 0 m.addr, leBytes m.data 4)], puts := 1, msi := true, use := .msi f v }] }
  | none => b

/-- Write one event into the function's error queue (R623, R624); an event that finds no room is dropped. The answer says
whether it began an episode of drops. -/
def eventIn (b : Blk) (f code q info arg0 arg1 : Nat) : Blk × Bool :=
  let n := getFn b f
  if n.fenced || !n.enabled then (b, false)
  else if !n.eqEn || decide (2 ^ n.eqLog2 ≤ n.eqProduced - n.eqConsumed) then
    (modFn b f fun n => { n with eqLost := satAdd n.eqLost 1 65535, dropping := true,
                                 dropped := n.dropped + 1 }, !n.dropping)
  else
    let phase := 1 - n.eqProduced / 2 ^ n.eqLog2 % 2
    let w0 := mk [(63, 63, phase), (62, 56, code), (55, 52, q), (51, 32, info), (31, 0, arg0)]
    let b := fnStore b f 0 (n.eqBase + 16 * (n.eqProduced % 2 ^ n.eqLog2)) (leBytes w0 8 ++ leBytes arg1 8)
    let b := modFn b f fun n => { n with eqProduced := n.eqProduced + 1, dropping := false, dropped := 0 }
    (if tb n.irqCfg.toNat 57 then signalVec b f (fld n.irqCfg.toNat 56 52) else b, false)

/-- An event; the first drop of an episode outside function 0 raises EQ_OVERFLOW (R623). -/
def event (b : Blk) (f code q info arg0 arg1 : Nat) : Blk :=
  let (b, first) := eventIn b f code q info arg0 arg1
  if first && f != 0 then (eventIn b 0 0x2A 0 0 f (getFn b f).eqLost).1 else b

/-- An event of the admin function. -/
def adminEvent (b : Blk) (code info arg0 arg1 : Nat) : Blk := event b 0 code 0 info arg0 arg1

/-- The output pins of R736 that follow a register. -/
def irqAdminN (b : Blk) : Bool := let n := getFn b 0; n.eqProduced % 2 ^ 32 == n.eqConsumed % 2 ^ 32
def irqFatalN (b : Blk) : Bool := b.life.fatal == 0
def rstDone (b : Blk) : Bool := !b.life.inReset

/-! ### The completion ring (R517 to R525) -/

/-- Signal CQ_VEC when the records not yet signalled reach the count (R764). -/
def cqSignal (b : Blk) (f : Nat) : Blk :=
  let n := getFn b f
  let cfg := n.irqCfg.toNat
  if tb cfg 63 && decide (max 1 (fld cfg 47 32) ≤ n.produced - n.irqA)
  then modFn (signalVec b f (fld cfg 62 58)) f fun n => { n with irqA := n.produced }
  else b

/-- The number the next record will have, behind those that wait. -/
def nextNum (b : Blk) (f : Nat) : Nat := let n := getFn b f; n.produced + n.ringWait.length

/-- The bytes of record NUM: its words with PHASE (R520, R521). -/
def ringBytes (n : Fn) (num : Nat) (w : List Nat) : List Byte :=
  let phase := 1 - num / 2 ^ n.cqLog2 % 2
  leBytes (mk [(63, 63, phase), (62, 0, w.getD 0 0)]) 8 ++ (List.range 3).flatMap fun i => leBytes (w.getD (i + 1) 0) 8

def ringRoom (n : Fn) : Bool := decide (n.produced - n.consumed < 2 ^ n.cqLog2)

/-- A command leaves the command table: its resources return (R151, R166, R509). -/
def dropCmd (b : Blk) (id : CmdId) : Blk :=
  withCmd b id fun c =>
    let b := match c.handle with
      | some h => { b with t := { b.t with hoist := tmod hoist0 b.t.hoist h fun e => { e with bound := e.bound - 1 } } }
      | none => b
    let b := modFn b id.f fun n => { n with stagingUsed := n.stagingUsed - c.staging }
    let b := if namesGroup c then { b with fab := { b.fab with ended := b.fab.ended ++ [(fGid c, fGen c, fCseq c)] } } else b
    { b with cmds := b.cmds.filter fun c => !decide (c.id = id) }

/-- Write one record now; for a completion its COMPLETE record is issued with it (R528), and the command ends. -/
def ringWrite (b : Blk) (f : Nat) (r : RingRec) : Blk :=
  let n := getFn b f
  let num := n.produced % 2 ^ 48
  let bytes := ringBytes n num r.w
  let b := match r.cmd with
    | some id => appendLog b f (logRecord n 4 0 id.q id.rseq (r.w.getD 0 0 % 2 ^ 32) num
        ((List.range 4).map fun i => leAt bytes (8 * i) 8) [])
    | none => b
  let b := fnStore b f 0 (n.cqBase + 32 * (num % 2 ^ n.cqLog2)) bytes
  let b := modFn b f fun n => { n with produced := n.produced + 1, moved := true }
  let b := match r.cmd with | some id => dropCmd b id | none => b
  cqSignal b f

/-- A record for the ring: written, or waiting behind a full ring with one RING_FULL event an episode (R525). -/
def ringPut (b : Blk) (f : Nat) (r : RingRec) : Blk :=
  let n := getFn b f
  if n.fenced || !n.cqEn then b
  else if n.ringWait.isEmpty && ringRoom n then ringWrite b f r
  else
    let b := if n.full then b else event b f 0x0A 0 0 (n.produced % 2 ^ 32) 0
    modFn b f fun n => { n with full := true, ringWait := n.ringWait ++ [r] }

/-- Records that waited are written while there is room; FULL falls when none waits (R525). -/
def ringDrain : Nat → Nat → Blk → Blk
  | 0, _, b => b
  | k + 1, f, b =>
    let n := getFn b f
    match n.ringWait with
    | [] => modFn b f fun n => { n with full := false }
    | r :: rest => if ringRoom n then ringDrain k f (ringWrite (modFn b f fun n => { n with ringWait := rest }) f r) else b

/-! ### D2D messages out (R715 to R718) -/

def getD2 (b : Blk) (p : Nat) : D2d := b.d2d.getD p d2d0
def modD2 (b : Blk) (p : Nat) (g : D2d → D2d) : Blk := { b with d2d := b.d2d.modify p g }
/-- Credit units of a message: header plus body in 64-byte units (R718). -/
def dUnits (x : DMsg) : Nat := cdiv (16 + x.body.length) 64
/-- Class of a message Dresis sends: 0 REQ, 1 RSP, 2 OTH, 3 none (R716). -/
def dClass (t : Nat) : Nat :=
  if t == 0x04 || t == 0x05 || t == 0x07 || t == 0x0A then 0
  else if t == 0x03 || t == 0x06 || t == 0x08 || t == 0x0B then 1 else if t == 0x09 then 2 else 3

/-- Messages leave in order within a class, while the die's credit lasts (R718). -/
def dPump (d : D2d) : D2d :=
  let step := fun (acc : D2d × List Nat) (x : DMsg) =>
    let (d, held) := acc
    let k := dClass x.type
    let u := dUnits x
    let c := if k == 0 then d.cReq else if k == 1 then d.cRsp else d.cOth
    if k == 3 then ({ d with sent := d.sent ++ [x] }, held)
    else if held.contains k || decide (c < u) then ({ d with outq := d.outq ++ [x] }, k :: held)
    else ({ d with sent := d.sent ++ [x], cReq := if k == 0 then d.cReq - u else d.cReq,
                   cRsp := if k == 1 then d.cRsp - u else d.cRsp, cOth := if k == 2 then d.cOth - u else d.cOth }, held)
  if d.state == 1 || d.state == 3 then (d.outq.foldl step ({ d with outq := [] }, [])).1 else d

def dSend (b : Blk) (p : Nat) (x : DMsg) : Blk := modD2 b p fun d => dPump { d with outq := d.outq ++ [x] }

/-- The enabled bytes of the lines that a run touches, one mask bit a byte, and the lines themselves (R716). -/
def partialBody (a : Nat) (bs : List Byte) : List Byte :=
  let lo := a / 64 * 64
  let n := upTo (a + bs.length) 64 - lo
  let lines := List.replicate (a - lo) 0 ++ bs ++ List.replicate (n - (a - lo) - bs.length) 0
  let mask := fun l => (List.range 64).foldl (fun m i => let k := 64 * l + i; if decide (a - lo ≤ k) && decide (k < a - lo + bs.length) then m + 2 ^ i else m) 0
  (List.range (n / 64)).flatMap (fun l => leBytes (mask l) 8) ++ lines

/-- An access of this engine to the die behind D2D port p (R719), without an answer until the die's response. -/
def dieAccess (b : Blk) (p f : Nat) (who : FlyRef) (wr : Bool) (a : Nat) (flags : Nat) (body : List Byte) : Blk :=
  let t := (getD2 b p).nextTag
  let b := modD2 b p fun d => { d with nextTag := (t + 1) % 65536, outs := d.outs ++ [{ tag := t, write := wr, addr := a, who }] }
  dSend b p { type := if wr then 5 else 7, flags, fn := f, tag := t, arg := a / 64 * 64, body }

/-- A command's or stream's write: in a die's space it is also sent to the die, one MWR for each 4 KiB page (R716, R719). -/
def spaceStore (b : Blk) (f : Nat) (who : FlyRef) (space va : Nat) (bs : List Byte) : Blk :=
  let b := fnStore b f space va bs
  if space == 0 then b
  else (cutsOf va bs.length).foldl (fun b (a, k) =>
    let part := slice bs (a - va) k
    if a % 64 == 0 && k % 64 == 0 then dieAccess b (space - 1) f who true a 0 part else dieAccess b (space - 1) f who true a 4 (partialBody a part)) b

/-- NOTIFY of a watch (R459): status, watch tag, value. -/
def notify (b : Blk) (w : Watch) (status : Nat) (v : Word) : Blk :=
  dSend b w.port { type := 4, flags := 0, fn := w.f, tag := 0, arg := mk [(7, 0, status), (47, 32, w.wtag)], body := leBytes v.toNat 8 }

/-! ### Pennants (R436 to R453) -/

/-- The physical pennant that a function's virtual ID names (R441). -/
def penIdx (b : Blk) (f vid : Nat) : Option Nat :=
  let e := tget 0 b.t.dir (f * 256 + vid / 256)
  if tb e 15 then some (fld e 9 0 * 256 + vid % 256) else none

def getPen (b : Blk) (p : Nat) : Pen := tget pen0 b.pens p
def modPen (b : Blk) (p : Nat) (g : Pen → Pen) : Blk := { b with pens := tmod pen0 b.pens p g }

/-- SET or ADD on a pennant's entry (R438). -/
def penApply (p : Pen) (add : Bool) (v : Word) (ep fn kind tag : Nat) : Pen :=
  { p with value := if add then p.value + v else v, sigCount := (p.sigCount + 1) % 2 ^ 48, lastEp := ep, lastFn := fn,
           lastKind := kind, lastTag := tag % 2 ^ 32 }

/-- A queue head that is released: the clause is done; a PENNANT WAIT ends with the value (R450, R452, R583). -/
def releaseHead (c : Cmd) (v : Word) : Cmd :=
  if flWait c && !c.waitDone then { c with waitOn := none, waitDone := true }
  else { c with waitOn := none, phase := .ended, status := 0, result := v.toNat }

/-- Release of waiters by the value an operation has produced (R452, R453, R459). -/
def penRelease (b : Blk) (p : Nat) : Blk :=
  let v := (getPen b p).value
  let holds := fun (c : Cmd) => let (_, form, value, mask) := waitCond c
    decide (c.waitOn = some p) && condHolds form value mask v.toNat
  let heads := b.cmds.filter holds
  let ws := b.watches.filter fun w => w.pen == p && condHolds w.form w.value.toNat w.mask.toNat v.toNat
  let b := modPen b p fun e => { e with waiters := e.waiters - heads.length - ws.length }
  let b := { b with cmds := b.cmds.map (fun c => if holds c then releaseHead c v else c)
                    watches := b.watches.filter fun w => !(w.pen == p && condHolds w.form w.value.toNat w.mask.toNat v.toNat) }
  let b := heads.foldl (fun b c => modFn b c.id.f fun n => { n with deadlocked := false }) b
  let b := if heads.isEmpty then b else { b with dlck := { b.dlck with reported := false } }
  ws.foldl (fun b w => notify b w 0 v) b

/-- One operation on a pennant, with the release of its waiters; functions whose heads wait on it have moved (R476). -/
def penOp (b : Blk) (p : Nat) (add : Bool) (v : Word) (ep fn kind tag : Nat) : Blk :=
  let b := modPen b p fun e => penApply e add v ep fn kind tag
  let b := (b.cmds.filter fun c => decide (c.waitOn = some p)).foldl
    (fun b c => modFn b c.id.f fun n => { n with moved := true }) b
  penRelease b p

/-- A head registers its wait, or is released at once when the condition holds already (R452, R453). -/
def penWait (b : Blk) (c : Cmd) (p : Nat) : Blk :=
  let (_, form, value, mask) := waitCond c
  if condHolds form value mask (getPen b p).value.toNat
  then modCmd b c.id fun c => releaseHead c (getPen b p).value
  else modCmd (modPen b p fun e => { e with waiters := e.waiters + 1 }) c.id fun c => { c with waitOn := some p }

/-- A wait that is struck, aborted or faulted leaves its pennant (R453). -/
def unwait (b : Blk) (c : Cmd) : Blk :=
  match c.waitOn with
  | some p =>
    let b := modPen b p fun e => { e with waiters := e.waiters - 1 }
    let b := modFn b c.id.f fun n => { n with deadlocked := false }
    modCmd { b with dlck := { b.dlck with reported := false } } c.id fun c => { c with waitOn := none }
  | none => b

/-- The status of a command is decided (R542): its wait is withdrawn and it waits for its completion record. -/
def endCmd (b : Blk) (id : CmdId) (status result : Nat) : Blk :=
  withCmd b id fun c =>
    if c.phase = .ended then b
    else modCmd (unwait b c) id fun c => { c with phase := .ended, status, result }

/-- ACCESS_FAULT for an access that failed (R625). -/
def accessEvent (b : Blk) (f q space : Nat) (page stream : Bool) (arg0 va : Nat) : Blk :=
  event b f 0x08 q (space + 8 * b2n page + 16 * b2n stream) arg0 (va % 2 ^ 57)

/-- The status of a failed access: a page fault gives FAULT_PAGE, anything else FAULT_ACCESS (R584, R728, R729). -/
def faultStatus (k : AccErr) : Nat := match k with | .pageFault => 0x30 | _ => 0x31

def isPage (k : AccErr) : Bool := match k with | .pageFault => true | _ => false

/-- A counter of the block's registers, as a pair (field, change), saturating. -/
def bump (n max : Nat) : Nat := satAdd n 1 max

end Sys2Proof.Machine
end

