-- ==== Sys2Proof/Machine/Net.lean ====
section
/-!
DEFINITION. Packets and the way they leave this engine: layouts (R311 to R319), digests (R123, R153, R316), end-to-end
encryption (R643, R644), routes and path choice (R342 to R346), sequencing (R349), multicast copies (R367), notices.
-/
namespace Sys2Proof.Machine

/-! ### Groups and rosters, as looked up -/

def findGroup (b : Blk) (gid : Nat) : Option (Nat × Group) := b.t.group.find? fun e => e.2.valid && e.2.gid == gid
def modGroup (b : Blk) (h : Nat) (g : Group → Group) : Blk := { b with t := { b.t with group := tmod group0 b.t.group h g } }
/-- A roster slot (R120). -/
def slotEp (x : Nat) : Nat := fld x 31 16
def slotAbsent (x : Nat) : Bool := tb x 15
def slotSlow (x : Nat) : Bool := tb x 14
def slotFn (x : Nat) : Nat := fld x 8 0
def rosterOf (b : Blk) (g : Group) : List Nat := (List.range g.n).map fun i => tget 0 b.t.roster (g.base + i)
def rosterEps (b : Blk) (g : Group) : List Nat := (rosterOf b g).map slotEp
/-- ROSTER_DIGEST (R123). -/
def rosterDigest (slots : List Nat) (gid gen : Nat) : Nat :=
  dig32 (slots.flatMap (fun x => leBytes (mk [(31, 16, slotEp x), (8, 0, slotFn x)]) 4) ++ leBytes gid 4 ++ leBytes gen 4)
/-- The rank of a function in a group, if it is a local member (R126). -/
def rankIn (g : Group) (f : Nat) : Option Nat := (g.locs.find? fun l => l.1 == f).map (·.2)
/-- The status of a break (R127, R138). -/
def breakStatus (cause : Nat) : Nat := if cause == 1 then 0x20 else if cause == 2 then 0x21 else 0x61

/-! ### Hoist words (R152) and the schedule digest (R153) -/

def hoistW0 (h : Hoist) (pinned aligned : Bool) : Nat :=
  mk [(63, 63, b2n h.valid), (62, 62, b2n pinned), (61, 61, b2n aligned), (60, 60, b2n h.atomicLocal), (59, 56, h.alg),
      (55, 52, h.inner), (51, 47, h.fanin), (46, 42, h.chunkLog2), (41, 36, h.sizeClass), (35, 32, h.pin), (31, 0, h.gen)]
def hoistW1 (h : Hoist) : Nat :=
  mk [(63, 32, h.gid), (31, 24, h.opcode), (23, 20, h.format), (19, 16, h.oper), (15, 14, h.xform), (13, 8, h.xparam)]
def schedDigest (h : Hoist) : Nat :=
  dig32 (leBytes (hoistW0 h false false) 8 ++ leBytes (hoistW1 h) 8 ++ leBytes h.seed 8 ++ leBytes h.steps 2)

/-- The byte string of R316 for a command, and its digest. -/
def descBytes (c : Cmd) : List Byte :=
  let op := opOf c
  let b1 := fun n => leBytes n 1
  if isColl op then
    b1 op ++ b1 (fFormat c) ++ b1 (fOper c) ++ b1 (fXform c) ++ b1 (fXparam c) ++
    b1 (fAlg c + 128 * b2n (fPreload c != 0)) ++ leBytes (fRoot c) 2 ++
    leBytes (if op == 0x18 || flCounts c then fDstCap c else fCount c) 8
  else if isP2p op then
    b1 op ++ b1 (fFormat c) ++ b1 (fOper c) ++ [0, 0] ++ b1 (fAlg c) ++ leBytes (fTarget c) 2 ++ leBytes (fLen c) 8
  else if op == 0x20 then
    b1 op ++ b1 (fFormat c) ++ b1 (fWfmt c) ++ b1 (fK c) ++ b1 (b2n (fNext c)) ++ b1 (fRounds c) ++ b1 (fAlg c) ++ [0] ++
    leBytes (fE c) 2 ++ leBytes (fDim c) 4 ++ leBytes (fCap c) 4
  else if op == 0x21 then b1 op ++ b1 (fFormat c) ++ b1 (fAlg c) ++ [0] ++ leBytes (fDim c) 4
  else b1 0x40 ++ b1 (b2n (fSharded c)) ++ [0, 0] ++ leBytes (fLen0 c) 4 ++ (fCounts c).flatMap (leBytes · 2)
def descDigest (c : Cmd) : Nat := dig32 (descBytes c)

/-! ### Packet layouts -/

def prefixBytes (p : Prefix) : List Byte :=
  leBytes p.type 1 ++ leBytes (mk [(0, 0, b2n p.sat), (1, 1, b2n p.resend), (2, 2, b2n p.mcseq)]) 1 ++ leBytes p.step 2 ++
  leBytes p.gid 4 ++ leBytes p.gen 4 ++ leBytes p.cseq 6 ++ leBytes p.srcRank 2 ++ leBytes p.rosterDig 4 ++
  leBytes p.schedDig 4 ++ leBytes p.descDig 4 ++ leBytes p.e2e 4 ++ leBytes p.spec 12

def prefixOf (bs : List Byte) : Prefix :=
  { type := leAt bs 0 1, sat := tb (leAt bs 1 1) 0, resend := tb (leAt bs 1 1) 1, mcseq := tb (leAt bs 1 1) 2,
    step := leAt bs 2 2, gid := leAt bs 4 4, gen := leAt bs 8 4, cseq := leAt bs 12 6, srcRank := fld (leAt bs 18 2) 13 0,
    rosterDig := leAt bs 20 4, schedDig := leAt bs 24 4, descDig := leAt bs 28 4, e2e := leAt bs 32 4, spec := leAt bs 36 12 }

/-- LEN, of bytes 36 to 39, and the offset of bytes 40 to 47 (R318). -/
def preLen (p : Prefix) : Nat := fld p.spec 31 0
def preOff (p : Prefix) : Nat := fld p.spec 95 32
def specLO (len off : Nat) : Nat := mk [(31, 0, len), (95, 32, off)]

/-- The most data bytes of one packet (R317). -/
def maxData : Nat := 2772

def padTo (n : Nat) (bs : List Byte) : List Byte := bs ++ List.replicate (n - bs.length) 0

/-- The 48-byte payloads of a packet's cells (R315, R317, R320). -/
def payloadsOf : Body → List (List Byte)
  | .coll pre data => prefixBytes pre :: (chunksOf 44 data).map fun x => padTo 44 x ++ leBytes pre.descDig 4
  | .other data => match chunksOf 48 data with
    | [] => [List.replicate 48 0]
    | xs => xs.map (padTo 48)

def cellsOf (p : Pkt) : List FCell :=
  let xs := payloadsOf p.body
  xs.zipIdx.map fun (x, i) => .routed p.hdr (i == 0) (i + 1 == xs.length) x

/-- Data bytes of a packet of the type: LEN where the prefix states it, 8 for SIGNAL, else all (R318, R319). -/
def dataLen (pre : Prefix) (n : Nat) : Nat :=
  if pre.type == 1 || pre.type == 4 || pre.type == 5 then preLen pre else if pre.type == 2 then 8 else n

/-- The packet that a run of cell payloads carries. -/
def pktOf (h : RHdr) : List (List Byte) → Pkt
  | [] => { hdr := h, body := .other [] }
  | x :: rest =>
    if h.cls == 1 then { hdr := h, body := .other ((x :: rest).flatten) }
    else
      let pre := prefixOf x
      let data := rest.flatMap (·.take 44)
      { hdr := h, body := .coll pre (data.take (dataLen pre data.length)) }

def preOfPkt (p : Pkt) : Prefix := match p.body with | .coll pre _ => pre | .other _ => prefixOf []
def dataOfPkt (p : Pkt) : List Byte := match p.body with | .coll _ d => d | .other d => d
def isCollPkt (p : Pkt) : Bool := match p.body with | .coll _ _ => true | .other _ => false
def setPre (p : Pkt) (g : Prefix → Prefix) : Pkt :=
  match p.body with
  | .coll pre d => { p with body := .coll (g pre) d }
  | .other _ => p

/-- Sequenced types (R349). -/
def isSeqType (t : Nat) : Bool := t == 1 || t == 2 || t == 3 || t == 5 || t == 8 || t == 9 || t == 12

/-! ### End-to-end encryption (R642 to R644) -/

def gkOf (b : Blk) (gid gen : Nat) : Option Nat := (b.sec.gks.find? fun k => k.1 == gid && k.2.1 == gen).map (·.2.2)

/-- Derive the key of a generation, once an FS is held (R642). -/
def deriveGk (b : Blk) (gid gen digest : Nat) : Blk :=
  match b.sec.fs with
  | some fs => if (gkOf b gid gen).isSome then b else
      { b with sec := { b.sec with gks := b.sec.gks ++ [(gid, gen, Config.groupKey fs gid gen digest)] } }
  | none => b
def eraseGk (b : Blk) (gid gen : Nat) : Blk :=
  { b with sec := { b.sec with gks := b.sec.gks.filter fun k => !(k.1 == gid && k.2.1 == gen) } }

/-- The counter block of R644. -/
def counterBlock (cseq src dst attempt step blk : Nat) : Nat :=
  mk [(127, 80, cseq), (79, 66, src), (65, 52, dst), (51, 51, attempt), (50, 35, step), (34, 0, blk)]

/-- Bytes of a transfer from offset `off` combined with the key stream; applying it twice gives the bytes back. -/
def crypt (gk cseq src dst attempt step off : Nat) (bs : List Byte) : List Byte :=
  bs.zipIdx.map fun (x, i) =>
    let o := off + i
    x ^^^ BitVec.ofNat 8 (Config.aes256 gk (counterBlock cseq src dst attempt step (o / 16)) >>> (8 * (15 - o % 16)))

/-- DATA and ATOMIC data that crosses a link is encrypted under the key of its generation (R643). -/
def cryptPkt (b : Blk) (dstRank attempt : Nat) (p : Pkt) : Pkt :=
  match p.body with
  | .coll pre d =>
    if (pre.type == 1 || pre.type == 5) && p.hdr.dst != p.hdr.src then
      match gkOf b pre.gid pre.gen with
      | some gk => { p with body := .coll pre (crypt gk pre.cseq pre.srcRank dstRank attempt pre.step (preOff pre) d) }
      | none => p
    else p
  | .other _ => p

/-! ### Routes (R342 to R347) -/

def routeOf (b : Blk) (ep : Nat) : Nat := tget 0 b.t.route ep
def rtValid (e : Nat) : Bool := tb e 255
def rtAlt (e : Nat) : Bool := tb e 254
def rtCode (e : Nat) (alt : Bool) (i : Nat) : Nat := if alt then fld e (6 * i + 95) (6 * i + 90) else fld e (6 * i + 5) (6 * i)
/-- PATH of the header: codes 1 to 14 (R311, R312). -/
def rtPath (e : Nat) (alt : Bool) : Nat := if alt then fld e 179 96 else fld e 89 6

def getP (b : Blk) (n : Nat) : Port := b.ports.getD n (port0 n)
def modP (b : Blk) (n : Nat) (g : Port → Port) : Blk := { b with ports := b.ports.modify n g }

/-- The port that answers to a code: a spare in service answers for the port it replaces (R47). -/
def portAt (b : Blk) (code : Nat) : Option Nat :=
  (List.range 42).find? fun n => portExists b n && (getP b n).serves == code && !(n < 40 && (getP b n).spared)
def codeUp (b : Blk) (code : Nat) : Bool := match portAt b code with | some n => (getP b n).state == 2 | none => false
/-- For path choice and multicast a sleeping port counts as not UP (R398). -/
def codeAwake (b : Blk) (code : Nat) : Bool :=
  match portAt b code with | some n => (getP b n).state == 2 && decide ((getP b n).sleep < 4) | none => false

/-- The virtual network of a header: 0 REQC, 1 REQO, 2 REP (R333). -/
def vnOf (h : RHdr) : Nat := if h.net == 1 then 2 else if h.cls == 1 then 1 else 0
/-- Cells queued at a port on a virtual network. -/
def queued (p : Port) (vn : Nat) : Nat := ((p.out.filter fun q => q.vn == vn).map (·.cells.length)).foldl (· + ·) 0
def queuedAt (b : Blk) (code vn : Nat) : Nat := match portAt b code with | some n => queued (getP b n) vn | none => 0

/-- R345: whether a flow takes the alternate path of an entry. -/
def chooseAlt (b : Blk) (e vn : Nat) : Bool :=
  let p := rtCode e false 0
  let a := rtCode e true 0
  if !rtAlt e then false
  else if !codeAwake b p && codeAwake b a then true
  else if !codeAwake b a then false
  else decide (queuedAt b a vn + fld b.ctl.throttle.force.toNat 63 48 < queuedAt b p vn)

/-- A port that is asleep begins to wake: it clears LP_REQ (R671, R710). -/
def rouse (p : Port) : Port := if p.sleep == 4 then { p with sleep := 5, lpReq := false } else p

/-- Cells for an output: queued at the port that answers to the code, which they wake (R398), or dropped and counted where it is not UP
(R332); a port that repeats its key handshake keeps them (R638). -/
def outTo (b : Blk) (code vn src : Nat) (entering : Bool) (cells : List FCell) : Blk :=
  match portAt b code with
  | some n =>
    if (getP b n).state == 2 || ((getP b n).state == 1 && (getP b n).rekey != 0) then
      modP b n fun p => rouse { p with out := p.out ++ [{ vn, src, entering, started := false, cells }], idle := 0 }
    else modP b n fun p => { p with downDrop := bump p.downDrop 255 }
  | none => if portExists b code then modP b code fun p => { p with downDrop := bump p.downDrop 255 } else b

/-- Local delivery: the packet waits for its own row (R318, R719). -/
def arrive (b : Blk) (port : Nat) (p : Pkt) : Blk :=
  { b with fab := { b.fab with arrived := b.fab.arrived ++ [(port, p)] } }

/-- Send a packet over its route on the primary or alternate path, or deliver it on this engine. -/
def launch (b : Blk) (p : Pkt) (alt : Bool) : Blk :=
  let dst := p.hdr.dst
  if dst == selfEp b then arrive b 63 p
  else
    let e := routeOf b dst
    let key := dst * 4 + p.hdr.net * 2 + p.hdr.cls
    let seq := tget 0 b.fab.pseq key
    let h := { p.hdr with hop := 1, path := rtPath e alt, pseq := seq }
    let b := { b with fab := { b.fab with pseq := tset 0 b.fab.pseq key ((seq + 1) % 16) } }
    outTo b (rtCode e alt 0) (vnOf h) 63 true (cellsOf { p with hdr := h })

/-- A ROUTE_UPDATE stops new request packets to a destination (R370). -/
def draining (b : Blk) (dst : Nat) : Bool := match b.fab.drain with | some d => d.eps.contains dst | none => false

def getDst (b : Blk) (ep : Nat) : DstSt := tget dstSt0 b.fab.dst ep
def modDst (b : Blk) (ep : Nat) (g : DstSt → DstSt) : Blk := { b with fab := { b.fab with dst := tmod dstSt0 b.fab.dst ep g } }

/-- The path of a command's traffic to a destination, chosen with its first packet (R345). -/
def flowAlt (b : Blk) (cmd : Option CmdId) (dst vn : Nat) : Bool × Blk :=
  match cmd with
  | none => (chooseAlt b (routeOf b dst) vn, b)
  | some id => match b.fab.flows.find? fun f => decide (f.cmd = id) && f.dst == dst with
    | some f => (f.alt, b)
    | none =>
      let alt := chooseAlt b (routeOf b dst) vn
      (alt, { b with fab := { b.fab with flows := b.fab.flows ++ [{ cmd := id, dst, alt }] } })

/-- Whether a packet may leave now: its route is valid, no drain holds it, the window of R349 has room. -/
def mayLeave (b : Blk) (p : Pkt) : Bool :=
  let dst := p.hdr.dst
  let seqd := isCollPkt p && isSeqType (preOfPkt p).type
  (dst == selfEp b || rtValid (routeOf b dst)) && !(p.hdr.net == 0 && draining b dst) &&
  (!seqd || decide ((getDst b dst).unacked.length < 256))

/-- One packet leaves, an ordered one of a die (rank 1) by its primary path (R346): a sequenced one takes the next E2E_SEQ and is kept until acknowledged (R349). -/
def leave (b : Blk) (x : Unsent) : Blk :=
  let p := x.pkt
  let dst := p.hdr.dst
  let (alt, b) := if p.hdr.cls == 1 && x.rank == 1 then (false, b) else flowAlt b x.cmd dst (vnOf p.hdr)
  let b := match x.cmd with | some id => modFn b id.f fun n => { n with moved := true } | none => b
  if isCollPkt p && isSeqType (preOfPkt p).type then
    let n := (getDst b dst).next
    let p := setPre p fun q => { q with e2e := n }
    let b := modDst b dst fun d => { d with next := (n + 1) % 2 ^ 32, unacked := d.unacked ++
      [{ seq := n, pkt := p, cmd := x.cmd, rank := x.rank, haly := none, held := false, alt, resends := 0, mcast := none }] }
    launch b p alt
  else launch b p alt

/-- Send a packet for a rank of the destination, or let it wait behind those that wait for its destination. -/
def sendTo (b : Blk) (p : Pkt) (cmd : Option CmdId) (rank : Nat) : Blk :=
  if (getDst b p.hdr.dst).waiting.isEmpty && mayLeave b p then leave b ⟨p, cmd, rank⟩
  else modDst b p.hdr.dst fun d => { d with waiting := d.waiting ++ [⟨p, cmd, rank⟩] }

def sendPkt (b : Blk) (p : Pkt) (cmd : Option CmdId) : Blk := sendTo b p cmd 0

/-- Packets that waited leave in order as far as they may. -/
def flushDst : Nat → Nat → Blk → Blk
  | 0, _, b => b
  | k + 1, ep, b => match (getDst b ep).waiting with
    | [] => b
    | x :: rest => if mayLeave b x.pkt then flushDst k ep (leave (modDst b ep fun d => { d with waiting := rest }) x) else b

def flush (b : Blk) (ep : Nat) : Blk := flushDst (getDst b ep).waiting.length ep b

/-! ### Multicast (R366 to R369) -/

def domOf (b : Blk) (d : Nat) : List Nat := tget [] b.t.mcast d
def domValid (e : List Nat) : Bool := tb (e.getD 0 0) 63
def domSelf (e : List Nat) : Nat := fld (e.getD 0 0) 62 56
def domMember (e : List Nat) (m : Nat) : Nat := fld (e.getD (1 + m / 4) 0) (16 * (m % 4) + 15) (16 * (m % 4))
def domMask (e : List Nat) (port : Nat) : Nat := e.getD (17 + port) 0
/-- Members that some port of this engine reaches. -/
def domReach (e : List Nat) : Nat := (List.range 42).foldl (fun m i => m ||| domMask e i) 0

/-- The mask that covers a set of endpoints in a domain, if the domain at this engine reaches them all. -/
def coverMask (e : List Nat) (eps : List Nat) : Option Nat :=
  eps.foldl (fun acc ep => match acc with
    | none => none
    | some m => match (List.range 64).find? fun i => domMember e i == ep && i != domSelf e && tb (domReach e) i with
      | some i => some (setBit m i true)
      | none => none) (some 0)

/-- A valid domain in which this engine is a member and that covers the destinations (R369). -/
def findDomain (b : Blk) (eps : List Nat) : Option (Nat × Nat) :=
  b.t.mcast.findSome? fun (d, e) =>
    if domValid e && decide (domSelf e < 64) then (coverMask e eps).map fun m => (d, m) else none

/-- The header of a copy for a mask of members (R367). -/
def mcHdr (b : Blk) (h : RHdr) (d mask : Nat) : RHdr :=
  { h with hop := 0, path := mk [(83, 72, d), (63, 0, mask)], dst := domMember (domOf b d) (((List.range 64).find? (tb mask)).getD 0) }

/-- Copies of a multicast packet to the ports that are UP and lead to members of the mask (R367). -/
def mcCopies (b : Blk) (arrival : Nat) (p : Pkt) (d mask : Nat) : Blk :=
  let e := domOf b d
  (List.range 42).foldl (fun b i =>
    let sub := mask &&& domMask e i
    if i != arrival && codeAwake b i && sub != 0 then
      let p := { p with hdr := mcHdr b p.hdr d sub }
      outTo b i (vnOf p.hdr) arrival (arrival == 63) (cellsOf p)
    else b) b

def getMdst (b : Blk) (d : Nat) : DstSt := tget dstSt0 b.fab.mdst d
def modMdst (b : Blk) (d : Nat) (g : DstSt → DstSt) : Blk := { b with fab := { b.fab with mdst := tmod dstSt0 b.fab.mdst d g } }
def drainingDom (b : Blk) (d : Nat) : Bool := match b.fab.drain with | some x => x.doms.contains d | none => false

/-- A multicast packet leaves under its domain's sequence (R368). -/
def leaveMc (b : Blk) (d mask : Nat) (x : Unsent) : Blk :=
  let n := (getMdst b d).next
  let p := setPre x.pkt fun q => { q with e2e := n, mcseq := true }
  let b := modMdst b d fun s => { s with next := (n + 1) % 2 ^ 32, unacked := s.unacked ++
    [{ seq := n, pkt := p, cmd := x.cmd, rank := x.rank, haly := none, held := false, alt := false, resends := 0, mcast := some (d, mask) }] }
  mcCopies b 63 p d mask

def mayLeaveMc (b : Blk) (d : Nat) : Bool := !drainingDom b d && decide ((getMdst b d).unacked.length < 256)

/-- Send a packet to members of a domain; PATH keeps the mask of one that waits. -/
def sendMc (b : Blk) (d mask : Nat) (p : Pkt) (cmd : Option CmdId) : Blk :=
  if (getMdst b d).waiting.isEmpty && mayLeaveMc b d then leaveMc b d mask ⟨p, cmd, 0x3FFF⟩
  else modMdst b d fun s => { s with waiting := s.waiting ++ [⟨{ p with hdr := { p.hdr with path := mask } }, cmd, 0x3FFF⟩] }

def flushMcAt : Nat → Nat → Blk → Blk
  | 0, _, b => b
  | k + 1, d, b => match (getMdst b d).waiting with
    | [] => b
    | x :: rest => if mayLeaveMc b d then flushMcAt k d (leaveMc (modMdst b d fun s => { s with waiting := rest }) d x.pkt.hdr.path x) else b

def flushMc (b : Blk) (d : Nat) : Blk := flushMcAt (getMdst b d).waiting.length d b

/-! ### Packets of commands and notices -/

def hdrTo (b : Blk) (dst net cls : Nat) : RHdr := { net, cls, hop := 1, src := selfEp b, dst, pseq := 0, path := 0 }
def pre0 : Prefix :=
  { type := 0, sat := false, resend := false, mcseq := false, step := 0, gid := 0, gen := 0, cseq := 0, srcRank := 0,
    rosterDig := 0, schedDig := 0, descDig := 0, e2e := 0, spec := 0 }

/-- The prefix of a command's packets (R124, R153, R315). -/
def cmdPre (b : Blk) (c : Cmd) (type step spec : Nat) : Prefix :=
  let dig := match findGroup b (fGid c) with | some (_, g) => g.digest | none => 0
  let sch := match c.handle with | some h => schedDigest (tget hoist0 b.t.hoist h) | none => 0
  { pre0 with type, step, gid := fGid c, gen := fGen c, cseq := fCseq c, srcRank := c.rank, rosterDig := dig,
              schedDig := sch, descDig := descDigest c, spec }

/-- A notice or an acknowledgement without data of a command. -/
def sendBare (b : Blk) (dst net : Nat) (pre : Prefix) (data : List Byte) : Blk :=
  sendPkt b { hdr := hdrTo b dst net 0, body := .coll pre data } none

/-- Engines of a group other than this one (R110, R137). -/
def otherEngines (b : Blk) (g : Group) : List Nat := ((rosterEps b g).eraseDups).filter (· != selfEp b)

/-- ABORT_NOTICE of a command to every other member engine: byte 36 holds the status (R59, R110, R318). -/
def abortNotices (b : Blk) (c : Cmd) (status : Nat) : Blk :=
  match findGroup b (fGid c) with
  | some (_, g) => (otherEngines b g).foldl (fun b ep =>
      sendBare b ep 0 { cmdPre b c 8 0 status with descDig := 0 } []) b
  | none => b

/-- Whether a command's early end concerns the other members (R110): a collective, DISPATCH or COMBINE that has started. -/
def hasPeers (c : Cmd) : Bool := (isColl (opOf c) || opOf c == 0x20 || opOf c == 0x21) && decide (c.phase = .running)

end Sys2Proof.Machine
end

