-- ==== Sys2Proof/Machine/Checks.lean ====
section
/-!
DEFINITION. The checks of a command: the statuses of R792 in their order, the regions a command reads and writes (R67, R72,
R277), and what makes a command malformed (R16, R72, R548, R549).
-/
namespace Sys2Proof.Machine

/-! ### Packet form (R491, R495, R551, R558) -/

/-- A later entry's header repeats only OWN, FIRST, LAST, OPCODE and TAG (R491). -/
def chainHdrOk (first hdr : Nat) (last : Bool) : Bool :=
  hdr == mk [(63, 63, 1), (61, 61, b2n last), (55, 48, fld first 55 48), (31, 0, fld first 31 0)]

def chainOk (c : Cmd) : Bool :=
  let h := hdrOf c.raw
  let e := entriesOf c
  tb h 62 && tb h 61 == (e == 1) &&
  (List.range (e - 1)).all fun j => chainHdrOk h (leAt c.raw (64 * (j + 1)) 8) (j + 2 == e)

/-- The flags an opcode permits, bit k for header bit 40 + k (R558). -/
def flagsAllowed (op : Nat) : Nat :=
  if op == 0x12 || op == 0x15 || op == 0x18 then 0x3F
  else if op == 0x19 then 0x3C
  else if isColl op then 0x3D
  else if op == 0x20 || op == 0x21 || op == 0x22 then 0x3D
  else if op == 0x30 || op == 0x32 then 0x7D
  else if op == 0x31 || op == 0x33 then 0x3D
  else if op == 0x34 then 0x38
  else if isOpen op then 0x39
  else if atAccept op then 0x10
  else 0x38

def formOk (b : Blk) (c : Cmd) : Bool :=
  entriesOf c == entriesWanted c && chainOk c && clsOf c == (getQ b c.id.f c.id.q).cls &&
  (fld (hdrOf c.raw) 46 40 ||| flagsAllowed (opOf c)) == flagsAllowed (opOf c)

/-! ### Sizes -/

/-- B(n) of the command's format and operator (R66, R76). -/
def cmdBytes (c : Cmd) (n : Nat) : Nat := vecBytes (fFormat c) (if opOf c ≤ 0x14 then fOper c else 0) n
/-- N of the command's group. -/
def cmdN (b : Blk) (c : Cmd) : Nat := match findGroup b (fGid c) with | some (_, g) => g.n | none => 1
/-- Counts decide the data phase: ALLTOALLV or COUNTS_FIRST (R86). -/
def isCounted (c : Cmd) : Bool := opOf c == 0x18 || (isColl (opOf c) && flCounts c)
/-- B of the size class (R150, R275). -/
def classBytes (b : Blk) (c : Cmd) : Nat :=
  let op := opOf c
  if op == 0x20 then fE c / cmdN b c * fCap c * bytesOf (fFormat c) (fDim c)
  else if op == 0x21 then 0
  else if isP2p op then if op == 0x33 then bytesOf (fFormat c) (fLen c) else fLen c
  else if isOpen op then fLen0 c
  else if isCounted c then cmdBytes c (fDstCap c) else cmdBytes c (fCount c)
/-- The size class (R150). -/
def sizeClass (bytes : Nat) : Nat := clog2 (max bytes 64) - 6
/-- Elements in the transform block (R246). -/
def xformBlock (xform xparam : Nat) : Nat :=
  if xform == 1 then 32 else if xform == 2 then 32 * (64 * 2 ^ (xparam % 8)) else if xform == 3 then 256 * 2 ^ (xparam / 16 % 4) else 1

/-! ### Permission, the fourth check -/

def d2dOk (b : Blk) (f space : Nat) : Bool := space == 0 || decide (4 < space) || tb (getFn b f).d2dMask (space - 1)
def penMapped (b : Blk) (f vid : Nat) : Bool := (penIdx b f vid).isSome

def permOk (b : Blk) (c : Cmd) : Bool :=
  let f := c.id.f
  let op := opOf c
  let group := !namesGroup c || (match findGroup b (fGid c) with | some (_, g) => (rankIn g f).isSome | none => false)
  let spaces :=
    if isColl op || op == 0x20 || op == 0x21 || isOpen op then d2dOk b f (fSpaceA c) && d2dOk b f (fSpaceB c)
    else if isP2p op || op == 0x22 then d2dOk b f (fSpaceA c) else true
  let pens :=
    (!(flFly c && (fFlyMode c == 1 || fFlyMode c == 3)) || penMapped b f (fFlyPen c)) &&
    (op != 0x34 || penMapped b f (fPen c)) && (!isOpen op || (penMapped b f (fFlyPen c) && penMapped b f (fCreditPen c)))
  let names := !(op == 0x50 || op == 0x51) || f == 0 || fFn c == f
  group && spaces && pens && names

/-! ### Field and layout rules, the fifth check -/

def okAddr (a : Nat) : Bool := decide (a < 2 ^ 57) && a % 64 == 0
def optAddr (a : Nat) : Bool := a == 0 || okAddr a
def isReduce (op : Nat) : Bool := op == 0x10 || op == 0x11 || op == 0x14

/-- The pairing of operators and formats (R73). -/
def pairOk (oper f : Nat) : Bool :=
  let fl := f != 0x8 && f != 0x9 && f != 0xA && f != 0xF
  if oper == 0 then fl || f == 8 || f == 9
  else if oper == 1 then fl
  else if oper == 2 || oper == 3 then fl || f == 8 || f == 9 || f == 0xA
  else if oper == 4 || oper == 5 || oper == 6 then f == 8 || f == 9 || f == 0xA
  else if oper == 7 || oper == 8 || oper == 9 then f == 0 || f == 1 || f == 2 || f == 8 || f == 0xA
  else false

/-- Opcode and algorithm (R100). -/
def algOk (op alg : Nat) : Bool :=
  if op == 0x10 then alg ≤ 5
  else if op == 0x11 || op == 0x12 then alg == 1 || alg == 2 || alg == 4 || alg == 5
  else if op == 0x13 || op == 0x14 then alg == 1 || alg == 3 || alg == 4 || alg == 5
  else if op == 0x15 || op == 0x16 || op == 0x1A then alg == 3 || alg == 4
  else if op == 0x17 || op == 0x18 then alg == 1 || alg == 4 || alg == 5
  else if op == 0x19 then alg == 2 || alg == 3 || alg == 4
  else if op == 0x20 || op == 0x21 then alg == 1 || alg == 4 || alg == 5
  else alg == 4

/-- XFORM and its parameter (R243). -/
def xparamOk (xform p : Nat) : Bool :=
  if xform == 0 then p == 0
  else if xform == 1 then !tb p 4 && [5, 6, 7, 12, 13, 14].contains (p % 16)
  else if xform == 2 then
    decide (p / 8 ≤ 4) && decide (p % 8 ≤ 4) && decide (4 * 2 ^ (p / 8) < 64 * 2 ^ (p % 8))
  else decide (p % 16 ≤ 9) && decide (4 * 2 ^ (p % 16) ≤ 256 * 2 ^ (p / 16))

/-- FLY_MODE and FLY_PEN (R556). -/
def flyOk (c : Cmd) : Bool := if flFly c then fFlyMode c != 0 else fFlyMode c == 0 && fFlyPen c == 0

/-- HALVING needs a power of two for REDUCE_SCATTER and ALLGATHER (R100). -/
def halvingOk (op alg n : Nat) : Bool := !((op == 0x11 || op == 0x12) && alg == 2) || isPow2 n

def collOk (b : Blk) (c : Cmd) : Bool :=
  let op := opOf c
  let f := fFormat c
  let n := fCount c
  let N := cmdN b c
  let root := decide (fRoot c = c.rank)
  let useSrc := op != 0x19 && (!(op == 0x13 || op == 0x16) || root)
  let ignSrc := (op == 0x13 || op == 0x16) && !root
  let useDst := op != 0x19 && (!(op == 0x14 || op == 0x15) || root)
  let ignDst := (op == 0x14 || op == 0x15) && !root
  let rooted := op == 0x13 || op == 0x14 || op == 0x15 || op == 0x16
  let cf := isCounted c
  !tb (fCseq c) 47 && flyOk c && decide (fSpaceA c ≤ 4) && decide (fSpaceB c ≤ 4) &&
  (fAlg c == 0 || (algOk op (fAlg c) && fAlg c != 0)) && decide (fAlg c ≤ 5) && halvingOk op (fAlg c) N &&
  f != 0xF && decide (n < 2 ^ 48) &&
  -- operator, format, transform
  (if isReduce op then fOper c != 9 && pairOk (fOper c) f
   else if op == 0x1A then fOper c == 9 && pairOk 9 f
   else fOper c == 0) &&
  (if op == 0x19 then f == 0 && fXform c == 0 && fXparam c == 0 && n == 0 else true) &&
  (fXform c == 0 || (isReduce op && fOper c == 0 && (f == 0 || f == 1 || f == 2))) && xparamOk (fXform c) (fXparam c) &&
  (fEfb c == 0 || (isReduce op && (fXform c == 2 || fXform c == 3) && okAddr (fEfb c))) &&
  (!(op == 0x11 && fXform c != 0) || n % xformBlock (fXform c) (fXparam c) == 0) &&
  (fXform c != 3 || fAlg c == 0 || fAlg c == 4 || fAlg c == 5) &&
  (!(isReduce op && f == 0xB) || decide (n ≤ 1024)) &&
  -- counts
  (op == 0x18 || !isScaled f || n % 32 == 0) &&
  (cf || decide (cmdBytes c n ≤ 2 ^ 40)) && (!cf || decide (cmdBytes c (fDstCap c) ≤ 2 ^ 40)) &&
  -- roots, top-k
  (if rooted then decide (fRoot c < N) else fRoot c == 0) &&
  (if op == 0x1A then decide (1 ≤ fTopk c) && decide (fTopk c ≤ 1024) && decide (fTopk c ≤ N * n) && decide (N * n < 2 ^ 32)
   else fTopk c == 0) &&
  -- addresses
  (if useSrc then okAddr (fSrc c) else ignSrc || fSrc c == 0) &&
  (if useDst then okAddr (fDst c) else ignDst || fDst c == 0) &&
  (if isReduce op then optAddr (fPreload c) && (fPreload c == 0 || [0, 1, 2, 3, 7, 8].contains (fOper c)) else fPreload c == 0) &&
  (if op == 0x18 then fieldExt c && fScounts c != 0 && okAddr (fScounts c) else fScounts c == 0) &&
  (if cf then fieldExt c && optAddr (fRcounts c) && (fRcounts c != 0 || (op == 0x15 && !root))
   else fRcounts c == 0 && fDstCap c == 0)

def p2pOk (b : Blk) (c : Cmd) : Bool :=
  let op := opOf c
  let el := bytesOf (fFormat c) 1
  tb (fCseq c) 47 && flyOk c && (fAlg c == 0 || fAlg c == 4) && decide (fSpaceA c ≤ 4) && decide (fSpaceB c ≤ 4) &&
  decide (fTarget c < cmdN b c) && decide (1 ≤ fLen c) && decide (fLocal c < 2 ^ 57) && decide (fRemote c < 2 ^ 57) &&
  (if op == 0x33 then [0, 1, 8].contains (fFormat c) && [0, 2, 3].contains (fOper c) && fSpaceB c == 0 &&
     fLocal c % el == 0 && fRemote c % el == 0
   else fFormat c == 0 && fOper c == 0) &&
  (op == 0x32 || (!fSigAdd c && fSigPen c == 0 && fSigValue c == 0)) && (flRfly c || fRflyPen c == 0)

/-- FORMAT of X and of W (R276). -/
def xFmtOk (f : Nat) : Bool := [0, 1, 2, 3, 4, 5, 6, 7, 0xC, 0xD, 0xE].contains f
def wFmtOk (f : Nat) : Bool := decide (f ≤ 4)
def dimOk (d : Nat) : Bool := decide (64 ≤ d) && decide (d ≤ 65536) && d % 64 == 0

def scoreOk (c : Cmd) : Bool :=
  flyOk c && decide (fSpaceA c ≤ 4) && decide (1 ≤ fT c) && decide (fT c ≤ 1048576) && dimOk (fDim c) &&
  decide (2 ≤ fE c) && decide (fE c ≤ 1024) && decide (fK c ≤ 8) && decide (fK c ≤ fE c) && xFmtOk (fFormat c) &&
  wFmtOk (fWfmt c) && okAddr (fX c) && okAddr (fW c) && fW c != 0 && optAddr (fLogits c) && optAddr (fAssign c) &&
  (fAssign c != 0 || fK c == 0) && !(fLogits c == 0 && fK c == 0)

def dispatchOk (b : Blk) (c : Cmd) : Bool :=
  let N := cmdN b c
  !tb (fCseq c) 47 && flyOk c && (fAlg c == 0 || algOk 0x20 (fAlg c)) && decide (fSpaceA c ≤ 4) && decide (fSpaceB c ≤ 4) &&
  decide (fT c ≤ 1048576) && dimOk (fDim c) && decide (2 ≤ fE c) && decide (fE c ≤ 1024) && fE c % N == 0 &&
  decide (1 ≤ fK c) && decide (fK c ≤ 8) && decide (fK c ≤ fE c) && decide (1 ≤ fCap c) &&
  (if fNext c then decide (1 ≤ fRounds c) else fRounds c == 0) && xFmtOk (fFormat c) && wFmtOk (fWfmt c) &&
  okAddr (fX c) && optAddr (fW c) && optAddr (fLogits c) && !(fW c == 0 && fLogits c == 0) && okAddr (fAssign c) &&
  okAddr (fRecv c) && okAddr (fOrigin c) && optAddr (fDrops c) && decide (fDropCap c < 2 ^ 24) &&
  (fDrops c != 0 || fDropCap c == 0) && decide (classBytes b c ≤ 2 ^ 40)

def combineOk (c : Cmd) : Bool :=
  !tb (fCseq c) 47 && flyOk c && (fAlg c == 0 || algOk 0x21 (fAlg c)) && decide (fSpaceA c ≤ 4) && decide (fSpaceB c ≤ 4) &&
  decide (fFormat c ≤ 2) && dimOk (fDim c) && okAddr (fAssign c) && okAddr (fOrigin c) && okAddr (fYout c) &&
  okAddr (fCdst c) && optAddr (fCpre c)

def pennantOk (c : Cmd) : Bool :=
  decide (fPenOp c ≤ 2) &&
  (if fPenOp c == 2 then decide (fPenForm c ≤ 2) && (if fPenForm c == 2 then fPenMask c != 0 else fPenMask c == 0)
   else fPenForm c == 0 && fPenMask c == 0)

/-- Shard bytes Z of R410. -/
def shardBytes (c : Cmd) : Nat := (fCounts c).foldl (· * ·) (fLen0 c)
def getStr (b : Blk) (f n : Nat) : Stream := tget stream0 b.t.stream (f * 64 + n)

def openOk (b : Blk) (c : Cmd) : Bool :=
  let f := c.id.f
  let fo := getStr b f (fFollows c)
  decide (fSpaceA c ≤ 4) && decide (fSpaceB c ≤ 4) && !(getStr b f (fStream c)).valid &&
  (if fSharded c then !tb (fCseq c) 47 else fGid c == 0 && fGen c == 0 && fCseq c == 0) &&
  decide (fSrcBase c < 2 ^ 57) && decide (1 ≤ fLen0 c) && (fCounts c).all (fun x => decide (1 ≤ x)) &&
  decide (shardBytes c ≤ 2 ^ 48) && okAddr (fDstBase c) && decide (12 ≤ fSlotLog2 c) && decide (fSlotLog2 c ≤ 26) &&
  decide (2 ≤ fNslots c) && decide (fNslots c ≤ 1024) && fFlyPen c != fCreditPen c && decide (1 ≤ fDrain c) &&
  (if opOf c == 0x40 then fFollows c == 0 else fo.valid && (fo.state == 1 || fo.state == 2 || fo.state == 3))

def enableFieldsOk (c : Cmd) : Bool :=
  let q := pbits c 2 4 0
  let lg := pbits c 3 5 0
  decide (1 ≤ q) && decide (q ≤ 16) && decide (20 ≤ lg) && decide (lg ≤ 40) && pf c 8 8 % 2 ^ 20 == 0 &&
  decide (pf c 8 8 < 2 ^ 57) && decide (pf c 16 2 ≤ 16384) && decide (pf c 20 4 ≤ 1048576) &&
  decide (1 ≤ pf c 24 2) && decide (pf c 24 2 ≤ 4096) && fFn c != 0

/-- The static field rules of each opcode (R560: a named field that it does not use is zero); rules that read a table are in its own meaning. -/
def fieldsOk (b : Blk) (c : Cmd) : Bool :=
  let op := opOf c
  let wait := !flWait c || (decide (wcForm c ≤ 2) && (if wcForm c == 2 then wcMask c != 0 else wcMask c == 0))
  wait &&
  if isColl op then collOk b c
  else if isP2p op then p2pOk b c
  else if op == 0x20 then dispatchOk b c
  else if op == 0x21 then combineOk c
  else if op == 0x22 then scoreOk c
  else if op == 0x34 then pennantOk c
  else if isOpen op then openOk b c
  else if op == 0x50 then decide (fQ c < (getFn b (fFn c)).nq)
  else if op == 0x51 then decide (fQ c < (getFn b (fFn c)).nq) && pf c 4 4 == 0
  else if op == 0x84 then pf c 10 4 % 2 ^ 14 == 0 && pf c 12 2 == 0 && pbits c 14 1 0 == 0
  else if op == 0x8C then decide (pf c 0 1 ≤ 2) && (if pf c 0 1 == 0 then pbits c 1 5 0 == 0 else pf c 2 2 % 2 ^ 9 == 0)
  else true

/-! ### The generation, the sixth check (R127) -/

/-- What R127 says of a generation: a status, or none when the command runs or waits. -/
def genStatus (g : Group) (gen : Nat) : Option Nat :=
  if g.state == 5 then some 0x10
  else if gen < g.gen then some 0x22
  else if gen == g.gen then
    if g.state == 2 then some (breakStatus g.brokenCause) else if g.state == 4 then some 0x21
    else if g.state == 3 then some 0x10 else none
  else none

def cmdGenStatus (b : Blk) (c : Cmd) : Option Nat :=
  if namesGroup c then match findGroup b (fGid c) with | some (_, g) => genStatus g (fGen c) | none => some 0x31 else none

/-- The status that the checks made at acceptance give, in the order of R792; none when all pass. -/
def acceptStatus (b : Blk) (c : Cmd) : Option Nat :=
  let op := opOf c
  if !(tb (hdrOf c.raw) 62) then some 0x61
  else if !isListed op then some 0x61
  else if isAdmin op && c.id.f != 0 then some 0x31
  else if !formOk b c then some 0x61
  else if !permOk b c then some 0x31
  else if !fieldsOk b c then some 0x61
  else cmdGenStatus b c

/-! ### Regions (R66, R67, R72, R277) -/

/-- A region of a command: whether it is written, its space, address and length. -/
structure Region where
  wr : Bool
  space : Nat
  addr : Nat
  len : Nat
deriving DecidableEq, Repr

/-- Bytes written to DST at this member, D of R92. -/
def dstBytes (b : Blk) (c : Cmd) : Nat :=
  let op := opOf c
  let N := cmdN b c
  let B := cmdBytes c (fCount c)
  let root := fRoot c == c.rank
  if isColl op then
    if op == 0x19 then 0
    else if isCounted c then (if op == 0x15 && !root then 0 else cmdBytes c (fDstCap c))
    else if op == 0x14 then (if root then B else 0)
    else if op == 0x15 then (if root then N * B else 0)
    else if op == 0x12 || op == 0x17 then N * B
    else if op == 0x1A then upTo (bytesOf (fFormat c) (fTopk c)) 64 + 4 * fTopk c
    else B
  else if op == 0x20 then fE c / N * fCap c * bytesOf (fFormat c) (fDim c)
  else if op == 0x22 then (if fLogits c == 0 then 0 else fT c * upTo (4 * fE c) 64)
  else if op == 0x21 then c.extent
  else if op == 0x33 then bytesOf (fFormat c) (fLen c)
  else if isP2p op then fLen c
  else 0

/-- Where the D bytes lie: space and address. -/
def dstAt (c : Cmd) : Nat × Nat :=
  let op := opOf c
  if isColl op then (fSpaceB c, fDst c)
  else if op == 0x20 then (fSpaceB c, fRecv c)
  else if op == 0x21 then (fSpaceB c, fCdst c)
  else if op == 0x22 then (0, fLogits c)
  else (fSpaceA c, fLocal c)

/-- Bytes of SRC that this member reads. -/
def srcBytes (b : Blk) (c : Cmd) : Nat :=
  let op := opOf c
  let N := cmdN b c
  let B := cmdBytes c (fCount c)
  let root := fRoot c == c.rank
  if op == 0x19 || op == 0x18 then 0
  else if op == 0x13 then (if root then B else 0)
  else if op == 0x16 then (if root then N * B else 0)
  else if op == 0x11 || op == 0x17 then N * B else B

def regionsOf (b : Blk) (c : Cmd) : List Region :=
  let op := opOf c
  let N := cmdN b c
  let D := dstBytes b c
  let some0 := fun (r : Region) => if r.addr == 0 then [] else [r]
  let rs :=
    if isColl op then
      [⟨false, fSpaceA c, fSrc c, srcBytes b c⟩, ⟨true, fSpaceB c, fDst c, D⟩] ++
      some0 ⟨false, 0, fPreload c, if isReduce op then cmdBytes c (fCount c) else 0⟩ ++
      some0 ⟨true, 0, fEfb c, 4 * (if op == 0x11 then N * fCount c else fCount c)⟩ ++
      some0 ⟨false, 0, fScounts c, 4 * N⟩ ++ some0 ⟨true, 0, fRcounts c, 4 * N⟩
    else if op == 0x31 then [⟨true, fSpaceA c, fLocal c, D⟩]
    else if isP2p op then [⟨false, fSpaceA c, fLocal c, D⟩]
    else if op == 0x20 then
      let rb := bytesOf (fFormat c) (fDim c)
      let epm := fE c / N
      [⟨false, fSpaceA c, fX c, fT c * rb⟩, ⟨true, fSpaceB c, fRecv c, D⟩] ++
      some0 ⟨false, 0, fW c, bytesOf (fWfmt c) (fDim c * fE c)⟩ ++
      some0 ⟨fW c != 0, 0, fLogits c, fT c * upTo (4 * fE c) 64⟩ ++
      [⟨true, 0, fAssign c, 64 + 16 * fT c * fK c⟩, ⟨true, 0, fOrigin c, 64 + 64 * cdiv epm 16 + 8 * epm * fCap c⟩] ++
      some0 ⟨true, 0, fDrops c, 8 * fDropCap c⟩
    else if op == 0x22 then
      [⟨false, fSpaceA c, fX c, fT c * bytesOf (fFormat c) (fDim c)⟩, ⟨false, 0, fW c, bytesOf (fWfmt c) (fDim c * fE c)⟩] ++
      some0 ⟨true, 0, fLogits c, D⟩ ++ some0 ⟨true, 0, fAssign c, 64 + 16 * fT c * fK c⟩
    else if op == 0x21 then
      [⟨false, 0, fAssign c, 64⟩, ⟨false, 0, fOrigin c, 64⟩, ⟨true, fSpaceB c, fCdst c, D⟩] ++ some0 ⟨false, 0, fCpre c, D⟩
    else []
  rs.filter fun r => r.len != 0

def overlaps (x y : Region) : Bool :=
  x.space == y.space && decide (x.addr < y.addr + y.len) && decide (y.addr < x.addr + x.len)

/-- The one in-place form of an opcode (R71): where SRC and DST may coincide. -/
def inPlace (b : Blk) (c : Cmd) : Bool :=
  let op := opOf c
  let B := cmdBytes c (fCount c)
  let root := fRoot c == c.rank
  let s := fSrc c
  let d := fDst c
  fSpaceA c == fSpaceB c &&
  ((op == 0x10 && d == s) || (op == 0x11 && d == s + c.rank * B) || (op == 0x12 && s == d + c.rank * B) ||
   (root && ((op == 0x13 && d == s) || (op == 0x14 && d == s) || (op == 0x15 && s == d + c.rank * B) ||
             (op == 0x16 && d == s + c.rank * B))))

/-- Overlap among a command's own regions outside R71 and R72. -/
def selfOverlap (b : Blk) (c : Cmd) : Bool :=
  let rs := regionsOf b c
  let ok := fun (x y : Region) =>
    (isColl (opOf c) && inPlace b c && ((x.addr == fSrc c && y.addr == fDst c) || (x.addr == fDst c && y.addr == fSrc c))) ||
    (isReduce (opOf c) && fPreload c != 0 && fPreload c == fDst c && x.addr == y.addr)
  (List.range rs.length).any fun i => (List.range i).any fun j =>
    match rs[i]?, rs[j]? with
    | some x, some y => overlaps x y && !ok x y
    | _, _ => false

/-- The regions of a function that Dresis itself writes (R549, R647). -/
def fnRegions (b : Blk) (f : Nat) : List Region :=
  let n := getFn b f
  (if n.enabled then [⟨true, 0, n.logBase, 2 ^ n.logLog2⟩] else []) ++
  (if n.cqEn then [⟨true, 0, n.cqBase, 32 * 2 ^ n.cqLog2⟩] else []) ++
  (if n.eqEn then [⟨true, 0, n.eqBase, 16 * 2 ^ n.eqLog2⟩] else []) ++
  (if n.spEn then [⟨true, 0, n.spBase, 2 ^ n.spLog2⟩] else []) ++
  (n.queues.filter fun e => e.2.state != 0).map fun e => ⟨true, 0, e.2.base, 64 * 2 ^ e.2.log2⟩

/-- The slot ring of a stream (R409). -/
def slotRing (s : Stream) : Region := ⟨true, s.dstSpace, s.dstBase, s.nslots * 2 ^ s.slotLog2⟩

/-- Regions of the function's other commands in flight and of its streams. -/
def flightRegions (b : Blk) (c : Cmd) : List Region :=
  (b.cmds.filter fun d => d.id.f == c.id.f && !decide (d.id = c.id) && decide (d.phase = .running)).flatMap (regionsOf b) ++
  (b.t.stream.filter fun e => e.1 / 64 == c.id.f && e.2.valid).map fun e => slotRing e.2

/-- Bytes or bits that a layout marks reserved and that are not zero (R16, R551). -/
def nz (c : Cmd) (l : List (Nat × Nat)) : Bool := l.any fun (o, n) => pf c o n != 0
def nzb (c : Cmd) (l : List (Nat × Nat × Nat)) : Bool := l.any fun (o, h, lo) => pbits c o h lo != 0

def reservedSet (c : Cmd) : Bool :=
  let op := opOf c
  let end_ := lpOf c + 24 * b2n (flWait c)
  fld (hdrOf c.raw) 60 56 != 0 || tb (hdrOf c.raw) 47 || fld (hdrOf c.raw) 39 34 != 0 ||
  nz c [(end_, 56 * entriesOf c - end_)] ||
  (flWait c && (nzb c [(lpOf c + 2, 7, 2)] || nz c [(lpOf c + 3, 5)])) ||
  (if isColl op then nzb c [(14, 7, 7), (17, 7, 6), (19, 7, 6)]
   else if isP2p op then nzb c [(14, 7, 6), (16, 7, 1), (17, 7, 6), (19, 7, 6)] || nz c [(46, 2)]
   else if op == 0x22 then nzb c [(9, 7, 3), (10, 7, 4), (14, 3, 3), (14, 7, 6)] || nz c [(15, 1), (48, 8)]
   else if op == 0x20 then nzb c [(14, 7, 6), (16, 7, 7), (17, 7, 6), (19, 7, 3)] || nz c [(22, 2), (35, 1)]
   else if op == 0x21 then nzb c [(14, 7, 6), (15, 7, 4), (17, 7, 6)] || nz c [(16, 1), (18, 2), (22, 6)]
   else if op == 0x34 then nzb c [(0, 7, 2), (1, 7, 2)] || nz c [(4, 4)]
   else if isOpen op then nzb c [(15, 7, 6), (16, 7, 5), (17, 7, 6), (19, 7, 3)]
   else if op == 0x42 then nzb c [(0, 7, 6)] || nz c [(1, 7)]
   else if op == 0x43 then nzb c [(0, 7, 6), (1, 7, 1)] || nz c [(2, 6)]
   else if op == 0x50 then nzb c [(1, 7, 1), (2, 7, 4)] || nz c [(3, 1)]
   else if op == 0x51 then nzb c [(1, 7, 1), (2, 7, 4)] || nz c [(3, 1)]
   else if op == 0x80 then nzb c [(1, 7, 1), (2, 7, 5), (3, 7, 6), (26, 7, 4)] || nz c [(18, 2), (27, 5)]
   else if op == 0x81 then nzb c [(1, 7, 1)] || nz c [(2, 6)]
   else if op == 0x82 then nzb c [(1, 7, 1), (3, 7, 1)] || nz c [(6, 2)]
   else if op == 0x83 then nzb c [(9, 7, 6), (11, 7, 6), (14, 7, 2)] || nz c [(15, 1)]
   else if op == 0x84 then nzb c [(9, 7, 6), (11, 7, 6), (14, 7, 2)] || nz c [(15, 1)]
   else if op == 0x85 then nz c [(4, 4)]
   else if op == 0x86 then nzb c [(8, 7, 6), (9, 7, 5), (10, 7, 5), (11, 7, 7), (12, 7, 7), (45, 7, 2)] || nz c [(13, 3), (46, 10)]
   else if op == 0x87 then nzb c [(8, 7, 3)] || nz c [(9, 7)]
   else if op == 0x88 then nzb c [(2, 7, 1)] || nz c [(3, 5)]
   else if op == 0x89 then nzb c [(16, 7, 1)] || nz c [(17, 7)]
   else if op == 0x8A then nz c [(1, 3)]
   else if op == 0x8B then nzb c [(2, 7, 2)] || nz c [(3, 5)]
   else if op == 0x8C then nzb c [(1, 7, 6), (3, 7, 1)] || nz c [(4, 4)]
   else if op == 0x8E then nz c [(1, 1), (20, 4)]
   else false)

/-- Malformed at acceptance (R548): reserved bits set, or a buffer on another of its own or on a ring or logbook. -/
def malformedAtAccept (b : Blk) (c : Cmd) : Bool :=
  reservedSet c || selfOverlap b c || (regionsOf b c).any fun r => (fnRegions b c.id.f).any (overlaps r)

/-- Malformed at dispatch (R72): DST of one command on any buffer of another in flight. -/
def malformedAtDispatch (b : Blk) (c : Cmd) : Bool :=
  (regionsOf b c).any fun r => (flightRegions b c).any fun s => (r.wr || s.wr) && overlaps r s

/-- R409: a stream's slot ring on a region of another command or stream in flight. -/
def ringOverlap (b : Blk) (c : Cmd) : Bool :=
  let r : Region := ⟨true, fSpaceB c, fDstBase c, fNslots c * 2 ^ fSlotLog2 c⟩
  (flightRegions b c).any (overlaps r)

/-- n bytes of free value at an address of a function. -/
def freeBytes (b : Blk) (f sp a n : Nat) : Blk :=
  if n = 0 then b
  else fnStore { b with fresh := b.fresh + 1 } f sp a ((List.range n).map fun i => Config.freeByte b.fresh (a + i))

/-- R109, R111, R301: after an early end of a command that has started, bytes of DST outside the raised flies are undefined, and so
are the tables of DISPATCH and SCORE behind their headers: each takes a free value. -/
def undefDst (b : Blk) (c : Cmd) : Blk :=
  if decide (c.phase = .running) && !(isP2p (opOf c) && opOf c != 0x31) then
    let D := dstBytes b c
    let C := match c.handle with
      | some h => 2 ^ (tget hoist0 b.t.hoist h).chunkLog2
      | none => 65536
    let done := min D (c.flies * C)
    let (sp, a) := dstAt c
    let tables := if opOf c == 0x20 || opOf c == 0x22 then (regionsOf b c).filter fun r => r.wr && r.addr != a else []
    let b := freeBytes b c.id.f sp (a + done) (D - done)
    tables.foldl (fun b r =>
      let k := if r.addr == fAssign c || (opOf c == 0x20 && r.addr == fOrigin c) then 64 else 0
      freeBytes b c.id.f r.space (r.addr + k) (r.len - k)) b
  else b

/-- A running command ends early: peers are told, what R109 leaves undefined is free, its status is decided. -/
def failCmd (b : Blk) (id : CmdId) (status notice : Nat) : Blk :=
  withCmd b id fun c =>
    if c.phase = .ended then b
    else
      let b := if hasPeers c then abortNotices b c notice else b
      let result := if isColl (opOf c) || isP2p (opOf c) then
          match c.handle with
          | some h => let e := tget hoist0 b.t.hoist h; mk [(63, 60, e.alg), (59, 55, e.chunkLog2), (31, 0, c.flies)]
          | none => 0
        else 0
      endCmd (undefDst b c) id status result

end Sys2Proof.Machine
end

