-- ==== Sys2Proof/Machine/Groups.lean ====
section
/-!
DEFINITION. Streams' records and ends (R423 to R435), broken generations (R136 to R140), notices to members, and the fence of a
function (R616).
-/
namespace Sys2Proof.Machine

/-! ### Streams -/

def strKey (f n : Nat) : Nat := f * 64 + n
def modStr (b : Blk) (f n : Nat) (g : Stream → Stream) : Blk :=
  { b with t := { b.t with stream := tmod stream0 b.t.stream (strKey f n) g } }

/-- Members of the group a SHARDED stream belongs to. -/
def strMembers (b : Blk) (s : Stream) : Nat :=
  if s.sharded then match findGroup b s.gid with | some (_, g) => g.n | none => 1 else 1
/-- Bytes Z of one descriptor (R410) and V of the stream (R411). -/
def strZ (s : Stream) : Nat := s.counts.foldl (· * ·) s.len0
def strV (b : Blk) (s : Stream) : Nat := strMembers b s * strZ s
def slotBytes (s : Stream) : Nat := 2 ^ s.slotLog2
def slotCount (b : Blk) (s : Stream) : Nat := cdiv (strV b s) (slotBytes s)

/-- A position of a descriptor: the indices of dimensions 1 to 4 and the byte within dimension 0 (R410). -/
def strIdx (s : Stream) (x : Nat) : List Nat × Nat :=
  let step := fun (acc : List Nat × Nat) (c : Nat) => (acc.1 ++ [acc.2 % c], acc.2 / c)
  ((s.counts.foldl step ([], x / s.len0)).1, x % s.len0)

/-- The address of byte x of this member's descriptor, modulo 2^57. -/
def strAddr (s : Stream) (x : Nat) : Nat :=
  let (is, c0) := strIdx s x
  let off := ((is.zip s.strides).map fun (i, d) => (i : Int) * sext 64 d).foldl (· + ·) (0 : Int)
  unsext 57 ((s.srcBase : Int) + off + (c0 : Int))

/-- Words 13 and 14 of the entry: the cursor of byte x of the stream (R426, R435). -/
def strCursor (b : Blk) (s : Stream) (x : Nat) : Nat × Nat :=
  let x := min x (strV b s - 1)
  let (is, c0) := strIdx s (x % max 1 (strZ s))
  let i := fun k => is.getD k 0
  (mk [(63, 48, i 3), (47, 32, i 2), (31, 16, i 1), (15, 0, i 0)], mk [(63, 32, c0), (31, 19, x / max 1 (strZ s))])

/-- A stream record, paired with its PROGRESS STREAM record (R433, R508, R522, R528). -/
def streamRecord (b : Blk) (f n skind status va : Nat) : Blk :=
  let s := getStr b f n
  let nf := getFn b f
  let b := appendLog b f (logRecord nf 3 3 s.queue s.openId.2 s.tag n [s.state, s.flies, s.delivered] [])
  let b := modStr b f n fun s => { s with prog := some { lsn := nf.head, sub := 3, a := n, w := [s.state, s.flies, s.delivered] } }
  ringPut b f { w := [mk [(62, 61, 2), (60, 57, s.queue), (55, 48, s.opcode), (47, 40, status), (31, 0, s.tag)],
                      mk [(63, 62, skind), (61, 56, n), (31, 0, s.flies)], s.delivered, va % 2 ^ 57], cmd := none }

/-- R423: the streams that follow this one take their own deadline. -/
def clearFollowers (b : Blk) (f n : Nat) : Blk :=
  (List.range 64).foldl (fun b k =>
    if (getStr b f k).followsValid && (getStr b f k).follows == n
    then modStr b f k fun s => { s with followsValid := false } else b) b

def freeStream (b : Blk) (f n : Nat) : Blk := modStr (clearFollowers b f n) f n fun _ => stream0

/-- A waiting STREAM_CLOSE FINISH (R432). -/
def isFinishOf (c : Cmd) (f n : Nat) : Bool :=
  c.id.f == f && opOf c == 0x43 && !fCloseAbort c && fStream c == n && decide (c.phase = .running)

/-- The entry is freed; waiting FINISH commands complete OK with its FLIES (R583). -/
def freeFinish (b : Blk) (f n : Nat) : Blk :=
  let flies := (getStr b f n).flies
  (b.cmds.filter fun c => isFinishOf c f n).foldl (fun b c => endCmd b c.id 0 flies) (freeStream b f n)

def hasFinisher (b : Blk) (f n : Nat) : Bool := b.cmds.any fun c => isFinishOf c f n

/-- R424: after the last fly and the serving role a stream writes END and is DONE; AUTO_CLOSE or a waiting FINISH frees it. -/
def streamTryEnd (b : Blk) (f n : Nat) : Blk :=
  let s := getStr b f n
  if s.valid && s.state == 1 && s.flies == slotCount b s && (!s.sharded || s.servedAll) then
    let b := clearFollowers (modStr b f n fun s => { s with state := 3 }) f n
    let b := streamRecord b f n 0 0 0
    if hasFinisher b f n then freeFinish b f n
    else if s.autoClose then freeStream b f n else b
  else b

/-- R428: the stream ends with an ERROR record that carries the status. -/
def streamError (b : Blk) (f n status : Nat) : Blk :=
  let s := getStr b f n
  if s.valid && (s.state == 1 || s.state == 2) && !(getFn b f).fenced then
    let b := clearFollowers (modStr b f n fun s => { s with state := 4, staged := 0 }) f n
    let b := streamRecord b f n 2 status 0
    if hasFinisher b f n then freeFinish b f n else b
  else b

/-- R426: a page fault at byte x of the stream halts it. -/
def streamFault (b : Blk) (f n x va : Nat) : Blk :=
  let s := getStr b f n
  if s.valid && s.state == 1 && !(getFn b f).fenced then
    let b := modStr b f n fun s => { s with state := 2, delivered := x, staged := 0, fault := va }
    let b := event b f 0x08 s.queue (s.srcSpace + 8 + 16) n (va % 2 ^ 57)
    streamRecord b f n 1 0x30 va
  else b

/-- Streams of a function. -/
def streamsOf (b : Blk) (f : Nat) : List Nat := (List.range 64).filter fun n => (getStr b f n).valid

/-- SHARDED streams of a generation go to ERROR (R428). -/
def groupStreamsError (b : Blk) (gid gen status : Nat) : Blk :=
  (b.t.stream.filter fun e => e.2.valid && e.2.sharded && e.2.gid == gid && e.2.gen == gen).foldl
    (fun b e => streamError b (e.1 / 64) (e.1 % 64) status) b

/-! ### Ending commands -/

/-- Packets of a command that have not left are withdrawn with it (R344). -/
def purge (b : Blk) (id : CmdId) : Blk :=
  { b with fab := { b.fab with
      dst := tmap dstSt0 (fun _ d => { d with waiting := d.waiting.filter fun w => !decide (w.cmd = some id) }) b.fab.dst
      mdst := tmap dstSt0 (fun _ d => { d with waiting := d.waiting.filter fun w => !decide (w.cmd = some id) }) b.fab.mdst
      halyT := b.fab.halyT.filter fun t => !decide (t.cmd = id) } }

/-- ARBITRATION (R625). -/
def arbEvent (b : Blk) (fn outcome step tag ep rank role chunk : Nat) : Blk :=
  event b fn 0x10 0 (mk [(3, 0, outcome), (19, 4, step)]) tag (mk [(63, 48, ep), (47, 34, rank), (33, 32, role), (31, 0, chunk)])

/-- Arbitrations of a command, or of all commands of a generation, end ABANDONED (R605, R607). -/
def abandon (b : Blk) (gid gen : Nat) (cseq : Option Nat) : Blk :=
  let hit := fun (x y z : Nat) => x == gid && y == gen && (match cseq with | some n => z == n | none => true)
  let b := (b.fab.arbs.filter fun a => hit a.gid a.gen a.cseq).foldl (fun b a => arbEvent b a.fn 5 a.step a.tag a.src a.rank 0 a.chunk) b
  { b with fab := { b.fab with
      arbs := b.fab.arbs.filter fun a => !hit a.gid a.gen a.cseq
      unver := b.fab.unver.filter fun u => !hit u.gid u.gen u.cseq
      atoms := b.fab.atoms.filter fun p => !hit (preOfPkt p).gid (preOfPkt p).gen (preOfPkt p).cseq } }

/-- A running command ends early by a status, without a notice. -/
def stopCmd (b : Blk) (id : CmdId) (status : Nat) : Blk :=
  withCmd b id fun c =>
    if c.phase = .ended then b
    else
      let result := if isColl (opOf c) || isP2p (opOf c) then
          match c.handle with
          | some h => let e := tget hoist0 b.t.hoist h; mk [(63, 60, e.alg), (59, 55, e.chunkLog2), (31, 0, c.flies)]
          | none => 0
        else 0
      let b := if namesGroup c && !isP2p (opOf c) then abandon b (fGid c) (fGen c) (some (fCseq c)) else b
      endCmd (purge (undefDst b c) id) id status result

/-- Commands of a generation in flight at this engine; those of a fenced function stay as they are (R616). -/
def genCmds (b : Blk) (gid gen : Nat) : List Cmd :=
  b.cmds.filter fun c => namesGroup c && fGid c == gid && fGen c == gen && !(getFn b c.id.f).fenced &&
    (decide (c.phase = .accepted) || decide (c.phase = .running))

def endGenCmds (b : Blk) (gid gen status : Nat) : Blk := (genCmds b gid gen).foldl (fun b c => stopCmd b c.id status) b

/-- A group event goes to each local member and to the admin function (R138, R140, R148). -/
def groupEvent (b : Blk) (g : Group) (code info arg1 : Nat) : Blk :=
  (g.locs.map Prod.fst ++ [0]).eraseDups.foldl (fun b f => event b f code 0 info g.gid arg1) b

/-! ### Breaking (R136 to R140) -/

/-- R138: ABSENT or SLOW of the named ranks. -/
def markRanks (b : Blk) (g : Group) (cause : Nat) (ranks : List Nat) : Blk :=
  ranks.foldl (fun b r =>
    if r < g.n && (cause == 1 || cause == 2) then
      { b with t := { b.t with roster := tmod 0 b.t.roster (g.base + r) fun x => setBit x (if cause == 1 then 15 else 14) true } }
    else b) b

/-- Apply one event to a group's current generation (R138, R139). -/
def applyBreak (b : Blk) (h cause : Nat) (ranks : List Nat) (stamp : Nat) : Blk :=
  let g := tget group0 b.t.group h
  if !g.valid || !(g.state == 1 || g.state == 2) then b
  else
    let b := markRanks b g cause ranks
    let b := modGroup b h fun g => { g with events := g.events ++ ranks.map fun r => (cause, r, stamp) }
    if g.state != 1 then b
    else
      let rank := ranks.foldl min 8191
      let b := modGroup b h fun g => { g with state := 2, brokenCause := cause, brokenRank := rank }
      let b := endGenCmds b g.gid g.gen (breakStatus cause)
      let b := groupStreamsError b g.gid g.gen (breakStatus cause)
      let b := abandon b g.gid g.gen none
      let b := { b with fab := { b.fab with heldSigs := b.fab.heldSigs.filter fun x =>
        !((preOfPkt x.pkt).gid == g.gid && (preOfPkt x.pkt).gen == g.gen) } }
      groupEvent b g 0x01 (mk [(19, 18, cause), (13, 0, rank)]) (mk [(63, 32, g.gen), (31, 0, stamp)])

/-- The BREAK_NOTICE of a detection, to every other member engine (R137, R318). -/
def breakNotices (b : Blk) (g : Group) (cause : Nat) (ranks : List Nat) (stamp : Nat) : Blk :=
  (otherEngines b g).foldl (fun b ep =>
    sendBare b ep 0 { pre0 with
                      type := 9, gid := g.gid, gen := g.gen, srcRank := (g.locs.headD (0, 0)).2,
                      rosterDig := g.digest, spec := mk [(7, 0, cause), (31, 16, ranks.length), (95, 32, stamp)] }
      (ranks.flatMap (leBytes · 2))) b

/-- This engine detects a break of a group's current generation (R137). -/
def detectBreak (b : Blk) (h cause : Nat) (ranks : List Nat) : Blk :=
  let g := tget group0 b.t.group h
  if !g.valid || ranks.isEmpty || !(g.state == 1 || g.state == 2) then b
  else applyBreak (breakNotices b g cause ranks (beatNow b)) h cause ranks (beatNow b)

/-- Ranks of a group at an endpoint, and not marked ABSENT yet. -/
def ranksAt (b : Blk) (g : Group) (ep : Nat) : List Nat :=
  ((rosterOf b g).zipIdx.filter fun x => slotEp x.1 == ep && !slotAbsent x.1).map (·.2)

/-- An engine declared absent breaks every generation it is a member of (R136, R137). -/
def loseEngine (b : Blk) (ep : Nat) : Blk :=
  (b.t.group.filter (·.2.valid)).foldl (fun b e => detectBreak b e.1 1 (ranksAt b e.2 ep)) b

/-- A local function that is fenced or disabled is LOST in every group (R137). -/
def loseFn (b : Blk) (f : Nat) : Blk :=
  (b.t.group.filter (·.2.valid)).foldl (fun b e =>
    detectBreak b e.1 1 ((e.2.locs.filter fun l => l.1 == f).map (·.2))) b

/-- Fence a function (R616): queues FENCED, members LOST, one event to the admin function. -/
def fenceFn (b : Blk) (f cause : Nat) : Blk :=
  let n := getFn b f
  if f == 0 && cause == 0 || !n.enabled || n.fenced then b
  else
    let b := modFn b f fun n => { n with
      fenced := true,
      queues := (List.range n.nq).foldl (fun t q => tmod queue0 t q fun x =>
        { x with was := if x.state == 4 then 4 else x.state, state := 4 }) n.queues }
    let b := loseFn b f
    adminEvent b 0x29 (cause * 16) f 0

/-- Whether a function's commands proceed: enabled, not fenced. -/
def fnLive (b : Blk) (f : Nat) : Bool := (getFn b f).enabled && !(getFn b f).fenced

end Sys2Proof.Machine
end

