-- ==== Sys2Proof/Machine/Hoists.lean ====
section
/-!
DEFINITION. Halyard windows and reservations (R356 to R363), the compilation of hoists (R150 to R169, R795), rosters in their
store (R120 to R125, R164 to R166).
-/
namespace Sys2Proof.Machine

/-! ### Halyard windows (R113, R357, R358) -/

/-- Slot i of a window of 256 is a floor slot (R113). -/
def isFloor (fl i : Nat) : Bool := decide (i % 256 * fl % 256 < fl)

/-- The end of a window of n slots that are not floor slots, from slot s on; fuel bounds the slots passed. -/
def winEnd (fl : Nat) : Nat → Nat → Nat → Nat
  | 0, s, _ => s
  | f + 1, s, n => if n = 0 then s else if isFloor fl s then winEnd fl f (s + 1) n else winEnd fl f (s + 1) (n - 1)

def windowEnd (fl s n : Nat) : Nat := winEnd fl (2 * n + 8) s n

def getHaly (b : Blk) (i : Nat) : Haly := tget haly0 b.t.haly i
def modHaly (b : Blk) (i : Nat) (g : Haly → Haly) : Blk := { b with t := { b.t with haly := tmod haly0 b.t.haly i g } }
def freeHaly (b : Blk) (i : Nat) : Blk := modHaly b i fun _ => haly0

/-- Cell slots of a time in ns: 63 slots last 16 ns (R323). -/
def nsSlots (ns : Nat) : Nat := cdiv (ns * 63) 16
/-- Slots of a beat before its guard and dip window. -/
def beatSlots (b : Blk) : Nat := (b.beat.per - b.beat.grd - b.beat.dip) * 63 / 16
def floorNow (b : Blk) : Nat := b.ctl.floor.force.toNat % 128

/-- Windows held on an output port, as slots [start, end). -/
def windowsOn (b : Blk) (out : Nat) : List (Nat × Nat) :=
  (b.t.haly.filter fun e => e.2.valid && e.2.outPort == out).map fun e =>
    (e.2.start, windowEnd e.2.resFloor e.2.start e.2.len)

/-- The earliest window on an output port from a slot on that meets no other and ends by the latest slot (R361). -/
def chooseWindow (b : Blk) (out first len latest : Nat) : Option Nat :=
  let ws := windowsOn b out
  let fits := fun s =>
    let e := windowEnd (floorNow b) s len
    decide (first ≤ s) && decide (e ≤ latest) && ws.all fun w => decide (e ≤ w.1) || decide (w.2 ≤ s)
  match (first :: ws.map (·.2)).filter fits with
  | [] => none
  | x :: r => some (r.foldl min x)

/-- The lowest index from i on that a table does not list. -/
def lowestFree {α : Type} : Nat → Nat → Tab α → Option Nat
  | 0, _, _ => none
  | f + 1, i, t => if t.any fun e => e.1 == i then lowestFree f (i + 1) t else some i

/-- Free the halyards that use a port, and those of a handle (R332, R363). -/
def freeHalyPort (b : Blk) (code : Nat) : Blk :=
  { b with t := { b.t with haly := b.t.haly.filter fun e => !(e.2.inPort == code || e.2.outPort == code) } }

/-- RELEASE from the starting engine for an entry of its own: prefix bytes 36 and 37 hold ORIGIN_IDX (R363). -/
def releaseHaly (b : Blk) (i : Nat) : Blk :=
  let e := getHaly b i
  if !e.valid then b else
  let b := if e.originEp != selfEp b || e.dst == selfEp b then b else
    sendBare b e.dst 0 { pre0 with type := 12, step := e.step, spec := i } []
  freeHaly b i

/-! ### Rosters in their store -/

/-- Runs of the roster store in use: members' and derived rosters, and runs a staged command holds (R166, R527). -/
def rosterRuns (b : Blk) : List (Nat × Nat) :=
  ((b.t.group.filter (·.2.valid)).flatMap fun e =>
    [(e.2.base, e.2.n)] ++ (if e.2.derivedM = 0 then [] else [(e.2.derivedBase, e.2.derivedM)])) ++
  b.forming.filterMap fun f => if f.cmd.isSome then
    (b.staged.find? fun s => decide (some s.cmd = f.cmd)).bind fun s =>
      if s.held.length = 2 then some (s.held.getD 1 0, f.roster.length) else none
    else none

def rosterSize : Nat := 1048576
def usedSlots (b : Blk) : Nat := ((rosterRuns b).map (·.2)).foldl (· + ·) 0

/-- The lowest free run of n slots. -/
def freeRun (b : Blk) (n : Nat) : Option Nat :=
  let rs := rosterRuns b
  let fits := fun s => decide (s + n ≤ rosterSize) && rs.all fun r => decide (s + n ≤ r.1) || decide (r.1 + r.2 ≤ s)
  match (0 :: rs.map fun r => r.1 + r.2).filter fits with
  | [] => none
  | x :: l => some (l.foldl min x)

/-- Move one run of slots. -/
def moveRun (t : Tab Nat) (src dst n : Nat) : Tab Nat :=
  let vs := (List.range n).map fun i => tget 0 t (src + i)
  let t := (List.range n).foldl (fun t i => tset 0 t (src + i) 0) t
  vs.zipIdx.foldl (fun t (v, i) => tset 0 t (dst + i) v) t

/-- R125: members' and derived rosters are moved down, in ascending order of their start. -/
def compactRosters (b : Blk) : Blk :=
  let runs := (b.t.group.filter (·.2.valid)).flatMap fun e =>
    [(e.2.base, e.1, false)] ++ (if e.2.derivedM = 0 then [] else [(e.2.derivedBase, e.1, true)])
  let runs := runs.mergeSort fun x y => decide (x.1 ≤ y.1)
  (runs.foldl (fun (acc : Blk × Nat) (r : Nat × Nat × Bool) =>
    let (b, at_) := acc
    let (base, h, der) := r
    let g := tget group0 b.t.group h
    let n := if der then g.derivedM else g.n
    let b := { b with t := { b.t with roster := moveRun b.t.roster base at_ n } }
    (modGroup b h fun g => if der then { g with derivedBase := at_ } else { g with base := at_ }, at_ + n)) (b, 0)).1

/-- A run of n slots, after compaction where the free slots are scattered (R125); none when the store is short (R165). -/
def takeRun (b : Blk) (n : Nat) : Option (Nat × Blk) :=
  match freeRun b n with
  | some a => some (a, b)
  | none =>
    if usedSlots b + n ≤ rosterSize && b.forming.isEmpty then
      let b := compactRosters b
      (freeRun b n).map fun a => (a, b)
    else none

def writeRoster (b : Blk) (base : Nat) (slots : List Nat) : Blk :=
  { b with t := { b.t with roster := slots.zipIdx.foldl (fun t (v, i) => tset 0 t (base + i) v) b.t.roster } }
def clearRoster (b : Blk) (base n : Nat) : Blk := writeRoster b base (List.replicate n 0)

/-- Group entries and roster slots charged to a function (R164). -/
def groupUse (b : Blk) (f : Nat) : Nat := (b.t.group.filter fun e => e.2.valid && (rankIn e.2 f).isSome).length
def rosterUse (b : Blk) (f : Nat) : Nat :=
  ((b.t.group.filter fun e => e.2.valid && (rankIn e.2 f).isSome).map fun e => e.2.n + e.2.derivedM).foldl (· + ·) 0

/-- Local members of a roster, ascending in rank (R122): (function, rank). -/
def localsOf (b : Blk) (slots : List Nat) : List (Nat × Nat) :=
  (slots.zipIdx.filter fun x => slotEp x.1 == selfEp b).map fun x => (slotFn x.1, x.2)

/-- R121. -/
def rosterOk (b : Blk) (slots : List Nat) : Bool :=
  let ls := localsOf b slots
  decide (1 ≤ slots.length) && decide (slots.length ≤ 8192) &&
  decide ((slots.map fun x => (slotEp x, slotFn x)).Nodup) && decide (1 ≤ ls.length) && decide (ls.length ≤ 8) &&
  ls.all fun l => (getFn b l.1).enabled

/-! ### Keys and schedules (R150 to R157) -/

def usesHoist (c : Cmd) : Bool := let op := opOf c; isColl op || isP2p op || op == 0x20 || op == 0x21

/-- EPM·CAP·RS of COMBINE, from the header of its ASSIGN table (R275, R279). -/
def combineBytes (b : Blk) (m : Tab Byte) (c : Cmd) : Nat :=
  let h := fnRead b m c.id.f 0 (fAssign c) 64
  fld (leAt h 16 8) 39 29 / cmdN b c * fld (leAt h 24 8) 63 40 * bytesOf (fFormat c) (fDim c)

/-- The key of a command (R150). -/
def keyOf (b : Blk) (m : Tab Byte) (c : Cmd) : Hoist :=
  let op := opOf c
  let bytes := if op == 0x21 then combineBytes b m c else classBytes b c
  { hoist0 with
    gen := fGen c, gid := fGid c, opcode := op, format := fFormat c, oper := if isColl op || op == 0x33 then fOper c else 0
    xform := if isColl op then fXform c else 0, xparam := if isColl op then fXparam c else 0, pin := fAlg c
    sizeClass := sizeClass bytes }

def sameKey (x y : Hoist) : Bool :=
  x.gen == y.gen && x.gid == y.gid && x.opcode == y.opcode && x.format == y.format && x.oper == y.oper &&
  x.xform == y.xform && x.xparam == y.xparam && x.pin == y.pin && x.sizeClass == y.sizeClass

def findHoist (b : Blk) (key : Hoist) : Option Nat := (b.t.hoist.find? fun e => e.2.valid && !e.2.leaving && sameKey e.2 key).map (·.1)
def getHoist (b : Blk) (h : Nat) : Hoist := tget hoist0 b.t.hoist h
def modHoist (b : Blk) (h : Nat) (g : Hoist → Hoist) : Blk := { b with t := { b.t with hoist := tmod hoist0 b.t.hoist h g } }

/-- The table of R154 for N members and B bytes: algorithm and fan-in. -/
def autoAlg (opc N B : Nat) : Nat × Nat :=
  let k64 := 2 ^ 16
  let m1 := 2 ^ 20
  if opc == 0x10 then (if N ≤ 16 && B ≤ k64 then 4 else if B ≤ m1 then 2 else 1, 0)
  else if opc == 0x11 || opc == 0x12 then (if N ≤ 16 && B ≤ k64 then 4 else if B ≤ m1 && isPow2 N then 2 else 1, 0)
  else if opc == 0x13 || opc == 0x14 then (if N ≤ 16 then (4, 0) else if B ≤ m1 then (3, 8) else (1, 0))
  else if opc == 0x15 || opc == 0x16 then (if N ≤ 16 then (4, 0) else (3, 16))
  else if opc == 0x17 || opc == 0x18 || opc == 0x20 || opc == 0x21 then (if N ≤ 64 then 4 else 1, 0)
  else if opc == 0x19 then (if N ≤ 16 then 4 else 2, 0)
  else if opc == 0x1A then (if N ≤ 16 then (4, 0) else (3, 8))
  else (4, 0)

/-- Resolved algorithm, inner algorithm and fan-in (R154). -/
def resolve (opc pin N M B : Nat) : Nat × Nat × Nat :=
  if pin == 0 then
    if M < N && algOk opc 5 && (opc != 0x19) && !isP2p opc then let (a, k) := autoAlg opc M B; (5, a, k)
    else let (a, k) := autoAlg opc N B; (a, 0, k)
  else if pin == 5 then (5, 4, 0)
  else (pin, 0, if pin == 3 then 8 else 0)

/-- Opcodes that move data without combining (R167). -/
def isMoving (opc : Nat) : Bool :=
  opc == 0x12 || opc == 0x13 || (decide (0x15 ≤ opc) && decide (opc ≤ 0x19)) || isP2p opc

/-- F of R167 and R275. -/
def stagingF (opc alg inner K : Nat) : Nat :=
  let f := fun a => if a == 3 then min (K + 1) 8 else 2
  if opc == 0x20 || opc == 0x21 then 2 else if isMoving opc then 1 else if alg == 5 then f inner + 1 else f alg

/-- TOL_K (R600). -/
def tolK (alg inner K N M L : Nat) : Nat :=
  let f := fun a n => if a == 4 then n else if a == 3 then K + 1 else 2
  (if alg == 5 then max L (f inner M) else f alg N) + 1

/-- The seed of R156. -/
def hoistSeed (h : Hoist) : Nat :=
  (crc64 (leBytes h.gid 4 ++ leBytes h.gen 4 ++ leBytes h.opcode 1 ++ leBytes h.format 1 ++ leBytes h.oper 1 ++
    leBytes h.xform 1 ++ leBytes h.xparam 1 ++ leBytes h.pin 1 ++ [0, 0])).toNat

/-- log2 of the default chunk size (R155, R247). -/
def defaultChunk (h : Hoist) : Nat :=
  let c := max 12 (min 22 (h.sizeClass + 6))
  if h.xform == 2 || h.xform == 3 then max c (clog2 (vecBytes h.format 0 (xformBlock h.xform h.xparam))) else c

/-- (step, sender, receiver) over N positions of an opcode without a root, or with root 0. -/
def stepPairs (opc alg K N : Nat) : List (Nat × Nat × Nat) :=
  let all := List.range N
  if N ≤ 1 then []
  else if opc == 0x10 || opc == 0x11 || opc == 0x14 then
    if alg == 1 then
      (List.range (if opc == 0x10 then 2 * (N - 1) else N - 1)).flatMap fun s => all.map fun r => (s, r, (r + 1) % N)
    else if alg == 2 then
      let P := lowPow2 N
      let L := Nat.log2 P
      let o := if P == N then 0 else 1
      (List.range (N - P)).map (fun e => (0, e + P, e)) ++
      ((List.range L).flatMap fun t => (List.range P).map fun r => (o + t, r, r ^^^ 2 ^ (L - 1 - t))) ++
      (if opc == 0x10 then
        ((List.range L).flatMap fun t => (List.range P).map fun r => (o + L + t, r, r ^^^ 2 ^ t)) ++
        (List.range (N - P)).map fun e => (2 * L + 1, e, e + P)
      else [])
    else if alg == 3 then
      let D := treeDepth K N
      ((all.filter (· != 0)).map fun v => (D - depthOf K N v, v, (v - 1) / K)) ++
      (if opc == 0x10 then all.flatMap fun v => (kids K N v).map fun u => (D + depthOf K N v, v, u) else [])
    else (List.range (if opc == 0x10 then 2 else 1)).flatMap fun s => all.flatMap fun r =>
      (all.filter (· != r)).map fun d => (s, r, d)
  else if opc == 0x18 || opc == 0x20 || opc == 0x21 then (moveSched 0x17 alg K N 0).map fun (s, a, d, _) => (s, a, d)
  else (moveSched opc alg K N 0).map fun (s, a, d, _) => (s, a, d)

def isRooted (opc : Nat) : Bool := opc == 0x13 || opc == 0x14 || opc == 0x15 || opc == 0x16

/-- (step, endpoint) of the engines this engine sends to (R158); a rooted opcode or a point-to-point one may name any member. -/
def stepPeers (b : Blk) (g : Group) (h : Hoist) : List (Nat × Nat) :=
  let eps := rosterEps b g
  let me := selfEp b
  if isRooted h.opcode || isP2p h.opcode then ((enginesOf eps).filter (· != me)).map fun e => (0, e)
  else
    let es := enginesOf eps
    let ps := if h.alg == 5 then
        (stepPairs h.opcode h.inner h.fanin es.length).map fun (s, a, d) => (s + 1, es.getD a 0, es.getD d 0)
      else (stepPairs h.opcode h.alg h.fanin g.n).map fun (s, a, d) => (s, eps.getD a 0, eps.getD d 0)
    ((ps.filter fun (_, a, d) => a == me && d != me).map fun (s, _, d) => (s, d)).eraseDups

/-- First hops of the primary paths to a set of endpoints, as a mask of port codes. -/
def hopMask (b : Blk) (eps : List Nat) : Nat :=
  eps.foldl (fun m e => if rtValid (routeOf b e) then setBit m (rtCode (routeOf b e) false 0) true else m) 0

def tileUp (b : Blk) (t : Nat) : Bool :=
  tileExists b t && (match b.tiles[t]? with | some x => x.state != 3 | none => false) &&
  (match b.sectors[t / 16]? with | some s => !s.fenced | none => false)

/-- The default tiles of R158 for T tiles, given the ports of the first step. -/
def defaultTiles (b : Blk) (T : Nat) (ports : Nat) : List Nat :=
  let up := (List.range 128).filter (tileUp b)
  let near := up.filter fun t => (bitsSet ports 40).any fun p => p / 5 == physOf b (t / 16)
  (near ++ up.filter fun t => !near.contains t).take T

def maskOf (ts : List Nat) : Nat := ts.foldl (fun m t => setBit m t true) 0

/-- Words 4 to 6 by R158; a pinned mask keeps its units that are in service. -/
def place (b : Blk) (g : Group) (h : Hoist) : Hoist :=
  let peers := stepPeers b g h
  let first := (peers.map (·.1)).foldl min (peers.headD (0, 0)).1
  let dflt := hopMask b (peers.map (·.2))
  let C := 2 ^ h.chunkLog2
  let T := min 32 (max 1 (C / 131072))
  let pinned := (bitsSet (h.tilesLo + 2 ^ 64 * h.tilesHi) 128).filter (tileUp b)
  let tiles := if tb h.kept 5 && !pinned.isEmpty then pinned
    else defaultTiles b T (hopMask b ((peers.filter fun p => p.1 == first).map (·.2)))
  let mask := maskOf tiles
  let pports := (bitsSet h.ports 42).filter (codeUp b)
  { h with
    tilesLo := mask % 2 ^ 64, tilesHi := mask / 2 ^ 64, seqPerTile := min 32 (max 1 (C / (max 1 tiles.length * 4096)))
    ports := if tb h.kept 6 && !pports.isEmpty then maskOf pports else dflt }

/-- What R161 refuses of the fields a command sets: the schedule with those fields in place. -/
def schedOk (h : Hoist) (N M : Nat) : Bool :=
  (h.pin == 0 || algOk h.opcode h.pin) && algOk h.opcode h.alg &&
  (h.alg != 5 || ([1, 2, 3, 4].contains h.inner && (h.inner == 4 || algOk h.opcode h.inner))) &&
  halvingOk h.opcode h.alg N && (h.alg != 5 || halvingOk h.opcode h.inner M) &&
  (!tb h.kept 2 || ((h.alg == 3 || (h.alg == 5 && h.inner == 3)) && decide (2 ≤ h.fanin) && decide (h.fanin ≤ 16))) &&
  (!tb h.kept 3 || h.alg == 5) && (!tb h.kept 1 || (decide (12 ≤ h.chunkLog2) && decide (h.chunkLog2 ≤ 22))) &&
  (!tb h.kept 4 || (decide (1 ≤ h.window) && decide (h.window ≤ 64))) &&
  (!h.atomicLocal || (h.alg == 5 && h.oper == 0 && (h.format == 0 || h.format == 1 || h.format == 8) && isReduce h.opcode))

/-- Compile a key for a group: fields marked in `kept` stay, the others take this chapter's rules (R149, R154 to R158). -/
def compile (b : Blk) (g : Group) (h : Hoist) : Hoist :=
  let eps := rosterEps b g
  let es := enginesOf eps
  let N := g.n
  let M := es.length
  let (alg, inner, k) := resolve h.opcode h.pin N M (2 ^ (h.sizeClass + 6))
  let inner := if tb h.kept 3 && alg == 5 then h.inner else inner
  let tree := alg == 3 || (alg == 5 && inner == 3)
  let K := if tb h.kept 2 && tree then h.fanin else if tree then (if k == 0 then 8 else k) else 0
  let h := { h with valid := true, alg, inner := if alg == 5 then inner else 0, fanin := K,
                    atomicLocal := h.atomicLocal && alg == 5 }
  let h := { h with
    chunkLog2 := if tb h.kept 1 then h.chunkLog2 else defaultChunk h
    window := if tb h.kept 4 then h.window else 4
    seed := if tb h.kept 0 then h.seed else hoistSeed h
    steps := stepsFull h.opcode h.alg h.inner h.fanin N M
    tolK := tolK h.alg h.inner h.fanin N M ((es.map fun e => (ranksOn eps e).length).foldl max 0)
    beatAligned := false, beats := 0, halyardBase := 0xFFFF, halyardCount := 0 }
  let h := { h with stagingNeed := cdiv (h.window * 2 ^ h.chunkLog2 * stagingF h.opcode h.alg h.inner h.fanin) 4096 }
  place b g h

/-! ### Derived rosters (R166) -/

/-- The slots of the derived roster, in the inner-rank order of R108. -/
def derivedSlots (b : Blk) (g : Group) : List Nat :=
  let eps := rosterEps b g
  let ros := rosterOf b g
  (List.range (enginesOf eps).length).map fun m =>
    let x := ros.getD (leadOf eps m) 0
    mk [(31, 16, slotEp x), (8, 0, slotFn x)]

/-- Make the derived roster of a group for a HIER hoist: none when a quota or the store is short (R166). -/
def makeDerived (b : Blk) (gh f : Nat) : Option Blk :=
  let g := tget group0 b.t.group gh
  if g.derivedM != 0 then some b
  else
    let slots := derivedSlots b g
    if (getFn b f).rosterQuota < rosterUse b f + slots.length then none
    else (takeRun b slots.length).map fun (a, b) =>
      modGroup (writeRoster b a slots) gh fun g => { g with derivedM := slots.length, derivedBase := a }

/-! ### Handles (R151, R163) -/

/-- A free shared handle, or the least recently used one without a command in flight. -/
def sharedHandle (b : Blk) : Option Nat :=
  match lowestFree 32768 65536 b.t.hoist with
  | some h => some h
  | none =>
    let cs := b.t.hoist.filter fun e => decide (65536 ≤ e.1) && e.2.bound == 0
    (cs.foldl (fun (acc : Option (Nat × Nat)) e => match acc with
      | some (h, u) => if e.2.used < u then some (e.1, e.2.used) else some (h, u)
      | none => some (e.1, e.2.used)) none).map (·.1)

/-- The lowest free pin slot of a group entry. -/
def pinHandle (g : Group) (gh : Nat) : Option Nat := ((List.range 4).find? fun i => !tb g.pinUsed i).map (4 * gh + ·)

/-- Release the halyards of a handle and free it. -/
def dropHalyards (b : Blk) (h : Nat) : Blk :=
  (b.t.haly.filter fun e => e.2.valid && e.2.inPort == 63 && e.2.handle == h).foldl (fun b e => releaseHaly b e.1) b

def freeHandle (b : Blk) (h : Nat) : Blk :=
  let b := dropHalyards b h
  let b := if h < 65536 then modGroup b (h / 4) fun g => { g with pinUsed := setBit g.pinUsed (h % 4) false } else b
  modHoist b h fun _ => hoist0

/-- Install a compiled hoist at a handle; an equal key at another handle gives way (R163). -/
def installAt (b : Blk) (h : Nat) (x : Hoist) : Blk :=
  let b := (b.t.hoist.filter fun e => e.2.valid && e.1 != h && sameKey e.2 x && e.2.bound == 0).foldl (fun b e => freeHandle b e.1) b
  let b := if (getHoist b h).valid then dropHalyards b h else b
  let b := if h < 65536 then modGroup b (h / 4) fun g => { g with pinUsed := setBit g.pinUsed (h % 4) true } else b
  { modHoist b h (fun _ => { x with pinned := decide (h < 65536), used := b.fresh, bound := (getHoist b h).bound }) with fresh := b.fresh + 1 }

/-! ### Reservation of halyards (R159, R360) -/

/-- Bytes this engine sends to one destination in a step, for B bytes (R402's b_s, one destination's share). -/
def pairBytes (opc alg N B s : Nat) : Nat :=
  let L := Nat.log2 (lowPow2 N)
  if opc == 0x19 then 0
  else if alg == 1 || alg == 4 then
    if opc == 0x10 then cdiv B N else if opc == 0x11 || opc == 0x12 || opc == 0x17 || opc == 0x18 then B else B
  else if alg == 2 then
    if opc == 0x10 then (if s < L then cdiv B (2 ^ (s + 1)) else cdiv B (2 ^ (2 * L - s)))
    else if opc == 0x11 then B * 2 ^ (L - 1 - s) else B * 2 ^ s
  else B

/-- The time of a step in quarter nanoseconds (R159): hops, the cell term, the combine term. -/
def stepTime (b : Blk) (h : Hoist) (dst : Nat) (bytes ports : Nat) : Nat :=
  let e := routeOf b dst
  let hops := fld e 253 250
  let cable := (match portAt b (rtCode e false 0) with | some n => (getP b n).cableForce | none => 0)
  4 * hops * (38 + cable) + cdiv bytes (64 * max 1 ports) + (if isReduce h.opcode then 4 * 24 else 0)

/-- (step, destination, bytes) of each halyard a hoist needs, and whether every step fits one beat on at most 8 links. -/
def halyardPlan (b : Blk) (g : Group) (h : Hoist) : List (Nat × Nat × Nat) × Bool :=
  let peers := stepPeers b g h
  let N := if h.alg == 5 then (enginesOf (rosterEps b g)).length else g.n
  let alg := if h.alg == 5 then h.inner else h.alg
  let B := min (2 ^ (h.sizeClass + 6)) (h.window * 2 ^ h.chunkLog2)
  let plan := peers.map fun (s, d) => (s, d, pairBytes h.opcode alg N B (if h.alg == 5 then s - 1 else s))
  let room := 4 * (b.beat.per - b.beat.grd - b.beat.dip)
  let ports := (bitsSet h.ports 42).length
  let steps := (plan.map (·.1)).eraseDups
  let ok := steps.all fun s =>
    let ds := plan.filter fun x => x.1 == s
    let bs := (ds.map (·.2.2)).foldl (· + ·) 0
    ds.all fun x => decide (stepTime b h x.2.1 bs ports ≤ room) && decide (fld (routeOf b x.2.1) 253 250 ≤ 8)
  (plan, ok && !isRooted h.opcode && !isP2p h.opcode && h.halyardOpt != 1 && b.beat.locked &&
    decide ((plan.map (·.2.2)).foldl max 0 ≤ 65534 * 56))

/-- The RESERVE that asks for a window downstream (R360). -/
def reservePkt (b : Blk) (h : Hoist) (idx dst step start len latest act : Nat) : Pkt :=
  let data := leBytes act 8 ++ (leBytes 63 1 ++ leBytes idx 2) ++ List.replicate 21 0xFF ++ List.replicate 12 0
  { hdr := hdrTo b dst 0 0
    body := .coll { pre0 with
      type := 10, gid := h.gid, gen := h.gen, step
      spec := mk [(21, 0, start), (53, 32, len), (85, 64, latest)] } data }

/-- Reserve one halyard at the starting engine and send its RESERVE; none when no window or entry is free. -/
def startWalk (b : Blk) (handle : Nat) (h : Hoist) (cmd : CmdId) (step dst bytes first act : Nat) : Option Blk :=
  let e := routeOf b dst
  let out := rtCode e false 0
  let len := 1 + cdiv (bytes + 20) 56
  let latest := beatSlots b
  match lowestFree 32768 0 b.t.haly, chooseWindow b out first len latest with
  | some i, some s =>
    if !rtValid e || !codeUp b out then none else
    let b := modHaly b i fun _ => { haly0 with
      valid := true, inPort := 63, outPort := out, handle := handle, resFloor := floorNow b, step, start := s, len
      originEp := selfEp b, originIdx := i, actBeat := act % 2 ^ 32, dst }
    let b := { b with walks := b.walks ++ [{ idx := i, outPort := out, handle, step, dst, beat := beatNow b, cmd := some cmd }] }
    some (sendPkt b (reservePkt b h i dst step s len latest act) none)
  | _, _ => none

/-- Send the reservations of a plan in step order, each step from the end of the one before (R395). -/
def startWalks (b : Blk) (handle : Nat) (h : Hoist) (cmd : CmdId) : List (Nat × Nat × Nat) → Nat → Nat → Option Blk
  | [], _, _ => some b
  | (s, d, n) :: r, cur, first =>
    let next := if s == cur then first else first + nsSlots (cdiv (stepTime b h d n 1) 4)
    match startWalk b handle h cmd s d n next (beatNow b + 8) with
    | some b => startWalks b handle h cmd r s next
    | none => none

/-- Finish a compile: every walk answered (R159). `granted` tells whether every halyard was obtained. A handle that a HOIST_COMPILE or
HOIST_INSTALL reserves becomes valid in its dip window. -/
def finishCompile (b : Blk) (c : Compile) (granted : Bool) : Blk :=
  let b := { b with compiles := b.compiles.filter fun x => x.handle != c.handle }
  let mine := b.t.haly.filter fun e => e.2.valid && e.2.inPort == 63 && e.2.handle == c.handle
  if granted && !mine.isEmpty then
    let first := (mine.map (·.1)).foldl min 65535
    modHoist b c.handle fun h => { h with
      valid := !c.explicit, beatAligned := true, beats := 1, halyardBase := first, halyardCount := mine.length % 256 }
  else
    let b := mine.foldl (fun b e => releaseHaly b e.1) b
    { modHoist b c.handle (fun h => { h with valid := !c.explicit }) with
      walks := b.walks.filter fun w => w.handle != c.handle }

/-- Try to give an installed hoist its halyards; cut-through where a step does not fit or no window is free. -/
def seekHalyards (b : Blk) (gh handle : Nat) (cmd : CmdId) (explicit : Bool) : Blk :=
  let h := getHoist b handle
  let g := tget group0 b.t.group gh
  let (plan, ok) := halyardPlan b g h
  if !ok || plan.isEmpty then b
  else match startWalks b handle h cmd plan (plan.headD (0, 0, 0)).1 0 with
  | some b' =>
    { modHoist b' handle (fun x => { x with valid := false }) with
      compiles := b'.compiles ++ [{ handle, hoist := h, cmd, explicit, walks := plan.length }] }
  | none => b

end Sys2Proof.Machine
end

