-- ==== Sys2Proof/Machine/QueueCtl.lean ====
section
/-!
DEFINITION. STRIKE, QUEUE_SHUTDOWN, FUNCTION_ENABLE and FUNCTION_DISABLE (R541 to R547), the staging of management changes
(R527), and what follows when commands have completed (R544, R546, R547).
-/
namespace Sys2Proof.Machine

/-- The command of an id in a phase with an opcode, of a function that proceeds. -/
def cmdIn (b : Blk) (id : CmdId) (ph : Phase) (ops : List Nat) : Option Cmd :=
  (findCmd b id).filter fun c => decide (c.phase = ph) && ops.contains (opOf c) && fnLive b id.f && decide (b.life.phase = .run)

/-- Change the block by a running command of an opcode; nothing happens where it is not running. -/
def onRun (b : Blk) (id : CmdId) (op : Nat) (k : Cmd → Blk) : Blk :=
  match cmdIn b id .running [op] with
  | some c => if c.effectDone || c.applied.isSome then b else k c
  | none => b

/-! ### Staged changes (R527) -/

/-- Write PROGRESS APPLIED and stage the change of a management command; `held` names what is reserved for it. -/
def stage (b : Blk) (c : Cmd) (result : Nat) (held : List Nat) : Blk :=
  let n := getFn b c.id.f
  let b := issueLog b c.id.f (logRecord n 3 2 c.id.q c.id.rseq (tagOf c) 0 [result, beatNow b] [])
  let b := modCmd b c.id fun c => { c with
    applied := some n.head, result, prog := some { lsn := n.head, sub := 2, a := 0, w := [result, beatNow b] } }
  { b with staged := b.staged ++ [{ cmd := c.id, lsn := n.head, held, inForce := false }] }

/-- A handle that a HOIST_COMPILE or HOIST_INSTALL has reserved and not installed is free again, with its halyards. -/
def unreserve (b : Blk) (id : CmdId) : Blk :=
  withCmd b id fun c => match c.handle with
    | some h =>
      if (opOf c == 0x86 || opOf c == 0x87) && !(getHoist b h).valid then
        let b := modHoist (dropHalyards b h) h fun _ => hoist0
        modCmd { b with compiles := b.compiles.filter (fun k => k.handle != h), walks := b.walks.filter fun w => w.handle != h } id
          fun c => { c with handle := none }
      else b
    | none => b

/-- A drain that ends without its swap: what waited for it may leave on the old entries (R371). -/
def endDrain (b : Blk) (id : CmdId) : Blk :=
  match b.fab.drain with
  | some d => if d.cmd = id then
      d.doms.foldl flushMc (d.eps.foldl flush { b with fab := { b.fab with drain := none } }) else b
  | none => b

/-- Everything reserved for a staged change is free again. -/
def unstage (b : Blk) (id : CmdId) : Blk :=
  let b := endDrain (unreserve b id) id
  { b with staged := b.staged.filter (fun s => !decide (s.cmd = id)), forming := b.forming.filter fun x => !decide (x.cmd = some id) }

/-- Packets of a command still wait at this engine. -/
def waiting (b : Blk) (id : CmdId) : Bool := b.fab.dst.any fun d => d.2.waiting.any fun w => decide (w.cmd = some id)

/-- A change of a command that a STRIKE can no longer stop (R464, R542). -/
def tooLate (b : Blk) (c : Cmd) : Bool :=
  (opOf c == 0x32 && c.sigSent && !waiting b c.id) || (opOf c == 0x81 && decide (c.phase = .running)) ||
  (match c.applied with | some l => durable b c.id.f l | none => false)

/-- A command ends early: peers are told, its waits, packets and reservations are withdrawn. -/
def endEarly (b : Blk) (id : CmdId) (status notice : Nat) : Blk :=
  let b := withCmd b id fun c => if namesGroup c && !isP2p (opOf c) then abandon b (fGid c) (fGen c) (some (fCseq c)) else b
  unstage (purge (failCmd b id status notice) id) id

/-! ### Shutting a queue (R544) -/

/-- The accepted commands of a queue that a shutdown ends. -/
def endable (b : Blk) (f q : Nat) (self : CmdId) : List Cmd :=
  b.cmds.filter fun c => c.id.f == f && c.id.q == q && !decide (c.id = self) &&
    (decide (c.phase = .accepted) || decide (c.phase = .running)) && !tooLate b c && !(opOf c == 0x51 && decide (c.phase = .running))

/-- End a queue's commands with ABORTED and count them for the command that asked. -/
def shutQueue (b : Blk) (f q : Nat) (self : CmdId) : Blk :=
  let cs := endable b f q self
  let b := modQ b f q fun x => { x with state := 2, scanPending := false }
  let b := cs.foldl (fun b c => endEarly b c.id 0x10 0x10) b
  modCmd b self fun c => { c with count := c.count + cs.length }

/-- The queue a running QUEUE_SHUTDOWN names. -/
def shutsQueue (c : Cmd) (f q : Nat) : Bool := opOf c == 0x51 && decide (c.phase = .running) && fFn c == f && fQ c == q

/-- R544: a SHUTTING queue whose other commands have their records goes SHUT, and the QUEUE_SHUTDOWNs naming it complete. -/
def settleQueue (b : Blk) (f q : Nat) : Blk :=
  if (getQ b f q).state == 2 && !(b.cmds.any fun c => c.id.f == f && c.id.q == q && !shutsQueue c f q) then
    let b := modQ b f q fun x => { x with state := 3 }
    (b.cmds.filter fun c => shutsQueue c f q).foldl (fun b c => endCmd b c.id 0 c.count) b
  else b

/-! ### Enabling and disabling (R500, R546, R547, R793) -/

def poolUse (b : Blk) : Nat := ((b.fns.filter (·.2.enabled)).map (·.2.nq)).foldl (· + ·) 0

/-- A function is enabled: EPOCH advances, the anchor and the ENABLE record are written, every queue is CLOSED. -/
def enableFn (b : Blk) (f q gq rq sq context mask base lg : Nat) : Blk :=
  let b := modFn b f fun n => { fn0 with
    enabled := true, nq := q, groupQuota := gq, rosterQuota := rq, stagingQuota := sq, context, d2dMask := mask
    logBase := base, logLog2 := lg, epoch := (n.epoch + 1) % 2 ^ 32, keyEpoch := 1, irqCfg := n.irqCfg, msi := n.msi
    appliedLsn := 0 }
  let b := writeAnchor b f
  appendLog b f (logRecord (getFn b f) 6 0 0 0 0 0 [q % 32, gq % 2 ^ 15, rq % 2 ^ 21, sq % 2 ^ 13] [])

/-- FUNCTION_ENABLE's effect from its packet (R575). -/
def enableFrom (b : Blk) (c : Cmd) : Blk :=
  enableFn b (fFn c) (pbits c 2 4 0) (pf c 16 2) (pf c 20 4) (pf c 24 2) (pf c 4 4) (pbits c 26 3 0) (pf c 8 8) (pbits c 3 5 0)

/-- Every page of a function is unmapped (R444). -/
def mappedPages (b : Blk) (f : Nat) : List Nat := (List.range 256).filter fun p => tb (tget 0 b.t.dir (f * 256 + p)) 15

/-- R546 step 5: a final anchor, and the page's registers at their reset values. -/
def closeFn (b : Blk) (f : Nat) : Blk :=
  let b := writeAnchor b f
  let b := modFn b f fun n => { fn0 with epoch := n.epoch, enableHeld := n.enableHeld }
  (b.cmds.filter fun c => opOf c == 0x81 && decide (c.phase = .running) && fFn c == f).foldl (fun b c => endCmd b c.id 0 0) b

def settleFn (b : Blk) (f : Nat) : Blk :=
  let n := getFn b f
  let b := (List.range n.nq).foldl (fun b q => settleQueue b f q) b
  let n := getFn b f
  let b := if n.disabling && !n.fenced && !(b.cmds.any fun c => c.id.f == f) && (streamsOf b f).isEmpty && (mappedPages b f).isEmpty
    then closeFn b f else b
  let n := getFn b f
  match n.enableHeld with
  | some id =>
    if n.enabled || (b.cmds.any fun c => opOf c == 0x81 && fFn c == f && !decide (c.phase = .taken)) then b
    else match findCmd b id with
      | some c =>
        let b := modFn b f fun n => { n with enableHeld := none }
        if 4096 < poolUse b + pbits c 2 4 0 then endCmd b id 0x60 0
        else let b := enableFrom b c; endCmd b id 3 (getFn b f).epoch
      | none => modFn b f fun n => { n with enableHeld := none }
  | none => b

/-- What follows once completion records are written or heads released: queues shut, functions closed, held enables. -/
def settle (b : Blk) : Blk :=
  ((b.fns.filter fun e => e.2.disabling || e.2.enableHeld.isSome || e.2.queues.any fun q => q.2.state == 2).map (·.1)).foldl settleFn b

/-! ### The commands -/

/-- STRIKE (R541 to R543). -/
def strikeFx (b : Blk) (c : Cmd) : Blk :=
  let hit := b.cmds.find? fun d => d.id.f == fFn c && d.id.q == fQ c && tagOf d == fTtag c && !decide (d.id = c.id) &&
    !decide (d.phase = .taken)
  match hit with
  | none => endCmd b c.id 0 0
  | some d =>
    if decide (d.phase = .ended) || tooLate b d || (getFn b d.id.f).fenced then endCmd b c.id 0 2
    else endCmd (endEarly b d.id 0x11 0x10) c.id 0 1

def execStrike (id : CmdId) (s : State) : Host.Outcome State Fault Refusal :=
  act s fun b _ => match cmdIn b id .accepted [0x50] with
    | some c => settle (strikeFx b c)
    | none => b

/-- QUEUE_SHUTDOWN (R544). -/
def shutdownFx (b : Blk) (c : Cmd) : Blk :=
  let f := fFn c
  let q := fQ c
  let st := (getQ b f q).state
  let b := modCmd b c.id fun c => { c with phase := .running }
  if st == 0 || st == 3 then endCmd b c.id 0 0
  else if st == 2 then b
  else shutQueue b f q c.id

def execQueueShutdown (id : CmdId) (s : State) : Host.Outcome State Fault Refusal :=
  act s fun b _ => match cmdIn b id .accepted [0x51] with
    | some c => settle (shutdownFx b c)
    | none => b

/-- FUNCTION_ENABLE (R547). -/
def enableFx (b : Blk) (c : Cmd) : Blk :=
  let f := fFn c
  let n := getFn b f
  let off := b.cmds.any fun d => opOf d == 0x81 && fFn d == f && !decide (d.phase = .taken)
  if !enableFieldsOk c then endCmd b c.id 0x61 0
  else if n.enabled && !n.disabling && !off then endCmd b c.id 0x61 0
  else if off || n.disabling then
    if n.enableHeld.isSome then endCmd b c.id 0x61 0
    else modCmd (modFn b f fun n => { n with enableHeld := some c.id }) c.id fun c => { c with phase := .running }
  else if 4096 < poolUse b + pbits c 2 4 0 then endCmd b c.id 0x60 0
  else let b := enableFrom b c; endCmd b c.id 0 (getFn b f).epoch

def execFunctionEnable (id : CmdId) (s : State) : Host.Outcome State Fault Refusal :=
  act s fun b _ => match cmdIn b id .accepted [0x80] with
    | some c => enableFx b c
    | none => b

/-- FUNCTION_DISABLE (R546, R618). -/
def disableFx (b : Blk) (c : Cmd) : Blk :=
  let f := fFn c
  let n := getFn b f
  if f == 0 || !n.enabled then endCmd b c.id 0x61 0
  else if n.fenced then endCmd b c.id 0x50 0
  else if n.disabling then modCmd b c.id fun c => { c with effectDone := true }
  else
    let b := modCmd (modFn b f fun n => { n with disabling := true }) c.id fun c => { c with effectDone := true }
    let b := (List.range n.nq).foldl (fun b q => if (getQ b f q).state == 0 || (getQ b f q).state == 3 then b else shutQueue b f q c.id) b
    let b := (streamsOf b f).foldl (fun b n => freeFinish b f n) b
    settle (loseFn b f)

def execFunctionDisable (id : CmdId) (s : State) : Host.Outcome State Fault Refusal :=
  act s fun b _ => onRun b id 0x81 fun c => disableFx b c

end Sys2Proof.Machine
end

