-- ==== Sys2Proof/Machine/Engine.lean ====
section
/-!
DEFINITION. The command engine: scans (R493 to R499), acceptance (R515), dispatch (R36, R127, R168, R451 to R455, R516), flies (R526),
completions (R520 to R528), interrupt delays (R764), timeouts (R127, R136) and automatic re-formation (R141 to R144).
-/
namespace Sys2Proof.Machine

/-! ### SCAN -/

def slotAddr (x : Queue) (n : Nat) : Nat := x.base + 64 * (n % 2 ^ x.log2)

/-- The packet at a ring position: its entries, or none when the scan stops there (R490, R493 to R495). -/
def chainFrom (rd : Nat → List Byte) : Nat → Nat → List Byte → Option (List Byte)
  | 0, _, acc => some acc
  | k + 1, i, acc =>
    let e := rd i
    if !tb (leAt e 0 8) 63 then none
    else if tb (leAt e 0 8) 61 then some (acc ++ e) else chainFrom rd k (i + 1) (acc ++ e)

def packetAt (rd : Nat → List Byte) (i : Nat) : Option (List Byte) :=
  let e := rd i
  let h := leAt e 0 8
  if !tb h 63 then none
  else if !tb h 62 || tb h 61 then some e
  else chainFrom rd 15 (i + 1) e

def newCmd (id : CmdId) (raw : List Byte) (lsn : Nat) : Cmd :=
  { id, raw, phase := .taken, status := 0, result := 0, satTiles := 0, flags := 0, lsn, lines := 1 + raw.length / 64, prog := none
    rank := 0, handle := none, staging := 0, split := false, waitOn := none, waitDone := false, headOther := false, waitBeat := 0
    dispBeat := 0, chunks := 0, ready := 0, flies := 0, satChunks := [], sent := 0, acked := 0, rflies := 0, sigSent := false, gotten := []
    recvd := [], applied := none, count := 0, extent := 0, effectDone := false }

/-- Take one packet: its ACCEPT record is issued (R505, R515). -/
def takePacket (b : Blk) (f q : Nat) (raw : List Byte) : Blk :=
  let x := getQ b f q
  let n := getFn b f
  let e := raw.length / 64
  let id : CmdId := { f, q, rseq := x.taken }
  let b := issueLog b f (logRecord n 1 0 q x.taken (leAt raw 0 8) e [] raw)
  let b := { b with cmds := b.cmds ++ [newCmd id raw n.head] }
  modQ b f q fun x => { x with taken := (x.taken + e) % 2 ^ 48, scanSlot := (x.scanSlot + e) % 2 ^ x.log2 }

/-- Whether a packet of e entries may be taken (R498, R513). -/
def mayTake (b : Blk) (f q e : Nat) : Bool :=
  decide ((b.cmds.filter fun c => c.id.f == f && c.id.q == q).length < 256) && decide (b.cmds.length < 65536) &&
  decide (liveLines b f + 2 * (1 + e) + 256 ≤ logFree b f)

/-- The scan (R493): packets are taken until an entry that is not owned, or until a limit pauses it. -/
def scanLoop (m : Tab Byte) (f q : Nat) : Nat → Blk → Blk
  | 0, b => b
  | k + 1, b =>
    let x := getQ b f q
    match packetAt (fun i => fnRead b m f 0 (slotAddr x (x.scanSlot + i)) 64) 0 with
    | none => modQ b f q fun x => { x with scanPending := false }
    | some raw => if mayTake b f q (raw.length / 64) then scanLoop m f q k (takePacket b f q raw) else b

/-- A scan is due: an OPEN queue with one pending, and neither core restarting its role (R37, R493, R537). -/
def scanDue (b : Blk) (f q : Nat) : Bool :=
  fnLive b f && (getQ b f q).state == 1 && (getQ b f q).scanPending && !(getFn b f).disabling && decide (b.life.phase = .run) &&
  !(b.cores.any (·.restarting))

/-- SCAN; a fault on the ring read fences the queue (R499). -/
def execScan (f q : Nat) (fault : Option AccFault) (s : State) : Host.Outcome State Fault Refusal :=
  act s fun b m =>
    if !scanDue b f q then b
    else match fault with
    | some a =>
      let b := modQ b f q fun x => { x with was := 4, state := 4, ringFault := true, scanPending := false }
      event b f 0x09 q 0 0 (a.addr % 2 ^ 57)
    | none => scanLoop m f q 257 b

/-! ### ACCEPT -/

/-- OWN is cleared in byte 7 of each slot of a packet (R515). -/
def clearOwn (b : Blk) (c : Cmd) : Blk :=
  let x := getQ b c.id.f c.id.q
  (List.range (entriesOf c)).foldl (fun b j =>
    fnStore b c.id.f 0 (slotAddr x (c.id.rseq + j) + 7) [BitVec.ofNat 8 (leAt c.raw (64 * j + 7) 1 % 128)]) b

/-- A taken command whose ACCEPT is durable; none is accepted while a core restarts its role (R37). -/
def acceptable (b : Blk) (id : CmdId) : Option Cmd :=
  (cmdIn b id .taken (List.range 256)).filter fun c => durable b id.f (c.lsn + c.lines - 1) && !(b.cores.any (·.restarting))

/-- An opcode R552 does not list in a well-formed first entry: R553 has its own command. -/
def isUnlisted (c : Cmd) : Bool := tb (hdrOf c.raw) 62 && !isListed (opOf c)

/-- The status that acceptance gives, none for an unlisted opcode, which its own command ends. -/
def firstStatus (b : Blk) (c : Cmd) : Option Nat := if isUnlisted c then none else acceptStatus b c

/-- R60: data held in spill for a command is taken from there once it is accepted. -/
def unspill (b : Blk) (c : Cmd) : Blk :=
  let mine := fun (p : Spilled) => let q := preOfPkt p.pkt; q.gid == fGid c && q.gen == fGen c && q.cseq == fCseq c
  let ps := (getFn b c.id.f).spill.filter mine
  if !namesGroup c || ps.isEmpty then b
  else
    let b := modFn b c.id.f fun n => { n with spill := n.spill.filter fun p => !mine p }
    ps.foldl (fun b p => arrive b 64 p.pkt) b

/-- R60: a held abort notice ends its command as it is accepted. -/
def heldAbort (b : Blk) (c : Cmd) : Option Nat :=
  if namesGroup c then (b.fab.aborts.find? fun a => a.1 == fGid c && a.2.1 == fGen c && a.2.2.1 == fCseq c).map (·.2.2.2) else none

def acceptFx (b : Blk) (c : Cmd) : Blk :=
  let b := clearOwn b c
  let rank := match findGroup b (fGid c) with | some (_, g) => (rankIn g c.id.f).getD 0 | none => 0
  let c := { c with rank := if namesGroup c then rank else 0 }
  let b := modCmd b c.id fun d => { d with rank := c.rank, phase := .accepted }
  let b := modQ b c.id.f c.id.q fun x => { x with rseq := (x.rseq + entriesOf c) % 2 ^ 48 }
  let b := modFn b c.id.f fun n => { n with moved := true }
  let b := carryIfShort b c.id.f
  if (getQ b c.id.f c.id.q).state == 2 then
    let b := endCmd b c.id 0x10 0
    settle { b with cmds := b.cmds.map fun d => if shutsQueue d c.id.f c.id.q then { d with count := d.count + 1 } else d }
  else match firstStatus b c with
  | some st => endCmd b c.id st 0
  | none => match heldAbort b c with
    | some st => endCmd b c.id st 0
    | none => unspill b c

/-- ACCEPT: an accepted command that breaks a rule without a status is malformed (R548). -/
def execAccept (id : CmdId) (s : State) : Host.Outcome State Fault Refusal :=
  match acceptable s.b id with
  | none => .next s
  | some c =>
    let rank := match findGroup s.b (fGid c) with | some (_, g) => (rankIn g c.id.f).getD 0 | none => 0
    let c := { c with rank := if namesGroup c then rank else 0 }
    if awake s.b && (firstStatus s.b c).isNone && !isUnlisted c && malformedAtAccept s.b c then .fault (.malformedCommand id)
    else act s fun b _ => acceptFx b c

/-! ### COMMAND_DISPATCH -/

/-- A command that holds its queue: accepted and not dispatched, or a PENNANT WAIT that waits (R454, R516). -/
def holdsQueue (c : Cmd) : Bool :=
  (decide (c.phase = .accepted) && !atAccept (opOf c)) || (decide (c.phase = .running) && opOf c == 0x34 && fPenOp c == 2)

/-- The commands of a queue accepted before one. -/
def earlier (b : Blk) (id : CmdId) : List Cmd :=
  (b.cmds.takeWhile fun c => !decide (c.id = id)).filter fun c => c.id.f == id.f && c.id.q == id.q

def isHead (b : Blk) (id : CmdId) : Bool := !((earlier b id).any holdsQueue)

/-- The head: accepted, first of its queue, with WAIT_PRIOR met (R455, R516). -/
def headCmd (b : Blk) (id : CmdId) : Option Cmd :=
  (findCmd b id).filter fun c => decide (c.phase = .accepted) && isListed (opOf c) && !atAccept (opOf c) && fnLive b id.f &&
    decide (b.life.phase = .run) && isHead b id && (!flPrior c || (earlier b id).isEmpty)

/-- The wait clause of a head (R445, R451 to R453): registered, or done at once. -/
def clauseStep (b : Blk) (c : Cmd) : Blk :=
  match penIdx b c.id.f (wcPen c) with
  | none => endCmd b c.id 0x31 0
  | some p => penWait b c p

/-- The head waits for a generation, a handle or staging (R485). -/
def waitOther (b : Blk) (c : Cmd) : Blk :=
  if c.headOther then b else modCmd b c.id fun c => { c with headOther := true, waitBeat := beatNow b }

/-- Staging of a command under its function's quota (R167, R168): bytes charged, and whether it is split. -/
def stagingFor (h : Hoist) (quota : Nat) : Nat × Bool :=
  let need := h.stagingNeed * 4096
  let q := quota * 65536
  if need ≤ q then (need, false)
  else
    let C := 2 ^ h.chunkLog2
    let wf := need / max 1 C
    match (List.range (h.chunkLog2 - 11)).find? fun j => decide (C / 2 ^ j * wf ≤ q) with
    | some j => (C / 2 ^ j * wf, true)
    | none =>
      let F := max 1 (wf / max 1 h.window)
      (q / (4096 * F) * (4096 * F), true)

/-- Reads and translations a command asks for as it starts (R724, R729); their failures end it. -/
def firstAccesses (b : Blk) (c : Cmd) : Blk :=
  (regionsOf b c).foldl (fun b r =>
    let use := MUse.cmd c.id r.space r.addr
    let b := if r.space == 0 then needXl b c.id.f r.addr r.wr use
      else if r.wr then b else dieAccess b (r.space - 1) c.id.f (.cmd c.id) false r.addr 0 (leBytes 64 8)
    if r.wr || r.space != 0 then b else issueRead b (fnKey b c.id.f 0 r.addr) 1 (flVol c) use) b

/-- The command leaves the head and runs. -/
def startCmd (b : Blk) (c : Cmd) (h : Option Nat) (staging : Nat) (split : Bool) : Blk :=
  let b := modCmd b c.id fun c => { c with
    phase := .running, headOther := false, handle := h, staging, split, dispBeat := beatNow b }
  let b := modFn b c.id.f fun n => { n with stagingUsed := n.stagingUsed + staging, moved := true, deadlocked := false }
  let b := match h with
    | some h => modHoist { b with fresh := b.fresh + 1 } h fun e => { e with bound := e.bound + 1, used := b.fresh }
    | none => b
  firstAccesses b c

/-- The parameters of a SCORE, DISPATCH or COMBINE (R276). -/
def moeOf (b : Blk) (c : Cmd) : MoeP :=
  let moves := opOf c == 0x20
  { N := if opOf c == 0x22 then 1 else cmdN b c, rank := c.rank, T := fT c, d := fDim c, E := fE c, k := fK c, cap := if moves then fCap c else 0
    policy := if moves then b2n (fNext c) else 0, rounds := if moves then fRounds c else 0, f := fFormat c, wf := fWfmt c
    gid := fGid c, gen := fGen c, cseq := fCseq c }

/-- What a command does first once it runs: DISPATCH writes both headers with VALID = 0 (R295); COMBINE learns the size of DST from
its ASSIGN table (R300). -/
def firstWrites (b : Blk) (m : Tab Byte) (c : Cmd) : Blk :=
  if opOf c == 0x20 then
    let p := moeOf b c
    fnStore (fnStore b c.id.f 0 (fAssign c) (tableHeader p false 1 0 0)) c.id.f 0 (fOrigin c) (tableHeader p false 2 0 0)
  else if opOf c == 0x21 then
    modCmd b c.id fun d => { d with extent := leAt (fnRead b m c.id.f 0 (fAssign c + 16) 8) 5 3 * bytesOf (fFormat c) (fDim c) }
  else b

/-- Binding a head to its hoist (R36, R127, R166, R168). -/
def bindHead (b : Blk) (m : Tab Byte) (c : Cmd) : Blk :=
  if namesGroup c && (match findGroup b (fGid c) with | some (_, g) => decide (g.gen < fGen c) | none => false) then waitOther b c
  else if opOf c == 0x84 && (match findGroup b (pf c 0 4) with | some (_, g) => g.state == 3 | none => false) then waitOther b c
  else match cmdGenStatus b c with
  | some st => endCmd b c.id st 0
  | none =>
    if usesHoist c then
      match findHoist b (keyOf b m c) with
      | none => waitOther b c
      | some h =>
        let (need, split) := stagingFor (getHoist b h) (getFn b c.id.f).stagingQuota
        if (getFn b c.id.f).stagingQuota * 65536 < (getFn b c.id.f).stagingUsed + need then waitOther b c
        else firstWrites (startCmd b c (some h) need split) m c
    else startCmd b c none 0 false

/-- COMMAND_DISPATCH: a PENNANT WAIT has its own command. -/
def dispatchFx (b : Blk) (m : Tab Byte) (c : Cmd) : Blk :=
  if flWait c && !c.waitDone then (if c.waitOn.isSome then b else clauseStep b c)
  else if opOf c == 0x34 && fPenOp c == 2 then b
  else bindHead b m c

/-- The head would start on buffers of another command (R72). -/
def startsMalformed (b : Blk) (c : Cmd) : Bool :=
  (!flWait c || c.waitDone) && !(namesGroup c && (cmdGenStatus b c).isSome) && malformedAtDispatch b c

def execCommandDispatch (id : CmdId) (s : State) : Host.Outcome State Fault Refusal :=
  match headCmd s.b id with
  | none => .next s
  | some c =>
    if awake s.b && startsMalformed s.b c then .fault (.malformedCommand id)
    else act s fun b m => dispatchFx b m c

/-! ### HOIST_ON_DEMAND -/

/-- Install a hoist for a key on behalf of a command; a status when a quota or table is short. -/
def installFor (b : Blk) (gh : Nat) (h : Hoist) (f : Nat) (pin : Bool) : Nat ⊕ (Nat × Blk) :=
  let g := tget group0 b.t.group gh
  let x := compile b g h
  match (if x.alg == 5 then makeDerived b gh f else some b) with
  | none => .inl 0x60
  | some b =>
    match (if pin then pinHandle g gh else match findHoist b x with
      | some k => if 65536 ≤ k && (getHoist b k).bound == 0 then some k else sharedHandle b
      | none => sharedHandle b) with
    | none => .inl (if pin then 0x60 else 0)
    | some k => .inr (k, installAt b k x)

/-- The command core compiles the hoist that a head waits for (R36, R154 to R159, R166). -/
def execHoistOnDemand (id : CmdId) (s : State) : Host.Outcome State Fault Refusal :=
  act s fun b m => match headCmd b id with
    | none => b
    | some c =>
      if !c.headOther || !usesHoist c || (cmdGenStatus b c).isSome then b
      else match findGroup b (fGid c) with
      | none => b
      | some (gh, g) =>
        let key := keyOf b m c
        if g.gen < fGen c || (findHoist b key).isSome || b.compiles.any (fun k => sameKey k.hoist key) then b
        else if !halvingOk key.opcode (if key.pin == 5 then 4 else key.pin) g.n then endCmd b id 0x61 0
        else match installFor b gh key c.id.f false with
        | .inl st => if st == 0 then b else endCmd b id st 0
        | .inr (k, b) => seekHalyards b gh k id false

/-! ### FLY (R92 to R94, R414, R526) -/

/-- RESULT of a collective, a point-to-point command or COMBINE (R564). -/
def collResult (b : Blk) (c : Cmd) : Nat :=
  match c.handle with
  | some h => let e := getHoist b h; mk [(63, 60, e.alg), (59, 55, e.chunkLog2), (31, 0, if flFly c then c.flies else 0)]
  | none => 0

/-- A command ends once its effect, its flies and its acknowledgements are complete (R82, R93). -/
def finishCmd (b : Blk) (id : CmdId) : Blk :=
  withCmd b id fun c =>
    if decide (c.phase = .running) && c.effectDone && (!flFly c || c.flies == c.chunks) && decide (c.sent ≤ c.acked) then
      let op := opOf c
      endCmd b id c.status (if isColl op || isP2p op || op == 0x21 then collResult b c
        else if op == 0x22 then (if flFly c then c.flies else 0) else c.result)
    else b

/-- A fly's pennant and record (R526, R556): LSN order, one PROGRESS, the ADD, APPLIED_LSN, the record. -/
def flyCmd (b : Blk) (c : Cmd) : Blk :=
  let i := c.flies
  let f := c.id.f
  let mode := fFlyMode c
  let sat := c.satChunks.contains i
  let pen := mode == 1 || mode == 3
  let recd := mode == 2 || mode == 3
  let lsn := (getFn b f).head
  let b := progress b c 0 (if recd then nextNum b f % 2 ^ 32 else 0xFFFFFFFF)
    [mk [(31, 0, i), (32, 32, b2n sat)], mk [(15, 0, fFlyPen c), (16, 16, b2n pen)], 0]
  let b := if pen then match penIdx b f (fFlyPen c) with
    | some p => penOp b p true 1 (selfEp b) f 2 (tagOf c)
    | none => b else b
  let b := modFn b f fun n => { n with appliedLsn := lsn }
  let b := modCmd b c.id fun c => { c with flies := c.flies + 1 }
  let w0 := mk [(62, 61, 1), (60, 57, c.id.q), (55, 48, opOf c), (34, 34, b2n sat), (31, 0, tagOf c)]
  let b := if recd then ringPut b f { w := [w0, mk [(31, 0, i)], 0, 0], cmd := none } else b
  finishCmd (carryIfShort b f) c.id

/-- Whether the next slot of a stream is complete (R414, R424). -/
def slotReady (b : Blk) (s : Stream) : Bool :=
  s.valid && s.state == 1 && decide (s.flies < slotCount b s) && decide (min ((s.flies + 1) * slotBytes s) (strV b s) ≤ s.delivered)

/-- A stream's fly (R414, R434). -/
def flyStream (b : Blk) (f n : Nat) : Blk :=
  let s := getStr b f n
  let nf := getFn b f
  let ws := [mk [(31, 0, s.flies)], mk [(15, 0, s.flyPen), (16, 16, 1)], s.delivered]
  let b := appendLog b f (logRecord nf 3 0 s.queue s.openId.2 s.tag 0xFFFFFFFF ws [])
  let b := match penIdx b f s.flyPen with
    | some p => penOp b p true 1 (selfEp b) f 2 s.tag
    | none => b
  let b := modFn b f fun n => { n with appliedLsn := nf.head }
  let b := modStr b f n fun s => { s with flies := s.flies + 1, prog := some { lsn := nf.head, sub := 0, a := 0xFFFFFFFF, w := ws } }
  streamTryEnd (carryIfShort b f) f n

def execFly (r : FlyRef) (s : State) : Host.Outcome State Fault Refusal :=
  act s fun b _ => match r with
    | .cmd id => match findCmd b id with
      | some c => if decide (c.phase = .running) && flFly c && decide (c.flies < c.ready) && fnLive b id.f && allDurable b id.f then
          flyCmd b c else b
      | none => b
    | .stream f n => if fnLive b f && allDurable b f && slotReady b (getStr b f n) then flyStream b f n else b

/-! ### COMPLETION (R520 to R528) -/

/-- Words 0 to 3 of a completion record (R521, R522). -/
def completionWords (c : Cmd) : List Nat :=
  [mk [(60, 57, c.id.q), (55, 48, opOf c), (47, 40, c.status), (32, 32, c.flags), (33, 33, c.flags / 2), (35, 35, c.flags / 8),
       (36, 36, b2n (flUnordered c)), (31, 0, tagOf c)], c.result, c.satTiles % 2 ^ 64, c.satTiles / 2 ^ 64]

/-- Queue order (R523): an ordered command waits for earlier ordered commands. -/
def mayComplete (b : Blk) (c : Cmd) : Bool :=
  decide (c.phase = .ended) && fnLive b c.id.f && allDurable b c.id.f && !((getFn b c.id.f).ringWait.any fun r => decide (r.cmd = some c.id)) &&
  (flUnordered c || (earlier b c.id).all flUnordered)

def execCompletion (id : CmdId) (s : State) : Host.Outcome State Fault Refusal :=
  act s fun b _ => match findCmd b id with
    | some c => if mayComplete b c then
        settle (carryIfShort (ringPut b id.f { w := completionWords c, cmd := some id }) id.f) else b
    | none => b

/-- CQ_DELAY (R764): the oldest record not signalled has waited long enough. -/
def execCqDelay (f : Nat) (s : State) : Host.Outcome State Fault Refusal :=
  act s fun b _ =>
    let n := getFn b f
    let cfg := n.irqCfg.toNat
    if tb cfg 63 && decide (n.irqA < n.produced) && fld cfg 31 16 != 0 && fnLive b f then
      modFn (signalVec b f (fld cfg 62 58)) f fun n => { n with irqA := n.produced }
    else b

/-! ### Timeouts -/

/-- GENERATION_WAIT_TIMEOUT: the wait of a head for a later generation expires (R127). -/
def execGenerationWaitTimeout (id : CmdId) (s : State) : Host.Outcome State Fault Refusal :=
  act s fun b _ => match findCmd b id with
    | none => b
    | some c => match findGroup b (fGid c) with
      | none => b
      | some (_, g) =>
        if decide (c.phase = .accepted) && c.headOther && namesGroup c && decide (g.gen < fGen c) && g.timeout != 0 &&
           decide (c.waitBeat + g.timeout ≤ beatNow b) && fnLive b id.f
        then endCmd b id 0x22 0 else b

/-- STEP_TIMEOUT: a step of a command, or a stream's requests, have waited for STEP_TIMEOUT beats; the lowest rank whose cells
are missing is named slow (R136, R417). -/
def execStepTimeout (id : CmdId) (missing : List Nat) (s : State) : Host.Outcome State Fault Refusal :=
  act s fun b _ =>
    let slow := fun (gid gen since : Nat) (ranks : List Nat) => match findGroup b gid with
      | some (h, g) =>
        let ranks := ranks.filter fun r => decide (r < g.n) && slotEp (tget 0 b.t.roster (g.base + r)) != selfEp b
        if g.gen == gen && g.state == 1 && g.timeout != 0 && decide (since + g.timeout ≤ beatNow b) && !ranks.isEmpty
        then detectBreak b h 2 [ranks.foldl min 8191] else b
      | none => b
    match findCmd b id with
    | some c =>
      if hasPeers c && !c.effectDone then slow (fGid c) (fGen c) c.dispBeat missing
      else if isP2p (opOf c) && decide (c.phase = .running) && decide (c.acked < c.sent) then slow (fGid c) (fGen c) c.dispBeat [fTarget c]
      else b
    | none => match b.t.stream.find? fun e => e.2.valid && e.2.sharded && e.2.state == 1 && e.1 / 64 == id.f && e.2.openId == (id.q, id.rseq) with
      | some e => slow e.2.gid e.2.gen 0 missing
      | none => b

/-! ### AUTO_REFORM (R140 to R144) -/

/-- Whether AUTO_REFORM permits a cause (R118). -/
def permits (policy cause : Nat) : Bool := (cause == 1 && (policy == 1 || policy == 2)) || (cause == 2 && policy == 2)

/-- Recompile the pinned hoists of a group for its generation (R149): kept fields that R161 refuses fall back to the rules. -/
def recompile (b : Blk) (gh : Nat) : Blk :=
  let g := tget group0 b.t.group gh
  (List.range 4).foldl (fun b i =>
    if tb g.pinUsed i then
      let old := getHoist b (4 * gh + i)
      let key := { old with gen := g.gen, valid := true }
      let x := compile b g key
      let M := (enginesOf (rosterEps b g)).length
      let x := if schedOk x g.n M then x else compile b g { key with
        kept := key.kept % 2 + (if tb key.kept 1 then 2 else 0) + (if tb key.kept 4 then 16 else 0) + (if tb key.kept 5 then 32 else 0) +
          (if tb key.kept 6 then 64 else 0) }
      let b := dropHalyards b (4 * gh + i)
      let b := modHoist b (4 * gh + i) fun _ => { x with bound := old.bound, pinned := true }
      if x.alg == 5 then (makeDerived b gh ((g.locs.headD (0, 0)).1)).getD b else b
    else b) b

/-- The entry takes a new roster and generation (R122, R148): derived roster, shared handles of the old generation and keys go. -/
def formGroup (b : Blk) (gh gen : Nat) (slots : List Nat) (base : Nat) : Blk :=
  let g := tget group0 b.t.group gh
  let b := eraseGk b g.gid g.gen
  let b := if g.derivedM = 0 then b else clearRoster b g.derivedBase g.derivedM
  let b := if g.valid then clearRoster b g.base g.n else b
  let old := b.t.hoist.filter fun e => decide (65536 ≤ e.1) && e.2.gid == g.gid && e.2.bound == 0
  let b := old.foldl (fun b e => freeHandle b e.1) b
  let slots := slots.map fun x => setBit (setBit x 15 false) 14 false
  let b := writeRoster b base slots
  let b := modGroup b gh fun g => { g with
    valid := true, state := 1, n := slots.length, gen, base, brokenCause := 0, brokenRank := 0, derivedM := 0, derivedBase := 0
    digest := rosterDigest slots g.gid gen, locs := localsOf b slots, events := [] }
  let b := deriveGk b g.gid gen (rosterDigest slots g.gid gen)
  let old := fun (x y : Nat) => x == g.gid && decide (y < gen)
  let b := { b with fab := { b.fab with
      ended := b.fab.ended.filter fun e => !old e.1 e.2.1
      aborts := b.fab.aborts.filter fun a => !old a.1 a.2.1
      applied := b.fab.applied.filter fun a => !old a.gid a.gen } }
  recompile b gh

/-- R144: a member that is absent as a generation is formed breaks it at once. -/
def breakAbsent (b : Blk) (gh : Nat) : Blk :=
  (b.beat.seen.filter (·.absent)).foldl (fun b e => detectBreak b gh 1 (ranksAt b (tget group0 b.t.group gh) e.ep)) b

/-- The smallest stamp of the events applied to a group's generation (R141). -/
def dZero (g : Group) : Nat := (g.events.map (·.2.2)).foldl min ((g.events.headD (0, 0, 0)).2.2)

/-- The dip window of beat d0 + 3 or later is open for a broken group. -/
def reformTime (b : Blk) (g : Group) : Bool := g.state == 2 && !g.events.isEmpty && b.beat.inDip && decide (dZero g + 3 ≤ beatNow b)

/-- Every cause stamped d0 is one that AUTO_REFORM permits. -/
def allPermitted (g : Group) : Bool := (g.events.filter fun e => e.2.2 == dZero g).all fun e => permits g.autoReform e.1

/-- R142: what keeps automatic re-formation from taking place. -/
def cannotReform (b : Blk) (g : Group) : Bool :=
  let out := (g.events.filter fun e => e.2.2 == dZero g).map (·.2.1)
  let left := ((rosterOf b g).zipIdx.filter fun x => !out.contains x.2).length
  !allPermitted g || decide (left < g.minMembers) || left == 0 || g.gen == 0xFFFFFFFF

/-- The entry stays BROKEN, with an event to the admin function in the dip window in which it would have been re-formed (R142, log 15). -/
def stayBroken (b : Blk) (g : Group) : Blk :=
  if g.autoReform != 0 && beatNow b == dZero g + 3 then
    adminEvent b 0x01 (mk [(19, 18, g.brokenCause), (13, 0, g.brokenRank)]) g.gid (mk [(63, 32, g.gen), (31, 0, dZero g)])
  else b

/-- The re-formation takes effect (R141, R144): an engine without a survivor excludes itself. -/
def autoReformFx (b : Blk) (gh : Nat) : Blk :=
  let g := tget group0 b.t.group gh
  let out := (g.events.filter fun e => e.2.2 == dZero g).map (·.2.1)
  let slots := ((rosterOf b g).zipIdx.filter fun x => !out.contains x.2).map (·.1)
  if g.state != 2 || cannotReform b g then b
  else if (localsOf b slots).isEmpty then
    let b := modGroup b gh fun g => { g with state := 4 }
    groupEvent b g 0x02 0 (mk [(63, 32, g.gen)])
  else
    let b := formGroup b gh (g.gen + 1) slots g.base
    let g' := tget group0 b.t.group gh
    let b := groupEvent b g' 0x03 (mk [(13, 0, g'.n)]) (mk [(63, 32, g'.gen), (31, 0, beatNow b + 1)])
    breakAbsent b gh

/-- AUTO_REFORM: in its dip window the re-formation falls due; it takes effect in the first cycle of the following beat (R141, R380). -/
def execAutoReform (gid : Nat) (s : State) : Host.Outcome State Fault Refusal :=
  act s fun b _ => match findGroup b gid with
    | some (_, g) =>
      if !reformTime b g || b.due.reforms.contains gid then b
      else if cannotReform b g then stayBroken b g
      else { b with due := { b.due with reforms := b.due.reforms ++ [gid] } }
    | none => b

end Sys2Proof.Machine
end

