-- ==== Sys2Proof/Machine/Streams.lean ====
section
/-!
DEFINITION. PENNANT commands (R450), the stream commands (R406 to R432) and the pieces of streams (R410 to R425).
-/
namespace Sys2Proof.Machine

/-! ### PENNANT SET, ADD and WAIT -/

/-- SET or ADD: PROGRESS PENNANT, the operation, APPLIED_LSN, OK with the value after it (R450, R527, R583). -/
def pennantFx (b : Blk) (c : Cmd) (add : Bool) : Blk :=
  let f := c.id.f
  match penIdx b f (fPen c) with
  | none => endCmd b c.id 0x31 0
  | some p =>
    let lsn := (getFn b f).head
    let b := progress b c 1 0 [fPenValue c, mk [(15, 0, fPen c), (16, 16, b2n add)], 0, 0]
    let b := penOp b p add (BitVec.ofNat 64 (fPenValue c)) (selfEp b) f 1 (tagOf c)
    let b := modFn b f fun n => { n with appliedLsn := lsn }
    endCmd (carryIfShort b f) c.id 0 (getPen b p).value.toNat

def execPennantSet (id : CmdId) (s : State) : Host.Outcome State Fault Refusal :=
  act s fun b _ => onRun b id 0x34 fun c => if fPenOp c == 0 && allDurable b id.f then pennantFx b c false else b

def execPennantAdd (id : CmdId) (s : State) : Host.Outcome State Fault Refusal :=
  act s fun b _ => onRun b id 0x34 fun c => if fPenOp c == 1 && allDurable b id.f then pennantFx b c true else b

/-- WAIT takes effect at the head of its queue: released at once, or registered there (R450, R453, R454). -/
def execPennantWait (id : CmdId) (s : State) : Host.Outcome State Fault Refusal :=
  act s fun b _ => match headCmd b id with
    | none => b
    | some c =>
      if opOf c != 0x34 || fPenOp c != 2 || (flWait c && !c.waitDone) then b
      else match penIdx b id.f (fPen c) with
      | none => endCmd b id 0x31 0
      | some p => modCmd (penWait b c p) id fun c => if decide (c.phase = .ended) then c else { c with phase := .running }

/-! ### Opening and closing -/

/-- Install a stream entry (R407, R408, R435). -/
def installStream (b : Blk) (c : Cmd) : Blk :=
  let f := c.id.f
  let fo := getStr b f (fFollows c)
  let ahead := opOf c == 0x41
  let b := modStr b f (fStream c) fun _ => { stream0 with
    valid := true, state := 1, cls := (getQ b f c.id.q).cls, sharded := fSharded c, autoClose := fAutoClose c
    followsValid := ahead && fo.state != 3, follows := if ahead then fFollows c else 0, queue := c.id.q, vol := flVol c
    srcSpace := fSpaceA c, dstSpace := fSpaceB c, slotLog2 := fSlotLog2 c, nslots := fNslots c, flyPen := fFlyPen c
    creditPen := fCreditPen c, drainNs := fDrain c, tag := tagOf c, opcode := opOf c, srcBase := fSrcBase c, dstBase := fDstBase c
    len0 := fLen0 c, counts := fCounts c, strides := fStrides c, gid := fGid c, gen := fGen c, cseq := fCseq c, rank := c.rank
    openId := (c.id.q, c.id.rseq), acceptLsn := c.lsn, lines := c.lines, raw := c.raw, servedAll := !fSharded c }
  let s := getStr b f (fStream c)
  let b := if strMembers b s ≤ 1 then modStr b f (fStream c) fun s => { s with servedAll := true } else b
  endCmd b c.id 0 (strV b s)

/-- STREAM_OPEN and STAGE_AHEAD as dispatched (R409, R445). -/
def openFx (b : Blk) (c : Cmd) : Blk :=
  if !openOk b c || ringOverlap b c then endCmd b c.id 0x61 0
  else if !penMapped b c.id.f (fFlyPen c) || !penMapped b c.id.f (fCreditPen c) then endCmd b c.id 0x31 0
  else installStream b c

def execStreamOpen (id : CmdId) (s : State) : Host.Outcome State Fault Refusal :=
  act s fun b _ => onRun b id 0x40 fun c => openFx b c

def execStageAhead (id : CmdId) (s : State) : Host.Outcome State Fault Refusal :=
  act s fun b _ => onRun b id 0x41 fun c => openFx b c

/-- STREAM_RESUME (R427). -/
def execStreamResume (id : CmdId) (s : State) : Host.Outcome State Fault Refusal :=
  act s fun b _ => onRun b id 0x42 fun c =>
    let st := getStr b id.f (fStream c)
    if st.valid && st.state == 2 then
      endCmd (modStr b id.f (fStream c) fun s => { s with state := 1, staged := 0, fault := 0 }) id 0 st.delivered
    else endCmd b id 0x61 0

/-- STREAM_CLOSE FINISH (R432): it waits for DONE outside its queue's order of dispatch. -/
def execStreamCloseFinish (id : CmdId) (s : State) : Host.Outcome State Fault Refusal :=
  act s fun b _ => onRun b id 0x43 fun c =>
    let st := getStr b id.f (fStream c)
    if fCloseAbort c then b
    else if !st.valid || st.state == 2 then endCmd b id 0x61 0
    else if st.state == 3 || st.state == 4 then endCmd (freeStream b id.f (fStream c)) id 0 st.flies
    else b

/-- STREAM_CLOSE ABORT (R431, R432). -/
def execStreamCloseAbort (id : CmdId) (s : State) : Host.Outcome State Fault Refusal :=
  act s fun b _ => onRun b id 0x43 fun c =>
    let st := getStr b id.f (fStream c)
    if !fCloseAbort c then b
    else if !st.valid then endCmd b id 0x61 0
    else endCmd (freeFinish b id.f (fStream c)) id 0 st.flies

/-! ### Pieces (R412 to R420) -/

def creditOf (b : Blk) (f : Nat) (s : Stream) : Nat :=
  match penIdx b f s.creditPen with | some p => (getPen b p).value.toNat | none => 0

/-- F and U of R419. -/
def unread (b : Blk) (f : Nat) (s : Stream) : Nat := s.flies - min (creditOf b f s) s.flies
def uncredited (b : Blk) (f : Nat) (s : Stream) : Nat := slotCount b s - min (creditOf b f s) (slotCount b s)

/-- The deadline of a stream, from the present moment (R419). -/
def deadline (b : Blk) (f : Nat) (s : Stream) : Nat :=
  let p := getStr b f s.follows
  (if s.followsValid && p.state != 3 then uncredited b f p * p.drainNs else 0) + unread b f s * s.drainNs

/-- A stream waits for a translation or for data it has asked for. -/
def strWaits (b : Blk) (f n : Nat) : Bool :=
  b.memp.any fun p => (p.xlats ++ p.xlWait).any fun x => match x.use with | .stream g k _ => g == f && k == n | _ => false

/-- R413, R419: eligible streams. -/
def eligible (b : Blk) (f n : Nat) (s : Stream) : Bool :=
  s.valid && s.state == 1 && s.staged == 0 && decide (s.delivered < strV b s) && fnLive b f && !strWaits b f n &&
  decide (s.delivered / slotBytes s + 1 ≤ creditOf b f s + s.nslots)

/-- R418: class, deadline, function, stream. -/
def before (b : Blk) (x y : Nat × Stream) : Bool :=
  let d := fun (e : Nat × Stream) => deadline b (e.1 / 64) e.2
  decide (x.2.cls < y.2.cls) || (x.2.cls == y.2.cls && (decide (d x < d y) || (d x == d y && decide (x.1 < y.1))))

def nextStream (b : Blk) : Option (Nat × Stream) :=
  (b.t.stream.filter fun e => eligible b (e.1 / 64) (e.1 % 64) e.2).foldl (fun acc e => match acc with
    | some a => if before b e a then some e else some a
    | none => some e) none

/-- The size of a piece under a function's staging quota (R420): halved down to 4 KiB. -/
def pieceSize (quota : Nat) : Nat → Nat → Nat
  | 0, p => p
  | k + 1, p => if 4 * p ≤ quota || p ≤ 4096 then p else pieceSize quota k (p / 2)

def pieceLen (b : Blk) (f : Nat) (s : Stream) : Nat :=
  let P := pieceSize ((getFn b f).stagingQuota * 65536) 8 (min (slotBytes s) 262144)
  min (P - s.delivered % P) (min (slotBytes s - s.delivered % slotBytes s) (strV b s - s.delivered))

/-- Runs of a piece in one shard: (stream byte, address, length); fuel bounds the runs (R410). -/
def pieceRuns (s : Stream) : Nat → Nat → Nat → List (Nat × Nat × Nat)
  | 0, _, _ => []
  | k + 1, x, n =>
    if n = 0 then [] else
      let y := x % max 1 (strZ s)
      let r := max 1 (min n (s.len0 - y % max 1 s.len0))
      (x, strAddr s y, r) :: pieceRuns s k (x + r) (n - r)

/-- Where byte x of the stream is written (R412). -/
def dstAddr (s : Stream) (x : Nat) : Nat := s.dstBase + (x / slotBytes s % s.nslots) * slotBytes s + x % slotBytes s

/-- Addresses in MEM that a piece needs translated: (stream byte, address, write). -/
def pieceNeeds (s : Stream) (x n : Nat) (own : Bool) : List (Nat × Nat × Bool) :=
  (if own && s.srcSpace == 0 then (pieceRuns s n x n).flatMap fun (y, a, k) => (cutsOf a k).map fun c => (y + (c.1 - a), c.1, false) else []) ++
  (if s.dstSpace == 0 then (cutsOf (dstAddr s x) n).map fun c => (x + (c.1 - dstAddr s x), c.1, true) else [])

def missingXl (b : Blk) (f : Nat) (needs : List (Nat × Nat × Bool)) : List (Nat × Nat × Bool) :=
  needs.filter fun (_, a, _) => !(b.xlats.any (xlCovers · (getFn b f).context a))

/-- Bytes of one shard from stream byte x: own shard or local source. -/
def pieceData (b : Blk) (m : Tab Byte) (f : Nat) (s : Stream) (x n : Nat) : List Byte :=
  (pieceRuns s n x n).flatMap fun (_, a, k) => fnRead b m f s.srcSpace a k

/-- A GET_REQ for a part of a remote shard (R415). -/
def shardReq (b : Blk) (s : Stream) (x n : Nat) : Blk :=
  match findGroup b s.gid with
  | none => b
  | some (_, g) =>
    let r := x / max 1 (strZ s)
    let ep := slotEp (tget 0 b.t.roster (g.base + r))
    let dig := dig32 ([0x40, 1, 0, 0] ++ leBytes s.len0 4 ++ s.counts.flatMap (leBytes · 2))
    sendPkt b { hdr := hdrTo b ep 0 0, body := .coll { pre0 with
      type := 3, gid := s.gid, gen := s.gen, cseq := s.cseq, srcRank := s.rank, rosterDig := g.digest, descDig := dig
      spec := specLO n (x % max 1 (strZ s)) } [] } none

/-- Move the next piece of a stream, or ask for what it lacks (R415, R418, R425). -/
def moveStream (b : Blk) (m : Tab Byte) (f n : Nat) (s : Stream) : Blk :=
  let x := s.delivered
  let k := pieceLen b f s
  let own := !s.sharded || x / max 1 (strZ s) == s.rank
  let k := if s.sharded then min k (strZ s - x % max 1 (strZ s)) else k
  match missingXl b f (pieceNeeds s x k own) with
  | (_, a, w) :: _ => needXl b f a w (.stream f n a)
  | [] =>
    if own then
      let b := spaceStore b f (.stream f n) s.dstSpace (dstAddr s x) (pieceData b m f s x k)
      modFn (modStr b f n fun s => { s with delivered := x + k }) f fun n => { n with moved := true }
    else shardReq (modStr b f n fun s => { s with staged := k }) s x k

/-- STREAM_PIECE: a tile in service takes the most urgent piece. -/
def execStreamPiece (t : Nat) (s : State) : Host.Outcome State Fault Refusal :=
  act s fun b m =>
    if !tileUp b t || decide (b.life.phase ≠ .run) then b
    else match nextStream b with
    | some (k, st) => moveStream b m (k / 64) (k % 64) st
    | none => b

end Sys2Proof.Machine
end

