-- ==== Sys2Proof/Machine/Tails.lean ====
section
/-!
DEFINITION. The integrity tail of a chunk transfer (R587 to R597): digest, check value and magnitude, as the sender forms them.
-/
namespace Sys2Proof.Machine

/-- The value of a number as a floating value (R594: every value of R191 is exact in FP64). -/
def numVal (x : Num) : FVal :=
  match x with
  | .fp v => v
  | .int i => .fin (decide (i < 0)) i.natAbs 0

def add64 (a b : FVal) : FVal := (rndAcc fp64 (addExact a b)).1

/-- Whether the weight of element e of a chunk is -1, ec elements to a chunk (R593). -/
def weightNeg (seed c ec e : Nat) : Bool :=
  let k1 := mix64 (BitVec.ofNat 64 seed ^^^ 0xA54FF53A5F1D36F1#64)
  let kc := mix64 (k1 ^^^ BitVec.ofNat 64 c)
  let i := e % max 1 ec
  !((mix64 (kc ^^^ BitVec.ofNat 64 (i / 64))).toNat.testBit (i % 64))

/-- K of elements from element lo of the vector on (R594). -/
def checkOf (seed ec lo : Nat) (xs : List Elem) : FVal :=
  match xs.zipIdx.map (fun (x, k) =>
    let e := lo + k
    if weightNeg seed (e / max 1 ec) ec e then negF (numVal x.v) else numVal x.v) with
  | [] => .fin false 0 0
  | t :: r => r.foldl add64 t

/-- A non-negative value rounded toward +infinity to FP32 (R596). -/
def upTo32 (v : FVal) : Nat :=
  match v with
  | .fin _ m e =>
    if m = 0 then 0
    else
      let u := ulpExp fp32 m e
      let k := if u ≤ e then m * 2 ^ (e - u).toNat else cdiv m (2 ^ (u - e).toNat)
      let w := encodeFin fp32 false k u
      if maxBits fp32 < w then 0x7F800000 else w
  | _ => 0x7F800000

/-- CHECK and MAG of a combined transfer (R595 to R597); the canonical NaN and 0 for any other. -/
def checkMag (f oper seed ec lo : Nat) (sat : Bool) (ins : List (List Elem)) : Nat × Nat :=
  let bad := ins.any fun xs => xs.any fun x => match x.v with | .fp .nan => true | .fp (.inf _) => true | _ => false
  if ins.isEmpty || oper != 0 || f == 0xB || sat || bad then (0x7FF8000000000000, 0)
  else
    let ks := ins.map (checkOf seed ec lo)
    let check := (ks.drop 1).foldl add64 (ks.headD (.fin false 0 0))
    let mag := (ins.flatMap fun xs => xs.map fun x => absF (numVal x.v)).foldl add64 (.fin false 0 0)
    ((toBits fp64 check).1, upTo32 mag)

/-- A transfer's data with its tail (R587, R588, R590). -/
def withTail (data : List Byte) (cm : Nat × Nat) : List Byte :=
  data ++ leBytes (crc64 data).toNat 8 ++ leBytes cm.1 8 ++ leBytes cm.2 4

/-- A transfer that the sender has not combined (R589). -/
def plainTail (data : List Byte) : List Byte := withTail data (0x7FF8000000000000, 0)

end Sys2Proof.Machine
end

