-- ==== Sys2Proof/Machine/Collectives.lean ====
section
/-!
DEFINITION. The collectives (R67 to R110): this member's result from every member's contribution, its buffers, flies and status, and
the DATA packets it sends.
-/
namespace Sys2Proof.Machine

/-- The schedule of a running collective (R99, R150). -/
def collOf (b : Blk) (c : Cmd) (g : Group) (h : Hoist) : Coll :=
  { opc := opOf c, alg := h.alg, inner := h.inner, k := h.fanin, f := fFormat c, oper := if opOf c ≤ 0x14 then fOper c else 0
    xform := fXform c, xparam := fXparam c, n := fCount c, N := g.n, root := fRoot c, eps := rosterEps b g
    preload := fPreload c != 0, seed := h.seed, cseq := fCseq c, c := 2 ^ h.chunkLog2
    gid := fGid c, gen := g.gen, atomic := h.atomicLocal }

/-- The tiles of a hoist that record a saturation event of this engine: which of them is a free value (R196). -/
def satMask (b : Blk) (h : Hoist) (own : Bool) : Nat × Blk :=
  if !own then (0, b)
  else
    let mask := h.tilesLo + 2 ^ 64 * h.tilesHi
    let (v, b) := draw b
    let m := v &&& mask
    let m := if m = 0 then mask else m
    (m, { b with tiles := b.tiles.zipIdx.map fun (t, i) => if tb m i then { t with sat := t.sat + 1 } else t })

/-- The chunk transfers of a message (R587): a plain reduction is cut at the chunks of its vector, other data at chunk size. -/
def transfersOf (c : Coll) (m : CMsg) : List (List Byte) :=
  let red := c.opc == 0x10 || c.opc == 0x11 || c.opc == 0x14
  let w := elemBits c.f / 8
  let ec := elemsIn c.f c.c
  if m.bytes.isEmpty then []
  else if red && c.xform == 0 && !isScaled c.f && !isArg c.oper && !c.preload && 0 < w then
    let n := m.bytes.length / w
    let first := m.lo / max 1 ec
    (List.range (cdiv (m.lo + n) (max 1 ec) - first)).map fun k =>
      let a := max m.lo ((first + k) * ec) - m.lo
      let e := min (m.lo + n) ((first + k + 1) * ec) - m.lo
      withTail (slice m.bytes (a * w) ((e - a) * w)) (checkMag c.f c.oper c.seed ec (m.lo + a) m.sat (m.ins.map fun xs => (xs.drop a).take (e - a)))
  else if red && c.xform != 3 then
    [withTail m.bytes (checkMag (if c.xform == 0 then c.f else 0) c.oper c.seed (max 1 (if c.xform == 2 then c.c / 4 else ec)) m.lo m.sat m.ins)]
  else (chunksOf c.c m.bytes).map plainTail

/-- DATA packets of one transfer from an offset, at most 2,772 bytes each (R317, R318). -/
def dataPkts (b : Blk) (c : Cmd) (ep rank type step : Nat) (sat : Bool) (off : Nat) (bs : List Byte) : List Pkt :=
  (chunksOf maxData bs).zipIdx.map fun (x, i) =>
    cryptPkt b rank 0 { hdr := hdrTo b ep 0 0,
                        body := .coll { cmdPre b c type step (specLO x.length (off + i * maxData)) with sat } x }

/-- Whether a command's first window opens more than WAIT_MAX ns ahead (R378, R395): never when WAIT_MAX covers a beat, else a free value for the
command (log 50). -/
def opensLate (b : Blk) (c : Cmd) : Bool :=
  decide (b.ctl.align < b.beat.per) && tb (Config.freeNat (2 ^ 72 + (c.id.rseq * 16 + c.id.q) * 512 + c.id.f)) 0

/-- The halyard of a beat-aligned hoist for a step and destination (R395). -/
def halyardFor (b : Blk) (c : Cmd) (step ep : Nat) : Option Nat :=
  match c.handle with
  | some h => if (getHoist b h).beatAligned && !opensLate b c then
      (b.t.haly.find? fun e => e.2.valid && e.2.active && e.2.inPort == 63 && e.2.handle == h && e.2.step == step && e.2.dst == ep).map (·.1)
    else none
  | none => none

/-- Send a message of this member to another engine: in its halyard's windows, or as DATA packets. -/
def sendMsg (b : Blk) (c : Cmd) (k : Coll) (m : CMsg) : Blk :=
  let ep := k.eps.getD m.dst 0
  if m.src != c.rank || ep == selfEp b then b
  else
    let ts := transfersOf k m
    match halyardFor b c m.step ep with
    | some i =>
      let pre := { cmdPre b c 1 m.step 0 with sat := m.sat }
      { b with fab := { b.fab with halyT := b.fab.halyT ++ [{ cmd := c.id, idx := i, pre, rank := m.dst, bytes := ts.flatten, seq := none }] } }
    | none =>
      if ts.isEmpty then
        sendTo b { hdr := hdrTo b ep 0 0, body := .coll { cmdPre b c 1 m.step 0 with sat := m.sat } [] } (some c.id) m.dst
      else (ts.foldl (fun (acc : Blk × Nat) t =>
        ((dataPkts acc.1 c ep m.dst 1 m.step m.sat acc.2 t).foldl (fun b p => sendTo b p (some c.id) m.dst) acc.1, acc.2 + t.length)) (b, 0)).1

/-- R107, R369: one step's identical bytes to more than 16 members go as multicast when a domain covers their engines. -/
def multicastOf (b : Blk) (c : Cmd) (k : Coll) (m : CMsg) (all : List CMsg) : Option (Nat × Nat) :=
  let same := all.filter fun x => x.src == m.src && x.step == m.step && decide (x.bytes = m.bytes) && x.sat == m.sat
  let eps := ((same.map fun x => k.eps.getD x.dst 0).eraseDups).filter (· != selfEp b)
  if m.src == c.rank && decide (16 < same.length) && !eps.isEmpty && (halyardFor b c m.step (k.eps.getD m.dst 0)).isNone then findDomain b eps else none

/-- The messages of a command: those that a multicast covers leave once (R369), the others one by one. -/
def sendMsgs (b : Blk) (c : Cmd) (k : Coll) (ms : List CMsg) : Blk :=
  (ms.foldl (fun (acc : Blk × List Nat) m =>
    match multicastOf b c k m ms with
    | some (d, mask) =>
      if acc.2.contains m.step then acc
      else ((transfersOf k m).foldl (fun (x : Blk × Nat) t =>
        ((dataPkts x.1 c (mcHdr b (hdrTo b 0 0 0) d mask).dst 0x3FFF 1 m.step m.sat x.2 t).foldl (fun b p => sendMc b d mask p (some c.id)) x.1, x.2 + t.length)) (acc.1, 0) |>.1,
        m.step :: acc.2)
    | none => (sendMsg acc.1 c k m, acc.2)) (b, [])).1
/-- Chunks of the result (R92, R95). -/
def chunkCount (c : Cmd) (dst : Option (List Byte)) (h : Hoist) : Nat :=
  if opOf c == 0x19 then 1 else match dst with | some d => cdiv d.length (2 ^ h.chunkLog2) | none => 0

/-- An access of a running command failed (R584, R625). -/
def accessEnd (b : Blk) (c : Cmd) (a : AccFault) : Blk :=
  let b := accessEvent b c.id.f c.id.q a.space (isPage a.kind) false (tagOf c) a.addr
  endEarly b c.id (faultStatus a.kind) 0x10

/-- RCOUNTS of a collective that learns counts (R87, R88). -/
def collCounts (b : Blk) (c : Cmd) (o : CollOut) : Blk :=
  match o.rcounts with
  | some x => if fRcounts c = 0 then b else fnStore b c.id.f 0 (fRcounts c) x
  | none => b

/-- DST behind the chunks with raised flies, which are final (R534), and the error-feedback buffer. -/
def collDst (b : Blk) (c : Cmd) (h : Hoist) (o : CollOut) : Blk :=
  let done := c.flies * 2 ^ h.chunkLog2
  match o.dst with
  | some x => spaceStore b c.id.f (.cmd c.id) (fSpaceB c) (fDst c + done) (x.drop done)
  | none => b
def collEfb (b : Blk) (c : Cmd) (o : CollOut) : Blk := match o.efb with | some x => fnStore b c.id.f 0 (fEfb c) x | none => b

/-- The running command once its result is written: every chunk is ready for its fly (R92 to R94). -/
def collReady (h : Hoist) (o : CollOut) (n mask : Nat) (c : Cmd) : Cmd :=
  { c with
    effectDone := true, chunks := n, ready := n, satChunks := o.satChunks, satTiles := mask
    status := if !o.satChunks.isEmpty then 2 else if c.split then 1 else 0, flags := c.flags &&& 2 ||| b2n h.atomicLocal }

/-- The result of a collective at this member takes effect. -/
def collDone (b : Blk) (c : Cmd) (k : Coll) (h : Hoist) (o : CollOut) : Blk :=
  let x := satMask (collCounts b c o) h o.satOwn
  let b := sendMsgs x.2 c k o.msgs
  match o.fail with
  | some st => endCmd (modCmd b c.id fun c => { c with satTiles := x.1 }) c.id st (collResult b c)
  | none => finishCmd (modFn (modCmd (collEfb (collDst b c h o) c o) c.id (collReady h o (chunkCount c o.dst h) x.1)) c.id.f fun n => { n with moved := true }) c.id

/-- What a collective yields at this member (R67): its SRC, SCOUNTS, PRELOAD and EFB are read, the members' contributions are given. -/
def collHere (b : Blk) (m : Tab Byte) (c : Cmd) (g : Group) (h : Hoist) (env : CollEnv) : CollOut :=
  let k := collOf b c g h
  let f := c.id.f
  let counts := if opOf c == 0x18 then
      (List.range g.n).map fun i => leAt (fnRead b m f 0 (fScounts c) (4 * g.n)) (4 * i) 4
    else [fCount c]
  let srcLen := if opOf c == 0x18 then cmdBytes c (counts.foldl (· + ·) 0) else srcBytes b c
  let src := if srcLen = 0 then [] else fnRead b m f (fSpaceA c) (fSrc c) srcLen
  let vec := cmdBytes c (fCount c)
  let pre := if fPreload c = 0 then none else some (fnRead b m f 0 (fPreload c) vec)
  let efb := if fEfb c = 0 then none else some (fnRead b m f 0 (fEfb c) (4 * vecLen k))
  collOut k c.rank (fTopk c) (fDstCap c) (flCounts c) src counts pre efb env

/-- A collective at this member (R67). -/
def collFx (b : Blk) (m : Tab Byte) (c : Cmd) (env : CollEnv) : Blk :=
  match findGroup b (fGid c), c.handle with
  | some (_, g), some hn =>
    match env.fault with
    | some a => accessEnd b c a
    | none => collDone b c (collOf b c g (getHoist b hn)) (getHoist b hn) (collHere b m c g (getHoist b hn) env)
  | _, _ => b

/-- The common form of a collective's command: nothing happens unless it is running. -/
def runColl (op : Nat) (id : CmdId) (env : CollEnv) (s : State) : Host.Outcome State Fault Refusal :=
  act s fun b m => onRun b id op fun c => collFx b m c env

def execAllreduce (id : CmdId) (env : CollEnv) (s : State) : Host.Outcome State Fault Refusal := runColl 0x10 id env s
def execReduceScatter (id : CmdId) (env : CollEnv) (s : State) : Host.Outcome State Fault Refusal := runColl 0x11 id env s
def execAllgather (id : CmdId) (env : CollEnv) (s : State) : Host.Outcome State Fault Refusal := runColl 0x12 id env s
def execBroadcast (id : CmdId) (env : CollEnv) (s : State) : Host.Outcome State Fault Refusal := runColl 0x13 id env s
def execReduce (id : CmdId) (env : CollEnv) (s : State) : Host.Outcome State Fault Refusal := runColl 0x14 id env s
def execGather (id : CmdId) (env : CollEnv) (s : State) : Host.Outcome State Fault Refusal := runColl 0x15 id env s
def execScatter (id : CmdId) (env : CollEnv) (s : State) : Host.Outcome State Fault Refusal := runColl 0x16 id env s
def execAlltoall (id : CmdId) (env : CollEnv) (s : State) : Host.Outcome State Fault Refusal := runColl 0x17 id env s
def execAlltoallv (id : CmdId) (env : CollEnv) (s : State) : Host.Outcome State Fault Refusal := runColl 0x18 id env s
def execBarrier (id : CmdId) (env : CollEnv) (s : State) : Host.Outcome State Fault Refusal := runColl 0x19 id env s
def execTopkGather (id : CmdId) (env : CollEnv) (s : State) : Host.Outcome State Fault Refusal := runColl 0x1A id env s

end Sys2Proof.Machine
end

