-- ==== Sys2Proof/Machine/P2p.lean ====
section
/-!
DEFINITION. PUT, GET, PUT_SIGNAL and MEM_ATOMIC at their issuer (R81 to R84, R462, R566), and the progress that acknowledgements
and responses give them.
-/
namespace Sys2Proof.Machine

/-- C of a running command (R92). -/
def chunkOf (b : Blk) (c : Cmd) : Nat := match c.handle with | some h => 2 ^ (getHoist b h).chunkLog2 | none => 65536

/-- Bytes a point-to-point command moves. -/
def p2pBytes (c : Cmd) : Nat := if opOf c == 0x33 then bytesOf (fFormat c) (fLen c) else fLen c

/-- Transfer offset at which chunk k of size C starts: each transfer ends with its 20-byte tail (R587, R588). -/
def chunkOff (C k : Nat) : Nat := k * (C + 20)

/-- The endpoint of a command's target. -/
def targetEp (b : Blk) (c : Cmd) : Nat :=
  match findGroup b (fGid c) with | some (_, g) => slotEp (tget 0 b.t.roster (g.base + fTarget c)) | none => 0

/-- DATA or ATOMIC packets of a command, chunk by chunk. -/
def p2pPkts (b : Blk) (c : Cmd) (type : Nat) (data : List Byte) : List Pkt :=
  (chunksOf (chunkOf b c) data).zipIdx.flatMap fun (x, k) =>
    dataPkts b c (targetEp b c) (fTarget c) type 0 false (chunkOff (chunkOf b c) k) (plainTail x)

/-- Send packets of a command to its target, counted. -/
def sendAll (b : Blk) (c : Cmd) (ps : List Pkt) : Blk :=
  let b := modCmd b c.id fun c => { c with sent := c.sent + ps.length }
  ps.foldl (fun b p => sendTo b p (some c.id) (fTarget c)) b

/-- A SIGNAL of a command (R319, R462): NDATA, virtual ID, operation, operand. -/
def signalPkt (b : Blk) (c : Cmd) (ndata pen : Nat) (add : Bool) (v : Nat) : Pkt :=
  { hdr := hdrTo b (targetEp b c) 0 0
    body := .coll (cmdPre b c 2 0 (mk [(31, 0, ndata), (47, 32, pen), (55, 48, b2n add)])) (leBytes v 8) }

/-- DATA packets of a chunk of the command. -/
def chunkPkts (b : Blk) (c : Cmd) (k : Nat) : Nat :=
  let C := chunkOf b c
  cdiv (min C (p2pBytes c - k * C) + 20) maxData

def pktsTo (b : Blk) (c : Cmd) (k : Nat) : Nat := ((List.range k).map (chunkPkts b c)).foldl (· + ·) 0

/-- The signal of a PUT_SIGNAL, behind its data and its last remote fly; then everything of the command is on its way. -/
def sendSignal (b : Blk) (c : Cmd) : Blk :=
  let b := if opOf c == 0x32 then
      modCmd (sendAll b c [signalPkt b c (pktsTo b c c.chunks) (fSigPen c) (fSigAdd c) (fSigValue c)]) c.id
        fun c => { c with sigSent := true }
    else b
  modCmd b c.id fun c => { c with effectDone := true }

/-- Remote flies of the chunks whose data are acknowledged, in chunk order (R462). -/
def remoteFlies : Nat → CmdId → Blk → Blk
  | 0, _, b => b
  | k + 1, id, b => withCmd b id fun c =>
    if c.rflies < c.ready then
      let b := sendAll b c [signalPkt b c (pktsTo b c (c.rflies + 1)) (fRflyPen c) true 1]
      remoteFlies k id (modCmd b id fun c => { c with rflies := c.rflies + 1 })
    else b

/-- Chunks below the first one with a DATA or ATOMIC packet that is not acknowledged. -/
def readyChunks (b : Blk) (c : Cmd) : Nat :=
  let C := chunkOf b c
  let idx := fun (p : Pkt) => let q := preOfPkt p; if q.type == 1 || q.type == 5 then some (preOff q / (C + 20)) else none
  let out := b.fab.dst.flatMap fun d =>
    (d.2.unacked.filter fun u => decide (u.cmd = some c.id)).map (·.pkt) ++ (d.2.waiting.filter fun w => decide (w.cmd = some c.id)).map (·.pkt)
  (out.filterMap idx).foldl min c.chunks

/-- What follows acknowledgements of a point-to-point command: ready chunks, remote flies, the signal, its end. -/
def p2pProgress (b : Blk) (id : CmdId) : Blk :=
  withCmd b id fun c =>
    if !isP2p (opOf c) || !decide (c.phase = .running) || c.chunks == 0 then b
    else
      let b := if opOf c == 0x31 then b else modCmd b id fun c => { c with ready := readyChunks b c }
      let b := if flRfly c && !c.effectDone then remoteFlies c.chunks id b else b
      let b := withCmd b id fun c => if flRfly c && !c.effectDone && c.rflies == c.chunks then sendSignal b c else b
      finishCmd b id

/-- PUT, PUT_SIGNAL and MEM_ATOMIC: the local bytes leave as packets (R82, R317). -/
def putFx (b : Blk) (m : Tab Byte) (c : Cmd) (type : Nat) (fault : Option AccFault) : Blk :=
  if c.chunks != 0 then b else
  match fault with
  | some a => accessEnd b c a
  | none =>
    let n := p2pBytes c
    let ps := p2pPkts b c type (fnRead b m c.id.f (fSpaceA c) (fLocal c) n)
    let b := modCmd b c.id fun d => { d with chunks := cdiv n (chunkOf b c), flags := d.flags &&& 2 ||| b2n (opOf c == 0x33), status := b2n c.split }
    let b := sendAll b c ps
    if flRfly c then b else withCmd b c.id fun c => sendSignal b c

/-- GET: one GET_REQ for each chunk (R318, R353). -/
def getFx (b : Blk) (c : Cmd) (fault : Option AccFault) : Blk :=
  if c.chunks != 0 then b else
  match fault with
  | some a => accessEnd b c a
  | none =>
    let C := chunkOf b c
    let k := cdiv (fLen c) C
    let req := fun i => ({ hdr := hdrTo b (targetEp b c) 0 0
                           body := .coll (cmdPre b c 3 0 (specLO (min C (fLen c - i * C)) (i * C))) [] } : Pkt)
    let b := modCmd b c.id fun d => { d with chunks := k, gotten := List.replicate k 0, effectDone := true, status := b2n c.split }
    sendAll b c ((List.range k).map req)

def execPut (id : CmdId) (fault : Option AccFault) (s : State) : Host.Outcome State Fault Refusal :=
  act s fun b m => onRun b id 0x30 fun c => putFx b m c 1 fault

def execGet (id : CmdId) (fault : Option AccFault) (s : State) : Host.Outcome State Fault Refusal :=
  act s fun b _ => onRun b id 0x31 fun c => getFx b c fault

def execPutSignal (id : CmdId) (fault : Option AccFault) (s : State) : Host.Outcome State Fault Refusal :=
  act s fun b m => onRun b id 0x32 fun c => putFx b m c 1 fault

def execMemAtomic (id : CmdId) (fault : Option AccFault) (s : State) : Host.Outcome State Fault Refusal :=
  act s fun b m => onRun b id 0x33 fun c => putFx b m c 5 fault

/-- R553: a packet with an opcode that R552 does not list is accepted and completes REJECTED_FORMAT. -/
def execUnlistedOpcode (id : CmdId) (s : State) : Host.Outcome State Fault Refusal :=
  act s fun b _ => match cmdIn b id .accepted (List.range 256) with
    | some c => if isUnlisted c then endCmd b id 0x61 0 else b
    | none => b

end Sys2Proof.Machine
end

