-- ==== Sys2Proof/Machine/MoeRows.lean ====
section
/-!
DEFINITION. SCORE (R283 to R288), DISPATCH (R289 to R296) and COMBINE (R297 to R300) at this member.
-/
namespace Sys2Proof.Machine

/-- Scores of this member's tokens: from X and W, or read from LOGITS (R283, R285). -/
def ownScores (b : Blk) (m : Tab Byte) (c : Cmd) (p : MoeP) : List (List Nat) × Bool :=
  let f := c.id.f
  if fW c = 0 then (logitRows p (fnRead b m f 0 (fLogits c) (p.T * upTo (4 * p.E) 64)), false)
  else scoreRows p (fnRead b m f (fSpaceA c) (fX c) (p.T * bytesOf p.f p.d)) (fnRead b m f 0 (fW c) (bytesOf p.wf (p.d * p.E)))

/-- LOGITS, when it is named and scores are formed here (R285, R288). -/
def storeLogits (b : Blk) (c : Cmd) (rows : List (List Nat)) : Blk :=
  if fLogits c = 0 || fW c = 0 then b else fnStore b c.id.f 0 (fLogits c) (logitBytes rows)

/-- Tiles a SCORE runs on (R288). -/
def scoreTiles (b : Blk) (T : Nat) : Nat := maskOf (((List.range 128).filter (tileUp b)).take (min 32 (cdiv T 256)))

/-- Status OK_SAT over OK_SPLIT over OK. -/
def doneStatus (c : Cmd) (sat : Bool) : Nat := if sat then 2 else b2n c.split

/-! ### SCORE -/

def scoreFx (b : Blk) (m : Tab Byte) (c : Cmd) (fault : Option AccFault) : Blk :=
  match fault with
  | some a => accessEnd b c a
  | none =>
    let p := moeOf b c
    let (rows, sat) := ownScores b m c p
    let (recs, gsat) := selectBytes p.k rows
    let b := storeLogits b c rows
    let b := if p.k = 0 then b else fnStore b c.id.f 0 (fAssign c) (tableHeader p true 3 0 0 ++ recs)
    let n := if fLogits c = 0 then 0 else cdiv (dstBytes b c) 65536
    let sat := sat || gsat
    let (mask, b) := satMask b { hoist0 with tilesLo := scoreTiles b p.T % 2 ^ 64, tilesHi := scoreTiles b p.T / 2 ^ 64 } sat
    let b := modCmd b c.id fun d => { d with effectDone := true, chunks := n, ready := n, status := doneStatus c sat, satTiles := mask }
    finishCmd (modFn b c.id.f fun x => { x with moved := true }) c.id

def execScore (id : CmdId) (fault : Option AccFault) (s : State) : Host.Outcome State Fault Refusal :=
  act s fun b m => onRun b id 0x22 fun c => scoreFx b m c fault

/-! ### DISPATCH -/

/-- What one exchange sends from this member, by the hoist's algorithm (R275, R289). -/
def exchange (b : Blk) (c : Cmd) (k : Coll) (base : Nat) (unit : Nat → Nat → List Byte) : Blk :=
  (moveMsgs { k with opc := 0x17 } 0x17 fun _ i j => unit i j).foldl (fun b x => sendMsg b c k { x with step := base + x.step }) b

/-- Messages of admission, then the rows (R289, R293). -/
def dispatchSends (b : Blk) (c : Cmd) (k : Coll) (p : MoeP) (rounds : List (Adm × Adm)) (rows : Nat → Nat → List Byte) : Blk :=
  let per := stepsFull 0x17 k.alg k.inner k.k k.N (enginesOf k.eps).length
  let b := (rounds.zipIdx).foldl (fun b ((a, after), r) =>
    let b := exchange b c k (3 * r * per) (countMsg p a)
    let b := exchange b c k ((3 * r + 1) * per) (bidMsg p a r)
    exchange b c k ((3 * r + 2) * per) (grantMsg p a after)) b
  exchange b c k (3 * rounds.length * per) rows

/-- Admitted rows of one source at one owner, in the order of RECV. -/
def rowsTo (p : MoeP) (a : Adm) (x : List Byte) (src dst : Nat) : List Byte :=
  if src != p.rank then []
  else
    let rs := bytesOf p.f p.d
    (recvRows { p with rank := dst } a).flatMap fun (_, s, t) => if s == src then slice x (t * rs) rs else []

def dispatchDone (b : Blk) (m : Tab Byte) (c : Cmd) (k : Coll) (h : Hoist) (env : DispEnv) : Blk :=
  let p := moeOf b c
  let f := c.id.f
  let rs := bytesOf p.f p.d
  let x := fnRead b m f (fSpaceA c) (fX c) (p.T * rs)
  let (own, sat) := ownScores b m c p
  let scores := (List.range p.N).map fun r => if r == p.rank then own else (env.members.getD r ⟨[], []⟩).scores
  let rounds := admRounds p scores
  let a := admission p scores
  let mine := a.toks.getD p.rank []
  let (recs, gsat) := assignBytes mine
  let drops := dropList mine
  let got := recvRows p a
  let cap := if fDrops c = 0 then 0 else fDropCap c
  let kept := (mine.map fun t => (t.2.filter fun s => s.row.isSome).length).foldl (· + ·) 0
  -- R289, R293: the exchanges
  let b := dispatchSends b c k p rounds (rowsTo p a x)
  let b := storeLogits b c own
  -- R293: ORIGIN's records and the rows
  let b := fnStore b f 0 (fOrigin c + 64) (originBytes p a)
  let b := got.foldl (fun b (i, s, t) =>
    let row := if s == p.rank then slice x (t * rs) rs else slice ((env.members.getD s ⟨[], []⟩).rows.getD t []) 0 rs
    spaceStore b f (.cmd c.id) (fSpaceB c) (fRecv c + i * rs) row) b
  -- R295: ASSIGN and the drop list, then the headers
  let b := fnStore b f 0 (fAssign c + 64) recs
  let b := if fDrops c = 0 then b else fnStore b f 0 (fDrops c) ((drops.take cap).flatten)
  let b := fnStore b f 0 (fAssign c) (tableHeader p true 1 kept drops.length)
  let b := fnStore b f 0 (fOrigin c) (tableHeader p true 2 got.length 0)
  let sat := sat || gsat
  let (mask, b) := satMask b h sat
  let n := cdiv (dstBytes b c) k.c
  let b := modCmd b c.id fun d => { d with
    effectDone := true, chunks := n, ready := n, status := doneStatus c sat, satTiles := mask
    flags := c.flags &&& 2 ||| 8 * b2n (decide (cap < drops.length)), result := mk [(63, 32, got.length), (31, 0, drops.length)] }
  finishCmd (modFn b f fun y => { y with moved := true }) c.id

def dispatchRowFx (b : Blk) (m : Tab Byte) (c : Cmd) (env : DispEnv) : Blk :=
  match findGroup b (fGid c), c.handle with
  | some (_, g), some hn =>
    match env.fault with
    | some a => accessEnd b c a
    | none => dispatchDone b m c (collOf b c g (getHoist b hn)) (getHoist b hn) env
  | _, _ => b

def execDispatch (id : CmdId) (env : DispEnv) (s : State) : Host.Outcome State Fault Refusal :=
  act s fun b m => onRun b id 0x20 fun c => dispatchRowFx b m c env

/-! ### COMBINE -/

/-- R297: a table's header is complete, of its kind, and of this command's group, generation and rank. -/
def headerOk (c : Cmd) (kind : Nat) (h : List Byte) : Bool :=
  tb (leAt h 0 8) 63 && fld (leAt h 0 8) 62 60 == kind && leAt h 12 4 == fGid c && leAt h 8 4 == fGen c &&
  fld (leAt h 24 8) 39 27 == c.rank

/-- Parameters that a COMBINE reads from its ASSIGN header (R279). -/
def combineP (b : Blk) (c : Cmd) (h : List Byte) : MoeP :=
  let w := leAt h 16 8
  { N := cmdN b c, rank := c.rank, T := fld w 63 40, d := fDim c, E := fld w 39 29, k := fld w 28 25, cap := fld (leAt h 24 8) 63 40
    policy := fld w 24 24, rounds := fld w 23 22, f := fFormat c, wf := 0, gid := fGid c, gen := fGen c, cseq := fCseq c }

/-- The admitted slots of token t: (gate, owner, row of its YOUT). -/
def admitted (p : MoeP) (assign : List Byte) (t : Nat) : List (Nat × Nat × Nat) :=
  let epm := max 1 (p.E / p.N)
  (List.range p.k).filterMap fun j =>
    let r := (assign.drop (16 * (t * p.k + j))).take 16
    if leAt r 14 1 == 0 then
      let e := leAt r 12 2
      some (leAt r 0 4, e / epm, e % epm * p.cap + leAt r 8 4)
    else none

/-- Rows of this member's YOUT that members at other engines are to ask for (R298). -/
def rowsToServe (k : Coll) (p : MoeP) (me : Nat) (origin : List Byte) : Nat :=
  let epm := p.E / max 1 p.N
  let recs := origin.drop (64 * cdiv epm 16)
  ((List.range (epm * p.cap)).filter fun i =>
    let r := (recs.drop (8 * i)).take 8
    tb (leAt r 7 1) 0 && k.eps.getD (leAt r 4 2) 0 != me).length

/-- The request for one row of an owner's YOUT (R298). -/
def rowReq (b : Blk) (c : Cmd) (ep rs row : Nat) : Pkt :=
  { hdr := hdrTo b ep 0 0, body := .coll (cmdPre b c 3 0 (specLO rs (row * rs))) [] }

/-- The rows of CDST: each token's admitted rows of YOUT, those of other owners as their members hold them, weighted by the gates, and CPRE (R297 to R300). -/
def combineOut (b : Blk) (m : Tab Byte) (c : Cmd) (p : MoeP) (env : CombEnv) : List (List Byte × Bool) :=
  let f := c.id.f
  let rs := bytesOf p.f p.d
  let assign := fnRead b m f 0 (fAssign c + 64) (16 * p.T * p.k)
  let yrow := fun o row => if o == p.rank then fnRead b m f (fSpaceA c) (fYout c + row * rs) rs
    else slice (env.yout.getD o []) (row * rs) rs
  (List.range p.T).map fun t => combineRow p.f p.d ((admitted p assign t).map fun (g, o, row) => (g, yrow o row))
    (if fCpre c = 0 then none else some (fnRead b m f 0 (fCpre c + t * rs) rs))

def combineDone (b : Blk) (m : Tab Byte) (c : Cmd) (k : Coll) (h : Hoist) (env : CombEnv) : Blk :=
  let f := c.id.f
  let ah := fnRead b m f 0 (fAssign c) 64
  let oh := fnRead b m f 0 (fOrigin c) 64
  if !headerOk c 1 ah || !headerOk c 2 oh then endEarly (modCmd b c.id fun d => { d with extent := 0 }) c.id 0x61 0x61
  else
    let p := combineP b c ah
    let rs := bytesOf p.f p.d
    let assign := fnRead b m f 0 (fAssign c + 64) (16 * p.T * p.k)
    let epm := p.E / max 1 p.N
    let origin := fnRead b m f 0 (fOrigin c + 64) (64 * cdiv epm 16 + 8 * epm * p.cap)
    let toks := (List.range p.T).flatMap fun t => admitted p assign t
    let outs := combineOut b m c p env
    let b := outs.zipIdx.foldl (fun b (o, t) => spaceStore b f (.cmd c.id) (fSpaceB c) (fCdst c + t * rs) o.1) b
    let b := toks.foldl (fun b (_, o, row) =>
      let ep := k.eps.getD o 0
      if ep == selfEp b then b else sendPkt b (rowReq b c ep rs row) (some c.id)) b
    let sat := outs.any (·.2)
    let (mask, b) := satMask b h sat
    let n := cdiv (p.T * rs) k.c
    let b := modCmd b c.id fun d => { d with
      effectDone := true, chunks := n, ready := n, status := doneStatus c sat, satTiles := mask, extent := p.T * rs
      sent := rowsToServe k p (selfEp b) origin }
    finishCmd (modFn b f fun y => { y with moved := true }) c.id

def combineRowFx (b : Blk) (m : Tab Byte) (c : Cmd) (env : CombEnv) : Blk :=
  match findGroup b (fGid c), c.handle with
  | some (_, g), some hn =>
    match env.fault with
    | some a => accessEnd b c a
    | none => combineDone b m c (collOf b c g (getHoist b hn)) (getHoist b hn) env
  | _, _ => b

def execCombine (id : CmdId) (env : CombEnv) (s : State) : Host.Outcome State Fault Refusal :=
  act s fun b m => onRun b id 0x21 fun c => combineRowFx b m c env

end Sys2Proof.Machine
end

