-- ==== Sys2Proof/Machine/Units.lean ====
section
/-!
DEFINITION. Units of the block: their fences and the spares that replace them (R43 to R49, R609, R611), ports declared down (R332),
and the loss of the block (R626, R627).
-/
namespace Sys2Proof.Machine

/-- UNIT_FENCED and UNIT_SPARED (R625): kinds 0 TILE, 1 SECTOR, 2 LNK, 3 MEM, 4 D2D, 6 ARRAY, 7 SEQUENCER, 8 LANE, 9 CORE. -/
def unitFenced (b : Blk) (kind cause idx sub : Nat) : Blk :=
  adminEvent b 0x18 (mk [(3, 0, kind), (8, 4, cause)]) (mk [(15, 0, idx), (23, 16, sub)]) (beatNow b % 2 ^ 32)
def unitSpared (b : Blk) (kind idx sub spare : Nat) : Blk :=
  adminEvent b 0x19 kind (mk [(15, 0, idx), (23, 16, sub)]) spare

/-- LOCKED changes; its fall is counted, and BEAT_STAT follows at once (R375). -/
def setLock (b : Blk) (v : Bool) : Blk :=
  if b.beat.locked == v then b
  else
    let x := { b.beat with locked := v, lockLoss := if v then b.beat.lockLoss else satAdd b.beat.lockLoss 1 65535, good := 0 }
    { b with beat := x, shadow := { b.shadow with beat := x } }

/-! ### Loss of the block -/

/-- FDI state requests (UCIe encodings): Active, LinkError, Disabled (PRESUMED, log 10). -/
def fdiActive : Nat := 1
def fdiError : Nat := 10
def fdiDisabled : Nat := 12

/-- Electrical idle on every lane of a port. -/
def idleLanes (p : Port) : Port := { p with txei := 0x1FFF, adaptReq := 0, lpReq := false, txActive := 0, rxActive := 0 }

/-- A fatal cause (R626): the first one stops the block (R627): links idle, D2D links in error. -/
def setFatal (b : Blk) (cause : Nat) : Blk :=
  let b' := { b with life := { b.life with fatal := setBit b.life.fatal cause true } }
  if b.life.fatal != 0 then b'
  else { b' with
    ports := b.ports.map fun p => idleLanes { p with state := if p.state == 3 then 3 else 0, phase := .reset, sleep := 0 }
    d2d := b.d2d.map fun d => { d with stateReq := fdiError, state := if d.state == 2 then 2 else 0 } }

/-! ### Tiles, arrays, sequencers, sectors -/

def modTile (b : Blk) (t : Nat) (g : Tile → Tile) : Blk := { b with tiles := b.tiles.modify t g }
def modSect (b : Blk) (s : Nat) (g : Sector → Sector) : Blk := { b with sectors := b.sectors.modify s g }
def getTile (b : Blk) (t : Nat) : Tile := b.tiles.getD t (tile0 0)
def getSect (b : Blk) (s : Nat) : Sector := b.sectors.getD s sector0

/-- Every tile of the part is fenced. -/
def allTilesFenced (b : Blk) : Bool :=
  b.tiles.zipIdx.all fun (x, t) => !tileExists b t || x.state == 3

/-- Fence a tile (R611): its sector's spare takes its number in the next dip window, where one is left. -/
def fenceTile (b : Blk) (t cause : Nat) : Blk :=
  let x := getTile b t
  if !tileExists b t || x.state == 3 then b
  else
    let b := modTile b t fun x => { x with
      state := 3, cause, fenceBeat := beatNow b % 2 ^ 32, due := (getSect b (t / 16)).spare != 31, arrDue := [], seqDue := [] }
    let b := unitFenced b 0 cause t 0
    if allTilesFenced b then setFatal b 1 else b

/-- Fence an array of a tile: the tile's spare array, else the whole tile (R44). -/
def fenceArray (b : Blk) (t a cause : Nat) : Blk :=
  let x := getTile b t
  if !tileExists b t || x.state == 3 || x.arrDue.contains a then b
  else
    let phys := if x.arrSpare && x.arrIdx == a then 8 else a
    let b := modTile b t fun x => { x with
      cause, fenceBeat := beatNow b % 2 ^ 32
      fault := mk [(63, 63, 1), (62, 59, phys), (58, 52, fld x.fault 58 52), (51, 48, cause), (31, 0, beatNow b)] }
    let b := unitFenced b 6 cause t a
    if x.arrSpare then fenceTile b t cause else modTile b t fun x => { x with arrDue := a :: x.arrDue }

/-- Fence a sequencer of a tile. -/
def fenceSeq (b : Blk) (t q cause : Nat) : Blk :=
  let x := getTile b t
  if !tileExists b t || x.state == 3 || x.seqDue.contains q then b
  else
    let phys := (x.seqIdx.zipIdx.filter fun e => e.1 == q).foldl (fun _ e => 32 + e.2) q
    let b := modTile b t fun x => { x with
      cause, fenceBeat := beatNow b % 2 ^ 32
      fault := mk [(63, 59, fld x.fault 63 59), (58, 58, 1), (57, 52, phys), (51, 48, cause), (31, 0, beatNow b)] }
    let b := unitFenced b 7 cause t q
    if 2 ≤ x.seqSpares then fenceTile b t cause else modTile b t fun x => { x with seqDue := q :: x.seqDue }

def leastOf : List Nat → Option Nat
  | [] => none
  | x :: r => some (r.foldl min x)

/-- Arrays of a tile that were fenced as the dip window opened: the lowest takes the spare array; one left over costs the tile (R45). -/
def spareArrays (b : Blk) (t : Nat) (due : List Nat) : Blk :=
  let x := getTile b t
  let due := due.filter fun a => x.arrDue.contains a
  match leastOf due with
  | none => b
  | some a =>
    let rest := modTile b t fun x => { x with arrDue := x.arrDue.filter fun k => !due.contains k }
    let b := if x.arrSpare then fenceTile rest t x.cause
      else unitSpared (modTile rest t fun x => { x with arrSpare := true, arrIdx := a }) 6 t a 8
    if 1 < due.length then fenceTile b t x.cause else b

/-- Sequencers of a tile that were fenced as the dip window opened take its spare sequencers, the lowest index first (R45). -/
def spareSeqs (b : Blk) (t : Nat) (due : List Nat) : Blk :=
  let x := getTile b t
  let order := (due.filter fun q => x.seqDue.contains q).mergeSort
  let room := 2 - x.seqSpares
  let b := modTile b t fun x => { x with seqDue := x.seqDue.filter fun k => !order.contains k }
  let b := (order.take room).zipIdx.foldl (fun b (q, i) =>
    unitSpared (modTile b t fun y => { y with seqSpares := y.seqSpares + 1, seqIdx := y.seqIdx ++ [q] }) 7 t q (32 + x.seqSpares + i)) b
  if room < order.length then fenceTile b t x.cause else b

/-- The sector's spare tile takes the number of the lowest fenced tile that waited for it (R45, R49). -/
def spareInSector (b : Blk) (s : Nat) (tiles : List Nat) : Blk :=
  let due := tiles.filter fun t => t / 16 == s && (getTile b t).due
  let slot := (getSect b s).spare
  let b := match leastOf due with
    | none => b
    | some t =>
      if slot == 31 || (getSect b s).fenced then b
      else
        let b := modTile b t fun x => { x with state := 1, slot, arrSpare := false, arrIdx := 0, seqSpares := 0, seqIdx := [] }
        unitSpared (modSect b s fun x => { x with spare := 31 }) 0 t 0 slot
  due.foldl (fun b t => modTile b t fun x => { x with due := false }) b

/-! ### Link ports -/

/-- R332: what a port holds is discarded: its replay buffer, the packets queued for it, the packets in reception. -/
def dropPort (b : Blk) (n : Nat) : Blk :=
  let p := getP b n
  let b := modP b n fun p => { p with
    replay := [], nakRx := false, retried := none, rxPkt := [none, none, none], out := [], halyQ := [], linkQ := [], nakDue := false
    downDrop := satAdd p.downDrop p.out.length 255, trained := false, retraining := false }
  freeHalyPort b p.serves

/-- The physical port a KEY_MGMT command is for: the one that serves the code it names (R638). -/
def keyPort (b : Blk) (c : Cmd) : Nat := let k := fld (pf c 1 1) 5 0; (portAt b k).getD k

/-- The commands that wait for a port's handshake complete with its key epoch (R638). -/
def endRekey (b : Blk) (n : Nat) : Blk :=
  (b.cmds.filter fun c => opOf c == 0x8C && pf c 0 1 != 0 && decide (c.phase = .running) && keyPort b c == n).foldl
    (fun b c => endCmd b c.id 0 (getP b n).keyEpoch) (modP b n fun p => { p with rekey := 0 })

/-- Fence a link port (R331, R332): a spare with the same partner may take its code in the next dip window (R46). -/
def fenceLink (b : Blk) (n cause : Nat) : Blk :=
  let p := getP b n
  if !portExists b n || p.state == 3 then b
  else
    let b := dropPort b n
    let b := modP (endRekey b n) n fun p => idleLanes { p with state := 3, phase := .reset, sleep := 0, woke := false, spareDue := decide (n < 40), retryRun := 0 }
    let b := adminEvent b 0x21 (mk [(5, 0, n), (6, 6, b2n (cause == 6))]) p.partnerEp 0
    unitFenced b 2 cause n 0

/-- A port is declared down (R332); the fourth time within 1,000 beats fences it. -/
def linkDown (b : Blk) (n : Nat) : Blk :=
  let p := getP b n
  if p.state == 3 || p.state == 0 then b
  else
    let recent := beatNow b :: p.downBeats.filter fun x => decide (beatNow b < x + 1000)
    let b := modP b n fun p => { p with downCount := bump p.downCount 255, downBeats := recent }
    if 4 ≤ recent.length then fenceLink b n 5
    else
      let b := endRekey (dropPort b n) n
      let b := modP b n fun p => idleLanes { p with
        state := if p.enable && tb b.ctl.fabSelf.toNat 32 then 1 else 0, phase := .reset
        sleep := 0, woke := false, retryRun := 0, fsDone := false, sessOurs := false, sessTheirs := false, msgs := [] }
      adminEvent b 0x20 n p.partnerEp (getP b n).downCount

/-- A training attempt starts at PHY (R701): a PHY that is calibrated already leaves electrical idle and adapts every lane. The declared
latency and times take effect with it (R307, R708). -/
def attempt (p : Port) : Port :=
  let ready := p.phyRstN && p.phyRdy
  { idleLanes p with
    state := 1, phase := .phy, phyRstN := true, phyRdy := ready, txei := if ready then 0 else 0x1FFF, adaptReq := if ready then 0x1FFF else 0
    sleep := 0, woke := false, trained := false, retraining := false, fsConflict := false, fsDone := false, sessOurs := false
    sessTheirs := false, msgs := [], cableForce := p.cable, wakeForce := p.wakeNs, adaptForce := max 1 p.adaptMs }

/-- A full retraining that is no declaration of down (R399, R638, R710): frames start anew, queued packets wait. -/
def retrain (b : Blk) (n : Nat) : Blk :=
  modP b n fun p => attempt { p with
    replay := [], nakRx := false, nakDue := false, retried := none, rxPkt := [none, none, none], linkQ := [], halyQ := []
    mark := { p.mark with known := false, mark := none }, sentMarks := [] }

/-- A spare port with the same partner takes the code of a fenced port (R46, R47). -/
def sparePort (b : Blk) (n : Nat) : Blk :=
  let p := getP b n
  if !p.spareDue then b
  else
    let b := modP b n fun p => { p with spareDue := false }
    match [40, 41].find? fun k =>
        let q := getP b k
        !q.spared && q.state == 2 && q.partnerEp == p.partnerEp with
    | some k =>
      let b := modP b k fun q => { q with spared := true, serves := n }
      unitSpared (modP b n fun p => { p with spared := true }) 2 n 0 k
    | none => b

/-- R24, R26: the home link ports of a logical sector. -/
def homePorts (b : Blk) (s : Nat) : List Nat := (List.range 5).map fun i => 5 * physOf b s + i

/-! ### Sectors -/

/-- Commands with work in flight on a sector's tiles: their hoist's tiles, or for SCORE the tiles it runs on. -/
def onSector (b : Blk) (c : Cmd) (s : Nat) : Bool :=
  decide (c.phase = .running) && !c.effectDone && (match c.handle with
    | some h => fld ((getHoist b h).tilesLo + 2 ^ 64 * (getHoist b h).tilesHi) (16 * s + 15) (16 * s) != 0
    | none => opOf c == 0x22 && s == 0)

/-- R534: a command can be run again from its last unit: no other engine takes part, and it reads nothing that it writes. -/
def resumable (b : Blk) (c : Cmd) : Bool :=
  let local' := !namesGroup c || (match findGroup b (fGid c) with
    | some (_, g) => g.state == 1 && (rosterEps b g).all (· == selfEp b)
    | none => false)
  let rs := regionsOf b c
  local' && (rs.all fun r => r.wr || rs.all fun w => !w.wr || !overlaps r w) && (!isColl (opOf c) || fEfb c == 0)

/-- Fence a sector (R26, R539): its tiles read FENCED, its home ports leave service, commands on it run again or end ABORTED. -/
def fenceSector (b : Blk) (s cause : Nat) : Blk :=
  if !sectorExists b s || (getSect b s).fenced then b
  else
    let beat := beatNow b % 2 ^ 32
    let b := modSect b s fun x => { x with fenced := true, cause, fenceBeat := beat }
    let b := (List.range 16).foldl (fun b j => modTile b (16 * s + j) fun x =>
      if x.state == 3 then { x with due := false } else { x with state := 3, cause, fenceBeat := beat, due := false, arrDue := [], seqDue := [] }) b
    let b := unitFenced b 1 cause s 0
    let b := (homePorts b s).foldl (fun b n => fenceLink b n cause) b
    let b := (b.cmds.filter fun c => onSector b c s && !(getFn b c.id.f).fenced && !resumable b c).foldl (fun b c => endEarly b c.id 0x10 0x10) b
    if allTilesFenced b then setFatal b 1 else b

/-! ### Memory and D2D ports, cores -/

/-- Fence a memory port (R611, R732): it halts, and its requests move once the halt is done. -/
def fenceMem (b : Blk) (m cause : Nat) : Blk :=
  if 16 ≤ m || memFenced b m then b
  else
    let b := modM b m fun p => { p with state := 2, halt := true }
    let b := unitFenced b 3 cause m 0
    if b.memp.all (·.state == 2) then setFatal b 0 else b

/-- Space selectors a command names. -/
def namesSpace (c : Cmd) (sp : Nat) : Bool :=
  let op := opOf c
  if isColl op || op == 0x20 || op == 0x21 || isOpen op then fSpaceA c == sp || fSpaceB c == sp
  else if isP2p op || op == 0x22 then fSpaceA c == sp else false

/-- Live commands that name a die's space end with a status. -/
def endSpace (b : Blk) (p status : Nat) : Blk :=
  (b.cmds.filter fun c => namesSpace c (p + 1) && (decide (c.phase = .accepted) || decide (c.phase = .running)) &&
    !(getFn b c.id.f).fenced).foldl (fun b c => endEarly b c.id status 0x10) b

/-- Fence a D2D port (R611): commands naming its space complete FENCED, its watches are notified FAULT. -/
def fenceD2d (b : Blk) (p cause : Nat) : Blk :=
  if 4 ≤ p || (getD2 b p).state == 2 then b
  else
    let ws := b.watches.filter fun w => w.port == p
    let b := ws.foldl (fun b w => notify (modPen b w.pen fun e => { e with waiters := e.waiters - 1 }) w 2 0) b
    let b := { b with watches := b.watches.filter fun w => w.port != p }
    let b := modD2 b p fun d => { d with state := 2, outs := [], accs := [], held := [] }
    let b := (b.t.stream.filter fun e => e.2.valid && (e.2.srcSpace == p + 1 || e.2.dstSpace == p + 1)).foldl
      (fun b e => streamError b (e.1 / 64) (e.1 % 64) 0x50) b
    unitFenced (endSpace b p 0x50) 4 cause p 0

/-- Fence a control core (R37): the spare takes its role and restarts it; fewer than two cores lose the block. -/
def fenceCore (b : Blk) (k : Nat) (cause : Nat) : Blk :=
  let x := b.cores.getD k core0
  if b.cores.length ≤ k || x.fenced then b
  else
    let b := { b with cores := b.cores.modify k fun c => { c with fenced := true, role := 0, restarting := false } }
    let b := unitFenced b 9 cause k 0
    let b := if x.role == 0 then b else
      match (List.range b.cores.length).find? fun j => let c := b.cores.getD j core0; !c.fenced && c.role == 0 with
      | some j => { b with cores := b.cores.modify j fun c => { c with role := x.role, restarting := true }, restarts := bump b.restarts 65535 }
      | none => b
    if (b.cores.filter fun c => !c.fenced).length < 2 then setFatal b 6 else b

end Sys2Proof.Machine
end

