-- ==== Sys2Proof/Machine/Receive.lean ====
section
/-!
DEFINITION. Receiving packets: sequences and acknowledgements (R349 to R351), checks against groups (R124, R128 to R130), early data in
spill (R60, R648), data of collectives and of point-to-point commands at their target, signals (R319, R463), arbitration (R602 to R608).
-/
namespace Sys2Proof.Machine

/-! ### Sequences -/

/-- The domain of a unicast resend in a multicast sequence (R368): the packet does not name it; the lowest valid domain that
holds its source and this engine. -/
def domainWith (b : Blk) (src : Nat) : Nat :=
  ((b.t.mcast.find? fun e => domValid e.2 && decide (domSelf e.2 < 64) && (List.range 64).any fun i => domMember e.2 i == src).map (·.1)).getD 0

/-- The sequence space of a packet: its source, or its source in a multicast domain (R368). -/
def srcKey (b : Blk) (p : Pkt) : Bool × Nat :=
  if (preOfPkt p).mcseq then (true, (if p.hdr.hop == 0 then fld p.hdr.path 83 72 else domainWith b p.hdr.src) * 65536 + p.hdr.src)
  else (false, p.hdr.src)

def getSrc (b : Blk) (k : Bool × Nat) : SrcSt := tget srcSt0 (if k.1 then b.fab.msrc else b.fab.src) k.2
def modSrc (b : Blk) (k : Bool × Nat) (g : SrcSt → SrcSt) : Blk :=
  if k.1 then { b with fab := { b.fab with msrc := tmod srcSt0 b.fab.msrc k.2 g } }
  else { b with fab := { b.fab with src := tmod srcSt0 b.fab.src k.2 g } }

/-- How far a sequence lies behind the highest one seen, modulo 2^32; none when it lies ahead. -/
def behind (s : SrcSt) (seq : Nat) : Option Nat :=
  match s.high with
  | none => none
  | some h => let d := (h + 2 ^ 32 - seq) % 2 ^ 32; if d < 2 ^ 31 then some d else none

/-- R350: the sequence has been applied already, or lies behind the window of 256. -/
def applied (s : SrcSt) (seq : Nat) : Bool :=
  s.seen.contains seq || (match behind s seq with | some d => decide (256 ≤ d) | none => false)

/-- The sequence is applied. -/
def mark (b : Blk) (k : Bool × Nat) (seq : Nat) : Blk :=
  modSrc b k fun s =>
    let high := if (behind s seq).isSome then s.high else some seq
    let s := { s with high }
    { s with seen := seq :: s.seen.filter fun x => match behind s x with | some d => decide (d < 256) | none => true }

/-- An acknowledgement is due (R350, R351). -/
def ackDue (b : Blk) (k : Bool × Nat) (seq : Nat) : Blk :=
  modSrc b k fun s => { s with due := if s.due.contains seq then s.due else s.due ++ [seq] }

/-- A packet's effect is visible: it is marked and acknowledged. -/
def takeSeq (b : Blk) (p : Pkt) : Blk :=
  let q := preOfPkt p
  if isSeqType q.type then ackDue (mark b (srcKey b p) q.e2e) (srcKey b p) q.e2e else b

/-! ### Refusals -/

/-- The hold reply of R61: E2E_SEQ names the refused packet. -/
def holdReply (b : Blk) (p : Pkt) : Blk :=
  let q := preOfPkt p
  sendBare b p.hdr.src 1 { pre0 with type := 7, mcseq := q.mcseq, gid := if q.mcseq then (srcKey b p).2 / 65536 else q.gid, gen := q.gen, cseq := q.cseq
                                     srcRank := q.srcRank, e2e := q.e2e } []

/-- An ABORT_NOTICE to one engine about a command (R128, R463, R605). -/
def abortTo (b : Blk) (ep : Nat) (q : Prefix) (rank status : Nat) : Blk :=
  sendBare b ep 0 { pre0 with type := 8, gid := q.gid, gen := q.gen, cseq := q.cseq, srcRank := rank, rosterDig := q.rosterDig, spec := status } []

/-! ### Point-to-point access at its target (R81, R128) -/

/-- What a target acts on for a point-to-point packet: the target function, REMOTE, its space, LEN, the chunk size, format, operator and
tag: from the command where it was issued at this engine, else what the packet does not carry is a free value. -/
structure P2pIn where
  fn : Nat
  remote : Nat
  space : Nat
  len : Nat
  chunk : Nat
  fmt : Nat
  oper : Nat
  tag : Nat
  rank : Nat
deriving DecidableEq, Repr

def p2pIn (b : Blk) (g : Group) (p : Pkt) : P2pIn :=
  let q := preOfPkt p
  let fnAt := fun r => slotFn (tget 0 b.t.roster (g.base + r))
  match b.cmds.find? fun c => isP2p (opOf c) && fGid c == q.gid && fGen c == q.gen && fCseq c == q.cseq && c.rank == q.srcRank &&
      p.hdr.src == selfEp b with
  | some c => { fn := fnAt (fTarget c), remote := fRemote c, space := fSpaceB c, len := p2pBytes c, chunk := chunkOf b c, fmt := fFormat c
                oper := fOper c, tag := tagOf c, rank := fTarget c }
  | none =>
    let v := fun k => Config.p2pField k q.gid q.gen q.cseq q.srcRank
    let loc := g.locs.getD (v 7 % max 1 g.locs.length) (0, 0)
    { fn := loc.1, remote := v 0 % 2 ^ 57, space := v 1 % 5, len := max 1 (v 2 % 2 ^ 32), chunk := 2 ^ (12 + v 3 % 11)
      fmt := [0, 1, 8].getD (v 4 % 3) 0, oper := [0, 2, 3].getD (v 5 % 3) 0, tag := v 6 % 2 ^ 32, rank := loc.2 }

/-- The finding of R128 at the target: a status for the issuer, or none when the access is accepted. -/
def p2pFinding (b : Blk) (g : Group) (p : Pkt) (x : P2pIn) : Option Nat :=
  let q := preOfPkt p
  if g.state == 2 then some (breakStatus g.brokenCause)
  else if g.state != 1 || g.n ≤ q.srcRank || slotEp (tget 0 b.t.roster (g.base + q.srcRank)) != p.hdr.src then some 0x31
  else if !(g.locs.any fun l => l.1 == x.fn) || !d2dOk b x.fn x.space then some 0x31
  else none

/-- A refusal at the target: acknowledged, and reported to the issuer (R128). -/
def p2pRefuse (b : Blk) (p : Pkt) (rank status : Nat) : Blk := abortTo (takeSeq b p) p.hdr.src (preOfPkt p) rank status

/-- The bytes of a packet that lie in the data of chunk transfers, as (offset in the command's bytes, bytes): tails are left out. -/
def dataRuns (x : P2pIn) (off : Nat) (bs : List Byte) : List (Nat × List Byte) :=
  let C := x.chunk
  (List.range ((off + bs.length) / (C + 20) + 1 - off / (C + 20))).filterMap fun i =>
    let k := off / (C + 20) + i
    let lo := max off (chunkOff C k)
    let hi := min (off + bs.length) (chunkOff C k + min C (x.len - k * C))
    if lo < hi then some (k * C + (lo - chunkOff C k), (bs.drop (lo - off)).take (hi - lo)) else none

/-- End-to-end encryption is removed at the arrival port (R643); a transfer recomputed under arbitration is ATTEMPT 1 (R644). -/
def openPkt (b : Blk) (p : Pkt) (rank attempt : Nat) : List Byte :=
  dataOfPkt (if p.hdr.src == selfEp b then p else cryptPkt b rank attempt p)

/-! ### Early data (R60, R648) -/

/-- The lowest run of free 4 KiB units of a function's spill region. -/
def spillRun (n : Fn) (k : Nat) : Option Nat :=
  let cap := 2 ^ n.spLog2 / 4096
  let fits := fun u => decide (u + k ≤ cap) && n.spill.all fun s => decide (u + k ≤ s.unit) || decide (s.unit + s.units ≤ u)
  leastOf ((0 :: n.spill.map fun s => s.unit + s.units).filter fits)

/-- A spill unit as it stands in memory (R646, R648): ciphertext as long as its bytes. -/
def sealUnit (f key unit : Nat) (bs : List Byte) : List Byte := (List.range bs.length).map fun i => (Config.xts f key unit bs).getD i 0

/-- Spill a packet: its units, encrypted under the function's key, are written to the region. -/
def spillPkt (b : Blk) (f : Nat) (p : Pkt) : Option Blk :=
  let n := getFn b f
  let bs := prefixBytes (preOfPkt p) ++ dataOfPkt p
  let k := max 1 (cdiv bs.length 4096)
  if !n.spEn || n.fenced then none
  else (spillRun n k).map fun u =>
    let b := (List.range k).foldl (fun b i =>
      let a := n.spBase + 4096 * (u + i)
      fnStore b f 0 a (sealUnit f (n.epoch * 2 ^ 32 + n.keyEpoch) (a / 4096) (slice bs (4096 * i) 4096))) b
    modFn b f fun n => { n with spill := n.spill ++ [{ unit := u, units := k, epoch := n.keyEpoch, pkt := p }] }

/-! ### Checks common to packets of commands and notices -/

/-- A local command that a packet belongs to: accepted, whatever its phase. -/
def cmdFor (b : Blk) (q : Prefix) (rank? : Option Nat) : List Cmd :=
  b.cmds.filter fun c => namesGroup c && fGid c == q.gid && fGen c == q.gen && fCseq c == q.cseq && !decide (c.phase = .taken) &&
    (match rank? with | some r => c.rank == r | none => true)

def hasEnded (b : Blk) (q : Prefix) : Bool := b.fab.ended.contains (q.gid, q.gen, q.cseq)

/-- A receiver whose roster digest differs (R124): R59, and the generation breaks with cause MISMATCH. -/
def mismatchBreak (b : Blk) (h : Nat) (p : Pkt) : Blk :=
  let q := preOfPkt p
  let b := (cmdFor b q none).foldl (fun b c => endEarly b c.id 0x61 0x61) b
  detectBreak b h 3 [q.srcRank]

/-- Take a packet off those delivered locally (a packet that has not come by a cell is its port's own). -/
def taken (b : Blk) (port : Nat) (p : Pkt) : Blk := { b with fab := { b.fab with arrived := b.fab.arrived.erase (port, p) } }

/-- R348: a unicast packet for another endpoint is discarded, with a MISROUTE event. -/
def misrouted (b : Blk) (p : Pkt) : Bool := p.hdr.hop != 0 && p.hdr.dst != selfEp b

def misroute (b : Blk) (port : Nat) (p : Pkt) : Blk :=
  adminEvent b 0x23 (port % 64) (mk [(31, 16, p.hdr.src), (15, 0, p.hdr.dst)]) 0

/-- A packet in place whose transfer is not verified yet, or under arbitration: not acknowledged before that ends (R602). -/
def unsettled (b : Blk) (p : Pkt) : Bool :=
  let k := srcKey b p
  let key := fun (src : Nat) (dom : Option Nat) => match dom with | some d => (true, d * 65536 + src) | none => (false, src)
  (b.fab.unver.any fun u => key u.src u.dom == k && u.seq == (preOfPkt p).e2e) ||
  (b.fab.arbs.any fun a => key a.src a.dom == k && a.seq == (preOfPkt p).e2e)

/-- A multicast packet is handled by type only as the copy that MULTICAST delivers here (R367). -/
def ownCopy (b : Blk) (p : Pkt) : Bool :=
  p.hdr.hop != 0 || fld p.hdr.path 63 0 == 2 ^ domSelf (domOf b (fld p.hdr.path 83 72))

/-- A packet of a type, with its sequence checked: a duplicate is acknowledged again (R350). Data taken back from spill (port 64) is new. -/
def onPkt (b : Blk) (port : Nat) (p : Pkt) (type : Nat) (k : Blk → Blk) : Blk :=
  let q := preOfPkt p
  if !isCollPkt p || q.type != type || !ownCopy b p then b
  else
    let b := taken b port p
    if misrouted b p then misroute b port p
    else if isSeqType type && type != 3 && port != 64 && applied (getSrc b (srcKey b p)) q.e2e then
      if unsettled b p then b else ackDue b (srcKey b p) q.e2e
    else k b

/-- A packet of a group's current generation goes on; older and newer ones are settled by R128 to R130. -/
def onGen (b : Blk) (p : Pkt) (k : Nat → Group → Blk) : Blk :=
  let q := preOfPkt p
  match findGroup b q.gid with
  | none => holdReply b p
  | some (h, g) =>
    if g.gen < q.gen then holdReply b p
    else if q.gen < g.gen then
      if tb q.cseq 47 && (q.type == 1 || q.type == 2 || q.type == 3 || q.type == 5)
      then p2pRefuse b p ((g.locs.headD (0, 0)).2) 0x22 else takeSeq b p
    else if q.rosterDig != g.digest then takeSeq (mismatchBreak b h p) p
    else k h g

/-! ### Signals (R319, R460 to R463) -/

def countOf (b : Blk) (src : Nat) (q : Prefix) : Nat :=
  match b.fab.applied.find? fun a => a.src == src && a.gid == q.gid && a.gen == q.gen && a.cseq == q.cseq && a.rank == q.srcRank with
  | some a => a.count
  | none => 0

def bumpApplied (b : Blk) (src : Nat) (q : Prefix) (n : Nat) : Blk :=
  let rest := b.fab.applied.filter fun a => !(a.src == src && a.gid == q.gid && a.gen == q.gen && a.cseq == q.cseq && a.rank == q.srcRank)
  { b with fab := { b.fab with applied := rest ++
      [{ src, gid := q.gid, gen := q.gen, cseq := q.cseq, rank := q.srcRank, count := countOf b src q + n }] } }

/-- Apply a signal at its target function, or refuse it for an unmapped pennant (R463, R616). -/
def applySignal (b : Blk) (g : Group) (p : Pkt) : Blk :=
  let q := preOfPkt p
  let x := p2pIn b g p
  let issuer := slotFn (tget 0 b.t.roster (g.base + q.srcRank))
  let vid := fld q.spec 47 32
  let b := takeSeq b p
  match (if (getFn b x.fn).fenced then none else penIdx b x.fn vid) with
  | some pen => penOp b pen (tb q.spec 48) (BitVec.ofNat 64 (ofLe (dataOfPkt p))) p.hdr.src issuer 3 x.tag
  | none =>
    let b := event b x.fn 0x0B 0 0 vid (mk [(63, 48, p.hdr.src), (47, 39, issuer), (31, 0, x.tag)])
    abortTo b p.hdr.src q x.rank 0x31

/-- Signals whose data are all visible are applied. -/
def releaseSignals (b : Blk) (g : Group) (src : Nat) (q : Prefix) : Blk :=
  let ready := fun (h : HeldSig) =>
    let r := preOfPkt h.pkt
    h.pkt.hdr.src == src && r.gid == q.gid && r.gen == q.gen && r.cseq == q.cseq && r.srcRank == q.srcRank &&
      decide (fld r.spec 31 0 ≤ countOf b src q)
  let now := b.fab.heldSigs.filter ready
  let b := { b with fab := { b.fab with heldSigs := b.fab.heldSigs.filter fun h => !ready h } }
  now.foldl (fun b h => applySignal b g h.pkt) b

/-! ### Chunk transfers and their tails (R602) -/

def sameTransfer (u : Unver) (src : Nat) (q : Prefix) : Bool :=
  u.src == src && u.gid == q.gid && u.gen == q.gen && u.cseq == q.cseq && u.rank == q.srcRank && u.step == q.step

def holdTail (b : Blk) (p : Pkt) : Blk :=
  let q := preOfPkt p
  let k := srcKey b p
  { mark b k q.e2e with fab := { (mark b k q.e2e).fab with unver := b.fab.unver ++
      [{ src := p.hdr.src, dom := if k.1 then some (k.2 / 65536) else none, seq := q.e2e, gid := q.gid, gen := q.gen, cseq := q.cseq
         rank := q.srcRank, step := q.step, off := preOff q }] } }

/-- The packets of a transfer are acknowledged once its checks have passed: all up to the packet with the tail. -/
def passTail (b : Blk) (p : Pkt) : Blk :=
  let q := preOfPkt p
  let mine := b.fab.unver.filter fun u => sameTransfer u p.hdr.src q && decide (u.off ≤ preOff q)
  let b := { b with fab := { b.fab with unver := b.fab.unver.filter fun u => !(sameTransfer u p.hdr.src q && decide (u.off ≤ preOff q)) } }
  let b := mine.foldl (fun b u => ackDue b (match u.dom with | some d => (true, d * 65536 + u.src) | none => (false, u.src)) u.seq) b
  bumpApplied (takeSeq b p) p.hdr.src q (mine.length + 1)

def sameArb (a : Arb) (src : Nat) (q : Prefix) : Bool :=
  a.src == src && a.gid == q.gid && a.gen == q.gen && a.cseq == q.cseq && a.rank == q.srcRank && a.step == q.step
def findArb (b : Blk) (src : Nat) (q : Prefix) : Option Arb :=
  b.fab.arbs.find? fun a => sameArb a src q && decide (a.off ≤ preOff q)
def dropArb (b : Blk) (a : Arb) : Blk := { b with fab := { b.fab with arbs := b.fab.arbs.erase a } }

/-- A tile that records three TRANSIENT outcomes within 1,000 beats is fenced (R608). -/
def transient (b : Blk) (t : Nat) : Blk :=
  let recent := beatNow b :: (getTile b t).transBeats.filter fun x => decide (beatNow b < x + 1000)
  let b := modTile b t fun x => { x with transient := bump x.transient 65535, transBeats := recent }
  if 3 ≤ recent.length then fenceTile b t 10 else b

/-- The tile that receives a command's transfers: the lowest of its hoist's, else the lowest in service. -/
def recvTile (b : Blk) (c : Option Cmd) : Nat :=
  let mask := match c.bind (·.handle) with
    | some h => (getHoist b h).tilesLo + 2 ^ 64 * (getHoist b h).tilesHi
    | none => 0
  ((List.range 128).find? fun t => tileUp b t && (mask == 0 || tb mask t)).getD 0

/-- A mismatch: arbitration begins with a HOLD that asks for a recomputation (R602). -/
def beginArb (b : Blk) (p : Pkt) (c : Option Cmd) (fn tag off C : Nat) (data : List Byte) (check : Bool) (observed : Nat) : Blk :=
  let q := preOfPkt p
  let t := recvTile b c
  let tail := data.drop (data.length - 20)
  let k := srcKey b p
  let b := mark b k q.e2e
  let b := modTile b t fun x => { x with arbRx := bump x.arbRx 65535 }
  let b := { b with fab := { b.fab with arbs := b.fab.arbs ++
    [{ src := p.hdr.src, dom := if k.1 then some (k.2 / 65536) else none, gid := q.gid, gen := q.gen, cseq := q.cseq, rank := q.srcRank
       step := q.step, off, seq := q.e2e, digest := leAt tail 0 8, fn, tag, chunk := off / max 1 (C + 20), tile := t, check
       expected := if check then leAt tail 8 8 else leAt tail 0 8, observed, second := false }] } }
  sendBare b p.hdr.src 1 { pre0 with
    type := 7, mcseq := q.mcseq, gid := q.gid, gen := q.gen, cseq := q.cseq, srcRank := q.srcRank, step := q.step, e2e := q.e2e
    spec := mk [(7, 0, 1), (95, 32, off)] } []

/-- The sequences of both transfers are acknowledged (R605). -/
def ackArb (b : Blk) (a : Arb) (p : Pkt) : Blk :=
  let k := match a.dom with | some d => (true, d * 65536 + a.src) | none => (false, a.src)
  passTail (ackDue b k a.seq) p

/-- Outcomes 3 and 4: the values are recorded, every member completes with the status (R605, R607). -/
def failArb (b : Blk) (a : Arb) (q : Prefix) : Blk :=
  let out := if a.check then 3 else 4
  let st := if a.check then 0x40 else 0x41
  let b := arbEvent b a.fn out a.step a.tag a.src a.rank 0 a.chunk
  let info := mk [(19, 19, b2n (!a.check)), (18, 0, a.chunk)]
  let b := event b a.fn 0x11 0 info a.tag a.expected
  let b := event b a.fn 0x12 0 info a.tag a.observed
  let b := dropArb b a
  let b := { b with fab := { b.fab with unver := b.fab.unver.filter fun u => !sameTransfer u a.src q } }
  if tb a.cseq 47 then abortTo b a.src q 0 st
  else
    let cs := cmdFor b q none
    let b := if cs.isEmpty then b else (cs.take 1).foldl (fun b c => abortNotices b c st) b
    cs.foldl (fun b c => if decide (c.phase = .ended) then b else unstage (stopCmd b c.id st) c.id) b

/-- The recomputed transfer, or any transfer under arbitration: pass, or the checker's self-test is next (R604). -/
def arbStep (b : Blk) (a : Arb) (p : Pkt) (data : List Byte) (tail : TailVerdict) : Blk :=
  let again := leAt (data.drop (data.length - 20)) 0 8
  let upd := fun (check : Bool) (obs : Nat) => { b with fab := { b.fab with arbs := b.fab.arbs.map fun x => if x = a then
    { a with second := true, check, observed := obs
             expected := if check then leAt (data.drop (data.length - 20)) 8 8 else again } else x } }
  match tail with
  | .inner => holdTail b p
  | .good =>
    let out := if again == a.digest then 2 else 0
    let b := arbEvent (dropArb (ackArb b a p) a) a.fn out a.step a.tag a.src a.rank 0 a.chunk
    if out == 2 then transient b a.tile else b
  | .digestMismatch o => holdTail (upd false o) p
  | .checkMismatch o => holdTail (upd true o) p

/-- A packet of a chunk transfer whose data is in place: its tail decides when it is acknowledged. -/
def settleTail (b : Blk) (p : Pkt) (c : Option Cmd) (fn tag C : Nat) (data : List Byte) (tail : TailVerdict) : Blk :=
  let q := preOfPkt p
  match findArb b p.hdr.src q with
  | some a => if q.resend then arbStep b a p data tail else match tail with
    | .good => passTail b p
    | _ => holdTail b p
  | none =>
    let off := ((b.fab.unver.filter fun u => sameTransfer u p.hdr.src q && decide (u.off ≤ preOff q)).map (·.off)).foldl min (preOff q)
    match tail with
    | .inner => holdTail b p
    | .good => passTail b p
    | .digestMismatch o => beginArb b p c fn tag off C data false o
    | .checkMismatch o => beginArb b p c fn tag off C data true o

end Sys2Proof.Machine
end

