-- ==== Sys2Proof/Machine/Packets.lean ====
section
/-!
DEFINITION. The packets of commands and notices at the engine they reach (R318, R319, R349 to R353, R602 to R606), and resends.
-/
namespace Sys2Proof.Machine

/-! ### Halyard transfers in assembly (R396) -/

/-- The transfer in assembly at an entry, its prefix once cell 0 has come. -/
def rxPrefix (x : HRx) : Option Prefix := (x.cells.find? fun c => c.1 == 0).map fun c => prefixOf c.2

/-- An assembled transfer is delivered as one unit (R321, R396): LEN bytes, or those below the first DATA packet that took over. -/
def tryAssemble (b : Blk) (x : HRx) : Blk :=
  match rxPrefix x with
  | none => b
  | some pre =>
    let n := match x.cut with | some c => min c (preLen pre) | none => preLen pre
    let need := cdiv n 56
    if (List.range need).all fun k => x.cells.any fun c => c.1 == k + 1 then
      let data := ((List.range need).flatMap fun k => ((x.cells.find? fun c => c.1 == k + 1).map fun c => c.2.take 56).getD []).take n
      let e := getHaly b x.idx
      let h : RHdr := { net := 0, cls := 0, hop := 1, src := e.originEp, dst := selfEp b, pseq := 0, path := 63 }
      let b := { b with fab := { b.fab with halyRx := b.fab.halyRx.filter fun y => y.idx != x.idx } }
      arrive b 63 { hdr := h, body := .coll { pre with spec := specLO n (preOff pre) } data }
    else b

/-- DATA packets that continue a halyard transfer cut it where they begin (R396). -/
def cutAssembly (b : Blk) (p : Pkt) : Blk :=
  let q := preOfPkt p
  let hit := fun (x : HRx) => match rxPrefix x with
    | some r => r.gid == q.gid && r.gen == q.gen && r.cseq == q.cseq && r.srcRank == q.srcRank && r.step == q.step &&
        decide (preOff r ≤ preOff q) && decide (preOff q < preOff r + preLen r)
    | none => false
  let upd := fun (x : HRx) =>
    let at0 := match rxPrefix x with | some r => preOff q - preOff r | none => 0
    { x with cut := some (match x.cut with | some c => min c at0 | none => at0) }
  let xs := (b.fab.halyRx.filter hit).map upd
  let b := { b with fab := { b.fab with halyRx := b.fab.halyRx.map fun x => if hit x then upd x else x } }
  xs.foldl tryAssemble b

/-! ### DATA -/

/-- Bytes of a point-to-point transfer are written to REMOTE; an address without a kept translation is asked for (R81, R729). -/
def writeRemote (b : Blk) (p : Pkt) (x : P2pIn) (off : Nat) (bs : List Byte) : Blk :=
  let q := preOfPkt p
  (dataRuns x off bs).foldl (fun b (o, r) =>
    let va := x.remote + o
    let b := if x.space != 0 then b else (cutsOf va r.length).foldl (fun b c =>
      needXl b x.fn c.1 true (.remote p.hdr.src q.gid q.gen q.cseq q.srcRank c.1)) b
    fnStore b x.fn x.space va r) b

/-- A packet under a transfer's arbitration is ATTEMPT 1 (R644). -/
def attemptOf (b : Blk) (p : Pkt) : Nat := b2n ((preOfPkt p).resend && (findArb b p.hdr.src (preOfPkt p)).isSome)

/-- DATA of a PUT or PUT_SIGNAL at its target: checked, written, acknowledged; signals behind it are released (R128, R319). -/
def p2pData (b : Blk) (g : Group) (p : Pkt) (tail : TailVerdict) : Blk :=
  let q := preOfPkt p
  let x := p2pIn b g p
  match p2pFinding b g p x with
  | some st => p2pRefuse b p x.rank st
  | none =>
    let bs := openPkt b p x.rank (attemptOf b p)
    let b := writeRemote b p x (preOff q) bs
    releaseSignals (settleTail b p none x.fn x.tag x.chunk bs tail) g p.hdr.src q

/-- A descriptor or schedule digest that differs from a local command's own (R59, R153). -/
def digestDiffers (b : Blk) (q : Prefix) (c : Cmd) : Bool :=
  descDigest c != q.descDig || (match c.handle with | some h => schedDigest (getHoist b h) != q.schedDig | none => false)

/-- R59: the command completes REJECTED_FORMAT and every other member is told. -/
def rejectFormat (b : Blk) (c : Cmd) : Blk :=
  let b := if hasPeers c || decide (c.phase = .ended) then b else abortNotices b c 0x61
  endEarly b c.id 0x61 0x61

/-- A packet of a command that no local member has accepted: into spill, or refused (R60, R61). -/
def early (b : Blk) (g : Group) (p : Pkt) : Blk :=
  match g.locs.findSome? fun l => spillPkt b l.1 p with
  | some b => takeSeq b p
  | none => holdReply b p

/-- DST_RANK of a transfer to a local command (R644): 0x3FFF for multicast; the lowest local rank for a HIER hoist, whose steps between
engines go to it. -/
def dstRank (b : Blk) (g : Group) (c : Cmd) (q : Prefix) : Nat :=
  if q.mcseq then 0x3FFF
  else match c.handle with
  | some h => if (getHoist b h).alg == 5 then (g.locs.map (·.2)).foldl min c.rank else c.rank
  | none => c.rank

/-- DATA of a collective, DISPATCH or COMBINE. -/
def collData (b : Blk) (g : Group) (p : Pkt) (tail : TailVerdict) : Blk :=
  let q := preOfPkt p
  let cs := cmdFor b q none
  let live := cs.filter fun c => !decide (c.phase = .ended)
  if g.state != 1 then takeSeq b p
  else match live with
  | [] => if !cs.isEmpty || hasEnded b q then takeSeq b p else early b g p
  | c :: _ =>
    match live.filter (digestDiffers b q) with
    | [] =>
      let bs := openPkt b p (dstRank b g c q) (attemptOf b p)
      let b := modCmd b c.id fun c => { c with recvd := c.recvd ++ [(q.step, q.srcRank, preOff q, bs.length)] }
      let b := modFn (cutAssembly b p) c.id.f fun n => { n with moved := true }
      settleTail b p (some c) c.id.f (tagOf c) (chunkOf b c) bs tail
    | bad => takeSeq (bad.foldl rejectFormat b) p

/-- DATA: a point-to-point command's has bit 47 of CSEQ set (R56). -/
def execData (port : Nat) (p : Pkt) (tail : TailVerdict) (s : State) : Host.Outcome State Fault Refusal :=
  act s fun b _ => onPkt b port p 1 fun b => onGen b p fun _ g =>
    if tb (preOfPkt p).cseq 47 then p2pData b g p tail else collData b g p tail

/-! ### SIGNAL -/

/-- A signal is applied behind the data it announces, or held for them (R319, R461, R463). -/
def signalFx (b : Blk) (port : Nat) (g : Group) (p : Pkt) : Blk :=
  let q := preOfPkt p
  let x := p2pIn b g p
  match p2pFinding b g p { x with space := 0 } with
  | some st => p2pRefuse b p x.rank st
  | none =>
    if fld q.spec 31 0 ≤ countOf b p.hdr.src q then applySignal b g p
    else if b.fab.heldSigs.any fun h => h.pkt.hdr.src == p.hdr.src && (preOfPkt h.pkt).e2e == q.e2e then b
    else { b with fab := { b.fab with heldSigs := b.fab.heldSigs ++ [{ port, pkt := p }] } }

def execSignal (port : Nat) (p : Pkt) (s : State) : Host.Outcome State Fault Refusal :=
  act s fun b _ => onPkt b port p 2 fun b => onGen b p fun _ g => signalFx b port g p

/-! ### GET_REQ -/

/-- A GET_RESP: its transfer starts at the offset of its request (R318, R353). -/
def sendResp (b : Blk) (p : Pkt) (rank : Nat) (data : List Byte) : Blk :=
  let q := preOfPkt p
  (chunksOf maxData (plainTail data)).zipIdx.foldl (fun b (x, i) =>
    sendBare b p.hdr.src 1 { q with type := 4, sat := false, resend := false, mcseq := false, srcRank := rank, e2e := 0
                                    spec := specLO x.length (preOff q + i * maxData) } x) b

/-- The request has been served: its response is its acknowledgement (R353). -/
def served (b : Blk) (p : Pkt) : Blk := mark b (srcKey b p) (preOfPkt p).e2e

/-- A GET's request at its target (R81, R128). -/
def p2pServe (b : Blk) (m : Tab Byte) (g : Group) (p : Pkt) (fault : Option AccFault) : Blk :=
  let q := preOfPkt p
  let x := p2pIn b g p
  match p2pFinding b g p x, fault with
  | some st, _ => p2pRefuse b p x.rank st
  | none, some a => p2pRefuse b p x.rank (faultStatus a.kind)
  | none, none => sendResp (served b p) p x.rank (fnRead b m x.fn x.space (x.remote + preOff q) (preLen q))

/-- The stream that a shard request is for: a live entry of its generation and CSEQ (R416). -/
def streamFor (b : Blk) (q : Prefix) : Option (Nat × Stream) :=
  b.t.stream.find? fun e => e.2.valid && e.2.sharded && e.2.state != 4 && e.2.gid == q.gid && e.2.gen == q.gen && e.2.cseq == q.cseq

/-- Bytes served to a rank (R416): the highest end, requests served again counting once. -/
def noteServed (b : Blk) (f n rank hi : Nat) : Blk :=
  let b := modStr b f n fun s =>
    let old := ((s.served.find? fun e => e.1 == rank).map (·.2)).getD 0
    { s with served := (s.served.filter fun e => e.1 != rank) ++ [(rank, max old hi)] }
  let s := getStr b f n
  let all := (List.range (strMembers b s)).all fun r => r == s.rank || s.served.any fun e => e.1 == r && decide (strZ s ≤ e.2)
  streamTryEnd (if all then modStr b f n fun s => { s with servedAll := true } else b) f n

/-- A shard request at its holder (R415, R416, R425, R426): a descriptor mismatch or a failing access ends or halts the holder's stream. -/
def shardServe (b : Blk) (m : Tab Byte) (port f n : Nat) (s : Stream) (p : Pkt) (fault : Option AccFault) : Blk :=
  let q := preOfPkt p
  let dig := dig32 ([0x40, 1, 0, 0] ++ leBytes s.len0 4 ++ s.counts.flatMap (leBytes · 2))
  let lo := s.rank * strZ s + preOff q
  if q.descDig != dig then streamError (takeSeq b p) f n 0x61
  else if s.state == 2 then holdReply b p
  else match fault with
  | some a => holdReply (if isPage a.kind then streamFault b f n lo a.addr else streamError b f n 0x31) p
  | none =>
    let needs := if s.srcSpace == 0 then (pieceRuns s (preLen q) (preOff q) (preLen q)).flatMap fun (y, a, k) =>
      (cutsOf a k).map fun c => (y + (c.1 - a), c.1, false) else []
    match missingXl b f needs with
    | (_, a, _) :: _ => arrive (needXl b f a false (.stream f n a)) port p
    | [] => noteServed (sendResp (served b p) p s.rank (pieceData b m f s (preOff q) (preLen q))) f n q.srcRank (preOff q + preLen q)

/-- A COMBINE's request for a row at its owner (R298). -/
def rowServe (b : Blk) (m : Tab Byte) (c : Cmd) (p : Pkt) (fault : Option AccFault) : Blk :=
  let q := preOfPkt p
  if digestDiffers b q c then rejectFormat (takeSeq b p) c
  else match fault with
  | some a => accessEnd (takeSeq b p) c a
  | none =>
    let key := (0, q.srcRank, preOff q, preLen q)
    let b := sendResp (served b p) p c.rank (fnRead b m c.id.f (fSpaceA c) (fYout c + preOff q) (preLen q))
    if c.recvd.contains key then b
    else finishCmd (modCmd b c.id fun d => { d with recvd := d.recvd ++ [key], acked := d.acked + 1 }) c.id

def serveFx (b : Blk) (m : Tab Byte) (port : Nat) (g : Group) (p : Pkt) (fault : Option AccFault) : Blk :=
  let q := preOfPkt p
  match (cmdFor b q none).find? fun c => opOf c == 0x21 && decide (c.phase = .running) with
  | some c => rowServe b m c p fault
  | none =>
    match streamFor b q with
    | some (k, s) => shardServe b m port (k / 64) (k % 64) s p fault
    | none => if tb q.cseq 47 then p2pServe b m g p fault else if g.state != 1 then takeSeq b p else holdReply b p

def execGetReq (port : Nat) (p : Pkt) (fault : Option AccFault) (s : State) : Host.Outcome State Fault Refusal :=
  act s fun b m => onPkt b port p 3 fun b => onGen b p fun _ g => serveFx b m port g p fault

/-! ### Sequences at their source -/

/-- A sequenced packet is settled: it is kept no longer, and those that wait may leave. -/
def forget (b : Blk) (ep seq : Nat) : Blk :=
  flush (modDst b ep fun d => { d with unacked := d.unacked.filter fun u => u.seq != seq }) ep

/-- The outstanding GET_REQ of a command or stream for an offset. -/
def findReq (b : Blk) (ep : Nat) (q : Prefix) (off : Nat) : Option Unacked :=
  (getDst b ep).unacked.find? fun u => let r := preOfPkt u.pkt
    r.type == 3 && r.gid == q.gid && r.gen == q.gen && r.cseq == q.cseq && preOff r == off

/-! ### GET_RESP -/

/-- GET data at the issuer: the bytes of a request's first complete response, in order (R353). -/
def getData (b : Blk) (c : Cmd) (p : Pkt) (tail : TailVerdict) : Blk :=
  let q := preOfPkt p
  let C := chunkOf b c
  let i := preOff q / C
  let j := preOff q % C
  let n := min C (fLen c - i * C)
  let bs := dataOfPkt p
  if c.gotten.getD i 0 != j || c.chunks ≤ i || n + 20 ≤ c.gotten.getD i 0 then b
  else
    let b := spaceStore b c.id.f (.cmd c.id) (fSpaceA c) (fLocal c + i * C + j) (bs.take (n - j))
    let b := modFn b c.id.f fun x => { x with moved := true }
    if j + bs.length < n + 20 then modCmd b c.id fun c => { c with gotten := c.gotten.set i (j + bs.length) }
    else match tail with
    | .good =>
      let got := c.gotten.set i (n + 20)
      let whole := fun k => decide (min C (fLen c - k * C) + 20 ≤ got.getD k 0)
      let b := modCmd b c.id fun c => { c with gotten := got, acked := c.acked + 1, ready := ((List.range c.chunks).takeWhile whole).length }
      let b := match findReq b p.hdr.src q (i * C) with | some u => forget b p.hdr.src u.seq | none => b
      finishCmd b c.id
    | _ => modCmd b c.id fun c => { c with gotten := c.gotten.set i 0 }

/-- Data of a remote shard at a member (R415): written to its slot; the piece is delivered when it is whole. -/
def shardData (b : Blk) (f n : Nat) (s : Stream) (p : Pkt) (tail : TailVerdict) : Blk :=
  let q := preOfPkt p
  let x := s.delivered
  let z := max 1 (strZ s)
  let bs := dataOfPkt p
  if s.state != 1 || s.staged == 0 || q.srcRank != x / z || preOff q != x % z + s.got then b
  else
    let b := spaceStore b f (.stream f n) s.dstSpace (dstAddr s (x + s.got)) (bs.take (s.staged - s.got))
    let got := s.got + bs.length
    if got < s.staged + 20 then modStr b f n fun s => { s with got }
    else match tail with
    | .good =>
      let b := modStr b f n fun s => { s with delivered := x + s.staged, staged := 0, got := 0 }
      let b := modFn b f fun n => { n with moved := true }
      match findReq b p.hdr.src q (x % z) with | some u => forget b p.hdr.src u.seq | none => b
    | _ => modStr b f n fun s => { s with got := 0 }

def respFx (b : Blk) (p : Pkt) (tail : TailVerdict) : Blk :=
  let q := preOfPkt p
  match b.cmds.find? fun c => opOf c == 0x31 && decide (c.phase = .running) && fGid c == q.gid && fGen c == q.gen && fCseq c == q.cseq &&
      fTarget c == q.srcRank with
  | some c => getData b c p tail
  | none =>
    match streamFor b q with
    | some (k, s) => shardData b (k / 64) (k % 64) s p tail
    | none => match findReq b p.hdr.src q (preOff q) with
      | some u => if tail = .inner then b else forget b p.hdr.src u.seq
      | none => b

/-- GET_RESP: a digest that fails leaves the request unanswered, and it is served again (R353, R602). -/
def execGetResp (port : Nat) (p : Pkt) (tail : TailVerdict) (s : State) : Host.Outcome State Fault Refusal :=
  act s fun b _ => onPkt b port p 4 fun b => respFx b p tail

/-! ### ATOMIC (R84, R209) -/

/-- One update of an element: ADD with one rounding, or saturating for INT32; MAX and MIN by R193. -/
def atomicElem (fmt oper old v : Nat) : Nat :=
  let x := decodeNum fmt old
  let y := decodeNum fmt v
  if oper == 0 then match x, y with
    | .fp a, .fp c => (encodeNum fmt (.fp (addExact a c))).1
    | .int a, .int c => (encodeNum fmt (.int (a + c))).1
    | _, _ => old
  else (encodeNum fmt (combine fmt oper ⟨x, 0, false⟩ ⟨y, 0, false⟩).1.v).1

def atomicRun (m : Tab Byte) (x : P2pIn) (b : Blk) (o : Nat) (bs : List Byte) : Blk :=
  let w := max 1 (elemBits x.fmt / 8)
  (chunksOf w bs).zipIdx.foldl (fun b (e, i) =>
    let va := x.remote + o + i * w
    let k := fnKey b x.fn x.space va
    -- bytes that this packet has made visible already are the current ones
    let cur := ofLe (readMem (applyStores m b.stores) k w)
    fnStore b x.fn x.space va (leBytes (atomicElem x.fmt x.oper cur (ofLe e)) w)) b

def atomicApply (m : Tab Byte) (x : P2pIn) (attempt : Nat) (b : Blk) (p : Pkt) : Blk :=
  (dataRuns x (preOff (preOfPkt p)) (openPkt b p x.rank attempt)).foldl (fun b (o, r) => atomicRun m x b o r) b

/-- The elements of a chunk transfer are applied once its tail has passed (R602). -/
def atomicFx (b : Blk) (m : Tab Byte) (g : Group) (p : Pkt) (fault : Option AccFault) (tail : TailVerdict) : Blk :=
  let q := preOfPkt p
  let x := p2pIn b g p
  match p2pFinding b g p x, fault with
  | some st, _ => p2pRefuse b p x.rank st
  | none, some a => p2pRefuse b p x.rank (faultStatus a.kind)
  | none, none =>
    let att := attemptOf b p
    let mine := fun (r : Pkt) => let u := preOfPkt r
      r.hdr.src == p.hdr.src && u.gid == q.gid && u.gen == q.gen && u.cseq == q.cseq && u.srcRank == q.srcRank && decide (preOff u ≤ preOff q)
    let bs := openPkt b p x.rank att
    match tail with
    | .inner => settleTail { b with fab := { b.fab with atoms := b.fab.atoms ++ [p] } } p none x.fn x.tag x.chunk bs tail
    | .good =>
      let ps := b.fab.atoms.filter mine ++ [p]
      let b := { b with fab := { b.fab with atoms := b.fab.atoms.filter fun r => !mine r } }
      settleTail (ps.foldl (atomicApply m x att) b) p none x.fn x.tag x.chunk bs tail
    | _ => settleTail { b with fab := { b.fab with atoms := b.fab.atoms.filter fun r => !mine r } } p none x.fn x.tag x.chunk bs tail

def execAtomic (port : Nat) (p : Pkt) (fault : Option AccFault) (tail : TailVerdict) (s : State) : Host.Outcome State Fault Refusal :=
  act s fun b m => onPkt b port p 5 fun b => onGen b p fun _ g => atomicFx b m g p fault tail

/-! ### E2E_ACK and E2E_ACK_SEND (R350, R351, R368) -/

/-- Whether an acknowledgement covers a sequence. -/
def covers (q : Prefix) (seq : Nat) : Bool :=
  let d := (seq + 2 ^ 32 - q.e2e) % 2 ^ 32
  decide (d < 64) && tb q.spec d

/-- A point-to-point command counts its acknowledged packets and goes on (R82, R462). -/
def countAck (b : Blk) (u : Unacked) : Blk :=
  match u.cmd with
  | some id => withCmd b id fun c =>
    if isP2p (opOf c) then modCmd b id fun c => { c with acked := c.acked + 1 } else b
  | none => b

def ackFx (b : Blk) (p : Pkt) : Blk :=
  let q := preOfPkt p
  let ep := p.hdr.src
  if q.mcseq then
    let d := q.gid
    let bit := (List.range 64).find? fun i => domMember (domOf b d) i == ep
    let upd := fun (u : Unacked) =>
      if !covers q u.seq then some u
      else match bit, u.mcast with
      | some i, some (d, mask) => if setBit mask i false = 0 then none else some { u with mcast := some (d, setBit mask i false) }
      | _, _ => some u
    flushMc (modMdst b d fun s => { s with unacked := s.unacked.filterMap upd }) d
  else
    let us := (getDst b ep).unacked.filter fun u => covers q u.seq
    let b := modDst b ep fun d => { d with unacked := d.unacked.filter fun u => !covers q u.seq }
    let b := flush (us.foldl countAck b) ep
    ((us.filterMap (·.cmd)).eraseDups).foldl p2pProgress b

def execE2eAck (port : Nat) (p : Pkt) (s : State) : Host.Outcome State Fault Refusal :=
  act s fun b _ => onPkt b port p 6 fun b => ackFx b p

/-- One acknowledgement for a sequence space: from the oldest sequence due, a map of 64. -/
def ackSpace (b : Blk) (ep : Nat) (k : Bool × Nat) : Blk :=
  let s := getSrc b k
  match s.due with
  | [] => b
  | x :: xs =>
    -- the oldest: the one from which the others lie ahead
    let base := xs.foldl (fun a y => if (a + 2 ^ 32 - y) % 2 ^ 32 < 2 ^ 31 then y else a) x
    let dist := fun y => (y + 2 ^ 32 - base) % 2 ^ 32
    let now := s.due.filter fun y => decide (dist y < 64)
    let b := modSrc b k fun s => { s with due := s.due.filter fun y => !decide (dist y < 64) }
    sendBare b ep 1 { pre0 with type := 6, mcseq := k.1, gid := if k.1 then k.2 / 65536 else 0, e2e := base
                                spec := now.foldl (fun m y => setBit m (dist y) true) 0 } []

def execE2eAckSend (ep : Nat) (s : State) : Host.Outcome State Fault Refusal :=
  act s fun b _ =>
    let b := ackSpace b ep (false, ep)
    ((b.fab.msrc.filter fun e => e.1 % 65536 == ep).map (·.1)).foldl (fun b k => ackSpace b ep (true, k)) b

/-! ### Resends (R61, R352, R368) -/

/-- The unacknowledged packet of a sequence: sent to the endpoint, or multicast to a domain with it among the members left. -/
def findUnacked (b : Blk) (ep seq : Nat) : Option (Option Nat × Unacked) :=
  match (getDst b ep).unacked.find? fun u => u.seq == seq with
  | some u => some (none, u)
  | none => b.fab.mdst.findSome? fun (d, s) => (s.unacked.find? fun u => u.seq == seq && (match u.mcast with
      | some (_, mask) => (List.range 64).any fun i => tb mask i && domMember (domOf b d) i == ep
      | none => false)).map fun u => (some d, u)

def modUnacked (b : Blk) (ep : Nat) (dom : Option Nat) (seq : Nat) (g : Unacked → Option Unacked) : Blk :=
  let upd := fun (s : DstSt) => { s with unacked := s.unacked.filterMap fun u => if u.seq == seq then g u else some u }
  match dom with
  | none => modDst b ep upd
  | some d => modMdst b d upd

/-- What waits behind the window goes on. -/
def flushOf (b : Blk) (ep : Nat) (dom : Option Nat) : Blk := match dom with | none => flush b ep | some d => flushMc b d

/-- The packet again to one endpoint, on a path; a multicast one goes as a unicast that keeps its sequence. -/
def again (b : Blk) (ep : Nat) (u : Unacked) (resend alt : Bool) : Blk :=
  let p := setPre { u.pkt with hdr := { hdrTo b ep 0 0 with net := u.pkt.hdr.net } } fun q => { q with resend := q.resend || resend }
  launch b p alt

/-- A flow is pinned to a path (R352). -/
def pinFlow (b : Blk) (cmd : Option CmdId) (ep : Nat) (alt : Bool) : Blk :=
  match cmd with
  | some id => { b with fab := { b.fab with flows := b.fab.flows.map fun f => if f.cmd = id && f.dst == ep then { f with alt } else f } }
  | none => b

/-- R363: a halyard whose transfer times out is broken: it is released, and its bytes leave as DATA packets. -/
def breakHalyard (b : Blk) (ep : Nat) (u : Unacked) (i : Nat) : Blk :=
  let b := forget b ep u.seq
  let b := if (getHaly b i).valid then releaseHaly b i else b
  let pre := preOfPkt u.pkt
  (chunksOf maxData (dataOfPkt u.pkt)).zipIdx.foldl (fun b (x, k) =>
    sendTo b { hdr := hdrTo b ep 0 0, body := .coll { pre with resend := true, e2e := 0, spec := specLO x.length (k * maxData) } x } u.cmd u.rank) b

/-- E2E_RESEND: no acknowledgement within TIMEOUT (R352); after RESENDS resends the packet is abandoned. -/
def resendFx (b : Blk) (ep seq : Nat) : Blk :=
  match findUnacked b ep seq with
  | none => b
  | some (dom, u) =>
    if u.held then b
    else match u.haly with
    | some i => breakHalyard b ep u i
    | none =>
      if fld b.ctl.e2e.force.toNat 19 16 ≤ u.resends then flushOf (modUnacked b ep dom seq fun _ => none) ep dom
      else
        let alt := if rtAlt (routeOf b ep) then !u.alt else u.alt
        let b := modUnacked b ep dom seq fun u => some { u with resends := u.resends + 1, alt }
        again (pinFlow b u.cmd ep alt) ep u true alt

def execE2eResend (ep seq : Nat) (s : State) : Host.Outcome State Fault Refusal := act s fun b _ => resendFx b ep seq

/-- HOLD: the refusal of a packet (R61); a RECOMPUTE has its own row. -/
def execHold (port : Nat) (p : Pkt) (s : State) : Host.Outcome State Fault Refusal :=
  act s fun b _ =>
    let q := preOfPkt p
    if fld q.spec 7 0 != 0 then b
    else onPkt b port p 7 fun b =>
      if q.mcseq then modUnacked b p.hdr.src (some q.gid) q.e2e fun u => some { u with held := true }
      else modUnacked b p.hdr.src none q.e2e fun u => some { u with held := true }

/-- Whether a refused packet is still to be taken: the sender's own generation stands (R130, R136). -/
def stillSends (b : Blk) (q : Prefix) : Bool :=
  match findGroup b q.gid with
  | some (_, g) => g.gen == q.gen && (q.type == 8 || q.type == 9 || g.state == 1)
  | none => false

def execHoldResend (ep seq : Nat) (s : State) : Host.Outcome State Fault Refusal :=
  act s fun b _ => match findUnacked b ep seq with
    | none => b
    | some (dom, u) =>
      if !u.held then b
      else if !stillSends b (preOfPkt u.pkt) then flushOf (modUnacked b ep dom seq fun _ => none) ep dom
      else again (modUnacked b ep dom seq fun u => some { u with held := false }) ep u false u.alt

/-! ### Arbitration at the sender and the receiver's self-test (R603 to R606) -/

/-- A packet as a recomputation sends it: the same bytes as ATTEMPT 1, RESEND set. -/
def reattempt (b : Blk) (rank : Nat) (p : Pkt) : Pkt :=
  let rk := if rank != 0x3FFF then rank
    else match findGroup b (preOfPkt p).gid with | some (_, g) => (ranksAt b g p.hdr.dst).headD 0 | none => 0
  setPre (cryptPkt b rk 1 (cryptPkt b rank 0 p)) fun q => { q with resend := true, mcseq := false, e2e := 0 }

/-- The DATA packets of a halyard transfer, from an offset. -/
def cutData (p : Pkt) : List Pkt :=
  (chunksOf maxData (dataOfPkt p)).zipIdx.map fun (x, k) =>
    { p with body := .coll { preOfPkt p with spec := specLO x.length (preOff (preOfPkt p) + k * maxData) } x }

/-- RECOMPUTE: units whose sliver digests differ are fenced, and the transfer is sent again under new sequences. -/
def recomputeFx (b : Blk) (p : Pkt) (rc : Recomb) : Blk :=
  let q := preOfPkt p
  let ep := p.hdr.src
  let off := preOff q
  match findUnacked b ep q.e2e with
  | none => b
  | some (dom, last) =>
    let top := preOff (preOfPkt last.pkt)
    let us := match dom with | none => (getDst b ep).unacked | some d => (getMdst b d).unacked
    let mine := us.filter fun u => let r := preOfPkt u.pkt
      r.gid == q.gid && r.gen == q.gen && r.cseq == q.cseq && r.srcRank == q.srcRank && r.step == q.step && (r.type == 1 || r.type == 5) &&
      !r.resend && decide (off ≤ preOff r) && decide (preOff r ≤ top)
    let b := rc.badTiles.foldl (fun b t => fenceTile b t 1) b
    let b := rc.badArrays.foldl (fun b x => fenceArray b x.1 x.2 1) b
    let out := if rc.badTiles.isEmpty && rc.badArrays.isEmpty then 2 else 0
    let b := match last.cmd.bind (findCmd b) with
      | some c =>
        let rank := if isP2p (opOf c) then fTarget c else last.rank
        arbEvent b c.id.f out q.step (tagOf c) ep rank 1 (off / (chunkOf b c + 20))
      | none => b
    (mine.flatMap fun u => (cutData u.pkt).map fun x => (x, u)).foldl (fun b (x, u) =>
      let b := match u.cmd with
        | some id => withCmd b id fun c => if isP2p (opOf c) then modCmd b id fun c => { c with sent := c.sent + 1 } else b
        | none => b
      sendTo b (reattempt b u.rank { x with hdr := hdrTo b ep 0 0 }) u.cmd u.rank) b

def execRecompute (port : Nat) (p : Pkt) (rc : Recomb) (s : State) : Host.Outcome State Fault Refusal :=
  act s fun b _ => if fld (preOfPkt p).spec 7 0 != 1 then b else onPkt b port p 7 fun b => recomputeFx b p rc

/-- What stays unverified of a transfer is acknowledged. -/
def passAll (b : Blk) (a : Arb) (q : Prefix) : Blk :=
  let mine := b.fab.unver.filter fun u => sameTransfer u a.src q && decide (a.off ≤ u.off)
  let b := { b with fab := { b.fab with unver := b.fab.unver.filter fun u => !(sameTransfer u a.src q && decide (a.off ≤ u.off)) } }
  let key := fun (src : Nat) (dom : Option Nat) => match dom with | some d => (true, d * 65536 + src) | none => (false, src)
  let b := mine.foldl (fun b u => ackDue b (key u.src u.dom) u.seq) (ackDue b (key a.src a.dom) a.seq)
  bumpApplied b a.src q (mine.length + 1)

/-- CHECKER_SELFTEST (R604 to R606): a checker that fails fences its tile, and another verifies the recomputed transfer. -/
def selftestFx (b : Blk) (a : Arb) (checkerOk : Bool) (tail : TailVerdict) : Blk :=
  let q := { pre0 with gid := a.gid, gen := a.gen, cseq := a.cseq, srcRank := a.rank, step := a.step }
  let b := modTile b a.tile fun t => { t with selftest := bump t.selftest 65535 }
  if checkerOk then failArb b a q
  else
    let b := fenceTile b a.tile 4
    match tail with
    | .good =>
      let b := arbEvent (dropArb (passAll b a q) a) a.fn 1 a.step a.tag a.src a.rank 0 a.chunk
      if tb a.cseq 47 then match findGroup b a.gid with | some (_, g) => releaseSignals b g a.src q | none => b else b
    | _ => failArb b a q

def execCheckerSelftest (ep seq : Nat) (checkerOk : Bool) (tail : TailVerdict) (s : State) : Host.Outcome State Fault Refusal :=
  act s fun b _ => match b.fab.arbs.find? fun a => a.src == ep && a.seq == seq && a.second with
    | some a => selftestFx b a checkerOk tail
    | none => b

/-! ### Notices -/

/-- ABORT_NOTICE (R59, R60, R110, R128, R463, R605). -/
def abortFx (b : Blk) (g : Group) (p : Pkt) : Blk :=
  let q := preOfPkt p
  let st := fld q.spec 7 0
  let b := takeSeq b p
  let cs := (cmdFor b q none).filter fun c => !decide (c.phase = .ended)
  if tb q.cseq 47 then
    (cs.filter fun c => isP2p (opOf c)).foldl (fun b c =>
      let b := if st == 0x30 || st == 0x31 then accessEvent b c.id.f c.id.q (fSpaceB c) (st == 0x30) false (tagOf c) (fRemote c) else b
      unstage (stopCmd b c.id st) c.id) b
  else
    let b := cs.foldl (fun b c => unstage (stopCmd b c.id st) c.id) b
    let b := (b.t.stream.filter fun e => e.2.valid && e.2.sharded && e.2.gid == q.gid && e.2.gen == q.gen && e.2.cseq == q.cseq).foldl
      (fun b e => streamError b (e.1 / 64) (e.1 % 64) st) b
    if g.locs.length ≤ (cmdFor b q none).length || (b.fab.aborts.any fun a => a.1 == q.gid && a.2.1 == q.gen && a.2.2.1 == q.cseq) then b
    else { b with fab := { b.fab with aborts := b.fab.aborts ++ [(q.gid, q.gen, q.cseq, st)] } }

def execAbortNotice (port : Nat) (p : Pkt) (s : State) : Host.Outcome State Fault Refusal :=
  act s fun b _ => onPkt b port p 8 fun b => onGen b p fun _ g => abortFx b g p

/-- BREAK_NOTICE (R137, R138): cause, ranks and stamp as they stand in the packet. -/
def execBreakNotice (port : Nat) (p : Pkt) (s : State) : Host.Outcome State Fault Refusal :=
  act s fun b _ => onPkt b port p 9 fun b => onGen b p fun h _ =>
    let q := preOfPkt p
    let ranks := (List.range (fld q.spec 31 16)).map fun i => leAt (dataOfPkt p) (2 * i) 2
    applyBreak (takeSeq b p) h (fld q.spec 7 0) ranks (preOff q)

/-! ### MULTICAST (R367) -/

/-- The packet is delivered here if SELF is in its mask, and copied to the ports that lead on; a copy's mask is its own part. -/
def multicastFx (b : Blk) (port : Nat) (p : Pkt) : Blk :=
  let d := fld p.hdr.path 83 72
  let mask := fld p.hdr.path 63 0
  let e := domOf b d
  let b := taken b port p
  if !domValid e then b
  else
    let b := if decide (domSelf e < 64) && tb mask (domSelf e) then
        arrive b port { p with hdr := { p.hdr with path := mk [(83, 72, d), (63, 0, 2 ^ domSelf e)], dst := domMember e (domSelf e) } }
      else b
    mcCopies b port p d mask

def execMulticast (port : Nat) (p : Pkt) (s : State) : Host.Outcome State Fault Refusal :=
  act s fun b _ => if p.hdr.hop == 0 && !ownCopy b p then multicastFx b port p else b

end Sys2Proof.Machine
end

