-- ==== Sys2Proof/Machine/Links.lean ====
section
/-!
DEFINITION. Link frames (R323 to R335), the choice of a link output's cells (R338 to R340) and the forwarding of routed packets (R312).
-/
namespace Sys2Proof.Machine

/-- Frames pass: the port is UP, or past its key handshake, awake, and not retraining its lanes. -/
def framing (b : Blk) (n : Nat) : Bool :=
  let p := getP b n
  portExists b n && (p.state == 2 || (p.state == 1 && (decide (p.phase = .frames) || decide (p.phase = .done)))) && decide (p.sleep ≤ 2) &&
  !p.retraining

/-! ### Sending -/

def headCls (q : QPkt) : Nat := match q.cells with | .routed h _ _ _ :: _ => h.cls | _ => 0

/-- The packet of a virtual network that sends its next cell (R335, R339): the one started, or the next by round robin among inputs
(REP: by arrival), where flow control lets it start. -/
def pickPkt (p : Port) (vn : Nat) (other : Bool) : Option Nat :=
  let qs := p.out.zipIdx.filter fun x => x.1.vn == vn
  let ok := fun (q : QPkt) => !other || headCls q == 1
  match qs.find? fun x => x.1.started with
  | some (q, i) => if ok q then some i else none
  | none =>
    if p.rekey != 0 then none
    else
      let may := fun (x : QPkt × Nat) => !tb p.fcIn (2 * vn + b2n x.1.entering) && ok x.1
      let heads := if vn == 2 then qs.take 1
        else qs.filter fun x => !(qs.any fun y => decide (y.2 < x.2) && y.1.src == x.1.src)
      let turn := fun (x : QPkt × Nat) => (x.1.src + 127 - p.rr.getD vn 63) % 64
      ((heads.filter may).foldl (fun acc x => match acc with
        | some y => if turn x < turn y then some x else some y
        | none => some x) none).map (·.2)

/-- One cell of the packet at an index leaves. -/
def popCell (p : Port) (i : Nat) : FCell × Port :=
  match p.out[i]? with
  | some q => match q.cells with
    | c :: rest =>
      let p := { p with rr := if q.started then p.rr else p.rr.set q.vn q.src }
      (c, { p with out := if rest.isEmpty then p.out.eraseIdx i else p.out.set i { q with started := true, cells := rest } })
    | [] => (.idle, { p with out := p.out.eraseIdx i })
  | none => (.idle, p)

/-- The halyard entry that cells with an identifier leave under. -/
def halyOut (b : Blk) (code id : Nat) : Option Haly :=
  (b.t.haly.find? fun e => e.2.valid && e.2.active && e.2.outPort == code && e.2.outId == id).map (·.2)

/-- The first halyard cell whose window contains the slot, or (transit only) has passed (R338, R357, R359). -/
def pickHaly (b : Blk) (p : Port) (late : Bool) : Option Nat :=
  p.halyQ.findIdx? fun c => match c with
    | .halyard id _ _ => match halyOut b p.serves id with
      | some e =>
        let stop := windowEnd e.resFloor e.start e.len
        if late then e.inPort != 63 && decide (stop ≤ p.slot)
        else decide (e.start ≤ p.slot) && decide (p.slot < stop) && !isFloor e.resFloor p.slot
      | none => late
    | _ => false

/-- The cell of the next slot, in the order of R338. -/
def slotCell (b : Blk) (fl : Nat) (p : Port) : FCell × Port :=
  let other := if isFloor fl p.slot then (match pickPkt p 2 true with | some i => some i | none => pickPkt p 1 false) else none
  match other with
  | some i => popCell p i
  | none =>
    match p.linkQ with
    | c :: rest => (.link c, { p with linkQ := rest })
    | [] => match pickHaly b p false with
      | some i => (p.halyQ.getD i .idle, { p with halyQ := p.halyQ.eraseIdx i })
      | none => match pickHaly b p true with
        | some i => (p.halyQ.getD i .idle, { p with halyQ := p.halyQ.eraseIdx i })
        | none => match (pickPkt p 0 false).orElse fun _ => (pickPkt p 2 false).orElse fun _ => pickPkt p 1 false with
          | some i => popCell p i
          | none => (.idle, p)

def frameCells (b : Blk) (fl : Nat) : Nat → Port → List FCell × Port
  | 0, p => ([], p)
  | k + 1, p =>
    let (c, p) := slotCell b fl p
    let (cs, p) := frameCells b fl k { p with slot := p.slot + 1 }
    (c :: cs, p)

/-- A port that is to repeat its handshake has sent what it had started (R638). -/
def drainDone (p : Port) : Bool := p.rekey != 0 && p.state == 2 && !(p.out.any (·.started))

/-- Once every frame is acknowledged, a port that was granted sleep raises LP_REQ (R709), and one that is to repeat its handshake retrains
(R638). -/
def quiet (b : Blk) (n : Nat) : Blk :=
  let p := getP b n
  if !p.replay.isEmpty || p.state != 2 then b
  else if p.sleep == 2 then modP b n fun p => { p with sleep := 3, lpReq := true }
  else if drainDone p && decide (p.sleep ≤ 1) && !p.retraining then retrain b n
  else b

/-- FRAME_SEND: the next frame, kept for replay (R323, R326, R328); the port sends nothing while 64 frames are unacknowledged. -/
def frameSendFx (b : Blk) (n : Nat) : Blk :=
  let p := getP b n
  if !framing b n || decide (64 ≤ p.replay.length) || decide (2 ≤ p.sleep) || drainDone p then b
  else
    let (cells, p) := frameCells b (floorNow b) 63 p
    let traffic := cells.any fun c => match c with | .routed _ _ _ _ => true | .halyard _ _ _ => true | _ => false
    modP b n fun _ => { p with
      idle := if traffic then 0 else p.idle
      replay := p.replay ++ [{ fseq := p.txNext, cells }], txNext := (p.txNext + 1) % 2 ^ 64, nakDue := false }

def execFrameSend (n : Nat) (s : State) : Host.Outcome State Fault Refusal := act s fun b _ => frameSendFx b n

/-! ### Receiving -/

/-- Cells in a port's input buffer on a virtual network. -/
def bufCells (p : Port) (vn : Nat) : Nat := ((p.inq.filter fun x => x.1 == vn).map fun x => (cellsOf x.2).length).foldl (· + ·) 0 +
  (match p.rxPkt.getD vn none with | some (_, xs) => xs.length | none => 0)

/-- OFF and EOFF of R334. -/
def markFc (p : Port) : Port :=
  let rt := 8 * p.cableForce + 256
  let bit := fun (fc vn k : Nat) =>
    let q := bufCells p vn
    let set := 2048 - rt - 64 - 64 * k
    if set < q then setBit fc (2 * vn + k) true else if q < set - 64 then setBit fc (2 * vn + k) false else fc
  { p with fcOut := [(0, 0), (0, 1), (1, 0), (1, 1), (2, 0), (2, 1)].foldl (fun fc x => bit fc x.1 x.2) p.fcOut }

def dropRx (p : Port) (vn : Nat) : Port := { p with rxPkt := p.rxPkt.set vn none, framing := bump p.framing 255 }

/-- The packet in reception is complete: a reserved TYPE is discarded (R318). -/
def endRx (p : Port) (vn : Nat) (h : RHdr) (xs : List (List Byte)) : Port :=
  let k := pktOf h xs
  let p := { p with rxPkt := p.rxPkt.set vn none }
  if isCollPkt k && (!decide (1 ≤ (preOfPkt k).type) || decide (12 < (preOfPkt k).type)) then { p with framing := bump p.framing 255 }
  else { p with inq := p.inq ++ [(vn, k)] }

/-- One routed cell (R313, R314). -/
def rxCell (p : Port) (h : RHdr) (first last : Bool) (pay : List Byte) : Port :=
  let vn := vnOf h
  let same := fun (g : RHdr) => g.src == h.src && g.dst == h.dst && g.net == h.net && g.cls == h.cls && g.pseq == h.pseq
  let start := fun (p : Port) => if last then endRx p vn h [pay] else { p with rxPkt := p.rxPkt.set vn (some (h, [pay])) }
  match p.rxPkt.getD vn none with
  | none => if first then start p else p
  | some (g, xs) =>
    if first then start (dropRx p vn)
    else if !same g || decide (64 ≤ xs.length) then dropRx p vn
    else if last then endRx p vn g (xs ++ [pay])
    else { p with rxPkt := p.rxPkt.set vn (some (g, xs ++ [pay])) }

/-- Frames up to an acknowledged one leave the replay buffer; a retry whose first frame is acknowledged has succeeded (R328, R330). -/
def takeAck (p : Port) (ack : Nat) : Port :=
  if p.replay.any fun f => f.fseq == ack then
    let gone := (p.replay.takeWhile fun f => f.fseq != ack).map (·.fseq) ++ [ack]
    { p with replay := (p.replay.dropWhile fun f => f.fseq != ack).drop 1, retryRun := 0
             retried := match p.retried with | some f => if gone.contains f then none else some f | none => none }
  else p

/-- FRAME_RECEIVE: CRC, then tag, then sequence (R327, R329, R331, R335). Routed cells are assembled; each halyard and link-control cell
of an accepted frame is an event of its own (HALYARD_CELL, IDENT, BEAT_MARK, KEEP_ALIVE). -/
def frameReceiveFx (b : Blk) (n : Nat) (fr : FrameRx) : Blk :=
  if !framing b n then b
  else if !fr.crcOk then modP b n fun p => { p with crcErr := bump p.crcErr 65535, nakDue := true }
  else if !fr.tagOk then fenceLink (modP b n fun p => { p with authFail := bump p.authFail 255 }) n 6
  else
    let b := modP b n fun p => takeAck { p with fcIn := fr.fc, nakRx := p.nakRx || fr.nak } fr.ack
    if fr.fseq != (getP b n).rxNext then quiet b n
    else
      let b := modP b n fun p => { p with rxNext := (p.rxNext + 1) % 2 ^ 64, nakDue := false }
      quiet (modP b n fun p => markFc (fr.cells.foldl (fun p c => match c with
        | .routed h f l pay => rxCell { p with idle := 0 } h f l pay
        | .halyard _ _ _ => { p with idle := 0 }
        | _ => p) p)) n

def execFrameReceive (n : Nat) (fr : FrameRx) (s : State) : Host.Outcome State Fault Refusal := act s fun b _ => frameReceiveFx b n fr

/-! ### Replay (R329, R330) -/

/-- A replay starts with the oldest frame; a replay of the same first frame again is a failed retry, and the eighth takes the port down. -/
def replayFx (b : Blk) (n : Nat) : Blk :=
  let p := getP b n
  match p.replay with
  | [] => modP b n fun p => { p with nakRx := false }
  | f :: _ =>
    let run := if p.retried = some f.fseq then p.retryRun + 1 else p.retryRun
    let b := modP b n fun p => { p with nakRx := false, retryRun := run }
    if 8 ≤ run then linkDown b n
    else modP b n fun p => { p with retry := bump p.retry 65535, retried := some f.fseq }

def execReplay (n : Nat) (s : State) : Host.Outcome State Fault Refusal :=
  act s fun b _ => if framing b n && (getP b n).nakRx then replayFx b n else b

def execReplayTimeout (n : Nat) (s : State) : Host.Outcome State Fault Refusal :=
  act s fun b _ => if framing b n && !(getP b n).replay.isEmpty then replayFx b n else b

/-! ### ROUTED_CELL (R312, R333, R335) -/

/-- R335: a packet that leaves the ring it came on, or touches a port of no ring, is entering. -/
def entering (b : Blk) (n code : Nat) : Bool :=
  let i := (getP b n).ringForce
  match portAt b code with
  | some k => let o := (getP b k).ringForce; i == 0 || o == 0 || i != o
  | none => true

/-- The code that HOP selects: 63 delivers locally; HOP 15 has none left. -/
def pathCode (h : RHdr) : Nat := if 1 ≤ h.hop && h.hop ≤ 14 then fld h.path (6 * h.hop - 1) (6 * h.hop - 6) else 63

/-- Forward a packet by its path, with the next HOP. -/
def forward (b : Blk) (n : Nat) (p : Pkt) : Blk :=
  let code := pathCode p.hdr
  outTo b code (vnOf p.hdr) n (entering b n code) (cellsOf { p with hdr := { p.hdr with hop := p.hdr.hop + 1 } })

/-- An OTHER-class packet at its destination (R348, R719): to the die of the port its header names, if its function permits. -/
def deliverOther (b : Blk) (n : Nat) (p : Pkt) : Blk :=
  if misrouted b p then misroute b n p
  else
    let bytes := dataOfPkt p
    let h := leAt bytes 0 8
    let f := fld h 8 0
    let d := fld h 10 9
    if tb (getFn b f).d2dMask d then
      dSend b d { type := 0x0A, flags := 0, fn := f, tag := 0, arg := p.hdr.src, body := bytes.take (upTo (8 + fld h 31 16) 8) }
    else modD2 b d fun x => { x with dropped := bump x.dropped 65535 }

/-- A packet of a port's input buffer is delivered or forwarded. Halyard reservations are handled at every engine of their path (R360). -/
def routedFx (b : Blk) (n vn : Nat) : Blk :=
  match (getP b n).inq.find? fun x => x.1 == vn with
  | none => b
  | some x =>
    let p := x.2
    let b := modP b n fun q => markFc { q with inq := q.inq.erase x }
    let t := (preOfPkt p).type
    if p.hdr.hop == 0 then arrive b n p
    else if p.hdr.cls == 0 && (t == 10 || t == 11 || t == 12) then arrive b n p
    else if pathCode p.hdr == 63 then (if p.hdr.cls == 1 then deliverOther b n p else arrive b n p)
    else forward b n p

def execRoutedCell (n vn : Nat) (s : State) : Host.Outcome State Fault Refusal :=
  act s fun b _ => if portExists b n then routedFx b n vn else b

end Sys2Proof.Machine
end

