-- ==== Sys2Proof/Machine/Halyards.lean ====
section
/-!
DEFINITION. Halyards: reservation (R360 to R363), their cells and windows (R357 to R359), transfers, overruns and demotions (R395 to R397).
-/
namespace Sys2Proof.Machine

/-! ### Reservation -/

/-- A hop record of a RESERVE: arrival port code and entry index; 0xFFFFFF is unused (R360). -/
def hopRec (data : List Byte) (i : Nat) : Nat × Nat := (leAt data (8 + 3 * i) 1, leAt data (9 + 3 * i) 2)
def hopUsed (data : List Byte) (i : Nat) : Bool := leAt data (8 + 3 * i) 3 != 0xFFFFFF
def hopCount (data : List Byte) : Nat := ((List.range 8).filter (hopUsed data)).length

/-- A RESERVE_REPLY from this engine: back along the arrival ports (R361). It repeats the hop records (DESIGN CHOICE, log 40). -/
def replyBack (b : Blk) (p : Pkt) (data : List Byte) (status idx : Nat) : Blk :=
  let codes := ((List.range (hopCount data)).reverse.map fun i => (hopRec data i).1)
  let path := mk ((codes.drop 1 ++ List.replicate (14 - (codes.length - 1)) 63).zipIdx.map fun (c, i) => (6 * i + 5, 6 * i, c))
  let q := preOfPkt p
  let r : Pkt := { hdr := { hdrTo b p.hdr.src 1 0 with path }
                   body := .coll { pre0 with type := 11, gid := q.gid, gen := q.gen, step := q.step
                                             spec := mk [(7, 0, status), (31, 16, idx)] } data }
  outTo b (codes.headD 63) 2 63 true (cellsOf r)

/-- An engine on the path takes an entry and a window, or refuses (R358, R361). -/
def reserveFx (b : Blk) (port : Nat) (p : Pkt) : Blk :=
  let q := preOfPkt p
  let data := dataOfPkt p
  let b := taken b port p
  let code := (getP b port).serves
  let start := fld q.spec 21 0
  let len := fld q.spec 53 32
  let latest := fld q.spec 85 64
  let k := hopCount data
  let out := pathCode p.hdr
  let here := out == 63
  let record := fun (i : Nat) => splice data (8 + 3 * k) (leBytes code 1 ++ leBytes i 2)
  let refuse := replyBack b p (record 0) 1 0
  if here && p.hdr.dst != selfEp b then misroute b port p
  else if 8 ≤ k then b
  else match lowestFree 32768 0 b.t.haly with
  | none => refuse
  | some i =>
    let entry := { haly0 with
      valid := true, inPort := code, outPort := out, resFloor := floorNow b, step := q.step, start, len
      originEp := p.hdr.src, originIdx := (hopRec data 0).2, actBeat := leAt data 0 4 }
    if here then replyBack (modHaly b i fun _ => { entry with granted := true }) p (record i) 0 i
    else match (if codeUp b out then
        chooseWindow b out (start + nsSlots ((getP b port).cableForce + 54)) len latest else none) with
    | none => refuse
    | some s =>
      let b := modHaly b i fun _ => { entry with start := s }
      forward b port { p with body := .coll { q with spec := mk [(21, 0, s), (53, 32, len), (85, 64, latest)] } (record i) }

def execReserve (port : Nat) (p : Pkt) (s : State) : Host.Outcome State Fault Refusal :=
  act s fun b _ => if isCollPkt p && (preOfPkt p).type == 10 && portExists b port then reserveFx b port p else b

/-- The walk of an entry at its starting engine is answered: the compile goes on, or ends without halyards (R159, R362). -/
def walkDone (b : Blk) (idx : Nat) (ok : Bool) : Blk :=
  match b.walks.find? fun w => w.idx == idx with
  | none => b
  | some w =>
    let b := { b with walks := b.walks.filter fun x => x.idx != idx }
    match b.compiles.find? fun c => c.handle == w.handle with
    | none => b
    | some c =>
      if !ok then finishCompile { b with walks := b.walks.filter fun x => x.handle != w.handle } c false
      else if b.walks.any fun x => x.handle == w.handle then b
      else finishCompile b c true

/-- RESERVE_REPLY: this engine's entry takes the downstream index, or is freed; then the reply goes on with this engine's own (R361). -/
def replyFx (b : Blk) (port : Nat) (p : Pkt) : Blk :=
  let q := preOfPkt p
  let data := dataOfPkt p
  let b := taken b port p
  let code := (getP b port).serves
  let granted := fld q.spec 7 0 == 0
  let home := p.hdr.dst == selfEp b
  let mine := b.t.haly.find? fun e => e.2.valid && !e.2.active && !e.2.granted && e.2.outPort == code && e.2.originEp == p.hdr.dst &&
    e.2.originIdx == (hopRec data 0).2
  let go := fun (b : Blk) (i : Nat) => if home then b else
    forward b port { p with body := .coll { q with spec := mk [(7, 0, b2n (!granted)), (31, 16, i)] } data }
  match mine with
  | none => go b 0
  | some (i, _) =>
    let b := if granted then modHaly b i fun e => { e with outId := fld q.spec 31 16, granted := true } else freeHaly b i
    if home then walkDone b i granted else go b i

def execReserveReply (port : Nat) (p : Pkt) (s : State) : Host.Outcome State Fault Refusal :=
  act s fun b _ => if isCollPkt p && (preOfPkt p).type == 11 && portExists b port then replyFx b port p else b

/-- RESERVE_TIMEOUT: no reply by ACT_BEAT (R362). -/
def execReserveTimeout (idx : Nat) (s : State) : Host.Outcome State Fault Refusal :=
  act s fun b _ => match b.walks.find? fun w => w.idx == idx with
    | some w => if decide (w.beat + 8 ≤ beatNow b) then walkDone (releaseHaly b idx) idx false else b
    | none => b

/-- RELEASE: the entry of its origin is freed here and the packet goes on; its end acknowledges it (R363). -/
def releaseFx (b : Blk) (port : Nat) (p : Pkt) : Blk :=
  let q := preOfPkt p
  let b := taken b port p
  let b := { b with t := { b.t with haly := b.t.haly.filter fun e =>
    !(e.2.valid && e.2.originEp == p.hdr.src && e.2.originIdx == fld q.spec 15 0) } }
  if p.hdr.dst == selfEp b then takeSeq b p
  else if pathCode p.hdr == 63 then misroute b port p
  else forward b port p

def execRelease (port : Nat) (p : Pkt) (s : State) : Host.Outcome State Fault Refusal :=
  act s fun b _ => if isCollPkt p && (preOfPkt p).type == 12 then releaseFx b port p else b

/-! ### Cells (R357 to R359) -/

/-- A halyard cell: forwarded in its out-window, or late, or assembled (R358, R359). -/
def halyCellFx (b : Blk) (port id seq : Nat) (inWindow : Bool) (pay : List Byte) : Blk :=
  let e := getHaly b id
  if id ≥ 32768 || !e.valid || !e.active || e.inPort != (getP b port).serves then
    modP b port fun p => { p with framing := bump p.framing 255 }
  else if e.outPort == 63 then
    let old := (b.fab.halyRx.find? fun x => x.idx == id).getD { idx := id, cells := [], cut := none }
    let x := { old with cells := if old.cells.any fun c => c.1 == seq then old.cells else old.cells ++ [(seq, pay)] }
    tryAssemble { b with fab := { b.fab with halyRx := (b.fab.halyRx.filter fun y => y.idx != id) ++ [x] } } x
  else match portAt b e.outPort with
  | none => b
  | some o =>
    let c := FCell.halyard e.outId seq pay
    if inWindow && b.beat.locked then modP b o fun p => { p with halyQ := p.halyQ ++ [c], idle := 0 }
    else modP b o fun p => { p with out := p.out ++ [{ vn := 0, src := port, entering := false, started := true, cells := [c] }], idle := 0 }

def execHalyardCell (port id seq : Nat) (inWindow : Bool) (pay : List Byte) (s : State) : Host.Outcome State Fault Refusal :=
  act s fun b _ => if framing b port then halyCellFx b port id seq inWindow pay else b

/-! ### Windows at the starting engine (R395 to R397) -/

/-- Cells of a halyard transfer (R321). -/
def halyCells (id : Nat) (p : Pkt) : List FCell :=
  .halyard id 0 (padTo 60 (prefixBytes (preOfPkt p))) ::
  (chunksOf 56 (dataOfPkt p)).zipIdx.map fun (x, k) => .halyard id (k + 1) (padTo 56 x ++ leBytes (preOfPkt p).descDig 4)

/-- DATA packets for bytes of a transfer from an offset. -/
def tailPkts (b : Blk) (t : HTrans) (dst from_ : Nat) (bs : List Byte) : List Pkt :=
  (chunksOf maxData bs).zipIdx.map fun (x, k) =>
    cryptPkt b t.rank 0 { hdr := hdrTo b dst 0 0, body := .coll { t.pre with spec := specLO x.length (from_ + k * maxData) } x }

def sendTail (b : Blk) (t : HTrans) (dst from_ : Nat) (bs : List Byte) : Blk :=
  (tailPkts b t dst from_ bs).foldl (fun b p => sendTo b p (some t.cmd) t.rank) b

/-- R397: what demotes a transfer at its window's opening. -/
def demotes (b : Blk) (e : Haly) : Bool :=
  !b.beat.locked || !e.valid || !e.active || match portAt b e.outPort with
  | some n => let p := getP b n
    p.state != 2 || decide (4 ≤ p.sleep) || p.woke || p.rekey != 0 || p.retraining
  | none => true

/-- The destination of a transfer: the roster slot of its rank. -/
def transDst (b : Blk) (t : HTrans) : Nat :=
  match findGroup b t.pre.gid with | some (_, g) => slotEp (tget 0 b.t.roster (g.base + t.rank)) | none => 0

/-- HALYARD_WINDOW: the next transfer of the halyard leaves in the window, as much of it as the window holds, or is demoted. -/
def windowFx (b : Blk) (idx : Nat) : Blk :=
  match b.fab.halyT.find? fun t => t.idx == idx && t.seq.isNone with
  | none => b
  | some t =>
    let e := getHaly b idx
    let dst := transDst b t
    let off := preOff t.pre
    let rest := { b with fab := { b.fab with halyT := b.fab.halyT.erase t } }
    if demotes b e then
      let b := { rest with beat := { rest.beat with demote := bump rest.beat.demote 0xFFFFFFFF } }
      sendTail b t dst off t.bytes
    else
      let n := 56 * (e.len - 1)
      let now := t.bytes.take n
      let later := t.bytes.drop n
      let seq := (getDst b dst).next
      let p := cryptPkt b t.rank 0 { hdr := hdrTo b dst 0 0, body := .coll { t.pre with e2e := seq, spec := specLO now.length off } now }
      let mine := { t with bytes := now, seq := some seq, pre := { t.pre with e2e := seq, spec := specLO now.length off } }
      let next := if later.isEmpty then [] else [{ t with bytes := later, pre := { t.pre with spec := specLO later.length (off + n) } }]
      let b := { rest with fab := { rest.fab with halyT := mine :: next ++ rest.fab.halyT } }
      let b := modDst b dst fun d => { d with next := (seq + 1) % 2 ^ 32, unacked := d.unacked ++
        [{ seq, pkt := p, cmd := some t.cmd, rank := t.rank, haly := some idx, held := false, alt := false, resends := 0, mcast := none }] }
      match portAt b e.outPort with
      | some o => modP b o fun q => { q with halyQ := q.halyQ ++ halyCells e.outId p, idle := 0 }
      | none => b

def execHalyardWindow (idx : Nat) (s : State) : Host.Outcome State Fault Refusal :=
  act s fun b _ => if b.beat.inDip then b else windowFx b idx

/-- OVERRUN: cells that the window has not sent leave as DATA packets from the last byte sent (R396). -/
def overrunFx (b : Blk) (idx : Nat) : Blk :=
  match b.fab.halyT.find? fun t => t.idx == idx && t.seq.isSome with
  | none => b
  | some t =>
    let e := getHaly b idx
    let dst := transDst b t
    let b := { b with fab := { b.fab with halyT := b.fab.halyT.erase t } }
    match portAt b e.outPort with
    | none => b
    | some o =>
      let isMine := fun (c : FCell) => match c with | .halyard id _ _ => id == e.outId | _ => false
      let left := (getP b o).halyQ.filter isMine
      match left with
      | [] => b
      | c :: _ =>
        let k := match c with | .halyard _ k _ => k | _ => 0
        let sent := 56 * (k - 1)
        let b := modP b o fun q => { q with halyQ := q.halyQ.filter fun c => !isMine c }
        let b := { b with beat := { b.beat with overrun := bump b.beat.overrun 0x7FFFFFFF } }
        let b := match t.seq with | some seq => if k == 0 then forget b dst seq else b | none => b
        sendTail b t dst (preOff t.pre + sent) (t.bytes.drop sent)

def execOverrun (idx : Nat) (s : State) : Host.Outcome State Fault Refusal := act s fun b _ => overrunFx b idx

end Sys2Proof.Machine
end

