-- ==== Sys2Proof/Machine/Images.lean ====
section
/-!
DEFINITION. The entries of the block's tables as TABLE_READ writes them (R116, R120, R152, R342, R356, R366, R435, R436, R441, R580).
-/
namespace Sys2Proof.Machine

def wordBytes (ws : List Nat) : List Byte := ws.flatMap fun w => leBytes w 8

def localWord (g : Group) (k : Nat) : Nat := match g.locs[k]? with | some (f, r) => mk [(31, 23, f), (22, 9, r)] | none => 0

/-- R116. -/
def groupImage (g : Group) : List Byte :=
  wordBytes ([mk [(63, 63, b2n g.valid), (62, 60, g.state), (59, 58, g.autoReform), (57, 44, g.n), (31, 0, g.gen)],
    mk [(63, 32, g.gid), (31, 12, g.base)],
    mk [(63, 48, g.timeout), (47, 34, g.minMembers), (33, 30, g.locs.length), (29, 28, g.brokenCause), (27, 14, g.brokenRank), (13, 0, g.derivedM)],
    mk [(63, 60, g.pinUsed), (59, 40, g.derivedBase), (31, 0, g.digest)]] ++
    (List.range 4).map fun i => mk [(31, 0, localWord g (2 * i)), (63, 32, localWord g (2 * i + 1))])

/-- R356. -/
def halyImage (e : Haly) : List Byte :=
  wordBytes [mk [(63, 63, b2n e.valid), (62, 62, b2n e.active), (61, 56, e.inPort), (55, 50, e.outPort), (49, 34, e.outId), (33, 17, e.handle),
      (16, 10, e.resFloor)],
    mk [(63, 48, e.step), (47, 26, e.start), (25, 4, e.len)],
    mk [(63, 48, e.originEp), (47, 32, e.originIdx), (31, 0, e.actBeat)], 0]

/-- R152; a handle reserved and not installed reads as free. -/
def hoistImage (k : Nat) (h : Hoist) : List Byte :=
  if !h.valid then List.replicate 64 0
  else wordBytes [hoistW0 h h.pinned h.beatAligned, hoistW1 h, h.seed,
    mk [(63, 48, h.steps), (47, 32, h.beats), (31, 16, h.window), (15, 0, h.tolK)], h.tilesLo, h.tilesHi,
    mk [(63, 58, h.seqPerTile), (41, 0, h.ports)],
    mk [(63, 48, h.halyardBase), (47, 40, h.halyardCount), (39, 17, h.stagingNeed), (16, 0, k)]]

/-- Words of a pennant (R436). -/
def penWords (p : Pen) : List Nat :=
  [p.value.toNat, mk [(63, 48, p.lastEp), (47, 39, p.lastFn), (38, 36, p.lastKind), (31, 0, p.lastTag)],
   mk [(63, 16, p.sigCount), (13, 0, p.waiters)], mk [(63, 63, b2n p.mapped), (62, 54, p.fn), (53, 38, p.vid)]]

/-- Words of a stream entry (R435). -/
def streamWords (b : Blk) (k : Nat) (s : Stream) : List Nat :=
  let (w13, w14) := strCursor b s s.delivered
  let sh := fun n => if s.sharded then n else 0
  let st := fun i => s.strides.getD i 0
  [mk [(63, 63, b2n s.valid), (62, 60, s.state), (59, 58, s.cls), (57, 57, b2n s.sharded), (56, 56, b2n s.autoClose), (55, 55, b2n s.followsValid),
      (54, 49, s.follows), (48, 43, k % 64), (42, 34, k / 64), (31, 0, s.tag)],
   mk [(63, 32, sh s.gid), (31, 0, sh s.gen)], mk [(63, 16, sh s.cseq), (12, 0, s.rank)], s.srcBase % 2 ^ 57, mk [(63, 32, s.len0)],
   mk [(63, 48, s.counts.getD 3 0), (47, 32, s.counts.getD 2 0), (31, 16, s.counts.getD 1 0), (15, 0, s.counts.getD 0 0)],
   st 0, st 1, st 2, st 3, mk [(61, 57, s.slotLog2), (56, 0, s.dstBase)], mk [(63, 53, s.nslots), (47, 32, s.flyPen), (31, 16, s.creditPen)],
   mk [(63, 32, s.drainNs), (31, 0, s.flies)], w13, w14, s.delivered]

def streamImage (b : Blk) (k : Nat) (s : Stream) : List Byte :=
  if !s.valid then List.replicate 128 0 else wordBytes (streamWords b k s)

/-- Entry bytes and entries of a table (R580). -/
def tableShape (t : Nat) : Option (Nat × Nat) :=
  match t with
  | 0 => some (64, 16384)
  | 1 => some (4, 1048576)
  | 2 => some (32, 65536)
  | 3 => some (512, 1024)
  | 4 => some (32, 32768)
  | 5 => some (64, 98304)
  | 6 => some (32, 262144)
  | 7 => some (2, 131072)
  | 8 => some (128, 32768)
  | _ => none

/-- One entry: as of the last dip window, but for pennants (R580). -/
def tableEntry (b : Blk) (t k : Nat) : List Byte :=
  let s := b.snap
  match t with
  | 0 => groupImage (tget group0 s.group k)
  | 1 => leBytes (tget 0 s.roster k) 4
  | 2 => leBytes (tget 0 s.route k) 32
  | 3 => wordBytes ((List.range 64).map fun i => (tget [] s.mcast k).getD i 0)
  | 4 => halyImage (tget haly0 s.haly k)
  | 5 => hoistImage k (tget hoist0 s.hoist k)
  | 6 => wordBytes (penWords (tget pen0 b.pens k))
  | 7 => leBytes (tget 0 s.dir k) 2
  | _ => streamImage b k (tget stream0 s.stream k)

end Sys2Proof.Machine
end

