-- ==== Sys2Proof/Machine/Admin.lean ====
section
/-!
DEFINITION. The management commands (R131 to R169, R370 to R372, R442 to R445, R574 to R582, R646, R662): their checks and reservations as
they are dispatched, and what their staged changes do in a dip window (R527).
-/
namespace Sys2Proof.Machine

/-- A memory access of a management command failed (R577, R584). -/
def memEnd (b : Blk) (c : Cmd) (a : AccFault) : Blk :=
  endCmd (accessEvent b c.id.f c.id.q a.space (isPage a.kind) false (tagOf c) a.addr) c.id (faultStatus a.kind) 0

/-- Staged changes of an opcode, with their commands. -/
def stagedOf (b : Blk) (op : Nat) : List (Staged × Cmd) :=
  b.staged.filterMap fun s => (findCmd b s.cmd).bind fun c => if opOf c == op then some (s, c) else none

def unstaged (b : Blk) (id : CmdId) : Blk := { b with staged := b.staged.filter fun s => !decide (s.cmd = id) }

/-! ### PENNANT_MAP (R442 to R444) -/

def pmPages (c : Cmd) : List Nat := (List.range (pf c 4 2)).map (pf c 2 1 + ·)

/-- Whether a page is mapped, once the changes staged before have taken effect. -/
def willBeMapped (b : Blk) (f page : Nat) : Bool :=
  (stagedOf b 0x82).foldl (fun m (_, c) => if fFn c == f && (pmPages c).contains page then pf c 3 1 == 0 else m)
    (tb (tget 0 b.t.dir (f * 256 + page)) 15)

/-- Blocks neither mapped nor reserved nor waiting to be returned, ascending, at most n. -/
def freeBlocks (b : Blk) (n : Nat) : List Nat :=
  let used := (b.t.dir.filter fun e => tb e.2 15).map (fun e => fld e.2 9 0) ++ (stagedOf b 0x82).flatMap fun x => x.1.held
  ((List.range 1024).filter fun k => !used.contains k).take n

def pmBad (b : Blk) (c : Cmd) : Bool :=
  decide (256 < pf c 2 1 + pf c 4 2) || pf c 4 2 == 0 || !(getFn b (fFn c)).enabled || decide (1 < pf c 3 1) ||
  (pmPages c).any fun p => willBeMapped b (fFn c) p == (pf c 3 1 == 0)

/-- PENNANT_MAP with OP MAP: the lowest free blocks are reserved as it is dispatched. -/
def execPennantMap (id : CmdId) (s : State) : Host.Outcome State Fault Refusal :=
  act s fun b _ => onRun b id 0x82 fun c =>
    if pf c 3 1 == 1 then b
    else if pmBad b c then endCmd b id 0x61 0
    else
      let ks := freeBlocks b (pf c 4 2)
      if ks.length < pf c 4 2 then endCmd b id 0x60 0 else stage b c (ks.headD 0) ks

/-- PENNANT_MAP with OP UNMAP. -/
def execUnmap (id : CmdId) (s : State) : Host.Outcome State Fault Refusal :=
  act s fun b _ => onRun b id 0x82 fun c =>
    if pf c 3 1 != 1 then b
    else if pmBad b c then endCmd b id 0x61 0
    else stage b c 0 ((pmPages c).map fun p => fld (tget 0 b.t.dir (fFn c * 256 + p)) 9 0)

/-- MAP in its dip window (R441, R443). -/
def mapNow (b : Blk) (f tag : Nat) (pages blocks : List Nat) : Blk :=
  (pages.zip blocks).foldl (fun b (page, k) =>
    let b := { b with t := { b.t with dir := tset 0 b.t.dir (f * 256 + page) (mk [(15, 15, 1), (9, 0, k)]) } }
    (List.range 256).foldl (fun b i => modPen b (256 * k + i) fun _ => { pen0 with
      lastEp := selfEp b, lastTag := tag % 2 ^ 32, mapped := true, fn := f, vid := 256 * page + i }) b) b

/-- Whether a command's fly pennant lies in the pages. -/
def fliesIn (c : Cmd) (f : Nat) (pages : List Nat) : Bool :=
  c.id.f == f && flFly c && (fFlyMode c == 1 || fFlyMode c == 3) && pages.contains (fFlyPen c / 256)

/-- UNMAP takes effect: everything that names the pages ends (R444). -/
def unmapNow (b : Blk) (f : Nat) (pages : List Nat) : Blk :=
  let inBlk := fun (p : Nat) => pages.any fun g => let e := tget 0 b.t.dir (f * 256 + g); tb e 15 && fld e 9 0 == p / 256
  let heads := b.cmds.filter fun c => match c.waitOn with | some p => inBlk p | none => false
  let fliers := b.cmds.filter fun c => fliesIn c f pages && decide (c.phase = .running)
  let strs := (streamsOf b f).filter fun n => let s := getStr b f n; pages.contains (s.flyPen / 256) || pages.contains (s.creditPen / 256)
  let ws := b.watches.filter fun w => inBlk w.pen
  let b := heads.foldl (fun b c => endCmd b c.id 0x31 0) b
  let b := fliers.foldl (fun b c => endEarly b c.id 0x31 0x10) b
  let b := strs.foldl (fun b n => streamError b f n 0x31) b
  let b := ws.foldl (fun b w => notify (modPen b w.pen fun e => { e with waiters := e.waiters - 1 }) w 2 0) b
  let b := { b with watches := b.watches.filter fun w => !inBlk w.pen }
  pages.foldl (fun b g => { b with t := { b.t with dir := tset 0 b.t.dir (f * 256 + g) 0 } }) b

/-- Blocks return to the pool with MAPPED cleared. -/
def returnBlocks (b : Blk) (ks : List Nat) : Blk :=
  ks.foldl (fun b k => (List.range 256).foldl (fun b i => modPen b (256 * k + i) fun e => if e = pen0 then e else { e with mapped := false }) b) b

/-- Nothing that an UNMAP ended can still fly. -/
def unmapSettled (b : Blk) (f : Nat) (pages : List Nat) : Bool :=
  !(b.cmds.any fun c => fliesIn c f pages && (decide (c.phase = .running) || decide (c.phase = .ended)))

/-! ### Groups (R131 to R135, R145 to R148, R165) -/

def gcRoster (b : Blk) (m : Tab Byte) (c : Cmd) : List Nat :=
  let n := fld (pf c 8 2) 13 0
  let bs := fnRead b m c.id.f 0 (pf c 16 8) (4 * n)
  (List.range n).map fun i => leAt bs (4 * i) 4

/-- A GID is held by an entry or by a GROUP_CREATE that is staged (R131). -/
def gidHeld (b : Blk) (gid : Nat) : Bool := (findGroup b gid).isSome || (stagedOf b 0x83).any fun x => pf x.2 0 4 == gid

/-- Staged creations add to a function's charge (R164, R165). -/
def stagedRosters (b : Blk) (f : Nat) : List Nat :=
  b.forming.filterMap fun x => if x.cmd.isSome && (localsOf b x.roster).any (fun l => l.1 == f) then some x.roster.length else none

def quotaOk (b : Blk) (slots : List Nat) (old : Option Group) : Bool :=
  (localsOf b slots).all fun l =>
    let was := match old with | some g => (rankIn g l.1).isSome | none => false
    let back := match old with | some g => if was then g.n + g.derivedM else 0 | none => 0
    let st := stagedRosters b l.1
    decide (groupUse b l.1 + st.length + (if was then 0 else 1) ≤ (getFn b l.1).groupQuota) &&
    decide (rosterUse b l.1 + st.foldl (· + ·) 0 + slots.length ≤ (getFn b l.1).rosterQuota + back)

/-- The lowest group entry that is free and not reserved. -/
def freeGroup (b : Blk) : Option Nat :=
  let held := (stagedOf b 0x83).filterMap fun x => x.1.held.head?
  lowestFree 16384 0 (b.t.group.map (fun e => (e.1, ())) ++ held.map fun k => (k, ()))

def createFx (b : Blk) (m : Tab Byte) (c : Cmd) (fault : Option AccFault) : Blk :=
  let gid := pf c 0 4
  let n := fld (pf c 8 2) 13 0
  let min' := fld (pf c 10 2) 13 0
  if gidHeld b gid || pf c 4 4 == 0 || min' == 0 || decide (n < min') || pbits c 14 1 0 == 3 || decide (8192 < n) || n == 0 then endCmd b c.id 0x61 0
  else match fault with
  | some a => memEnd b c a
  | none =>
    let slots := gcRoster b m c
    if !rosterOk b slots then endCmd b c.id 0x61 0
    else if !quotaOk b slots none then endCmd b c.id 0x60 0
    else match freeGroup b, takeRun b n with
    | some h, some (base, b) =>
      let b := { b with forming := b.forming ++ [{ gid, beat := beatNow b, gen := pf c 4 4, roster := slots, cmd := some c.id }] }
      stage b c h [h, base]
    | _, _ => endCmd b c.id 0x60 0

def execGroupCreate (id : CmdId) (fault : Option AccFault) (s : State) : Host.Outcome State Fault Refusal :=
  act s fun b m => onRun b id 0x83 fun c => createFx b m c fault

/-- GROUP_CREATE in its dip window (R132). -/
def createNow (b : Blk) (c : Cmd) (h base : Nat) (slots : List Nat) : Blk :=
  let b := modGroup b h fun _ => { group0 with
    gid := pf c 0 4, timeout := pf c 12 2, minMembers := fld (pf c 10 2) 13 0, autoReform := pbits c 14 1 0 }
  formGroup b h (pf c 4 4) slots base

/-- The state of an entry as later commands see it: a GROUP_REFORM or GROUP_DESTROY taken counts at once (R135, R147). -/
def groupPhase (b : Blk) (gid : Nat) (g : Group) : Nat :=
  if g.state == 5 || (stagedOf b 0x85).any (fun x => pf x.2 0 4 == gid) then 5
  else if g.state == 3 || (stagedOf b 0x84).any (fun x => pf x.2 0 4 == gid) then 3
  else g.state

def reformFx (b : Blk) (m : Tab Byte) (c : Cmd) (fault : Option AccFault) : Blk :=
  let gid := pf c 0 4
  match findGroup b gid with
  | none => endCmd b c.id 0x31 0
  | some (h, g) =>
    let n := fld (pf c 8 2) 13 0
    if groupPhase b gid g == 5 then endCmd b c.id 0x10 0
    else if groupPhase b gid g == 3 then b
    else if pf c 4 4 ≤ g.gen || n == 0 || decide (8192 < n) then endCmd b c.id 0x61 0
    else match fault with
    | some a => memEnd b c a
    | none =>
      let slots := gcRoster b m c
      if !rosterOk b slots then endCmd b c.id 0x61 0
      else if !quotaOk b slots (some g) || decide (rosterSize + g.n + g.derivedM < usedSlots b + n) then endCmd b c.id 0x60 0
      else
        let b := { b with forming := b.forming ++ [{ gid, beat := beatNow b, gen := pf c 4 4, roster := slots, cmd := some c.id }] }
        stage b c (mk [(13, 0, h), (63, 32, pf c 4 4)]) [h]

def execGroupReform (id : CmdId) (fault : Option AccFault) (s : State) : Host.Outcome State Fault Refusal :=
  act s fun b m => onRun b id 0x84 fun c => reformFx b m c fault

/-- Commands of a group (of one generation, or of all) end ABORTED at this engine, and so do its streams. -/
def abortGroup (b : Blk) (gid : Nat) (gen : Option Nat) : Blk :=
  let is := fun (c : Cmd) => namesGroup c && fGid c == gid && (match gen with | some n => fGen c == n | none => true) && !(getFn b c.id.f).fenced &&
    (decide (c.phase = .accepted) || decide (c.phase = .running))
  let b := (b.cmds.filter is).foldl (fun b c => unstage (stopCmd b c.id 0x10) c.id) b
  (b.t.stream.filter fun e => e.2.valid && e.2.sharded && e.2.gid == gid && (match gen with | some n => e.2.gen == n | none => true)).foldl
    (fun b e => streamError b (e.1 / 64) (e.1 % 64) 0x10) b

/-- Commands of a group that have no completion record yet. -/
def groupBusy (b : Blk) (gid : Nat) (gen : Option Nat) : Bool :=
  b.cmds.any fun c => namesGroup c && fGid c == gid && (match gen with | some n => fGen c == n | none => true) && !decide (c.phase = .taken) &&
    !(getFn b c.id.f).fenced && !(gen.isSome && decide (c.phase = .accepted))

/-- GROUP_REFORM takes effect: REFORMING, the generation's commands end; once none remains the new roster is written (R148). -/
def reformNow (b : Blk) (h : Nat) : Blk :=
  let g := tget group0 b.t.group h
  let b := modGroup b h fun g => { g with state := 3 }
  abandon (abortGroup b g.gid (some g.gen)) g.gid g.gen none

def reformDone (b : Blk) (h gen : Nat) (slots : List Nat) : Blk :=
  let g := tget group0 b.t.group h
  let n := slots.length
  -- the old run and the derived roster are freed before a new run is taken
  let b := if g.derivedM = 0 then b else clearRoster b g.derivedBase g.derivedM
  let b := clearRoster b g.base g.n
  let (base, b) := if n ≤ g.n then (g.base, modGroup b h fun g => { g with n, derivedM := 0 })
    else (takeRun (modGroup b h fun g => { g with n := 0, derivedM := 0 }) n).getD (g.base, b)
  let b := formGroup b h gen slots base
  let g := tget group0 b.t.group h
  groupEvent b g 0x03 (mk [(13, 0, g.n)]) (mk [(63, 32, g.gen), (31, 0, beatNow b + 1)])

/-- GROUP_DESTROY (R134, R135). -/
def destroyFx (b : Blk) (c : Cmd) : Blk :=
  let gid := pf c 0 4
  match findGroup b gid with
  | none => endCmd b c.id 0x31 0
  | some (h, g) =>
    if groupPhase b gid g == 5 then modCmd b c.id fun c => { c with effectDone := true }
    else
      let b := (stagedOf b 0x84).foldl (fun b x =>
        if pf x.2 0 4 == gid then endCmd (unstage b x.2.id) x.2.id 0x10 0 else b) b
      stage b c 0 [h]

def execGroupDestroy (id : CmdId) (s : State) : Host.Outcome State Fault Refusal :=
  act s fun b _ => onRun b id 0x85 fun c => destroyFx b c

/-- DRAINING: commands end, early data and notices for the GID go. -/
def destroyNow (b : Blk) (h : Nat) : Blk :=
  let gid := (tget group0 b.t.group h).gid
  let b := abortGroup (modGroup b h fun g => { g with state := 5 }) gid none
  let fns := b.fns.map fun (e : Nat × Fn) => (e.1, { e.2 with spill := e.2.spill.filter fun p => (preOfPkt p.pkt).gid != gid })
  let b := { b with fns }
  { b with fab := { b.fab with
      heldSigs := b.fab.heldSigs.filter fun x => (preOfPkt x.pkt).gid != gid
      atoms := b.fab.atoms.filter fun p => (preOfPkt p).gid != gid
      arbs := b.fab.arbs.filter fun a => a.gid != gid
      unver := b.fab.unver.filter fun u => u.gid != gid
      applied := b.fab.applied.filter fun a => a.gid != gid
      aborts := b.fab.aborts.filter fun a => a.1 != gid
      ended := b.fab.ended.filter fun e => e.1 != gid } }

/-- FREE: the roster, the derived roster and every hoist handle of the group return. -/
def freeGroupNow (b : Blk) (h : Nat) : Blk :=
  let g := tget group0 b.t.group h
  let b := if g.derivedM = 0 then b else clearRoster b g.derivedBase g.derivedM
  let b := clearRoster b g.base g.n
  let b := (b.t.hoist.filter fun e => e.2.gid == g.gid && e.2.valid).foldl (fun b e => freeHandle b e.1) b
  let b := modGroup b h fun _ => group0
  { b with sec := { b.sec with gks := b.sec.gks.filter fun k => k.1 != g.gid } }

/-! ### Hoists (R159 to R163, R576, R578) -/

/-- RESULT of HOIST_COMPILE and HOIST_INSTALL (R583). -/
def hoistResult (k : Nat) (h : Hoist) : Nat :=
  mk [(16, 0, k), (17, 17, b2n h.beatAligned), (18, 18, b2n (decide (k < 65536))), (47, 32, h.steps), (63, 48, h.beats)]

/-- The hoist that a HOIST_COMPILE's fields describe (R578). -/
def compileKey (c : Cmd) (g : Group) : Hoist :=
  let o := pf c 12 1
  let set := fun (n v : Nat) => if v == 0 then 0 else 2 ^ n
  { hoist0 with
    valid := true, gid := g.gid, gen := g.gen, opcode := pf c 4 1, format := pbits c 5 3 0, oper := pbits c 5 7 4, xform := pbits c 6 1 0
    xparam := pbits c 6 7 2, pin := pbits c 7 3 0, inner := pbits c 7 7 4, sizeClass := pbits c 8 5 0, chunkLog2 := pbits c 9 4 0
    fanin := pbits c 10 4 0, window := pbits c 11 6 0, seed := if tb o 0 then pf c 16 8 else 0, atomicLocal := tb o 1
    tilesLo := if tb o 3 then pf c 24 8 else 0, tilesHi := if tb o 3 then pf c 32 8 else 0, ports := if tb o 4 then pf c 40 8 % 2 ^ 42 else 0
    halyardOpt := fld o 6 5
    kept := b2n (tb o 0) + set 1 (pbits c 9 4 0) + set 2 (pbits c 10 4 0) + set 3 (pbits c 7 7 4) + set 4 (pbits c 11 6 0) + 32 * b2n (tb o 3) +
      64 * b2n (tb o 4) }

/-- The hoist of a HOIST_INSTALL's image (R162): words 0 to 3 as given, with the entry's generation; placement as hints. -/
def imageHoist (bs : List Byte) (gen opt : Nat) : Hoist :=
  let w := fun k => leAt bs (8 * k) 8
  { hoist0 with
    valid := true, atomicLocal := tb (w 0) 60, alg := fld (w 0) 59 56, inner := fld (w 0) 55 52, fanin := fld (w 0) 51 47
    chunkLog2 := fld (w 0) 46 42, sizeClass := fld (w 0) 41 36, pin := fld (w 0) 35 32, gen, gid := fld (w 1) 63 32, opcode := fld (w 1) 31 24
    format := fld (w 1) 23 20, oper := fld (w 1) 19 16, xform := fld (w 1) 15 14, xparam := fld (w 1) 13 8, seed := w 2
    steps := fld (w 3) 63 48, beats := fld (w 3) 47 32, window := fld (w 3) 31 16, tolK := fld (w 3) 15 0, tilesLo := w 4, tilesHi := w 5
    seqPerTile := fld (w 6) 63 58, ports := fld (w 6) 41 0, halyardBase := 0xFFFF, halyardOpt := opt
    kept := 1 + 2 + (if fld (w 0) 51 47 == 0 then 0 else 4) + (if fld (w 0) 59 56 == 5 then 8 else 0) + 16 +
      (if w 4 == 0 && w 5 == 0 then 0 else 32) + (if fld (w 6) 41 0 == 0 then 0 else 64) }

def hoistOpcode (op : Nat) : Bool := isColl op || isP2p op || op == 0x20 || op == 0x21

/-- A free handle: the lowest free pin slot, or a shared one. -/
def handleFor (b : Blk) (gh : Nat) (pin : Bool) : Option Nat :=
  if pin then ((List.range 4).map (4 * gh + ·)).find? fun k => !(b.t.hoist.any fun e => e.1 == k) else sharedHandle b

/-- Once a reserved handle has its halyards or does without, the change is staged (R527, R578). -/
def hoistReady (b : Blk) (c : Cmd) (k : Nat) : Blk :=
  if b.compiles.any fun x => x.handle == k then b
  else
    let h := getHoist b k
    if h.halyardOpt == 2 && !h.beatAligned then endCmd (unreserve b c.id) c.id 0x60 0
    else stage b c (hoistResult k h) [k]

/-- Reserve a handle for a compiled hoist, and seek its halyards. -/
def hoistReserve (b : Blk) (c : Cmd) (gh : Nat) (x : Hoist) (pin : Bool) : Blk :=
  let g := tget group0 b.t.group gh
  match (if x.alg == 5 then makeDerived b gh ((g.locs.headD (0, 0)).1) else some b) with
  | none => endCmd b c.id 0x60 0
  | some b =>
    match handleFor b gh pin with
    | none => if pin then endCmd b c.id 0x60 0 else b
    | some k =>
      let b := if (getHoist b k).valid then freeHandle b k else b
      let b := modHoist b k fun _ => { x with valid := false, pinned := pin, bound := 1 }
      let b := modCmd b c.id fun c => { c with handle := some k }
      let b := if x.halyardOpt == 1 then b else seekHalyards b gh k c.id true
      hoistReady b { c with handle := some k } k

def hoistCompileFx (b : Blk) (c : Cmd) : Blk :=
  match c.handle with
  | some k => hoistReady b c k
  | none =>
    let o := pf c 12 1
    match findGroup b (pf c 0 4) with
    | none => endCmd b c.id 0x61 0
    | some (gh, g) =>
      let x := compileKey c g
      let bad := !hoistOpcode x.opcode || decide (34 < x.sizeClass) || x.halyardOpt == 3 || tb o 7 || tb (pf c 9 1) 5 || decide (10 < pf c 7 1 % 16)
      let y := compile b g x
      let M := (enginesOf (rosterEps b g)).length
      if bad || !schedOk { x with alg := y.alg, inner := if tb x.kept 3 then x.inner else y.inner } g.n M then endCmd b c.id 0x61 0
      else hoistReserve b c gh y (tb o 2)

def execHoistCompile (id : CmdId) (s : State) : Host.Outcome State Fault Refusal :=
  act s fun b _ => onRun b id 0x86 fun c => hoistCompileFx b c

def hoistInstallFx (b : Blk) (m : Tab Byte) (c : Cmd) (fault : Option AccFault) : Blk :=
  match c.handle with
  | some k => hoistReady b c k
  | none =>
    match fault with
    | some a => memEnd b c a
    | none =>
      let bs := fnRead b m c.id.f 0 (pf c 0 8) 64
      let opt := fld (pf c 8 1) 2 1
      match findGroup b (fld (leAt bs 8 8) 63 32) with
      | none => endCmd b c.id 0x61 0
      | some (gh, g) =>
        let x := imageHoist bs g.gen opt
        let M := (enginesOf (rosterEps b g)).length
        if !hoistOpcode x.opcode || decide (34 < x.sizeClass) || opt == 3 || !schedOk x g.n M then endCmd b c.id 0x61 0
        else
          let y := place b g x
          let y := { y with stagingNeed := cdiv (y.window * 2 ^ y.chunkLog2 * stagingF y.opcode y.alg y.inner y.fanin) 4096, beats := 0 }
          hoistReserve b c gh y (tb (pf c 8 1) 0)

def execHoistInstall (id : CmdId) (fault : Option AccFault) (s : State) : Host.Outcome State Fault Refusal :=
  act s fun b m => onRun b id 0x87 fun c => hoistInstallFx b m c fault

/-- The reserved handle becomes valid; an equal key gives way (R163). -/
def installNow (b : Blk) (k : Nat) : Blk := installAt b k { getHoist b k with valid := true }

def execHoistRelease (id : CmdId) (s : State) : Host.Outcome State Fault Refusal :=
  act s fun b _ => onRun b id 0x88 fun c =>
    let k := pf c 0 4 % 2 ^ 17
    if !(getHoist b k).valid || decide (98304 ≤ k) then endCmd b id 0x61 0 else stage b c 0 [k]

/-! ### ROUTE_UPDATE (R343, R366, R370 to R372, R579) -/

/-- R343. -/
def routeOk (b : Blk) (e : Nat) : Bool :=
  let path := fun (alt : Bool) (n : Nat) => decide (1 ≤ n) &&
    (List.range 15).all (fun i => if i < n then decide (rtCode e alt i < 42) else rtCode e alt i == 63) && portExists b (rtCode e alt 0)
  !rtValid e || (path false (fld e 253 250) && (!rtAlt e || path true (fld e 249 246)))

/-- R366: disjoint masks, none with SELF. -/
def domainOk (e : List Nat) : Bool :=
  let masks := (List.range 42).map (domMask e)
  !domValid e || (decide ((masks.map fun m => (bitsSet m 64).length).foldl (· + ·) 0 = (bitsSet (domReach e) 64).length) &&
    (decide (64 ≤ domSelf e) || !tb (domReach e) (domSelf e)))

def ruRoutes (b : Blk) (m : Tab Byte) (c : Cmd) : List (Nat × Nat) :=
  (List.range (pf c 8 4)).map fun i => let bs := fnRead b m c.id.f 0 (pf c 0 8 + 64 * i) 64; (leAt bs 0 2, leAt bs 32 32)

def ruDomains (b : Blk) (m : Tab Byte) (c : Cmd) : List (Nat × List Nat) :=
  (List.range (pf c 12 2)).map fun i =>
    let bs := fnRead b m c.id.f 0 (pf c 0 8 + 64 * pf c 8 4 + 576 * i) 576
    (leAt bs 0 2, (List.range 64).map fun k => leAt bs (64 + 8 * k) 8)

/-- Members that a domain names: those a port reaches. -/
def domMembers (e : List Nat) : List Nat := if domValid e then (bitsSet (domReach e) 64).map (domMember e) else []

/-- Affected destinations (R370): whose valid entry changes, and members of domains that change; an entry that was not valid needs no
drain (R372). -/
def ruDrain (b : Blk) (c : Cmd) (rs : List (Nat × Nat)) (ds : List (Nat × List Nat)) : Drain :=
  let moved := rs.filter fun r => r.1 != selfEp b && r.2 != routeOf b r.1 && rtValid (routeOf b r.1)
  let doms := ds.filter fun d => d.2 != domOf b d.1 && domValid (domOf b d.1)
  { cmd := c.id, eps := (moved.map (·.1) ++ doms.flatMap fun d => domMembers (domOf b d.1)).eraseDups, doms := doms.map (·.1), since := beatNow b
    routes := rs, domains := ds, drainOff := false }

def routeFx (b : Blk) (m : Tab Byte) (c : Cmd) (fault : Option AccFault) : Blk :=
  if pf c 8 4 == 0 && pf c 12 2 == 0 then endCmd b c.id 0 0
  else if decide (65536 < pf c 8 4) || decide (1024 < pf c 12 2) || pf c 14 2 == 0 then endCmd b c.id 0x61 0
  else if b.fab.drain.isSome then b
  else match fault with
  | some a => memEnd b c a
  | none =>
    let rs := ruRoutes b m c
    let ds := ruDomains b m c
    if !decide ((rs.map (·.1)).Nodup) || !decide ((ds.map (·.1)).Nodup) || (rs.any fun r => r.1 != selfEp b && !routeOk b r.2) ||
       (ds.any fun d => decide (1024 ≤ d.1) || !domainOk d.2) then endCmd b c.id 0x61 0
    else { b with fab := { b.fab with drain := some (ruDrain b c rs ds) } }

def execRouteUpdate (id : CmdId) (fault : Option AccFault) (s : State) : Host.Outcome State Fault Refusal :=
  act s fun b m => onRun b id 0x89 fun c => match b.fab.drain with
    | some d => if d.cmd = id then b else routeFx b m c fault
    | none => routeFx b m c fault

/-- Step 3 of R370: nothing sent to an affected destination is unacknowledged, no OTHER-class packet to one is queued here. -/
def drained (b : Blk) (d : Drain) : Bool :=
  d.eps.all (fun ep => (getDst b ep).unacked.isEmpty) && d.doms.all (fun k => (getMdst b k).unacked.isEmpty) &&
  !(b.ports.any fun p => p.out.any fun q => q.src == 63 && match q.cells with | .routed h _ _ _ :: _ => h.cls == 1 && d.eps.contains h.dst | _ => false)

/-- The drain is over: APPLIED is issued, and the swap follows in a dip window. -/
def drainOver (b : Blk) (c : Cmd) (d : Drain) (bits : Nat) : Blk :=
  let b := stage b c (bits + mk [(47, 32, beatNow b - d.since)]) []
  { b with fab := { b.fab with drain := some { d with drainOff := true } } }

def execRouteDrainDone (id : CmdId) (s : State) : Host.Outcome State Fault Refusal :=
  act s fun b _ => onRun b id 0x89 fun c => match b.fab.drain with
    | some d => if d.cmd = id && !d.drainOff && drained b d then drainOver b c d 0 else b
    | none => b

/-- DRAIN_TIMEOUT (R371). -/
def execDrainTimeout (id : CmdId) (s : State) : Host.Outcome State Fault Refusal :=
  act s fun b _ => onRun b id 0x89 fun c => match b.fab.drain with
    | some d =>
      if d.cmd = id && !d.drainOff && decide (d.since + pf c 14 2 ≤ beatNow b) && !drained b d then
        if tb (pf c 16 1) 0 then drainOver b c d 3
        else endCmd (endDrain b id) id 0x10 (1 + mk [(47, 32, beatNow b - d.since)])
      else b
    | none => b

/-- The swap (R370 step 4): entries, flows pinned again, injection resumes. -/
def swapRoutes (b : Blk) (d : Drain) : Blk :=
  let route := d.routes.foldl (fun (t : Tab Nat) (r : Nat × Nat) => if r.1 == selfEp b then t else tset 0 t r.1 r.2) b.t.route
  let mcast := d.domains.foldl (fun (t : Tab (List Nat)) (x : Nat × List Nat) => tset [] t x.1 (if x.2.all (· == 0) then [] else x.2)) b.t.mcast
  let b := { b with t := { b.t with route, mcast } }
  let eps := (d.eps ++ d.routes.map (·.1)).eraseDups
  let flows := b.fab.flows.map fun (f : Flow) => if eps.contains f.dst then { f with alt := chooseAlt b (routeOf b f.dst) 0 } else f
  let b := { b with fab := { b.fab with drain := none, flows } }
  (d.doms).foldl flushMc (eps.foldl flush b)

/-! ### TABLE_READ, POWER_POLICY, FN_ROTATE, ATTEST -/

def tableReadFx (b : Blk) (c : Cmd) (fault : Option AccFault) : Blk :=
  let t := pf c 0 1
  let n := pf c 4 4
  let first := pf c 8 8
  match tableShape t with
  | none => endCmd b c.id 0x61 0
  | some (_, k) =>
    if n == 0 || decide (65536 < n) || decide (k < first + n) then endCmd b c.id 0x61 0
    else match fault with
    | some a => memEnd b c a
    | none =>
      let bs := (List.range n).flatMap fun i => tableEntry b t (first + i)
      endCmd (fnStore b c.id.f 0 (pf c 16 8) (padTo (upTo bs.length 64) bs)) c.id 0 n

def execTableRead (id : CmdId) (fault : Option AccFault) (s : State) : Host.Outcome State Fault Refusal :=
  act s fun b _ => onRun b id 0x8A fun c => tableReadFx b c fault

def ppMin (c : Cmd) (s : Nat) : Nat := pf c (8 + 4 * s) 2
def ppMax (c : Cmd) (s : Nat) : Nat := pf c (10 + 4 * s) 2

/-- R662: what makes POWER_POLICY a REJECTED_FORMAT. Bounds of a sector that does not exist are ignored (R581). -/
def ppBad (b : Blk) (c : Cmd) : Bool :=
  (tb (pf c 2 1) 0 && (let w := pf c 0 2; w != 0 && (decide (w < 20) || decide (340 < w)))) ||
  (tb (pf c 2 1) 1 && (List.range 8).any fun s => sectorExists b s &&
    (decide (ppMin c s < 400) || decide (1500 < ppMin c s) || decide (ppMax c s < ppMin c s) || decide (1500 < ppMax c s)))

def execPowerPolicy (id : CmdId) (s : State) : Host.Outcome State Fault Refusal :=
  act s fun b _ => onRun b id 0x8B fun c =>
    if ppBad b c then endCmd b id 0x61 0 else stage b c (if tb (pf c 2 1) 0 then pf c 0 2 else b.pwr.cap) []

/-- FN_ROTATE (R646): it waits while units under a previous key are kept. -/
def execFnRotate (id : CmdId) (s : State) : Host.Outcome State Fault Refusal :=
  act s fun b _ => onRun b id 0x8C fun c =>
    let f := fld (pf c 2 2) 8 0
    let n := getFn b f
    if pf c 0 1 != 0 then b
    else if !n.enabled then endCmd b id 0x61 0
    else if n.spill.any fun u => u.epoch != n.keyEpoch then b
    else endCmd (modFn b f fun n => { n with keyEpoch := (n.keyEpoch + 1) % 2 ^ 32 }) id 0 ((n.keyEpoch + 1) % 2 ^ 32)

/-- ATTEST (R582): the SPDM responder's answer to a request is not part of the spec's model of the block (Config.spdmResponse). -/
def attestFx (b : Blk) (m : Tab Byte) (c : Cmd) (fault : Option AccFault) : Blk :=
  let n := pf c 16 4
  let cap := pf c 20 4
  if decide (n < 4) || decide (65536 < n) || decide (cap < 64) || decide (65536 < cap) then endCmd b c.id 0x61 0
  else match fault with
  | some a => memEnd b c a
  | none =>
    let req := fnRead b m c.id.f 0 (pf c 0 8) n
    let rsp := Config.spdmResponse req b.fresh
    let b := { b with fresh := b.fresh + 1, sec := { b.sec with hostSessions := Config.spdmSessions req b.sec.hostSessions } }
    if cap < rsp.length then endCmd b c.id 0x60 rsp.length
    else endCmd (fnStore b c.id.f 0 (pf c 8 8) rsp) c.id 0 rsp.length

def execAttest (id : CmdId) (fault : Option AccFault) (s : State) : Host.Outcome State Fault Refusal :=
  act s fun b m => onRun b id 0x8D fun c => attestFx b m c fault

/-! ### Staged changes in a dip window (R527) -/

def rosterStaged (b : Blk) (id : CmdId) : Forming := (b.forming.find? fun x => decide (x.cmd = some id)).getD { gid := 0, beat := 0, gen := 0, roster := [], cmd := none }

/-- The change is over: nothing is held for it, and its command completes with its result. -/
def settleStaged (b : Blk) (c : Cmd) : Blk :=
  endCmd { unstaged b c.id with forming := b.forming.filter fun x => !decide (x.cmd = some c.id) } c.id 0 c.result

/-- OPPs of R659: 400 MHz to 1,500 MHz in steps of 100 MHz; a bound rounded up or down to one. -/
def oppUp (f : Nat) : Nat := upTo f 100
def oppDown (f : Nat) : Nat := f / 100 * 100

def policyNow (b : Blk) (c : Cmd) : Blk :=
  let b := if tb (pf c 2 1) 0 then { b with pwr := { b.pwr with cap := pf c 0 2 } } else b
  if tb (pf c 2 1) 1 then
    (List.range 8).foldl (fun b s => if sectorExists b s then modSect b s fun x =>
      { x with fmin := oppUp (ppMin c s), fmax := max (oppUp (ppMin c s)) (oppDown (ppMax c s)) } else b) b
  else b

/-- One staged change whose APPLIED is durable; a change in force goes on waiting until what it ended has completed. -/
def applyStaged (b : Blk) (s : Staged) (c : Cmd) : Blk :=
  let force := fun (b : Blk) => { b with staged := b.staged.map fun x => if x.cmd = s.cmd then { x with inForce := true } else x }
  let h := s.held.headD 0
  match opOf c with
  | 0x82 =>
    if pf c 3 1 == 0 then settleStaged (mapNow b (fFn c) (tagOf c) (pmPages c) s.held) c
    else
      let b := if s.inForce then b else force (unmapNow b (fFn c) (pmPages c))
      if unmapSettled b (fFn c) (pmPages c) then settleStaged (returnBlocks b s.held) c else b
  | 0x83 => settleStaged (createNow b c h (s.held.getD 1 0) (rosterStaged b c.id).roster) c
  | 0x84 =>
    let b := if s.inForce then b else force (reformNow b h)
    let g := tget group0 b.t.group h
    if groupBusy b g.gid (some g.gen) then b
    else let f := rosterStaged b c.id; settleStaged (reformDone b h f.gen f.roster) c
  | 0x85 =>
    let b := if s.inForce then b else force (destroyNow b h)
    let gid := (tget group0 b.t.group h).gid
    if groupBusy b gid none then b
    else
      let b := settleStaged (freeGroupNow b h) c
      (b.cmds.filter fun d => opOf d == 0x85 && decide (d.phase = .running) && pf d 0 4 == gid).foldl (fun b d => endCmd b d.id 0 0) b
  | 0x86 => settleStaged (installNow b h) c
  | 0x87 => settleStaged (installNow b h) c
  | 0x88 =>
    let b := if s.inForce then b else force (modHoist b h fun x => { x with leaving := true })
    if (getHoist b h).bound == 0 then settleStaged (freeHandle b h) c else b
  | 0x89 => match b.fab.drain with
    | some d => settleStaged (swapRoutes b d) c
    | none => settleStaged b c
  | 0x8B => settleStaged (policyNow b c) c
  | _ => settleStaged b c

/-- The staged changes that fall due as a dip window opens: those whose APPLIED is durable, and those in force that still wait for what they
have ended. A change whose APPLIED is not durable waits for the first dip window that opens after it is (log 41). -/
def dueStaged (b : Blk) : List CmdId :=
  (b.staged.filter fun s => (s.inForce || durable b s.cmd.f s.lsn) && fnLive b s.cmd.f).map (·.cmd)

/-- The staged changes that are due take effect, in the order they were staged. -/
def applyAllStaged (b : Blk) (due : List CmdId) : Blk :=
  b.staged.foldl (fun b s => if due.contains s.cmd then
      match findCmd b s.cmd with
      | some c => applyStaged b s c
      | none => unstaged b s.cmd
    else b) b

end Sys2Proof.Machine
end

