-- ==== Sys2Proof/Machine/Registers.lean ====
section
/-!
DEFINITION. The registers of the CTL port as they read (R7 to R9, R29, R305 to R309, R373 to R378, R473 to R485, R500, R501, R517 to
R519, R613 to R622, R626, R639, R647, R653, R674 to R680, R685, R689, R700, R707, R708, R722, R731, R733, R742 to R769, R776, R777,
R787, R790). No read changes any state (R735).
-/
namespace Sys2Proof.Machine

/-! ### The block range -/

def identReg (b : Blk) : Nat :=
  let less := b.part.disabled.isSome
  mk [(63, 48, 0x05CA), (47, 40, 0x2A), (39, 32, 4), (31, 24, if less then 1 else 0), (23, 16, if less then 7 else 8)]

def capsReg (b : Blk) : Nat :=
  let less := b.part.disabled.isSome
  mk [(63, 56, if less then 0x23 else 0x28), (55, 48, if less then 0x70 else 0x80), (47, 40, 4), (39, 32, 16), (31, 16, 0x200), (15, 8, 0x19), (7, 0, 0x0C)]

def secmapReg (b : Blk) : Nat :=
  mk ((List.range 8).map fun s => (8 * s + 7, 8 * s, if sectorExists b s then 128 + physOf b s else 0))

def coreByte (c : CoreSt) : Nat := mk [(7, 6, if c.fenced then 3 else 0), (5, 4, c.role), (3, 3, b2n c.restarting)]

def phaseCode (p : RstPhase) : Nat := match p with | .run => 0 | .quiesce => 1 | .firmware => 2 | .replay => 3

def blockReg (b : Blk) (off : Nat) : Nat :=
  match off with
  | 0x00 => identReg b
  | 0x08 => mk [(47, 40, 4), (39, 32, 1), (23, 0, b.life.fwVersion)]
  | 0x10 => capsReg b
  | 0x18 => secmapReg b
  | 0x40 => b.ctl.arbSlack.stored.toNat
  | 0x48 => b.ctl.penDlck.stored.toNat
  | 0x50 => b.shadow.free
  | 0x60 => b.ctl.admin.toNat
  | 0x68 => mk [(63, 63, b2n (b.life.fatal != 0)), (6, 0, b.life.fatal)]
  | 0x78 => mk [(63, 61, phaseCode b.life.phase), (60, 60, b2n b.life.lastCold), (59, 48, b.life.unquiesced), (47, 32, b.life.blockResets),
      (31, 0, b.life.replayUs)]
  | 0x80 => b.ctl.msiPort
  | 0x88 => mk [(63, 48, b.restarts), (23, 16, coreByte (b.cores.getD 2 core0)), (15, 8, coreByte (b.cores.getD 1 core0)),
      (7, 0, coreByte (b.cores.getD 0 core0))]
  | 0x90 => b.ctl.adminCtx.toNat
  | 0x1000 => mk [(63, 63, b2n b.test.flashOk), (62, 62, b2n b.test.patternsOk), (61, 61, b2n b.test.tapActive), (60, 60, b2n b.test.selftestBusy),
      (59, 59, b2n b.test.flashBusy), (47, 32, b.test.patVer), (31, 0, b.test.flashKib)]
  | 0x1008 => mk [(63, 63, b2n b.test.dbgDis), (62, 62, b2n (b.test.flashRel || b.test.flashRelDue))]
  | _ => 0

/-! ### Sectors and tiles -/

def sectStat (b : Blk) (s : Nat) : Nat :=
  let x := getSect b s
  let fenced := mk ((List.range 16).map fun j => (j, j, b2n ((getTile b (16 * s + j)).state == 3)))
  mk [(63, 63, 1), (62, 61, if x.fenced then 3 else 0), (60, 58, physOf b s), (57, 53, x.spare), (51, 48, x.cause), (47, 32, fenced),
    (31, 0, if x.fenced then x.fenceBeat else 0)]

def tileStat (b : Blk) (t : Nat) : Nat :=
  let x := getTile b t
  mk [(63, 63, 1), (62, 61, x.state), (60, 56, x.slot), (55, 55, b2n x.arrSpare), (54, 52, x.arrIdx), (51, 50, x.seqSpares), (47, 44, x.cause),
    (31, 0, x.fenceBeat)]

/-- Per-tile registers that a dip window updates. -/
def tileReg (b : Blk) (t k : Nat) : Nat :=
  let x := b.shadow.tiles.getD t (tile0 0)
  match k with
  | 0x00 => tileStat b t
  | 0x08 => mk [(63, 48, x.arbRx), (47, 32, x.transient), (31, 16, x.sat), (15, 0, x.selftest)]
  | 0x80 => x.busy
  | 0x88 => x.slivers
  | 0x90 => x.real
  | 0x98 => x.dummy
  | 0xA0 => mk [(63, 32, x.eccCorr), (31, 24, x.rows)]
  | 0xA8 => x.fault
  | _ => 0

def sectorRange (b : Blk) (off : Nat) : Nat :=
  if off == 0x10000 then b.ctl.arrCur.stored.toNat
  else if decide (0x20000 ≤ off) && decide (off < 0x28000) && off % 0x1000 == 0 then
    let s := (off - 0x20000) / 0x1000
    if sectorExists b s then sectStat b s else 0
  else if decide (0x30000 ≤ off) && decide (off < 0x38000) then
    let t := (off - 0x30000) / 0x100
    if tileExists b t then tileReg b t (off % 0x100) else 0
  else 0

/-! ### Ports -/

def prbsLock (p : Port) : Nat := mk ((List.range 13).map fun l => (l, l, b2n (tget checker0 p.prbs l).lock))

def linkReg (p : Port) (k : Nat) : Nat :=
  match k with
  | 0x000 => mk [(63, 63, b2n p.enable), (59, 56, p.ring), (7, 0, p.cable)]
  | 0x008 => mk [(63, 62, p.state), (61, 61, b2n p.spared), (60, 55, p.serves), (54, 49, p.partnerPort), (47, 32, p.partnerEp), (31, 24, p.downCount)]
  | 0x010 => mk [(63, 48, p.crcErr), (47, 32, p.retry), (31, 24, p.retryRun), (23, 16, p.authFail), (15, 8, p.downDrop), (7, 0, p.framing)]
  | 0x018 => mk [(63, 32, p.corrSym), (31, 16, p.uncorr), (15, 8, p.skewNs)]
  | 0x020 => mk [(63, 51, p.txActive), (50, 38, p.rxActive), (37, 25, p.rxFault), (21, 16, p.laneRetrains)]
  | 0x028 => mk [(63, 48, p.wakeNs), (47, 40, p.adaptMs)]
  | 0x100 => p.prbsCtl.toNat
  | 0x108 => mk [(63, 51, prbsLock p)]
  | 0x180 => p.prbsBits
  | k => if decide (0x110 ≤ k) && decide (k < 0x110 + 8 * 13) then (tget checker0 p.prbs ((k - 0x110) / 8)).err else 0

def memStat (p : MemP) : Nat :=
  mk [(63, 62, p.state), (61, 51, p.reads.length), (50, 40, p.writes.length), (39, 31, p.xlats.length), (15, 0, p.errResp)]

def d2dStat (d : D2d) : Nat := mk [(63, 62, d.state), (61, 61, b2n d.cfgErr), (47, 32, d.denied), (31, 16, d.dropped), (15, 0, d.linkLoss)]

def portRange (b : Blk) (off : Nat) : Nat :=
  if off < 0x12A000 then
    let n := (off - 0x100000) / 0x1000
    if portExists b n then linkReg (getP b n) (off % 0x1000) else 0
  else if decide (0x130000 ≤ off) && decide (off < 0x140000) && off % 0x1000 == 0 then memStat (getM b ((off - 0x130000) / 0x1000))
  else if decide (0x140000 ≤ off) && decide (off < 0x144000) && off % 0x1000 == 0 then d2dStat (getD2 b ((off - 0x140000) / 0x1000))
  else match off with
  | 0x1F0000 => b.ctl.floor.stored.toNat
  | 0x1F0008 => b.ctl.fabSelf.toNat
  | 0x1F0010 => b.ctl.throttle.stored.toNat
  | 0x1F0018 => b.ctl.e2e.stored.toNat
  | _ => 0

/-! ### Beat, power, thermal, security -/

/-- A signed 16-bit field that saturates at ±32,767 (R375). -/
def sat16 (i : Int) : Nat := unsext 16 (max (-32767) (min 32767 i))

def beatStat (x : Beat) : Nat :=
  mk [(63, 63, b2n x.locked), (62, 62, b2n x.master), (61, 61, b2n x.cfgErr), (60, 60, b2n x.mismatch), (59, 54, x.parent), (53, 46, x.dist),
    (31, 16, sat16 x.offset), (15, 0, x.lockLoss)]

/-- Means over the last beat (R675), of the estimates of R664 made in it; rounded down (DESIGN CHOICE, log 11). -/
def meanOf (sum n : Nat) : Nat := sum / max 1 n

def pwrStat (p : Pwr) (ss : List Sector) : Nat :=
  mk [(63, 55, if p.cap == 0 then 340 else p.cap), (54, 46, meanOf p.sumW p.samples), (45, 36, meanOf p.sumA p.samples), (35, 35, b2n p.emerg),
    (34, 34, b2n p.crit), (33, 33, b2n (ss.any (·.thermal))), (32, 32, b2n p.current), (31, 31, b2n p.pmax), (30, 30, b2n p.vgrant)]

/-- An absent sector, or one stopped because it is fenced, reads 0xF (R655, R676). -/
def oppField (b : Blk) (x : Sector) (s opp : Nat) : Nat := if !sectorExists b s || x.fenced then 15 else opp

def secOpp (b : Blk) : Nat :=
  mk (b.shadow.sectors.zipIdx.flatMap fun (e, s) => [(4 * s + 3, 4 * s, oppField b e s e.opp), (4 * s + 35, 4 * s + 32, oppField b e s e.policyOpp)])

def secAct (b : Blk) : Nat := mk (b.shadow.sectors.zipIdx.map fun (e, s) => (5 * s + 4, 5 * s, if sectorExists b s then e.actMax else 0))
def secTemp (b : Blk) : Nat := mk (b.shadow.sectors.zipIdx.map fun (e, s) => (8 * s + 7, 8 * s, if sectorExists b s then e.temp else 0))

/-- What MEM_OBS shows of the last beat is measured outside the model: its reset value before the first beat, then free values in each
field's range (R680; log 12). -/
def memObs (b : Blk) (m : Nat) : Nat :=
  let beat := b.shadow.beat.count
  if beat = 0 then mk [(63, 56, 255), (15, 0, 65535)]
  else
    let v := Config.freeNat (2 ^ 64 + 16 * beat + m)
    let most := v / 2 ^ 16 % 2 ^ 16
    mk [(63, 56, v % 256), (55, 48, v / 256 % 101), (47, 32, v / 2 ^ 32 % (most + 1)), (31, 16, most), (15, 0, v / 2 ^ 48 % 2 ^ 16)]

def secStat (x : Sec) : Nat :=
  mk [(63, 63, b2n x.idValid), (62, 62, x.fwSlot), (61, 56, x.svn), (55, 50, x.svnFloor), (49, 47, x.hostSessions), (31, 16, x.hsFail),
    (15, 0, x.fsConflict)]

def beatRange (b : Blk) (off : Nat) : Nat :=
  match off with
  | 0x200000 => mk [(63, 63, b2n b.beat.run), (62, 61, b.beat.source), (53, 40, b.beat.dipLen), (39, 30, b.beat.guard), (19, 0, b.beat.period)]
  | 0x200008 => beatStat b.shadow.beat
  | 0x200010 => b.beat.count % 2 ^ 64
  | 0x200018 => mk [(62, 32, b.shadow.ovr.1), (31, 0, b.shadow.ovr.2)]
  | 0x200020 => b.ctl.align
  | 0x210000 => b.ctl.pwrLimits.toNat
  | 0x210008 => pwrStat b.shadow.pwr b.shadow.sectors
  | 0x210010 => secOpp b
  | 0x210018 => secAct b
  | 0x210020 => b.ctl.pwrLink.stored.toNat
  | 0x220000 => secTemp b
  | 0x240000 => secStat b.shadow.sec
  | 0x240008 => match b.sec.fs with | some fs => mk [(62, 62, 1), (31, 0, Config.fsId fs)] | none => 0
  | off => if decide (0x220100 ≤ off) && decide (off < 0x220180) then memObs b ((off - 0x220100) / 8) else 0

/-! ### Function pages -/

/-- The queue head (R516): the oldest accepted command that holds the queue. -/
def headOf (b : Blk) (f q : Nat) : Option Cmd := b.cmds.find? fun c => c.id.f == f && c.id.q == q && holdsQueue c

def outstanding (b : Blk) (f q : Nat) : Nat := (b.cmds.filter fun c => c.id.f == f && c.id.q == q && !decide (c.phase = .taken)).length

def qstat (b : Blk) (f q : Nat) : Nat :=
  let x := getQ b f q
  let head := headOf b f q
  mk [(63, 61, x.state), (60, 60, b2n (head.any (·.waitOn.isSome))), (59, 59, b2n (head.any (·.headOther))), (47, 32, x.scanSlot),
    (31, 16, outstanding b f q)]

def queueOpenish (x : Queue) : Bool := x.state == 1 || x.state == 2 || x.state == 4

def qring (x : Queue) : Nat := mk [(63, 63, b2n (queueOpenish x)), (62, 61, x.cls), (56, 0, x.base), (4, 0, x.log2)]

def ringReg (en : Bool) (base lg : Nat) : Nat := base % 2 ^ 57 + mk [(63, 63, b2n en), (5, 0, lg)]

def fnInfo (n : Fn) : Nat :=
  mk [(63, 63, b2n n.enabled), (62, 62, b2n n.fenced), (61, 61, b2n n.disabling), (60, 60, b2n n.enableHeld.isSome), (59, 56, n.nq - 1),
    (55, 52, n.d2dMask), (31, 0, n.epoch)]

/-- FN_USE (R762), as of the last dip window. -/
def fnUse (b : Blk) (f : Nat) : Nat :=
  let v := { b with t := b.snap }
  let held := ((b.snap.stream.filter fun e => e.2.valid && e.1 / 64 == f).map (·.2.staged)).foldl (· + ·) 0
  mk [(63, 51, cdiv ((tget fn0 b.shadow.fns f).stagingUsed + held) 65536), (50, 36, groupUse v f), (35, 15, rosterUse v f)]

def fnReg (b : Blk) (f k : Nat) : Nat :=
  let n := getFn b f
  if decide (0x100 ≤ k) && decide (k < 0x200) then
    let q := (k - 0x100) / 16
    if k % 16 == 0 then qring (getQ b f q) else qstat b f q
  else if decide (0x800 ≤ k) && decide (k < 0xA00) then
    let m := tget msi0 n.msi ((k - 0x800) / 16)
    if k % 16 == 0 then mk [(63, 63, b2n m.mask), (51, 0, m.addr)] else mk [(32, 32, b2n m.pend), (31, 0, m.data)]
  else match k with
  | 0x200 => ringReg n.cqEn n.cqBase n.cqLog2
  | 0x208 => n.consumed % 2 ^ 32
  | 0x210 => mk [(63, 32, n.produced), (0, 0, b2n n.full)]
  | 0x300 => ringReg n.eqEn n.eqBase n.eqLog2
  | 0x308 => n.eqConsumed % 2 ^ 32
  | 0x310 => mk [(63, 32, n.eqProduced), (31, 16, n.eqLost), (0, 0, b2n (n.eqEn && decide (2 ^ n.eqLog2 ≤ n.eqProduced - n.eqConsumed)))]
  | 0x400 => ringReg n.spEn n.spBase n.spLog2
  | 0x500 => n.irqCfg.toNat
  | 0x600 => fnInfo n
  | 0x608 => if n.enabled then fnUse b f else 0
  | 0xE00 => n.penSel.toNat
  | 0xE08 => n.penVal.toNat
  | 0xE10 => n.penCnt.toNat
  | 0xE18 => n.penLast.toNat
  | 0xE40 => n.strSel.toNat
  | 0xE48 => n.strState.toNat
  | 0xE50 => n.strDeliv.toNat
  | 0xE58 => n.strCur.toNat
  | 0xE60 => n.strCur0.toNat
  | _ => 0

/-- A CTL read (R17, R20, R735): the register at an offset; an offset without a register reads 0. -/
def ctlRead (b : Blk) (off : Nat) : Word :=
  BitVec.ofNat 64 (
    if off % 8 != 0 then 0
    else if off < 0x10000 then blockReg b off
    else if off < 0x100000 then sectorRange b off
    else if off < 0x200000 then portRange b off
    else if off < 0x300000 then beatRange b off
    else if decide (0x400000 ≤ off) && decide (off < 0x600000) then fnReg b ((off - 0x400000) / 0x1000) (off % 0x1000)
    else 0)

end Sys2Proof.Machine
end

