-- ==== Sys2Proof/Machine/CtlWrites.lean ====
section
/-!
DEFINITION. CTL writes (R735, R742 to R749): what a write to each register stores and starts.
-/
namespace Sys2Proof.Machine

/-- A field that a dip window brings into force (R745). -/
def setDip (d : Dip) (v : Nat) : Dip := { d with stored := BitVec.ofNat 64 v }

/-- The nearer limit of a range (R373, R674). -/
def clamp (lo hi v : Nat) : Nat := max lo (min hi v)

/-! ### Function pages -/

/-- Writes to function pages, doorbells apart, are ignored during a block reset, in a page not enabled, and in a fenced one (R686, R760). -/
def pageOpen (b : Blk) (f : Nat) : Bool := decide (b.life.phase = .run) && fnLive b f

/-- A doorbell (R37, R481, R482): captured by a queue that is OPEN or FENCED. -/
def ringBell (b : Blk) (f q : Nat) : Blk :=
  let n := getFn b f
  let st := (getQ b f q).state
  if n.enabled && decide (q < n.nq) && (st == 1 || st == 4) then modQ b f q fun x => { x with scanPending := true } else b

/-- R484. A queue that opens has its ring sequence and scan at 0. -/
def writeQring (b : Blk) (f q v : Nat) : Blk :=
  let n := getFn b f
  let lg := fld v 4 0
  if !decide (q < n.nq) || queueOpenish (getQ b f q) || !n.cqEn || (tb v 63 && (decide (lg < 4) || decide (16 < lg))) then b
  else modQ b f q fun x =>
    let x := { x with cls := fld v 62 61, base := fld v 56 6 * 64, log2 := lg }
    if tb v 63 then { x with state := 1, rseq := 0, taken := 0, scanSlot := 0, scanPending := false, ringFault := false, was := 0 } else x

/-- R517. -/
def writeCring (b : Blk) (f v : Nat) : Blk :=
  let lg := fld v 4 0
  if (getFn b f).cqEn || (tb v 63 && (decide (lg < 8) || decide (20 < lg))) then b
  else modFn b f fun n => { n with cqEn := tb v 63, cqBase := fld v 56 6 * 64, cqLog2 := lg }

/-- The forward distance of R796: whether a new CONSUMED is taken. -/
def takesHead (v consumed produced : Nat) : Bool :=
  decide ((v + 2 ^ 32 - consumed % 2 ^ 32) % 2 ^ 32 ≤ (produced + 2 ^ 32 - consumed % 2 ^ 32) % 2 ^ 32)

/-- How far CONSUMED advances for a written value. -/
def headStep (v consumed : Nat) : Nat := (v + 2 ^ 32 - consumed % 2 ^ 32) % 2 ^ 32

/-- R518, R525, R796: records that waited are written as far as there is room. -/
def writeChead (b : Blk) (f v : Nat) : Blk :=
  let n := getFn b f
  let v := v % 2 ^ 32
  if takesHead v n.consumed n.produced then
    let b := modFn b f fun n => { n with consumed := n.consumed + headStep v n.consumed }
    if n.full then settle (ringDrain (n.ringWait.length + 1) f b) else b
  else b

/-- R620. -/
def writeEqring (b : Blk) (f v : Nat) : Blk :=
  let lg := fld v 4 0
  if (getFn b f).eqEn || (tb v 63 && (decide (lg < 8) || decide (16 < lg))) then b
  else modFn b f fun n => { n with eqEn := tb v 63, eqBase := fld v 56 6 * 64, eqLog2 := lg, eqLost := if tb v 63 then 0 else n.eqLost }

/-- R621. -/
def writeEqhead (b : Blk) (f v : Nat) : Blk :=
  let n := getFn b f
  let v := v % 2 ^ 32
  if takesHead v n.eqConsumed n.eqProduced then modFn b f fun n => { n with eqConsumed := n.eqConsumed + headStep v n.eqConsumed }
  else b

/-- R647. -/
def writeSpill (b : Blk) (f v : Nat) : Blk :=
  let lg := fld v 5 0
  if (getFn b f).spEn || (tb v 63 && (decide (lg < 20) || decide (40 < lg))) then b
  else modFn b f fun n => { n with spEn := tb v 63, spBase := fld v 56 20 * 2 ^ 20, spLog2 := lg }

/-- R763, R764: the write that sets CQ_EN takes PRODUCED as the signal base. -/
def writeIrqcfg (b : Blk) (f v : Nat) : Blk :=
  let w := v / 2 ^ 52 * 2 ^ 52 + fld v 47 16 * 2 ^ 16
  let b := modFn b f fun n => { n with
    irqCfg := BitVec.ofNat 64 w, irqA := if tb v 63 && !tb n.irqCfg.toNat 63 then n.produced else n.irqA }
  cqSignal b f

/-- R765, R767: clearing MASK while PEND is 1 issues one interrupt write. -/
def writeMsiAddr (b : Blk) (f vec v : Nat) : Blk :=
  let pend := (tget msi0 (getFn b f).msi vec).pend && !tb v 63
  let b := modFn b f fun n => { n with msi := tmod msi0 n.msi vec fun m => { m with
    mask := tb v 63, addr := fld v 51 2 * 4, pend := m.pend && tb v 63 } }
  if pend then signalVec b f vec else b

/-- R766. -/
def writeMsiData (b : Blk) (f vec v : Nat) : Blk :=
  modFn b f fun n => { n with msi := tmod msi0 n.msi vec fun m => { m with data := v % 2 ^ 32 } }

/-- R473, R474: a snapshot of one pennant. -/
def writePenSel (b : Blk) (f v : Nat) : Blk :=
  let vid := fld v 15 0
  let p := match penIdx b f vid with | some i => getPen b i | none => pen0
  let p := if p.mapped then p else pen0
  modFn b f fun n => { n with
    penSel := BitVec.ofNat 64 (mk [(31, 24, fld v 23 16), (23, 16, fld v 23 16), (15, 0, vid)])
    penVal := p.value
    penCnt := BitVec.ofNat 64 (mk [(63, 16, p.sigCount), (13, 0, p.waiters)])
    penLast := BitVec.ofNat 64 (mk [(63, 48, p.lastEp), (47, 39, p.lastFn), (38, 36, p.lastKind), (35, 35, b2n p.mapped), (31, 0, p.lastTag)]) }

/-- R768, R769: a snapshot of one stream. -/
def writeStrSel (b : Blk) (f v : Nat) : Blk :=
  let k := fld v 5 0
  let s := getStr b f k
  let w := fun (i : Nat) => if s.valid then (streamWords b (strKey f k) s).getD i 0 else 0
  modFn b f fun n => { n with
    strSel := BitVec.ofNat 64 (mk [(31, 24, fld v 23 16), (23, 16, fld v 23 16), (5, 0, k)])
    strState := BitVec.ofNat 64 (if s.valid then mk [(63, 63, 1), (62, 60, s.state), (59, 58, s.cls), (57, 57, b2n s.sharded),
      (56, 56, b2n s.followsValid), (55, 50, s.follows), (31, 0, s.flies)] else 0)
    strDeliv := BitVec.ofNat 64 (w 15), strCur := BitVec.ofNat 64 (w 13), strCur0 := BitVec.ofNat 64 (w 14) }

/-- A write to a function page (R759, R760). The debug selectors of a fenced function still act. -/
def writePage (b : Blk) (f k v : Nat) : Blk :=
  let isSel := k == 0xE00 || k == 0xE40
  if k < 0x80 then ringBell b f (k / 8)
  else if !pageOpen b f && !(isSel && (getFn b f).fenced && decide (b.life.phase = .run)) then b
  else if decide (0x100 ≤ k) && decide (k < 0x200) then (if k % 16 == 0 then writeQring b f ((k - 0x100) / 16) v else b)
  else if decide (0x800 ≤ k) && decide (k < 0xA00) then
    (if k % 16 == 0 then writeMsiAddr b f ((k - 0x800) / 16) v else writeMsiData b f ((k - 0x800) / 16) v)
  else match k with
  | 0x200 => writeCring b f v
  | 0x208 => writeChead b f v
  | 0x300 => writeEqring b f v
  | 0x308 => writeEqhead b f v
  | 0x400 => writeSpill b f v
  | 0x500 => writeIrqcfg b f v
  | 0xE00 => writePenSel b f v
  | 0xE40 => writeStrSel b f v
  | _ => b

/-! ### The block range -/

/-- R500, R501: the write that sets ENABLE enables function 0 with every quota at its largest. A lost block stores the write only (R627). -/
def writeAdmin (b : Blk) (v : Nat) : Blk :=
  let lg := fld v 5 0
  if tb b.ctl.admin.toNat 63 || b.life.fwVersion == 0 || (tb v 63 && (decide (lg < 20) || decide (40 < lg))) then b
  else
    let w := mk [(63, 63, fld v 63 63), (61, 58, fld v 61 58), (56, 20, fld v 56 20), (5, 0, lg)]
    let b := { b with ctl := { b.ctl with admin := BitVec.ofNat 64 w } }
    if tb v 63 && b.life.fatal == 0 then
      enableFn b 0 (fld v 61 58 + 1) 16384 1048576 4096 (fld b.ctl.adminCtx.toNat 31 0) (fld b.ctl.adminCtx.toNat 35 32) (fld v 56 20 * 2 ^ 20) lg
    else b

def writeAdminCtx (b : Blk) (v : Nat) : Blk :=
  if tb b.ctl.admin.toNat 63 then b else { b with ctl := { b.ctl with adminCtx := BitVec.ofNat 64 (fld v 35 0) } }

/-- A link port goes to electrical idle and RESET; what it holds is discarded as when it is declared down, which is not counted. -/
def stopPort (b : Blk) (n : Nat) : Blk :=
  let b := endRekey (dropPort b n) n
  modP b n fun p => idleLanes { p with
    state := if p.state == 3 then 3 else 0, phase := .reset, sleep := 0, woke := false, phyRstN := false, phyRdy := false, sessOurs := false, sessTheirs := false
    fsDone := false, fsConflict := false, msgs := [], inq := [], retryRun := 0 }

/-- The QUIESCE phase of a block reset begins (R530, R685, R686, R732): links idle, memory ports halt, D2D answers NOT_READY. -/
def writeReset (b : Blk) (v : Nat) : Blk :=
  if !tb v 63 || fld v 7 0 != 0xA5 || b.life.fatal != 0 || !decide (b.life.phase = .run) then b
  else
    let b := { b with
      life := { b.life with phase := .quiesce, lastCold := false, blockResets := satAdd b.life.blockResets 1 65535, runWas := b.beat.run }
      beat := { b.beat with run := false }
      memp := b.memp.map fun (p : MemP) => { p with halt := true, state := if p.state == 1 then 3 else p.state }
      d2d := b.d2d.map fun (d : D2d) => { d with state := if d.state == 1 then 3 else d.state }
      sectors := b.sectors.map fun (x : Sector) => { x with raiseTo := none, granted := false } }
    let b := (List.range 42).foldl stopPort b
    setLock { b with beat := { b.beat with parent := 63, dist := 255, adopt := none } } false

/-- R613: an index of an existing unit, function 0 excepted. -/
def unitExists (b : Blk) (kind i : Nat) : Bool :=
  match kind with
  | 0 => decide (i < 128) && tileExists b i
  | 1 => sectorExists b i
  | 2 => portExists b i
  | 3 => decide (i < 16)
  | 4 => decide (i < 4)
  | 5 => decide (0 < i) && decide (i < 512)
  | _ => false

def writeFence (b : Blk) (v : Nat) : Blk :=
  if tb v 63 && unitExists b (fld v 62 60) (fld v 8 0) then
    { b with ctl := { b.ctl with fences := b.ctl.fences ++ [{ kind := fld v 62 60, index := fld v 8 0 }] } }
  else b

/-- R777, R780. -/
def writeTapctl (b : Blk) (v : Nat) : Blk :=
  { b with test := { b.test with
      dbgDis := b.test.dbgDis || tb v 63
      flashRel := if tb v 62 then b.test.flashRel || !b.test.flashBusy else false
      flashRelDue := tb v 62 && !b.test.flashRel && b.test.flashBusy } }

/-! ### Ports -/

/-- R307: CLR_CNT clears LNK_ERR and the counters of LNK_FEC; a port that is disabled leaves service (log 13). -/
def writeLnkCfg (b : Blk) (n v : Nat) : Blk :=
  let p := getP b n
  let b := modP b n fun p => { p with enable := tb v 63, ring := fld v 59 56, cable := min 160 (fld v 7 0) }
  let b := if tb v 62 then modP b n fun p => { p with
      crcErr := 0, retry := 0, retryRun := 0, authFail := 0, downDrop := 0, framing := 0, corrSym := 0, uncorr := 0 } else b
  if p.enable && !tb v 63 && (p.state == 1 || p.state == 2) then stopPort b n else b

/-- LNK_PRBS_CTL of a port as a write leaves it (R787, R788): a rise of EN releases the PHY and adapts every lane; its fall idles the lanes and
stops the checkers. INJECT inverts one bit on each enabled lane. -/
def prbsPort (p : Port) (v : Nat) : Port :=
  let was := tb p.prbsCtl.toNat 63
  let en := tb v 63
  let clear := (en && !was) || tb v 60
  let p := { p with
    prbsCtl := BitVec.ofNat 64 (mk [(63, 63, b2n en), (62, 62, fld v 62 62), (59, 47, fld v 59 47)])
    prbsAct := en, inject := if tb v 61 && en then p.inject + 1 else p.inject
    prbs := if clear then tmap checker0 (fun _ (c : Checker) => { c with err := 0 }) p.prbs else p.prbs
    prbsBits := if clear then 0 else p.prbsBits }
  if en then { p with
    phyRstN := true, txei := 0x1FFF - fld v 59 47, adaptReq := if was then p.adaptReq else 0x1FFF
    prbs := if was then p.prbs else [] }
  else if was then idleLanes { p with phyRstN := false, prbs := tmap checker0 (fun _ (c : Checker) => { c with lock := false, run := 0, hist := [], win := [] }) p.prbs }
  else p

/-- A write that would set EN is ignored while the port is enabled (R788). -/
def writePrbs (b : Blk) (n v : Nat) : Blk :=
  let p := getP b n
  if tb v 63 && !tb p.prbsCtl.toNat 63 && p.enable then b else modP b n fun p => prbsPort p v

def writeLink (b : Blk) (n k v : Nat) : Blk :=
  if !portExists b n then b
  else match k with
  | 0x000 => writeLnkCfg b n v
  | 0x028 => modP b n fun p => { p with wakeNs := fld v 63 48, adaptMs := fld v 47 40 }
  | 0x100 => writePrbs b n v
  | _ => b

/-- R305: a write that sets LOCK stores its endpoint first. -/
def writeSelf (b : Blk) (v : Nat) : Blk :=
  if tb b.ctl.fabSelf.toNat 32 then b
  else { b with ctl := { b.ctl with fabSelf := BitVec.ofNat 64 (mk [(32, 32, fld v 32 32), (15, 0, fld v 15 0)]) } }

/-! ### Beat, power, security -/

/-- R373, R374. -/
def writeBeatCfg (b : Blk) (v : Nat) : Blk :=
  if b.beat.run then b
  else
    let x := { b.beat with
      source := fld v 62 61, dipLen := clamp 100 10000 (fld v 53 40), guard := clamp 16 1000 (fld v 39 30), period := clamp 1000 1000000 (fld v 19 0) }
    let x := if !tb v 63 then x
      else if x.period < 500 + x.guard + x.dipLen then { x with cfgErr := true }
      else { x with run := true, cfgErr := false }
    { b with beat := x }

/-- R377. -/
def writeBeatOvr (b : Blk) (v : Nat) : Blk :=
  if tb v 63 then { b with beat := { b.beat with overrun := 0, demote := 0 } } else b

/-- R674. -/
def writeLimits (b : Blk) (v : Nat) : Blk :=
  if tb b.ctl.pwrLimits.toNat 63 then b
  else
    let t := clamp 60 120 (fld v 31 24)
    { b with ctl := { b.ctl with pwrLimits := BitVec.ofNat 64 (mk [(63, 63, fld v 63 63), (47, 32, fld v 47 32), (31, 24, t), (23, 16, max (t + 5) (fld v 23 16))]) } }

/-- An FS is held from now on; the keys of generations already formed follow (R639, R642). -/
def holdFs (b : Blk) (fs : Nat) : Blk :=
  let b := { b with sec := { b.sec with fs := some fs } }
  (b.t.group.filter fun e => e.2.valid && e.2.n != 0).foldl (fun b e => deriveGk b e.2.gid e.2.gen e.2.digest) b

/-- R639: GEN draws a fabric secret where none is held and the endpoint is locked. -/
def writeSecFabric (b : Blk) (v : Nat) : Blk :=
  if tb v 63 && b.sec.fs.isNone && tb b.ctl.fabSelf.toNat 32 then holdFs { b with fresh := b.fresh + 1 } (Config.drawFs b.fresh) else b

/-! ### The write port -/

def writeBlock (b : Blk) (off v : Nat) : Blk :=
  match off with
  | 0x40 => { b with ctl := { b.ctl with arbSlack := setDip b.ctl.arbSlack (fld v 19 0) } }
  | 0x48 => { b with ctl := { b.ctl with penDlck := setDip b.ctl.penDlck (mk [(63, 62, fld v 63 62), (31, 0, fld v 31 0)]) } }
  | 0x60 => writeAdmin b v
  | 0x70 => writeReset b v
  | 0x80 => { b with ctl := { b.ctl with msiPort := fld v 3 0 } }
  | 0x90 => writeAdminCtx b v
  | 0x1008 => writeTapctl b v
  | _ => b

def writeUnits (b : Blk) (off v : Nat) : Blk :=
  match off with
  | 0x10000 => { b with ctl := { b.ctl with arrCur := setDip b.ctl.arrCur (fld v 23 0) } }
  | 0x10008 => writeFence b v
  | _ => b

def writePorts (b : Blk) (off v : Nat) : Blk :=
  if off < 0x12A000 then writeLink b ((off - 0x100000) / 0x1000) (off % 0x1000) v
  else match off with
  | 0x1F0000 => { b with ctl := { b.ctl with floor := setDip b.ctl.floor (min 64 (fld v 6 0)) } }
  | 0x1F0008 => writeSelf b v
  | 0x1F0010 => { b with ctl := { b.ctl with throttle := setDip b.ctl.throttle (mk [(63, 48, fld v 63 48), (31, 0, fld v 31 0)]) } }
  | 0x1F0018 => { b with ctl := { b.ctl with e2e := setDip b.ctl.e2e (fld v 19 0) } }
  | _ => b

def writeBeats (b : Blk) (off v : Nat) : Blk :=
  match off with
  | 0x200000 => writeBeatCfg b v
  | 0x200018 => writeBeatOvr b v
  | 0x200020 => { b with ctl := { b.ctl with align := fld v 19 0 } }
  | 0x210000 => writeLimits b v
  | 0x210020 => { b with ctl := { b.ctl with pwrLink := setDip b.ctl.pwrLink (mk [(63, 63, fld v 63 63), (15, 0, fld v 15 0)]) } }
  | 0x240008 => writeSecFabric b v
  | _ => b

/-- A CTL write (R735, R742): what the register at an offset stores and starts; an offset without a register ignores it (R20). -/
def ctlWrite (b : Blk) (off : Nat) (w : Word) : Blk :=
  let v := w.toNat
  if off % 8 != 0 then b
  else if off < 0x10000 then writeBlock b off v
  else if off < 0x100000 then writeUnits b off v
  else if off < 0x200000 then writePorts b off v
  else if off < 0x300000 then writeBeats b off v
  else if decide (0x400000 ≤ off) && decide (off < 0x600000) then writePage b ((off - 0x400000) / 0x1000) (off % 0x1000) v
  else b

/-- The offset of a register of a function's page and of a link page (R743, R757). -/
def pageOff (f k : Nat) : Nat := 0x400000 + 0x1000 * (f % 512) + k
def linkOff (n k : Nat) : Nat := 0x100000 + 0x1000 * (n % 42) + k

/-! ### The commands -/

/-- A doorbell: FN_DB of a queue (R482). -/
def execDoorbell (f q : Nat) (v : Word) (s : State) : Host.Outcome State Fault Refusal := actCtl s fun b _ => ctlWrite b (pageOff f (8 * (q % 16))) v
/-- FN_QRING (R484). -/
def execFnQring (f q : Nat) (v : Word) (s : State) : Host.Outcome State Fault Refusal := actCtl s fun b _ => ctlWrite b (pageOff f (0x100 + 16 * (q % 16))) v
/-- FN_CRING (R517). -/
def execFnCring (f : Nat) (v : Word) (s : State) : Host.Outcome State Fault Refusal := actCtl s fun b _ => ctlWrite b (pageOff f 0x200) v
/-- FN_CHEAD (R518, R796). -/
def execFnChead (f : Nat) (v : Word) (s : State) : Host.Outcome State Fault Refusal := actCtl s fun b _ => ctlWrite b (pageOff f 0x208) v
/-- FN_EQRING (R620). -/
def execFnEqring (f : Nat) (v : Word) (s : State) : Host.Outcome State Fault Refusal := actCtl s fun b _ => ctlWrite b (pageOff f 0x300) v
/-- FN_EQHEAD (R621). -/
def execFnEqhead (f : Nat) (v : Word) (s : State) : Host.Outcome State Fault Refusal := actCtl s fun b _ => ctlWrite b (pageOff f 0x308) v
/-- FN_SPILL (R647). -/
def execFnSpill (f : Nat) (v : Word) (s : State) : Host.Outcome State Fault Refusal := actCtl s fun b _ => ctlWrite b (pageOff f 0x400) v
/-- FN_IRQCFG (R763, R764). -/
def execFnIrqcfg (f : Nat) (v : Word) (s : State) : Host.Outcome State Fault Refusal := actCtl s fun b _ => ctlWrite b (pageOff f 0x500) v
/-- FN_MSI_ADDR of a vector (R765, R767). -/
def execFnMsiAddr (f vec : Nat) (v : Word) (s : State) : Host.Outcome State Fault Refusal := actCtl s fun b _ => ctlWrite b (pageOff f (0x800 + 16 * (vec % 32))) v
/-- FN_PEN_SEL (R473). -/
def execFnPenSel (f : Nat) (v : Word) (s : State) : Host.Outcome State Fault Refusal := actCtl s fun b _ => ctlWrite b (pageOff f 0xE00) v
/-- FN_STR_SEL (R768). -/
def execFnStrSel (f : Nat) (v : Word) (s : State) : Host.Outcome State Fault Refusal := actCtl s fun b _ => ctlWrite b (pageOff f 0xE40) v
/-- BLK_ADMIN (R500). -/
def execBlkAdmin (v : Word) (s : State) : Host.Outcome State Fault Refusal := actCtl s fun b _ => ctlWrite b 0x60 v
/-- BLK_RESET (R685). -/
def execBlkReset (v : Word) (s : State) : Host.Outcome State Fault Refusal := actCtl s fun b _ => ctlWrite b 0x70 v
/-- FLT_FENCE (R613). -/
def execFltFence (v : Word) (s : State) : Host.Outcome State Fault Refusal := actCtl s fun b _ => ctlWrite b 0x10008 v
/-- BEAT_CFG (R373, R374). -/
def execBeatCfg (v : Word) (s : State) : Host.Outcome State Fault Refusal := actCtl s fun b _ => ctlWrite b 0x200000 v
/-- FAB_SELF (R305). -/
def execFabSelf (v : Word) (s : State) : Host.Outcome State Fault Refusal := actCtl s fun b _ => ctlWrite b 0x1F0008 v
/-- SEC_FABRIC.GEN (R639). -/
def execSecFabricGen (v : Word) (s : State) : Host.Outcome State Fault Refusal := actCtl s fun b _ => ctlWrite b 0x240008 v
/-- LNK_CFG of a port, whose CLR_CNT clears its counters (R307). -/
def execClrCnt (n : Nat) (v : Word) (s : State) : Host.Outcome State Fault Refusal := actCtl s fun b _ => ctlWrite b (linkOff n 0) v
/-- BEAT_OVR.CLR (R377). -/
def execBeatOvrClr (v : Word) (s : State) : Host.Outcome State Fault Refusal := actCtl s fun b _ => ctlWrite b 0x200018 v
/-- LNK_PRBS_CTL.EN (R788). -/
def execPrbsEn (n : Nat) (v : Word) (s : State) : Host.Outcome State Fault Refusal := actCtl s fun b _ => ctlWrite b (linkOff n 0x100) v
/-- LNK_PRBS_CTL.INJECT (R787). -/
def execPrbsInject (n : Nat) (v : Word) (s : State) : Host.Outcome State Fault Refusal := actCtl s fun b _ => ctlWrite b (linkOff n 0x100) v
/-- LNK_PRBS_CTL.CLR (R787). -/
def execPrbsClr (n : Nat) (v : Word) (s : State) : Host.Outcome State Fault Refusal := actCtl s fun b _ => ctlWrite b (linkOff n 0x100) v
/-- TC_TAPCTL.FLASH_REL (R777, R780). -/
def execFlashRel (v : Word) (s : State) : Host.Outcome State Fault Refusal := actCtl s fun b _ => ctlWrite b 0x1008 v
/-- TC_TAPCTL.DBG_DIS (R777). -/
def execDbgDis (v : Word) (s : State) : Host.Outcome State Fault Refusal := actCtl s fun b _ => ctlWrite b 0x1008 v
/-- A write to any register (R744, R745). -/
def execRegisterWrite (off : Nat) (v : Word) (s : State) : Host.Outcome State Fault Refusal := actCtl s fun b _ => ctlWrite b off v

end Sys2Proof.Machine
end

