-- ==== Sys2Proof/Machine/Power.lean ====
section
/-!
DEFINITION. Array activity (R232 to R236), operating points and voltage (R655 to R663, R737), the power cap (R664) and the limits
beneath it (R665 to R668). A THERMAL event is one reading of a sector's sensor, one each 10 µs; a POWER_ESTIMATE comes once per
microsecond (log 16).
-/
namespace Sys2Proof.Machine

/-! ### Operating points and voltage -/

/-- VDD_ARR requested at an OPP, in mV (R659). -/
def voltOf (opp : Nat) : Nat := [600, 620, 640, 660, 690, 720, 750, 775, 800, 830, 860, 900].getD opp 900

/-- The OPP of a frequency in MHz. -/
def oppOf (mhz : Nat) : Nat := min 11 ((mhz - 400) / 100)

def runs (b : Blk) (s : Nat) : Bool := sectorExists b s && !(getSect b s).fenced

/-- The running sectors as a mask, and as a list. -/
def running (b : Blk) : List Nat := (List.range 8).filter (runs b)
def runMask (b : Blk) : Nat := mk ((running b).map fun s => (s, s, 1))

/-- The voltage the running sectors need: that of the highest OPP in force or being raised to (R659, R660). -/
def wantVolt (b : Blk) : Nat :=
  ((running b).map fun s => let x := getSect b s; max (voltOf x.opp) (match x.raiseTo with | some o => voltOf o | none => 0)).foldl max 0

/-- A raise is granted once the voltage granted reaches its OPP's (R660). -/
def grantRaises (b : Blk) : Blk :=
  { b with sectors := b.sectors.map fun (x : Sector) => match x.raiseTo with
      | some o => if voltOf o ≤ b.pwr.vgranted then { x with granted := true } else x
      | none => x }

/-- The next voltage request, when none is under way (R737). -/
def requestVolt (b : Blk) : Blk :=
  let w := wantVolt b
  if b.pwr.vreqValid || w == 0 || w == b.pwr.vreq then b
  else { b with pwr := { b.pwr with vreq := w, vreqValid := true } }

/-- The raises of a sector are cancelled by a limit (R666). -/
def cancelRaise (x : Sector) : Sector := { x with raiseTo := none, granted := false }

/-- A sector moves to an OPP through the bypass (R658). -/
def moveOpp (x : Sector) (o : Nat) : Sector := if x.opp == o then x else { x with opp := o, bypass := true }

/-! ### Limits (R665 to R668) -/

/-- POLICY_OVERRIDDEN (R668). -/
def overridden (b : Blk) (limit : Nat) (entering : Bool) (sectors value : Nat) : Blk :=
  adminEvent b 0x28 (mk [(3, 0, limit), (4, 4, b2n entering), (12, 5, sectors)]) (value % 2 ^ 32) (beatNow b % 2 ^ 32)

/-- A limit holds a sector's OPP (R665). -/
def limited (b : Blk) (s : Nat) : Bool := (getSect b s).thermal || b.pwr.crit || b.pwr.current || b.pwr.pmax || b.pwr.emerg

/-- Activity levels that the cap and CRIT allow (R664, R665). -/
def setActMax (b : Blk) : Blk :=
  { b with sectors := b.sectors.map fun (x : Sector) => { x with actMax := if b.pwr.crit then 0 else b.pwr.actCap } }

/-- Every running sector to 400 MHz through the bypass (EMERG). -/
def allDown (b : Blk) : Blk := (running b).foldl (fun b s => modSect b s fun x => moveOpp (cancelRaise x) 0) b

/-- Every running sector above OPP 0 down one. -/
def stepDown (b : Blk) : Blk := (running b).foldl (fun b s => modSect b s fun x => moveOpp (cancelRaise x) (x.opp - 1)) b

def tThrottle (b : Blk) : Nat := fld b.ctl.pwrLimits.toNat 31 24
def tCrit (b : Blk) : Nat := fld b.ctl.pwrLimits.toNat 23 16
def iccMax (b : Blk) : Nat := fld b.ctl.pwrLimits.toNat 47 32

/-- THERMAL of one sector, by a reading. -/
def thermalOne (b : Blk) (s temp : Nat) : Blk :=
  let x := getSect b s
  let tt := tThrottle b
  if tt < temp then
    let b := modSect b s fun x => { moveOpp (cancelRaise x) (x.opp - 1) with thermal := true }
    if x.thermal then b else overridden b 0 true (2 ^ s) temp
  else if x.thermal && decide (temp + 5 < tt) then overridden (modSect b s fun x => { x with thermal := false }) 0 false (2 ^ s) temp
  else b

/-- CRIT, by a reading: it clears once every sensor is below T_CRIT − 10. -/
def critAll (b : Blk) (temp : Nat) : Blk :=
  let tc := tCrit b
  if tc < temp && !b.pwr.crit then
    overridden (setActMax (allDown { b with pwr := { b.pwr with crit := true } })) 1 true (runMask b) temp
  else if b.pwr.crit && (running b).all (fun s => decide ((getSect b s).temp + 10 < tc)) then
    overridden (setActMax { b with pwr := { b.pwr with crit := false } }) 1 false (runMask b) temp
  else b

def thermalFx (b : Blk) (s temp : Nat) : Blk :=
  if !runs b s then b
  else critAll (thermalOne (modSect b s fun x => { x with temp := temp % 256 }) s (temp % 256)) (temp % 256)

/-- THERMAL: a reading of a sector's sensor. -/
def execThermal (sector temp : Nat) (s : State) : Host.Outcome State Fault Refusal := actLive s fun b _ => thermalFx b sector temp

/-- PWR_EMERG_N low (R665). -/
def execEmerg (s : State) : Host.Outcome State Fault Refusal :=
  actLive s fun b _ =>
    let was := b.pwr.emerg
    let b := allDown { b with pwr := { b.pwr with emerg := true } }
    if was then b else overridden b 4 true (runMask b) 0

/-- PWR_EMERG_N high for 10 µs. -/
def execEmergClear (s : State) : Host.Outcome State Fault Refusal :=
  actLive s fun b _ =>
    if b.pwr.emerg then overridden { b with pwr := { b.pwr with emerg := false } } 4 false (runMask b) 0 else b

/-- The cap in force, in W (R662). -/
def capOf (p : Pwr) : Nat := if p.cap == 0 then 340 else p.cap

def lowerBound (x : Sector) : Nat := oppOf x.fmin
def upperBound (x : Sector) : Nat := max (oppOf x.fmin) (oppOf x.fmax)

/-- The sector that the cap lowers: the highest OPP above its lower bound, the lower sector of equals (R664). -/
def capVictim (b : Blk) : Option Nat :=
  ((running b).filter fun s => decide (lowerBound (getSect b s) < (getSect b s).opp)).foldl (fun acc s => match acc with
    | none => some s
    | some v => if (getSect b v).opp < (getSect b s).opp then some s else some v) none

def applyCap (b : Blk) : Blk :=
  if b.pwr.watts ≤ capOf b.pwr then b
  else match capVictim b with
  | some s => modSect b s fun x => { moveOpp (cancelRaise x) (x.opp - 1) with policyOpp := min x.policyOpp (x.opp - 1) }
  | none => setActMax { b with pwr := { b.pwr with actCap := max 1 (b.pwr.actCap - 1) } }

/-- CURRENT and PMAX, by an estimate: with `above` it enters, after one beat at `low` it clears (R665). -/
def estLimit (b : Blk) (limit value : Nat) (holds above : Bool) (low : Nat) (set : Blk → Bool → Blk) : Blk :=
  if holds && decide (b.beat.per ≤ low * 1000) then overridden (set b false) limit false (runMask b) value
  else if holds then stepDown b
  else if above then overridden (stepDown (set b true)) limit true (runMask b) value
  else b

def estimateFx (b : Blk) (w a : Nat) : Blk :=
  let p := b.pwr
  let b := { b with pwr := { p with
    watts := w, amps := a, sumW := p.sumW + w, sumA := p.sumA + a, samples := p.samples + 1, monStb := !p.monStb
    lowA := if 100 * a < 95 * iccMax b then p.lowA + 1 else 0, lowW := if w < 323 then p.lowW + 1 else 0 } }
  let b := estLimit b 2 a b.pwr.current (decide (iccMax b < a)) b.pwr.lowA fun b v => { b with pwr := { b.pwr with current := v } }
  let b := estLimit b 3 w b.pwr.pmax (decide (340 < w)) b.pwr.lowW fun b v => { b with pwr := { b.pwr with pmax := v } }
  applyCap b

/-- POWER_ESTIMATE: the estimates of one microsecond (R664, R665). -/
def execPowerEstimate (watts amps : Nat) (s : State) : Host.Outcome State Fault Refusal := actLive s fun b _ => estimateFx b watts amps

/-- VGRANT: the voltage requested has settled (R660, R737). -/
def execVgrant (s : State) : Host.Outcome State Fault Refusal :=
  actLive s fun b _ =>
    if !b.pwr.vreqValid then b
    else
      let late := b.pwr.vgrant
      let b := requestVolt (grantRaises { b with pwr := { b.pwr with vgranted := b.pwr.vreq, vreqValid := false, vgrant := false } })
      if late then overridden b 5 false (runMask b) 0 else b

/-- VGRANT_TIMEOUT: no grant within 100 µs abandons the raises; the limit holds until a grant arrives (R660, R665). -/
def execVgrantTimeout (s : State) : Host.Outcome State Fault Refusal :=
  actLive s fun b _ =>
    let mask := mk (((running b).filter fun s => (getSect b s).raiseTo.isSome && !(getSect b s).granted).map fun s => (s, s, 1))
    if !b.pwr.vreqValid || mask == 0 then b
    else
      let was := b.pwr.vgrant
      let b := { b with
        sectors := b.sectors.map fun (x : Sector) => if x.granted then x else cancelRaise x
        pwr := { b.pwr with vgrant := true } }
      if was then b else overridden b 5 true mask 0

/-- PLL_RETUNE: the retuned PLL has locked and the clock leaves the bypass (R658). -/
def execPllRetune (sector : Nat) (s : State) : Host.Outcome State Fault Refusal :=
  actLive s fun b _ => if runs b sector then modSect b sector fun x => { x with bypass := false } else b

/-! ### The dip window's adaptation (R663, R667) -/

/-- The policy OPP of a sector for utilisation u in thousandths, with the power estimate that raises so far would give. -/
def adaptOne (x : Sector) (cap est u : Nat) : Nat × Nat :=
  let lo := lowerBound x
  let hi := upperBound x
  let p := clamp lo hi x.policyOpp
  if 900 < u && p < hi && p == x.opp && Config.powerAfter est p (p + 1) ≤ cap then (p + 1, Config.powerAfter est p (p + 1))
  else if u < 500 && lo < p then (p - 1, est)
  else (p, est)

/-- Every running sector that no limit holds, in ascending order: its policy OPP, then a raise of one OPP towards it. -/
def adaptAll (b : Blk) (util : List Nat) : Blk :=
  let step := fun (acc : Blk × Nat) (s : Nat) =>
    let (b, est) := acc
    if limited b s then acc
    else
      let x := getSect b s
      let (p, est) := adaptOne x (capOf b.pwr) est (util.getD s 700)
      let raise := if x.opp < p then (match x.raiseTo with | some o => some o | none => some (x.opp + 1)) else none
      (modSect b s fun x => { x with policyOpp := p, raiseTo := raise, granted := x.granted && raise.isSome }, est)
  requestVolt (grantRaises ((running b).foldl step (b, b.pwr.watts)).1)

/-- The changes of OPP that take effect at the end of the dip window: granted raises, and lowerings to the policy OPP. -/
def dueOpps (b : Blk) (granted : List Nat) : List (Nat × Nat) :=
  (running b).filterMap fun s =>
    let x := getSect b s
    match x.raiseTo with
    | some o => if granted.contains s then some (s, o) else none
    | none => if x.policyOpp < x.opp then some (s, x.policyOpp) else none

/-- A due change of OPP takes effect, unless a limit has cancelled it. -/
def applyOpp (b : Blk) (s o : Nat) : Blk :=
  modSect b s fun x =>
    if x.opp < o then (if x.raiseTo == some o && x.granted then { moveOpp x o with raiseTo := none, granted := false } else x)
    else moveOpp x o

/-! ### Array activity (R234 to R236) -/

/-- The level after a window: `waited`: valid work waited in it; `gap`: idle cycles in a row at its end. -/
def nextLevel (l actMax gap dummyGap idle : Nat) (warm waited : Bool) : Nat :=
  if actMax < l then l - 1
  else if (waited || warm) && l < actMax then l + 1
  else if !waited && !warm && 0 < idle && dummyGap ≤ gap then l - 1
  else l

/-- The end of a window of one array. `idle`: idle cycles at the end of the window, 64 for a wholly idle one. What the counters of R790 add
in it is a free value within what R234 allows (log 17). -/
def activityFx (b : Blk) (t a : Nat) (waited : Bool) (idle : Nat) : Blk :=
  if !tileExists b t || decide (8 ≤ a) || (getSect b (t / 16)).fenced then b
  else
    let x := getTile b t
    let cur := b.ctl.arrCur.force.toNat
    let gap := if 64 ≤ idle then x.gap.getD a 0 + 64 else idle
    let l := x.level.getD a 0
    let (r, b) := draw b
    let (d, b) := draw b
    let (c, b) := draw b
    let (k, b) := draw b
    let real := r % (4 * l + 1)
    modTile b t fun x => { x with
      level := x.level.set a (nextLevel l (getSect b (t / 16)).actMax gap (fld cur 15 0) idle (tb cur (16 + t / 16)) waited)
      gap := x.gap.set a gap
      real := satAdd x.real real (2 ^ 64 - 1), dummy := satAdd x.dummy (d % (4 * l - real + 1)) (2 ^ 64 - 1)
      busy := satAdd x.busy (c % 65) (2 ^ 64 - 1), slivers := satAdd x.slivers k (2 ^ 64 - 1) }

def execActivityWindow (tile arr : Nat) (waited : Bool) (idle : Nat) (s : State) : Host.Outcome State Fault Refusal :=
  actLive s fun b _ => activityFx b tile arr waited idle

end Sys2Proof.Machine
end

