-- ==== Sys2Proof/Machine/Beats.lean ====
section
/-!
DEFINITION. The beat (R373 to R394): beat starts and dip windows with all that they bring into force (R379, R380), beat marks, alignment,
keep-alives and absent partners, and deadlock detection (R476 to R479).
-/
namespace Sys2Proof.Machine

/-! ### Lock and marks -/

def isMaster (x : Beat) : Bool := x.source == 1 || x.source == 2

/-- A BEAT_MARK cell (R384), sent at the local beat start. The T_TX of a mark is 0: the times in a beat are not modelled (log 14). -/
def markCell (b : Blk) (p : Port) (masterEp : Nat) : List Byte :=
  let x := b.beat
  let none' := 2 ^ 64 - 1
  padTo 64 (leBytes 2 1 ++ leBytes x.dist 1 ++ leBytes (b2n x.locked + 2 * b2n x.master) 1 ++ [0] ++ leBytes x.per 4 ++ leBytes x.count 8 ++
    leBytes 0 4 ++ (match p.mark.mark with
      | some m => leBytes m.beat 8 ++ leBytes p.mark.rxBeat 8 ++ leBytes p.mark.rx 4
      | none => leBytes none' 8 ++ leBytes 0 12) ++ leBytes x.grd 2 ++ leBytes x.dip 2 ++ leBytes masterEp 2)

/-- A KEEP_ALIVE cell (R392). -/
def aliveCell (b : Blk) : List Byte :=
  padTo 64 (leBytes 3 1 ++ leBytes (b2n b.beat.locked) 1 ++ leBytes 0 2 ++ leBytes (selfEp b) 2 ++ leBytes 0 2 ++ leBytes b.beat.count 8)

/-- A port that carries traffic and is awake. -/
def portAwake (p : Port) : Bool := p.state == 2 && decide (p.sleep ≤ 2)

/-- Each UP port sends one mark per beat while the beat runs, and keeps the times of its last four (R385). MASTER_EP of an engine that
follows no master is a free value. -/
def sendMarks (b : Blk) : Blk :=
  if !(b.beat.run && b.beat.live) then b
  else
    let (free, b) := match b.beat.masterEp with | some e => (e, b) | none => draw b
    { b with ports := b.ports.map fun (p : Port) => if portAwake p then
        { p with linkQ := p.linkQ ++ [markCell b p free], sentMarks := ((b.beat.count, 0) :: p.sentMarks).take 4 } else p }

/-- Each awake UP port sends one keep-alive in the dip window, if the command engine has completed its tick of the beat (R392). -/
def sendAlives (b : Blk) : Blk :=
  if !b.beat.ticked then b
  else { b with ports := b.ports.map fun (p : Port) => if portAwake p then { p with linkQ := p.linkQ ++ [aliveCell b] } else p }

/-! ### Parents (R388 to R390) -/

/-- A port whose last mark lets it be the parent. -/
def mayParent (b : Blk) (p : Port) : Bool :=
  portAwake p && decide (p.mark.age ≤ 1) && (match p.mark.mark with
    | some m => m.locked && decide (m.dist < 254) && m.period == b.beat.per && m.guard == b.beat.grd && m.dipLen == b.beat.dip
    | none => false)

/-- The lowest MASTER_EP that the marks of eligible ports follow (R390). -/
def lowMaster (b : Blk) : Option Nat :=
  leastOf ((b.ports.filter (mayParent b)).filterMap fun p => p.mark.mark.map (·.masterEp))

/-- The parent by R388: the lowest DIST, then the lowest port code. -/
def choose (b : Blk) : Option (Nat × Mark) :=
  b.ports.zipIdx.foldl (fun acc (p, n) =>
    match p.mark.mark with
    | some m =>
      if mayParent b p && lowMaster b == some m.masterEp then
        match acc with
        | none => some (n, m)
        | some (_, k) => if m.dist < k.dist then some (n, m) else acc
      else acc
    | none => acc) none

/-- A parent is taken. A locked engine stays so where the new parent's last |θ| lies within the guard; otherwise it adopts the parent's
count and steps its phase at the next beat start. -/
def takeParent (b : Blk) (n : Nat) (m : Mark) : Blk :=
  let i := (getP b n).mark
  let near := b.beat.locked && i.known && decide (i.theta.natAbs ≤ b.beat.grd)
  let b := if near then b else setLock b false
  let x := { b.beat with parent := n, dist := m.dist + 1, masterEp := some m.masterEp, lostBeat := none, good := 0 }
  { b with beat := if near then x else { x with adopt := some m.beat, step := -i.theta } }

/-- A FABRIC engine without a parent looks for one. -/
def seekParent (b : Blk) : Blk :=
  if !b.beat.run || isMaster b.beat || b.beat.parent != 63 then b
  else match choose b with
  | some (n, m) => takeParent b n m
  | none => b

/-- The parent is gone: another one, or none within this beat, clears LOCKED (R389). -/
def loseParent (b : Blk) : Blk :=
  seekParent { b with beat := { b.beat with parent := 63, dist := 255, lostBeat := some b.beat.count, adopt := none } }

/-- The parent is lost: its port left UP, two beats passed without its mark, or its mark came without LOCKED. -/
def parentGone (b : Blk) : Bool :=
  let p := getP b b.beat.parent
  b.beat.parent != 63 && (p.state != 2 || decide (2 ≤ p.mark.age) || (match p.mark.mark with | some m => !m.locked | none => true))

/-- PARENT_LOST. -/
def execParentLost (s : State) : Host.Outcome State Fault Refusal :=
  actLive s fun b _ => if b.beat.run && !isMaster b.beat && parentGone b then loseParent b else b

/-- θ and d of R386 for a mark that carries an echo of one of the last four marks sent. Halves are rounded down (DESIGN CHOICE, log 11). -/
def measure (b : Blk) (p : Port) (m : Mark) (rx : Nat) : Option (Int × Int) :=
  (p.sentMarks.find? fun e => e.1 == m.echoOf).map fun e =>
    let P : Int := b.beat.per
    let a1 : Int := m.beat * P + m.tTx
    let b1 : Int := b.beat.count * P + rx
    let b2 : Int := e.1 * P + e.2
    let a2 : Int := m.echoBeat * P + m.echoRx
    (((b1 - a1) - (a2 - b2)) / 2, ((b1 - a1) + (a2 - b2)) / 2)

/-- A measurement against the parent: OFFSET, and LOCKED after two in a row within 8 ns (R388); beyond the guard LOCKED clears (R389). -/
def useTheta (b : Blk) (theta : Int) : Blk :=
  let b := { b with beat := { b.beat with offset := theta } }
  if b.beat.adopt.isSome then b
  else if b.beat.grd < theta.natAbs then
    let b := setLock b false
    match (getP b b.beat.parent).mark.mark with
    | some m => { b with beat := { b.beat with adopt := some m.beat, step := -theta, good := 0 } }
    | none => b
  else if theta.natAbs ≤ 8 then
    let b := { b with beat := { b.beat with good := b.beat.good + 1 } }
    if 2 ≤ b.beat.good then setLock b true else b
  else { b with beat := { b.beat with good := 0 } }

/-- R390: a mark of another master, or of another configuration. -/
def markDiffers (b : Blk) (m : Mark) : Bool :=
  (match b.beat.masterEp with | some e => m.masterEp != e && m.locked | none => false) ||
  m.period != b.beat.per || m.guard != b.beat.grd || m.dipLen != b.beat.dip

def otherMaster (b : Blk) (m : Mark) : Bool := match b.beat.masterEp with | some e => m.masterEp != e && m.locked | none => false

/-- What a port keeps of a mark (R385, R386). -/
def markOf (b : Blk) (p : Port) (m : Mark) (rx : Nat) : MarkInfo :=
  let v := measure b p m rx
  { mark := some m, rxBeat := b.beat.count, rx, age := 0, known := v.isSome || p.mark.known
    theta := match v with | some t => t.1 | none => p.mark.theta
    delay := match v with | some t => t.2 | none => p.mark.delay }

/-- What a mark means to an engine whose beat runs (R388 to R390): `fresh`: it is the port's first mark of this master. -/
def useMark (b : Blk) (n : Nat) (m : Mark) (fresh : Bool) (v : Option (Int × Int)) : Blk :=
  let b := if markDiffers b m then { b with beat := { b.beat with mismatch := true } } else b
  let b := if otherMaster b m && fresh then adminEvent b 0x24 n m.masterEp 0 else b
  if isMaster b.beat then b
  else if b.beat.parent == n then
    if parentGone b || !mayParent b (getP b n) then loseParent b
    else
      let b := { b with beat := { b.beat with dist := m.dist + 1, masterEp := some m.masterEp } }
      match v with | some t => useTheta b t.1 | none => b
  else seekParent b

/-- BEAT_MARK of a port (R385 to R390, R399): `rx` is the time of its arrival in the local beat, in ns. The first echo after waking within
the guard ends the wait for it, another one retrains the port (R399). -/
def beatMarkFx (b : Blk) (n : Nat) (m : Mark) (rx : Nat) : Blk :=
  let p := getP b n
  if !framing b n || p.state != 2 then b
  else
    let v := measure b p m rx
    let fresh := match p.mark.mark with | some k => k.masterEp != m.masterEp | none => true
    let b := modP b n fun q => { q with mark := markOf b p m rx }
    let first := match v with | some t => if p.woke then some (decide (t.1.natAbs ≤ b.beat.grd)) else none | none => none
    let b := if first == some true then modP b n fun p => { p with woke := false } else if first == some false then retrain b n else b
    if !b.beat.run || first == some false then b else useMark b n m fresh v

def execBeatMark (n : Nat) (m : Mark) (rx : Nat) (s : State) : Host.Outcome State Fault Refusal := actLive s fun b _ => beatMarkFx b n m rx

/-! ### Movement and deadlock (R476 to R479) -/

/-- The queues of a function that hold an accepted command that has not completed. -/
def heldQueues (b : Blk) (f : Nat) : List Nat :=
  (List.range (getFn b f).nq).filter fun q => b.cmds.any fun c => c.id.f == f && c.id.q == q && !decide (c.phase = .taken)

/-- Every queue with a command has its head waiting on a pennant, and some queue has one. -/
def stalled (b : Blk) (f : Nat) : Bool :=
  let qs := heldQueues b f
  fnLive b f && !qs.isEmpty && qs.all fun q => (headOf b f q).any (·.waitOn.isSome)

/-- The end of a beat for the detectors: beats in a row in which a function, or every function with commands, stood still. -/
def countStill (b : Blk) : Blk :=
  let fs := (b.fns.filter fun e => e.2.enabled && !e.2.fenced).map (·.1)
  let busy := fs.filter fun f => !(heldQueues b f).isEmpty
  let still := fun (f : Nat) => stalled b f && !(getFn b f).moved
  let all := !busy.isEmpty && busy.all still && !(fs.any fun f => (getFn b f).moved)
  let b' := fs.foldl (fun t f => modFn t f fun n => { n with stillBeats := if still f then n.stillBeats + 1 else 0, moved := false }) b
  { b' with dlck := { b.dlck with still := if all then b.dlck.still + 1 else 0 } }

def fnBeats (b : Blk) : Nat := max 1 (fld b.ctl.penDlck.force.toNat 15 0)
def blkBeats (b : Blk) : Nat := max 1 (fld b.ctl.penDlck.force.toNat 31 16)

/-- One entry of a snapshot (R478, R479): `f` in bits [41:33] for the block-wide form. -/
def snapEntry (b : Blk) (c : Cmd) (f : Nat) (out : Bool) : List Byte :=
  let (vid, form, value, mask) := waitCond c
  let v := match c.waitOn with | some p => (getPen b p).value.toNat | none => 0
  leBytes (mk [(63, 60, c.id.q), (59, 58, form), (57, 42, vid), (41, 33, f), (32, 32, b2n out), (31, 0, tagOf c)]) 8 ++ leBytes value 8 ++
    leBytes mask 8 ++ leBytes v 8

def waitingHeads (b : Blk) (f : Nat) : List Cmd :=
  (heldQueues b f).filterMap fun q => (headOf b f q).filter (·.waitOn.isSome)

/-- A DEADLOCK record in a function's logbook: header and entries (R478, R505). -/
def deadlockRecord (b : Blk) (f who beats episode : Nat) (heads : List (Cmd × Nat)) : List Byte :=
  let kept := heads.take 256
  let out := decide (256 < heads.length)
  let es := kept.zipIdx.flatMap fun (x, i) => snapEntry b x.1 x.2 (out && i + 1 == kept.length)
  logRecord (getFn b f) 5 0 0 0 0 0 []
    (leBytes (mk [(63, 32, beatNow b), (31, 16, kept.length), (8, 0, who)]) 8 ++ leBytes (mk [(63, 32, beats), (31, 0, episode)]) 8 ++ es)

/-- DEADLOCK of a function (R476, R477). -/
def deadlockFx (b : Blk) (f : Nat) : Blk :=
  let n := getFn b f
  if !tb b.ctl.penDlck.force.toNat 63 || !fnLive b f || n.deadlocked || decide (n.stillBeats < fnBeats b) || !stalled b f then b
  else
    let ep := n.episodes + 1
    let lsn := n.head
    let b := appendLog b f (deadlockRecord b f f (fnBeats b) ep ((waitingHeads b f).map fun c => (c, 0)))
    let b := modFn b f fun n => { n with episodes := ep, deadlocked := true, moved := false }
    event (carryIfShort b f) f 0x0C 0 0 ep lsn

def execDeadlock (f : Nat) (s : State) : Host.Outcome State Fault Refusal := act s fun b _ => deadlockFx b f

/-- BLOCK_DEADLOCK (R479); FN_EN = 0 turns detection off altogether (R480). -/
def blockDeadlockFx (b : Blk) : Blk :=
  let cfg := b.ctl.penDlck.force.toNat
  if !tb cfg 63 || !tb cfg 62 || b.dlck.reported || decide (b.dlck.still < blkBeats b) then b
  else
    let fs := (b.fns.filter fun e => stalled b e.1).map (·.1)
    let heads := fs.flatMap fun f => (waitingHeads b f).map fun c => (c, f)
    let ep := b.dlck.episodes + 1
    let lsn := (getFn b 0).head
    let b := if fnLive b 0 then appendLog b 0 (deadlockRecord b 0 0x1FF (blkBeats b) ep heads) else b
    let b := modFn { b with dlck := { b.dlck with episodes := ep, reported := true } } 0 fun n => { n with moved := false }
    adminEvent (carryIfShort b 0) 0x0D 0 ep lsn

def execBlockDeadlock (s : State) : Host.Outcome State Fault Refusal := act s fun b _ => blockDeadlockFx b

/-! ### What a dip window brings into force (R380) -/

/-- Fences the host asked for (R613). A unit that the data path holds at another state than the request's is a conflict of views (R614,
R615): already fenced, or a port that is down. -/
def fenceAsked (b : Blk) (r : FenceReq) : Blk :=
  let state := match r.kind with
    | 0 => (getTile b r.index).state
    | 1 => if (getSect b r.index).fenced then 3 else 0
    | 2 => let p := getP b r.index; if p.state == 3 then 3 else if p.state == 0 then 2 else 0
    | 3 => if memFenced b r.index then 3 else 0
    | 4 => if (getD2 b r.index).state == 2 then 3 else if (getD2 b r.index).state == 0 then 2 else 0
    | _ => if (getFn b r.index).fenced then 3 else 0
  let b := if state == 3 then adminEvent b 0x1A (mk [(3, 0, r.kind)]) r.index (mk [(7, 4, 3)])
    else if state == 2 then adminEvent b 0x1A (mk [(3, 0, r.kind)]) r.index (mk [(3, 0, 3), (7, 4, 2)]) else b
  match r.kind with
  | 0 => fenceTile b r.index 0
  | 1 => fenceSector b r.index 0
  | 2 => fenceLink b r.index 0
  | 3 => fenceMem b r.index 0
  | 4 => fenceD2d b r.index 0
  | _ => fenceFn b r.index 0

/-- A trained port becomes UP (R701). -/
def portUp (b : Blk) (n : Nat) : Blk :=
  modP b n fun p => if p.state == 1 && p.trained then { p with state := 2, trained := false, idle := 0, rekey := 0 } else p

/-- Registers that a dip window governs (R745). -/
def forceRegs (b : Blk) : Blk :=
  let f := fun (d : Dip) => { d with force := d.due }
  let c := b.ctl
  { b with
    ctl := { c with arbSlack := f c.arbSlack, penDlck := f c.penDlck, arrCur := f c.arrCur, floor := f c.floor, throttle := f c.throttle
                    e2e := f c.e2e, pwrLink := f c.pwrLink }
    ports := b.ports.map fun (p : Port) => { p with ringForce := p.ringDue } }

/-- Register values as they stand when the dip window opens. -/
def latchRegs (b : Blk) : Blk :=
  let f := fun (d : Dip) => { d with due := d.stored }
  let c := b.ctl
  { b with
    ctl := { c with arbSlack := f c.arbSlack, penDlck := f c.penDlck, arrCur := f c.arrCur, floor := f c.floor, throttle := f c.throttle
                    e2e := f c.e2e, pwrLink := f c.pwrLink }
    ports := b.ports.map fun (p : Port) => { p with ringDue := p.ring } }

/-- Halyard entries whose ACT_BEAT the next beat is: granted ones become active, pending ones are freed (R362). -/
def halyDue (b : Blk) (granted : Bool) : List Nat :=
  (b.t.haly.filter fun e => e.2.valid && !e.2.active && e.2.granted == granted && decide (e.2.actBeat ≤ (b.beat.count + 1) % 2 ^ 32)).map (·.1)

/-- What stands requested as the dip window opens. -/
def dueNow (b : Blk) (granted : List Nat) : Due :=
  let tiles := b.tiles.zipIdx
  { staged := dueStaged b, reforms := b.due.reforms, fences := b.ctl.fences
    arrs := (tiles.filter fun e => !e.1.arrDue.isEmpty).map fun e => (e.2, e.1.arrDue)
    seqs := (tiles.filter fun e => !e.1.seqDue.isEmpty).map fun e => (e.2, e.1.seqDue)
    tiles := (tiles.filter fun e => e.1.due).map (·.2)
    spares := (b.ports.zipIdx.filter fun e => e.1.spareDue).map (·.2)
    ups := (b.ports.zipIdx.filter fun e => e.1.state == 1 && e.1.trained).map (·.2)
    halyOn := halyDue b true, halyOff := halyDue b false
    unmaps := ((b.fns.filter fun e => e.2.disabling && !e.2.fenced).map (·.1)), opps := dueOpps b granted }

/-- Functions being disabled lose their pages in the dip window (R444, R546). -/
def unmapAll (b : Blk) (f : Nat) : Blk :=
  let pages := mappedPages b f
  let blocks := pages.map fun p => fld (tget 0 b.t.dir (f * 256 + p)) 9 0
  if pages.isEmpty || !(getFn b f).disabling then b else settle (returnBlocks (unmapNow b f pages) blocks)

/-- Everything that is due takes effect, units first, then tables. -/
def applyDue (b : Blk) : Blk :=
  let d := b.due
  let b := forceRegs { b with due := due0, ctl := { b.ctl with fences := b.ctl.fences.drop d.fences.length } }
  let b := d.fences.foldl fenceAsked b
  let b := d.arrs.foldl (fun b e => spareArrays b e.1 e.2) b
  let b := d.seqs.foldl (fun b e => spareSeqs b e.1 e.2) b
  let b := if d.tiles.isEmpty then b else (List.range 8).foldl (fun b s => spareInSector b s d.tiles) b
  let b := d.spares.foldl sparePort b
  let b := d.ups.foldl portUp b
  let b := d.halyOn.foldl (fun b i => modHaly b i fun e => { e with active := true }) b
  let b := d.halyOff.foldl freeHaly b
  let b := d.opps.foldl (fun b e => applyOpp b e.1 e.2) b
  let b := d.reforms.foldl (fun b gid => match findGroup b gid with | some (gh, _) => autoReformFx b gh | none => b) b
  let b := applyAllStaged b d.staged
  d.unmaps.foldl unmapAll b

/-- The shadows that a dip window updates, with what it has brought into force (R580, R744; log 18). -/
def takeShadows (b : Blk) : Blk :=
  { b with
    snap := b.t
    shadow := { tiles := b.tiles, sectors := b.sectors, pwr := b.pwr, beat := b.beat, ovr := (b.beat.overrun, b.beat.demote), sec := b.sec, fns := b.fns
                free := 1024 - (b.t.dir.filter fun e => tb e.2 15).length } }

/-! ### DIP_WINDOW and BEAT_START -/

/-- DIP_WINDOW: keep-alives, the adaptation of OPPs by utilisation in thousandths (R663), and what stands requested becomes due. -/
def dipFx (b : Blk) (util : List Nat) : Blk :=
  if b.beat.inDip then b
  else
    let granted := (running b).filter fun s => (getSect b s).granted
    let b := sendAlives { b with beat := { b.beat with inDip := true } }
    let b := if b.life.fwVersion != 0 && decide (b.life.phase = .run) then adaptAll b util else b
    let b := latchRegs b
    if decide (b.life.phase = .run) then { b with due := dueNow b granted } else b

def execDipWindow (util : List Nat) (s : State) : Host.Outcome State Fault Refusal := actLive s fun b _ => dipFx b util

/-- Injection rate of OTHER-class traffic at an output (R364), in 1/256. -/
def throttle (b : Blk) (p : Port) : Nat :=
  let w := b.ctl.throttle.force.toNat
  let hi := fld w 31 16
  let lo := min (fld w 15 0) hi
  let q := queued p 0 + queued p 1 + queued p 2
  if hi < q then max (max 1 (min 256 (floorNow b))) (p.rate / 2) else if q < lo then min 256 (2 * p.rate) else p.rate

/-- What each port starts a beat with: its slot count, its rate, ages of marks, idle beats. -/
def portsBeat (b : Blk) : Blk :=
  { b with ports := b.ports.map fun (p : Port) => { p with
      slot := 0, injected := 0, rate := throttle b p, idle := p.idle + 1, mark := { p.mark with age := p.mark.age + 1 } } }

/-- OTH credits withheld from the dies return (R364, R718). -/
def returnOwed (b : Blk) : Blk :=
  (List.range 4).foldl (fun b p =>
    let k := (getD2 b p).owed
    if k == 0 || (getD2 b p).state != 1 then b
    else dSend (modD2 b p fun d => { d with owed := 0, gOth := d.gOth + k }) p { type := 0x0C, flags := 0, fn := 0, tag := 0, arg := k * 2 ^ 32, body := [] }) b

/-- Each function's anchor, when its true tail has moved (R510). -/
def anchors (b : Blk) : Blk :=
  ((b.fns.filter fun e => e.2.enabled && !e.2.fenced).map (·.1)).foldl (fun b f =>
    if trueTail b f == (getFn b f).tailAnchor then b else writeAnchor b f) b

/-- The power of a beat's end: the means start anew, and the activity level that the cap lowered rises by one (R664). -/
def powerBeat (b : Blk) : Blk :=
  let p := b.pwr
  let up := decide (100 * p.watts ≤ 95 * capOf p) && decide (p.actCap < 16)
  setActMax (requestVolt { b with pwr := { p with sumW := 0, sumA := 0, samples := 0, actCap := if up then p.actCap + 1 else p.actCap } })

/-- The periods of the next beat (R374, R381): stored values, or the reset values where the stored ones leave too little. -/
def nextPeriods (x : Beat) : Beat :=
  if x.run || 500 + x.guard + x.dipLen ≤ x.period then { x with per := x.period, grd := x.guard, dip := x.dipLen }
  else { x with per := 0x4E20, grd := 0x40, dip := 0xC8 }

/-- The count of the beat that begins (R381, R387, R388). -/
def nextCount (x : Beat) (ep : Nat) : Beat :=
  let x := { nextPeriods x with inDip := false, beatOut := x.run }
  if !x.run || (x.source == 2 && !x.live) then { x with count := x.count + 1, beatOut := x.run && x.live }
  else if x.source == 1 && !x.live then { x with live := true, master := true, parent := 63, dist := 0, masterEp := some ep, count := 0 }
  else if isMaster x then { x with count := x.count + 1, missed := if x.source == 2 then x.missed + 1 else x.missed }
  else match x.adopt with
    | some c => { x with live := true, master := false, count := c + 1, adopt := none, good := 0 }
    | none => { x with live := true, master := false, count := x.count + 1 }

/-- A local beat begins: what is due takes effect, then the new beat's count, marks and ticks (R379, R380, R385, R510). -/
def startBeat (b : Blk) (adv : Beat → Beat) : Blk :=
  let b := if decide (b.life.phase = .run) then applyDue b else forceRegs b
  let b := takeShadows (if awake b then countStill b else b)
  let b := if b.beat.lostBeat.isSome && b.beat.parent == 63 then
      setLock { b with beat := { b.beat with lostBeat := none } } false else b
  let first := !b.beat.live
  let b := { b with beat := { adv b.beat with ticked := awake b } }
  let b := if first && b.beat.live && b.beat.source == 1 then setLock b true else b
  let b := powerBeat (portsBeat b)
  let b := seekParent (sendMarks b)
  if awake b then returnOwed (anchors b) else b

/-- BEAT_START. -/
def execBeatStart (s : State) : Host.Outcome State Fault Refusal := actLive s fun b _ => startBeat b fun x => nextCount x (selfEp b)

/-! ### BEAT_IN (R387) -/

/-- The beat that an edge starts: the first one counts 0. -/
def edgeCount (ep t : Nat) (x : Beat) : Beat :=
  let x := { nextPeriods x with inDip := false, beatOut := true, edge := some t, missed := 0 }
  if x.live then { x with count := x.count + 1 }
  else { x with live := true, master := true, parent := 63, dist := 0, masterEp := some ep, count := 0 }

/-- How far an edge lies from its expected time: a whole number of periods, at least one, after the last. -/
def edgeError (per last t : Nat) : Nat :=
  let k := max 1 ((t - last + per / 2) / per)
  max (t - (last + k * per)) (last + k * per - t)

/-- A rising edge of BEAT_IN at time t in ns starts a beat at a MASTER_PIN engine: LOCKED by two edges PERIOD ± 8 ns apart, not LOCKED by
an edge beyond the guard. -/
def beatInFx (b : Blk) (t : Nat) : Blk :=
  if !b.beat.run || b.beat.source != 2 then b
  else
    let last := b.beat.edge
    let per := b.beat.per
    let b := startBeat b (edgeCount (selfEp b) t)
    match last with
    | none => b
    | some l =>
      if b.beat.grd < edgeError per l t then setLock b false
      else if max (t - (l + per)) (l + per - t) ≤ 8 then setLock b true else b

def execBeatIn (t : Nat) (s : State) : Host.Outcome State Fault Refusal := actLive s fun b _ => beatInFx b t

/-- Two beats without an edge clear LOCKED at the master; it runs on. -/
def execBeatInMissing (s : State) : Host.Outcome State Fault Refusal :=
  actLive s fun b _ => if b.beat.run && b.beat.source == 2 && b.beat.live && decide (2 ≤ b.beat.missed) then setLock b false else b

/-! ### Keep-alives and absent partners (R392 to R394, R398) -/

/-- A KEEP_ALIVE marks its endpoint present for this beat. -/
def keepAliveFx (b : Blk) (n ep : Nat) : Blk :=
  if !framing b n || (getP b n).state != 2 then b
  else { b with beat := { b.beat with seen := b.beat.seen.map fun (x : Seen) => if x.ep == ep then { x with last := b.beat.count, absent := false } else x } }

def execKeepAlive (n ep beat : Nat) (locked : Bool) (s : State) : Host.Outcome State Fault Refusal :=
  actLive s fun b _ => (fun (_ : Nat × Bool) => keepAliveFx b n ep) (beat, locked)

/-- No keep-alive of the endpoint came in the last three beats, and it is not reachable only through sleeping ports. -/
def isAbsent (b : Blk) (ep : Nat) : Bool :=
  let ps := b.ports.filter fun p => p.state == 2 && p.partnerEp == ep
  (b.beat.seen.any fun x => x.ep == ep && !x.absent && decide (x.last + 3 < b.beat.count)) &&
  !(!ps.isEmpty && ps.all fun p => !decide (p.sleep ≤ 2))

/-- PARTNER_ABSENT: its ports go down, and its members are LOST in every group. -/
def partnerAbsentFx (b : Blk) (ep : Nat) : Blk :=
  if !isAbsent b ep then b
  else
    let b := { b with beat := { b.beat with seen := b.beat.seen.map fun (x : Seen) => if x.ep == ep then { x with absent := true } else x } }
    let ns := (List.range 42).filter fun n => let p := getP b n; p.state == 2 && p.partnerEp == ep
    let b := ns.foldl linkDown b
    loseEngine (adminEvent b 0x22 0 ep (beatNow b)) ep

def execPartnerAbsent (ep : Nat) (s : State) : Host.Outcome State Fault Refusal := act s fun b _ => partnerAbsentFx b ep

end Sys2Proof.Machine
end

