-- ==== Sys2Proof/Machine/Training.lean ====
section
/-!
DEFINITION. Training of link ports (R306, R634 to R641, R701 to R703), lanes (R702 to R706), link sleep (R398, R399, R669 to R671, R709,
R710) and the KEY_MGMT operations on links (R638).
-/
namespace Sys2Proof.Machine

/-! ### Attempts -/

/-- R306: the port may train. -/
def mayTrain (b : Blk) (n : Nat) : Bool :=
  let p := getP b n
  portExists b n && p.enable && tb b.ctl.fabSelf.toNat 32 && !p.prbsAct && p.state != 3

/-- A failure ends the attempt (R701): the lanes idle until the next one; a handshake that KEY_MGMT asked for is over (R638). -/
def failAttempt (b : Blk) (n : Nat) : Blk :=
  let b := modP b n fun p => idleLanes { p with
    phase := .reset, fsConflict := false, fsDone := false, sessOurs := false, sessTheirs := false, msgs := [], trained := false }
  if (getP b n).rekey == 0 then b else endRekey b n

/-- LINK_TRAIN_START: RESET is over, or the lanes have idled after a failed attempt. -/
def execLinkTrainStart (n : Nat) (s : State) : Host.Outcome State Fault Refusal :=
  act s fun b _ =>
    let p := getP b n
    if mayTrain b n && (p.state == 0 || (p.state == 1 && decide (p.phase = .reset))) then modP b n attempt else b

/-- PHYRDY rises: electrical idle ends and every lane adapts, in the PHY phase of an attempt. -/
def execPhyrdy (n : Nat) (s : State) : Host.Outcome State Fault Refusal :=
  actLive s fun b _ => modP b n fun p =>
    if !p.phyRstN then p
    else if decide (p.phase = .phy) && (p.state == 1 || p.retraining) then { p with phyRdy := true, txei := 0, adaptReq := 0x1FFF }
    else if p.prbsAct then { p with phyRdy := true, adaptReq := 0x1FFF }
    else { p with phyRdy := true }

/-- Lanes of a mask, counted. -/
def laneCount (mask : Nat) : Nat := (bitsSet mask 13).length
/-- The twelve lowest lanes of a mask (R702). -/
def lanesOf (mask : Nat) : Nat := mk (((bitsSet mask 13).take 12).map fun l => (l, l, 1))
def laneMinus (a c : Nat) : Nat := mk (((bitsSet a 13).filter fun l => !tb c l).map fun l => (l, l, 1))

/-- ADAPT_DONE: `good` are the lanes with adaptation finished and lock. Twelve of them end the PHY phase; this side's RX_GOOD mask leaves
out lanes judged faulty (R702). -/
def execAdaptDone (n good : Nat) (s : State) : Host.Outcome State Fault Refusal :=
  act s fun b _ => modP b n fun p =>
    if !decide (p.phase = .phy) || p.adaptReq == 0 || decide (laneCount good < 12) then p
    else { p with phase := .lanes, adapted := good, adaptReq := 0, goodMine := laneMinus good p.rxFault }

/-- RX_GOOD: the partner's mask chooses the lanes of this side's transmitter, this side's mask those of its receiver; with twelve lanes each
way LANES ends: a lane retrain resumes its frames (R705), an attempt goes on to its handshake. SKEW_NS is a free value. -/
def rxGoodFx (b : Blk) (n mask : Nat) : Blk :=
  let p := getP b n
  if !decide (p.phase = .lanes) || decide (laneCount mask < 12) || decide (laneCount p.goodMine < 12) then b
  else
    let (skew, b) := draw b
    modP b n fun p =>
      let p := { p with
        goodTheirs := mask, txActive := lanesOf mask, rxActive := lanesOf p.goodMine, txei := 0x1FFF - lanesOf mask, skewNs := skew % 256 }
      if p.retraining then { p with phase := .done, retraining := false }
      else { p with phase := .key, msgs := [(p.msgNext, 1)], msgNext := (p.msgNext + 1) % 65536 }

def execRxGood (n mask : Nat) (s : State) : Host.Outcome State Fault Refusal := act s fun b _ => rxGoodFx b n mask

/-! ### The key handshake (R634 to R641, R703) -/

/-- An IDENT cell (R322). -/
def identCell (b : Blk) (p : Port) : List Byte :=
  padTo 64 (leBytes 1 1 ++ leBytes 0 3 ++ leBytes (selfEp b) 2 ++ leBytes p.serves 1)

/-- Both sessions have finished and an FS is held: frames start at FSEQ 0, IDENT first, and the handshake counts (R326, R638, R701). -/
def startFrames (b : Blk) (n : Nat) : Blk :=
  let cell := identCell b (getP b n)
  modP b n fun p => { p with
    phase := .frames, fsDone := true, keyEpoch := (p.keyEpoch + 1) % 2 ^ 32, txNext := 0, rxNext := 0, replay := [], retryRun := 0, retried := none
    nakRx := false, nakDue := false, fcIn := 0, fcOut := 0, msgs := [], linkQ := [cell] }

/-- The FS exchange (R640). Where neither side holds one, or the two differ, the port stays in its KEY phase until its time limit. -/
def fsExchange (b : Blk) (n : Nat) (theirs : Option Nat) : Blk :=
  match b.sec.fs, theirs with
  | some a, some t =>
    if a == t then startFrames b n
    else modP { b with sec := { b.sec with fsConflict := satAdd b.sec.fsConflict 1 65535 } } n fun p => { p with fsConflict := true }
  | none, some t => startFrames (holdFs b t) n
  | some _, none => startFrames b n
  | none, none => b

/-- A finished session (R635): both done, the FS exchange is sent. -/
def sessionDone (b : Blk) (n : Nat) (ours ok : Bool) : Blk :=
  if !ok then failAttempt { b with sec := { b.sec with hsFail := satAdd b.sec.hsFail 1 65535 } } n
  else modP b n fun p =>
    let was := p.sessOurs && p.sessTheirs
    let p := { p with sessOurs := p.sessOurs || ours, sessTheirs := p.sessTheirs || !ours }
    if p.sessOurs && p.sessTheirs && !was then { p with msgs := p.msgs ++ [(p.msgNext, 1)], msgNext := (p.msgNext + 1) % 65536 } else p

/-- TRAIN_MESSAGE: SPDM messages, then the FS exchange, in that order; an acknowledgement; a fragment that is too long. -/
def trainFx (b : Blk) (n : Nat) (m : TrainMsg) : Blk :=
  let p := getP b n
  if p.state != 1 || !decide (p.phase = .key) then b
  else match m with
  | .session ours ok => sessionDone b n ours ok
  | .fs secret => if p.sessOurs && p.sessTheirs && !p.fsConflict then fsExchange b n secret else b
  | .ack num => modP b n fun p => { p with msgs := p.msgs.filter fun x => x.1 != num }
  | .overlong => failAttempt b n

def execTrainMessage (n : Nat) (m : TrainMsg) (s : State) : Host.Outcome State Fault Refusal := act s fun b _ => trainFx b n m

/-- TRAIN_RESEND: the oldest message without acknowledgement, sent at most 8 times. -/
def trainResendFx (b : Blk) (n : Nat) : Blk :=
  let p := getP b n
  if p.state != 1 || !decide (p.phase = .key) then b
  else match p.msgs with
  | [] => b
  | x :: rest => if 8 ≤ x.2 then failAttempt b n else modP b n fun p => { p with msgs := (x.1, x.2 + 1) :: rest }

def execTrainResend (n : Nat) (s : State) : Host.Outcome State Fault Refusal := act s fun b _ => trainResendFx b n

/-- TRAINING_TIMEOUT: a phase's time limit passes. A lane retrain that fails takes the port down (DEDUCED, log 19). -/
def execTrainingTimeout (n : Nat) (s : State) : Host.Outcome State Fault Refusal :=
  act s fun b _ =>
    let p := getP b n
    if p.retraining then linkDown b n
    else if p.state == 1 && !decide (p.phase = .reset) && !decide (p.phase = .done) then failAttempt b n
    else b

/-- An endpoint is a partner from now on; the keep-alives it owes are counted from this beat (R393). -/
def seePartner (b : Blk) (ep : Nat) : Blk :=
  let xs := b.beat.seen
  let has := xs.any fun (x : Seen) => x.ep == ep
  let ys := if has then xs.map fun (x : Seen) => if x.ep == ep then { x with last := max x.last b.beat.count } else x
    else xs ++ [{ ep, last := b.beat.count, absent := false }]
  { b with beat := { b.beat with seen := ys } }

/-- IDENT (R306): the partner's endpoint and port code end the training; this engine's own endpoint holds the port in TRAINING. -/
def identFx (b : Blk) (n ep code : Nat) : Blk :=
  let p := getP b n
  if p.state != 1 || !decide (p.phase = .frames) then b
  else if ep == selfEp b then adminEvent b 0x25 n ep 0
  else
    let b := modP (seePartner b ep) n fun p => { p with partnerEp := ep, partnerPort := code, phase := .done, trained := true }
    let k := p.rekey
    if k == 0 then b else modP (endRekey b n) n fun p => { p with rekey := k }

def execIdent (n ep code : Nat) (s : State) : Host.Outcome State Fault Refusal := act s fun b _ => identFx b n ep code

/-! ### KEY_MGMT on links (R638) -/

/-- The port stops starting packets, wakes where it sleeps, and repeats its handshake once what it has sent is acknowledged. A port that is
training joins the attempt under way; a fenced one has no training to wait for. -/
def rekeyFx (b : Blk) (c : Cmd) (kind : Nat) : Blk :=
  let code := fld (pf c 1 1) 5 0
  let n := keyPort b c
  let p := getP b n
  if pf c 0 1 != kind then b
  else if !portExists b code || !p.enable then endCmd b c.id 0x61 0
  else if p.state == 3 then endCmd b c.id 0 p.keyEpoch
  else if p.trained then b
  else quiet (modP b n fun p => rouse { p with rekey := kind }) n

/-- LINK_SESSION. -/
def execLinkSession (id : CmdId) (s : State) : Host.Outcome State Fault Refusal :=
  act s fun b _ => onRun b id 0x8C fun c => rekeyFx b c 1

/-- LINK_REKEY: as LINK_SESSION, using the cached certificate chain. -/
def execLinkRekey (id : CmdId) (s : State) : Host.Outcome State Fault Refusal :=
  act s fun b _ => onRun b id 0x8C fun c => rekeyFx b c 2

/-! ### Lanes (R704 to R706) -/

/-- The lane that takes over in a direction: an unused good one. -/
def spareLane (active fault : Nat) : Option Nat := (List.range 13).find? fun l => !tb active l && !tb fault l

/-- LANE_FAULT: an unused good lane takes over by a lane retrain; with none the port goes down. -/
def laneFaultFx (b : Blk) (n lane : Nat) : Blk :=
  let p := getP b n
  if !portExists b n || p.state != 2 || !decide (p.sleep ≤ 2) || tb p.rxFault lane then b
  else
    let fault := setBit p.rxFault lane true
    let b := unitFenced (modP b n fun p => { p with rxFault := fault }) 8 5 n lane
    let need := (if tb p.txActive lane then [p.txActive] else []) ++ (if tb p.rxActive lane then [p.rxActive] else [])
    match need with
    | [] => b
    | a :: _ =>
      match spareLane a fault with
      | some k =>
        if need.all fun a => (spareLane a fault).isSome then
          unitSpared (modP b n fun p => { p with
            retraining := true, phase := .phy, txei := 0, adaptReq := 0x1FFF, laneRetrains := bump p.laneRetrains 63 }) 8 n lane k
        else linkDown b n
      | none => linkDown b n

def execLaneFault (n lane : Nat) (s : State) : Host.Outcome State Fault Refusal := act s fun b _ => laneFaultFx b n lane

/-- LOSS_OF_SIGNAL: an UP port goes down at once, an attempt under way fails. -/
def execLossOfSignal (n : Nat) (s : State) : Host.Outcome State Fault Refusal :=
  act s fun b _ =>
    let p := getP b n
    if p.state == 2 && decide (p.sleep ≤ 2) then linkDown b n
    else if p.state == 1 && !decide (p.phase = .reset) then failAttempt b n
    else b

/-! ### Sleep (R398, R399, R670, R671, R709, R710) -/

def sleepEn (b : Blk) : Bool := tb b.ctl.pwrLink.force.toNat 63
def idleBeats (b : Blk) : Nat := fld b.ctl.pwrLink.force.toNat 15 0

/-- The conditions of R670: more than IDLE_BEATS beat starts since the last cell that was no link-control cell make so many whole beats. -/
def maySleep (b : Blk) (n : Nat) : Bool :=
  let p := getP b n
  sleepEn b && portExists b n && p.state == 2 && p.rekey == 0 && !p.retraining && decide (idleBeats b < p.idle) && p.out.isEmpty && p.halyQ.isEmpty &&
  !(b.t.haly.any fun e => e.2.valid && (e.2.inPort == p.serves || e.2.outPort == p.serves)) && b.beat.parent != n

/-- SLEEP_REQUEST. -/
def execSleepRequest (n : Nat) (s : State) : Host.Outcome State Fault Refusal :=
  act s fun b _ => if maySleep b n && (getP b n).sleep == 0 then modP b n fun p => { p with sleep := 1 } else b

/-- The request is given up; it may be repeated after IDLE_BEATS more beats. -/
def giveUp (b : Blk) (n : Nat) : Blk := modP b n fun p => if p.sleep == 1 then { p with sleep := 0, idle := 0 } else p

/-- Sleep is agreed: the port starts no frame, and raises LP_REQ once every frame it sent is acknowledged. -/
def agree (b : Blk) (n : Nat) : Blk := quiet (modP b n fun p => { p with sleep := 2 }) n

/-- A SLEEP group (R697): 0 request, 1 grant, 2 refusal. A request is granted under the conditions of R670, or where one is out here too. -/
def sleepFx (b : Blk) (n kind : Nat) : Blk :=
  let p := getP b n
  if p.state != 2 then b
  else match kind with
  | 0 => if p.sleep == 1 || (p.sleep == 0 && maySleep b n) then agree b n else b
  | 1 => if p.sleep == 1 then agree b n else b
  | 2 => giveUp b n
  | _ => b

def execSleep (n kind : Nat) (s : State) : Host.Outcome State Fault Refusal := act s fun b _ => sleepFx b n kind

/-- SLEEP_ANSWER_TIMEOUT. -/
def execSleepAnswerTimeout (n : Nat) (s : State) : Host.Outcome State Fault Refusal := act s fun b _ => giveUp b n

/-- LP_ACK: its rise puts a port that raised LP_REQ to sleep, its fall lets a waking one leave electrical idle. -/
def execLpAck (n : Nat) (level : Bool) (s : State) : Host.Outcome State Fault Refusal :=
  act s fun b _ => modP b n fun p =>
    if p.state != 2 then p
    else if level && p.sleep == 3 then { p with sleep := 4, txei := 0x1FFF }
    else if !level && p.sleep == 5 then { p with txei := 0x1FFF - p.txActive }
    else p

/-- WAKE: a port that is asleep clears LP_REQ; one that is waking resumes framing when its lanes are deskewed, with its offset still to
measure (R399), and starts a full attempt when they are not within the time limit. -/
def wakeFx (b : Blk) (n : Nat) (deskewed : Bool) : Blk :=
  let p := getP b n
  if p.state != 2 then b
  else if p.sleep == 4 then modP b n rouse
  else if p.sleep != 5 then b
  else if !deskewed then retrain b n
  else if p.txei == 0x1FFF then b
  else
    let b := modP b n fun p => { p with sleep := 0, woke := true, idle := 0, mark := { p.mark with known := false }, sentMarks := [] }
    quiet (seePartner b p.partnerEp) n

def execWake (n : Nat) (deskewed : Bool) (s : State) : Host.Outcome State Fault Refusal := act s fun b _ => wakeFx b n deskewed

end Sys2Proof.Machine
end

