-- ==== Sys2Proof/Machine/D2dRows.lean ====
section
/-!
DEFINITION. The D2D ports: messages of the dies (R457 to R459, R715 to R720), credits (R718), the state of the FDI and its losses (R712,
R721).
-/
namespace Sys2Proof.Machine

/-! ### Messages of a die -/

/-- Units of a message by the length of its body (R718). -/
def unitsOf (body : Nat) : Nat := cdiv (16 + body) 64

def creditMsg (req rsp oth : Nat) : DMsg := { type := 0x0C, flags := 0, fn := 0, tag := 0, arg := mk [(15, 0, req), (31, 16, rsp), (47, 32, oth)], body := [] }

/-- The credit of a consumed message returns to the die (R718). -/
def giveBack (b : Blk) (p cls units : Nat) : Blk :=
  dSend b p (creditMsg (if cls == 0 then units else 0) (if cls == 1 then units else 0) (if cls == 2 then units else 0))

/-- The port takes messages: its FDI is active. -/
def dieTalks (b : Blk) (p : Nat) : Bool := let s := (getD2 b p).state; s == 1 || s == 3

/-- A message refused or discarded (R716, R719, R722). -/
def denied (b : Blk) (p : Nat) : Blk := modD2 b p fun d => { d with denied := bump d.denied 65535 }

/-- A response of the block: type, tag, status and body. -/
def respond (b : Blk) (p type f tag status : Nat) (body : List Byte) : Blk :=
  dSend b p { type, flags := 0, fn := f, tag, arg := status, body }

/-- What every request of a die meets first (R719, R721): NOT_READY during a block reset, DENIED for a function the port may not act for.
`type` is the response that carries the status, `zeros` its body then. The credit of an OTH message that is taken returns with its
injection. -/
def request (b : Blk) (p f tag type cls units zeros : Nat) (k : Blk → Blk) : Blk :=
  if !dieTalks b p then b
  else
    let back := giveBack b p cls units
    if !decide (b.life.phase = .run) then respond back p type f tag 3 (List.replicate zeros 0)
    else if !tb (getFn b f).d2dMask p then respond (denied back p) p type f tag 1 (List.replicate zeros 0)
    else k (if cls == 2 then b else back)

/-! ### DOORBELL and PEN -/

/-- D2D_DOORBELL: a write to FN_DB, in a block reset too; one that is not permitted is dropped and counted. -/
def dieBell (b : Blk) (p f q : Nat) : Blk :=
  if !dieTalks b p then b
  else
    let b := giveBack b p 0 1
    if tb (getFn b f).d2dMask p then ctlWrite b (pageOff f (8 * (q % 16))) 0 else denied b p

def execD2dDoorbell (p f q : Nat) (s : State) : Host.Outcome State Fault Refusal := actLive s fun b _ => dieBell b p f q

/-- The answer to a PEN message: PEN_RSP. -/
def penRsp (b : Blk) (p f tag status : Nat) (v : Word) : Blk := respond b p 3 f tag status (leBytes v.toNat 8)

/-- A SET or ADD of a die is applied and answered (R457); LAST_EP is this engine's, LAST_KIND D2D. -/
def penNow (b : Blk) (p : Nat) (h : DHeld) : Blk :=
  match penIdx b h.f h.vid with
  | none => penRsp b p h.f h.tag 2 0
  | some i => penRsp (penOp b i h.add h.value (selfEp b) h.f 4 h.tag) p h.f h.tag 0 0

/-- Fenced operations whose writes all have their answers are applied, in order (R458). -/
def releaseHeld (b : Blk) (p : Nat) : Blk :=
  let d := getD2 b p
  let open' := (d.accs.filter (·.wr)).map (·.n)
  let ready := fun (h : DHeld) => !(h.waits.any fun n => open'.contains n)
  (d.held.filter ready).foldl (fun b h => penNow b p h) (modD2 b p fun d => { d with held := d.held.filter fun h => !ready h })

/-- SET or ADD (R457): with FENCE after the writes this port passed before it. -/
def diePen (b : Blk) (p f vid tag : Nat) (fence add : Bool) (v : Word) : Blk :=
  request b p f tag 3 0 (unitsOf 16) 8 fun b =>
    let ws := if fence then ((getD2 b p).accs.filter (·.wr)).map (·.n) else []
    releaseHeld (modD2 b p fun d => { d with held := d.held ++ [{ f, vid, tag, add, value := v, waits := ws }] }) p

def execD2dSet (p f vid tag : Nat) (fence : Bool) (v : Word) (s : State) : Host.Outcome State Fault Refusal :=
  actLive s fun b _ => diePen b p f vid tag fence false v
def execD2dAdd (p f vid tag : Nat) (fence : Bool) (v : Word) (s : State) : Host.Outcome State Fault Refusal :=
  actLive s fun b _ => diePen b p f vid tag fence true v

/-- D2D_READ: the value of a pennant, whose fields stay (R438, R457). -/
def dieRead (b : Blk) (p f vid tag : Nat) : Blk :=
  request b p f tag 3 0 (unitsOf 16) 8 fun b =>
    match penIdx b f vid with
    | none => penRsp b p f tag 2 0
    | some i => penRsp b p f tag 0 (getPen b i).value

def execD2dRead (p f vid tag : Nat) (s : State) : Host.Outcome State Fault Refusal := actLive s fun b _ => dieRead b p f vid tag

/-- WATCH (R459): one pending watch a tag; one whose condition holds is notified at once, behind its PEN_RSP. -/
def watchFx (b : Blk) (p f vid tag wtag form : Nat) (v mask : Word) : Blk :=
  request b p f tag 3 0 (unitsOf 16) 8 fun b =>
    if b.watches.any fun w => w.port == p && w.wtag == wtag then penRsp (denied b p) p f tag 1 0
    else match penIdx b f vid with
    | none => penRsp b p f tag 2 0
    | some i =>
      let w : Watch := { port := p, wtag, pen := i, f, form, value := v, mask }
      let b := penRsp b p f tag 0 0
      let now := (getPen b i).value
      if condHolds form v.toNat mask.toNat now.toNat then notify b w 0 now
      else modPen { b with watches := b.watches ++ [w] } i fun e => { e with waiters := e.waiters + 1 }

def execWatch (p f vid tag wtag form : Nat) (v mask : Word) (s : State) : Host.Outcome State Fault Refusal :=
  actLive s fun b _ => watchFx b p f vid tag wtag form v mask

/-- UNWATCH (R459, R720). -/
def unwatchFx (b : Blk) (p f tag wtag : Nat) : Blk :=
  request b p f tag 3 0 (unitsOf 16) 8 fun b =>
    match b.watches.find? fun w => w.port == p && w.wtag == wtag with
    | none => penRsp b p f tag 5 0
    | some w =>
      let b := modPen { b with watches := b.watches.filter fun x => !(x.port == p && x.wtag == wtag) } w.pen fun e => { e with waiters := e.waiters - 1 }
      penRsp b p f tag 0 0

def execUnwatch (p f tag wtag : Nat) (s : State) : Host.Outcome State Fault Refusal := actLive s fun b _ => unwatchFx b p f tag wtag

/-! ### MWR and MRD of a die (R719) -/

/-- The enabled bytes as runs of (offset, bytes). -/
def enabledRuns (en : List Bool) (bs : List Byte) : List (Nat × List Byte) :=
  ((bs.zip en).zipIdx.foldr (fun x acc =>
    if !x.1.2 then acc
    else match acc with
      | (o, r) :: rest => if o == x.2 + 1 then (x.2, x.1.1 :: r) :: rest else (x.2, [x.1.1]) :: acc
      | [] => [(x.2, [x.1.1])]) [])

/-- A write of runs at physical keys, as one request of the port its first line names. -/
def issueRuns (b : Blk) (k : Nat) (runs : List (Nat × List Byte)) (use : MUse) : Blk :=
  match portOf b k with
  | some m => modM b m fun p => startMem { p with wrWait := p.wrWait ++ [{ tag := 0, bytes := runs, puts := max 1 (putsOf runs), msi := false, use }] }
  | none => b

def dropAcc (b : Blk) (p n : Nat) : Blk := modD2 b p fun d => { d with accs := d.accs.filter fun a => a.n != n }

/-- The answer to an access of a die: MWR_RSP, or MRD_DATA with its data. Fenced operations behind it may go on. -/
def answerDie (b : Blk) (p n status : Nat) (data : List Byte) : Blk :=
  match (getD2 b p).accs.find? fun a => a.n == n with
  | none => b
  | some a =>
    let b := respond (dropAcc b p n) p (if a.wr then 6 else 8) a.f a.tag status (if a.wr then [] else data)
    if a.wr then releaseHeld b p else b

/-- An access whose page is translated goes to a memory port; one without a kept translation asks for it first. -/
def dieIssue (b : Blk) (p : Nat) (a : DAcc) : Blk :=
  match b.xlats.find? (xlCovers · (getFn b a.f).context a.va) with
  | some x =>
    if a.wr && !x.wr then answerDie b p a.n 2 []
    else
      let k := fnKey b a.f 0 a.va
      if a.wr then issueRuns b k (a.runs.map fun r => (k + r.1, r.2)) (.die p a.n) else issueRead b k a.lines false (.die p a.n)
  | none => needXl b a.f a.va a.wr (.die p a.n)

def dieAcc (b : Blk) (p : Nat) (f tag va : Nat) (wr : Bool) (runs : List (Nat × List Byte)) (lines : Nat) : Blk :=
  let n := (getD2 b p).nextAcc
  let a : DAcc := { n, tag, f, va := va / 64 * 64, wr, runs, lines }
  dieIssue (modD2 b p fun d => { d with accs := d.accs ++ [a], nextAcc := n + 1 }) p a

/-- MWR: the enabled bytes, answered once they are visible. -/
def mwrFx (b : Blk) (p f tag addr : Nat) (en : List Bool) (bs : List Byte) : Blk :=
  request b p f tag 6 0 (unitsOf bs.length) 0 fun b => dieAcc b p f tag addr true (enabledRuns en bs) (cdiv bs.length 64)

def execMwr (p f tag addr : Nat) (enables : List Bool) (lines : List Byte) (s : State) : Host.Outcome State Fault Refusal :=
  actLive s fun b _ => mwrFx b p f tag addr enables lines

/-- MRD: 64 to 4,096 bytes. -/
def mrdFx (b : Blk) (p f tag addr len : Nat) : Blk :=
  request b p f tag 8 0 (unitsOf 8) 0 fun b => dieAcc b p f tag addr false [] (max 1 (min 64 (cdiv len 64)))

def execMrd (p f tag addr len : Nat) (s : State) : Host.Outcome State Fault Refusal := actLive s fun b _ => mrdFx b p f tag addr len

/-! ### Accesses of this engine to a die (R719, R721) -/

/-- An access failed: its command ends FAULT_ACCESS, its stream goes to ERROR (R428, R721). -/
def outFail (b : Blk) (p : Nat) (o : DOut) : Blk :=
  match o.who with
  | .cmd id => withCmd b id fun c => if decide (c.phase = .running) then accessEnd b c { kind := .error, space := p + 1, addr := o.addr } else b
  | .stream f n => if (getStr b f n).valid then streamError (accessEvent b f (getStr b f n).queue (p + 1) false true n o.addr) f n 0x31 else b

/-- A response of the die; one that is late is discarded (R721). -/
def dieResponse (b : Blk) (p tag status units : Nat) (write : Bool) : Blk :=
  if !dieTalks b p then b
  else
    let b := giveBack b p 1 units
    match (getD2 b p).outs.find? fun o => o.tag == tag && o.write == write with
    | none => b
    | some o =>
      let b := modD2 b p fun d => { d with outs := d.outs.erase o }
      if status == 0 then b else outFail b p o

/-- MWR_RSP. -/
def execMwrRsp (p tag status : Nat) (s : State) : Host.Outcome State Fault Refusal := actLive s fun b _ => dieResponse b p tag status 1 true
/-- MRD_DATA. -/
def execMrdData (p tag status : Nat) (bytes : List Byte) (s : State) : Host.Outcome State Fault Refusal :=
  actLive s fun b _ => dieResponse b p tag status (unitsOf bytes.length) false

/-- D2D_TIMEOUT: no response within 1 ms. -/
def outTimeout (b : Blk) (p tag : Nat) : Blk :=
  match (getD2 b p).outs.find? fun o => o.tag == tag with
  | none => b
  | some o => outFail (modD2 b p fun d => { d with outs := d.outs.erase o }) p o

def execD2dTimeout (p tag : Nat) (s : State) : Host.Outcome State Fault Refusal := actLive s fun b _ => outTimeout b p tag

/-! ### PKT_TX (R346, R364, R719) -/

/-- Cells that the output may still take from OTHER-class injection in this beat (R364). -/
def mayInject (b : Blk) (n : Nat) : Bool :=
  let p := getP b n
  decide (p.injected < max 1 (p.rate * (b.beat.per / 16 * 63) / 256))

/-- A packet injected by a die: ORDERED ones take the primary path. Above the output's rate its credit returns with a later beat. -/
def injectFx (b : Blk) (p dst : Nat) (bytes : List Byte) (units : Nat) : Blk :=
  let h := leAt bytes 0 8
  let pkt : Pkt := { hdr := hdrTo b dst 0 1, body := .other bytes }
  let e := routeOf b dst
  let alt := if tb h 11 then false else chooseAlt b e 1
  match (if dst == selfEp b then none else portAt b (rtCode e alt 0)) with
  | none => sendTo (giveBack b p 2 units) pkt none (b2n (tb h 11))
  | some n =>
    let b := if mayInject b n then giveBack b p 2 units else modD2 b p fun d => { d with owed := d.owed + units }
    sendTo (modP b n fun q => { q with injected := q.injected + (cellsOf pkt).length }) pkt none (b2n (tb h 11))

def pktTxFx (b : Blk) (p f tag dst : Nat) (bytes : List Byte) : Blk :=
  let units := unitsOf bytes.length
  request b p f tag 0x0B 2 units 0 fun b =>
    if !(dst == selfEp b || rtValid (routeOf b dst)) || decide (3072 < bytes.length) then respond (giveBack b p 2 units) p 0x0B f tag 4 []
    else injectFx b p dst bytes units

def execPktTx (p f tag dst : Nat) (bytes : List Byte) (s : State) : Host.Outcome State Fault Refusal := actLive s fun b _ => pktTxFx b p f tag dst bytes

/-! ### Credits, the FDI (R712, R718, R721) -/

/-- CREDIT: units the die grants or returns. -/
def creditFx (b : Blk) (p req rsp oth : Nat) : Blk :=
  if !dieTalks b p then b
  else modD2 b p fun d => dPump { d with cReq := d.cReq + req, cRsp := d.cRsp + rsp, cOth := d.cOth + oth }

def execCredit (p req rsp oth : Nat) (s : State) : Host.Outcome State Fault Refusal := actLive s fun b _ => creditFx b p req rsp oth

/-- The FDI leaves the active state: outstanding accesses end, watches stay; requests not sent are withdrawn with their accesses. -/
def fdiLost (b : Blk) (p : Nat) : Blk :=
  let os := (getD2 b p).outs
  let b := modD2 b p fun d => { d with
    state := 0, linkLoss := bump d.linkLoss 65535, outs := [], owed := 0, outq := d.outq.filter fun x => x.type != 5 && x.type != 7 }
  os.foldl (fun b o => outFail b p o) b

/-- FDI_STATE: the FDI becomes active, in the configuration of R711 or in another one, or leaves the active state. -/
def fdiFx (b : Blk) (p : Nat) (active cfgOk : Bool) : Blk :=
  let d := getD2 b p
  if 4 ≤ p || d.state == 2 || d.cfgErr then b
  else if !active then (if d.state == 0 then b else fdiLost b p)
  else if d.state != 0 then b
  else if !cfgOk then modD2 b p fun d => { d with cfgErr := true, stateReq := fdiDisabled }
  else
    let b := modD2 b p fun d => { d with
      state := if decide (b.life.phase = .run) then 1 else 3, everActive := true, stateReq := fdiActive, cReq := 0, cRsp := 0, cOth := 0
      gReq := 1024, gRsp := 1024, gOth := 1024, owed := 0, sent := [] }
    dSend b p (creditMsg 1024 1024 1024)

def execFdiState (p : Nat) (active cfgOk : Bool) (s : State) : Host.Outcome State Fault Refusal := actLive s fun b _ => fdiFx b p active cfgOk

/-- D2D_LINK_LOSS: a link that left the active state is not active again within 10 ms (R609, R721). -/
def execD2dLinkLoss (p : Nat) (s : State) : Host.Outcome State Fault Refusal :=
  actLive s fun b _ => let d := getD2 b p; if d.state == 0 && d.everActive && !d.cfgErr then fenceD2d b p 3 else b

end Sys2Proof.Machine
end

