-- ==== Sys2Proof/Machine/MemRows.lean ====
section
/-!
DEFINITION. The memory ports as Dresis meets their answers (R723 to R732): data, write completions, translations, invalidations, credits,
time limits and halts.
-/
namespace Sys2Proof.Machine

/-! ### What a failed access ends (R128, R426, R428, R514, R625, R728, R729) -/

/-- A command's access failed: it ends with the status of R584 and an ACCESS_FAULT event. -/
def useFailCmd (b : Blk) (id : CmdId) (k : AccErr) (space va : Nat) : Blk :=
  withCmd b id fun c => if decide (c.phase = .running) && !(getFn b id.f).fenced then accessEnd b c { kind := k, space, addr := va } else b

/-- A stream's access failed: a page fault halts it, anything else ends it. -/
def useFailStream (b : Blk) (f n : Nat) (k : AccErr) (va : Nat) : Blk :=
  let s := getStr b f n
  if !s.valid then b
  else if isPage k then streamFault b f n s.delivered va
  else streamError (accessEvent b f s.queue 0 false true n va) f n 0x31

/-- The issuer of a point-to-point access learns the finding at its target (R128). -/
def useFailRemote (b : Blk) (ep gid gen cseq rank : Nat) (k : AccErr) : Blk :=
  let dig := match findGroup b gid with | some (_, g) => g.digest | none => 0
  abortTo b ep { pre0 with gid, gen, cseq, srcRank := rank, rosterDig := dig } rank (faultStatus k)

/-- What the failure of an access does. A fault on a logbook or anchor write fences the function; an interrupt write's response means nothing
(R514, R730). A die is answered FAULT, or ERR for a memory error (R717). -/
def useFail (b : Blk) (u : MUse) (k : AccErr) : Blk :=
  match u with
  | .cmd id space va => useFailCmd b id k space va
  | .stream f n va => useFailStream b f n k va
  | .log f _ => fenceFn b f 7
  | .anchor f => fenceFn b f 7
  | .msi _ _ => b
  | .die p n => answerDie b p n (match k with | .error => 4 | _ => 2) []
  | .remote ep gid gen cseq rank _ => useFailRemote b ep gid gen cseq rank k

/-- A protocol error fences the port (R609, R728). -/
def protocolError (b : Blk) (m : Nat) : Blk := fenceMem b m 3

/-! ### Invalidations (R729) -/

/-- Requests, issued or waiting to be, that lie in a physical range. -/
def inRange (b : Blk) (r : Nat × Nat) : Bool :=
  let hit := fun (a : Nat) => decide (r.1 ≤ a) && decide (a < r.1 + r.2)
  b.memp.any fun p => ((p.reads ++ p.rdWait).any fun x => hit x.addr) ||
    (p.writes ++ p.wrWait).any fun w => !w.msi && w.bytes.any fun x => hit x.1

/-- Invalidations whose ranges no request uses any more are answered on their port. -/
def answerInvals (b : Blk) : Blk :=
  { b with memp := b.memp.map fun (p : MemP) =>
      let ready := fun (v : Nat × List (Nat × Nat)) => !(v.2.any (inRange b))
      { p with done := p.done ++ (p.invals.filter ready).map (·.1), invals := p.invals.filter fun v => !ready v } }

/-- The pages an invalidation covers. -/
def covered (all : Bool) (c page size ctx va lg : Nat) : Bool :=
  ctx == c && (all || (decide (va < page / 2 ^ size * 2 ^ size + 2 ^ size) && decide (page / 2 ^ size * 2 ^ size < va + 2 ^ lg)))

/-- An invalidation: without a credit, or with a tag whose done is still owed, it is a protocol error. -/
def invalFx (b : Blk) (m tag ctx page size : Nat) (all : Bool) : Blk :=
  let p := getM b m
  if decide (16 ≤ p.invals.length) || p.invals.any (fun v => v.1 == tag) then protocolError b m
  else
    let gone := b.xlats.filter fun x => covered all ctx page size x.ctx x.vpage x.size
    let old := fun (x : MXl) => { x with stale := x.stale || covered all ctx page size x.ctx x.page 12 }
    let b := { b with
      xlats := b.xlats.filter fun x => !covered all ctx page size x.ctx x.vpage x.size
      memp := b.memp.map fun (p : MemP) => { p with xlats := p.xlats.map old } }
    answerInvals (modM b m fun p => { p with invals := p.invals ++ [(tag, gone.map fun x => (x.ppage, 2 ^ x.size))] })

def execInvalidation (m tag ctx page size : Nat) (all : Bool) (s : State) : Host.Outcome State Fault Refusal :=
  actLive s fun b _ => invalFx b m tag ctx page size all

/-! ### Answers -/

/-- The kind of failure of an answer that is not OK: ERR and POISON; the reserved code is taken as they are (DESIGN CHOICE, log 20). -/
def answerErr (b : Blk) (m : Nat) : Blk := modM b m fun p => { p with errResp := bump p.errResp 65535 }

/-- READ_DATA: the whole answer to a read. -/
def readDataFx (b : Blk) (m tag stat : Nat) (bytes : List Byte) : Blk :=
  match (getM b m).reads.find? fun r => r.tag == tag with
  | none => protocolError b m
  | some r =>
    let b := modM b m fun p => startMem { p with reads := p.reads.erase r }
    let b :=
      if stat != 0 then useFail (answerErr b m) r.use .error
      else if bytes.length != 64 * r.lines then useFail (protocolError b m) r.use .error
      else match r.use with
        | .die p n => answerDie b p n 0 bytes
        | _ => b
    answerInvals b

def execReadData (m tag stat : Nat) (bytes : List Byte) (s : State) : Host.Outcome State Fault Refusal :=
  actLive s fun b _ => readDataFx b m tag stat bytes

/-- WRITE_COMPLETION: the enabled bytes are visible. A lost block takes note of it only (R627). -/
def writeDoneFx (b : Blk) (m tag stat : Nat) : Blk :=
  match (getM b m).writes.find? fun w => w.tag == tag with
  | none => if b.life.fatal == 0 then protocolError b m else b
  | some w =>
    let b := modM b m fun p => startMem { p with writes := p.writes.erase w }
    let b := if stat == 0 then w.bytes.foldl (fun b r => store b r.1 r.2) b else answerErr b m
    if b.life.fatal != 0 then b
    else
      let b := if stat != 0 then useFail b w.use .error
        else match w.use with
          | .die p n => answerDie b p n 0 []
          | _ => b
      answerInvals b

def execWriteCompletion (m tag stat : Nat) (s : State) : Host.Outcome State Fault Refusal := actCtl s fun b _ => writeDoneFx b m tag stat

/-- A translation is kept; what it was asked for goes on. One that permits no write is a violation for a use that writes. -/
def keepXl (b : Blk) (x : MXl) (page size : Nat) (wr : Bool) : Blk :=
  let lg := max 12 (min 30 size)
  let e : Xl := { ctx := x.ctx, vpage := x.page / 2 ^ lg * 2 ^ lg, ppage := page / 2 ^ lg * 2 ^ lg, size := lg, wr }
  let b := { b with xlats := b.xlats ++ [e] }
  if x.wr && !wr then useFail b x.use .accessViolation
  else match x.use with
    | .die p n => (match (getD2 b p).accs.find? fun a => a.n == n with | some a => dieIssue b p a | none => b)
    | _ => b

/-- TRANSLATION_ANSWER: 0 OK, 1 PAGE_FAULT, 2 ACCESS_VIOLATION; the reserved code is taken as the last (DESIGN CHOICE, log 20). The answer to
a request that an invalidation covered meanwhile is discarded, and the page is asked for again. -/
def xlAnswerFx (b : Blk) (m tag stat page size : Nat) (wr : Bool) : Blk :=
  match (getM b m).xlats.find? fun x => x.tag == tag with
  | none => protocolError b m
  | some x =>
    let b := modM b m fun p => startMem { p with xlats := p.xlats.erase x }
    if x.stale then modM b m fun p => startMem { p with xlWait := p.xlWait ++ [{ x with stale := false }] }
    else match stat with
    | 0 => keepXl b x page size wr
    | 1 => useFail b x.use .pageFault
    | _ => useFail b x.use .accessViolation

def execTranslationAnswer (m tag stat page size : Nat) (wr : Bool) (s : State) : Host.Outcome State Fault Refusal :=
  actLive s fun b _ => xlAnswerFx b m tag stat page size wr

/-! ### Credits and time limits -/

/-- MEM_CREDIT: put credits, counted up to 1,024, 1,024 and 256 (R725). A port with credits is UP (DESIGN CHOICE, log 21). -/
def memCreditFx (b : Blk) (m rq wq xq : Nat) : Blk :=
  modM b m fun p => startMem { p with
    rq := min 1024 (p.rq + rq), wq := min 1024 (p.wq + wq), xq := min 256 (p.xq + xq), state := if p.state == 0 then 1 else p.state }

def execMemCredit (m rq wq xq : Nat) (s : State) : Host.Outcome State Fault Refusal := actLive s fun b _ => memCreditFx b m rq wq xq

/-- MEM_TIMEOUT: a read (0), write (1) or translation (2) without an answer for 1 ms (R728). -/
def execMemTimeout (m kind tag : Nat) (s : State) : Host.Outcome State Fault Refusal :=
  actLive s fun b _ =>
    let p := getM b m
    let out := if kind == 0 then p.reads.any fun r => r.tag == tag else if kind == 1 then p.writes.any fun w => w.tag == tag
      else p.xlats.any fun x => x.tag == tag
    if out && p.state == 1 then protocolError b m else b

/-! ### Halts (R732) -/

/-- Requests that moved to another port. -/
def reissueRead (b : Blk) (m : Nat) (r : MRd) : Blk :=
  match portFrom b m with
  | some k => modM b k fun p => startMem { p with rdWait := p.rdWait ++ [{ r with tag := 0 }] }
  | none => b
def reissueWrite (b : Blk) (m : Nat) (w : MWr) : Blk :=
  match portFrom b m with
  | some k => modM b k fun p => startMem { p with wrWait := p.wrWait ++ [{ w with tag := 0 }] }
  | none => b
def reissueXl (b : Blk) (m : Nat) (x : MXl) : Blk :=
  match portFrom b m with
  | some k => modM b k fun p => startMem { p with xlWait := p.xlWait ++ [{ x with tag := 0 }] }
  | none => b

/-- The requests of a port are taken from it. -/
def emptyPort (b : Blk) (m : Nat) : Blk :=
  modM b m fun p => { p with reads := [], writes := [], xlats := [], rdWait := [], wrWait := [], xlWait := [] }

/-- What a fenced port has not had answered moves to other ports (R611). -/
def movePort (b : Blk) (m : Nat) : Blk :=
  let p := getM b m
  let b := (p.reads ++ p.rdWait).foldl (fun b r => reissueRead b m r) (emptyPort b m)
  let b := (p.writes ++ p.wrWait).foldl (fun b w => reissueWrite b m w) b
  (p.xlats ++ p.xlWait).foldl (fun b x => reissueXl b m x) b

/-- HALT_DONE: what has no answer is discarded, and re-issued at a fenced port. -/
def haltDoneFx (b : Blk) (m : Nat) : Blk :=
  let p := getM b m
  if !p.halt || p.halted then b
  else
    let b := modM b m fun p => { p with halted := true }
    answerInvals (if p.state == 2 then movePort b m else modM b m fun p => { p with reads := [], writes := [], xlats := [] })

def execHaltDone (m : Nat) (s : State) : Host.Outcome State Fault Refusal := actLive s fun b _ => haltDoneFx b m

/-- HALT_TIMEOUT: no HALT_DONE after 100 µs: reads and translations are re-issued, writes without completions end their commands. -/
def haltTimeoutFx (b : Blk) (m : Nat) : Blk :=
  let p := getM b m
  if !p.halt || p.halted then b
  else
    let lost := p.writes
    let b := if p.state == 2 then movePort (modM b m fun p => { p with writes := [] }) m
      else modM b m fun p => { p with reads := [], writes := [], xlats := [], rdWait := p.reads ++ p.rdWait, xlWait := p.xlats ++ p.xlWait }
    answerInvals (lost.foldl (fun b w => useFail b w.use .error) (modM b m fun p => { p with halted := true }))

def execHaltTimeout (m : Nat) (s : State) : Host.Outcome State Fault Refusal := actLive s fun b _ => haltTimeoutFx b m

end Sys2Proof.Machine
end

