-- ==== Sys2Proof/Machine/Faults.lean ====
section
/-!
DEFINITION. Faults that the block judges itself (R609 to R611): staging and table errors, watchdogs (R37, R537), sector faults (R539) and
the fatal causes (R626, R627).
-/
namespace Sys2Proof.Machine

/-- STAGING_ECC: an uncorrectable error in staging condemns its tile. -/
def execStagingEcc (tile : Nat) (s : State) : Host.Outcome State Fault Refusal := actLive s fun b _ => fenceTile b tile 2

/-- The group whose roster, or derived roster, holds a slot. -/
def slotGroup (b : Blk) (i : Nat) : Option Nat :=
  (b.t.group.find? fun e => e.2.valid && ((decide (e.2.base ≤ i) && decide (i < e.2.base + e.2.n)) ||
    (decide (e.2.derivedBase ≤ i) && decide (i < e.2.derivedBase + e.2.derivedM)))).map (·.1)

/-- Every rank of a group held at this engine: those a MISMATCH found here names. -/
def localRanks (b : Blk) (h : Nat) : List Nat := (tget group0 b.t.group h).locs.map (·.2)

/-- TABLE_ECC by the table codes of R580: the entry alone suffers (R610); pennant store and maps are fatal. -/
def tableEccFx (b : Blk) (table idx : Nat) : Blk :=
  let b := if table < 6 || table == 8 then adminEvent b 0x1B table idx 0 else b
  match table with
  | 0 => detectBreak b idx 3 (localRanks b idx)
  | 1 => match slotGroup b idx with | some h => detectBreak b h 3 (localRanks b h) | none => b
  | 2 => { b with t := { b.t with route := tmod 0 b.t.route idx fun e => setBit e 255 false } }
  | 3 => { b with t := { b.t with mcast := tmod [] b.t.mcast idx fun e => if e.isEmpty then e else e.set 0 (setBit (e.getD 0 0) 63 false) } }
  | 4 => freeHaly b idx
  | 5 => if (getHoist b idx).valid then freeHandle b idx else b
  | 6 | 7 => setFatal b 5
  | 8 => if (getStr b (idx / 64) (idx % 64)).valid then streamError b (idx / 64) (idx % 64) 0x50 else b
  | _ => b

def execTableEcc (table idx : Nat) (s : State) : Host.Outcome State Fault Refusal := act s fun b _ => tableEccFx b table idx

/-- SEQ_WATCHDOG: it does not count while CRIT holds (R665). -/
def execSeqWatchdog (tile seq : Nat) (s : State) : Host.Outcome State Fault Refusal :=
  actLive s fun b _ => if b.pwr.crit then b else fenceSeq b tile seq 3

/-- CORE_WATCHDOG: the core is fenced, the spare restarts its role (R37). -/
def execCoreWatchdog (core : Nat) (s : State) : Host.Outcome State Fault Refusal := actLive s fun b _ => fenceCore b core 3

/-- A management command that a restarted role replays: without APPLIED it runs again from its start, with APPLIED its change stands staged
(R527, R534); either is marked REPLAYED. -/
def replayAdmin (b : Blk) (c : Cmd) : Blk :=
  if c.applied.isSome then modCmd b c.id fun c => { c with flags := c.flags ||| 2 }
  else modCmd (unstage b c.id) c.id fun c => { c with phase := .accepted, effectDone := false, flags := c.flags ||| 2 }

/-- ROLE_RESTART: the role is back: it replays the management commands on admin queues, scans and acceptance go on (R37, R537). -/
def roleRestartFx (b : Blk) (k : Nat) : Blk :=
  if !(b.cores.getD k core0).restarting then b
  else
    let b := { b with cores := b.cores.modify k fun c => { c with restarting := false } }
    (b.cmds.filter fun c => c.id.f == 0 && decide (0x80 ≤ opOf c) && decide (c.phase = .running)).foldl replayAdmin b

def execRoleRestart (core : Nat) (s : State) : Host.Outcome State Fault Refusal := act s fun b _ => roleRestartFx b core

/-- SECTOR_FAULT: an error of the sector fabric or attachment (ECC), or loss of lock of its clock (CLOCK). -/
def execSectorFault (sector cause : Nat) (s : State) : Host.Outcome State Fault Refusal :=
  actLive s fun b _ => if cause == 2 || cause == 9 then fenceSector b sector cause else b

/-- FATAL: a cause of BLK_FATAL. A block that is lost already records further causes. -/
def execFatal (cause : Nat) (s : State) : Host.Outcome State Fault Refusal :=
  actCtl s fun b _ => if cause < 7 then setFatal b cause else b

end Sys2Proof.Machine
end

