-- ==== Sys2Proof/Machine/Resets.lean ====
section
/-!
DEFINITION. Resets and firmware: the block reset with its replay (R530 to R536, R619, R686 to R689), the cold reset (R540, R681 to R684,
R747) and the load of firmware and tables from serial flash (R650 to R652, R682, R751, R778, R779).
-/
namespace Sys2Proof.Machine

/-! ### QUIESCE (R530) -/

/-- Functions whose logbook writes have no answer. -/
def writesOf (b : Blk) : List Nat := ((writesOut b).filterMap fun w => match w.use with | .log f _ => some f | .cmd id _ _ => some id.f | _ => none).eraseDups

/-- What is still outstanding has no meaning for the block any more. -/
def forgetUses (p : MemP) : MemP :=
  { p with
    reads := p.reads.map fun r => { r with use := .msi 0 0 }
    writes := p.writes.map fun w => { w with use := .msi 0 0 }
    xlats := p.xlats.map fun x => { x with use := .msi 0 0, stale := false }
    rdWait := [], wrWait := [], xlWait := [] }

/-- QUIESCE ends: writes have drained, or 100 µs have passed. Functions with writes outstanding (`stuck` names those whose data writes are)
are UNQUIESCED. -/
def quiesceFx (b : Blk) (stuck : List Nat) : Blk :=
  if !decide (b.life.phase = .quiesce) then b
  else
    let us := ((stuck ++ writesOf b).eraseDups).filter fun f => (getFn b f).enabled
    let b := { b with fns := tmap fn0 (fun _ (n : Fn) => { n with unquiesced := false }) b.fns }
    let b := us.foldl (fun b f => modFn b f fun n => { n with unquiesced := true }) b
    { b with
      life := { b.life with phase := .firmware, unquiesced := us.length }
      memp := b.memp.map forgetUses }

def execQuiesce (stuck : List Nat) (s : State) : Host.Outcome State Fault Refusal := actLive s fun b _ => quiesceFx b stuck

/-! ### The logbook as replay reads it (R502 to R506, R533) -/

def logLine (b : Blk) (m : Tab Byte) (f lsn : Nat) : List Byte := fnRead b m f 0 (lineAddr (getFn b f) lsn) 64

/-- LINES in range for a KIND (R505). -/
def linesOk (kind lines : Nat) : Bool :=
  match kind with
  | 1 | 2 => decide (2 ≤ lines) && decide (lines ≤ 17)
  | 3 | 4 | 6 => lines == 1
  | 5 => decide (2 ≤ lines) && decide (lines ≤ 130)
  | _ => false

/-- The record at an LSN, if it is valid (R506). -/
def recordAt (b : Blk) (m : Tab Byte) (f lsn : Nat) : Option (List Byte) :=
  let w1 := leAt (logLine b m f lsn) 8 8
  let lines := fld w1 55 48
  if !linesOk (fld w1 63 56) lines then none
  else
    let bs := (List.range lines).flatMap fun i => logLine b m f (lsn + i)
    let body := bs.take 8 ++ List.replicate 4 0 ++ bs.drop 12
    if leAt bs 0 8 == lsn % 2 ^ 64 && leAt bs 16 2 == (getFn b f).epoch % 65536 && fld w1 31 0 == (crc32 body).toNat then some bs else none

/-- The valid records from an LSN on, and the LSN behind them. -/
def walkLog (b : Blk) (m : Tab Byte) (f : Nat) : Nat → Nat → List (List Byte) × Nat
  | 0, lsn => ([], lsn)
  | k + 1, lsn => match recordAt b m f lsn with
    | none => ([], lsn)
    | some bs => let (rest, e) := walkLog b m f k (lsn + bs.length / 64); (bs :: rest, e)

/-- The anchor's TAIL_LSN, if the anchor is valid (R503). -/
def anchorAt (b : Blk) (m : Tab Byte) (f : Nat) : Option Nat :=
  let n := getFn b f
  let bs := fnRead b m f 0 n.logBase 64
  let body := bs.take 56 ++ bs.drop 60
  if fld (leAt bs 0 8) 63 32 == n.epoch && fld (leAt bs 0 8) 8 0 == f && leAt bs 16 1 % 64 == n.logLog2 % 64 &&
    leAt bs 56 4 == (crc32 body).toNat then some (leAt bs 8 8) else none

/-! ### Replay (R531 to R536) -/

/-- COMPLETE records whose completion records are not consumed: these are written again, bit for bit. -/
def rewriteComplete (b : Blk) (f : Nat) (bs : List Byte) : Blk :=
  let n := getFn b f
  let num := leAt bs 24 4
  let ahead := (num + 2 ^ 32 - n.consumed % 2 ^ 32) % 2 ^ 32
  if fld (leAt bs 8 8) 63 56 == 4 && n.cqEn && decide (ahead < n.produced - n.consumed)
  then fnStore b f 0 (n.cqBase + 32 * (num % 2 ^ n.cqLog2)) (slice bs 32 32)
  else b

/-- R535: ABORTED with REPLAYED; RESULT counts the chunks whose flies were raised. -/
def replayAbort (b : Blk) (c : Cmd) : Blk := endCmd (undefDst b c) c.id 0x10 c.flies

/-- A command that is resumed, from its start or from its last PROGRESS (R534, R456). -/
def replayResume (b : Blk) (c : Cmd) : Blk :=
  modCmd b c.id fun c => { c with
    phase := .accepted, status := 0, waitDone := c.prog.isSome && flWait c, effectDone := false, chunks := 0, ready := c.flies, sent := 0, acked := 0
    rflies := 0, gotten := [], recvd := [] }

/-- One command noted in the log below LSN `e` (R533, R534). A queue-control or management command whose status is decided, and a pennant
operation whose PROGRESS is applied, keep it (DEDUCED, log 22); the latter's RESULT is the pennant's value now. -/
def replayCmd (b : Blk) (e : Nat) (c : Cmd) : Blk :=
  let unq := (getFn b c.id.f).unquiesced
  let keep := decide (c.phase = .ended) && (decide (0x50 ≤ opOf c) || (opOf c == 0x34 && c.prog.isSome))
  let late := match c.applied with | some l => decide (e ≤ l) | none => false
  let done := c.applied.isSome && !late
  let prog := match c.prog with | some p => if p.lsn < e then some p else none | none => none
  let clean := fun (d : Cmd) => { d with handle := none, staging := 0, headOther := false, flags := d.flags ||| 2, prog, applied := if late then none else d.applied }
  if c.phase = .taken then modCmd b c.id clean
  else if done && !decide (c.phase = .ended) then
    let b := modCmd b c.id fun d => { clean d with handle := d.handle }
    if unq then replayAbort (unstage b c.id) c
    else match b.staged.find? fun s => decide (s.cmd = c.id), findCmd b c.id with
      | some s, some d => applyStaged b s d
      | _, _ => b
  else if keep then
    let b := modCmd b c.id clean
    match (if opOf c == 0x34 && fPenOp c != 2 then penIdx b c.id.f (fPen c) else none) with
    | some p => modCmd b c.id fun d => { d with result := (getPen b p).value.toNat }
    | none => b
  else
    let b := unstage b c.id
    let ok := resumable b c && !unq
    let b := if ok then b else undefDst b { c with phase := if decide (c.phase = .ended) then .running else c.phase }
    let b := modCmd b c.id fun d => { clean d with phase := .running }
    if ok then replayResume b c else endCmd b c.id 0x10 c.flies

/-- A stream at replay (R434, R534): a LOCAL one falls back to its last fly, a SHARDED one goes to ERROR. -/
def replayStream (b : Blk) (f n : Nat) : Blk :=
  let s := getStr b f n
  if s.sharded || (getFn b f).unquiesced then streamError b f n 0x10
  else modStr b f n fun s => { s with delivered := if s.state == 1 then s.flies * slotBytes s else s.delivered, staged := 0, got := 0 }

/-- A queue at replay: packets whose ACCEPT is not valid are taken again, and every OPEN queue is scanned (R533, R536). -/
def replayQueue (b : Blk) (f q : Nat) (gone : List Cmd) : Blk :=
  let first := leastOf ((gone.filter fun c => c.id.q == q).map (·.id.rseq))
  let b := match first with
    | some r => modQ b f q fun x => { x with taken := r, scanSlot := r % 2 ^ x.log2 }
    | none => b
  modQ b f q fun x => if x.state == 1 then { x with scanPending := true } else x

/-- A command's place in the log is whole. -/
def notedBelow (e : Nat) (c : Cmd) : Bool := decide (c.lsn + c.lines ≤ e)

/-- Replay of one function; `cs` are its commands as the reset found them. An anchor that is not valid fences it, and they stay as they
are. -/
def replayFn (m : Tab Byte) (cs : List Cmd) (b : Blk) (f : Nat) : Blk :=
  let mine := cs.filter fun c => c.id.f == f
  match anchorAt b m f with
  | none => fenceFn { b with cmds := b.cmds ++ mine } f 7
  | some tail =>
    let (recs, e) := walkLog b m f (logLines (getFn b f)) tail
    let b := modFn b f fun n => { n with head := e, tailAnchor := tail }
    let b := recs.foldl (fun b r => rewriteComplete b f r) b
    let noted := mine.filter (notedBelow e)
    let b := { b with cmds := b.cmds ++ noted }
    let b := (noted.mergeSort fun x y => decide (x.lsn ≤ y.lsn)).foldl (fun b c => replayCmd b e c) b
    let b := (streamsOf b f).foldl (fun b n => replayStream b f n) b
    (List.range (getFn b f).nq).foldl (fun b q => replayQueue b f q (mine.filter fun c => !notedBelow e c)) b

/-- What a block reset clears (R531): the command table, the halyard table and all state in flight. Sequence counters stay (log 23). -/
def clearFlight (b : Blk) : Blk :=
  let unfence := fun (n : Fn) => { n with
    fenced := false, queues := if n.fenced then tmap queue0 (fun _ (x : Queue) => { x with state := x.was }) n.queues else n.queues
    ringWait := n.ringWait.filter fun r => r.cmd.isNone, full := n.ringWait.any fun r => r.cmd.isNone
    stagingUsed := 0, stillBeats := 0, moved := false, deadlocked := false }
  let x := b.fab
  { b with
    t := { b.t with haly := [], hoist := tmap hoist0 (fun _ (h : Hoist) => { h with bound := 0 }) b.t.hoist }
    fns := tmap fn0 (fun _ (n : Fn) => unfence n) b.fns
    dlck := { b.dlck with still := 0, reported := false }, walks := [], compiles := [], due := due0
    fab := { x with
      dst := tmap dstSt0 (fun _ (d : DstSt) => { d with unacked := [], waiting := [] }) x.dst
      mdst := tmap dstSt0 (fun _ (d : DstSt) => { d with unacked := [], waiting := [] }) x.mdst
      src := tmap srcSt0 (fun _ (d : SrcSt) => { d with due := [] }) x.src, msrc := tmap srcSt0 (fun _ (d : SrcSt) => { d with due := [] }) x.msrc
      flows := [], arrived := [], heldSigs := [], atoms := [], applied := [], arbs := [], aborts := [], unver := [], halyT := [], halyRx := [] }
    d2d := b.d2d.map fun (d : D2d) => { d with outs := [], accs := [], held := [] }
    test := { b.test with selftestBusy := false } }

/-- R532: groups with members on other engines break as replay begins, naming the lowest remote rank. -/
def breakRemote (b : Blk) : Blk :=
  (b.t.group.filter (·.2.valid)).foldl (fun b e =>
    match (rosterEps b e.2).findIdx? (· != selfEp b) with
    | some r => applyBreak b e.1 1 [r] (beatNow b)
    | none => b) b

/-- The block runs again (R686, R687, R732): halts end, D2D requests are taken, the beat goes on from its count, a master is LOCKED. -/
def runAgain (b : Blk) (us : Nat) : Blk :=
  let b := { b with
    life := { b.life with phase := .run, replayUs := min us 0xFFFFFFFF }
    memp := b.memp.map fun (p : MemP) => if p.state == 2 then p else startMem { p with halt := false, halted := false, state := if p.state == 3 then 1 else p.state }
    d2d := b.d2d.map fun (d : D2d) => { d with state := if d.state == 3 then 1 else d.state }
    cores := b.cores.map fun (c : CoreSt) => { c with restarting := false }
    sec := { b.sec with hostSessions := 0 }
    beat := { b.beat with run := b.life.runWas } }
  if b.beat.run && b.beat.live && isMaster b.beat then setLock { b with beat := { b.beat with dist := 0 } } true else b

/-- FIRMWARE_RESTART: both roles are back, and replay runs over every enabled function, in ascending order; `us` is its duration. -/
def restartFx (b : Blk) (m : Tab Byte) (us : Nat) : Blk :=
  if !decide (b.life.phase = .firmware) then b
  else
    let b := b.cmds.foldl (fun b c => unwait b c) b
    let cs := b.cmds
    let b := breakRemote { clearFlight b with cmds := [] }
    let b := ((b.fns.filter fun e => e.2.enabled).map (·.1)).foldl (replayFn m cs) b
    let b := settle b
    runAgain { b with fab := { b.fab with flows := [] } } us

def execFirmwareRestart (us : Nat) (s : State) : Host.Outcome State Fault Refusal := actLive s fun b m => restartFx b m us

/-! ### Cold reset (R681 to R684, R747) -/

/-- COLD_RESET: RST_N or PWRGOOD is low. The part and the SVN floor stay; so do the test controller's TAP registers, under their own reset,
and the count of free values drawn. -/
def execColdReset (s : State) : Host.Outcome State Fault Refusal :=
  actAlways s fun b _ =>
    let x := blk0 b.part b.sec.svnFloor
    { x with life := { x.life with inReset := true }, test := { x.test with ir := b.test.ir, capture := b.test.capture, tapActive := b.test.tapActive }, fresh := b.fresh }

/-- RST_DONE rises: every register holds its reset value. -/
def execRstDone (s : State) : Host.Outcome State Fault Refusal :=
  actAlways s fun b _ => if b.life.scanMode then b else { b with life := { b.life with inReset := false } }

/-! ### Firmware (R650 to R652) -/

/-- Whether an image may be loaded: its signature verifies and its SVN is at least the floor. -/
def imageOk (floor : Nat) (i : Option FwImage) : Option FwImage := i.filter fun x => x.sigOk && decide (floor ≤ x.svn)

/-- The image to load and its slot: of the acceptable ones, the one with the higher FW_VERSION. -/
def chooseImage (fl : FlashImage) (floor : Nat) : Option (Nat × FwImage) :=
  if !fl.directoryOk || !fl.repairOk then none
  else match imageOk floor fl.fwA, imageOk floor fl.fwB with
  | some a, some c => if a.version < c.version then some (1, c) else some (0, a)
  | some a, none => some (0, a)
  | none, some c => some (1, c)
  | none, none => none

/-- FIRMWARE_LOAD: roles appear, the floor follows the SVN, route and multicast images are loaded, D2D links and power management start; with
no acceptable image the block is lost. -/
def firmwareFx (b : Blk) (fl : FlashImage) : Blk :=
  let b := { b with test := { b.test with flashOk := fl.directoryOk, patternsOk := fl.directoryOk && fl.patternsOk
                                          patVer := if fl.directoryOk && fl.patternsOk then fl.patset0Ver % 65536 else 0, flashKib := fl.flashKib % 2 ^ 32, flashBusy := false
                                          flashRel := b.test.flashRel || b.test.flashRelDue, flashRelDue := false } }
  match chooseImage fl b.sec.svnFloor with
  | none => setFatal b 2
  | some (slot, i) =>
    { b with
      life := { b.life with fwVersion := i.version % 2 ^ 24 }
      sec := { b.sec with fwSlot := slot, svn := i.svn % 64, svnFloor := if i.version % 2 ^ 24 == 0 then b.sec.svnFloor else max b.sec.svnFloor (i.svn % 64 - 3) }
      cores := b.cores.zipIdx.map fun (c, k) => if k < 2 then { c with role := k + 1 } else c
      d2d := b.d2d.map fun (d : D2d) => { d with stateReq := fdiActive }
      t := { b.t with
        route := fl.routes.foldl (fun t r => if routeOk b r.2 then tset 0 t (r.1 % 65536) r.2 else t) b.t.route
        mcast := fl.domains.foldl (fun t d => if domainOk d.2 then tset [] t (d.1 % 1024) d.2 else t) b.t.mcast } }

def execFirmwareLoad (fl : FlashImage) (s : State) : Host.Outcome State Fault Refusal :=
  actLive s fun b _ => if b.life.fwVersion == 0 && b.life.lastCold && decide (b.life.phase = .run) then firmwareFx b fl else b

end Sys2Proof.Machine
end

