-- ==== Sys2Proof/Machine/TestRows.lean ====
section
/-!
DEFINITION. Test and debug: SELFTEST (R781 to R786), scan mode (R649, R771), the TAP (R772 to R775) and the pattern checkers (R789).
-/
namespace Sys2Proof.Machine

/-! ### SELFTEST -/

/-- What the units of a SELFTEST have come to: units fenced, restored, repaired, whether one failed, whether a failing one has no
replacement, and the report's records. -/
structure TestSum where
  fenced : Nat
  restored : Nat
  repaired : Nat
  failed : Bool
  unreplaced : Bool
  recs : List (List Byte)

def testScope (c : Cmd) : Nat := pf c 0 1
def testIndex (c : Cmd) : Nat := pf c 2 2
def testSet (c : Cmd) : Nat := pf c 4 4
def testCap (c : Cmd) : Nat := pf c 16 4

/-- R781: what makes the command a REJECTED_FORMAT. A pattern set other than 0 is taken to be in a valid flash (DESIGN CHOICE, log 24). -/
def testBad (b : Blk) (c : Cmd) : Bool :=
  let i := testIndex c
  (match testScope c with
    | 0 => !(decide (i < 128) && tileExists b i)
    | 1 => !sectorExists b i
    | 2 => !portExists b i
    | 3 => false
    | _ => true) ||
  decide (testCap c < 64) || !(if testSet c == 0 then b.test.patternsOk else b.test.flashOk)

/-- A unit that belongs to the scope. -/
def inScope (b : Blk) (c : Cmd) (u : UnitTest) : Bool :=
  let i := testIndex c
  match testScope c with
  | 0 => (u.kind == 0 || u.kind == 6 || u.kind == 7) && u.index == i
  | 1 => (u.kind == 1 && u.index == i) || ((u.kind == 0 || u.kind == 6 || u.kind == 7) && (u.index == 0xFFFF || (u.index / 16 == i && tileExists b u.index)) && decide (u.phys < 17))
  | 2 => u.kind == 2 && u.index == i
  | 3 => u.kind == 9 || u.kind == 3
  | _ => false

/-- Whether a unit that fails has a replacement (R43, R611). -/
def replaced (b : Blk) (u : UnitTest) : Bool :=
  let spareTile := fun (t : Nat) => (getSect b (t / 16)).spare != 31
  match u.kind with
  | 0 => u.index != 0xFFFF && spareTile u.index
  | 2 => [40, 41].any fun k => k != u.index && !(getP b k).spared && (getP b k).state == 2 && (getP b k).partnerEp == (getP b u.index).partnerEp
  | 6 => !(getTile b u.index).arrSpare || spareTile u.index
  | 7 => decide ((getTile b u.index).seqSpares < 2) || spareTile u.index
  | 9 => b.cores.zipIdx.any fun e => e.2 != u.index && !e.1.fenced && e.1.role == 0
  | _ => false

/-- A failing unit is fenced with cause SELFTEST; a failing spare slot is a spare no more. -/
def failUnit (b : Blk) (sector : Nat) (u : UnitTest) : Blk :=
  match u.kind with
  | 0 => if u.index == 0xFFFF then modSect b sector fun x => if x.spare == u.phys then { x with spare := 31 } else x else fenceTile b u.index 4
  | 1 => fenceSector b u.index 4
  | 2 => fenceLink b u.index 4
  | 6 => fenceArray b u.index u.sub 4
  | 7 => fenceSeq b u.index u.sub 4
  | 9 => fenceCore b u.index 4
  | _ => b

/-- R784: a fenced unit that passes returns to service, where it does. -/
def restoreUnit (b : Blk) (sector : Nat) (u : UnitTest) : Option Blk :=
  match u.kind with
  | 0 =>
    if u.index == 0xFFFF then
      -- a slot whose number a spare has taken becomes the unused spare of a sector that has none
      if (getSect b sector).spare == 31 && !(getSect b sector).fenced && !(b.tiles.zipIdx.any fun e => e.2 / 16 == sector && e.1.state != 3 && e.1.slot == u.phys)
      then some (modSect b sector fun x => { x with spare := u.phys }) else none
    else if (getTile b u.index).state == 3 && !(getSect b (u.index / 16)).fenced then
      some (modTile b u.index fun x => { x with state := if x.slot == u.index % 16 then 0 else 1, due := false })
    else none
  | 1 =>
    if (getSect b u.index).fenced then
      let b := modSect b u.index fun x => { x with fenced := false, cause := 0, fenceBeat := 0 }
      some ((homePorts b u.index).foldl (fun b n => modP b n fun p => if p.state == 3 then { p with state := 0, spareDue := false } else p) b)
    else none
  | 2 => if (getP b u.index).state == 3 then some (modP b u.index fun p => { p with state := 0, spareDue := false, rxFault := 0, downBeats := [] }) else none
  | 9 =>
    let x := b.cores.getD u.index core0
    if x.fenced then some { b with cores := b.cores.modify u.index fun c => { c with fenced := false } } else none
  | _ => none

/-- One record of the report (R786). -/
def testRecord (u : UnitTest) (result : Nat) : List Byte :=
  leBytes (mk [(63, 60, result), (59, 56, u.kind), (55, 40, u.index), (39, 32, u.sub), (31, 16, u.rows), (15, 0, u.pattern)]) 8 ++
    leBytes (mk [(63, 32, u.us), (31, 0, u.phys)]) 8

/-- One unit's test ends with its result (R783). A tested port that is UP retrains. -/
def testUnit (sector : Nat) (acc : Blk × TestSum) (u : UnitTest) : Blk × TestSum :=
  let (b, s) := acc
  if u.result == 1 then
    (failUnit b sector u, { s with fenced := s.fenced + 1, failed := true, unreplaced := s.unreplaced || !replaced b u, recs := s.recs ++ [testRecord u 1] })
  else
    let b := if u.result == 2 && u.kind == 0 && u.index != 0xFFFF then modTile b u.index fun x => { x with rows := satAdd x.rows u.rows 255 } else b
    match restoreUnit b sector u with
    | some b => (b, { s with restored := s.restored + 1, repaired := s.repaired + b2n (u.result == 2), recs := s.recs ++ [testRecord u 3] })
    | none =>
      let b := if u.kind == 2 && (getP b u.index).state == 2 then retrain b u.index else b
      (b, { s with repaired := s.repaired + b2n (u.result == 2), recs := s.recs ++ [testRecord u u.result] })

/-- The report: its header and the records that fit (R786). -/
def testReport (b : Blk) (c : Cmd) (us : Nat) (s : TestSum) : List Byte :=
  let fit := (testCap c - 64) / 16
  leBytes (mk [(63, 62, testScope c), (61, 61, b2n (!s.failed)), (60, 60, b2n (decide (fit < s.recs.length))), (47, 32, testIndex c), (31, 16, s.recs.length)]) 8 ++
  leBytes (mk [(63, 32, testSet c), (31, 0, us)]) 8 ++ leBytes (mk [(63, 48, s.fenced), (47, 32, s.restored), (31, 16, s.repaired)]) 8 ++
  leBytes (beatNow b % 2 ^ 32) 8 ++ List.replicate 32 0 ++ (s.recs.take fit).flatten

/-- SELFTEST (R781 to R786): the whole test within the command. A set other than 0 waits while the flash is released (R780). -/
def blockTestFx (b : Blk) (c : Cmd) (tests : List UnitTest) (fault : Option AccFault) : Blk :=
  if testBad b c then endCmd b c.id 0x61 0
  else if testSet c != 0 && b.test.flashRel then b
  else
    let us := tests.filter (inScope b c)
    let sector := if testScope c == 0 then testIndex c / 16 else testIndex c
    let (b', s) := us.foldl (testUnit sector) (b, { fenced := 0, restored := 0, repaired := 0, failed := false, unreplaced := false, recs := [] })
    let time := ((us.map (·.us)).foldl (· + ·) 0) % 2 ^ 32
    let result := mk [(0, 0, b2n (!s.failed)), (31, 16, s.fenced)]
    match fault with
    | some a => endCmd (accessEvent b' c.id.f c.id.q a.space (isPage a.kind) false (tagOf c) a.addr) c.id 0x31 result
    | none => endCmd (fnStore b' c.id.f 0 (pf c 8 8) (testReport b c time s)) c.id (if s.unreplaced then 0x50 else 0) result

def execSelftest (id : CmdId) (tests : List UnitTest) (fault : Option AccFault) (s : State) : Host.Outcome State Fault Refusal :=
  act s fun b _ => onRun b id 0x8E fun c => blockTestFx b c tests fault

/-! ### Scan mode and the TAP -/

/-- SCAN_MODE rises: every key but the identity's is erased, every output holds its reset value. -/
def scanFx (b : Blk) : Blk :=
  { b with
    life := { b.life with scanMode := true }
    sec := { b.sec with fs := none, gks := [], erased := true }
    ports := b.ports.map fun (p : Port) => idleLanes { p with phyRstN := false, phyRdy := false, prbsAct := false }
    d2d := b.d2d.map fun (d : D2d) => { d with stateReq := 0 }
    beat := { b.beat with beatOut := false }
    pwr := { b.pwr with vreq := 800, vreqValid := false, monStb := false } }

def execScanMode (s : State) : Host.Outcome State Fault Refusal := actAlways s fun b _ => scanFx b

/-- TAP_RESET: IDCODE. -/
def execTapReset (s : State) : Host.Outcome State Fault Refusal := actAlways s fun b _ => { b with test := { b.test with ir := 1, tapActive := false } }

/-- TAP_INSTRUCTION: the 8-bit instruction register is updated. -/
def execTapInstruction (ir : Nat) (s : State) : Host.Outcome State Fault Refusal :=
  actAlways s fun b _ => { b with test := { b.test with ir := ir % 256, tapActive := true } }

/-- The instruction that acts: wrapper modes only in scan mode, everything unlisted as BYPASS (R772, R774). -/
def tapActs (b : Blk) : Nat :=
  let i := b.test.ir
  if i == 1 || i == 8 then i else if (i == 0x20 || i == 0x21 || i == 0x22) && b.life.scanMode then i else 0xFF

/-- IDCODE (R773). -/
def idcode : Nat := 0x42A04B95

/-- CTLRD in Update-DR: the next capture holds the register, or zero while DBG_DIS is 1. -/
def execCtlrd (v : Nat) (s : State) : Host.Outcome State Fault Refusal :=
  actCtl s fun b _ =>
    if tapActs b != 8 then b
    else { b with test := { b.test with capture := if b.test.dbgDis then 0 else ctlRead b (8 * (v % 2 ^ 21)) } }

/-! ### Pattern checkers (R788, R789) -/

/-- The next bit of a pattern from its last bits, newest first: x³¹ + x²⁸ + 1, or x¹³ + x¹² + x² + x + 1. -/
def prbsNext (short : Bool) (h : List Bool) : Bool :=
  let at' := fun k => h.getD (k - 1) false
  if short then xor (xor (at' 1) (at' 2)) (xor (at' 12) (at' 13)) else xor (at' 28) (at' 31)

/-- One received bit: an unlocked checker seeds itself and counts correct bits; a locked one runs on by itself and counts errors. -/
def checkBit (short : Bool) (c : Checker) (x : Bool) : Checker :=
  let k := if short then 13 else 31
  let want := prbsNext short c.hist
  if c.lock then
    let aged := (c.win.map (· + 1)).filter fun a => decide (a < 1024)
    let win := if x == want then aged else 0 :: aged
    let err := if x == want then c.err else min (c.err + 1) (2 ^ 64 - 1)
    if 64 ≤ win.length then { hist := [], run := 0, lock := false, err, win := [] }
    else { c with hist := (want :: c.hist).take k, err, win }
  else
    let good := c.hist.length == k && x == want
    let run := if good then c.run + 1 else 0
    { c with hist := (x :: c.hist).take k, run := if 128 ≤ run then 0 else run, lock := decide (128 ≤ run), win := [] }

/-- PRBS_CHECKER: bits received on a lane that takes part. LNK_PRBS_BITS follows the lowest lane of LANES. -/
def checkerFx (b : Blk) (n lane : Nat) (bits : List Bool) : Blk :=
  modP b n fun p =>
    let lanes := fld p.prbsCtl.toNat 59 47
    if !p.prbsAct || !tb lanes lane then p
    else { p with
      prbs := tmod checker0 p.prbs lane fun c => bits.foldl (checkBit (tb p.prbsCtl.toNat 62)) c
      prbsBits := if (bitsSet lanes 13).head? == some lane then min (p.prbsBits + bits.length) (2 ^ 64 - 1) else p.prbsBits }

def execPrbsChecker (n lane : Nat) (bits : List Bool) (s : State) : Host.Outcome State Fault Refusal :=
  actLive s fun b _ => checkerFx b n lane bits

end Sys2Proof.Machine
end

