-- ==== Sys2Proof/Machine/Dispatch.lean ====
section
/-!
DEFINITION. One arm per command: each calls the command's own meaning.
-/
namespace Sys2Proof.Machine

def exec (i : Instr) (s : State) : Host.Outcome State Fault Refusal :=
  match i with
  | .allreduce id env => Sys2Proof.Machine.execAllreduce id env s
  | .reduceScatter id env => Sys2Proof.Machine.execReduceScatter id env s
  | .allgather id env => Sys2Proof.Machine.execAllgather id env s
  | .broadcast id env => Sys2Proof.Machine.execBroadcast id env s
  | .reduce id env => Sys2Proof.Machine.execReduce id env s
  | .gather id env => Sys2Proof.Machine.execGather id env s
  | .scatter id env => Sys2Proof.Machine.execScatter id env s
  | .alltoall id env => Sys2Proof.Machine.execAlltoall id env s
  | .alltoallv id env => Sys2Proof.Machine.execAlltoallv id env s
  | .barrier id env => Sys2Proof.Machine.execBarrier id env s
  | .topkGather id env => Sys2Proof.Machine.execTopkGather id env s
  | .dispatch id env => Sys2Proof.Machine.execDispatch id env s
  | .combine id env => Sys2Proof.Machine.execCombine id env s
  | .score id fault => Sys2Proof.Machine.execScore id fault s
  | .put id fault => Sys2Proof.Machine.execPut id fault s
  | .get id fault => Sys2Proof.Machine.execGet id fault s
  | .putSignal id fault => Sys2Proof.Machine.execPutSignal id fault s
  | .memAtomic id fault => Sys2Proof.Machine.execMemAtomic id fault s
  | .pennantSet id => Sys2Proof.Machine.execPennantSet id s
  | .pennantAdd id => Sys2Proof.Machine.execPennantAdd id s
  | .pennantWait id => Sys2Proof.Machine.execPennantWait id s
  | .streamOpen id => Sys2Proof.Machine.execStreamOpen id s
  | .stageAhead id => Sys2Proof.Machine.execStageAhead id s
  | .streamResume id => Sys2Proof.Machine.execStreamResume id s
  | .streamCloseFinish id => Sys2Proof.Machine.execStreamCloseFinish id s
  | .streamCloseAbort id => Sys2Proof.Machine.execStreamCloseAbort id s
  | .strike id => Sys2Proof.Machine.execStrike id s
  | .queueShutdown id => Sys2Proof.Machine.execQueueShutdown id s
  | .functionEnable id => Sys2Proof.Machine.execFunctionEnable id s
  | .functionDisable id => Sys2Proof.Machine.execFunctionDisable id s
  | .pennantMap id => Sys2Proof.Machine.execPennantMap id s
  | .unmap id => Sys2Proof.Machine.execUnmap id s
  | .groupCreate id fault => Sys2Proof.Machine.execGroupCreate id fault s
  | .groupReform id fault => Sys2Proof.Machine.execGroupReform id fault s
  | .groupDestroy id => Sys2Proof.Machine.execGroupDestroy id s
  | .hoistCompile id => Sys2Proof.Machine.execHoistCompile id s
  | .hoistInstall id fault => Sys2Proof.Machine.execHoistInstall id fault s
  | .hoistRelease id => Sys2Proof.Machine.execHoistRelease id s
  | .routeUpdate id fault => Sys2Proof.Machine.execRouteUpdate id fault s
  | .tableRead id fault => Sys2Proof.Machine.execTableRead id fault s
  | .powerPolicy id => Sys2Proof.Machine.execPowerPolicy id s
  | .fnRotate id => Sys2Proof.Machine.execFnRotate id s
  | .linkSession id => Sys2Proof.Machine.execLinkSession id s
  | .linkRekey id => Sys2Proof.Machine.execLinkRekey id s
  | .attest id fault => Sys2Proof.Machine.execAttest id fault s
  | .selftest id tests fault => Sys2Proof.Machine.execSelftest id tests fault s
  | .unlistedOpcode id => Sys2Proof.Machine.execUnlistedOpcode id s
  | .doorbell f q v => Sys2Proof.Machine.execDoorbell f q v s
  | .fnQring f q v => Sys2Proof.Machine.execFnQring f q v s
  | .fnCring f v => Sys2Proof.Machine.execFnCring f v s
  | .fnChead f v => Sys2Proof.Machine.execFnChead f v s
  | .fnEqring f v => Sys2Proof.Machine.execFnEqring f v s
  | .fnEqhead f v => Sys2Proof.Machine.execFnEqhead f v s
  | .fnSpill f v => Sys2Proof.Machine.execFnSpill f v s
  | .fnIrqcfg f v => Sys2Proof.Machine.execFnIrqcfg f v s
  | .fnMsiAddr f vec v => Sys2Proof.Machine.execFnMsiAddr f vec v s
  | .fnPenSel f v => Sys2Proof.Machine.execFnPenSel f v s
  | .fnStrSel f v => Sys2Proof.Machine.execFnStrSel f v s
  | .blkAdmin v => Sys2Proof.Machine.execBlkAdmin v s
  | .blkReset v => Sys2Proof.Machine.execBlkReset v s
  | .fltFence v => Sys2Proof.Machine.execFltFence v s
  | .beatCfg v => Sys2Proof.Machine.execBeatCfg v s
  | .fabSelf v => Sys2Proof.Machine.execFabSelf v s
  | .secFabricGen v => Sys2Proof.Machine.execSecFabricGen v s
  | .clrCnt n v => Sys2Proof.Machine.execClrCnt n v s
  | .beatOvrClr v => Sys2Proof.Machine.execBeatOvrClr v s
  | .prbsEn n v => Sys2Proof.Machine.execPrbsEn n v s
  | .prbsInject n v => Sys2Proof.Machine.execPrbsInject n v s
  | .prbsClr n v => Sys2Proof.Machine.execPrbsClr n v s
  | .flashRel v => Sys2Proof.Machine.execFlashRel v s
  | .dbgDis v => Sys2Proof.Machine.execDbgDis v s
  | .registerWrite off v => Sys2Proof.Machine.execRegisterWrite off v s
  | .scan f q fault => Sys2Proof.Machine.execScan f q fault s
  | .accept id => Sys2Proof.Machine.execAccept id s
  | .commandDispatch id => Sys2Proof.Machine.execCommandDispatch id s
  | .hoistOnDemand id => Sys2Proof.Machine.execHoistOnDemand id s
  | .fly r => Sys2Proof.Machine.execFly r s
  | .completion id => Sys2Proof.Machine.execCompletion id s
  | .cqDelay f => Sys2Proof.Machine.execCqDelay f s
  | .generationWaitTimeout id => Sys2Proof.Machine.execGenerationWaitTimeout id s
  | .stepTimeout id missing => Sys2Proof.Machine.execStepTimeout id missing s
  | .autoReform gid => Sys2Proof.Machine.execAutoReform gid s
  | .beatStart => Sys2Proof.Machine.execBeatStart s
  | .dipWindow util => Sys2Proof.Machine.execDipWindow util s
  | .partnerAbsent ep => Sys2Proof.Machine.execPartnerAbsent ep s
  | .parentLost => Sys2Proof.Machine.execParentLost s
  | .deadlock f => Sys2Proof.Machine.execDeadlock f s
  | .blockDeadlock => Sys2Proof.Machine.execBlockDeadlock s
  | .frameSend n => Sys2Proof.Machine.execFrameSend n s
  | .frameReceive n fr => Sys2Proof.Machine.execFrameReceive n fr s
  | .replay n => Sys2Proof.Machine.execReplay n s
  | .replayTimeout n => Sys2Proof.Machine.execReplayTimeout n s
  | .routedCell n vn => Sys2Proof.Machine.execRoutedCell n vn s
  | .data port p tail => Sys2Proof.Machine.execData port p tail s
  | .signal port p => Sys2Proof.Machine.execSignal port p s
  | .getReq port p fault => Sys2Proof.Machine.execGetReq port p fault s
  | .getResp port p tail => Sys2Proof.Machine.execGetResp port p tail s
  | .atomic port p fault tail => Sys2Proof.Machine.execAtomic port p fault tail s
  | .e2eAck port p => Sys2Proof.Machine.execE2eAck port p s
  | .e2eAckSend ep => Sys2Proof.Machine.execE2eAckSend ep s
  | .e2eResend ep seq => Sys2Proof.Machine.execE2eResend ep seq s
  | .hold port p => Sys2Proof.Machine.execHold port p s
  | .holdResend ep seq => Sys2Proof.Machine.execHoldResend ep seq s
  | .recompute port p rc => Sys2Proof.Machine.execRecompute port p rc s
  | .checkerSelftest ep seq checkerOk tail => Sys2Proof.Machine.execCheckerSelftest ep seq checkerOk tail s
  | .abortNotice port p => Sys2Proof.Machine.execAbortNotice port p s
  | .breakNotice port p => Sys2Proof.Machine.execBreakNotice port p s
  | .reserve port p => Sys2Proof.Machine.execReserve port p s
  | .reserveReply port p => Sys2Proof.Machine.execReserveReply port p s
  | .reserveTimeout idx => Sys2Proof.Machine.execReserveTimeout idx s
  | .release port p => Sys2Proof.Machine.execRelease port p s
  | .halyardCell port id seq inWindow pay => Sys2Proof.Machine.execHalyardCell port id seq inWindow pay s
  | .halyardWindow idx => Sys2Proof.Machine.execHalyardWindow idx s
  | .overrun idx => Sys2Proof.Machine.execOverrun idx s
  | .multicast port p => Sys2Proof.Machine.execMulticast port p s
  | .ident n ep code => Sys2Proof.Machine.execIdent n ep code s
  | .beatMark n m rx => Sys2Proof.Machine.execBeatMark n m rx s
  | .keepAlive n ep beat locked => Sys2Proof.Machine.execKeepAlive n ep beat locked s
  | .beatIn t => Sys2Proof.Machine.execBeatIn t s
  | .beatInMissing => Sys2Proof.Machine.execBeatInMissing s
  | .drainTimeout id => Sys2Proof.Machine.execDrainTimeout id s
  | .routeDrainDone id => Sys2Proof.Machine.execRouteDrainDone id s
  | .linkTrainStart n => Sys2Proof.Machine.execLinkTrainStart n s
  | .adaptDone n good => Sys2Proof.Machine.execAdaptDone n good s
  | .rxGood n mask => Sys2Proof.Machine.execRxGood n mask s
  | .trainMessage n m => Sys2Proof.Machine.execTrainMessage n m s
  | .trainResend n => Sys2Proof.Machine.execTrainResend n s
  | .trainingTimeout n => Sys2Proof.Machine.execTrainingTimeout n s
  | .laneFault n lane => Sys2Proof.Machine.execLaneFault n lane s
  | .lossOfSignal n => Sys2Proof.Machine.execLossOfSignal n s
  | .sleepRequest n => Sys2Proof.Machine.execSleepRequest n s
  | .sleep n kind => Sys2Proof.Machine.execSleep n kind s
  | .wake n deskewed => Sys2Proof.Machine.execWake n deskewed s
  | .d2dDoorbell p f q => Sys2Proof.Machine.execD2dDoorbell p f q s
  | .d2dSet p f vid tag fence v => Sys2Proof.Machine.execD2dSet p f vid tag fence v s
  | .d2dAdd p f vid tag fence v => Sys2Proof.Machine.execD2dAdd p f vid tag fence v s
  | .d2dRead p f vid tag => Sys2Proof.Machine.execD2dRead p f vid tag s
  | .watch p f vid tag wtag form v mask => Sys2Proof.Machine.execWatch p f vid tag wtag form v mask s
  | .unwatch p f tag wtag => Sys2Proof.Machine.execUnwatch p f tag wtag s
  | .mwr p f tag addr enables lines => Sys2Proof.Machine.execMwr p f tag addr enables lines s
  | .mrd p f tag addr len => Sys2Proof.Machine.execMrd p f tag addr len s
  | .mwrRsp p tag status => Sys2Proof.Machine.execMwrRsp p tag status s
  | .mrdData p tag status bytes => Sys2Proof.Machine.execMrdData p tag status bytes s
  | .pktTx p f tag dst bytes => Sys2Proof.Machine.execPktTx p f tag dst bytes s
  | .credit p req rsp oth => Sys2Proof.Machine.execCredit p req rsp oth s
  | .fdiState p active cfgOk => Sys2Proof.Machine.execFdiState p active cfgOk s
  | .d2dTimeout p tag => Sys2Proof.Machine.execD2dTimeout p tag s
  | .d2dLinkLoss p => Sys2Proof.Machine.execD2dLinkLoss p s
  | .readData m tag stat bytes => Sys2Proof.Machine.execReadData m tag stat bytes s
  | .writeCompletion m tag stat => Sys2Proof.Machine.execWriteCompletion m tag stat s
  | .translationAnswer m tag stat page size wr => Sys2Proof.Machine.execTranslationAnswer m tag stat page size wr s
  | .invalidation m tag ctx page size all => Sys2Proof.Machine.execInvalidation m tag ctx page size all s
  | .memTimeout m kind tag => Sys2Proof.Machine.execMemTimeout m kind tag s
  | .haltDone m => Sys2Proof.Machine.execHaltDone m s
  | .haltTimeout m => Sys2Proof.Machine.execHaltTimeout m s
  | .streamPiece t => Sys2Proof.Machine.execStreamPiece t s
  | .activityWindow tile arr waited idle => Sys2Proof.Machine.execActivityWindow tile arr waited idle s
  | .powerEstimate watts amps => Sys2Proof.Machine.execPowerEstimate watts amps s
  | .thermal sector temp => Sys2Proof.Machine.execThermal sector temp s
  | .emerg => Sys2Proof.Machine.execEmerg s
  | .emergClear => Sys2Proof.Machine.execEmergClear s
  | .vgrant => Sys2Proof.Machine.execVgrant s
  | .vgrantTimeout => Sys2Proof.Machine.execVgrantTimeout s
  | .stagingEcc tile => Sys2Proof.Machine.execStagingEcc tile s
  | .tableEcc table idx => Sys2Proof.Machine.execTableEcc table idx s
  | .seqWatchdog tile seq => Sys2Proof.Machine.execSeqWatchdog tile seq s
  | .coreWatchdog core => Sys2Proof.Machine.execCoreWatchdog core s
  | .roleRestart core => Sys2Proof.Machine.execRoleRestart core s
  | .sectorFault sector cause => Sys2Proof.Machine.execSectorFault sector cause s
  | .fatal cause => Sys2Proof.Machine.execFatal cause s
  | .coldReset => Sys2Proof.Machine.execColdReset s
  | .rstDone => Sys2Proof.Machine.execRstDone s
  | .firmwareLoad fl => Sys2Proof.Machine.execFirmwareLoad fl s
  | .quiesce stuck => Sys2Proof.Machine.execQuiesce stuck s
  | .firmwareRestart us => Sys2Proof.Machine.execFirmwareRestart us s
  | .scanMode => Sys2Proof.Machine.execScanMode s
  | .tapReset => Sys2Proof.Machine.execTapReset s
  | .tapInstruction ir => Sys2Proof.Machine.execTapInstruction ir s
  | .ctlrd v => Sys2Proof.Machine.execCtlrd v s
  | .phyrdy n => Sys2Proof.Machine.execPhyrdy n s
  | .lpAck n level => Sys2Proof.Machine.execLpAck n level s
  | .sleepAnswerTimeout n => Sys2Proof.Machine.execSleepAnswerTimeout n s
  | .memCredit m rq wq xq => Sys2Proof.Machine.execMemCredit m rq wq xq s
  | .prbsChecker n lane bits => Sys2Proof.Machine.execPrbsChecker n lane bits s
  | .pllRetune sector => Sys2Proof.Machine.execPllRetune sector s

end Sys2Proof.Machine
end

