-- ==== Sys2Proof/Safety.lean ====
section
/-!
DEFINITION. What counts as a safe state and a safe run, when each row acts, and the words in which statements say what a row leaves.
-/
namespace Sys2Proof

open Sys2Proof.Machine

/-- What every step keeps: memory is canonical (R2 and the model's own form), and no store is left over between commands. -/
def Safe (s : State) : Prop := memWf s.mem = true ∧ s.b.stores = []

/-- The machine goes on: a step from the state answers a next state. -/
def GoesOn (s : State) : Prop := ∃ t, step s = .next t

/-- A CTL access is possible: the block is neither in scan mode nor held in reset (R683, R771). -/
def CtlOpen (s : State) : Prop := s.b.life.scanMode = false ∧ s.b.life.inReset = false

/-- The page of a function takes writes: it is enabled and not fenced, and no block reset is under way (R686, R760). -/
def PageOpen (s : State) (f : Nat) : Prop := s.b.life.phase = .run ∧ fnLive s.b f = true

/-- Register writes, and the few events that a lost block still takes note of (R627). -/
def isCtlRow : Instr → Bool
  | .doorbell .. | .fnQring .. | .fnCring .. | .fnChead .. | .fnEqring .. | .fnEqhead .. | .fnSpill .. | .fnIrqcfg .. | .fnMsiAddr ..
  | .fnPenSel .. | .fnStrSel .. | .blkAdmin .. | .blkReset .. | .fltFence .. | .beatCfg .. | .fabSelf .. | .secFabricGen .. | .clrCnt ..
  | .beatOvrClr .. | .prbsEn .. | .prbsInject .. | .prbsClr .. | .flashRel .. | .dbgDis .. | .registerWrite .. | .writeCompletion ..
  | .fatal .. | .ctlrd .. => true
  | _ => false

/-- Resets, the scan pin and the TAP's own events. -/
def isPinRow : Instr → Bool
  | .coldReset | .rstDone | .scanMode | .tapReset | .tapInstruction .. => true
  | _ => false

/-- Rows that a block reset does not stop (R686, R687): beats, dies' and memory ports' answers, power, faults, the reset's own phases. -/
def isLiveRow : Instr → Bool
  | .beatStart | .dipWindow .. | .parentLost | .beatMark .. | .keepAlive .. | .beatIn .. | .beatInMissing | .d2dDoorbell .. | .d2dSet ..
  | .d2dAdd .. | .d2dRead .. | .watch .. | .unwatch .. | .mwr .. | .mrd .. | .mwrRsp .. | .mrdData .. | .pktTx .. | .credit .. | .fdiState ..
  | .d2dTimeout .. | .d2dLinkLoss .. | .readData .. | .translationAnswer .. | .invalidation .. | .memTimeout .. | .haltDone .. | .haltTimeout ..
  | .activityWindow .. | .powerEstimate .. | .thermal .. | .emerg | .emergClear | .vgrant | .vgrantTimeout | .stagingEcc .. | .seqWatchdog ..
  | .coreWatchdog .. | .sectorFault .. | .firmwareLoad .. | .quiesce .. | .firmwareRestart .. | .phyrdy .. | .memCredit .. | .prbsChecker ..
  | .pllRetune .. => true
  | _ => false

/-- How far one counter lies ahead of another, both modulo 2^32 (R796). -/
def ahead (to' from' : Nat) : Nat := (to' % 2 ^ 32 + 2 ^ 32 - from' % 2 ^ 32) % 2 ^ 32

/-- The command of an id stands ended with a status and a result, waiting for its completion record. -/
def EndedWith (b : Blk) (id : CmdId) (status result : Nat) : Prop :=
  ∃ c, findCmd b id = some c ∧ c.phase = .ended ∧ c.status = status ∧ c.result = result

/-- The command of an id is running, and no effect of it has been carried out or staged. -/
def RunsNow (b : Blk) (id : CmdId) (op : Nat) (c : Cmd) : Prop :=
  findCmd b id = some c ∧ c.phase = .running ∧ opOf c = op ∧ fnLive b id.f = true ∧ c.effectDone = false ∧ c.applied = none

/-- The command of an id waits at acceptance or at the head of its queue. -/
def AcceptedNow (b : Blk) (id : CmdId) (op : Nat) (c : Cmd) : Prop :=
  findCmd b id = some c ∧ c.phase = .accepted ∧ opOf c = op ∧ fnLive b id.f = true

/-- A management change stands staged with its result and what is reserved for it, and its APPLIED record is issued (R527). -/
def StagedWith (b b' : Blk) (id : CmdId) (result : Nat) (held : List Nat) : Prop :=
  b'.staged = b.staged ++ [{ cmd := id, lsn := (getFn b id.f).head, held, inForce := false }] ∧
  ∃ c, findCmd b' id = some c ∧ c.applied = some (getFn b id.f).head ∧ c.result = result

/-- No function waits for its commands: none is being disabled or has an enable held, and no queue is SHUTTING (R544, R546, R547). -/
def NothingSettles (b : Blk) : Prop :=
  ∀ e ∈ b.fns, e.2.disabling = false ∧ e.2.enableHeld = none ∧ ∀ q ∈ e.2.queues, q.2.state ≠ 2

/-- A unicast packet of a type has reached this engine, its sequence not applied yet, and names a group of this engine in its current generation
with its roster (R124, R348, R350). -/
def NewFor (b : Blk) (type : Nat) (p : Pkt) (h : Nat) (g : Group) : Prop :=
  isCollPkt p = true ∧ (preOfPkt p).type = type ∧ p.hdr.hop ≠ 0 ∧ p.hdr.dst = selfEp b ∧ applied (getSrc b (srcKey b p)) (preOfPkt p).e2e = false ∧
  findGroup b (preOfPkt p).gid = some (h, g) ∧ g.gen = (preOfPkt p).gen ∧ g.digest = (preOfPkt p).rosterDig

/-- The sequence of a packet counts as applied and its acknowledgement is due (R350, R351). -/
def Acknowledged (b : Blk) (p : Pkt) : Prop :=
  applied (getSrc b (srcKey b p)) (preOfPkt p).e2e = true ∧ (preOfPkt p).e2e ∈ (getSrc b (srcKey b p)).due

/-- What the target of a point-to-point packet checks before it acts (R81, R128): an ACTIVE group, its issuing member, a local target function, and a
memory space that the function may reach. -/
def TargetMay (b : Blk) (g : Group) (p : Pkt) (fn space : Nat) : Prop :=
  g.state = 1 ∧ (preOfPkt p).srcRank < g.n ∧ slotEp (tget 0 b.t.roster (g.base + (preOfPkt p).srcRank)) = p.hdr.src ∧
  (∃ l ∈ g.locs, l.1 = fn) ∧ d2dOk b fn space = true

end Sys2Proof
end

