-- ==== Sys2Proof/WellFormed.lean ====
section
/-!
DEFINITION. Well-formed commands: each operand lies in the range that the spec gives the unit, table or field it names.
-/
namespace Sys2Proof

/-- A function of the block (R6): 512. -/
def okFn (f : Nat) : Bool := decide (f < 512)
/-- A queue of a function (R6): 16. -/
def okQueue (q : Nat) : Bool := decide (q < 16)
/-- A link port (R6): 42. -/
def okPort (n : Nat) : Bool := decide (n < 42)
/-- The port a packet came from; 63 stands for this engine itself. -/
def okFrom (n : Nat) : Bool := decide (n < 42) || n == 63
/-- A lane of a link port (R691). -/
def okLane (l : Nat) : Bool := decide (l < 13)
/-- A D2D port (R6): 4. -/
def okD2d (p : Nat) : Bool := decide (p < 4)
/-- A memory port (R6): 16. -/
def okMem (m : Nat) : Bool := decide (m < 16)
/-- A tile (R6): 128. -/
def okTile (t : Nat) : Bool := decide (t < 128)
/-- A logical sector (R6): 8. -/
def okSector (k : Nat) : Bool := decide (k < 8)
/-- An endpoint (R305): 16 bits. -/
def okEp (e : Nat) : Bool := decide (e < 2 ^ 16)
/-- A virtual pennant ID (R441): 16 bits. -/
def okVid (v : Nat) : Bool := decide (v < 2 ^ 16)
/-- A halyard entry (R6, R356): 32,768. -/
def okHaly (i : Nat) : Bool := decide (i < 32768)
/-- The function, queue and ring sequence of a command (R486, R504). -/
def okId (i : CmdId) : Bool := okFn i.f && okQueue i.q && decide (i.rseq < 2 ^ 48)
/-- A packet header (R311). -/
def okHdr (h : RHdr) : Bool :=
  decide (h.net < 2) && decide (h.cls < 2) && decide (h.hop < 16) && okEp h.src && okEp h.dst && decide (h.pseq < 16) &&
  decide (h.path < 2 ^ 84)
/-- A packet from a port. -/
def okPkt (n : Nat) (p : Pkt) : Bool := okFrom n && okHdr p.hdr
/-- A failing access: a space selector of R555 and a 57-bit address. -/
def okAcc (a : Option AccFault) : Bool :=
  match a with
  | some a => decide (a.space < 5) && decide (a.addr < 2 ^ 57)
  | none => true

/-- The operands of a command lie in their ranges. -/
def wellFormed (i : Instr) : Bool :=
  match i with
  | .allreduce id e | .reduceScatter id e | .allgather id e | .broadcast id e | .reduce id e | .gather id e
  | .scatter id e | .alltoall id e | .alltoallv id e | .barrier id e | .topkGather id e => okId id && okAcc e.fault
  | .dispatch id e => okId id && okAcc e.fault
  | .combine id e => okId id && okAcc e.fault
  | .score id a | .put id a | .get id a | .putSignal id a | .memAtomic id a => okId id && okAcc a
  | .pennantSet id | .pennantAdd id | .pennantWait id | .streamOpen id | .stageAhead id | .streamResume id
  | .streamCloseFinish id | .streamCloseAbort id | .strike id | .queueShutdown id | .functionEnable id
  | .functionDisable id | .pennantMap id | .unmap id => okId id
  | .groupCreate id a | .groupReform id a => okId id && okAcc a
  | .groupDestroy id | .hoistCompile id => okId id
  | .hoistInstall id a => okId id && okAcc a
  | .hoistRelease id => okId id
  | .routeUpdate id a | .tableRead id a => okId id && okAcc a
  | .powerPolicy id | .fnRotate id | .linkSession id | .linkRekey id => okId id
  | .attest id a | .selftest id _ a => okId id && okAcc a
  | .unlistedOpcode id => okId id
  | .doorbell f q _ | .fnQring f q _ => okFn f && okQueue q
  | .fnCring f _ | .fnChead f _ | .fnEqring f _ | .fnEqhead f _ | .fnSpill f _ | .fnIrqcfg f _ | .fnPenSel f _
  | .fnStrSel f _ => okFn f
  | .fnMsiAddr f v _ => okFn f && decide (v < 32)
  | .blkAdmin _ | .blkReset _ | .fltFence _ | .beatCfg _ | .fabSelf _ | .secFabricGen _ => true
  | .clrCnt n _ | .prbsEn n _ | .prbsInject n _ | .prbsClr n _ => okPort n
  | .beatOvrClr _ | .flashRel _ | .dbgDis _ => true
  | .registerWrite off _ => decide (off < 2 ^ 24) && off % 8 == 0
  | .scan f q a => okFn f && okQueue q && okAcc a
  | .accept id | .commandDispatch id | .hoistOnDemand id => okId id
  | .fly r => (match r with | .cmd id => okId id | .stream f n => okFn f && decide (n < 64))
  | .completion id => okId id
  | .cqDelay f => okFn f
  | .generationWaitTimeout id | .stepTimeout id _ => okId id
  | .autoReform g => decide (g < 2 ^ 32)
  | .beatStart | .dipWindow _ => true
  | .partnerAbsent e => okEp e
  | .parentLost => true
  | .deadlock f => okFn f
  | .blockDeadlock => true
  | .frameSend n | .frameReceive n _ | .replay n | .replayTimeout n => okPort n
  | .routedCell n vn => okPort n && decide (vn < 3)
  | .data n p _ | .signal n p | .getReq n p _ | .getResp n p _ | .atomic n p _ _ | .e2eAck n p => okPkt n p
  | .e2eAckSend e | .e2eResend e _ => okEp e
  | .hold n p => okPkt n p
  | .holdResend e _ => okEp e
  | .recompute n p _ => okPkt n p
  | .checkerSelftest e _ _ _ => okEp e
  | .abortNotice n p | .breakNotice n p | .reserve n p | .reserveReply n p => okPkt n p
  | .reserveTimeout i => okHaly i
  | .release n p => okPkt n p
  | .halyardCell n i _ _ pay => okPort n && okHaly i && pay.length == 56
  | .halyardWindow i | .overrun i => okHaly i
  | .multicast n p => okPkt n p
  | .ident n e c => okPort n && okEp e && decide (c < 64)
  | .beatMark n _ _ => okPort n
  | .keepAlive n e _ _ => okPort n && okEp e
  | .beatIn _ | .beatInMissing => true
  | .drainTimeout id | .routeDrainDone id => okId id
  | .linkTrainStart n => okPort n
  | .adaptDone n m | .rxGood n m => okPort n && decide (m < 2 ^ 13)
  | .trainMessage n _ | .trainResend n | .trainingTimeout n => okPort n
  | .laneFault n l => okPort n && okLane l
  | .lossOfSignal n | .sleepRequest n => okPort n
  | .sleep n k => okPort n && decide (k < 4)
  | .wake n _ => okPort n
  | .d2dDoorbell p f q => okD2d p && okFn f && okQueue q
  | .d2dSet p f v _ _ _ | .d2dAdd p f v _ _ _ | .d2dRead p f v _ => okD2d p && okFn f && okVid v
  | .watch p f v _ w fm _ _ => okD2d p && okFn f && okVid v && decide (w < 1024) && decide (fm < 3)
  | .unwatch p f _ w => okD2d p && okFn f && decide (w < 1024)
  | .mwr p f _ a _ _ => okD2d p && okFn f && decide (a < 2 ^ 57)
  | .mrd p f _ a _ => okD2d p && okFn f && decide (a < 2 ^ 57)
  | .mwrRsp p _ _ | .mrdData p _ _ _ => okD2d p
  | .pktTx p f _ d _ => okD2d p && okFn f && okEp d
  | .credit p _ _ _ | .fdiState p _ _ | .d2dTimeout p _ | .d2dLinkLoss p => okD2d p
  | .readData m t _ _ | .writeCompletion m t _ => okMem m && decide (t < 1024)
  | .translationAnswer m t _ _ _ _ => okMem m && decide (t < 256)
  | .invalidation m _ _ _ _ _ => okMem m
  | .memTimeout m k _ => okMem m && decide (k < 3)
  | .haltDone m | .haltTimeout m => okMem m
  | .streamPiece t => okTile t
  | .activityWindow t a _ _ => okTile t && decide (a < 8)
  | .powerEstimate _ _ => true
  | .thermal k t => okSector k && decide (t < 256)
  | .emerg | .emergClear | .vgrant | .vgrantTimeout => true
  | .stagingEcc t => okTile t
  | .tableEcc _ _ => true
  | .seqWatchdog t k => okTile t && decide (k < 16)
  | .coreWatchdog k | .roleRestart k => decide (k < 3)
  | .sectorFault k _ => okSector k
  | .fatal k => decide (k < 7)
  | .coldReset | .rstDone | .firmwareLoad _ | .quiesce _ | .firmwareRestart _ => true
  | .scanMode | .tapReset => true
  | .tapInstruction ir => decide (ir < 256)
  | .ctlrd _ => true
  | .phyrdy n | .lpAck n _ | .sleepAnswerTimeout n => okPort n
  | .memCredit m _ _ _ => okMem m
  | .prbsChecker n l _ => okPort n && okLane l
  | .pllRetune k => okSector k

end Sys2Proof
end

