-- ==== Sys2Proof/Certificates/Slice0/Obligations.lean ====
section
/-!
DEFINITION. The statements for the provers.
-/

open Sys2Proof Sys2Proof.Machine

/-! ### The step, the queue, what every row keeps -/

/-- A step carries out the command at the front of the queue: it is exec of that command on the state with the queue's rest. The model's choice
(log 6): with an empty queue a step leaves the block as it is. -/
def Obligations.StepRunsFront : Prop :=
  (∀ (c : Instr) (s : State), step { s with pending := c :: s.pending } = exec c s) ∧ ∀ s : State, s.pending = [] → step s = .next s

/-- The state after reset is safe, works, takes CTL accesses, and no command waits in it. -/
def Obligations.ResetIsSafe : Prop :=
  Safe State.reset ∧ awake State.reset.b = true ∧ CtlOpen State.reset ∧ State.reset.pending = []

/-- Every step keeps memory canonical and leaves no store behind, whichever command is at the front. -/
def Obligations.SafeIsKept : Prop := ∀ s t : State, Safe s → step s = .next t → Safe t

/-- No row touches the queue of the commands that wait. -/
def Obligations.QueueUntouched : Prop := ∀ (c : Instr) (s t : State), exec c s = .next t → t.pending = s.pending

/-- Every row answers a next state, but for the malformed commands of R548, which stop a run at acceptance or dispatch.
The model's choices: logs 9 and 25. -/
def Obligations.RowsComplete : Prop :=
  ∀ (c : Instr) (s : State), (∃ t, exec c s = .next t) ∨
    ∃ id, exec c s = .fault (.malformedCommand id) ∧ awake s.b = true ∧ (c = .accept id ∨ c = .commandDispatch id)

/-- R771, R683: in scan mode only the reset, the scan pin and the TAP's own events change anything; a rise of RST_DONE does not.
The model's choices: log 9. -/
def Obligations.ScanModeHolds : Prop :=
  ∀ (c : Instr) (s : State), s.b.life.scanMode = true → s.b.stores = [] →
    (isPinRow c = false ∨ c = .rstDone) → exec c s = .next s

/-- R627: a block with a fatal cause takes register writes, write completions, further causes and CTLRD, pins and resets; no other row
changes anything in it.
The model's choices: log 9. -/
def Obligations.LostBlockStops : Prop :=
  ∀ (c : Instr) (s : State), s.b.life.fatal ≠ 0 → isCtlRow c = false → isPinRow c = false → exec c s = .next s

/-- R530, R686: while a block reset is under way, no command is taken or dispatched and nothing of the fabric moves: a row that is
neither live, nor a CTL access, nor a pin changes nothing.
The model's choices: log 9. -/
def Obligations.BlockResetHolds : Prop :=
  ∀ (c : Instr) (s : State), s.b.life.phase ≠ .run → isLiveRow c = false → isCtlRow c = false → isPinRow c = false → exec c s = .next s

/-- R747 with the reset values of the register chapters: what CTL reads of the block after reset.
The model's choices: logs 1 and 7. -/
def Obligations.ResetRegisters : Prop :=
  let rd := fun off => (ctlRead State.reset.b off).toNat
  rd 0x40 = 0x7D0 ∧ rd 0x48 = 0xC000000003E803E8 ∧ rd 0x60 = 0 ∧ rd 0x10000 = 0x100 ∧ rd 0x1F0000 = 4 ∧
  rd 0x1F0008 = 0 ∧ rd 0x1F0010 = 0x0100000004000100 ∧ rd 0x1F0018 = 0x40064 ∧ rd 0x200000 = 0x0000C81000004E20 ∧
  rd 0x100000 = 0 ∧ rd 0x100100 = 0x0FFF800000000000 ∧ rd 0x400500 = 0x0000000100000000 ∧ rd 0x400800 = 2 ^ 63 ∧
  State.reset.mem = [] ∧ State.reset.b.cmds = [] ∧ State.reset.b.pens = []

/-! ### Register writes: function pages -/

/-- A doorbell is captured by a queue below the queue count that is OPEN or FENCED, in a fenced function's page too, and by no other; its
data is ignored and nothing else changes. It is the write of FN_DB at page offset 8·q, which reads zero. -/
def Obligations.DoorbellIsCaptured : Prop :=
  ∀ (f q : Nat) (v : Word) (s : State), CtlOpen s → s.b.stores = [] → f < 512 → q < 16 →
    exec (.doorbell f q v) s = .next (
      if (getFn s.b f).enabled = true ∧ q < (getFn s.b f).nq ∧ ((getQ s.b f q).state = 1 ∨ (getQ s.b f q).state = 4)
      then { s with b := modQ s.b f q fun x => { x with scanPending := true } } else s) ∧
    exec (.registerWrite (0x400000 + 0x1000 * f + 8 * q) v) s = exec (.doorbell f q v) s ∧ ctlRead s.b (0x400000 + 0x1000 * f + 8 * q) = 0

/-- FN_QRING of an open page is ignored as a whole for a queue beyond the queue count, OPEN, SHUTTING or FENCED, without a completion
ring, or with EN and a size outside 4 to 16; any other write stores its fields, and with EN the queue is OPEN with RSEQ 0.
The model's choices: log 53. -/
def Obligations.QueueRingOpens : Prop :=
  ∀ (f q : Nat) (v : Word) (s : State), CtlOpen s → PageOpen s f → s.b.stores = [] → f < 512 → q < 16 →
    let fields := fun x : Queue => { x with cls := fld v.toNat 62 61, base := fld v.toNat 56 6 * 64, log2 := fld v.toNat 4 0 }
    let opened := fun x : Queue =>
      { fields x with state := 1, rseq := 0, taken := 0, scanSlot := 0, scanPending := false, ringFault := false, was := 0 }
    exec (.fnQring f q v) s = .next (
      if q < (getFn s.b f).nq ∧ (getQ s.b f q).state ∉ [1, 2, 4] ∧ (getFn s.b f).cqEn = true ∧
          (tb v.toNat 63 = true → 4 ≤ fld v.toNat 4 0 ∧ fld v.toNat 4 0 ≤ 16)
      then { s with b := modQ s.b f q (if tb v.toNat 63 then opened else fields) } else s)

/-- FN_CRING, FN_EQRING and FN_SPILL of an open page store their fields while EN is 0, unless they set EN with a size out of range
(8 to 20, 8 to 16, 20 to 40); otherwise the write is ignored as a whole. Setting the error queue starts its count of lost events at 0.
A write of CONSUMED (FN_CHEAD, FN_EQHEAD) is taken only when its forward distance from the current CONSUMED does not exceed that of PRODUCED, both modulo
2^32, so the rule holds across the wrap; CONSUMED then advances by that distance. A completion ring whose records
wait writes as many of them as there is then room for, and queues and functions that waited for those records settle. -/
def Obligations.FunctionRingsAndHeads : Prop :=
  ∀ (f : Nat) (v : Word) (s : State), CtlOpen s → PageOpen s f → s.b.stores = [] → f < 512 →
    exec (.fnCring f v) s = .next (
      if (getFn s.b f).cqEn = false ∧ (tb v.toNat 63 = true → 8 ≤ fld v.toNat 4 0 ∧ fld v.toNat 4 0 ≤ 20)
      then { s with b := modFn s.b f fun n => { n with cqEn := tb v.toNat 63, cqBase := fld v.toNat 56 6 * 64, cqLog2 := fld v.toNat 4 0 } }
      else s) ∧
    exec (.fnEqring f v) s = .next (
      if (getFn s.b f).eqEn = false ∧ (tb v.toNat 63 = true → 8 ≤ fld v.toNat 4 0 ∧ fld v.toNat 4 0 ≤ 16)
      then { s with b := modFn s.b f fun n => { n with
        eqEn := tb v.toNat 63, eqBase := fld v.toNat 56 6 * 64, eqLog2 := fld v.toNat 4 0, eqLost := if tb v.toNat 63 then 0 else n.eqLost } }
      else s) ∧
    exec (.fnSpill f v) s = .next (
      if (getFn s.b f).spEn = false ∧ (tb v.toNat 63 = true → 20 ≤ fld v.toNat 5 0 ∧ fld v.toNat 5 0 ≤ 40)
      then { s with b := modFn s.b f fun n => { n with
        spEn := tb v.toNat 63, spBase := fld v.toNat 56 20 * 2 ^ 20, spLog2 := fld v.toNat 5 0 } }
      else s) ∧
    let n := getFn s.b f
    (n.full = false → exec (.fnChead f v) s = .next (
      if ahead v.toNat n.consumed ≤ ahead n.produced n.consumed
      then { s with b := modFn s.b f fun n => { n with consumed := n.consumed + ahead v.toNat n.consumed } } else s)) ∧
    (n.full = true → exec (.fnChead f v) s = .next (
      if ahead v.toNat n.consumed ≤ ahead n.produced n.consumed
      then commit s (settle (ringDrain (n.ringWait.length + 1) f (modFn s.b f fun n => { n with consumed := n.consumed + ahead v.toNat n.consumed })))
      else s)) ∧
    exec (.fnEqhead f v) s = .next (
      if ahead v.toNat n.eqConsumed ≤ ahead n.eqProduced n.eqConsumed
      then { s with b := modFn s.b f fun n => { n with eqConsumed := n.eqConsumed + ahead v.toNat n.eqConsumed } } else s)

/-- FN_IRQCFG stores its fields; the write that sets CQ_EN takes PRODUCED as the count last signalled, and nothing is signalled while
CQ_EN is 0. FN_MSI_ADDR stores MASK and ADDR; the write that clears MASK while PEND is 1 clears PEND and hands one interrupt write of DATA to
ADDR to a memory port in service; without PEND it writes nothing.
The model's choices: log 4. -/
def Obligations.VectorsAreSet : Prop :=
  ∀ (f : Nat) (v : Word) (s : State), CtlOpen s → PageOpen s f → s.b.stores = [] → f < 512 →
    (tb v.toNat 63 = false → exec (.fnIrqcfg f v) s = .next { s with b := modFn s.b f fun n => { n with
      irqCfg := BitVec.ofNat 64 (fld v.toNat 63 52 * 2 ^ 52 + fld v.toNat 47 16 * 2 ^ 16) } }) ∧
    (tb v.toNat 63 = true → tb (getFn s.b f).irqCfg.toNat 63 = false →
      exec (.fnIrqcfg f v) s = .next { s with b := modFn s.b f fun n => { n with
        irqCfg := BitVec.ofNat 64 (fld v.toNat 63 52 * 2 ^ 52 + fld v.toNat 47 16 * 2 ^ 16), irqA := n.produced } }) ∧
    ∀ vec, vec < 32 →
      let b' := modFn s.b f fun n => { n with msi := tmod msi0 n.msi vec fun m => { m with
        mask := tb v.toNat 63, addr := fld v.toNat 51 2 * 4, pend := m.pend && tb v.toNat 63 } }
      ((tget msi0 (getFn s.b f).msi vec).pend = false ∨ tb v.toNat 63 = true → exec (.fnMsiAddr f vec v) s = .next { s with b := b' }) ∧
      ((tget msi0 (getFn s.b f).msi vec).pend = true → tb v.toNat 63 = false → s.b.life.fatal = 0 →
        ∀ p, portFrom s.b s.b.ctl.msiPort = some p →
        exec (.fnMsiAddr f vec v) s = .next { s with b := modM b' p fun pt => startMem { pt with wrWait := pt.wrWait ++
          [{ tag := 0, bytes := [(memKey 0 (fld v.toNat 51 2 * 4), leBytes (tget msi0 (getFn s.b f).msi vec).data 4)], puts := 1
             msi := true, use := .msi f vec }] } })

/-- FN_PEN_SEL takes a snapshot of the pennant its function maps under VIRTUAL_ID, all zero with MAPPED 0 where it maps none; FN_STR_SEL one
of the stream entry (its words 13 to 15 for the cursor and what is delivered), all zero where it is not in use. Both set DONE_SEQ to SEQ and change nothing else. -/
def Obligations.SelectorsTakeSnapshots : Prop :=
  ∀ (f : Nat) (v : Word) (s : State), CtlOpen s → PageOpen s f → s.b.stores = [] → f < 512 →
    let w := v.toNat
    (∀ i, penIdx s.b f (fld w 15 0) = some i → (getPen s.b i).mapped = true →
      let p := getPen s.b i
      exec (.fnPenSel f v) s = .next { s with b := modFn s.b f fun n => { n with
        penSel := BitVec.ofNat 64 (mk [(31, 24, fld w 23 16), (23, 16, fld w 23 16), (15, 0, fld w 15 0)]), penVal := p.value
        penCnt := BitVec.ofNat 64 (mk [(63, 16, p.sigCount), (13, 0, p.waiters)])
        penLast := BitVec.ofNat 64 (mk [(63, 48, p.lastEp), (47, 39, p.lastFn), (38, 36, p.lastKind), (35, 35, 1), (31, 0, p.lastTag)]) } }) ∧
    (penIdx s.b f (fld w 15 0) = none → exec (.fnPenSel f v) s = .next { s with b := modFn s.b f fun n => { n with
      penSel := BitVec.ofNat 64 (mk [(31, 24, fld w 23 16), (23, 16, fld w 23 16), (15, 0, fld w 15 0)]), penVal := 0, penCnt := 0, penLast := 0 } }) ∧
    ((getStr s.b f (fld w 5 0)).valid = true →
      let e := getStr s.b f (fld w 5 0)
      let word := fun i => BitVec.ofNat 64 ((streamWords s.b (strKey f (fld w 5 0)) e).getD i 0)
      exec (.fnStrSel f v) s = .next { s with b := modFn s.b f fun n => { n with
        strSel := BitVec.ofNat 64 (mk [(31, 24, fld w 23 16), (23, 16, fld w 23 16), (5, 0, fld w 5 0)])
        strState := BitVec.ofNat 64 (mk [(63, 63, 1), (62, 60, e.state), (59, 58, e.cls), (57, 57, b2n e.sharded), (56, 56, b2n e.followsValid),
          (55, 50, e.follows), (31, 0, e.flies)]), strDeliv := word 15, strCur := word 13, strCur0 := word 14 } }) ∧
    ((getStr s.b f (fld w 5 0)).valid = false → exec (.fnStrSel f v) s = .next { s with b := modFn s.b f fun n => { n with
      strSel := BitVec.ofNat 64 (mk [(31, 24, fld w 23 16), (23, 16, fld w 23 16), (5, 0, fld w 5 0)])
      strState := 0, strDeliv := 0, strCur := 0, strCur0 := 0 } })

/-! ### Register writes: the block -/

/-- BLK_ADMIN is ignored once ENABLE is 1, without firmware, or with ENABLE and a size outside 20 to 40. Else it stores its fields, and in a
block that is not lost ENABLE enables function 0 with every quota at its largest, BLK_ADMIN_CTX's context and D2D mask, EPOCH advanced, its
anchor and ENABLE record issued, and every queue CLOSED; no other function changes.
The model's choices: logs 3 and 5. -/
def Obligations.AdminIsEnabled : Prop :=
  ∀ (v : Word) (s : State), CtlOpen s → s.b.stores = [] →
    let w := v.toNat
    let stored := { s.b.ctl with admin := BitVec.ofNat 64 (mk [(63, 63, fld w 63 63), (61, 58, fld w 61 58), (56, 20, fld w 56 20), (5, 0, fld w 5 0)]) }
    (tb s.b.ctl.admin.toNat 63 = true ∨ s.b.life.fwVersion = 0 ∨ (tb w 63 = true ∧ (fld w 5 0 < 20 ∨ 40 < fld w 5 0)) →
      exec (.blkAdmin v) s = .next s) ∧
    (tb s.b.ctl.admin.toNat 63 = false → s.b.life.fwVersion ≠ 0 → tb w 63 = false →
      exec (.blkAdmin v) s = .next { s with b := { s.b with ctl := stored } }) ∧
    (tb s.b.ctl.admin.toNat 63 = false → s.b.life.fwVersion ≠ 0 → tb w 63 = true → 20 ≤ fld w 5 0 → fld w 5 0 ≤ 40 → s.b.life.fatal = 0 →
      ∃ t, exec (.blkAdmin v) s = .next t ∧ t.b.ctl = stored ∧ t.b.cmds = s.b.cmds ∧ t.b.pens = s.b.pens ∧
        (∀ f, f ≠ 0 → getFn t.b f = getFn s.b f) ∧
        let n := getFn t.b 0
        n.enabled = true ∧ n.fenced = false ∧ n.nq = fld w 61 58 + 1 ∧ n.groupQuota = 16384 ∧ n.rosterQuota = 1048576 ∧ n.stagingQuota = 4096 ∧
        n.context = fld s.b.ctl.adminCtx.toNat 31 0 ∧ n.d2dMask = fld s.b.ctl.adminCtx.toNat 35 32 ∧ n.logBase = fld w 56 20 * 2 ^ 20 ∧
        n.logLog2 = fld w 5 0 ∧ n.epoch = ((getFn s.b 0).epoch + 1) % 2 ^ 32 ∧ n.queues = [] ∧ n.head = 1 ∧ n.tailAnchor = 0 ∧
        t.mem = applyStores s.mem [(memKey 0 (translate s.b n.context n.logBase), anchorBytes n 0 0),
          (memKey 0 (translate s.b n.context (n.logBase + 64)), logRecord { n with head := 0 } 6 0 0 0 0 0 [n.nq, 16384, 1048576, 4096] [])])

/-- BLK_RESET is ignored with a wrong key, during a block reset and in a lost block; else a block reset begins: QUIESCE, one more reset
counted, the beat stopped and its lock lost, every link port in electrical idle and DOWN unless fenced, every memory port halted, no D2D port
UP; keys, registers, groups, hoists and memory stay. -/
def Obligations.BlockResetBegins : Prop :=
  ∀ (v : Word) (s : State), CtlOpen s → s.b.stores = [] →
    (tb v.toNat 63 = false ∨ fld v.toNat 7 0 ≠ 0xA5 ∨ s.b.life.fatal ≠ 0 ∨ s.b.life.phase ≠ .run → exec (.blkReset v) s = .next s) ∧
    (tb v.toNat 63 = true → fld v.toNat 7 0 = 0xA5 → s.b.life.fatal = 0 → s.b.life.phase = .run →
      ∃ t, exec (.blkReset v) s = .next t ∧
        t.b.life = { s.b.life with phase := .quiesce, lastCold := false, blockResets := min (s.b.life.blockResets + 1) 65535, runWas := s.b.beat.run } ∧
        t.b.beat.run = false ∧ t.b.beat.locked = false ∧ t.b.beat.count = s.b.beat.count ∧ t.b.beat.period = s.b.beat.period ∧
        (∀ n, n < 42 → (getP t.b n).state = (if (getP s.b n).state = 3 then 3 else 0) ∧ (getP t.b n).txei = 0x1FFF ∧ (getP t.b n).enable = (getP s.b n).enable) ∧
        (∀ p ∈ t.b.memp, p.halt = true ∧ p.state ≠ 1) ∧ (∀ d ∈ t.b.d2d, d.state ≠ 1) ∧
        t.b.sec = s.b.sec ∧ t.b.part = s.b.part ∧ t.b.ctl = s.b.ctl ∧ t.b.tiles = s.b.tiles ∧ t.b.t.group = s.b.t.group ∧ t.b.t.hoist = s.b.t.hoist ∧
        t.mem = s.mem ∧ t.pending = s.pending)

/-- FLT_FENCE captures the request of an existing unit other than function 0; a reserved kind, an index without a unit, function 0 and a
write without GO are ignored. -/
def Obligations.FenceIsCaptured : Prop :=
  ∀ (v : Word) (s : State), CtlOpen s → s.b.stores = [] →
    let k := fld v.toNat 62 60
    let i := fld v.toNat 8 0
    let exists' := (k = 0 ∧ i < 128 ∧ tileExists s.b i = true) ∨ (k = 1 ∧ sectorExists s.b i = true) ∨ (k = 2 ∧ portExists s.b i = true) ∨
      (k = 3 ∧ i < 16) ∨ (k = 4 ∧ i < 4) ∨ (k = 5 ∧ 0 < i)
    (tb v.toNat 63 = true → exists' → exec (.fltFence v) s = .next
      { s with b := { s.b with ctl := { s.b.ctl with fences := s.b.ctl.fences ++ [{ kind := k, index := i }] } } }) ∧
    (tb v.toNat 63 = false ∨ ¬ exists' → exec (.fltFence v) s = .next s)

/-- BEAT_CFG is ignored while RUN is 1; else its fields are stored, each at the nearer limit of its range, and RUN is set unless
PERIOD − GUARD − DIP_LEN falls below 500 ns, which sets CFG_ERR. BEAT_OVR.CLR clears both counters and nothing else. -/
def Obligations.BeatRegistersAreSet : Prop :=
  ∀ (v : Word) (s : State), CtlOpen s → s.b.stores = [] →
    let w := v.toNat
    let near := fun lo hi x : Nat => if x < lo then lo else if hi < x then hi else x
    let dip := near 100 10000 (fld w 53 40)
    let guard := near 16 1000 (fld w 39 30)
    let period := near 1000 1000000 (fld w 19 0)
    let x := { s.b.beat with source := fld w 62 61, dipLen := dip, guard := guard, period := period }
    let set := if 500 + guard + dip ≤ period then { x with run := true, cfgErr := false } else { x with cfgErr := true }
    (s.b.beat.run = true → exec (.beatCfg v) s = .next s) ∧
    (s.b.beat.run = false → exec (.beatCfg v) s = .next { s with b := { s.b with beat := if tb w 63 then set else x } }) ∧
    exec (.beatOvrClr v) s = .next (if tb w 63 then { s with b := { s.b with beat := { s.b.beat with overrun := 0, demote := 0 } } } else s)

/-- FAB_SELF stores its endpoint and LOCK, and nothing once LOCK is 1. SEC_FABRIC.GEN draws a fabric secret where none is held and the
endpoint is locked, and is ignored otherwise; a secret held is not replaced. -/
def Obligations.IdentityIsLocked : Prop :=
  ∀ (v : Word) (s : State), CtlOpen s → s.b.stores = [] →
    exec (.fabSelf v) s = .next (
      if tb s.b.ctl.fabSelf.toNat 32 then s
      else { s with b := { s.b with ctl := { s.b.ctl with fabSelf := BitVec.ofNat 64 (mk [(32, 32, fld v.toNat 32 32), (15, 0, fld v.toNat 15 0)]) } } }) ∧
    (tb v.toNat 63 = true → s.b.sec.fs = none → tb s.b.ctl.fabSelf.toNat 32 = true →
      ∃ t, exec (.secFabricGen v) s = .next t ∧ t.b.sec.fs = some (Config.drawFs s.b.fresh) ∧ t.b.fresh = s.b.fresh + 1 ∧ t.mem = s.mem ∧
        t.b.ctl = s.b.ctl ∧ t.b.cmds = s.b.cmds ∧ t.b.t = s.b.t) ∧
    (tb v.toNat 63 = false ∨ s.b.sec.fs ≠ none ∨ tb s.b.ctl.fabSelf.toNat 32 = false → exec (.secFabricGen v) s = .next s)

/-- A write of LNK_CFG stores ENABLE, RING and CABLE_NS (160 at most); CLR_CNT clears every counter of LNK_ERR and of LNK_FEC; no other port
changes. A port that is absent takes no write. Stated for a port that is not stopped by the write.
The model's choices: log 13. -/
def Obligations.LinkCountersClear : Prop :=
  ∀ (n : Nat) (v : Word) (s : State), CtlOpen s → s.b.stores = [] → n < 42 →
    let fields := fun p : Port =>
      { p with enable := tb v.toNat 63, ring := fld v.toNat 59 56, cable := if 160 < fld v.toNat 7 0 then 160 else fld v.toNat 7 0 }
    let cleared := fun p : Port =>
      { fields p with crcErr := 0, retry := 0, retryRun := 0, authFail := 0, downDrop := 0, framing := 0, corrSym := 0, uncorr := 0 }
    (portExists s.b n = false → exec (.clrCnt n v) s = .next s) ∧
    (portExists s.b n = true → ((getP s.b n).enable = false ∨ tb v.toNat 63 = true ∨ (getP s.b n).state = 0 ∨ (getP s.b n).state = 3) →
      exec (.clrCnt n v) s = .next { s with b := { s.b with ports := s.b.ports.modify n (if tb v.toNat 62 then cleared else fields) } })

/-- LNK_PRBS_CTL: a write that would set EN on an enabled port is ignored. On a disabled one the rise of EN releases the PHY reset, drives
PRBS_ACT, idles the lanes outside LANES, requests adaptation of every lane and starts the counters at 0; while EN is 1, INJECT
inverts one bit and CLR clears the counters.
The model's choices: log 77. -/
def Obligations.PatternTestRuns : Prop :=
  ∀ (n : Nat) (v : Word) (s : State), CtlOpen s → s.b.stores = [] → n < 42 → portExists s.b n = true →
    let p := getP s.b n
    let ctl := BitVec.ofNat 64 (mk [(63, 63, 1), (62, 62, fld v.toNat 62 62), (59, 47, fld v.toNat 59 47)])
    (tb v.toNat 63 = true → tb p.prbsCtl.toNat 63 = false → p.enable = true → exec (.prbsEn n v) s = .next s) ∧
    (tb v.toNat 63 = true → tb p.prbsCtl.toNat 63 = false → p.enable = false → exec (.prbsEn n v) s = .next { s with b :=
      { s.b with ports := s.b.ports.modify n fun p => { p with
        prbsCtl := ctl, prbsAct := true, phyRstN := true, txei := 0x1FFF - fld v.toNat 59 47, adaptReq := 0x1FFF, prbs := [], prbsBits := 0
        inject := if tb v.toNat 61 then p.inject + 1 else p.inject } } }) ∧
    (tb v.toNat 63 = true → tb p.prbsCtl.toNat 63 = true → tb v.toNat 61 = true → tb v.toNat 60 = false → exec (.prbsInject n v) s = .next { s with b :=
      { s.b with ports := s.b.ports.modify n fun p => { p with
        prbsCtl := ctl, prbsAct := true, phyRstN := true, txei := 0x1FFF - fld v.toNat 59 47, inject := p.inject + 1 } } }) ∧
    (tb v.toNat 63 = true → tb p.prbsCtl.toNat 63 = true → tb v.toNat 61 = false → tb v.toNat 60 = true → exec (.prbsClr n v) s = .next { s with b :=
      { s.b with ports := s.b.ports.modify n fun p => { p with
        prbsCtl := ctl, prbsAct := true, phyRstN := true, txei := 0x1FFF - fld v.toNat 59 47, prbsBits := 0
        prbs := tmap checker0 (fun _ (c : Checker) => { c with err := 0 }) p.prbs } } })

/-- A write to an offset that names no register, or that is no multiple of 8, changes nothing. A field that acts at a dip window is stored at once and its value in force
does not change. Each dedicated register command is the write to its register's offset. -/
def Obligations.RegisterWrites : Prop :=
  ∀ (v : Word) (s : State), CtlOpen s → s.b.stores = [] →
    (∀ off, off % 8 ≠ 0 ∨ (0x240010 ≤ off ∧ off < 0x400000) ∨ 0x600000 ≤ off → exec (.registerWrite off v) s = .next s) ∧
    exec (.registerWrite 0x40 v) s = .next { s with b := { s.b with ctl := { s.b.ctl with
      arbSlack := { s.b.ctl.arbSlack with stored := BitVec.ofNat 64 (fld v.toNat 19 0) } } } } ∧
    exec (.registerWrite 0x1F0000 v) s = .next { s with b := { s.b with ctl := { s.b.ctl with
      floor := { s.b.ctl.floor with stored := BitVec.ofNat 64 (if 64 < fld v.toNat 6 0 then 64 else fld v.toNat 6 0) } } } } ∧
    exec (.registerWrite 0x1F0018 v) s = .next { s with b := { s.b with ctl := { s.b.ctl with
      e2e := { s.b.ctl.e2e with stored := BitVec.ofNat 64 (fld v.toNat 19 0) } } } } ∧
    exec (.registerWrite 0x60 v) s = exec (.blkAdmin v) s ∧ exec (.registerWrite 0x70 v) s = exec (.blkReset v) s ∧
    exec (.registerWrite 0x10008 v) s = exec (.fltFence v) s ∧ exec (.registerWrite 0x200000 v) s = exec (.beatCfg v) s ∧
    exec (.registerWrite 0x1F0008 v) s = exec (.fabSelf v) s ∧ exec (.registerWrite 0x240008 v) s = exec (.secFabricGen v) s ∧
    (∀ n, n < 42 → exec (.registerWrite (0x100000 + 0x1000 * n) v) s = exec (.clrCnt n v) s) ∧
    ∀ f, f < 512 → (∀ q, q < 16 → exec (.registerWrite (0x400000 + 0x1000 * f + 8 * q) v) s = exec (.doorbell f q v) s) ∧
      exec (.registerWrite (0x400000 + 0x1000 * f + 0x200) v) s = exec (.fnCring f v) s ∧
      exec (.registerWrite (0x400000 + 0x1000 * f + 0x300) v) s = exec (.fnEqring f v) s

/-! ### The command engine -/

/-- A scan that is due takes the packet at SCAN_SLOT when it is owned and whole and the limits allow it: the packet stands as the next
command, its ACCEPT record issued at the head, and no memory changes. It stops at an entry whose OWN is 0, it waits at a limit, and an access
fault on the ring puts the queue in FENCED for good. A scan that is not due does nothing.
The model's choices: logs 3 and 4. -/
def Obligations.ScanTakesPackets : Prop :=
  ∀ (f q : Nat) (s : State), awake s.b = true → s.b.stores = [] →
    let x := getQ s.b f q
    let entry := fun i => fnRead s.b s.mem f 0 (slotAddr x (x.scanSlot + i)) 64
    (scanDue s.b f q = false → ∀ a, exec (.scan f q a) s = .next s) ∧
    (scanDue s.b f q = true →
      (∀ a, ∃ t, exec (.scan f q (some a)) s = .next t ∧
        getQ t.b f q = { x with was := 4, state := 4, ringFault := true, scanPending := false } ∧
        t.b = { s.b with fns := t.b.fns, memp := t.b.memp } ∧ t.pending = s.pending) ∧
      (tb (leAt (entry 0) 0 8) 63 = false →
        exec (.scan f q none) s = .next { s with b := modQ s.b f q fun x => { x with scanPending := false } }) ∧
      ∀ raw, packetAt entry 0 = some raw →
        (mayTake s.b f q (raw.length / 64) = false → exec (.scan f q none) s = .next s) ∧
        (mayTake s.b f q (raw.length / 64) = true → ∃ t more, exec (.scan f q none) s = .next t ∧
          t.b.cmds = s.b.cmds ++ newCmd ⟨f, q, x.taken⟩ raw (getFn s.b f).head :: more ∧
          t = { s with b := { s.b with fns := t.b.fns, cmds := t.b.cmds, memp := t.b.memp } }))

/-- A taken command whose ACCEPT is durable is accepted, in this order: a malformed one faults by name; a check that it fails ends it with that
check's status; an abort notice held for it ends it with the notice's status; a queue that is SHUTTING ends it with ABORTED; else it stands
accepted. OWN is then clear in each of its slots, no other byte of memory changes, and RSEQ has advanced by its entries. Stated where the
logbook has room, so that no CARRY is due, and where no data waits for it in spill.
The model's choices: log 25. -/
def Obligations.AcceptanceDecides : Prop :=
  ∀ (id : CmdId) (c : Cmd) (s : State), awake s.b = true → s.b.stores = [] → acceptable s.b id = some c → c.waitOn = none →
    let ranked := { c with rank := if namesGroup c then
      (match findGroup s.b (fGid c) with | some (_, g) => (rankIn g id.f).getD 0 | none => 0) else 0 }
    let wellFormed := (firstStatus s.b ranked).isSome = true ∨ isUnlisted c = true ∨ malformedAtAccept s.b ranked = false
    (¬ wellFormed → exec (.accept id) s = .fault (.malformedCommand id)) ∧
    (wellFormed → liveLines s.b id.f + 32 ≤ logFree s.b id.f → (getFn s.b id.f).spill = [] →
      ((getQ s.b id.f id.q).state = 2 → ∃ t, exec (.accept id) s = .next t ∧ EndedWith t.b id 0x10 0) ∧
      ((getQ s.b id.f id.q).state = 1 →
        ∃ t, exec (.accept id) s = .next t ∧
          t.mem = applyStores s.mem ((List.range (entriesOf c)).map fun j =>
            (fnKey s.b id.f 0 (slotAddr (getQ s.b id.f id.q) (id.rseq + j) + 7), [BitVec.ofNat 8 (leAt c.raw (64 * j + 7) 1 % 128)])) ∧
          getQ t.b id.f id.q = { getQ s.b id.f id.q with rseq := ((getQ s.b id.f id.q).rseq + entriesOf c) % 2 ^ 48 } ∧
          (∀ k, k ≠ id.f → getFn t.b k = getFn s.b k) ∧ t.b = { s.b with fns := t.b.fns, cmds := t.b.cmds } ∧
          (∀ st, firstStatus s.b ranked = some st → EndedWith t.b id st 0) ∧
          (firstStatus s.b ranked = none → ∀ st, heldAbort s.b c = some st → EndedWith t.b id st 0) ∧
          (firstStatus s.b ranked = none → heldAbort s.b c = none → findCmd t.b id = some { ranked with phase := .accepted })))

/-- The head of a queue that may be dispatched: with a wait clause that is not done it waits on its pennant, is released at once where the
condition holds already, and ends FAULT_ACCESS on a pennant that is not mapped; with a generation that lies ahead, or a hoist that is not
installed, it waits; with a generation that R127 turns away it ends with that status; else it runs, on the hoist its key finds. A PENNANT WAIT is
left to its own command. A head that would start on another command's buffers faults by name.
The model's choices: logs 25 and 57. -/
def Obligations.DispatchStartsCommands : Prop :=
  ∀ (id : CmdId) (c : Cmd) (s : State), awake s.b = true → s.b.stores = [] → headCmd s.b id = some c →
    let ready := flWait c = false ∨ c.waitDone = true
    let waits := if c.headOther then c else { c with headOther := true, waitBeat := s.b.beat.count }
    let ahead' := namesGroup c = true ∧ ∃ h g, findGroup s.b (fGid c) = some (h, g) ∧ g.gen < fGen c
    let reforms := opOf c = 0x84 ∧ ∃ h g, findGroup s.b (pf c 0 4) = some (h, g) ∧ g.state = 3
    let free := ready ∧ ¬ ahead' ∧ ¬ reforms ∧ (opOf c = 0x34 → fPenOp c ≠ 2)
    (startsMalformed s.b c = true → exec (.commandDispatch id) s = .fault (.malformedCommand id)) ∧
    (startsMalformed s.b c = false →
      (flWait c = true → c.waitDone = false → c.waitOn = none →
        (penIdx s.b id.f (wcPen c) = none → ∃ t, exec (.commandDispatch id) s = .next t ∧ EndedWith t.b id 0x31 0) ∧
        ∀ p, penIdx s.b id.f (wcPen c) = some p →
          (condHolds (wcForm c) (wcValue c) (wcMask c) (getPen s.b p).value.toNat = true →
            exec (.commandDispatch id) s = .next { s with b := modCmd s.b id fun c => releaseHead c (getPen s.b p).value }) ∧
          (condHolds (wcForm c) (wcValue c) (wcMask c) (getPen s.b p).value.toNat = false →
            let waited := modPen s.b p fun e => { e with waiters := e.waiters + 1 }
            exec (.commandDispatch id) s = .next { s with b := modCmd waited id fun c => { c with waitOn := some p } })) ∧
      (ready → (opOf c = 0x34 ∧ fPenOp c = 2) → exec (.commandDispatch id) s = .next s) ∧
      (ready → ahead' → ∃ t, exec (.commandDispatch id) s = .next t ∧ findCmd t.b id = some waits ∧ t = { s with b := { s.b with cmds := t.b.cmds } }) ∧
      (free → ∀ st, cmdGenStatus s.b c = some st → ∃ t, exec (.commandDispatch id) s = .next t ∧ EndedWith t.b id st 0) ∧
      (free → cmdGenStatus s.b c = none → usesHoist c = false → ∃ t c', exec (.commandDispatch id) s = .next t ∧ findCmd t.b id = some c' ∧
        c' = { c with phase := .running, headOther := false, handle := none, staging := 0, split := false, dispBeat := s.b.beat.count } ∧
        t = { s with b := { s.b with cmds := t.b.cmds, fns := t.b.fns, memp := t.b.memp, d2d := t.b.d2d } }) ∧
      (free → cmdGenStatus s.b c = none → usesHoist c = true → findHoist s.b (keyOf s.b s.mem c) = none →
        ∃ t, exec (.commandDispatch id) s = .next t ∧ findCmd t.b id = some waits ∧ t = { s with b := { s.b with cmds := t.b.cmds } }) ∧
      (free → cmdGenStatus s.b c = none → usesHoist c = true → ∀ h, findHoist s.b (keyOf s.b s.mem c) = some h →
        let need := stagingFor (getHoist s.b h) (getFn s.b id.f).stagingQuota
        let room := (getFn s.b id.f).stagingUsed + need.1 ≤ (getFn s.b id.f).stagingQuota * 65536
        (¬ room → ∃ t, exec (.commandDispatch id) s = .next t ∧ findCmd t.b id = some waits) ∧
        (room → ∃ t c', exec (.commandDispatch id) s = .next t ∧ findCmd t.b id = some c' ∧ c'.phase = .running ∧ c'.handle = some h ∧
          c'.staging = need.1 ∧ c'.split = need.2 ∧ c'.dispBeat = s.b.beat.count ∧ c'.raw = c.raw ∧ c'.rank = c.rank)))

/-- HOIST_ON_DEMAND acts for a head that waits for a hoist and whose generation stands: a HALVING that needs a power of two of members ends
REJECTED_FORMAT, a quota or table that is short ends the command with its status, and else the compiled hoist is installed and seeks its halyards. A
head that does not wait is left alone. GENERATION_WAIT_TIMEOUT ends a head that has waited STEP_TIMEOUT beats for its generation with
STALE_GENERATION, and none before.
The model's choices: log 9. -/
def Obligations.HeadsThatWait : Prop :=
  ∀ (id : CmdId) (c : Cmd) (s : State), awake s.b = true → s.b.stores = [] →
    (headCmd s.b id = some c →
      (c.headOther = false → exec (.hoistOnDemand id) s = .next s) ∧
      (c.headOther = true → usesHoist c = true → cmdGenStatus s.b c = none → ∀ gh g, findGroup s.b (fGid c) = some (gh, g) → g.gen = fGen c →
        let key := keyOf s.b s.mem c
        findHoist s.b key = none → (∀ k ∈ s.b.compiles, sameKey k.hoist key = false) →
        (halvingOk key.opcode (if key.pin = 5 then 4 else key.pin) g.n = false →
          ∃ t, exec (.hoistOnDemand id) s = .next t ∧ EndedWith t.b id 0x61 0) ∧
        (halvingOk key.opcode (if key.pin = 5 then 4 else key.pin) g.n = true →
          (∀ st, st ≠ 0 → installFor s.b gh key id.f false = .inl st → ∃ t, exec (.hoistOnDemand id) s = .next t ∧ EndedWith t.b id st 0) ∧
          ∀ k b', installFor s.b gh key id.f false = .inr (k, b') →
            exec (.hoistOnDemand id) s = .next (commit s (seekHalyards b' gh k id false))))) ∧
    (findCmd s.b id = some c → c.phase = .accepted → c.headOther = true → namesGroup c = true → fnLive s.b id.f = true →
      ∀ h g, findGroup s.b (fGid c) = some (h, g) → g.gen < fGen c →
        (g.timeout ≠ 0 → c.waitBeat + g.timeout ≤ s.b.beat.count →
          ∃ t, exec (.generationWaitTimeout id) s = .next t ∧ EndedWith t.b id 0x22 0 ∧ t.b.t = s.b.t ∧ t.mem = s.mem) ∧
        (g.timeout = 0 ∨ s.b.beat.count < c.waitBeat + g.timeout → exec (.generationWaitTimeout id) s = .next s))

/-- STEP_TIMEOUT of a collective whose step has waited for STEP_TIMEOUT beats breaks its generation: cause MEMBER_SLOW, the lowest rank among
the other engines' members whose cells are missing, stamped with this beat; no other group entry changes. Before that it does nothing. -/
def Obligations.SlowMembersBreakGroups : Prop :=
  ∀ (id : CmdId) (c : Cmd) (missing : List Nat) (s : State), awake s.b = true → s.b.stores = [] → findCmd s.b id = some c →
    hasPeers c = true → c.effectDone = false → ∀ h g, findGroup s.b (fGid c) = some (h, g) → tget group0 s.b.t.group h = g →
    let late := missing.filter fun r => decide (r < g.n) && slotEp (tget 0 s.b.t.roster (g.base + r)) != selfEp s.b
    (g.gen = fGen c → g.state = 1 → g.timeout ≠ 0 → c.dispBeat + g.timeout ≤ s.b.beat.count → late ≠ [] →
      ∃ t, exec (.stepTimeout id missing) s = .next t ∧
        t.b.t.group = tput h { g with state := 2, brokenCause := 2, brokenRank := min 8191 (late.foldl min 8191)
                                      events := g.events ++ [(2, late.foldl min 8191, s.b.beat.count)] } s.b.t.group ∧
        t.b.t.hoist = s.b.t.hoist ∧ t.b.t.dir = s.b.t.dir ∧ t.b.t.route = s.b.t.route ∧ t.b.beat = s.b.beat ∧ t.b.ctl = s.b.ctl ∧ t.b.tiles = s.b.tiles) ∧
    (g.gen ≠ fGen c ∨ g.state ≠ 1 ∨ g.timeout = 0 ∨ s.b.beat.count < c.dispBeat + g.timeout ∨ late = [] →
      exec (.stepTimeout id missing) s = .next s)

/-- AUTO_REFORM of a broken group, in the dip window of the third beat after its earliest break or later: the re-formation falls due when
AUTO_REFORM permits every cause of that beat, enough members are left and the generation has a successor; otherwise the entry stays as it
is. Outside that time it does nothing.
The model's choices: logs 15 and 68. -/
def Obligations.ReformationFallsDue : Prop :=
  ∀ (gid h : Nat) (g : Group) (s : State), awake s.b = true → s.b.stores = [] → findGroup s.b gid = some (h, g) → gid ∉ s.b.due.reforms →
    let d0 := (g.events.map (·.2.2)).foldl min ((g.events.headD (0, 0, 0)).2.2)
    let first := g.events.filter fun e => e.2.2 == d0
    let left := ((rosterOf s.b g).zipIdx.filter fun x => !(first.map (·.2.1)).contains x.2).length
    let may := (∀ e ∈ first, permits g.autoReform e.1 = true) ∧ g.minMembers ≤ left ∧ left ≠ 0 ∧ g.gen ≠ 0xFFFFFFFF
    let time := g.state = 2 ∧ g.events ≠ [] ∧ s.b.beat.inDip = true ∧ d0 + 3 ≤ s.b.beat.count
    (time → may → exec (.autoReform gid) s = .next { s with b := { s.b with due := { s.b.due with reforms := s.b.due.reforms ++ [gid] } } }) ∧
    (time → ¬ may → ∃ t, exec (.autoReform gid) s = .next t ∧ t.b = { s.b with fns := t.b.fns, memp := t.b.memp }) ∧
    (¬ time → exec (.autoReform gid) s = .next s)

/-- A fly of a running command whose chunk is ready and whose function's records are durable raises its pennant by one, counts as one more
fly, and sets the function's APPLIED_LSN to its record's LSN; before that it does nothing. A stream's fly raises the stream's pennant by one and
sets APPLIED_LSN in the same way.
The model's choices: log 5. -/
def Obligations.FliesAreRaised : Prop :=
  ∀ (s : State), awake s.b = true → s.b.stores = [] →
    (∀ id c, findCmd s.b id = some c → c.phase = .running → flFly c = true → fnLive s.b id.f = true →
      (c.flies < c.ready → allDurable s.b id.f = true →
        ∃ t c', exec (.fly (.cmd id)) s = .next t ∧ findCmd t.b id = some c' ∧ c'.flies = c.flies + 1 ∧
          (getFn t.b id.f).appliedLsn = (getFn s.b id.f).head ∧
          (fFlyMode c = 1 ∨ fFlyMode c = 3 → ∀ p, penIdx s.b id.f (fFlyPen c) = some p → (getPen t.b p).value = (getPen s.b p).value + 1)) ∧
      (c.ready ≤ c.flies ∨ allDurable s.b id.f = false → exec (.fly (.cmd id)) s = .next s)) ∧
    (∀ f n, fnLive s.b f = true →
      (allDurable s.b f = true → slotReady s.b (getStr s.b f n) = true →
        ∃ t, exec (.fly (.stream f n)) s = .next t ∧ (getFn t.b f).appliedLsn = (getFn s.b f).head ∧
          ∀ p, penIdx s.b f (getStr s.b f n).flyPen = some p → (getPen t.b p).value = (getPen s.b p).value + 1) ∧
      (allDurable s.b f = false ∨ slotReady s.b (getStr s.b f n) = false → exec (.fly (.stream f n)) s = .next s))

/-- A command that may complete, in its queue's order and with its records durable, writes its COMPLETE record in the logbook line at the
head and its completion record in the ring slot of its number, with STATUS, RESULT and SAT_TILES; PRODUCED goes up by one and the command is gone. In a full ring
the record waits. A command that may not complete yet does nothing. Stated where the logbook has room and no queue or function waits for the completion.
The model's choices: logs 3 and 5. -/
def Obligations.CompletionsAreWritten : Prop :=
  ∀ (id : CmdId) (c : Cmd) (s : State), awake s.b = true → s.b.stores = [] → findCmd s.b id = some c →
    let n := getFn s.b id.f
    let num := n.produced % 2 ^ 48
    let word0 := mk [(60, 57, id.q), (55, 48, opOf c), (47, 40, c.status), (32, 32, c.flags), (33, 33, c.flags / 2), (35, 35, c.flags / 8),
      (36, 36, b2n (flUnordered c)), (31, 0, tagOf c)]
    let record := ringBytes n num [word0, c.result, c.satTiles % 2 ^ 64, c.satTiles / 2 ^ 64]
    let complete := logRecord n 4 0 id.q id.rseq (word0 % 2 ^ 32) num ((List.range 4).map fun i => leAt record (8 * i) 8) []
    (mayComplete s.b c = false → exec (.completion id) s = .next s) ∧
    (mayComplete s.b c = true → n.cqEn = true → liveLines s.b id.f + 33 ≤ logFree s.b id.f → NothingSettles s.b →
      n.logBase % 64 = 0 → n.cqBase % 64 = 0 →
      (n.ringWait = [] → n.produced - n.consumed < 2 ^ n.cqLog2 →
        ∃ t, exec (.completion id) s = .next t ∧ findCmd t.b id = none ∧ (getFn t.b id.f).produced = n.produced + 1 ∧
          (getFn t.b id.f).head = n.head + 1 ∧ t.b.pens = s.b.pens ∧ t.b.t.group = s.b.t.group ∧ t.b.t.stream = s.b.t.stream ∧
          t.mem = applyStores s.mem [(fnKey s.b id.f 0 (lineAddr n n.head), complete),
            (fnKey s.b id.f 0 (n.cqBase + 32 * (num % 2 ^ n.cqLog2)), record)]) ∧
      (n.ringWait ≠ [] ∨ 2 ^ n.cqLog2 ≤ n.produced - n.consumed → n.full = true →
        ∃ t, exec (.completion id) s = .next t ∧ findCmd t.b id = some c ∧ t.mem = s.mem ∧ (getFn t.b id.f).produced = n.produced ∧
          (getFn t.b id.f).ringWait = n.ringWait ++ [{ w := completionWords c, cmd := some id }]))

/-- CQ_DELAY signals the completion vector once when records have waited unsignalled: the count last signalled takes the value of PRODUCED, and
a masked vector is left pending. With nothing unsignalled, CQ_EN or CQ_DELAY 0, it does nothing.
The model's choices: log 4. -/
def Obligations.CqDelaySignals : Prop :=
  ∀ (f : Nat) (s : State), awake s.b = true → s.b.stores = [] → fnLive s.b f = true →
    let n := getFn s.b f
    let vec := fld n.irqCfg.toNat 62 58
    let due := tb n.irqCfg.toNat 63 = true ∧ n.irqA < n.produced ∧ fld n.irqCfg.toNat 31 16 ≠ 0
    (due → ∃ t, exec (.cqDelay f) s = .next t ∧ (getFn t.b f).irqA = n.produced ∧ t = { s with b := { s.b with fns := t.b.fns, memp := t.b.memp } } ∧
      ((tget msi0 n.msi vec).mask = true → (tget msi0 (getFn t.b f).msi vec).pend = true ∧ t.b.memp = s.b.memp) ∧
      ((tget msi0 n.msi vec).mask = false → ∀ p, portFrom s.b s.b.ctl.msiPort = some p → t.b.memp = s.b.memp.modify p fun pt => startMem { pt with
        wrWait := pt.wrWait ++ [{ tag := 0, bytes := [(memKey 0 (tget msi0 n.msi vec).addr, leBytes (tget msi0 n.msi vec).data 4)], puts := 1
                                  msi := true, use := .msi f vec }] })) ∧
    (¬ due → exec (.cqDelay f) s = .next s)

/-! ### Commands that move and combine data -/

/-- A running collective, at a member that no access fails: the counts it learns are written to RCOUNTS, its result to DST from the first byte
whose fly is not raised, its error feedback to EFB, and no other byte of memory changes; it stands with every chunk ready for its fly and the
status OK, OK_SPLIT or OK_SAT, and it ends there unless flies or acknowledgements are outstanding. A result that R65 or R90 turns away ends it with that
status and nothing but RCOUNTS written. Groups, hoists, pennants and registers stay.
The model's choices: logs 3, 5 and 26. -/
def Obligations.CollectivesComplete : Prop :=
  ∀ row ∈ ([(.allreduce, 0x10), (.reduceScatter, 0x11), (.allgather, 0x12), (.broadcast, 0x13), (.reduce, 0x14), (.gather, 0x15), (.scatter, 0x16),
      (.alltoall, 0x17), (.alltoallv, 0x18), (.barrier, 0x19), (.topkGather, 0x1A)] : List ((CmdId → CollEnv → Instr) × Nat)),
  ∀ (id : CmdId) (env : CollEnv) (c : Cmd) (s : State) (gh : Nat) (g : Group) (hn : Nat), awake s.b = true → s.b.stores = [] →
    RunsNow s.b id row.2 c → c.waitOn = none → findGroup s.b (fGid c) = some (gh, g) → c.handle = some hn → env.fault = none →
    let h := getHoist s.b hn
    let o := collHere s.b s.mem c g h env
    let done := c.flies * 2 ^ h.chunkLog2
    let counts := match o.rcounts with | some x => if fRcounts c = 0 then [] else (fnStore s.b id.f 0 (fRcounts c) x).stores | none => []
    let dst := match o.dst with | some x => (fnStore s.b id.f (fSpaceB c) (fDst c + done) (x.drop done)).stores | none => []
    let efb := match o.efb with | some x => (fnStore s.b id.f 0 (fEfb c) x).stores | none => []
    let n := if row.2 = 0x19 then 1 else match o.dst with | some d => cdiv d.length (2 ^ h.chunkLog2) | none => 0
    let status := if o.satChunks ≠ [] then 2 else if c.split = true then 1 else 0
    ∃ t c', exec (row.1 id env) s = .next t ∧ findCmd t.b id = some c' ∧
      t.b = { s.b with fns := t.b.fns, cmds := t.b.cmds, ports := t.b.ports, fab := t.b.fab, d2d := t.b.d2d, tiles := t.b.tiles, fresh := t.b.fresh } ∧
      (o.satOwn = false → t.b.tiles = s.b.tiles ∧ t.b.fresh = s.b.fresh ∧ c'.satTiles = 0) ∧
      (∀ st, o.fail = some st → c'.phase = .ended ∧ c'.status = st ∧ t.mem = applyStores s.mem counts) ∧
      (o.fail = none → t.mem = applyStores s.mem (counts ++ dst ++ efb) ∧ c'.effectDone = true ∧ c'.chunks = n ∧ c'.ready = n ∧ c'.status = status ∧
        (c'.phase = .ended ↔ (flFly c = false ∨ c.flies = n) ∧ c.sent ≤ c.acked))

/-- Operations that only move data copy bits: of an element of w bytes, ALLGATHER and, at the root, GATHER give every member's SRC in rank order,
BROADCAST gives the root's SRC, SCATTER this member's segment of the root's SRC, ALLTOALL this member's segment of every member's SRC in rank order; a
member other than the root of GATHER writes nothing. ALLTOALLV gives what every rank counted for this one, in rank order, where it fits.
The model's choices: log 26. -/
def Obligations.MovesCopyBits : Prop :=
  ∀ (k : Coll) (r topk cap : Nat) (src : List Byte) (counts : List Nat) (pre efb : Option (List Byte)) (env : CollEnv),
    isScaled k.f = false →
    let w := elemBits k.f / 8
    let buf := fun i => if i = r then src else env.xs.getD i []
    let cnt := fun i => if i = r then counts else env.counts.getD i []
    let all := List.range k.N
    let res := (collOut k r topk cap false src counts pre efb env).dst
    let sum := fun (l : List Nat) => l.foldl (· + ·) 0
    (k.opc = 0x12 ∨ k.opc = 0x15 ∧ r = k.root → res = some ((all.map fun j => slice (buf j) 0 (k.n * w)).flatten)) ∧
    (k.opc = 0x15 ∧ r ≠ k.root → res = none) ∧
    (k.opc = 0x13 → res = some (slice (buf k.root) 0 (k.n * w))) ∧
    (k.opc = 0x16 → res = some (slice (slice (buf k.root) (r * bytesOf k.f k.n) (bytesOf k.f k.n)) 0 (k.n * w))) ∧
    (k.opc = 0x17 → res = some ((all.map fun j => slice (slice (buf j) (r * bytesOf k.f k.n) (bytesOf k.f k.n)) 0 (k.n * w)).flatten)) ∧
    (k.opc = 0x19 → res = none) ∧
    (k.opc = 0x18 → sum (all.map fun j => (cnt j).getD r 0) ≤ cap →
      res = some ((all.map fun j => slice (buf j) (sum ((cnt j).take r) * w) ((cnt j).getD r 0 * w)).flatten)) ∧
    (k.opc = 0x18 → cap < sum (all.map fun j => (cnt j).getD r 0) →
      res = none ∧ (collOut k r topk cap false src counts pre efb env).fail = some 0x31)

/-- PUT, PUT_SIGNAL and MEM_ATOMIC at their issuer read LEN bytes (n elements) and send them, chunk by chunk, and GET sends one request for each
chunk: memory is unchanged, every packet is kept for the target until it is acknowledged, and the command has its chunks to acknowledge. A PUT_SIGNAL
without remote flies sends its signal behind its data; with remote flies no command has sent everything yet. MEM_ATOMIC carries NONDET.
The model's choices: logs 3 and 72. -/
def Obligations.PointToPointSends : Prop :=
  ∀ (id : CmdId) (c : Cmd) (s : State), awake s.b = true → s.b.stores = [] → c.chunks = 0 →
    let C := chunkOf s.b c
    let kept := fun b : Blk => (getDst b (targetEp s.b c)).unacked.length + (getDst b (targetEp s.b c)).waiting.length
    let data := fun type => (p2pPkts s.b c type (fnRead s.b s.mem id.f (fSpaceA c) (fLocal c) (p2pBytes c))).length
    (∀ row ∈ ([(.put, 0x30, 1), (.putSignal, 0x32, 1), (.memAtomic, 0x33, 5)] : List ((CmdId → Option AccFault → Instr) × Nat × Nat)),
      RunsNow s.b id row.2.1 c → ∃ t c', exec (row.1 id none) s = .next t ∧ findCmd t.b id = some c' ∧ t.mem = s.mem ∧
        t.b = { s.b with fns := t.b.fns, cmds := t.b.cmds, fab := t.b.fab, ports := t.b.ports } ∧
        c'.phase = .running ∧ c'.chunks = cdiv (p2pBytes c) C ∧ c'.flags % 2 = b2n (row.2.1 == 0x33) ∧ kept t.b + c.sent = kept s.b + c'.sent ∧
        c'.sent = c.sent + data row.2.2 + (if row.2.1 = 0x32 ∧ flRfly c = false then 1 else 0) ∧
        (flRfly c = false → c'.effectDone = true) ∧ (flRfly c = true → c'.effectDone = false ∧ c'.rflies = c.rflies)) ∧
    (RunsNow s.b id 0x31 c → ∃ t c', exec (.get id none) s = .next t ∧ findCmd t.b id = some c' ∧ t.mem = s.mem ∧
      t.b = { s.b with fns := t.b.fns, cmds := t.b.cmds, fab := t.b.fab, ports := t.b.ports } ∧
      c'.phase = .running ∧ c'.chunks = cdiv (fLen c) C ∧ c'.gotten = List.replicate (cdiv (fLen c) C) 0 ∧ c'.sent = c.sent + cdiv (fLen c) C ∧
      kept t.b + c.sent = kept s.b + c'.sent)

/-- PENNANT SET writes its operand and ADD adds it modulo 2^64; each counts one more operation and records its source, ends OK with the value after it
and sets APPLIED_LSN, and no other pennant changes. WAIT at the head of its queue ends OK with the value where its condition holds already; else it
registers, which changes WAITERS alone. A pennant that is not mapped ends each of them FAULT_ACCESS.
The model's choices: log 5. -/
def Obligations.PennantsOperate : Prop :=
  ∀ (id : CmdId) (c : Cmd) (s : State), awake s.b = true → s.b.stores = [] → c.waitOn = none →
    (∀ row ∈ ([(.pennantSet, 0), (.pennantAdd, 1)] : List ((CmdId → Instr) × Nat)), RunsNow s.b id 0x34 c → fPenOp c = row.2 → allDurable s.b id.f = true →
      (penIdx s.b id.f (fPen c) = none → ∃ t, exec (row.1 id) s = .next t ∧ EndedWith t.b id 0x31 0) ∧
      ∀ p, penIdx s.b id.f (fPen c) = some p →
        let old := getPen s.b p
        let v := if row.2 = 1 then old.value + BitVec.ofNat 64 (fPenValue c) else BitVec.ofNat 64 (fPenValue c)
        ∃ t w, exec (row.1 id) s = .next t ∧ EndedWith t.b id 0 v.toNat ∧ (getFn t.b id.f).appliedLsn = (getFn s.b id.f).head ∧
          getPen t.b p = { old with value := v, sigCount := (old.sigCount + 1) % 2 ^ 48, lastEp := selfEp s.b, lastFn := id.f, lastKind := 1
                                    lastTag := tagOf c % 2 ^ 32, waiters := w } ∧
          ∀ k, k ≠ p → getPen t.b k = getPen s.b k) ∧
    (headCmd s.b id = some c → opOf c = 0x34 → fPenOp c = 2 → flWait c = false ∨ c.waitDone = true →
      (penIdx s.b id.f (fPen c) = none → ∃ t, exec (.pennantWait id) s = .next t ∧ EndedWith t.b id 0x31 0) ∧
      ∀ p, penIdx s.b id.f (fPen c) = some p →
        (condHolds (fPenForm c) (fPenValue c) (fPenMask c) (getPen s.b p).value.toNat = true →
          ∃ t, exec (.pennantWait id) s = .next t ∧ EndedWith t.b id 0 (getPen s.b p).value.toNat ∧ t.b.pens = s.b.pens ∧ t.mem = s.mem) ∧
        (condHolds (fPenForm c) (fPenValue c) (fPenMask c) (getPen s.b p).value.toNat = false →
          ∃ t, exec (.pennantWait id) s = .next t ∧ findCmd t.b id = some { c with waitOn := some p, phase := .running } ∧
            t = { s with b := { s.b with cmds := t.b.cmds, pens := t.b.pens } } ∧
            getPen t.b p = { getPen s.b p with waiters := (getPen s.b p).waiters + 1 } ∧ ∀ k, k ≠ p → getPen t.b k = getPen s.b k))

/-- STREAM_OPEN and STAGE_AHEAD that pass their checks install an ACTIVE entry with their fields, nothing delivered and no fly raised, and end OK with
the bytes V of the stream; else they end REJECTED_FORMAT, or FAULT_ACCESS without their pennants. STREAM_RESUME takes a FAULTED entry back to
ACTIVE and ends OK with the bytes delivered. STREAM_CLOSE FINISH frees an entry that is DONE or in ERROR, waits for an ACTIVE one, and ends
REJECTED_FORMAT on any other; ABORT frees any entry in use. Both end OK with its flies.
The model's choices: log 69. -/
def Obligations.StreamsOpenAndClose : Prop :=
  ∀ (id : CmdId) (c : Cmd) (s : State), awake s.b = true → s.b.stores = [] → c.waitOn = none →
    let e := getStr s.b id.f (fStream c)
    (∀ row ∈ ([(.streamOpen, 0x40), (.stageAhead, 0x41)] : List ((CmdId → Instr) × Nat)), RunsNow s.b id row.2 c →
      (openOk s.b c = false ∨ ringOverlap s.b c = true → ∃ t, exec (row.1 id) s = .next t ∧ EndedWith t.b id 0x61 0 ∧ t.b.t = s.b.t) ∧
      (openOk s.b c = true → ringOverlap s.b c = false → (penMapped s.b id.f (fFlyPen c) = false ∨ penMapped s.b id.f (fCreditPen c) = false) →
        ∃ t, exec (row.1 id) s = .next t ∧ EndedWith t.b id 0x31 0 ∧ t.b.t = s.b.t) ∧
      (openOk s.b c = true → ringOverlap s.b c = false → penMapped s.b id.f (fFlyPen c) = true → penMapped s.b id.f (fCreditPen c) = true →
        ∃ t, exec (row.1 id) s = .next t ∧
          let n := getStr t.b id.f (fStream c)
          EndedWith t.b id 0 (strV t.b n) ∧ n.valid = true ∧ n.state = 1 ∧ n.flies = 0 ∧ n.delivered = 0 ∧ n.queue = id.q ∧ n.tag = tagOf c ∧
          n.srcSpace = fSpaceA c ∧ n.srcBase = fSrcBase c ∧ n.dstSpace = fSpaceB c ∧ n.dstBase = fDstBase c ∧ n.slotLog2 = fSlotLog2 c ∧ n.nslots = fNslots c ∧
          n.len0 = fLen0 c ∧ n.counts = fCounts c ∧ n.strides = fStrides c ∧ n.flyPen = fFlyPen c ∧ n.creditPen = fCreditPen c ∧ n.sharded = fSharded c ∧
          n.openId = (id.q, id.rseq) ∧ (row.2 = 0x41 → n.follows = fFollows c) ∧
          t = { s with b := { s.b with cmds := t.b.cmds, t := { s.b.t with stream := t.b.t.stream } } })) ∧
    (RunsNow s.b id 0x42 c →
      (e.valid = true ∧ e.state = 2 → ∃ t, exec (.streamResume id) s = .next t ∧ EndedWith t.b id 0 e.delivered ∧
        getStr t.b id.f (fStream c) = { e with state := 1, staged := 0, fault := 0 } ∧
        t = { s with b := { s.b with cmds := t.b.cmds, t := { s.b.t with stream := t.b.t.stream } } }) ∧
      (¬ (e.valid = true ∧ e.state = 2) → ∃ t, exec (.streamResume id) s = .next t ∧ EndedWith t.b id 0x61 0 ∧ t.b.t = s.b.t)) ∧
    (RunsNow s.b id 0x43 c → fCloseAbort c = false →
      (e.valid = true → e.state = 3 ∨ e.state = 4 → ∃ t, exec (.streamCloseFinish id) s = .next t ∧
        EndedWith t.b id 0 e.flies ∧ (twf stream0 s.b.t.stream = true → (getStr t.b id.f (fStream c)).valid = false) ∧ t.mem = s.mem) ∧
      (e.valid = true → e.state = 1 → exec (.streamCloseFinish id) s = .next s) ∧
      (e.valid = false ∨ e.state = 2 → ∃ t, exec (.streamCloseFinish id) s = .next t ∧ EndedWith t.b id 0x61 0 ∧ t.b.t = s.b.t)) ∧
    (RunsNow s.b id 0x43 c → fCloseAbort c = true →
      (e.valid = true → ∃ t, exec (.streamCloseAbort id) s = .next t ∧ EndedWith t.b id 0 e.flies ∧ (twf stream0 s.b.t.stream = true → (getStr t.b id.f (fStream c)).valid = false) ∧ t.mem = s.mem) ∧
      (e.valid = false → ∃ t, exec (.streamCloseAbort id) s = .next t ∧ EndedWith t.b id 0x61 0 ∧ t.b.t = s.b.t))

/-- A tile in service takes the most urgent eligible piece: of this member's own shard, with every translation kept, its bytes are in the slot ring at
once, no other byte changes, and the stream has delivered that much more; a translation it lacks is asked for, and a remote shard's bytes are
requested. Without an eligible stream nothing happens.
The model's choices: logs 3 and 69. -/
def Obligations.PiecesAreMoved : Prop :=
  ∀ (tile f n : Nat) (e : Machine.Stream) (s : State), awake s.b = true → s.b.stores = [] → tileUp s.b tile = true → n < 64 → e.valid = true →
    let x := e.delivered
    let own := e.sharded = false ∨ x / max 1 (strZ e) = e.rank
    let k := if e.sharded = true then min (pieceLen s.b f e) (strZ e - x % max 1 (strZ e)) else pieceLen s.b f e
    (nextStream s.b = none → exec (.streamPiece tile) s = .next s) ∧
    (nextStream s.b = some (f * 64 + n, e) → getStr s.b f n = e →
      (own → missingXl s.b f (pieceNeeds e x k true) = [] →
        ∃ t, exec (.streamPiece tile) s = .next t ∧ getStr t.b f n = { e with delivered := x + k } ∧ t.b.cmds = s.b.cmds ∧ t.b.pens = s.b.pens ∧
          t.mem = applyStores s.mem (fnStore s.b f e.dstSpace (dstAddr e x) (pieceData s.b s.mem f e x k)).stores) ∧
      (own → ∀ y a w rest, missingXl s.b f (pieceNeeds e x k true) = (y, a, w) :: rest →
        exec (.streamPiece tile) s = .next { s with b := needXl s.b f a w (.stream f n a) }) ∧
      (¬ own → missingXl s.b f (pieceNeeds e x k false) = [] →
        ∃ t, exec (.streamPiece tile) s = .next t ∧ getStr t.b f n = { e with staged := k } ∧ t.mem = s.mem ∧ t.b.cmds = s.b.cmds ∧ t.b.pens = s.b.pens))

/-! ### Queues and functions -/

/-- STRIKE ends the accepted command of the queue and TAG it names with STRUCK (RESULT 1), and answers 0 where it finds none and 2 where the status is
decided or can no longer be changed. QUEUE_SHUTDOWN takes a queue that still has commands out of OPEN, and ends with ABORTED every one whose status is not
decided; on a CLOSED or SHUT queue it ends at once. FUNCTION_ENABLE resets the page, advances EPOCH, and writes the anchor and the
ENABLE record. FUNCTION_DISABLE ends with ABORTED what waits in its OPEN queues, and ends at once where the function is 0, disabled or fenced.
The model's choices: log 69. -/
def Obligations.QueuesAreControlled : Prop :=
  ∀ (id : CmdId) (c : Cmd) (s : State), awake s.b = true → s.b.stores = [] → c.waitOn = none →
    let f := fFn c
    let q := fQ c
    let n := getFn s.b f
    (AcceptedNow s.b id 0x50 c →
      ∀ hit, hit = (s.b.cmds.find? fun d => d.id.f == f && d.id.q == q && tagOf d == fTtag c && !decide (d.id = id) && !decide (d.phase = .taken)) →
      (hit = none → ∃ t, exec (.strike id) s = .next t ∧ EndedWith t.b id 0 0) ∧
      ∀ d, hit = some d → findCmd s.b d.id = some d →
        (d.phase = .ended ∨ tooLate s.b d = true ∨ (getFn s.b d.id.f).fenced = true → ∃ t, exec (.strike id) s = .next t ∧ EndedWith t.b id 0 2) ∧
        (d.phase ≠ .ended → tooLate s.b d = false → (getFn s.b d.id.f).fenced = false →
          ∃ t r, exec (.strike id) s = .next t ∧ EndedWith t.b id 0 1 ∧ EndedWith t.b d.id 0x11 r)) ∧
    (AcceptedNow s.b id 0x51 c →
      ((getQ s.b f q).state = 0 ∨ (getQ s.b f q).state = 3 → ∃ t, exec (.queueShutdown id) s = .next t ∧ EndedWith t.b id 0 0) ∧
      ((getQ s.b f q).state = 1 ∨ (getQ s.b f q).state = 2 → n.enabled = true → (∃ d ∈ s.b.cmds, d.id.f = f ∧ d.id.q = q) →
        ∃ t, exec (.queueShutdown id) s = .next t ∧ (getQ t.b f q).state ≠ 1 ∧
          ((getQ s.b f q).state = 1 → ∀ d ∈ endable s.b f q id, findCmd s.b d.id = some d → ∃ r, EndedWith t.b d.id 0x10 r))) ∧
    (AcceptedNow s.b id 0x80 c → enableFieldsOk c = true →
      (s.b.cmds.any fun d => opOf d == 0x81 && fFn d == f && !decide (d.phase = .taken)) = false → n.disabling = false →
      (n.enabled = true → ∃ t, exec (.functionEnable id) s = .next t ∧ EndedWith t.b id 0x61 0) ∧
      (n.enabled = false → 4096 < poolUse s.b + pbits c 2 4 0 → ∃ t, exec (.functionEnable id) s = .next t ∧ EndedWith t.b id 0x60 0) ∧
      (n.enabled = false → poolUse s.b + pbits c 2 4 0 ≤ 4096 →
        let p := { fn0 with enabled := true, nq := pbits c 2 4 0, groupQuota := pf c 16 2, rosterQuota := pf c 20 4, stagingQuota := pf c 24 2
                            context := pf c 4 4, d2dMask := pbits c 26 3 0, logBase := pf c 8 8, logLog2 := pbits c 3 5 0
                            epoch := (n.epoch + 1) % 2 ^ 32, keyEpoch := 1, irqCfg := n.irqCfg, msi := n.msi, head := 1, moved := true }
        ∃ t, exec (.functionEnable id) s = .next t ∧ EndedWith t.b id 0 p.epoch ∧ getFn t.b f = p ∧
          t.mem = applyStores s.mem [(memKey 0 (translate s.b (pf c 4 4) (pf c 8 8)), anchorBytes p f 0),
            (memKey 0 (translate s.b (pf c 4 4) (pf c 8 8 + 64)),
              logRecord { p with head := 0 } 6 0 0 0 0 0 [p.nq % 32, p.groupQuota % 2 ^ 15, p.rosterQuota % 2 ^ 21, p.stagingQuota % 2 ^ 13] [])])) ∧
    (RunsNow s.b id 0x81 c →
      (f = 0 ∨ n.enabled = false → ∃ t, exec (.functionDisable id) s = .next t ∧ EndedWith t.b id 0x61 0) ∧
      (f ≠ 0 → n.enabled = true → n.fenced = true → ∃ t, exec (.functionDisable id) s = .next t ∧ EndedWith t.b id 0x50 0) ∧
      (f ≠ 0 → n.enabled = true → n.fenced = false → n.disabling = false → ∃ t, exec (.functionDisable id) s = .next t ∧
        ∀ d, findCmd s.b d.id = some d → d.id.f = f → d.id.q < n.nq → (getQ s.b f d.id.q).state = 1 → d.phase = .accepted → d.sigSent = false →
          d.applied = none → d.id ≠ id → ∃ r, EndedWith t.b d.id 0x10 r))

/-! ### Management commands -/

/-- Management commands that pass their checks write APPLIED and stand staged with their result and what is reserved for them; nothing they change
is in force yet. PENNANT_MAP reserves the lowest free blocks and gives the first, UNMAP holds the blocks of its pages, GROUP_CREATE gives its group
entry, GROUP_REFORM the entry and the generation, HOIST_COMPILE and HOIST_INSTALL, once their halyards stand or are done without, their handle;
POWER_POLICY the cap. A command whose fields, tables or room do not serve ends REJECTED_FORMAT, REJECTED_RESOURCE, ABORTED or FAULT_ACCESS.
The model's choices: logs 41, 51 and 75. -/
def Obligations.ChangesAreStaged : Prop :=
  ∀ (id : CmdId) (c : Cmd) (s : State), awake s.b = true → s.b.stores = [] →
    let gid := pf c 0 4
    let slots := gcRoster s.b s.mem c
    let n := fld (pf c 8 2) 13 0
    let ends := fun (i : Instr) (st : Nat) => ∃ t, exec i s = .next t ∧ EndedWith t.b id st 0
    let staged := fun (i : Instr) (r : Nat) (held : List Nat) => ∃ t, exec i s = .next t ∧ StagedWith s.b t.b id r held ∧ t.mem = s.mem
    (RunsNow s.b id 0x82 c → pf c 3 1 ≠ 1 →
      (pmBad s.b c = true → ends (.pennantMap id) 0x61) ∧
      (pmBad s.b c = false → (freeBlocks s.b (pf c 4 2)).length < pf c 4 2 → ends (.pennantMap id) 0x60) ∧
      (pmBad s.b c = false → pf c 4 2 ≤ (freeBlocks s.b (pf c 4 2)).length →
        staged (.pennantMap id) ((freeBlocks s.b (pf c 4 2)).headD 0) (freeBlocks s.b (pf c 4 2)))) ∧
    (RunsNow s.b id 0x82 c → pf c 3 1 = 1 →
      (pmBad s.b c = true → ends (.unmap id) 0x61) ∧
      (pmBad s.b c = false → staged (.unmap id) 0 ((pmPages c).map fun p => fld (tget 0 s.b.t.dir (fFn c * 256 + p)) 9 0))) ∧
    (RunsNow s.b id 0x83 c →
      let min' := fld (pf c 10 2) 13 0
      let fields := gidHeld s.b gid = false ∧ pf c 4 4 ≠ 0 ∧ min' ≠ 0 ∧ min' ≤ n ∧ pbits c 14 1 0 ≠ 3 ∧ n ≤ 8192
      (¬ fields → ends (.groupCreate id none) 0x61) ∧ (fields → rosterOk s.b slots = false → ends (.groupCreate id none) 0x61) ∧
      (fields → rosterOk s.b slots = true → quotaOk s.b slots none = false → ends (.groupCreate id none) 0x60) ∧
      (fields → rosterOk s.b slots = true → quotaOk s.b slots none = true → ∀ h base b', freeGroup s.b = some h → takeRun s.b n = some (base, b') →
        staged (.groupCreate id none) h [h, base])) ∧
    (RunsNow s.b id 0x84 c →
      (findGroup s.b gid = none → ends (.groupReform id none) 0x31) ∧
      ∀ h g, findGroup s.b gid = some (h, g) →
        let fields := g.gen < pf c 4 4 ∧ n ≠ 0 ∧ n ≤ 8192 ∧ rosterOk s.b slots = true
        let room := quotaOk s.b slots (some g) = true ∧ usedSlots s.b + n ≤ rosterSize + g.n + g.derivedM
        (groupPhase s.b gid g = 5 → ends (.groupReform id none) 0x10) ∧
        (groupPhase s.b gid g ≠ 5 → groupPhase s.b gid g ≠ 3 →
          (¬ fields → ends (.groupReform id none) 0x61) ∧ (fields → ¬ room → ends (.groupReform id none) 0x60) ∧
          (fields → room → staged (.groupReform id none) (mk [(13, 0, h), (63, 32, pf c 4 4)]) [h]))) ∧
    (RunsNow s.b id 0x85 c →
      (findGroup s.b gid = none → ends (.groupDestroy id) 0x31) ∧
      ∀ h g, findGroup s.b gid = some (h, g) → groupPhase s.b gid g ≠ 5 → (∀ x ∈ stagedOf s.b 0x84, pf x.2 0 4 ≠ gid) → staged (.groupDestroy id) 0 [h]) ∧
    (RunsNow s.b id 0x88 c →
      let k := gid % 2 ^ 17
      ((getHoist s.b k).valid = false ∨ 98304 ≤ k → ends (.hoistRelease id) 0x61) ∧
      ((getHoist s.b k).valid = true → k < 98304 → staged (.hoistRelease id) 0 [k])) ∧
    (RunsNow s.b id 0x8B c →
      (ppBad s.b c = true → ends (.powerPolicy id) 0x61) ∧
      (ppBad s.b c = false → staged (.powerPolicy id) (if tb (pf c 2 1) 0 = true then pf c 0 2 else s.b.pwr.cap) [])) ∧
    (∀ row ∈ ([(.hoistCompile, 0x86), (fun id => .hoistInstall id none, 0x87)] : List ((CmdId → Instr) × Nat)), RunsNow s.b id row.2 c →
      ∀ k, c.handle = some k → s.b.compiles.any (fun x => x.handle == k) = false →
        ((getHoist s.b k).halyardOpt = 2 → (getHoist s.b k).beatAligned = true) → staged (row.1 id) (hoistResult k (getHoist s.b k)) [k]) ∧
    (RunsNow s.b id 0x86 c → c.handle = none → findGroup s.b gid = none → ends (.hoistCompile id) 0x61) ∧
    (RunsNow s.b id 0x86 c → c.handle = none → ∀ gh g, findGroup s.b gid = some (gh, g) →
      let o := pf c 12 1
      let x := compileKey c g
      let y := compile s.b g x
      hoistOpcode x.opcode = true → x.sizeClass ≤ 34 → x.halyardOpt = 1 → tb o 7 = false → tb (pf c 9 1) 5 = false → pf c 7 1 % 16 ≤ 10 →
      schedOk { x with alg := y.alg, inner := if tb x.kept 3 then x.inner else y.inner } g.n (enginesOf (rosterEps s.b g)).length = true →
      y.alg ≠ 5 → y.halyardOpt = 1 → ∀ k, handleFor s.b gh (tb o 2) = some k → s.b.compiles.any (fun x => x.handle == k) = false →
        ∃ t, exec (.hoistCompile id) s = .next t ∧ StagedWith s.b t.b id (hoistResult k y) [k] ∧
          getHoist t.b k = { y with valid := false, pinned := tb o 2, bound := 1 } ∧ t.mem = s.mem)

/-- TABLE_READ writes the entries of a known table as they stood at the beat's start, padded to whole lines; FN_ROTATE moves a function to its next key epoch once
nothing stands spilled under an older one; ATTEST writes the responder's answer where it fits; SELFTEST of units that all pass writes its report and ends OK
with the PASS bit; an unlisted opcode ends REJECTED_FORMAT.
The model's choices: logs 18, 24 and 27. -/
def Obligations.ManagementAnswers : Prop :=
  ∀ (id : CmdId) (c : Cmd) (s : State), awake s.b = true → s.b.stores = [] → c.waitOn = none →
    let writes := fun (i : Instr) (b : Blk) (r a : Nat) (bs : List Byte) => ∃ t, exec i s = .next t ∧ EndedWith t.b id 0 r ∧
      t.mem = applyStores s.mem (fnStore s.b id.f 0 a bs).stores ∧ t.b = { b with cmds := t.b.cmds }
    let ends := fun (i : Instr) (st r : Nat) => ∃ t, exec i s = .next t ∧ EndedWith t.b id st r ∧ t.mem = s.mem
    (RunsNow s.b id 0x8A c →
      let first := pf c 8 8
      let n := pf c 4 4
      (tableShape (pf c 0 1) = none → ends (.tableRead id none) 0x61 0) ∧
      ∀ m k, tableShape (pf c 0 1) = some (m, k) →
        (n = 0 ∨ 65536 < n ∨ k < first + n → ends (.tableRead id none) 0x61 0) ∧
        (n ≠ 0 → n ≤ 65536 → first + n ≤ k →
          let bs := (List.range n).flatMap fun i => tableEntry s.b (pf c 0 1) (first + i)
          writes (.tableRead id none) s.b n (pf c 16 8) (padTo (upTo bs.length 64) bs))) ∧
    (RunsNow s.b id 0x8C c → pf c 0 1 = 0 →
      let f := fld (pf c 2 2) 8 0
      let n := getFn s.b f
      (n.enabled = false → ends (.fnRotate id) 0x61 0) ∧
      (n.enabled = true → n.spill.any (fun u => u.epoch != n.keyEpoch) = true → exec (.fnRotate id) s = .next s) ∧
      (n.enabled = true → n.spill.any (fun u => u.epoch != n.keyEpoch) = false → ∃ t, exec (.fnRotate id) s = .next t ∧
        EndedWith t.b id 0 ((n.keyEpoch + 1) % 2 ^ 32) ∧ getFn t.b f = { n with keyEpoch := (n.keyEpoch + 1) % 2 ^ 32 } ∧
        t = { s with b := { s.b with fns := t.b.fns, cmds := t.b.cmds } })) ∧
    (RunsNow s.b id 0x8D c →
      let n := pf c 16 4
      let cap := pf c 20 4
      let req := fnRead s.b s.mem id.f 0 (pf c 0 8) n
      let rsp := Config.spdmResponse req s.b.fresh
      (n < 4 ∨ 65536 < n ∨ cap < 64 ∨ 65536 < cap → ends (.attest id none) 0x61 0) ∧
      (4 ≤ n → n ≤ 65536 → 64 ≤ cap → cap ≤ 65536 →
        let b := { s.b with fresh := s.b.fresh + 1, sec := { s.b.sec with hostSessions := Config.spdmSessions req s.b.sec.hostSessions } }
        (cap < rsp.length → ends (.attest id none) 0x60 rsp.length) ∧
        (rsp.length ≤ cap → writes (.attest id none) b rsp.length (pf c 8 8) rsp))) ∧
    (∀ tests, RunsNow s.b id 0x8E c →
      (testBad s.b c = true → ends (.selftest id tests none) 0x61 0) ∧
      (testBad s.b c = false → testSet c = 0 ∨ s.b.test.flashRel = false →
        let us := tests.filter (inScope s.b c)
        let time := ((us.map (·.us)).foldl (· + ·) 0) % 2 ^ 32
        (∀ u ∈ us, u.result = 0 ∧ restoreUnit s.b (if testScope c = 0 then testIndex c / 16 else testIndex c) u = none ∧
          (u.kind = 2 → (getP s.b u.index).state ≠ 2)) →
        writes (.selftest id tests none) s.b 1 (pf c 8 8) (testReport s.b c time
          { fenced := 0, restored := 0, repaired := 0, failed := false, unreplaced := false, recs := us.map (testRecord · 0) }))) ∧
    (AcceptedNow s.b id (opOf c) c → isUnlisted c = true → ends (.unlistedOpcode id) 0x61 0)

/-- LINK_SESSION and LINK_REKEY end REJECTED_FORMAT for a port that is absent or disabled and OK with the key epoch for a FENCED one; on a port that has
frames to be acknowledged or is not UP they stand as what the port waits for. ROUTE_UPDATE without entries ends OK; a valid one begins a drain of
what its entries change, another waits for a drain under way; the drain over, APPLIED is written with its beats. A drain that times out goes on
with FORCE and ends the command ABORTED without.
The model's choices: log 60. -/
def Obligations.LinksAndRoutesAreManaged : Prop :=
  ∀ (id : CmdId) (c : Cmd) (s : State), awake s.b = true → s.b.stores = [] → c.waitOn = none →
    let ends := fun (i : Instr) (st r : Nat) => ∃ t, exec i s = .next t ∧ EndedWith t.b id st r ∧ t.mem = s.mem
    (∀ row ∈ ([(.linkSession, 1), (.linkRekey, 2)] : List ((CmdId → Instr) × Nat)), RunsNow s.b id 0x8C c → pf c 0 1 = row.2 →
      let code := fld (pf c 1 1) 5 0
      let n := keyPort s.b c
      let p := getP s.b n
      (portExists s.b code = false ∨ p.enable = false → ends (row.1 id) 0x61 0) ∧
      (portExists s.b code = true → p.enable = true → p.state = 3 → ends (row.1 id) 0 p.keyEpoch) ∧
      (portExists s.b code = true → p.enable = true → p.state ≠ 3 → p.trained = false → p.replay ≠ [] ∨ p.state ≠ 2 →
        exec (row.1 id) s = .next { s with b := modP s.b n fun p => rouse { p with rekey := row.2 } })) ∧
    (RunsNow s.b id 0x89 c → (∀ d, s.b.fab.drain = some d → d.cmd ≠ id) →
      let rs := ruRoutes s.b s.mem c
      let ds := ruDomains s.b s.mem c
      let counts := pf c 8 4 ≤ 65536 ∧ pf c 12 2 ≤ 1024 ∧ pf c 14 2 ≠ 0
      let entries := (rs.map (·.1)).Nodup ∧ (ds.map (·.1)).Nodup ∧ (∀ r ∈ rs, r.1 ≠ selfEp s.b → routeOk s.b r.2 = true) ∧
        ∀ d ∈ ds, d.1 < 1024 ∧ domainOk d.2 = true
      (pf c 8 4 = 0 ∧ pf c 12 2 = 0 → ends (.routeUpdate id none) 0 0) ∧
      (¬ (pf c 8 4 = 0 ∧ pf c 12 2 = 0) → ¬ counts → ends (.routeUpdate id none) 0x61 0) ∧
      (¬ (pf c 8 4 = 0 ∧ pf c 12 2 = 0) → counts → s.b.fab.drain.isSome = true → exec (.routeUpdate id none) s = .next s) ∧
      (¬ (pf c 8 4 = 0 ∧ pf c 12 2 = 0) → counts → s.b.fab.drain = none → ¬ entries → ends (.routeUpdate id none) 0x61 0) ∧
      (¬ (pf c 8 4 = 0 ∧ pf c 12 2 = 0) → counts → s.b.fab.drain = none → entries →
        exec (.routeUpdate id none) s = .next { s with b := { s.b with fab := { s.b.fab with drain := some (ruDrain s.b c rs ds) } } })) ∧
    (∀ d, RunsNow s.b id 0x89 c → s.b.fab.drain = some d → d.cmd = id → d.drainOff = false →
      let beats := mk [(47, 32, beatNow s.b - d.since)]
      let endsWith := fun (i : Instr) (bits : Nat) => ∃ t, exec i s = .next t ∧ StagedWith s.b t.b id (bits + beats) [] ∧
        t.b.fab = { s.b.fab with drain := some { d with drainOff := true } } ∧ t.mem = s.mem
      (drained s.b d = true → endsWith (.routeDrainDone id) 0) ∧
      (drained s.b d = false → exec (.routeDrainDone id) s = .next s) ∧
      (d.since + pf c 14 2 ≤ beatNow s.b → drained s.b d = false →
        (tb (pf c 16 1) 0 = true → endsWith (.drainTimeout id) 3) ∧
        (tb (pf c 16 1) 0 = false → ∃ t, exec (.drainTimeout id) s = .next t ∧ EndedWith t.b id 0x10 (1 + beats))) ∧
      (beatNow s.b < d.since + pf c 14 2 → exec (.drainTimeout id) s = .next s))

/-- SCORE writes LOGITS where it is named and forms them, and then the header and the records of its ASSIGN table; DISPATCH writes LOGITS, ORIGIN's records, the
rows admitted here, ASSIGN, as many dropped slots as its list holds and the two headers, and answers how many rows it received and dropped; COMBINE
of two tables that are not its own ends REJECTED_FORMAT, and of its own tables writes one row for each token at CDST. No other byte of memory changes,
and each stands with every chunk ready and the status OK, OK_SPLIT or OK_SAT.
The model's choices: logs 26 and 30. -/
def Obligations.ExpertCommandsComplete : Prop :=
  ∀ (id : CmdId) (c : Cmd) (s : State), awake s.b = true → s.b.stores = [] → c.waitOn = none →
    let write := fun (a : Nat) (bs : List Byte) => (fnStore s.b id.f 0 a bs).stores
    let logits := fun (rows : List (List Nat)) => if fLogits c = 0 ∨ fW c = 0 then [] else write (fLogits c) (logitBytes rows)
    let ready := fun (i : Instr) (n : Nat) (sat : Bool) (w : List (Nat × List Byte)) (P : Cmd → Prop) =>
      ∃ t c', exec i s = .next t ∧ findCmd t.b id = some c' ∧ P c' ∧
      c'.effectDone = true ∧ c'.chunks = n ∧ c'.ready = n ∧ c'.status = (if sat = true then 2 else if c.split = true then 1 else 0) ∧ t.mem = applyStores s.mem w ∧
      t.b = { s.b with fns := t.b.fns, cmds := t.b.cmds, tiles := t.b.tiles, fresh := t.b.fresh, ports := t.b.ports, fab := t.b.fab, d2d := t.b.d2d }
    (RunsNow s.b id 0x22 c →
      let p := moeOf s.b c
      let own := ownScores s.b s.mem c p
      let sel := selectBytes p.k own.1
      ready (.score id none) (if fLogits c = 0 then 0 else cdiv (dstBytes s.b c) 65536) (own.2 || sel.2)
        (logits own.1 ++ if p.k = 0 then [] else write (fAssign c) (tableHeader p true 3 0 0 ++ sel.1)) fun _ => True) ∧
    (∀ gh g hn, findGroup s.b (fGid c) = some (gh, g) → c.handle = some hn →
      let k := collOf s.b c g (getHoist s.b hn)
      (∀ env : DispEnv, RunsNow s.b id 0x20 c → env.fault = none →
        let p := moeOf s.b c
        let rs := bytesOf p.f p.d
        let x := fnRead s.b s.mem id.f (fSpaceA c) (fX c) (p.T * rs)
        let own := ownScores s.b s.mem c p
        let a := admission p ((List.range p.N).map fun r => if r = p.rank then own.1 else (env.members.getD r ⟨[], []⟩).scores)
        let mine := a.toks.getD p.rank []
        let drops := dropList mine
        let got := recvRows p a
        let cap := if fDrops c = 0 then 0 else fDropCap c
        let kept := (mine.map fun t => (t.2.filter fun s => s.row.isSome).length).foldl (· + ·) 0
        let rows := got.flatMap fun (i, r, t) => (fnStore s.b id.f (fSpaceB c) (fRecv c + i * rs)
          (if r = p.rank then slice x (t * rs) rs else slice ((env.members.getD r ⟨[], []⟩).rows.getD t []) 0 rs)).stores
        ready (.dispatch id env) (cdiv (dstBytes s.b c) k.c) (own.2 || (assignBytes mine).2)
          (logits own.1 ++ write (fOrigin c + 64) (originBytes p a) ++ rows ++ write (fAssign c + 64) (assignBytes mine).1 ++
            (if fDrops c = 0 then [] else write (fDrops c) ((drops.take cap).flatten)) ++
            write (fAssign c) (tableHeader p true 1 kept drops.length) ++ write (fOrigin c) (tableHeader p true 2 got.length 0))
          fun c' => c'.flags = c.flags &&& 2 ||| 8 * b2n (decide (cap < drops.length)) ∧
            c'.result = mk [(63, 32, got.length), (31, 0, drops.length)]) ∧
      (∀ env : CombEnv, RunsNow s.b id 0x21 c → env.fault = none →
        let ah := fnRead s.b s.mem id.f 0 (fAssign c) 64
        let oh := fnRead s.b s.mem id.f 0 (fOrigin c) 64
        let p := combineP s.b c ah
        let rs := bytesOf p.f p.d
        let outs := combineOut s.b s.mem c p env
        (headerOk c 1 ah = false ∨ headerOk c 2 oh = false → ∃ t r, exec (.combine id env) s = .next t ∧ EndedWith t.b id 0x61 r) ∧
        (headerOk c 1 ah = true → headerOk c 2 oh = true →
          ready (.combine id env) (cdiv (p.T * rs) k.c) (outs.any (·.2))
            (outs.zipIdx.flatMap fun (o, t) => (fnStore s.b id.f (fSpaceB c) (fCdst c + t * rs) o.1).stores) fun c' => c'.extent = p.T * rs)))

/-! ### Power and thermal limits -/

/-- A THERMAL reading above T_THROTTLE lowers its sector one OPP under the THERMAL limit, and one more than five degrees below it clears the limit; one above
T_CRIT takes every running sector to OPP 0 with activity levels 0; PWR_EMERG_N low takes every running sector to OPP 0 with raises cancelled until it is
high again. An estimate is kept and counted; an estimate above ICC_MAX lowers every running sector one OPP, and one above the cap alone lowers the sector that R664
names. A grant reaches every raise whose voltage it covers, its timeout cancels the raises not granted, a retuned PLL ends its sector's bypass, and an array's
activity level moves by at most one within the limit. Each limit entered or left is reported by POLICY_OVERRIDDEN.
The model's choices: logs 16, 17, 55 and 83. -/
def Obligations.PowerLimitsHold : Prop :=
  ∀ (s : State), alive s.b = true → s.b.stores = [] →
    let p := s.b.pwr
    let sector := fun (k : Nat) (g : Sector → Sector) => s.b.sectors.modify k g
    let down := fun (n : Nat) (x : Sector) => moveOpp (cancelRaise x) n
    let all := fun (b : Blk) (g : Sector → Sector) => ∀ k < s.b.sectors.length, getSect b k = if runs s.b k = true then g (getSect s.b k) else getSect s.b k
    let frame := fun (t : State) (e : Blk) => t = commit s { e with sectors := t.b.sectors, pwr := t.b.pwr }
    (∀ k x, runs s.b k = false → exec (.thermal k x) s = .next s) ∧
    (∀ k x, runs s.b k = true → k < s.b.sectors.length → x < 256 → x ≤ tCrit s.b → p.crit = false →
      (tThrottle s.b < x →
        let g := fun y : Sector => { down (y.opp - 1) { y with temp := x } with thermal := true }
        exec (.thermal k x) s = .next (commit s { (if (getSect s.b k).thermal = true then s.b else overridden s.b 0 true (2 ^ k) x) with sectors := sector k g })) ∧
      (x + 5 < tThrottle s.b → (getSect s.b k).thermal = true →
        exec (.thermal k x) s = .next (commit s { overridden s.b 0 false (2 ^ k) x with sectors := sector k fun y => { y with temp := x, thermal := false } })) ∧
      (x ≤ tThrottle s.b → ((getSect s.b k).thermal = false ∨ tThrottle s.b ≤ x + 5) →
        exec (.thermal k x) s = .next { s with b := { s.b with sectors := sector k fun y => { y with temp := x } } })) ∧
    (∀ k x, runs s.b k = true → k < s.b.sectors.length → x < 256 → tCrit s.b < x → p.crit = false →
      ∃ t, exec (.thermal k x) s = .next t ∧ t.b.pwr = { p with crit := true } ∧
        ∀ j < s.b.sectors.length, (getSect t.b j).actMax = 0 ∧ (runs s.b j = true → (getSect t.b j).opp = 0 ∧ (getSect t.b j).raiseTo = none)) ∧
    (∃ t, exec .emerg s = .next t ∧ t.b.pwr = { p with emerg := true } ∧ all t.b (down 0) ∧
      frame t (if p.emerg = true then s.b else overridden s.b 4 true (runMask s.b) 0)) ∧
    (exec .emergClear s = .next (commit s { (if p.emerg = true then overridden s.b 4 false (runMask s.b) 0 else s.b) with pwr := { p with emerg := false } })) ∧
    (∀ w a, p.current = false → p.pmax = false → w ≤ 340 →
      let q := { p with
        watts := w, amps := a, sumW := p.sumW + w, sumA := p.sumA + a, samples := p.samples + 1, monStb := !p.monStb
        lowA := if 100 * a < 95 * iccMax s.b then p.lowA + 1 else 0, lowW := if w < 323 then p.lowW + 1 else 0 }
      (a ≤ iccMax s.b → w ≤ capOf p → exec (.powerEstimate w a) s = .next { s with b := { s.b with pwr := q } }) ∧
      (a ≤ iccMax s.b → capOf p < w → ∀ k, capVictim s.b = some k → exec (.powerEstimate w a) s = .next { s with b := { s.b with
        pwr := q, sectors := sector k fun x => { down (x.opp - 1) x with policyOpp := min x.policyOpp (x.opp - 1) } } }) ∧
      (iccMax s.b < a → w ≤ capOf p → ∃ t, exec (.powerEstimate w a) s = .next t ∧ t.b.pwr = { q with current := true } ∧ all t.b (fun x => down (x.opp - 1) x) ∧
        frame t (overridden s.b 2 true (runMask s.b) a))) ∧
    (p.vreqValid = true → ∃ t, exec .vgrant s = .next t ∧ t.b.pwr.vgranted = p.vreq ∧ t.b.pwr.vgrant = false ∧
      t.b.sectors = s.b.sectors.map (fun x => match x.raiseTo with | some o => if voltOf o ≤ p.vreq then { x with granted := true } else x | none => x) ∧
      frame t (if p.vgrant = true then overridden s.b 5 false (runMask s.b) 0 else s.b)) ∧
    (p.vreqValid = false → exec .vgrant s = .next s ∧ exec .vgrantTimeout s = .next s) ∧
    (let late := mk (((running s.b).filter fun k => (getSect s.b k).raiseTo.isSome && !(getSect s.b k).granted).map fun k => (k, k, 1));
      p.vreqValid = true → late ≠ 0 → exec .vgrantTimeout s = .next (commit s { (if p.vgrant = true then s.b else overridden s.b 5 true late 0) with
        pwr := { p with vgrant := true }, sectors := s.b.sectors.map fun x => if x.granted = true then x else cancelRaise x })) ∧
    (∀ k, exec (.pllRetune k) s = .next (if runs s.b k = true then { s with b := { s.b with sectors := sector k fun x => { x with bypass := false } } } else s)) ∧
    (∀ tl ar waited idle, tileExists s.b tl = true → ar < 8 → (getSect s.b (tl / 16)).fenced = false → tl < s.b.tiles.length →
      let x := getTile s.b tl
      let l := x.level.getD ar 0
      let gap := if 64 ≤ idle then x.gap.getD ar 0 + 64 else idle
      let cur := s.b.ctl.arrCur.force.toNat
      ∃ t y, exec (.activityWindow tl ar waited idle) s = .next t ∧ t = { s with b := { s.b with tiles := s.b.tiles.set tl y, fresh := t.b.fresh } } ∧
        y.level = x.level.set ar (nextLevel l (getSect s.b (tl / 16)).actMax gap (fld cur 15 0) idle (tb cur (16 + tl / 16)) waited) ∧
        y = { x with level := y.level, gap := x.gap.set ar gap, real := y.real, dummy := y.dummy, busy := y.busy, slivers := y.slivers } ∧
        y.real ≤ x.real + 4 * l ∧ y.dummy ≤ x.dummy + 4 * l)

/-! ### Beats -/

/-- A beat start with nothing due: the count goes up by one, is 0 for a MASTER that starts, and follows the count adopted from a parent; every
governed register takes the value that the dip window latched, the ports start their slots anew, and the tables' snapshot is taken. A dip window latches the
stored values and lists what is due; a second one in a beat does nothing. An edge of BEAT_IN starts a beat at a MASTER_PIN engine and locks it by two edges within
8 ns of the period, and two beats without one unlock it.
The model's choices: logs 14, 18 and 59. -/
def Obligations.BeatsAdvance : Prop :=
  ∀ (s : State), alive s.b = true → s.b.stores = [] →
    let x := s.b.beat
    let dips := fun (c : Ctl) => [c.arbSlack, c.penDlck, c.arrCur, c.floor, c.throttle, c.e2e, c.pwrLink]
    let starts := fun (t : State) => t.b.beat.inDip = false ∧ t.b.beat.run = x.run ∧ t.b.beat.ticked = awake s.b ∧ t.b.snap = s.b.t ∧ t.b.cmds = s.b.cmds ∧
      dips t.b.ctl = (dips s.b.ctl).map (fun d => { d with force := d.due }) ∧
      t.b.ports.length = s.b.ports.length ∧ ∀ n < s.b.ports.length, (getP t.b n).slot = 0 ∧ (getP t.b n).injected = 0 ∧ (getP t.b n).idle = (getP s.b n).idle + 1 ∧
        (getP t.b n).ringForce = (getP s.b n).ringDue ∧ (getP t.b n).mark = { (getP s.b n).mark with age := (getP s.b n).mark.age + 1 }
    (s.b.due = due0 → ∃ t, exec .beatStart s = .next t ∧ starts t ∧
      (x.run = false → t.b.beat.count = x.count + 1) ∧
      (x.run = true → x.source = 1 → x.live = false → t.b.beat.count = 0 ∧ t.b.beat.live = true ∧ t.b.beat.master = true ∧ t.b.beat.dist = 0 ∧
        t.b.beat.locked = true ∧ t.b.beat.masterEp = some (selfEp s.b)) ∧
      (x.run = true → x.source = 1 ∨ x.source = 2 → x.live = true → t.b.beat.count = x.count + 1 ∧ (x.parent ≠ 63 → t.b.beat.locked = x.locked)) ∧
      (x.run = true → x.source ≠ 1 → x.source ≠ 2 → x.parent ≠ 63 → t.b.beat.live = true ∧ t.b.beat.adopt = none ∧ t.b.beat.locked = x.locked ∧
        t.b.beat.count = (match x.adopt with | some c => c | none => x.count) + 1)) ∧
    (x.inDip = true → ∀ u, exec (.dipWindow u) s = .next s) ∧
    (x.inDip = false → ∀ u, ∃ t, exec (.dipWindow u) s = .next t ∧ t.b.beat = { x with inDip := true } ∧
      dips t.b.ctl = (dips s.b.ctl).map (fun d => { d with due := d.stored }) ∧
      t.b = { s.b with beat := t.b.beat, ctl := t.b.ctl, ports := t.b.ports, due := t.b.due, sectors := t.b.sectors, pwr := t.b.pwr } ∧
      (∀ n < s.b.ports.length, getP t.b n = { getP s.b n with
        ringDue := (getP s.b n).ring
        linkQ := (getP s.b n).linkQ ++ (if x.ticked = true ∧ (getP s.b n).state = 2 ∧ (getP s.b n).sleep ≤ 2 then [aliveCell s.b] else []) }) ∧
      (s.b.life.phase = .run → t.b.due.staged = dueStaged s.b ∧ t.b.due.fences = s.b.ctl.fences)) ∧
    (∀ time, x.run = false ∨ x.source ≠ 2 → exec (.beatIn time) s = .next s) ∧
    (∀ time, x.run = true → x.source = 2 → s.b.due = due0 → x.lostBeat = none → ∃ t, exec (.beatIn time) s = .next t ∧ starts t ∧
      t.b.beat.edge = some time ∧ t.b.beat.missed = 0 ∧ t.b.beat.count = (if x.live = true then x.count + 1 else 0) ∧
      t.b.beat.locked = match x.edge with
        | none => x.locked
        | some l => if t.b.beat.grd < edgeError x.per l time then false else if l + x.per ≤ time + 8 ∧ time ≤ l + x.per + 8 then true else x.locked) ∧
    (exec .beatInMissing s = .next (if x.run = true ∧ x.source = 2 ∧ x.live = true ∧ 2 ≤ x.missed then { s with b := setLock s.b false } else s))

/-- A BEAT_MARK is kept with its arrival, and with θ and d where it echoes one of the last four marks sent. From the parent it gives DIST and OFFSET: two
measurements in a row within 8 ns lock a FABRIC engine, one beyond the guard unlocks it and adopts the parent's count. A lost parent gives way to the
one that R388 chooses, or to none. A KEEP_ALIVE makes its endpoint present; an endpoint that is absent is marked so and its ports leave UP; a function, or
the block, that has stood still long enough reports one deadlock.
The model's choices: logs 14 and 58. -/
def Obligations.BeatPartnersAndDeadlock : Prop :=
  ∀ (s : State), alive s.b = true → s.b.stores = [] →
    let x := s.b.beat
    (∀ n m rx, framing s.b n = true → (getP s.b n).state = 2 → (getP s.b n).woke = false → n < s.b.ports.length →
      let p := getP s.b n
      let v := measure s.b p m rx
      let mark := { mark := some m, rxBeat := x.count, rx, age := 0, known := v.isSome || p.mark.known,
                    theta := match v with | some t => t.1 | none => p.mark.theta, delay := match v with | some t => t.2 | none => p.mark.delay }
      (∃ t, exec (.beatMark n m rx) s = .next t ∧ getP t.b n = { p with mark }) ∧
      (x.run = false → exec (.beatMark n m rx) s = .next { s with b := modP s.b n fun p => { p with mark } }) ∧
      (x.run = true → isMaster x = false → x.parent = n → x.masterEp = some m.masterEp → m.locked = true → m.dist < 254 →
        m.period = x.per → m.guard = x.grd → m.dipLen = x.dip → x.adopt = none → n ≠ 63 →
        ∃ t, exec (.beatMark n m rx) s = .next t ∧ t.b.beat.dist = m.dist + 1 ∧ t.b.beat.parent = n ∧
          (v = none → t.b.beat.offset = x.offset ∧ t.b.beat.locked = x.locked) ∧
          (∀ th d, v = some (th, d) → t.b.beat.offset = th ∧
            (th.natAbs ≤ 8 → th.natAbs ≤ x.grd → 1 ≤ x.good → t.b.beat.locked = true) ∧
            (x.grd < th.natAbs → t.b.beat.locked = false ∧ t.b.beat.adopt = some m.beat ∧ t.b.beat.step = -th)))) ∧
    (x.run = false ∨ isMaster x = true ∨ parentGone s.b = false → exec .parentLost s = .next s) ∧
    (x.run = true → isMaster x = false → parentGone s.b = true →
      (choose s.b = none → exec .parentLost s = .next { s with b := { s.b with beat := { x with parent := 63, dist := 255, lostBeat := some x.count, adopt := none } } }) ∧
      (∀ n m, choose s.b = some (n, m) → ∃ t, exec .parentLost s = .next t ∧ t.b.beat.parent = n ∧ t.b.beat.dist = m.dist + 1 ∧ t.b.beat.masterEp = some m.masterEp)) ∧
    (∀ n ep bt lk, framing s.b n = true → (getP s.b n).state = 2 →
      exec (.keepAlive n ep bt lk) s = .next { s with b := { s.b with beat := { x with
        seen := x.seen.map fun (e : Seen) => if e.ep = ep then { e with last := x.count, absent := false } else e } } }) ∧
    (awake s.b = true →
      (∀ ep, isAbsent s.b ep = false → exec (.partnerAbsent ep) s = .next s) ∧
      (∀ ep, isAbsent s.b ep = true → ∃ t, exec (.partnerAbsent ep) s = .next t ∧ (∀ e ∈ t.b.beat.seen, e.ep = ep → e.absent = true) ∧
        ((∀ e ∈ s.b.t.group, e.2.valid = true → ranksAt s.b e.2 ep = []) → ∀ n < s.b.ports.length, portExists s.b n = true → (getP s.b n).state = 2 → (getP s.b n).partnerEp = ep →
          (getP t.b n).state ≠ 2)) ∧
      (∀ f, let n := getFn s.b f
        (n.deadlocked = true ∨ stalled s.b f = false → exec (.deadlock f) s = .next s) ∧
        (tb s.b.ctl.penDlck.force.toNat 63 = true → n.deadlocked = false → fnBeats s.b ≤ n.stillBeats → stalled s.b f = true →
          ∃ t, exec (.deadlock f) s = .next t ∧ (getFn t.b f).deadlocked = true ∧ (getFn t.b f).episodes = n.episodes + 1 ∧
            n.head < (getFn t.b f).head)) ∧
      (s.b.dlck.reported = true → exec .blockDeadlock s = .next s) ∧
      (tb s.b.ctl.penDlck.force.toNat 63 = true → tb s.b.ctl.penDlck.force.toNat 62 = true → s.b.dlck.reported = false → blkBeats s.b ≤ s.b.dlck.still →
        ∃ t, exec .blockDeadlock s = .next t ∧ t.b.dlck = { s.b.dlck with episodes := s.b.dlck.episodes + 1, reported := true } ∧
          (fnLive s.b 0 = true → (getFn s.b 0).head < (getFn t.b 0).head)))

/-! ### Link ports -/

/-- FRAME_SEND starts a frame of 63 cells with the next FSEQ and keeps it for replay, unless 64 frames stand unacknowledged or the port may send nothing;
FRAME_RECEIVE counts a bad CRC and asks for a replay, fences the port for a bad tag, takes the acknowledgement of every authentic frame and accepts the one
whose FSEQ is next. A replay of the same first frame again is a failed retry, the eighth takes the port down. ROUTED_CELL delivers a packet here where its
path has ended and otherwise queues it at the port that its path names, one hop on.
The model's choices: logs 26 and 45. -/
def Obligations.LinksCarryFrames : Prop :=
  ∀ (s : State) (n : Nat), awake s.b = true → s.b.stores = [] →
    let p := getP s.b n
    let port := fun (i : Instr) (g : Port → Port) => exec i s = .next { s with b := modP s.b n g }
    (framing s.b n = false ∨ 64 ≤ p.replay.length ∨ 2 ≤ p.sleep → exec (.frameSend n) s = .next s) ∧
    (framing s.b n = true → p.replay.length < 64 → p.sleep < 2 → p.rekey = 0 → n < s.b.ports.length → ∃ t cells, exec (.frameSend n) s = .next t ∧
      cells.length = 63 ∧ (getP t.b n).replay = p.replay ++ [{ fseq := p.txNext, cells }] ∧ (getP t.b n).txNext = (p.txNext + 1) % 2 ^ 64 ∧
      (getP t.b n).nakDue = false ∧ t = { s with b := { s.b with ports := t.b.ports } } ∧ ∀ k, k ≠ n → getP t.b k = getP s.b k) ∧
    (∀ fr : FrameRx, framing s.b n = false → exec (.frameReceive n fr) s = .next s) ∧
    (∀ fr : FrameRx, framing s.b n = true → n < s.b.ports.length →
      (fr.crcOk = false → port (.frameReceive n fr) fun p => { p with crcErr := bump p.crcErr 65535, nakDue := true }) ∧
      (fr.crcOk = true → fr.tagOk = false → ∃ t, exec (.frameReceive n fr) s = .next t ∧ (getP t.b n).state = 3 ∧
        (getP t.b n).authFail = bump p.authFail 255 ∧ (getP t.b n).replay = [] ∧ (getP t.b n).out = []) ∧
      (fr.crcOk = true → fr.tagOk = true → p.sleep < 2 → p.rekey = 0 →
        let q := takeAck { p with fcIn := fr.fc, nakRx := p.nakRx || fr.nak } fr.ack
        (fr.fseq ≠ p.rxNext → port (.frameReceive n fr) fun _ => q) ∧
        (fr.fseq = p.rxNext → ∃ t, exec (.frameReceive n fr) s = .next t ∧ (getP t.b n).rxNext = (p.rxNext + 1) % 2 ^ 64 ∧ (getP t.b n).nakDue = false ∧
          (getP t.b n).replay = q.replay ∧ t = { s with b := { s.b with ports := t.b.ports } }))) ∧
    (framing s.b n = false → exec (.replay n) s = .next s ∧ exec (.replayTimeout n) s = .next s) ∧
    (∀ i, framing s.b n = true → (i = .replay n ∧ p.nakRx = true) ∨ (i = .replayTimeout n ∧ p.replay ≠ []) → n < s.b.ports.length →
      (p.replay = [] → port i fun p => { p with nakRx := false }) ∧
      (∀ f r, p.replay = f :: r →
        let run := if p.retried = some f.fseq then p.retryRun + 1 else p.retryRun
        (run < 8 → port i fun p => { p with nakRx := false, retryRun := run, retry := bump p.retry 65535, retried := some f.fseq }) ∧
        (8 ≤ run → p.state = 2 → ∃ t, exec i s = .next t ∧ (getP t.b n).state ≠ 2 ∧ (getP t.b n).replay = []))) ∧
    (∀ vn x, portExists s.b n = true → n < s.b.ports.length → p.inq.find? (fun x => x.1 == vn) = some x →
      let h := x.2.hdr
      let left := fun (q : Port) => markFc { q with inq := q.inq.erase x }
      let here := h.hop = 0 ∨ (h.cls = 0 ∧ (preOfPkt x.2).type ∈ [10, 11, 12]) ∨ (h.cls ≠ 1 ∧ pathCode h = 63)
      (here → exec (.routedCell n vn) s = .next { s with b :=
        { modP s.b n left with fab := { s.b.fab with arrived := s.b.fab.arrived ++ [(n, x.2)] } } }) ∧
      (¬ here → pathCode h ≠ 63 → ∀ m, portAt s.b (pathCode h) = some m → (getP s.b m).state = 2 → m ≠ n → m < s.b.ports.length →
        ∃ t, exec (.routedCell n vn) s = .next t ∧ getP t.b n = left p ∧ t = { s with b := { s.b with ports := t.b.ports } } ∧
          (getP t.b m).out = (getP s.b m).out ++ [{ vn := vnOf h, src := n, entering := entering (modP s.b n left) n (pathCode h), started := false, cells := cellsOf { x.2 with hdr := { h with hop := h.hop + 1 } } }] ∧ (getP t.b m).idle = 0))

/-- A port that may train starts an attempt at PHY; PHYRDY, twelve adapted lanes and the partner's mask lead it to its key handshake; both sessions and an equal
FS start its frames, and IDENT of another endpoint ends its training. A failed session, a message too long or sent eight times, a time limit and a loss of
signal end the attempt; a lane retrain that times out, and a loss of signal while UP, take the port down, and a lane fault moves to a spare lane.
The model's choices: logs 19, 60 and 61. -/
def Obligations.PortsTrain : Prop :=
  ∀ (s : State) (n : Nat), awake s.b = true → s.b.stores = [] →
    let p := getP s.b n
    let port := fun (i : Instr) (g : Port → Port) => exec i s = .next { s with b := modP s.b n g }
    let fails := fun (q : Port) => idleLanes { q with
      phase := .reset, fsConflict := false, fsDone := false, sessOurs := false, sessTheirs := false, msgs := [], trained := false }
    let goesDown := fun (i : Instr) => n < s.b.ports.length → portExists s.b n = true → ∃ t, exec i s = .next t ∧ (getP t.b n).state ≠ 2 ∧ (getP t.b n).retraining = false
    let add := fun (q : Port) => { q with msgs := q.msgs ++ [(q.msgNext, 1)], msgNext := (q.msgNext + 1) % 65536 }
    let frames := fun (q : Port) => { q with
      phase := .frames, fsDone := true, keyEpoch := (q.keyEpoch + 1) % 2 ^ 32, txNext := 0, rxNext := 0, replay := [], retryRun := 0, retried := none
      nakRx := false, nakDue := false, fcIn := 0, fcOut := 0, msgs := [], linkQ := [identCell s.b p] }
    (mayTrain s.b n = true → p.state = 0 ∨ (p.state = 1 ∧ p.phase = .reset) → port (.linkTrainStart n) attempt) ∧
    (mayTrain s.b n = false → exec (.linkTrainStart n) s = .next s) ∧
    (n < s.b.ports.length → p.phyRstN = true → p.phase = .phy → p.state = 1 ∨ p.retraining = true →
      port (.phyrdy n) fun q => { q with phyRdy := true, txei := 0, adaptReq := 0x1FFF }) ∧
    (∀ good, n < s.b.ports.length → p.phase = .phy → p.adaptReq ≠ 0 → 12 ≤ laneCount good →
      port (.adaptDone n good) fun q => { q with phase := .lanes, adapted := good, adaptReq := 0, goodMine := laneMinus good p.rxFault }) ∧
    (∀ mask, p.phase = .lanes → 12 ≤ laneCount mask → 12 ≤ laneCount p.goodMine → ∃ k, exec (.rxGood n mask) s = .next { s with b := { (modP s.b n fun q =>
      let q := { q with goodTheirs := mask, txActive := lanesOf mask, rxActive := lanesOf q.goodMine, txei := 0x1FFF - lanesOf mask, skewNs := k }
      if q.retraining = true then { q with phase := .done, retraining := false } else add { q with phase := .key, msgs := [] }) with fresh := s.b.fresh + 1 } }) ∧
    (p.state = 1 → p.phase = .key → n < s.b.ports.length →
      (∀ ours, p.sessOurs = false → p.sessTheirs = false → port (.trainMessage n (.session ours true)) fun q => { q with sessOurs := ours, sessTheirs := !ours }) ∧
      (∀ ours, p.sessOurs = !ours → p.sessTheirs = ours → port (.trainMessage n (.session ours true)) fun q => add { q with sessOurs := true, sessTheirs := true }) ∧
      (∀ ours, p.rekey = 0 → exec (.trainMessage n (.session ours false)) s =
        .next { s with b := { modP s.b n fails with sec := { s.b.sec with hsFail := satAdd s.b.sec.hsFail 1 65535 } } }) ∧
      (p.rekey = 0 → port (.trainMessage n .overlong) fails) ∧
      (∀ num, port (.trainMessage n (.ack num)) fun q => { q with msgs := q.msgs.filter fun x => x.1 != num }) ∧
      (p.sessOurs = true → p.sessTheirs = true → p.fsConflict = false →
        (∀ a, s.b.sec.fs = some a → port (.trainMessage n (.fs (some a))) frames ∧ port (.trainMessage n (.fs none)) frames) ∧
        (∀ a c, s.b.sec.fs = some a → a ≠ c → exec (.trainMessage n (.fs (some c))) s = .next { s with b :=
          { modP s.b n (fun q => { q with fsConflict := true }) with sec := { s.b.sec with fsConflict := satAdd s.b.sec.fsConflict 1 65535 } } })) ∧
      (∀ x r, p.msgs = x :: r → (x.2 < 8 → port (.trainResend n) fun q => { q with msgs := (x.1, x.2 + 1) :: r }) ∧
        (8 ≤ x.2 → p.rekey = 0 → port (.trainResend n) fails))) ∧
    (p.retraining = false → p.state = 1 → p.phase ≠ .reset → p.phase ≠ .done → p.rekey = 0 → n < s.b.ports.length → port (.trainingTimeout n) fails) ∧
    (p.retraining = true → p.state = 2 → goesDown (.trainingTimeout n)) ∧
    (p.state = 2 → p.sleep ≤ 2 → goesDown (.lossOfSignal n)) ∧
    (p.state = 1 → p.phase ≠ .reset → p.rekey = 0 → n < s.b.ports.length → port (.lossOfSignal n) fails) ∧
    (∀ ep code, p.state = 1 → p.phase = .frames → p.rekey = 0 → ep ≠ selfEp s.b → n < s.b.ports.length → exec (.ident n ep code) s = .next { s with b := modP (seePartner s.b ep) n fun q => { q with partnerEp := ep, partnerPort := code, phase := .done, trained := true } }) ∧
    (∀ lane, portExists s.b n = true → p.state = 2 → p.sleep ≤ 2 → tb p.rxFault lane = false → n < s.b.ports.length →
      let fault := setBit p.rxFault lane true
      ∃ t, exec (.laneFault n lane) s = .next t ∧ (getP t.b n).rxFault = fault ∧
        (tb p.txActive lane = false → tb p.rxActive lane = false → (getP t.b n).state = 2 ∧ (getP t.b n).retraining = p.retraining) ∧
        (tb p.txActive lane = true → tb p.rxActive lane = false →
          ((spareLane p.txActive fault).isSome = true → (getP t.b n).retraining = true ∧ (getP t.b n).phase = .phy) ∧
          (spareLane p.txActive fault = none → (getP t.b n).state ≠ 2)))

/-- Link sleep: an idle port asks for it, a request or a grant makes it agree, and it raises LP_REQ once every frame it sent is acknowledged; LP_ACK's rise puts it to
sleep with its lanes idle. A refusal or a missing answer gives the request up. A waking port leaves electrical idle with LP_ACK's fall and resumes framing
when its lanes are deskewed, its offset to be measured again, and retrains when they are not.
The model's choices: log 60. -/
def Obligations.PortsSleep : Prop :=
  ∀ (s : State) (n : Nat), awake s.b = true → s.b.stores = [] → n < s.b.ports.length →
    let p := getP s.b n
    let port := fun (i : Instr) (g : Port → Port) => exec i s = .next { s with b := modP s.b n g }
    let agreed := fun (q : Port) => if q.replay = [] then { q with sleep := 3, lpReq := true } else { q with sleep := 2 }
    (maySleep s.b n = true → p.sleep = 0 → port (.sleepRequest n) fun q => { q with sleep := 1 }) ∧
    (maySleep s.b n = false → exec (.sleepRequest n) s = .next s) ∧
    (p.state = 2 →
      (p.sleep = 1 ∨ (p.sleep = 0 ∧ maySleep s.b n = true) → port (.sleep n 0) agreed) ∧
      (p.sleep = 0 → maySleep s.b n = false → exec (.sleep n 0) s = .next s) ∧
      (p.sleep = 1 → port (.sleep n 1) agreed ∧ port (.sleep n 2) fun q => { q with sleep := 0, idle := 0 }) ∧
      (p.sleep = 3 → port (.lpAck n true) fun q => { q with sleep := 4, txei := 0x1FFF }) ∧
      (p.sleep = 5 → port (.lpAck n false) fun q => { q with txei := 0x1FFF - q.txActive }) ∧
      (∀ d, p.sleep = 4 → port (.wake n d) fun q => { q with sleep := 5, lpReq := false }) ∧
      (p.sleep = 5 → exec (.wake n false) s = .next { s with b := retrain s.b n }) ∧
      (p.sleep = 5 → p.txei = 0x1FFF → exec (.wake n true) s = .next s) ∧
      (p.sleep = 5 → p.txei ≠ 0x1FFF → p.rekey = 0 → exec (.wake n true) s = .next { s with b := seePartner (modP s.b n fun q => { q with sleep := 0, woke := true, idle := 0, mark := { q.mark with known := false }, sentMarks := [] }) p.partnerEp })) ∧
    (p.sleep = 1 → port (.sleepAnswerTimeout n) fun q => { q with sleep := 0, idle := 0 })

/-! ### Packets -/

/-- What every packet of a command or a notice meets first: one for another endpoint is discarded with a MISROUTE event; a sequence applied already is
acknowledged again and changes nothing else; a packet of a group that no valid entry holds, or of a newer generation, gets a hold reply; one of an older
generation is acknowledged as if applied, and of a point-to-point command its issuer is told STALE_GENERATION besides.
The model's choices: log 26. -/
def Obligations.PacketsAreChecked : Prop :=
  ∀ (s : State) (port : Nat) (p : Pkt) (tail : TailVerdict) (fault : Option AccFault), awake s.b = true → s.b.stores = [] →
  ∀ row ∈ ([(.data port p tail, 1), (.signal port p, 2), (.getReq port p fault, 3), (.atomic port p fault tail, 5), (.abortNotice port p, 8), (.breakNotice port p, 9)] :
      List (Instr × Nat)),
    isCollPkt p = true → (preOfPkt p).type = row.2 → p.hdr.hop ≠ 0 →
    let q := preOfPkt p
    let key := srcKey s.b p
    let off := { s.b with fab := { s.b.fab with arrived := s.b.fab.arrived.erase (port, p) } }
    let fabOnly := fun (t : State) => t = { s with b := { s.b with fab := t.b.fab } }
    (p.hdr.dst ≠ selfEp s.b → exec row.1 s = .next (commit s (adminEvent off 0x23 (port % 64) (mk [(31, 16, p.hdr.src), (15, 0, p.hdr.dst)]) 0))) ∧
    (p.hdr.dst = selfEp s.b → row.2 ≠ 3 → port ≠ 64 → applied (getSrc s.b key) q.e2e = true → unsettled off p = false →
      ∃ t, exec row.1 s = .next t ∧ Acknowledged t.b p ∧ (getSrc t.b key).seen = (getSrc s.b key).seen ∧ fabOnly t) ∧
    (p.hdr.dst = selfEp s.b → applied (getSrc s.b key) q.e2e = false →
      (findGroup s.b q.gid = none ∨ (∃ h g, findGroup s.b q.gid = some (h, g) ∧ g.gen < q.gen) →
        exec row.1 s = .next { s with b := sendBare off p.hdr.src 1 { pre0 with
          type := 7, mcseq := q.mcseq, gid := if q.mcseq then key.2 / 65536 else q.gid, gen := q.gen, cseq := q.cseq, srcRank := q.srcRank, e2e := q.e2e } [] }) ∧
      (∀ h g, findGroup s.b q.gid = some (h, g) → q.gen < g.gen →
        (tb q.cseq 47 = false ∨ 8 ≤ row.2 → ∃ t, exec row.1 s = .next t ∧ Acknowledged t.b p ∧ fabOnly t) ∧
        (tb q.cseq 47 = true → row.2 < 8 → exec row.1 s = .next { s with b := sendBare (takeSeq off p) p.hdr.src 0 { pre0 with
          type := 8, gid := q.gid, gen := q.gen, cseq := q.cseq, srcRank := (g.locs.headD (0, 0)).2, rosterDig := q.rosterDig, spec := 0x22 } [] })))

/-- DATA and ATOMIC of a point-to-point command that its target may act on: DATA writes its bytes at REMOTE, ATOMIC replaces each element by its update
and no other byte, and with a good tail each is acknowledged and counted; an unverified packet waits unacknowledged, and a digest mismatch begins an
arbitration. SIGNAL is applied once its data are, and is held before; an unmapped pennant is reported to both ends. A GET request is
answered with the bytes it names, or with the status of its fault; GET_RESP writes the next bytes of its request at LOCAL.
The model's choices: logs 26, 38 and 73. -/
def Obligations.PointToPointArrives : Prop :=
  ∀ (s : State) (port h : Nat) (g : Group) (p : Pkt), awake s.b = true → s.b.stores = [] →
    let q := preOfPkt p
    let off := { s.b with fab := { s.b.fab with arrived := s.b.fab.arrived.erase (port, p) } }
    let x := p2pIn s.b g p
    let bytes := openPkt s.b p x.rank 0
    let runs := dataRuns x (preOff q) bytes
    let writes := runs.flatMap fun r => (fnStore s.b x.fn x.space (x.remote + r.1) r.2).stores
    let may := fun (type space : Nat) => NewFor s.b type p h g ∧ TargetMay s.b g p x.fn space
    let abort := fun (b : Blk) (status : Nat) => sendBare b p.hdr.src 0 { pre0 with
      type := 8, gid := q.gid, gen := q.gen, cseq := q.cseq, srcRank := x.rank, rosterDig := q.rosterDig, spec := status } []
    let before := s.b.fab.unver.filter fun u => sameTransfer u p.hdr.src q && decide (u.off ≤ preOff q)
    (may 1 x.space → tb q.cseq 47 = true → findArb s.b p.hdr.src q = none → s.b.fab.heldSigs = [] →
      (∃ t, exec (.data port p .good) s = .next t ∧ t.mem = applyStores s.mem writes ∧ Acknowledged t.b p ∧
        countOf t.b p.hdr.src q = countOf s.b p.hdr.src q + (before.length + 1) ∧ t.b = { s.b with fab := t.b.fab, memp := t.b.memp }) ∧
      (∃ t, exec (.data port p .inner) s = .next t ∧ t.mem = applyStores s.mem writes ∧ t.b.fab.unver.length = s.b.fab.unver.length + 1 ∧
        (getSrc t.b (srcKey s.b p)).due = (getSrc s.b (srcKey s.b p)).due ∧ t.b = { s.b with fab := t.b.fab, memp := t.b.memp }) ∧
      (∀ o, ∃ t, exec (.data port p (.digestMismatch o)) s = .next t ∧ t.mem = applyStores s.mem writes ∧ t.b.fab.arbs.length = s.b.fab.arbs.length + 1 ∧
        (getSrc t.b (srcKey s.b p)).due = (getSrc s.b (srcKey s.b p)).due)) ∧
    (may 5 x.space → findArb s.b p.hdr.src q = none →
      (∀ o r w, runs = [(o, r)] → w = elemBits x.fmt / 8 → 0 < w → r.length = w → s.b.fab.atoms = [] →
        let old := ofLe (readMem s.mem (fnKey s.b x.fn x.space (x.remote + o)) w)
        ∃ t, exec (.atomic port p none .good) s = .next t ∧ Acknowledged t.b p ∧ t.b = { s.b with fab := t.b.fab } ∧
          t.mem = applyStores s.mem (fnStore s.b x.fn x.space (x.remote + o) (leBytes (atomicElem x.fmt x.oper old (ofLe r)) w)).stores) ∧
      (∃ t, exec (.atomic port p none .inner) s = .next t ∧ t.mem = s.mem ∧ t.b.fab.atoms = s.b.fab.atoms ++ [p])) ∧
    (may 2 0 →
      let vid := fld q.spec 47 32
      let issuer := slotFn (tget 0 s.b.t.roster (g.base + q.srcRank))
      (fld q.spec 31 0 ≤ countOf s.b p.hdr.src q →
        (∀ pen, (getFn s.b x.fn).fenced = false → penIdx s.b x.fn vid = some pen →
          let old := getPen s.b pen
          let v := BitVec.ofNat 64 (ofLe (dataOfPkt p))
          ∃ t w, exec (.signal port p) s = .next t ∧ Acknowledged t.b p ∧ t.mem = s.mem ∧ (∀ k, k ≠ pen → getPen t.b k = getPen s.b k) ∧
            getPen t.b pen = { old with value := if tb q.spec 48 then old.value + v else v, sigCount := (old.sigCount + 1) % 2 ^ 48, lastEp := p.hdr.src
                                        lastFn := issuer, lastKind := 3, lastTag := x.tag % 2 ^ 32, waiters := w }) ∧
        (penIdx s.b x.fn vid = none → exec (.signal port p) s =
          .next (commit s (abort (event (takeSeq off p) x.fn 0x0B 0 0 vid (mk [(63, 48, p.hdr.src), (47, 39, issuer), (31, 0, x.tag)])) 0x31)))) ∧
      (countOf s.b p.hdr.src q < fld q.spec 31 0 → s.b.fab.heldSigs = [] →
        exec (.signal port p) s = .next { s with b := { off with fab := { off.fab with heldSigs := [{ port, pkt := p }] } } })) ∧
    (may 3 x.space → tb q.cseq 47 = true → (∀ c ∈ cmdFor s.b q none, opOf c ≠ 0x21) → streamFor s.b q = none →
      exec (.getReq port p none) s =
        .next { s with b := sendResp (mark off (srcKey s.b p) q.e2e) p x.rank (fnRead s.b s.mem x.fn x.space (x.remote + preOff q) (preLen q)) } ∧
      ∀ a, exec (.getReq port p (some a)) s = .next { s with b := abort (takeSeq off p) (match a.kind with | .pageFault => 0x30 | _ => 0x31) }) ∧
    (∀ c tail, isCollPkt p = true → q.type = 4 → p.hdr.hop ≠ 0 → p.hdr.dst = selfEp s.b → fnLive s.b c.id.f = true → findCmd s.b c.id = some c →
      (s.b.cmds.find? fun c => opOf c == 0x31 && decide (c.phase = .running) && fGid c == q.gid && fGen c == q.gen && fCseq c == q.cseq &&
        fTarget c == q.srcRank) = some c →
      let C := chunkOf s.b c
      let i := preOff q / C
      let n := min C (fLen c - i * C)
      let got := preOff q % C
      let data := dataOfPkt p
      i < c.chunks → c.gotten.getD i 0 = got → got < n → got + data.length < n + 20 →
      ∃ t, exec (.getResp port p tail) s = .next t ∧ findCmd t.b c.id = some { c with gotten := c.gotten.set i (got + data.length) } ∧
        t.mem = applyStores s.mem (fnStore s.b c.id.f (fSpaceA c) (fLocal c + i * C + got) (data.take (n - got))).stores ∧
        t.b = { s.b with fns := t.b.fns, cmds := t.b.cmds, fab := t.b.fab, d2d := t.b.d2d })

/-- DATA of a collective, DISPATCH or COMBINE: with the local command's digests and a good tail it is recorded with the command, acknowledged and counted; with a
differing descriptor the command ends REJECTED_FORMAT. Before any local command it is spilled by the one member that can, or
refused with a hold reply where none can.
The model's choices: logs 26 and 42. -/
def Obligations.CollectiveDataArrives : Prop :=
  ∀ (s : State) (port h : Nat) (g : Group) (p : Pkt) (tail : TailVerdict), awake s.b = true → s.b.stores = [] → NewFor s.b 1 p h g →
    let q := preOfPkt p
    let off := { s.b with fab := { s.b.fab with arrived := s.b.fab.arrived.erase (port, p) } }
    let live := (cmdFor s.b q none).filter fun c => !decide (c.phase = .ended)
    g.state = 1 → tb q.cseq 47 = false →
    (∀ c r, live = c :: r → findCmd s.b c.id = some c → fnLive s.b c.id.f = true →
      ((∀ d ∈ live, digestDiffers s.b q d = false) → findArb s.b p.hdr.src q = none → s.b.fab.halyRx = [] →
        ∃ t n, exec (.data port p .good) s = .next t ∧ Acknowledged t.b p ∧
          findCmd t.b c.id = some { c with recvd := c.recvd ++ [(q.step, q.srcRank, preOff q, n)] } ∧ countOf s.b p.hdr.src q < countOf t.b p.hdr.src q ∧
          t = { s with b := { s.b with fns := t.b.fns, cmds := t.b.cmds, fab := t.b.fab } }) ∧
      (r = [] → digestDiffers s.b q c = true → ∃ t x, exec (.data port p tail) s = .next t ∧ EndedWith t.b c.id 0x61 x)) ∧
    (cmdFor s.b q none = [] → hasEnded s.b q = false →
      ((∀ l ∈ g.locs, (getFn s.b l.1).spEn = false) → exec (.data port p tail) s = .next { s with b := sendBare off p.hdr.src 1 { pre0 with
        type := 7, mcseq := q.mcseq, gid := if q.mcseq then (srcKey s.b p).2 / 65536 else q.gid, gen := q.gen, cseq := q.cseq, srcRank := q.srcRank, e2e := q.e2e } [] }) ∧
      (∀ f r u, g.locs = [(f, r)] → fnLive s.b f = true → (getFn s.b f).spEn = true →
        let n := getFn s.b f
        let bytes := prefixBytes q ++ dataOfPkt p
        let k := max 1 (cdiv bytes.length 4096)
        spillRun n k = some u → ∃ t, exec (.data port p tail) s = .next t ∧ Acknowledged t.b p ∧
          getFn t.b f = { n with spill := n.spill ++ [{ unit := u, units := k, epoch := n.keyEpoch, pkt := p }] } ∧
          t.mem = applyStores s.mem ((List.range k).flatMap fun i => (fnStore s.b f 0 (n.spBase + 4096 * (u + i))
            (sealUnit f (n.epoch * 2 ^ 32 + n.keyEpoch) ((n.spBase + 4096 * (u + i)) / 4096) (slice bytes (4096 * i) 4096))).stores) ∧
          t.b = { s.b with fns := t.b.fns, fab := t.b.fab }))

/-! ### Acknowledgements, resends, arbitration -/

/-- E2E_ACK frees the packets that it covers, counts them for their command and lets it end; an engine's due acknowledgements leave in one E2E_ACK, a map from the
oldest. A packet without acknowledgement is sent again with RESEND on the other path, until FAB_E2E.RESENDS gives it up; a held one is sent again while its
generation stands and is dropped when it does not.
The model's choices: log 47. -/
def Obligations.PacketsAreAcknowledged : Prop :=
  ∀ (s : State) (port ep : Nat) (p : Pkt), awake s.b = true → s.b.stores = [] → twf dstSt0 s.b.fab.dst = true →
    let q := preOfPkt p
    let off := { s.b with fab := { s.b.fab with arrived := s.b.fab.arrived.erase (port, p) } }
    let d := getDst s.b ep
    let others := fun (t : State) => t = { s with b := { s.b with fab := t.b.fab, ports := t.b.ports } }
    (isCollPkt p = true → q.type = 6 → q.mcseq = false → p.hdr.hop ≠ 0 → p.hdr.dst = selfEp s.b → p.hdr.src = ep → d.waiting = [] →
      ((∀ u ∈ d.unacked, covers q u.seq = true → u.cmd = none) → exec (.e2eAck port p) s =
        .next { s with b := modDst off ep fun d => { d with unacked := d.unacked.filter fun u => !covers q u.seq } }) ∧
      (∀ u id c, (d.unacked.filter fun u => covers q u.seq) = [u] → u.cmd = some id → findCmd s.b id = some c → isP2p (opOf c) = true →
        c.phase = .running → c.effectDone = true → c.waitOn = none → c.chunks ≠ 0 → flFly c = false →
        ∃ t c', exec (.e2eAck port p) s = .next t ∧ (getDst t.b ep).unacked = (d.unacked.filter fun u => !covers q u.seq) ∧ findCmd t.b id = some c' ∧
          c'.acked = c.acked + 1 ∧ (c'.phase = .ended ↔ c.sent ≤ c.acked + 1) ∧ c'.status = c.status ∧ t.mem = s.mem)) ∧
    (∀ x xs, (getSrc s.b (false, ep)).due = x :: xs → (∀ y ∈ x :: xs, y < 2 ^ 32) → (∀ y ∈ xs, y ≠ x ∧ (y + 2 ^ 32 - x) % 2 ^ 32 < 64) →
      (s.b.fab.msrc.filter fun e => e.1 % 65536 == ep) = [] →
      exec (.e2eAckSend ep) s = .next { s with b := sendBare (modSrc s.b (false, ep) fun r => { r with due := [] }) ep 1 { pre0 with type := 6, e2e := x, spec := (x :: xs).foldl (fun m y => setBit m ((y + 2 ^ 32 - x) % 2 ^ 32) true) 0 } [] }) ∧
    (∀ seq u, (d.unacked.find? fun u => u.seq == seq) = some u → (∀ v ∈ d.unacked, v.seq = seq → v = u) →
      let without := d.unacked.filter fun v => decide (v.seq ≠ seq)
      let dropped := fun (i : Instr) => d.waiting = [] → exec i s = .next { s with b := modDst s.b ep fun d => { d with unacked := without } }
      let again := fun (i : Instr) (v : Unacked) (resend : Bool) => ∃ t, exec i s = .next t ∧ others t ∧
        (getDst t.b ep).unacked = (d.unacked.map fun w => if w.seq = seq then v else w) ∧
        ∀ m, ep ≠ selfEp s.b → portAt s.b (rtCode (routeOf s.b ep) v.alt 0) = some m → (getP s.b m).state = 2 → m < s.b.ports.length → ∃ x h,
          (getP t.b m).out = (getP s.b m).out ++ [x] ∧
          x.cells = cellsOf { hdr := h, body := (setPre u.pkt fun r => { r with resend := r.resend || resend }).body } ∧ h.dst = ep ∧ h.hop = 1 ∧
          h.path = rtPath (routeOf s.b ep) v.alt ∧ h.net = u.pkt.hdr.net
      (u.held = false → u.haly = none →
        (u.resends < fld s.b.ctl.e2e.force.toNat 19 16 →
          again (.e2eResend ep seq) { u with resends := u.resends + 1, alt := if rtAlt (routeOf s.b ep) = true then !u.alt else u.alt } true) ∧
        (fld s.b.ctl.e2e.force.toNat 19 16 ≤ u.resends → dropped (.e2eResend ep seq))) ∧
      (u.held = true → exec (.e2eResend ep seq) s = .next s ∧
        (stillSends s.b (preOfPkt u.pkt) = true → again (.holdResend ep seq) { u with held := false } false) ∧
        (stillSends s.b (preOfPkt u.pkt) = false → dropped (.holdResend ep seq))) ∧
      (isCollPkt p = true → q.type = 7 → fld q.spec 7 0 = 0 → q.mcseq = false → q.e2e = seq → p.hdr.hop ≠ 0 → p.hdr.dst = selfEp s.b → p.hdr.src = ep →
        exec (.hold port p) s = .next { s with b := modDst off ep fun d => { d with
          unacked := d.unacked.map fun v => if v.seq = seq then { v with held := true } else v } }))

/-- RECOMPUTE at the sender: the packets of the transfer are kept for the receiver once more, and every tile whose sliver digests differ is fenced. A checker self-test
at the receiver that fails fences its tile, and the transfer that another checker passes is acknowledged; one that passes ends the
arbitration CHECK_FAIL or DIGEST_FAIL.
The model's choices: logs 26, 43 and 44. -/
def Obligations.ArbitrationEnds : Prop :=
  ∀ (s : State) (port : Nat) (p : Pkt) (rc : Recomb), awake s.b = true → s.b.stores = [] →
    let q := preOfPkt p
    let kept := fun b : Blk => (getDst b p.hdr.src).unacked.length + (getDst b p.hdr.src).waiting.length
    (isCollPkt p = true → q.type = 7 → fld q.spec 7 0 = 1 → p.hdr.hop ≠ 0 → p.hdr.dst = selfEp s.b → ∀ last, findUnacked s.b p.hdr.src q.e2e = some (none, last) →
      let mine := (getDst s.b p.hdr.src).unacked.filter fun u => let r := preOfPkt u.pkt
        r.gid == q.gid && r.gen == q.gen && r.cseq == q.cseq && r.srcRank == q.srcRank && r.step == q.step && (r.type == 1 || r.type == 5) &&
        !r.resend && decide (preOff q ≤ preOff r) && decide (preOff r ≤ preOff (preOfPkt last.pkt))
      ∃ t, exec (.recompute port p rc) s = .next t ∧ kept t.b = kept s.b + (mine.flatMap fun u => cutData u.pkt).length ∧
        ∀ n ∈ rc.badTiles, tileExists s.b n = true → n < s.b.tiles.length → (getTile t.b n).state = 3) ∧
    (∀ ep seq a tail, (s.b.fab.arbs.find? fun a => a.src == ep && a.seq == seq && a.second) = some a → a.tile < s.b.tiles.length →
      (tileExists s.b a.tile = true → ∃ t, exec (.checkerSelftest ep seq false .good) s = .next t ∧ (getTile t.b a.tile).state = 3 ∧
        (getTile t.b a.tile).selftest = bump (getTile s.b a.tile).selftest 65535 ∧
        (s.b.fab.heldSigs = [] → t.b.fab.arbs = s.b.fab.arbs.erase a ∧
          a.seq ∈ (getSrc t.b (match a.dom with | some d => (true, d * 65536 + a.src) | none => (false, a.src))).due)) ∧
      (∀ c, tb a.cseq 47 = false →
        cmdFor s.b { pre0 with gid := a.gid, gen := a.gen, cseq := a.cseq, srcRank := a.rank, step := a.step } none = [c] → findCmd s.b c.id = some c →
        c.phase ≠ .ended →
        ∃ t r, exec (.checkerSelftest ep seq true tail) s = .next t ∧ EndedWith t.b c.id (if a.check = true then 0x40 else 0x41) r ∧
          (getTile t.b a.tile).selftest = bump (getTile s.b a.tile).selftest 65535))

/-- ABORT_NOTICE ends the command that it names with its status, or is kept for commands not posted yet; BREAK_NOTICE breaks an active generation with its cause
and lowest rank; MULTICAST delivers a packet here if this engine is in its mask and sends one copy, its mask narrowed, to every port that leads on.
The model's choices: log 48. -/
def Obligations.NoticesAndCopies : Prop :=
  ∀ (s : State) (port h : Nat) (g : Group) (p : Pkt), awake s.b = true → s.b.stores = [] →
    let q := preOfPkt p
    let off := { s.b with fab := { s.b.fab with arrived := s.b.fab.arrived.erase (port, p) } }
    let live := (cmdFor s.b q none).filter fun c => !decide (c.phase = .ended)
    (NewFor s.b 8 p h g →
      (∀ c, live = [c] → findCmd s.b c.id = some c → (tb q.cseq 47 = true → isP2p (opOf c) = true) →
        ∃ t r, exec (.abortNotice port p) s = .next t ∧ EndedWith t.b c.id (fld q.spec 7 0) r) ∧
      (tb q.cseq 47 = false → cmdFor s.b q none = [] → g.locs ≠ [] →
        (∀ e ∈ s.b.t.stream, ¬ (e.2.valid = true ∧ e.2.sharded = true ∧ e.2.gid = q.gid ∧ e.2.gen = q.gen ∧ e.2.cseq = q.cseq)) →
        (∀ a ∈ s.b.fab.aborts, (a.1, a.2.1, a.2.2.1) ≠ (q.gid, q.gen, q.cseq)) →
        ∃ t, exec (.abortNotice port p) s = .next t ∧ Acknowledged t.b p ∧ t.b.fab.aborts = s.b.fab.aborts ++ [(q.gid, q.gen, q.cseq, fld q.spec 7 0)] ∧
          t = { s with b := { s.b with fab := t.b.fab } })) ∧
    (NewFor s.b 9 p h g → g.state = 1 → tget group0 s.b.t.group h = g →
      let ranks := (List.range (fld q.spec 31 16)).map fun i => leAt (dataOfPkt p) (2 * i) 2
      let cause := fld q.spec 7 0
      let lowest := ranks.foldl min 8191
      ∃ t, exec (.breakNotice port p) s = .next t ∧
        t.b.t.group = tput h { g with state := 2, brokenCause := cause, brokenRank := lowest, events := g.events ++ ranks.map fun r => (cause, r, preOff q) } s.b.t.group ∧
        t.b.t.hoist = s.b.t.hoist ∧ t.b.t.dir = s.b.t.dir ∧ t.b.t.route = s.b.t.route ∧ t.b.beat = s.b.beat ∧ t.b.ctl = s.b.ctl ∧ t.b.tiles = s.b.tiles) ∧
    (p.hdr.hop = 0 → ownCopy s.b p = false →
      let d := fld p.hdr.path 83 72
      let mask := fld p.hdr.path 63 0
      let e := domOf s.b d
      let goes := fun i => decide (i ≠ port) && codeAwake s.b i && decide (mask &&& domMask e i ≠ 0)
      (domValid e = false → exec (.multicast port p) s = .next { s with b := off }) ∧
      (domValid e = true → ∃ t, exec (.multicast port p) s = .next t ∧
        t = { s with b := { s.b with fab := t.b.fab, ports := t.b.ports } } ∧
        t.b.fab.arrived = off.fab.arrived ++ (if domSelf e < 64 ∧ tb mask (domSelf e) = true then
          [(port, { p with hdr := { p.hdr with path := mk [(83, 72, d), (63, 0, 2 ^ domSelf e)], dst := domMember e (domSelf e) } })] else []) ∧
        (∀ i m, i < 42 → goes i = true → portAt s.b i = some m → m < s.b.ports.length →
          (getP t.b m).out.map (·.cells) = (getP s.b m).out.map (·.cells) ++ [cellsOf { p with hdr := mcHdr s.b p.hdr d (mask &&& domMask e i) }]) ∧
        (∀ m, (∀ i, i < 42 → goes i = true → portAt s.b i ≠ some m) → getP t.b m = getP s.b m)))

/-! ### Halyards -/

/-- RESERVE takes the lowest free entry and the earliest window, or is refused; the ending engine's RESERVE_REPLY grants the entries back to the start, a refusal
or a timeout frees them, and so does RELEASE. A halyard cell goes on in its window, or late; at its end a complete transfer is delivered whole. A window sends what
it holds of the next transfer; a transfer that cannot go is demoted, and what a window has left over overruns, both as DATA packets.
The model's choices: logs 36 and 40. -/
def Obligations.HalyardsCarryTransfers : Prop :=
  ∀ (s : State) (port : Nat) (p : Pkt), awake s.b = true → s.b.stores = [] →
    let q := preOfPkt p
    let data := dataOfPkt p
    let off := { s.b with fab := { s.b.fab with arrived := s.b.fab.arrived.erase (port, p) } }
    let code := (getP s.b port).serves
    let here := p.hdr.dst = selfEp s.b
    let kept := fun (b : Blk) (ep : Nat) => (getDst b ep).unacked.length + (getDst b ep).waiting.length
    (isCollPkt p = true → q.type = 10 → portExists s.b port = true → hopCount data < 8 →
      let out := pathCode p.hdr
      let k := hopCount data
      let record := fun (i : Nat) => splice data (8 + 3 * k) (leBytes code 1 ++ leBytes i 2)
      let latest := fld q.spec 85 64
      let entry := { haly0 with
        valid := true, inPort := code, outPort := out, resFloor := floorNow s.b, step := q.step, start := fld q.spec 21 0, len := fld q.spec 53 32
        originEp := p.hdr.src, originIdx := (hopRec data 0).2, actBeat := leAt data 0 4 }
      let refused := exec (.reserve port p) s = .next (commit s (replyBack off p (record 0) 1 0))
      (out = 63 → ¬ here → exec (.reserve port p) s = .next (commit s (misroute off port p))) ∧
      (out ≠ 63 ∨ here → lowestFree 32768 0 s.b.t.haly = none → refused) ∧
      (∀ i, lowestFree 32768 0 s.b.t.haly = some i →
        (out = 63 → here → exec (.reserve port p) s = .next (commit s (replyBack (modHaly off i fun _ => { entry with granted := true }) p (record i) 0 i))) ∧
        (out ≠ 63 →
          let window := chooseWindow s.b out (fld q.spec 21 0 + nsSlots ((getP s.b port).cableForce + 54)) (fld q.spec 53 32) latest
          (codeUp s.b out = false ∨ window = none → refused) ∧
          (∀ w, codeUp s.b out = true → window = some w → exec (.reserve port p) s = .next (commit s (forward (modHaly off i fun _ => { entry with start := w }) port
            { p with body := .coll { q with spec := mk [(21, 0, w), (53, 32, fld q.spec 53 32), (85, 64, latest)] } (record i) })))))) ∧
    (isCollPkt p = true → q.type = 11 → portExists s.b port = true → ∀ i e, (s.b.t.haly.find? fun e => e.2.valid && !e.2.active && !e.2.granted &&
        e.2.outPort == code && e.2.originEp == p.hdr.dst && e.2.originIdx == (hopRec data 0).2) = some (i, e) →
      let grant := modHaly off i fun e => { e with outId := fld q.spec 31 16, granted := true }
      (fld q.spec 7 0 = 0 → ¬ here → exec (.reserveReply port p) s =
        .next (commit s (forward grant port { p with body := .coll { q with spec := mk [(7, 0, 0), (31, 16, i)] } data }))) ∧
      (fld q.spec 7 0 ≠ 0 → ¬ here → exec (.reserveReply port p) s =
        .next (commit s (forward (freeHaly off i) port { p with body := .coll { q with spec := mk [(7, 0, 1), (31, 16, i)] } data }))) ∧
      (fld q.spec 7 0 = 0 → here → (∀ w ∈ s.b.walks, w.idx ≠ i) → exec (.reserveReply port p) s = .next { s with b := grant })) ∧
    (∀ idx w, (s.b.walks.find? fun w => w.idx == idx) = some w → twf haly0 s.b.t.haly = true →
      (w.beat + 8 ≤ s.b.beat.count → ∃ t, exec (.reserveTimeout idx) s = .next t ∧ (getHaly t.b idx).valid = false ∧ (∀ x ∈ t.b.walks, x.idx ≠ idx) ∧
        ∀ c, (s.b.compiles.find? fun c => c.handle == w.handle) = some c → c.explicit = false → (getHoist t.b w.handle).valid = true) ∧
      (s.b.beat.count < w.beat + 8 → exec (.reserveTimeout idx) s = .next s)) ∧
    (isCollPkt p = true → q.type = 12 →
      let freed := { off with t := { s.b.t with haly := s.b.t.haly.filter fun e => !(e.2.valid && e.2.originEp == p.hdr.src && e.2.originIdx == fld q.spec 15 0) } }
      (here → exec (.release port p) s = .next { s with b := takeSeq freed p }) ∧
      (¬ here → pathCode p.hdr ≠ 63 → exec (.release port p) s = .next (commit s (forward freed port p)))) ∧
    (framing s.b port = true → ∀ id seq pay inWindow,
      let e := getHaly s.b id
      let mine := id < 32768 ∧ e.valid = true ∧ e.active = true ∧ e.inPort = code
      let cell := fun (r : Blk) => exec (.halyardCell port id seq inWindow pay) s = .next { s with b := r }
      (¬ mine → cell (modP s.b port fun p => { p with framing := bump p.framing 255 })) ∧
      (mine → e.outPort ≠ 63 → ∀ o, portAt s.b e.outPort = some o →
        (inWindow = true → s.b.beat.locked = true → cell (modP s.b o fun p => { p with halyQ := p.halyQ ++ [.halyard e.outId seq pay], idle := 0 })) ∧
        (inWindow = false ∨ s.b.beat.locked = false → cell (modP s.b o fun p => { p with
          out := p.out ++ [{ vn := 0, src := port, entering := false, started := true, cells := [.halyard e.outId seq pay] }], idle := 0 }))) ∧
      (mine → e.outPort = 63 → ∀ old, (s.b.fab.halyRx.find? fun x => x.idx == id) = some old → old.cut = none → (old.cells.any fun c => c.1 == seq) = false →
        let x := { old with cells := old.cells ++ [(seq, pay)] }
        let rest := s.b.fab.halyRx.filter fun y => y.idx != id
        (rxPrefix x = none → cell { s.b with fab := { s.b.fab with halyRx := rest ++ [x] } }) ∧
        (∀ pre, rxPrefix x = some pre →
          let need := cdiv (preLen pre) 56
          let bytes := ((List.range need).flatMap fun k => ((x.cells.find? fun c => c.1 == k + 1).map fun c => c.2.take 56).getD []).take (preLen pre)
          (∀ k, k < need → ∃ c ∈ x.cells, c.1 = k + 1) → ∃ t, exec (.halyardCell port id seq inWindow pay) s = .next t ∧
            t = { s with b := { s.b with fab := t.b.fab } } ∧ (∀ y ∈ t.b.fab.halyRx, y.idx ≠ id) ∧
            t.b.fab.arrived = s.b.fab.arrived ++ [(63, { hdr := { net := 0, cls := 0, hop := 1, src := e.originEp, dst := selfEp s.b, pseq := 0, path := 63 }
                                                         body := .coll { pre with spec := specLO (preLen pre) (preOff pre) } bytes })]))) ∧
    (∀ idx tr, s.b.beat.inDip = false → (s.b.fab.halyT.find? fun t => t.idx == idx && t.seq.isNone) = some tr →
      let e := getHaly s.b idx
      let dst := transDst s.b tr
      let start := preOff tr.pre
      (demotes s.b e = true → tr.pre.type = 1 → ∃ t, exec (.halyardWindow idx) s = .next t ∧ t.b.beat = { s.b.beat with demote := bump s.b.beat.demote 0xFFFFFFFF } ∧
        t.b.fab.halyT = s.b.fab.halyT.erase tr ∧ kept t.b dst = kept s.b dst + (chunksOf maxData tr.bytes).length ∧ t.mem = s.mem) ∧
      (demotes s.b e = false → ∀ o, portAt s.b e.outPort = some o → o < s.b.ports.length →
        let room := 56 * (e.len - 1)
        let now := tr.bytes.take room
        let later := tr.bytes.drop room
        let seq := (getDst s.b dst).next
        let pre := { tr.pre with e2e := seq, spec := specLO now.length start }
        ∃ t, exec (.halyardWindow idx) s = .next t ∧ (getDst t.b dst).next = (seq + 1) % 2 ^ 32 ∧ kept t.b dst = kept s.b dst + 1 ∧
          (getP t.b o).halyQ = (getP s.b o).halyQ ++ halyCells e.outId (cryptPkt s.b tr.rank 0 { hdr := hdrTo s.b dst 0 0, body := .coll pre now }) ∧
          t.b.fab.halyT = { tr with bytes := now, seq := some seq, pre } ::
            (if later = [] then [] else [{ tr with bytes := later, pre := { tr.pre with spec := specLO later.length (start + room) } }]) ++ s.b.fab.halyT.erase tr ∧
          t.b.beat = s.b.beat ∧ t.mem = s.mem)) ∧
    (∀ idx tr o, (s.b.fab.halyT.find? fun t => t.idx == idx && t.seq.isSome) = some tr → portAt s.b (getHaly s.b idx).outPort = some o → o < s.b.ports.length →
      let mine := fun (c : FCell) => match c with | .halyard id _ _ => id == (getHaly s.b idx).outId | _ => false
      let dst := transDst s.b tr
      ((getP s.b o).halyQ.filter mine = [] → exec (.overrun idx) s = .next { s with b := { s.b with fab := { s.b.fab with halyT := s.b.fab.halyT.erase tr } } }) ∧
      (∀ id k pay r, (getP s.b o).halyQ.filter mine = .halyard id (k + 1) pay :: r → tr.pre.type = 1 → ∃ t, exec (.overrun idx) s = .next t ∧
        t.b.beat = { s.b.beat with overrun := bump s.b.beat.overrun 0x7FFFFFFF } ∧ (getP t.b o).halyQ = (getP s.b o).halyQ.filter (fun c => !mine c) ∧
        kept t.b dst = kept s.b dst + (chunksOf maxData (tr.bytes.drop (56 * k))).length ∧ t.b.fab.halyT = s.b.fab.halyT.erase tr ∧ t.mem = s.mem))

/-! ### The dies and the memory ports -/

/-- Requests of a die: during a block reset NOT_READY, for a function that its port may not act for DENIED. A permitted DOORBELL is a write of FN_DB; SET and
ADD operate on the pennant, or wait for the writes a FENCE names; READ answers its value; a WATCH notifies at once or waits; an UNWATCH withdraws it; MWR and MRD go to
the port of their page. Responses, time limits and the FDI's losses end this engine's accesses; credits and injected packets are taken.
The model's choices: logs 9, 39, 62 and 63. -/
def Obligations.DieMessagesAct : Prop :=
  ∀ (s : State) (p f tag : Nat), alive s.b = true → s.b.stores = [] → p < s.b.d2d.length →
    let d := getD2 s.b p
    let next := fun (i : Instr) (b : Blk) => exec i s = .next { s with b }
    let units := fun (n : Nat) => cdiv (16 + n) 64
    let back := fun (n : Nat) => giveBack s.b p 0 (units n)
    let rsp := fun (b : Blk) (type status : Nat) (body : List Byte) => dSend b p { type, flags := 0, fn := f, tag, arg := status, body }
    let zero := List.replicate 8 (0 : Byte)
    let mask := tb (getFn s.b f).d2dMask p
    let may := dieTalks s.b p = true ∧ s.b.life.phase = .run ∧ mask = true
    let running := fun (id : CmdId) (c : Cmd) => findCmd s.b id = some c ∧ c.phase = .running
    let ends := fun (i : Instr) (id : CmdId) => ∃ t r, exec i s = .next t ∧ EndedWith t.b id 0x31 r
    (∀ vid v v' fence wtag form addr len en bs,
      ∀ row ∈ ([(.d2dSet p f vid tag fence v, 3, 16, 8), (.d2dAdd p f vid tag fence v, 3, 16, 8), (.d2dRead p f vid tag, 3, 16, 8),
          (.watch p f vid tag wtag form v v', 3, 16, 8), (.unwatch p f tag wtag, 3, 16, 8), (.mwr p f tag addr en bs, 6, bs.length, 0),
          (.mrd p f tag addr len, 8, 8, 0)] : List (Instr × Nat × Nat × Nat)), dieTalks s.b p = true →
      (s.b.life.phase ≠ .run → next row.1 (rsp (back row.2.2.1) row.2.1 3 (List.replicate row.2.2.2 0))) ∧
      (s.b.life.phase = .run → mask = false →
        next row.1 (rsp (modD2 (back row.2.2.1) p fun d => { d with denied := bump d.denied 65535 }) row.2.1 1 (List.replicate row.2.2.2 0)))) ∧
    (∀ q, dieTalks s.b p = true →
      (mask = true → exec (.d2dDoorbell p f q) s = exec (.doorbell f q 0) { s with b := giveBack s.b p 0 1 }) ∧
      (mask = false → next (.d2dDoorbell p f q) (modD2 (giveBack s.b p 0 1) p fun d => { d with denied := bump d.denied 65535 }))) ∧
    (may → ∀ vid v,
      (penIdx s.b f vid = none → next (.d2dRead p f vid tag) (rsp (back 16) 3 2 zero)) ∧
      ∀ i, penIdx s.b f vid = some i →
        let old := getPen s.b i
        next (.d2dRead p f vid tag) (rsp (back 16) 3 0 (leBytes old.value.toNat 8)) ∧
        (∀ row ∈ ([(.d2dSet p f vid tag false v, v), (.d2dAdd p f vid tag false v, old.value + v)] : List (Instr × Word)), d.held = [] →
          ∃ t w, exec row.1 s = .next t ∧ t.mem = s.mem ∧ (∀ k, k ≠ i → getPen t.b k = getPen s.b k) ∧
            getPen t.b i = { old with value := row.2, sigCount := (old.sigCount + 1) % 2 ^ 48, lastEp := selfEp s.b, lastFn := f, lastKind := 4
                                      lastTag := tag % 2 ^ 32, waiters := w }) ∧
        (∀ add, (d.accs.filter (·.wr)) ≠ [] → d.held = [] → ∃ t, exec (if add = true then .d2dAdd p f vid tag true v else .d2dSet p f vid tag true v) s = .next t ∧
          (getD2 t.b p).held = [{ f, vid, tag, add, value := v, waits := (d.accs.filter (·.wr)).map (·.n) }] ∧ t.b.pens = s.b.pens)) ∧
    (may → ∀ vid wtag form v k,
      let pending := s.b.watches.filter fun w => w.port == p && w.wtag == wtag
      let w := fun (i : Nat) => ({ port := p, wtag, pen := i, f, form, value := v, mask := k } : Watch)
      (pending ≠ [] → next (.watch p f vid tag wtag form v k) (rsp (modD2 (back 16) p fun d => { d with denied := bump d.denied 65535 }) 3 1 zero)) ∧
      (pending = [] → penIdx s.b f vid = none → next (.watch p f vid tag wtag form v k) (rsp (back 16) 3 2 zero)) ∧
      (pending = [] → ∀ i, penIdx s.b f vid = some i →
        let now := (getPen s.b i).value
        (condHolds form v.toNat k.toNat now.toNat = true → next (.watch p f vid tag wtag form v k) (notify (rsp (back 16) 3 0 zero) (w i) 0 now)) ∧
        (condHolds form v.toNat k.toNat now.toNat = false → next (.watch p f vid tag wtag form v k)
          (modPen { (rsp (back 16) 3 0 zero) with watches := s.b.watches ++ [w i] } i fun e => { e with waiters := e.waiters + 1 }))) ∧
      (pending = [] → next (.unwatch p f tag wtag) (rsp (back 16) 3 5 zero)) ∧
      (∀ x r, pending = x :: r → next (.unwatch p f tag wtag) (rsp (modPen { (back 16) with watches := s.b.watches.filter fun y => !(y.port == p && y.wtag == wtag) }
        x.pen fun e => { e with waiters := e.waiters - 1 }) 3 0 zero))) ∧
    (may → ∀ addr en bs len,
      let va := addr / 64 * 64
      let key := fnKey s.b f 0 va
      let acc := fun (wr : Bool) (n : Nat) => modD2 (back n) p fun d => { d with
        accs := d.accs ++ [{ n := d.nextAcc, tag, f, va, wr, runs := if wr = true then enabledRuns en bs else []
                             lines := if wr = true then cdiv bs.length 64 else max 1 (min 64 (cdiv len 64)) }], nextAcc := d.nextAcc + 1 }
      (∀ x m, s.b.xlats.find? (xlCovers · (getFn s.b f).context va) = some x → portOf s.b key = some m →
        let runs := (enabledRuns en bs).map fun r => (key + r.1, r.2)
        (x.wr = true → next (.mwr p f tag addr en bs) (modM (acc true bs.length) m fun q => startMem { q with
          wrWait := q.wrWait ++ [{ tag := 0, bytes := runs, puts := max 1 (putsOf runs), msi := false, use := .die p d.nextAcc }] })) ∧
        next (.mrd p f tag addr len) (modM (acc false 8) m fun q => startMem { q with
          rdWait := q.rdWait ++ [{ tag := 0, addr := key, lines := max 1 (min 64 (cdiv len 64)), vol := false, use := .die p d.nextAcc }] })) ∧
      (s.b.xlats.find? (xlCovers · (getFn s.b f).context va) = none →
        next (.mwr p f tag addr en bs) (needXl (acc true bs.length) f va true (.die p d.nextAcc)) ∧
        next (.mrd p f tag addr len) (needXl (acc false 8) f va false (.die p d.nextAcc)))) ∧
    (dieTalks s.b p = true → ∀ status bytes,
      ∀ row ∈ ([(.mwrRsp p tag status, true, 1), (.mrdData p tag status bytes, false, units bytes.length)] : List (Instr × Bool × Nat)),
      ((d.outs.find? fun o => o.tag == tag && o.write == row.2.1) = none → next row.1 (giveBack s.b p 1 row.2.2)) ∧
      ∀ o, (d.outs.find? fun o => o.tag == tag && o.write == row.2.1) = some o →
        (status = 0 → next row.1 (modD2 (giveBack s.b p 1 row.2.2) p fun d => { d with outs := d.outs.erase o })) ∧
        (∀ id c, status ≠ 0 → o.who = .cmd id → running id c → ends row.1 id)) ∧
    ((d.outs.find? fun o => o.tag == tag) = none → exec (.d2dTimeout p tag) s = .next s) ∧
    (∀ o id c, (d.outs.find? fun o => o.tag == tag) = some o → o.who = .cmd id → running id c → ends (.d2dTimeout p tag) id) ∧
    (may → ∀ dst bytes,
      let u := units bytes.length
      let pkt : Pkt := { hdr := hdrTo s.b dst 0 1, body := .other bytes }
      let ordered := tb (leAt bytes 0 8) 11
      let alt := if ordered = true then false else chooseAlt s.b (routeOf s.b dst) 1
      ((dst ≠ selfEp s.b ∧ rtValid (routeOf s.b dst) = false) ∨ 3072 < bytes.length → next (.pktTx p f tag dst bytes) (rsp (giveBack s.b p 2 u) 0x0B 4 [])) ∧
      (∀ n, dst ≠ selfEp s.b → rtValid (routeOf s.b dst) = true → bytes.length ≤ 3072 → portAt s.b (rtCode (routeOf s.b dst) alt 0) = some n →
        next (.pktTx p f tag dst bytes) (sendTo (modP (if mayInject s.b n = true then giveBack s.b p 2 u else modD2 s.b p fun d => { d with owed := d.owed + u }) n
          fun q => { q with injected := q.injected + (cellsOf pkt).length }) pkt none (b2n ordered)))) ∧
    (∀ req r oth, dieTalks s.b p = true → next (.credit p req r oth)
      (modD2 s.b p fun d => dPump { d with cReq := d.cReq + req, cRsp := d.cRsp + r, cOth := d.cOth + oth })) ∧
    (p < 4 → d.state ≠ 2 → d.cfgErr = false →
      (d.state = 0 → next (.fdiState p true false) (modD2 s.b p fun d => { d with cfgErr := true, stateReq := fdiDisabled })) ∧
      (d.state = 0 → next (.fdiState p true true) (dSend (modD2 s.b p fun d => { d with
        state := if s.b.life.phase = .run then 1 else 3, everActive := true, stateReq := fdiActive, cReq := 0, cRsp := 0, cOth := 0
        gReq := 1024, gRsp := 1024, gOth := 1024, owed := 0, sent := [] }) p (creditMsg 1024 1024 1024))) ∧
      (d.state ≠ 0 → ∀ ok,
        (d.outs = [] → next (.fdiState p false ok) (modD2 s.b p fun d => { d with
          state := 0, linkLoss := bump d.linkLoss 65535, outs := [], owed := 0, outq := d.outq.filter fun x => x.type != 5 && x.type != 7 })) ∧
        (∀ o id c, d.outs = [o] → o.who = .cmd id → running id c → ends (.fdiState p false ok) id)) ∧
      (d.state = 0 → d.everActive = true → ∃ t, exec (.d2dLinkLoss p) s = .next t ∧ (getD2 t.b p).state = 2 ∧ (∀ w ∈ t.b.watches, w.port ≠ p)))

/-- A memory port's answers: data and completions free their request, a completed write makes its bytes visible, a translation is kept. An answer that is not OK ends
the command it is for with the status of its kind and is counted; one that no request has asked for, and a request without answer in time, fence the port. An
invalidation drops the translations it covers and is answered once no request uses them; credits start what waits; a halt discards what has no answer, and at its time
limit reads and translations are issued again.
The model's choices: logs 20 and 21. -/
def Obligations.MemoryPortsAnswer : Prop :=
  ∀ (s : State) (m tag : Nat), alive s.b = true → s.b.stores = [] → m < s.b.memp.length → m < 16 →
    let port := getM s.b m
    let next := fun (i : Instr) (b : Blk) => exec i s = .next { s with b }
    let running := fun (id : CmdId) (c : Cmd) => findCmd s.b id = some c ∧ c.phase = .running ∧ (getFn s.b id.f).fenced = false
    let ends := fun (i : Instr) (id : CmdId) (status : Nat) => ∃ t r, exec i s = .next t ∧ EndedWith t.b id status r
    let fences := fun (i : Instr) => port.state ≠ 2 → ∃ t, exec i s = .next t ∧ (getM t.b m).state = 2 ∧ (getM t.b m).halt = true
    let quiet := ∀ q ∈ s.b.memp, q.invals = []
    (∀ stat bytes page size wr,
      ((∀ r ∈ port.reads, r.tag ≠ tag) → fences (.readData m tag stat bytes)) ∧
      ((∀ r ∈ port.writes, r.tag ≠ tag) → fences (.writeCompletion m tag stat)) ∧
      ((∀ r ∈ port.xlats, r.tag ≠ tag) → fences (.translationAnswer m tag stat page size wr))) ∧
    (∀ r bytes, (port.reads.find? fun r => r.tag == tag) = some r →
      (∀ id sp va, r.use = .cmd id sp va →
        (quiet → bytes.length = 64 * r.lines → next (.readData m tag 0 bytes) (modM s.b m fun q => startMem { q with reads := q.reads.erase r })) ∧
        (∀ c stat, stat ≠ 0 → running id c → ends (.readData m tag stat bytes) id 0x31)) ∧
      (∀ p n a, r.use = .die p n → quiet → bytes.length = 64 * r.lines → ((getD2 s.b p).accs.find? fun a => a.n == n) = some a → a.wr = false →
        next (.readData m tag 0 bytes) (dSend (modD2 (modM s.b m fun q => startMem { q with reads := q.reads.erase r }) p fun d => { d with
          accs := d.accs.filter fun a => a.n != n }) p { type := 8, flags := 0, fn := a.f, tag := a.tag, arg := 0, body := bytes }))) ∧
    (∀ w, (port.writes.find? fun w => w.tag == tag) = some w →
      (∀ f lsn, w.use = .log f lsn → quiet → exec (.writeCompletion m tag 0) s =
        .next { s with b := modM s.b m fun q => startMem { q with writes := q.writes.erase w }, mem := applyStores s.mem w.bytes }) ∧
      (∀ id sp va c stat, w.use = .cmd id sp va → stat ≠ 0 → running id c → ends (.writeCompletion m tag stat) id 0x31)) ∧
    (∀ x page size wr, (port.xlats.find? fun x => x.tag == tag) = some x →
      let freed := modM s.b m fun q => startMem { q with xlats := q.xlats.erase x }
      (∀ stat, x.stale = true → next (.translationAnswer m tag stat page size wr) (modM freed m fun q => startMem { q with xlWait := q.xlWait ++ [{ x with stale := false }] })) ∧
      (∀ id sp va, x.stale = false → x.use = .cmd id sp va →
        (x.wr = false ∨ wr = true →
          let lg := max 12 (min 30 size)
          next (.translationAnswer m tag 0 page size wr) { freed with
            xlats := s.b.xlats ++ [{ ctx := x.ctx, vpage := x.page / 2 ^ lg * 2 ^ lg, ppage := page / 2 ^ lg * 2 ^ lg, size := lg, wr }] }) ∧
        (∀ c, running id c → (x.wr = true → wr = false → ends (.translationAnswer m tag 0 page size wr) id 0x31) ∧
          ends (.translationAnswer m tag 1 page size wr) id 0x30 ∧ ends (.translationAnswer m tag 2 page size wr) id 0x31))) ∧
    (∀ ctx page size all,
      (16 ≤ port.invals.length ∨ (∃ v ∈ port.invals, v.1 = tag) → fences (.invalidation m tag ctx page size all)) ∧
      (port.invals.length < 16 → (∀ v ∈ port.invals, v.1 ≠ tag) → ∃ t, exec (.invalidation m tag ctx page size all) s = .next t ∧
        t.b.xlats = (s.b.xlats.filter fun x => !covered all ctx page size x.ctx x.vpage x.size) ∧ t = { s with b := { s.b with xlats := t.b.xlats, memp := t.b.memp } } ∧
        (quiet → (∀ q ∈ s.b.memp, q.reads = [] ∧ q.rdWait = [] ∧ q.writes = [] ∧ q.wrWait = []) → (getM t.b m).done = port.done ++ [tag] ∧ (getM t.b m).invals = []))) ∧
    (∀ rq wq xq, next (.memCredit m rq wq xq) (modM s.b m fun q => startMem { q with
      rq := min 1024 (q.rq + rq), wq := min 1024 (q.wq + wq), xq := min 256 (q.xq + xq), state := if q.state = 0 then 1 else q.state })) ∧
    (∀ kind,
      let out := (kind = 0 ∧ ∃ r ∈ port.reads, r.tag = tag) ∨ (kind = 1 ∧ ∃ r ∈ port.writes, r.tag = tag) ∨ (1 < kind ∧ ∃ r ∈ port.xlats, r.tag = tag)
      (out → port.state = 1 → fences (.memTimeout m kind tag)) ∧ (¬ out ∨ port.state ≠ 1 → exec (.memTimeout m kind tag) s = .next s)) ∧
    (port.halt = true → port.halted = false → port.state ≠ 2 → quiet →
      next (.haltDone m) (modM s.b m fun q => { q with halted := true, reads := [], writes := [], xlats := [] }) ∧
      (port.writes = [] → next (.haltTimeout m) (modM s.b m fun q => { q with
        halted := true, reads := [], writes := [], xlats := [], rdWait := q.reads ++ q.rdWait, xlWait := q.xlats ++ q.xlWait })) ∧
      (∀ w id sp va c, port.writes = [w] → w.use = .cmd id sp va → running id c → ends (.haltTimeout m) id 0x31)) ∧
    (port.halt = false ∨ port.halted = true → exec (.haltDone m) s = .next s ∧ exec (.haltTimeout m) s = .next s)

/-! ### Faults, resets, test -/

/-- A staging error fences its tile, a sequencer that hangs its sequencer or, without a spare one left, its tile (not while CRIT holds), a core that hangs its core,
whose role the spare takes, and a sector fault its sector with every tile of it. A table error breaks the group, invalidates the route or domain, frees the halyard
entry, or, in the pennant store, loses the block, as every fatal cause does. A role that is back replays its management commands.
The model's choices: log 22. -/
def Obligations.FaultsAreContained : Prop :=
  ∀ (s : State), alive s.b = true → s.b.stores = [] →
    (∀ n, n < s.b.tiles.length → tileExists s.b n = true → (getTile s.b n).state ≠ 3 →
      (∃ t, exec (.stagingEcc n) s = .next t ∧ (getTile t.b n).state = 3 ∧ (getTile t.b n).cause = 2 ∧
        (getTile t.b n).fenceBeat = s.b.beat.count % 2 ^ 32 ∧ ∀ k, k ≠ n → getTile t.b k = getTile s.b k) ∧
      ∀ q, (getTile s.b n).seqDue.contains q = false →
        (s.b.pwr.crit = true → exec (.seqWatchdog n q) s = .next s) ∧
        (s.b.pwr.crit = false → ∃ t, exec (.seqWatchdog n q) s = .next t ∧ (∀ k, k ≠ n → getTile t.b k = getTile s.b k) ∧
          ((getTile s.b n).seqSpares < 2 → (getTile t.b n).seqDue = q :: (getTile s.b n).seqDue ∧ (getTile t.b n).state = (getTile s.b n).state) ∧
          (2 ≤ (getTile s.b n).seqSpares → (getTile t.b n).state = 3 ∧ (getTile t.b n).cause = 3))) ∧
    (∀ k x, k < s.b.cores.length → s.b.cores.getD k core0 = x → x.fenced = false → ∃ t, exec (.coreWatchdog k) s = .next t ∧
      t.b.cores.getD k core0 = { x with fenced := true, role := 0, restarting := false } ∧
      (x.role = 0 → ∀ j, j ≠ k → t.b.cores.getD j core0 = s.b.cores.getD j core0) ∧
      ∀ j, x.role ≠ 0 → j ≠ k → j < s.b.cores.length → (s.b.cores.getD j core0).fenced = false → (s.b.cores.getD j core0).role = 0 →
        (∀ i, i < j → i ≠ k → (s.b.cores.getD i core0).fenced = true ∨ (s.b.cores.getD i core0).role ≠ 0) →
        t.b.cores.getD j core0 = { (s.b.cores.getD j core0) with role := x.role, restarting := true } ∧ t.b.restarts = bump s.b.restarts 65535) ∧
    (∀ n cause, (cause ≠ 2 → cause ≠ 9 → exec (.sectorFault n cause) s = .next s) ∧
      (cause = 2 ∨ cause = 9 → n < s.b.sectors.length → sectorExists s.b n = true → (getSect s.b n).fenced = false → ∃ t, exec (.sectorFault n cause) s = .next t ∧
        (getSect t.b n).fenced = true ∧ (getSect t.b n).cause = cause ∧ ∀ j, j < 16 → 16 * n + j < s.b.tiles.length → (getTile t.b (16 * n + j)).state = 3)) ∧
    (awake s.b = true → ∀ i,
      (∀ table ∈ [6, 7], exec (.tableEcc table i) s = exec (.fatal 5) s) ∧
      (∃ t, exec (.tableEcc 2 i) s = .next t ∧ t.b.t = { s.b.t with route := tmod 0 s.b.t.route i fun e => setBit e 255 false }) ∧
      (∃ t, exec (.tableEcc 4 i) s = .next t ∧ t.b.t = { s.b.t with haly := tmod haly0 s.b.t.haly i fun _ => haly0 }) ∧
      (∀ g, tget group0 s.b.t.group i = g → g.valid = true → g.state = 1 → g.locs ≠ [] → ∃ t, exec (.tableEcc 0 i) s = .next t ∧
        (tget group0 t.b.t.group i).state = 2 ∧ (tget group0 t.b.t.group i).brokenCause = 3 ∧
        (tget group0 t.b.t.group i).brokenRank = (g.locs.map (·.2)).foldl min 8191)) ∧
    (∀ cause, cause < 7 → ∃ t, exec (.fatal cause) s = .next t ∧ t.b.life.fatal = setBit 0 cause true ∧ alive t.b = false ∧
      (∀ p ∈ t.b.ports, p.state = 0 ∨ p.state = 3) ∧ (∀ d ∈ t.b.d2d, d.stateReq = fdiError ∧ (d.state = 0 ∨ d.state = 2)) ∧ t.mem = s.mem) ∧
    (awake s.b = true → ∀ k,
      ((s.b.cores.getD k core0).restarting = false → exec (.roleRestart k) s = .next s) ∧
      ((s.b.cores.getD k core0).restarting = true →
        let mine := s.b.cmds.filter fun c => c.id.f == 0 && decide (0x80 ≤ opOf c) && decide (c.phase = .running)
        (mine = [] → exec (.roleRestart k) s = .next { s with b := { s.b with cores := s.b.cores.modify k fun c => { c with restarting := false } } }) ∧
        ∀ c, mine = [c] → findCmd s.b c.id = some c → ∃ t c', exec (.roleRestart k) s = .next t ∧ findCmd t.b c.id = some c' ∧ c'.flags = c.flags ||| 2 ∧
          c'.raw = c.raw ∧ (c.applied = none → c'.phase = .accepted ∧ c'.effectDone = false) ∧ (c.applied ≠ none → c' = { c with flags := c.flags ||| 2 })))

/-- A cold reset holds every register at its reset value but the SVN floor, and RST_DONE lets the block work. Firmware is loaded from the acceptable image of the higher
version, which raises the floor to three below its SVN, or the block is lost. A block reset notes the functions with writes outstanding, restarts the firmware, and runs
again with memory, pennants and APPLIED_LSN kept and nothing in flight.
The model's choices: logs 22, 23, 56, 64 and 67. -/
def Obligations.ResetsRun : Prop :=
  ∀ (s : State), s.b.stores = [] →
    (s.b.part = State.reset.b.part → ∃ t, exec .coldReset s = .next t ∧ t.mem = s.mem ∧ ¬ CtlOpen t ∧
      t.b.ctl = State.reset.b.ctl ∧ t.b.t = State.reset.b.t ∧ t.b.fns = [] ∧ t.b.cmds = [] ∧ t.b.pens = [] ∧ t.b.ports = State.reset.b.ports ∧ t.b.fab = State.reset.b.fab ∧
      t.b.beat = State.reset.b.beat ∧ t.b.pwr = State.reset.b.pwr ∧ t.b.tiles = State.reset.b.tiles ∧ t.b.sectors = State.reset.b.sectors ∧ t.b.memp = State.reset.b.memp ∧
      t.b.d2d = State.reset.b.d2d ∧ t.b.xlats = [] ∧ t.b.life = { State.reset.b.life with inReset := true } ∧
      t.b.sec = { State.reset.b.sec with svnFloor := s.b.sec.svnFloor }) ∧
    (s.b.life.scanMode = false → exec .rstDone s = .next { s with b := { s.b with life := { s.b.life with inReset := false } } }) ∧
    (alive s.b = true → ∀ fl,
      let loads := s.b.life.fwVersion = 0 ∧ s.b.life.lastCold = true ∧ s.b.life.phase = .run
      let ok := fun (i : FwImage) => i.sigOk = true ∧ s.b.sec.svnFloor ≤ i.svn
      let none' := fun (i : Option FwImage) => ∀ x, i = some x → ¬ ok x
      (¬ loads → exec (.firmwareLoad fl) s = .next s) ∧
      (loads → fl.directoryOk = true → fl.repairOk = true → ∀ i slot,
        (slot = 0 ∧ fl.fwA = some i ∧ ok i ∧ (none' fl.fwB ∨ ∃ c, fl.fwB = some c ∧ ok c ∧ c.version ≤ i.version)) ∨
        (slot = 1 ∧ fl.fwB = some i ∧ ok i ∧ (none' fl.fwA ∨ ∃ a, fl.fwA = some a ∧ ok a ∧ a.version < i.version)) →
        ∃ t, exec (.firmwareLoad fl) s = .next t ∧ t.b.life = { s.b.life with fwVersion := i.version % 2 ^ 24 } ∧ t.b.sec.fwSlot = slot ∧
          t.b.sec.svnFloor = (if i.version % 2 ^ 24 = 0 then s.b.sec.svnFloor else max s.b.sec.svnFloor (i.svn % 64 - 3)) ∧
          (∀ k, k < 2 → k < s.b.cores.length → (t.b.cores.getD k core0).role = k + 1) ∧ (∀ d ∈ t.b.d2d, d.stateReq = fdiActive) ∧ t.mem = s.mem ∧ t.b.fns = s.b.fns) ∧
      (loads → fl.directoryOk = false ∨ fl.repairOk = false ∨ (none' fl.fwA ∧ none' fl.fwB) → ∃ t, exec (.firmwareLoad fl) s = .next t ∧ t.b.life.fatal = 4 ∧
        t.b.life.fwVersion = 0)) ∧
    (alive s.b = true → ∀ stuck,
      (s.b.life.phase ≠ .quiesce → exec (.quiesce stuck) s = .next s) ∧
      (s.b.life.phase = .quiesce →
        let us := ((stuck ++ writesOf s.b).eraseDups).filter fun f => (getFn s.b f).enabled
        ∃ t, exec (.quiesce stuck) s = .next t ∧ t.b.life = { s.b.life with phase := .firmware, unquiesced := us.length } ∧ t.mem = s.mem ∧
          (∀ f ∈ us, (getFn t.b f).unquiesced = true) ∧ (∀ q ∈ t.b.memp, q.rdWait = [] ∧ q.wrWait = [] ∧ q.xlWait = []) ∧
          t = { s with b := { s.b with fns := t.b.fns, life := t.b.life, memp := t.b.memp } })) ∧
    (alive s.b = true → ∀ us,
      (s.b.life.phase ≠ .firmware → exec (.firmwareRestart us) s = .next s) ∧
      (s.b.life.phase = .firmware → s.b.cmds = [] → s.b.t.stream = [] → ∃ t, exec (.firmwareRestart us) s = .next t ∧
        t.b.life = { s.b.life with phase := .run, replayUs := min us 0xFFFFFFFF } ∧ t.b.pens = s.b.pens ∧ t.b.cmds = [] ∧ t.b.t.haly = [] ∧ t.b.t.dir = s.b.t.dir ∧
        t.b.t.route = s.b.t.route ∧ t.b.t.mcast = s.b.t.mcast ∧ t.b.sec = { s.b.sec with hostSessions := 0, gks := t.b.sec.gks } ∧ t.b.beat.run = s.b.life.runWas ∧
        t.b.beat.count = s.b.beat.count ∧ (∀ q ∈ t.b.memp, q.state ≠ 2 → q.halt = false) ∧ ∀ c ∈ t.b.cores, c.restarting = false))

/-- Scan mode erases every key and puts lanes, dies' links and beat output at their reset values. TAP_RESET selects IDCODE, TAP_INSTRUCTION loads the instruction register;
CTLRD captures a register without changing any, or zero while DBG_DIS is 1, and does nothing under another instruction. TC_TAPCTL: DBG_DIS once set stays;
FLASH_REL releases the flash pins, after a flash access under way ends, and takes them back when cleared. A checker counts what its lane receives: 128 correct
bits in a row lock it, and only a locked one counts errors.
The model's choices: log 9. -/
def Obligations.TestAccessWorks : Prop :=
  ∀ (s : State), s.b.stores = [] →
    (∃ t, exec .scanMode s = .next t ∧ t.b.life = { s.b.life with scanMode := true } ∧ t.b.sec = { s.b.sec with fs := none, gks := [], erased := true } ∧
      (∀ p ∈ t.b.ports, p.txei = 0x1FFF ∧ p.phyRstN = false ∧ p.txActive = 0 ∧ p.lpReq = false) ∧ (∀ d ∈ t.b.d2d, d.stateReq = 0) ∧
      t.b.beat = { s.b.beat with beatOut := false } ∧ t.b.t = s.b.t ∧ t.b.fns = s.b.fns ∧ t.b.tiles = s.b.tiles ∧ t.mem = s.mem) ∧
    exec .tapReset s = .next { s with b := { s.b with test := { s.b.test with ir := 1, tapActive := false } } } ∧
    (∀ ir, exec (.tapInstruction ir) s = .next { s with b := { s.b with test := { s.b.test with ir := ir % 256, tapActive := true } } }) ∧
    (CtlOpen s → ∀ v,
      let x := s.b.test
      let set := { s with b := { s.b with test := { x with
        dbgDis := x.dbgDis || tb v.toNat 63
        flashRel := tb v.toNat 62 && (x.flashRel || !x.flashBusy), flashRelDue := tb v.toNat 62 && !x.flashRel && x.flashBusy } } }
      exec (.dbgDis v) s = .next set ∧ exec (.flashRel v) s = .next set) ∧
    (CtlOpen s → ∀ v,
      (s.b.test.ir = 8 → exec (.ctlrd v) s = .next { s with b := { s.b with test := { s.b.test with
        capture := if s.b.test.dbgDis = true then 0 else ctlRead s.b (8 * (v % 2 ^ 21)) } } }) ∧
      (s.b.test.ir ≠ 8 → exec (.ctlrd v) s = .next s)) ∧
    (alive s.b = true → ∀ n lane bits, n < s.b.ports.length →
      let p := getP s.b n
      let lanes := fld p.prbsCtl.toNat 59 47
      let short := tb p.prbsCtl.toNat 62
      let old := tget checker0 p.prbs lane
      (p.prbsAct = false ∨ tb lanes lane = false → exec (.prbsChecker n lane bits) s = .next s) ∧
      (p.prbsAct = true → tb lanes lane = true → ∃ t, exec (.prbsChecker n lane bits) s = .next t ∧ t = { s with b := { s.b with ports := t.b.ports } } ∧
        (∀ k, k ≠ n → getP t.b k = getP s.b k) ∧ getP t.b n = { p with prbs := (getP t.b n).prbs, prbsBits := (getP t.b n).prbsBits } ∧
        (∀ k, k ≠ lane → tget checker0 (getP t.b n).prbs k = tget checker0 p.prbs k) ∧
        (∀ x, bits = [x] → twf checker0 p.prbs = true →
          let new := tget checker0 (getP t.b n).prbs lane
          let want := prbsNext short old.hist
          let full := old.hist.length = if short = true then 13 else 31
          (old.lock = false → new.err = old.err ∧ (new.lock = true ↔ full ∧ x = want ∧ 128 ≤ old.run + 1)) ∧
          (old.lock = true → new.err = (if x = want then old.err else min (old.err + 1) (2 ^ 64 - 1)) ∧
            (new.lock = false ↔ 64 ≤ ((old.win.map (· + 1)).filter fun a => decide (a < 1024)).length + (if x = want then 0 else 1))))))
end

