-- ==== Sys2Proof/Laws/State.lean ====
section
/-!
SUPPORT. One lemma for each field and each update of State: what the update leaves is read off without unfolding a record.
-/
namespace Sys2Proof.Machine

variable (b b' : Blk) (s : State)

@[simp] theorem commit_b_part : (commit s b).b.part = b.part := rfl
@[simp] theorem commit_b_life : (commit s b).b.life = b.life := rfl
@[simp] theorem commit_b_ctl : (commit s b).b.ctl = b.ctl := rfl
@[simp] theorem commit_b_beat : (commit s b).b.beat = b.beat := rfl
@[simp] theorem commit_b_pwr : (commit s b).b.pwr = b.pwr := rfl
@[simp] theorem commit_b_sec : (commit s b).b.sec = b.sec := rfl
@[simp] theorem commit_b_test : (commit s b).b.test = b.test := rfl
@[simp] theorem commit_b_tiles : (commit s b).b.tiles = b.tiles := rfl
@[simp] theorem commit_b_sectors : (commit s b).b.sectors = b.sectors := rfl
@[simp] theorem commit_b_cores : (commit s b).b.cores = b.cores := rfl
@[simp] theorem commit_b_restarts : (commit s b).b.restarts = b.restarts := rfl
@[simp] theorem commit_b_t : (commit s b).b.t = b.t := rfl
@[simp] theorem commit_b_snap : (commit s b).b.snap = b.snap := rfl
@[simp] theorem commit_b_shadow : (commit s b).b.shadow = b.shadow := rfl
@[simp] theorem commit_b_due : (commit s b).b.due = b.due := rfl
@[simp] theorem commit_b_pens : (commit s b).b.pens = b.pens := rfl
@[simp] theorem commit_b_watches : (commit s b).b.watches = b.watches := rfl
@[simp] theorem commit_b_fns : (commit s b).b.fns = b.fns := rfl
@[simp] theorem commit_b_cmds : (commit s b).b.cmds = b.cmds := rfl
@[simp] theorem commit_b_dlck : (commit s b).b.dlck = b.dlck := rfl
@[simp] theorem commit_b_staged : (commit s b).b.staged = b.staged := rfl
@[simp] theorem commit_b_forming : (commit s b).b.forming = b.forming := rfl
@[simp] theorem commit_b_walks : (commit s b).b.walks = b.walks := rfl
@[simp] theorem commit_b_compiles : (commit s b).b.compiles = b.compiles := rfl
@[simp] theorem commit_b_ports : (commit s b).b.ports = b.ports := rfl
@[simp] theorem commit_b_fab : (commit s b).b.fab = b.fab := rfl
@[simp] theorem commit_b_d2d : (commit s b).b.d2d = b.d2d := rfl
@[simp] theorem commit_b_memp : (commit s b).b.memp = b.memp := rfl
@[simp] theorem commit_b_xlats : (commit s b).b.xlats = b.xlats := rfl
@[simp] theorem commit_b_fresh : (commit s b).b.fresh = b.fresh := rfl
@[simp] theorem commit_b_stores : (commit s b).b.stores = [] := rfl
@[simp] theorem commit_mem : (commit s b).mem = applyStores s.mem b.stores := rfl
@[simp] theorem commit_pending : (commit s b).pending = s.pending := rfl

@[simp] theorem store_part (k : Nat) (bs : List Byte) : (store b k bs).part = b.part := rfl
@[simp] theorem store_life (k : Nat) (bs : List Byte) : (store b k bs).life = b.life := rfl
@[simp] theorem store_ctl (k : Nat) (bs : List Byte) : (store b k bs).ctl = b.ctl := rfl
@[simp] theorem store_beat (k : Nat) (bs : List Byte) : (store b k bs).beat = b.beat := rfl
@[simp] theorem store_pwr (k : Nat) (bs : List Byte) : (store b k bs).pwr = b.pwr := rfl
@[simp] theorem store_sec (k : Nat) (bs : List Byte) : (store b k bs).sec = b.sec := rfl
@[simp] theorem store_test (k : Nat) (bs : List Byte) : (store b k bs).test = b.test := rfl
@[simp] theorem store_tiles (k : Nat) (bs : List Byte) : (store b k bs).tiles = b.tiles := rfl
@[simp] theorem store_sectors (k : Nat) (bs : List Byte) : (store b k bs).sectors = b.sectors := rfl
@[simp] theorem store_cores (k : Nat) (bs : List Byte) : (store b k bs).cores = b.cores := rfl
@[simp] theorem store_restarts (k : Nat) (bs : List Byte) : (store b k bs).restarts = b.restarts := rfl
@[simp] theorem store_t (k : Nat) (bs : List Byte) : (store b k bs).t = b.t := rfl
@[simp] theorem store_snap (k : Nat) (bs : List Byte) : (store b k bs).snap = b.snap := rfl
@[simp] theorem store_shadow (k : Nat) (bs : List Byte) : (store b k bs).shadow = b.shadow := rfl
@[simp] theorem store_due (k : Nat) (bs : List Byte) : (store b k bs).due = b.due := rfl
@[simp] theorem store_pens (k : Nat) (bs : List Byte) : (store b k bs).pens = b.pens := rfl
@[simp] theorem store_watches (k : Nat) (bs : List Byte) : (store b k bs).watches = b.watches := rfl
@[simp] theorem store_fns (k : Nat) (bs : List Byte) : (store b k bs).fns = b.fns := rfl
@[simp] theorem store_cmds (k : Nat) (bs : List Byte) : (store b k bs).cmds = b.cmds := rfl
@[simp] theorem store_dlck (k : Nat) (bs : List Byte) : (store b k bs).dlck = b.dlck := rfl
@[simp] theorem store_staged (k : Nat) (bs : List Byte) : (store b k bs).staged = b.staged := rfl
@[simp] theorem store_forming (k : Nat) (bs : List Byte) : (store b k bs).forming = b.forming := rfl
@[simp] theorem store_walks (k : Nat) (bs : List Byte) : (store b k bs).walks = b.walks := rfl
@[simp] theorem store_compiles (k : Nat) (bs : List Byte) : (store b k bs).compiles = b.compiles := rfl
@[simp] theorem store_ports (k : Nat) (bs : List Byte) : (store b k bs).ports = b.ports := rfl
@[simp] theorem store_fab (k : Nat) (bs : List Byte) : (store b k bs).fab = b.fab := rfl
@[simp] theorem store_d2d (k : Nat) (bs : List Byte) : (store b k bs).d2d = b.d2d := rfl
@[simp] theorem store_memp (k : Nat) (bs : List Byte) : (store b k bs).memp = b.memp := rfl
@[simp] theorem store_xlats (k : Nat) (bs : List Byte) : (store b k bs).xlats = b.xlats := rfl
@[simp] theorem store_fresh (k : Nat) (bs : List Byte) : (store b k bs).fresh = b.fresh := rfl

@[simp] theorem modFn_part (f : Nat) (g : Fn → Fn) : (modFn b f g).part = b.part := rfl
@[simp] theorem modFn_life (f : Nat) (g : Fn → Fn) : (modFn b f g).life = b.life := rfl
@[simp] theorem modFn_ctl (f : Nat) (g : Fn → Fn) : (modFn b f g).ctl = b.ctl := rfl
@[simp] theorem modFn_beat (f : Nat) (g : Fn → Fn) : (modFn b f g).beat = b.beat := rfl
@[simp] theorem modFn_pwr (f : Nat) (g : Fn → Fn) : (modFn b f g).pwr = b.pwr := rfl
@[simp] theorem modFn_sec (f : Nat) (g : Fn → Fn) : (modFn b f g).sec = b.sec := rfl
@[simp] theorem modFn_test (f : Nat) (g : Fn → Fn) : (modFn b f g).test = b.test := rfl
@[simp] theorem modFn_tiles (f : Nat) (g : Fn → Fn) : (modFn b f g).tiles = b.tiles := rfl
@[simp] theorem modFn_sectors (f : Nat) (g : Fn → Fn) : (modFn b f g).sectors = b.sectors := rfl
@[simp] theorem modFn_cores (f : Nat) (g : Fn → Fn) : (modFn b f g).cores = b.cores := rfl
@[simp] theorem modFn_restarts (f : Nat) (g : Fn → Fn) : (modFn b f g).restarts = b.restarts := rfl
@[simp] theorem modFn_t (f : Nat) (g : Fn → Fn) : (modFn b f g).t = b.t := rfl
@[simp] theorem modFn_snap (f : Nat) (g : Fn → Fn) : (modFn b f g).snap = b.snap := rfl
@[simp] theorem modFn_shadow (f : Nat) (g : Fn → Fn) : (modFn b f g).shadow = b.shadow := rfl
@[simp] theorem modFn_due (f : Nat) (g : Fn → Fn) : (modFn b f g).due = b.due := rfl
@[simp] theorem modFn_pens (f : Nat) (g : Fn → Fn) : (modFn b f g).pens = b.pens := rfl
@[simp] theorem modFn_watches (f : Nat) (g : Fn → Fn) : (modFn b f g).watches = b.watches := rfl
@[simp] theorem modFn_cmds (f : Nat) (g : Fn → Fn) : (modFn b f g).cmds = b.cmds := rfl
@[simp] theorem modFn_dlck (f : Nat) (g : Fn → Fn) : (modFn b f g).dlck = b.dlck := rfl
@[simp] theorem modFn_staged (f : Nat) (g : Fn → Fn) : (modFn b f g).staged = b.staged := rfl
@[simp] theorem modFn_forming (f : Nat) (g : Fn → Fn) : (modFn b f g).forming = b.forming := rfl
@[simp] theorem modFn_walks (f : Nat) (g : Fn → Fn) : (modFn b f g).walks = b.walks := rfl
@[simp] theorem modFn_compiles (f : Nat) (g : Fn → Fn) : (modFn b f g).compiles = b.compiles := rfl
@[simp] theorem modFn_ports (f : Nat) (g : Fn → Fn) : (modFn b f g).ports = b.ports := rfl
@[simp] theorem modFn_fab (f : Nat) (g : Fn → Fn) : (modFn b f g).fab = b.fab := rfl
@[simp] theorem modFn_d2d (f : Nat) (g : Fn → Fn) : (modFn b f g).d2d = b.d2d := rfl
@[simp] theorem modFn_memp (f : Nat) (g : Fn → Fn) : (modFn b f g).memp = b.memp := rfl
@[simp] theorem modFn_xlats (f : Nat) (g : Fn → Fn) : (modFn b f g).xlats = b.xlats := rfl
@[simp] theorem modFn_fresh (f : Nat) (g : Fn → Fn) : (modFn b f g).fresh = b.fresh := rfl
@[simp] theorem modFn_stores (f : Nat) (g : Fn → Fn) : (modFn b f g).stores = b.stores := rfl

@[simp] theorem modQ_part (f q : Nat) (g : Queue → Queue) : (modQ b f q g).part = b.part := rfl
@[simp] theorem modQ_life (f q : Nat) (g : Queue → Queue) : (modQ b f q g).life = b.life := rfl
@[simp] theorem modQ_ctl (f q : Nat) (g : Queue → Queue) : (modQ b f q g).ctl = b.ctl := rfl
@[simp] theorem modQ_beat (f q : Nat) (g : Queue → Queue) : (modQ b f q g).beat = b.beat := rfl
@[simp] theorem modQ_pwr (f q : Nat) (g : Queue → Queue) : (modQ b f q g).pwr = b.pwr := rfl
@[simp] theorem modQ_sec (f q : Nat) (g : Queue → Queue) : (modQ b f q g).sec = b.sec := rfl
@[simp] theorem modQ_test (f q : Nat) (g : Queue → Queue) : (modQ b f q g).test = b.test := rfl
@[simp] theorem modQ_tiles (f q : Nat) (g : Queue → Queue) : (modQ b f q g).tiles = b.tiles := rfl
@[simp] theorem modQ_sectors (f q : Nat) (g : Queue → Queue) : (modQ b f q g).sectors = b.sectors := rfl
@[simp] theorem modQ_cores (f q : Nat) (g : Queue → Queue) : (modQ b f q g).cores = b.cores := rfl
@[simp] theorem modQ_restarts (f q : Nat) (g : Queue → Queue) : (modQ b f q g).restarts = b.restarts := rfl
@[simp] theorem modQ_t (f q : Nat) (g : Queue → Queue) : (modQ b f q g).t = b.t := rfl
@[simp] theorem modQ_snap (f q : Nat) (g : Queue → Queue) : (modQ b f q g).snap = b.snap := rfl
@[simp] theorem modQ_shadow (f q : Nat) (g : Queue → Queue) : (modQ b f q g).shadow = b.shadow := rfl
@[simp] theorem modQ_due (f q : Nat) (g : Queue → Queue) : (modQ b f q g).due = b.due := rfl
@[simp] theorem modQ_pens (f q : Nat) (g : Queue → Queue) : (modQ b f q g).pens = b.pens := rfl
@[simp] theorem modQ_watches (f q : Nat) (g : Queue → Queue) : (modQ b f q g).watches = b.watches := rfl
@[simp] theorem modQ_cmds (f q : Nat) (g : Queue → Queue) : (modQ b f q g).cmds = b.cmds := rfl
@[simp] theorem modQ_dlck (f q : Nat) (g : Queue → Queue) : (modQ b f q g).dlck = b.dlck := rfl
@[simp] theorem modQ_staged (f q : Nat) (g : Queue → Queue) : (modQ b f q g).staged = b.staged := rfl
@[simp] theorem modQ_forming (f q : Nat) (g : Queue → Queue) : (modQ b f q g).forming = b.forming := rfl
@[simp] theorem modQ_walks (f q : Nat) (g : Queue → Queue) : (modQ b f q g).walks = b.walks := rfl
@[simp] theorem modQ_compiles (f q : Nat) (g : Queue → Queue) : (modQ b f q g).compiles = b.compiles := rfl
@[simp] theorem modQ_ports (f q : Nat) (g : Queue → Queue) : (modQ b f q g).ports = b.ports := rfl
@[simp] theorem modQ_fab (f q : Nat) (g : Queue → Queue) : (modQ b f q g).fab = b.fab := rfl
@[simp] theorem modQ_d2d (f q : Nat) (g : Queue → Queue) : (modQ b f q g).d2d = b.d2d := rfl
@[simp] theorem modQ_memp (f q : Nat) (g : Queue → Queue) : (modQ b f q g).memp = b.memp := rfl
@[simp] theorem modQ_xlats (f q : Nat) (g : Queue → Queue) : (modQ b f q g).xlats = b.xlats := rfl
@[simp] theorem modQ_fresh (f q : Nat) (g : Queue → Queue) : (modQ b f q g).fresh = b.fresh := rfl
@[simp] theorem modQ_stores (f q : Nat) (g : Queue → Queue) : (modQ b f q g).stores = b.stores := rfl

@[simp] theorem modCmd_part (id : CmdId) (g : Cmd → Cmd) : (modCmd b id g).part = b.part := rfl
@[simp] theorem modCmd_life (id : CmdId) (g : Cmd → Cmd) : (modCmd b id g).life = b.life := rfl
@[simp] theorem modCmd_ctl (id : CmdId) (g : Cmd → Cmd) : (modCmd b id g).ctl = b.ctl := rfl
@[simp] theorem modCmd_beat (id : CmdId) (g : Cmd → Cmd) : (modCmd b id g).beat = b.beat := rfl
@[simp] theorem modCmd_pwr (id : CmdId) (g : Cmd → Cmd) : (modCmd b id g).pwr = b.pwr := rfl
@[simp] theorem modCmd_sec (id : CmdId) (g : Cmd → Cmd) : (modCmd b id g).sec = b.sec := rfl
@[simp] theorem modCmd_test (id : CmdId) (g : Cmd → Cmd) : (modCmd b id g).test = b.test := rfl
@[simp] theorem modCmd_tiles (id : CmdId) (g : Cmd → Cmd) : (modCmd b id g).tiles = b.tiles := rfl
@[simp] theorem modCmd_sectors (id : CmdId) (g : Cmd → Cmd) : (modCmd b id g).sectors = b.sectors := rfl
@[simp] theorem modCmd_cores (id : CmdId) (g : Cmd → Cmd) : (modCmd b id g).cores = b.cores := rfl
@[simp] theorem modCmd_restarts (id : CmdId) (g : Cmd → Cmd) : (modCmd b id g).restarts = b.restarts := rfl
@[simp] theorem modCmd_t (id : CmdId) (g : Cmd → Cmd) : (modCmd b id g).t = b.t := rfl
@[simp] theorem modCmd_snap (id : CmdId) (g : Cmd → Cmd) : (modCmd b id g).snap = b.snap := rfl
@[simp] theorem modCmd_shadow (id : CmdId) (g : Cmd → Cmd) : (modCmd b id g).shadow = b.shadow := rfl
@[simp] theorem modCmd_due (id : CmdId) (g : Cmd → Cmd) : (modCmd b id g).due = b.due := rfl
@[simp] theorem modCmd_pens (id : CmdId) (g : Cmd → Cmd) : (modCmd b id g).pens = b.pens := rfl
@[simp] theorem modCmd_watches (id : CmdId) (g : Cmd → Cmd) : (modCmd b id g).watches = b.watches := rfl
@[simp] theorem modCmd_fns (id : CmdId) (g : Cmd → Cmd) : (modCmd b id g).fns = b.fns := rfl
@[simp] theorem modCmd_dlck (id : CmdId) (g : Cmd → Cmd) : (modCmd b id g).dlck = b.dlck := rfl
@[simp] theorem modCmd_staged (id : CmdId) (g : Cmd → Cmd) : (modCmd b id g).staged = b.staged := rfl
@[simp] theorem modCmd_forming (id : CmdId) (g : Cmd → Cmd) : (modCmd b id g).forming = b.forming := rfl
@[simp] theorem modCmd_walks (id : CmdId) (g : Cmd → Cmd) : (modCmd b id g).walks = b.walks := rfl
@[simp] theorem modCmd_compiles (id : CmdId) (g : Cmd → Cmd) : (modCmd b id g).compiles = b.compiles := rfl
@[simp] theorem modCmd_ports (id : CmdId) (g : Cmd → Cmd) : (modCmd b id g).ports = b.ports := rfl
@[simp] theorem modCmd_fab (id : CmdId) (g : Cmd → Cmd) : (modCmd b id g).fab = b.fab := rfl
@[simp] theorem modCmd_d2d (id : CmdId) (g : Cmd → Cmd) : (modCmd b id g).d2d = b.d2d := rfl
@[simp] theorem modCmd_memp (id : CmdId) (g : Cmd → Cmd) : (modCmd b id g).memp = b.memp := rfl
@[simp] theorem modCmd_xlats (id : CmdId) (g : Cmd → Cmd) : (modCmd b id g).xlats = b.xlats := rfl
@[simp] theorem modCmd_fresh (id : CmdId) (g : Cmd → Cmd) : (modCmd b id g).fresh = b.fresh := rfl
@[simp] theorem modCmd_stores (id : CmdId) (g : Cmd → Cmd) : (modCmd b id g).stores = b.stores := rfl

@[simp] theorem modM_part (m : Nat) (g : MemP → MemP) : (modM b m g).part = b.part := rfl
@[simp] theorem modM_life (m : Nat) (g : MemP → MemP) : (modM b m g).life = b.life := rfl
@[simp] theorem modM_ctl (m : Nat) (g : MemP → MemP) : (modM b m g).ctl = b.ctl := rfl
@[simp] theorem modM_beat (m : Nat) (g : MemP → MemP) : (modM b m g).beat = b.beat := rfl
@[simp] theorem modM_pwr (m : Nat) (g : MemP → MemP) : (modM b m g).pwr = b.pwr := rfl
@[simp] theorem modM_sec (m : Nat) (g : MemP → MemP) : (modM b m g).sec = b.sec := rfl
@[simp] theorem modM_test (m : Nat) (g : MemP → MemP) : (modM b m g).test = b.test := rfl
@[simp] theorem modM_tiles (m : Nat) (g : MemP → MemP) : (modM b m g).tiles = b.tiles := rfl
@[simp] theorem modM_sectors (m : Nat) (g : MemP → MemP) : (modM b m g).sectors = b.sectors := rfl
@[simp] theorem modM_cores (m : Nat) (g : MemP → MemP) : (modM b m g).cores = b.cores := rfl
@[simp] theorem modM_restarts (m : Nat) (g : MemP → MemP) : (modM b m g).restarts = b.restarts := rfl
@[simp] theorem modM_t (m : Nat) (g : MemP → MemP) : (modM b m g).t = b.t := rfl
@[simp] theorem modM_snap (m : Nat) (g : MemP → MemP) : (modM b m g).snap = b.snap := rfl
@[simp] theorem modM_shadow (m : Nat) (g : MemP → MemP) : (modM b m g).shadow = b.shadow := rfl
@[simp] theorem modM_due (m : Nat) (g : MemP → MemP) : (modM b m g).due = b.due := rfl
@[simp] theorem modM_pens (m : Nat) (g : MemP → MemP) : (modM b m g).pens = b.pens := rfl
@[simp] theorem modM_watches (m : Nat) (g : MemP → MemP) : (modM b m g).watches = b.watches := rfl
@[simp] theorem modM_fns (m : Nat) (g : MemP → MemP) : (modM b m g).fns = b.fns := rfl
@[simp] theorem modM_cmds (m : Nat) (g : MemP → MemP) : (modM b m g).cmds = b.cmds := rfl
@[simp] theorem modM_dlck (m : Nat) (g : MemP → MemP) : (modM b m g).dlck = b.dlck := rfl
@[simp] theorem modM_staged (m : Nat) (g : MemP → MemP) : (modM b m g).staged = b.staged := rfl
@[simp] theorem modM_forming (m : Nat) (g : MemP → MemP) : (modM b m g).forming = b.forming := rfl
@[simp] theorem modM_walks (m : Nat) (g : MemP → MemP) : (modM b m g).walks = b.walks := rfl
@[simp] theorem modM_compiles (m : Nat) (g : MemP → MemP) : (modM b m g).compiles = b.compiles := rfl
@[simp] theorem modM_ports (m : Nat) (g : MemP → MemP) : (modM b m g).ports = b.ports := rfl
@[simp] theorem modM_fab (m : Nat) (g : MemP → MemP) : (modM b m g).fab = b.fab := rfl
@[simp] theorem modM_d2d (m : Nat) (g : MemP → MemP) : (modM b m g).d2d = b.d2d := rfl
@[simp] theorem modM_xlats (m : Nat) (g : MemP → MemP) : (modM b m g).xlats = b.xlats := rfl
@[simp] theorem modM_fresh (m : Nat) (g : MemP → MemP) : (modM b m g).fresh = b.fresh := rfl
@[simp] theorem modM_stores (m : Nat) (g : MemP → MemP) : (modM b m g).stores = b.stores := rfl

@[simp] theorem modD2_part (p : Nat) (g : D2d → D2d) : (modD2 b p g).part = b.part := rfl
@[simp] theorem modD2_life (p : Nat) (g : D2d → D2d) : (modD2 b p g).life = b.life := rfl
@[simp] theorem modD2_ctl (p : Nat) (g : D2d → D2d) : (modD2 b p g).ctl = b.ctl := rfl
@[simp] theorem modD2_beat (p : Nat) (g : D2d → D2d) : (modD2 b p g).beat = b.beat := rfl
@[simp] theorem modD2_pwr (p : Nat) (g : D2d → D2d) : (modD2 b p g).pwr = b.pwr := rfl
@[simp] theorem modD2_sec (p : Nat) (g : D2d → D2d) : (modD2 b p g).sec = b.sec := rfl
@[simp] theorem modD2_test (p : Nat) (g : D2d → D2d) : (modD2 b p g).test = b.test := rfl
@[simp] theorem modD2_tiles (p : Nat) (g : D2d → D2d) : (modD2 b p g).tiles = b.tiles := rfl
@[simp] theorem modD2_sectors (p : Nat) (g : D2d → D2d) : (modD2 b p g).sectors = b.sectors := rfl
@[simp] theorem modD2_cores (p : Nat) (g : D2d → D2d) : (modD2 b p g).cores = b.cores := rfl
@[simp] theorem modD2_restarts (p : Nat) (g : D2d → D2d) : (modD2 b p g).restarts = b.restarts := rfl
@[simp] theorem modD2_t (p : Nat) (g : D2d → D2d) : (modD2 b p g).t = b.t := rfl
@[simp] theorem modD2_snap (p : Nat) (g : D2d → D2d) : (modD2 b p g).snap = b.snap := rfl
@[simp] theorem modD2_shadow (p : Nat) (g : D2d → D2d) : (modD2 b p g).shadow = b.shadow := rfl
@[simp] theorem modD2_due (p : Nat) (g : D2d → D2d) : (modD2 b p g).due = b.due := rfl
@[simp] theorem modD2_pens (p : Nat) (g : D2d → D2d) : (modD2 b p g).pens = b.pens := rfl
@[simp] theorem modD2_watches (p : Nat) (g : D2d → D2d) : (modD2 b p g).watches = b.watches := rfl
@[simp] theorem modD2_fns (p : Nat) (g : D2d → D2d) : (modD2 b p g).fns = b.fns := rfl
@[simp] theorem modD2_cmds (p : Nat) (g : D2d → D2d) : (modD2 b p g).cmds = b.cmds := rfl
@[simp] theorem modD2_dlck (p : Nat) (g : D2d → D2d) : (modD2 b p g).dlck = b.dlck := rfl
@[simp] theorem modD2_staged (p : Nat) (g : D2d → D2d) : (modD2 b p g).staged = b.staged := rfl
@[simp] theorem modD2_forming (p : Nat) (g : D2d → D2d) : (modD2 b p g).forming = b.forming := rfl
@[simp] theorem modD2_walks (p : Nat) (g : D2d → D2d) : (modD2 b p g).walks = b.walks := rfl
@[simp] theorem modD2_compiles (p : Nat) (g : D2d → D2d) : (modD2 b p g).compiles = b.compiles := rfl
@[simp] theorem modD2_ports (p : Nat) (g : D2d → D2d) : (modD2 b p g).ports = b.ports := rfl
@[simp] theorem modD2_fab (p : Nat) (g : D2d → D2d) : (modD2 b p g).fab = b.fab := rfl
@[simp] theorem modD2_memp (p : Nat) (g : D2d → D2d) : (modD2 b p g).memp = b.memp := rfl
@[simp] theorem modD2_xlats (p : Nat) (g : D2d → D2d) : (modD2 b p g).xlats = b.xlats := rfl
@[simp] theorem modD2_fresh (p : Nat) (g : D2d → D2d) : (modD2 b p g).fresh = b.fresh := rfl
@[simp] theorem modD2_stores (p : Nat) (g : D2d → D2d) : (modD2 b p g).stores = b.stores := rfl

@[simp] theorem modPen_part (p : Nat) (g : Pen → Pen) : (modPen b p g).part = b.part := rfl
@[simp] theorem modPen_life (p : Nat) (g : Pen → Pen) : (modPen b p g).life = b.life := rfl
@[simp] theorem modPen_ctl (p : Nat) (g : Pen → Pen) : (modPen b p g).ctl = b.ctl := rfl
@[simp] theorem modPen_beat (p : Nat) (g : Pen → Pen) : (modPen b p g).beat = b.beat := rfl
@[simp] theorem modPen_pwr (p : Nat) (g : Pen → Pen) : (modPen b p g).pwr = b.pwr := rfl
@[simp] theorem modPen_sec (p : Nat) (g : Pen → Pen) : (modPen b p g).sec = b.sec := rfl
@[simp] theorem modPen_test (p : Nat) (g : Pen → Pen) : (modPen b p g).test = b.test := rfl
@[simp] theorem modPen_tiles (p : Nat) (g : Pen → Pen) : (modPen b p g).tiles = b.tiles := rfl
@[simp] theorem modPen_sectors (p : Nat) (g : Pen → Pen) : (modPen b p g).sectors = b.sectors := rfl
@[simp] theorem modPen_cores (p : Nat) (g : Pen → Pen) : (modPen b p g).cores = b.cores := rfl
@[simp] theorem modPen_restarts (p : Nat) (g : Pen → Pen) : (modPen b p g).restarts = b.restarts := rfl
@[simp] theorem modPen_t (p : Nat) (g : Pen → Pen) : (modPen b p g).t = b.t := rfl
@[simp] theorem modPen_snap (p : Nat) (g : Pen → Pen) : (modPen b p g).snap = b.snap := rfl
@[simp] theorem modPen_shadow (p : Nat) (g : Pen → Pen) : (modPen b p g).shadow = b.shadow := rfl
@[simp] theorem modPen_due (p : Nat) (g : Pen → Pen) : (modPen b p g).due = b.due := rfl
@[simp] theorem modPen_watches (p : Nat) (g : Pen → Pen) : (modPen b p g).watches = b.watches := rfl
@[simp] theorem modPen_fns (p : Nat) (g : Pen → Pen) : (modPen b p g).fns = b.fns := rfl
@[simp] theorem modPen_cmds (p : Nat) (g : Pen → Pen) : (modPen b p g).cmds = b.cmds := rfl
@[simp] theorem modPen_dlck (p : Nat) (g : Pen → Pen) : (modPen b p g).dlck = b.dlck := rfl
@[simp] theorem modPen_staged (p : Nat) (g : Pen → Pen) : (modPen b p g).staged = b.staged := rfl
@[simp] theorem modPen_forming (p : Nat) (g : Pen → Pen) : (modPen b p g).forming = b.forming := rfl
@[simp] theorem modPen_walks (p : Nat) (g : Pen → Pen) : (modPen b p g).walks = b.walks := rfl
@[simp] theorem modPen_compiles (p : Nat) (g : Pen → Pen) : (modPen b p g).compiles = b.compiles := rfl
@[simp] theorem modPen_ports (p : Nat) (g : Pen → Pen) : (modPen b p g).ports = b.ports := rfl
@[simp] theorem modPen_fab (p : Nat) (g : Pen → Pen) : (modPen b p g).fab = b.fab := rfl
@[simp] theorem modPen_d2d (p : Nat) (g : Pen → Pen) : (modPen b p g).d2d = b.d2d := rfl
@[simp] theorem modPen_memp (p : Nat) (g : Pen → Pen) : (modPen b p g).memp = b.memp := rfl
@[simp] theorem modPen_xlats (p : Nat) (g : Pen → Pen) : (modPen b p g).xlats = b.xlats := rfl
@[simp] theorem modPen_fresh (p : Nat) (g : Pen → Pen) : (modPen b p g).fresh = b.fresh := rfl
@[simp] theorem modPen_stores (p : Nat) (g : Pen → Pen) : (modPen b p g).stores = b.stores := rfl

@[simp] theorem modP_part (n : Nat) (g : Port → Port) : (modP b n g).part = b.part := rfl
@[simp] theorem modP_life (n : Nat) (g : Port → Port) : (modP b n g).life = b.life := rfl
@[simp] theorem modP_ctl (n : Nat) (g : Port → Port) : (modP b n g).ctl = b.ctl := rfl
@[simp] theorem modP_beat (n : Nat) (g : Port → Port) : (modP b n g).beat = b.beat := rfl
@[simp] theorem modP_pwr (n : Nat) (g : Port → Port) : (modP b n g).pwr = b.pwr := rfl
@[simp] theorem modP_sec (n : Nat) (g : Port → Port) : (modP b n g).sec = b.sec := rfl
@[simp] theorem modP_test (n : Nat) (g : Port → Port) : (modP b n g).test = b.test := rfl
@[simp] theorem modP_tiles (n : Nat) (g : Port → Port) : (modP b n g).tiles = b.tiles := rfl
@[simp] theorem modP_sectors (n : Nat) (g : Port → Port) : (modP b n g).sectors = b.sectors := rfl
@[simp] theorem modP_cores (n : Nat) (g : Port → Port) : (modP b n g).cores = b.cores := rfl
@[simp] theorem modP_restarts (n : Nat) (g : Port → Port) : (modP b n g).restarts = b.restarts := rfl
@[simp] theorem modP_t (n : Nat) (g : Port → Port) : (modP b n g).t = b.t := rfl
@[simp] theorem modP_snap (n : Nat) (g : Port → Port) : (modP b n g).snap = b.snap := rfl
@[simp] theorem modP_shadow (n : Nat) (g : Port → Port) : (modP b n g).shadow = b.shadow := rfl
@[simp] theorem modP_due (n : Nat) (g : Port → Port) : (modP b n g).due = b.due := rfl
@[simp] theorem modP_pens (n : Nat) (g : Port → Port) : (modP b n g).pens = b.pens := rfl
@[simp] theorem modP_watches (n : Nat) (g : Port → Port) : (modP b n g).watches = b.watches := rfl
@[simp] theorem modP_fns (n : Nat) (g : Port → Port) : (modP b n g).fns = b.fns := rfl
@[simp] theorem modP_cmds (n : Nat) (g : Port → Port) : (modP b n g).cmds = b.cmds := rfl
@[simp] theorem modP_dlck (n : Nat) (g : Port → Port) : (modP b n g).dlck = b.dlck := rfl
@[simp] theorem modP_staged (n : Nat) (g : Port → Port) : (modP b n g).staged = b.staged := rfl
@[simp] theorem modP_forming (n : Nat) (g : Port → Port) : (modP b n g).forming = b.forming := rfl
@[simp] theorem modP_walks (n : Nat) (g : Port → Port) : (modP b n g).walks = b.walks := rfl
@[simp] theorem modP_compiles (n : Nat) (g : Port → Port) : (modP b n g).compiles = b.compiles := rfl
@[simp] theorem modP_fab (n : Nat) (g : Port → Port) : (modP b n g).fab = b.fab := rfl
@[simp] theorem modP_d2d (n : Nat) (g : Port → Port) : (modP b n g).d2d = b.d2d := rfl
@[simp] theorem modP_memp (n : Nat) (g : Port → Port) : (modP b n g).memp = b.memp := rfl
@[simp] theorem modP_xlats (n : Nat) (g : Port → Port) : (modP b n g).xlats = b.xlats := rfl
@[simp] theorem modP_fresh (n : Nat) (g : Port → Port) : (modP b n g).fresh = b.fresh := rfl
@[simp] theorem modP_stores (n : Nat) (g : Port → Port) : (modP b n g).stores = b.stores := rfl

@[simp] theorem modTile_part (i : Nat) (g : Tile → Tile) : (modTile b i g).part = b.part := rfl
@[simp] theorem modTile_life (i : Nat) (g : Tile → Tile) : (modTile b i g).life = b.life := rfl
@[simp] theorem modTile_ctl (i : Nat) (g : Tile → Tile) : (modTile b i g).ctl = b.ctl := rfl
@[simp] theorem modTile_beat (i : Nat) (g : Tile → Tile) : (modTile b i g).beat = b.beat := rfl
@[simp] theorem modTile_pwr (i : Nat) (g : Tile → Tile) : (modTile b i g).pwr = b.pwr := rfl
@[simp] theorem modTile_sec (i : Nat) (g : Tile → Tile) : (modTile b i g).sec = b.sec := rfl
@[simp] theorem modTile_test (i : Nat) (g : Tile → Tile) : (modTile b i g).test = b.test := rfl
@[simp] theorem modTile_sectors (i : Nat) (g : Tile → Tile) : (modTile b i g).sectors = b.sectors := rfl
@[simp] theorem modTile_cores (i : Nat) (g : Tile → Tile) : (modTile b i g).cores = b.cores := rfl
@[simp] theorem modTile_restarts (i : Nat) (g : Tile → Tile) : (modTile b i g).restarts = b.restarts := rfl
@[simp] theorem modTile_t (i : Nat) (g : Tile → Tile) : (modTile b i g).t = b.t := rfl
@[simp] theorem modTile_snap (i : Nat) (g : Tile → Tile) : (modTile b i g).snap = b.snap := rfl
@[simp] theorem modTile_shadow (i : Nat) (g : Tile → Tile) : (modTile b i g).shadow = b.shadow := rfl
@[simp] theorem modTile_due (i : Nat) (g : Tile → Tile) : (modTile b i g).due = b.due := rfl
@[simp] theorem modTile_pens (i : Nat) (g : Tile → Tile) : (modTile b i g).pens = b.pens := rfl
@[simp] theorem modTile_watches (i : Nat) (g : Tile → Tile) : (modTile b i g).watches = b.watches := rfl
@[simp] theorem modTile_fns (i : Nat) (g : Tile → Tile) : (modTile b i g).fns = b.fns := rfl
@[simp] theorem modTile_cmds (i : Nat) (g : Tile → Tile) : (modTile b i g).cmds = b.cmds := rfl
@[simp] theorem modTile_dlck (i : Nat) (g : Tile → Tile) : (modTile b i g).dlck = b.dlck := rfl
@[simp] theorem modTile_staged (i : Nat) (g : Tile → Tile) : (modTile b i g).staged = b.staged := rfl
@[simp] theorem modTile_forming (i : Nat) (g : Tile → Tile) : (modTile b i g).forming = b.forming := rfl
@[simp] theorem modTile_walks (i : Nat) (g : Tile → Tile) : (modTile b i g).walks = b.walks := rfl
@[simp] theorem modTile_compiles (i : Nat) (g : Tile → Tile) : (modTile b i g).compiles = b.compiles := rfl
@[simp] theorem modTile_ports (i : Nat) (g : Tile → Tile) : (modTile b i g).ports = b.ports := rfl
@[simp] theorem modTile_fab (i : Nat) (g : Tile → Tile) : (modTile b i g).fab = b.fab := rfl
@[simp] theorem modTile_d2d (i : Nat) (g : Tile → Tile) : (modTile b i g).d2d = b.d2d := rfl
@[simp] theorem modTile_memp (i : Nat) (g : Tile → Tile) : (modTile b i g).memp = b.memp := rfl
@[simp] theorem modTile_xlats (i : Nat) (g : Tile → Tile) : (modTile b i g).xlats = b.xlats := rfl
@[simp] theorem modTile_fresh (i : Nat) (g : Tile → Tile) : (modTile b i g).fresh = b.fresh := rfl
@[simp] theorem modTile_stores (i : Nat) (g : Tile → Tile) : (modTile b i g).stores = b.stores := rfl

@[simp] theorem modSect_part (i : Nat) (g : Sector → Sector) : (modSect b i g).part = b.part := rfl
@[simp] theorem modSect_life (i : Nat) (g : Sector → Sector) : (modSect b i g).life = b.life := rfl
@[simp] theorem modSect_ctl (i : Nat) (g : Sector → Sector) : (modSect b i g).ctl = b.ctl := rfl
@[simp] theorem modSect_beat (i : Nat) (g : Sector → Sector) : (modSect b i g).beat = b.beat := rfl
@[simp] theorem modSect_pwr (i : Nat) (g : Sector → Sector) : (modSect b i g).pwr = b.pwr := rfl
@[simp] theorem modSect_sec (i : Nat) (g : Sector → Sector) : (modSect b i g).sec = b.sec := rfl
@[simp] theorem modSect_test (i : Nat) (g : Sector → Sector) : (modSect b i g).test = b.test := rfl
@[simp] theorem modSect_tiles (i : Nat) (g : Sector → Sector) : (modSect b i g).tiles = b.tiles := rfl
@[simp] theorem modSect_cores (i : Nat) (g : Sector → Sector) : (modSect b i g).cores = b.cores := rfl
@[simp] theorem modSect_restarts (i : Nat) (g : Sector → Sector) : (modSect b i g).restarts = b.restarts := rfl
@[simp] theorem modSect_t (i : Nat) (g : Sector → Sector) : (modSect b i g).t = b.t := rfl
@[simp] theorem modSect_snap (i : Nat) (g : Sector → Sector) : (modSect b i g).snap = b.snap := rfl
@[simp] theorem modSect_shadow (i : Nat) (g : Sector → Sector) : (modSect b i g).shadow = b.shadow := rfl
@[simp] theorem modSect_due (i : Nat) (g : Sector → Sector) : (modSect b i g).due = b.due := rfl
@[simp] theorem modSect_pens (i : Nat) (g : Sector → Sector) : (modSect b i g).pens = b.pens := rfl
@[simp] theorem modSect_watches (i : Nat) (g : Sector → Sector) : (modSect b i g).watches = b.watches := rfl
@[simp] theorem modSect_fns (i : Nat) (g : Sector → Sector) : (modSect b i g).fns = b.fns := rfl
@[simp] theorem modSect_cmds (i : Nat) (g : Sector → Sector) : (modSect b i g).cmds = b.cmds := rfl
@[simp] theorem modSect_dlck (i : Nat) (g : Sector → Sector) : (modSect b i g).dlck = b.dlck := rfl
@[simp] theorem modSect_staged (i : Nat) (g : Sector → Sector) : (modSect b i g).staged = b.staged := rfl
@[simp] theorem modSect_forming (i : Nat) (g : Sector → Sector) : (modSect b i g).forming = b.forming := rfl
@[simp] theorem modSect_walks (i : Nat) (g : Sector → Sector) : (modSect b i g).walks = b.walks := rfl
@[simp] theorem modSect_compiles (i : Nat) (g : Sector → Sector) : (modSect b i g).compiles = b.compiles := rfl
@[simp] theorem modSect_ports (i : Nat) (g : Sector → Sector) : (modSect b i g).ports = b.ports := rfl
@[simp] theorem modSect_fab (i : Nat) (g : Sector → Sector) : (modSect b i g).fab = b.fab := rfl
@[simp] theorem modSect_d2d (i : Nat) (g : Sector → Sector) : (modSect b i g).d2d = b.d2d := rfl
@[simp] theorem modSect_memp (i : Nat) (g : Sector → Sector) : (modSect b i g).memp = b.memp := rfl
@[simp] theorem modSect_xlats (i : Nat) (g : Sector → Sector) : (modSect b i g).xlats = b.xlats := rfl
@[simp] theorem modSect_fresh (i : Nat) (g : Sector → Sector) : (modSect b i g).fresh = b.fresh := rfl
@[simp] theorem modSect_stores (i : Nat) (g : Sector → Sector) : (modSect b i g).stores = b.stores := rfl

@[simp] theorem modDst_part (e : Nat) (g : DstSt → DstSt) : (modDst b e g).part = b.part := rfl
@[simp] theorem modDst_life (e : Nat) (g : DstSt → DstSt) : (modDst b e g).life = b.life := rfl
@[simp] theorem modDst_ctl (e : Nat) (g : DstSt → DstSt) : (modDst b e g).ctl = b.ctl := rfl
@[simp] theorem modDst_beat (e : Nat) (g : DstSt → DstSt) : (modDst b e g).beat = b.beat := rfl
@[simp] theorem modDst_pwr (e : Nat) (g : DstSt → DstSt) : (modDst b e g).pwr = b.pwr := rfl
@[simp] theorem modDst_sec (e : Nat) (g : DstSt → DstSt) : (modDst b e g).sec = b.sec := rfl
@[simp] theorem modDst_test (e : Nat) (g : DstSt → DstSt) : (modDst b e g).test = b.test := rfl
@[simp] theorem modDst_tiles (e : Nat) (g : DstSt → DstSt) : (modDst b e g).tiles = b.tiles := rfl
@[simp] theorem modDst_sectors (e : Nat) (g : DstSt → DstSt) : (modDst b e g).sectors = b.sectors := rfl
@[simp] theorem modDst_cores (e : Nat) (g : DstSt → DstSt) : (modDst b e g).cores = b.cores := rfl
@[simp] theorem modDst_restarts (e : Nat) (g : DstSt → DstSt) : (modDst b e g).restarts = b.restarts := rfl
@[simp] theorem modDst_t (e : Nat) (g : DstSt → DstSt) : (modDst b e g).t = b.t := rfl
@[simp] theorem modDst_snap (e : Nat) (g : DstSt → DstSt) : (modDst b e g).snap = b.snap := rfl
@[simp] theorem modDst_shadow (e : Nat) (g : DstSt → DstSt) : (modDst b e g).shadow = b.shadow := rfl
@[simp] theorem modDst_due (e : Nat) (g : DstSt → DstSt) : (modDst b e g).due = b.due := rfl
@[simp] theorem modDst_pens (e : Nat) (g : DstSt → DstSt) : (modDst b e g).pens = b.pens := rfl
@[simp] theorem modDst_watches (e : Nat) (g : DstSt → DstSt) : (modDst b e g).watches = b.watches := rfl
@[simp] theorem modDst_fns (e : Nat) (g : DstSt → DstSt) : (modDst b e g).fns = b.fns := rfl
@[simp] theorem modDst_cmds (e : Nat) (g : DstSt → DstSt) : (modDst b e g).cmds = b.cmds := rfl
@[simp] theorem modDst_dlck (e : Nat) (g : DstSt → DstSt) : (modDst b e g).dlck = b.dlck := rfl
@[simp] theorem modDst_staged (e : Nat) (g : DstSt → DstSt) : (modDst b e g).staged = b.staged := rfl
@[simp] theorem modDst_forming (e : Nat) (g : DstSt → DstSt) : (modDst b e g).forming = b.forming := rfl
@[simp] theorem modDst_walks (e : Nat) (g : DstSt → DstSt) : (modDst b e g).walks = b.walks := rfl
@[simp] theorem modDst_compiles (e : Nat) (g : DstSt → DstSt) : (modDst b e g).compiles = b.compiles := rfl
@[simp] theorem modDst_ports (e : Nat) (g : DstSt → DstSt) : (modDst b e g).ports = b.ports := rfl
@[simp] theorem modDst_d2d (e : Nat) (g : DstSt → DstSt) : (modDst b e g).d2d = b.d2d := rfl
@[simp] theorem modDst_memp (e : Nat) (g : DstSt → DstSt) : (modDst b e g).memp = b.memp := rfl
@[simp] theorem modDst_xlats (e : Nat) (g : DstSt → DstSt) : (modDst b e g).xlats = b.xlats := rfl
@[simp] theorem modDst_fresh (e : Nat) (g : DstSt → DstSt) : (modDst b e g).fresh = b.fresh := rfl
@[simp] theorem modDst_stores (e : Nat) (g : DstSt → DstSt) : (modDst b e g).stores = b.stores := rfl

@[simp] theorem modMdst_part (e : Nat) (g : DstSt → DstSt) : (modMdst b e g).part = b.part := rfl
@[simp] theorem modMdst_life (e : Nat) (g : DstSt → DstSt) : (modMdst b e g).life = b.life := rfl
@[simp] theorem modMdst_ctl (e : Nat) (g : DstSt → DstSt) : (modMdst b e g).ctl = b.ctl := rfl
@[simp] theorem modMdst_beat (e : Nat) (g : DstSt → DstSt) : (modMdst b e g).beat = b.beat := rfl
@[simp] theorem modMdst_pwr (e : Nat) (g : DstSt → DstSt) : (modMdst b e g).pwr = b.pwr := rfl
@[simp] theorem modMdst_sec (e : Nat) (g : DstSt → DstSt) : (modMdst b e g).sec = b.sec := rfl
@[simp] theorem modMdst_test (e : Nat) (g : DstSt → DstSt) : (modMdst b e g).test = b.test := rfl
@[simp] theorem modMdst_tiles (e : Nat) (g : DstSt → DstSt) : (modMdst b e g).tiles = b.tiles := rfl
@[simp] theorem modMdst_sectors (e : Nat) (g : DstSt → DstSt) : (modMdst b e g).sectors = b.sectors := rfl
@[simp] theorem modMdst_cores (e : Nat) (g : DstSt → DstSt) : (modMdst b e g).cores = b.cores := rfl
@[simp] theorem modMdst_restarts (e : Nat) (g : DstSt → DstSt) : (modMdst b e g).restarts = b.restarts := rfl
@[simp] theorem modMdst_t (e : Nat) (g : DstSt → DstSt) : (modMdst b e g).t = b.t := rfl
@[simp] theorem modMdst_snap (e : Nat) (g : DstSt → DstSt) : (modMdst b e g).snap = b.snap := rfl
@[simp] theorem modMdst_shadow (e : Nat) (g : DstSt → DstSt) : (modMdst b e g).shadow = b.shadow := rfl
@[simp] theorem modMdst_due (e : Nat) (g : DstSt → DstSt) : (modMdst b e g).due = b.due := rfl
@[simp] theorem modMdst_pens (e : Nat) (g : DstSt → DstSt) : (modMdst b e g).pens = b.pens := rfl
@[simp] theorem modMdst_watches (e : Nat) (g : DstSt → DstSt) : (modMdst b e g).watches = b.watches := rfl
@[simp] theorem modMdst_fns (e : Nat) (g : DstSt → DstSt) : (modMdst b e g).fns = b.fns := rfl
@[simp] theorem modMdst_cmds (e : Nat) (g : DstSt → DstSt) : (modMdst b e g).cmds = b.cmds := rfl
@[simp] theorem modMdst_dlck (e : Nat) (g : DstSt → DstSt) : (modMdst b e g).dlck = b.dlck := rfl
@[simp] theorem modMdst_staged (e : Nat) (g : DstSt → DstSt) : (modMdst b e g).staged = b.staged := rfl
@[simp] theorem modMdst_forming (e : Nat) (g : DstSt → DstSt) : (modMdst b e g).forming = b.forming := rfl
@[simp] theorem modMdst_walks (e : Nat) (g : DstSt → DstSt) : (modMdst b e g).walks = b.walks := rfl
@[simp] theorem modMdst_compiles (e : Nat) (g : DstSt → DstSt) : (modMdst b e g).compiles = b.compiles := rfl
@[simp] theorem modMdst_ports (e : Nat) (g : DstSt → DstSt) : (modMdst b e g).ports = b.ports := rfl
@[simp] theorem modMdst_d2d (e : Nat) (g : DstSt → DstSt) : (modMdst b e g).d2d = b.d2d := rfl
@[simp] theorem modMdst_memp (e : Nat) (g : DstSt → DstSt) : (modMdst b e g).memp = b.memp := rfl
@[simp] theorem modMdst_xlats (e : Nat) (g : DstSt → DstSt) : (modMdst b e g).xlats = b.xlats := rfl
@[simp] theorem modMdst_fresh (e : Nat) (g : DstSt → DstSt) : (modMdst b e g).fresh = b.fresh := rfl
@[simp] theorem modMdst_stores (e : Nat) (g : DstSt → DstSt) : (modMdst b e g).stores = b.stores := rfl

@[simp] theorem modGroup_part (h : Nat) (g : Group → Group) : (modGroup b h g).part = b.part := rfl
@[simp] theorem modGroup_life (h : Nat) (g : Group → Group) : (modGroup b h g).life = b.life := rfl
@[simp] theorem modGroup_ctl (h : Nat) (g : Group → Group) : (modGroup b h g).ctl = b.ctl := rfl
@[simp] theorem modGroup_beat (h : Nat) (g : Group → Group) : (modGroup b h g).beat = b.beat := rfl
@[simp] theorem modGroup_pwr (h : Nat) (g : Group → Group) : (modGroup b h g).pwr = b.pwr := rfl
@[simp] theorem modGroup_sec (h : Nat) (g : Group → Group) : (modGroup b h g).sec = b.sec := rfl
@[simp] theorem modGroup_test (h : Nat) (g : Group → Group) : (modGroup b h g).test = b.test := rfl
@[simp] theorem modGroup_tiles (h : Nat) (g : Group → Group) : (modGroup b h g).tiles = b.tiles := rfl
@[simp] theorem modGroup_sectors (h : Nat) (g : Group → Group) : (modGroup b h g).sectors = b.sectors := rfl
@[simp] theorem modGroup_cores (h : Nat) (g : Group → Group) : (modGroup b h g).cores = b.cores := rfl
@[simp] theorem modGroup_restarts (h : Nat) (g : Group → Group) : (modGroup b h g).restarts = b.restarts := rfl
@[simp] theorem modGroup_snap (h : Nat) (g : Group → Group) : (modGroup b h g).snap = b.snap := rfl
@[simp] theorem modGroup_shadow (h : Nat) (g : Group → Group) : (modGroup b h g).shadow = b.shadow := rfl
@[simp] theorem modGroup_due (h : Nat) (g : Group → Group) : (modGroup b h g).due = b.due := rfl
@[simp] theorem modGroup_pens (h : Nat) (g : Group → Group) : (modGroup b h g).pens = b.pens := rfl
@[simp] theorem modGroup_watches (h : Nat) (g : Group → Group) : (modGroup b h g).watches = b.watches := rfl
@[simp] theorem modGroup_fns (h : Nat) (g : Group → Group) : (modGroup b h g).fns = b.fns := rfl
@[simp] theorem modGroup_cmds (h : Nat) (g : Group → Group) : (modGroup b h g).cmds = b.cmds := rfl
@[simp] theorem modGroup_dlck (h : Nat) (g : Group → Group) : (modGroup b h g).dlck = b.dlck := rfl
@[simp] theorem modGroup_staged (h : Nat) (g : Group → Group) : (modGroup b h g).staged = b.staged := rfl
@[simp] theorem modGroup_forming (h : Nat) (g : Group → Group) : (modGroup b h g).forming = b.forming := rfl
@[simp] theorem modGroup_walks (h : Nat) (g : Group → Group) : (modGroup b h g).walks = b.walks := rfl
@[simp] theorem modGroup_compiles (h : Nat) (g : Group → Group) : (modGroup b h g).compiles = b.compiles := rfl
@[simp] theorem modGroup_ports (h : Nat) (g : Group → Group) : (modGroup b h g).ports = b.ports := rfl
@[simp] theorem modGroup_fab (h : Nat) (g : Group → Group) : (modGroup b h g).fab = b.fab := rfl
@[simp] theorem modGroup_d2d (h : Nat) (g : Group → Group) : (modGroup b h g).d2d = b.d2d := rfl
@[simp] theorem modGroup_memp (h : Nat) (g : Group → Group) : (modGroup b h g).memp = b.memp := rfl
@[simp] theorem modGroup_xlats (h : Nat) (g : Group → Group) : (modGroup b h g).xlats = b.xlats := rfl
@[simp] theorem modGroup_fresh (h : Nat) (g : Group → Group) : (modGroup b h g).fresh = b.fresh := rfl
@[simp] theorem modGroup_stores (h : Nat) (g : Group → Group) : (modGroup b h g).stores = b.stores := rfl
@[simp] theorem modGroup_t_roster (h : Nat) (g : Group → Group) : (modGroup b h g).t.roster = b.t.roster := rfl
@[simp] theorem modGroup_t_route (h : Nat) (g : Group → Group) : (modGroup b h g).t.route = b.t.route := rfl
@[simp] theorem modGroup_t_mcast (h : Nat) (g : Group → Group) : (modGroup b h g).t.mcast = b.t.mcast := rfl
@[simp] theorem modGroup_t_haly (h : Nat) (g : Group → Group) : (modGroup b h g).t.haly = b.t.haly := rfl
@[simp] theorem modGroup_t_hoist (h : Nat) (g : Group → Group) : (modGroup b h g).t.hoist = b.t.hoist := rfl
@[simp] theorem modGroup_t_dir (h : Nat) (g : Group → Group) : (modGroup b h g).t.dir = b.t.dir := rfl
@[simp] theorem modGroup_t_stream (h : Nat) (g : Group → Group) : (modGroup b h g).t.stream = b.t.stream := rfl

@[simp] theorem modHoist_part (h : Nat) (g : Hoist → Hoist) : (modHoist b h g).part = b.part := rfl
@[simp] theorem modHoist_life (h : Nat) (g : Hoist → Hoist) : (modHoist b h g).life = b.life := rfl
@[simp] theorem modHoist_ctl (h : Nat) (g : Hoist → Hoist) : (modHoist b h g).ctl = b.ctl := rfl
@[simp] theorem modHoist_beat (h : Nat) (g : Hoist → Hoist) : (modHoist b h g).beat = b.beat := rfl
@[simp] theorem modHoist_pwr (h : Nat) (g : Hoist → Hoist) : (modHoist b h g).pwr = b.pwr := rfl
@[simp] theorem modHoist_sec (h : Nat) (g : Hoist → Hoist) : (modHoist b h g).sec = b.sec := rfl
@[simp] theorem modHoist_test (h : Nat) (g : Hoist → Hoist) : (modHoist b h g).test = b.test := rfl
@[simp] theorem modHoist_tiles (h : Nat) (g : Hoist → Hoist) : (modHoist b h g).tiles = b.tiles := rfl
@[simp] theorem modHoist_sectors (h : Nat) (g : Hoist → Hoist) : (modHoist b h g).sectors = b.sectors := rfl
@[simp] theorem modHoist_cores (h : Nat) (g : Hoist → Hoist) : (modHoist b h g).cores = b.cores := rfl
@[simp] theorem modHoist_restarts (h : Nat) (g : Hoist → Hoist) : (modHoist b h g).restarts = b.restarts := rfl
@[simp] theorem modHoist_snap (h : Nat) (g : Hoist → Hoist) : (modHoist b h g).snap = b.snap := rfl
@[simp] theorem modHoist_shadow (h : Nat) (g : Hoist → Hoist) : (modHoist b h g).shadow = b.shadow := rfl
@[simp] theorem modHoist_due (h : Nat) (g : Hoist → Hoist) : (modHoist b h g).due = b.due := rfl
@[simp] theorem modHoist_pens (h : Nat) (g : Hoist → Hoist) : (modHoist b h g).pens = b.pens := rfl
@[simp] theorem modHoist_watches (h : Nat) (g : Hoist → Hoist) : (modHoist b h g).watches = b.watches := rfl
@[simp] theorem modHoist_fns (h : Nat) (g : Hoist → Hoist) : (modHoist b h g).fns = b.fns := rfl
@[simp] theorem modHoist_cmds (h : Nat) (g : Hoist → Hoist) : (modHoist b h g).cmds = b.cmds := rfl
@[simp] theorem modHoist_dlck (h : Nat) (g : Hoist → Hoist) : (modHoist b h g).dlck = b.dlck := rfl
@[simp] theorem modHoist_staged (h : Nat) (g : Hoist → Hoist) : (modHoist b h g).staged = b.staged := rfl
@[simp] theorem modHoist_forming (h : Nat) (g : Hoist → Hoist) : (modHoist b h g).forming = b.forming := rfl
@[simp] theorem modHoist_walks (h : Nat) (g : Hoist → Hoist) : (modHoist b h g).walks = b.walks := rfl
@[simp] theorem modHoist_compiles (h : Nat) (g : Hoist → Hoist) : (modHoist b h g).compiles = b.compiles := rfl
@[simp] theorem modHoist_ports (h : Nat) (g : Hoist → Hoist) : (modHoist b h g).ports = b.ports := rfl
@[simp] theorem modHoist_fab (h : Nat) (g : Hoist → Hoist) : (modHoist b h g).fab = b.fab := rfl
@[simp] theorem modHoist_d2d (h : Nat) (g : Hoist → Hoist) : (modHoist b h g).d2d = b.d2d := rfl
@[simp] theorem modHoist_memp (h : Nat) (g : Hoist → Hoist) : (modHoist b h g).memp = b.memp := rfl
@[simp] theorem modHoist_xlats (h : Nat) (g : Hoist → Hoist) : (modHoist b h g).xlats = b.xlats := rfl
@[simp] theorem modHoist_fresh (h : Nat) (g : Hoist → Hoist) : (modHoist b h g).fresh = b.fresh := rfl
@[simp] theorem modHoist_stores (h : Nat) (g : Hoist → Hoist) : (modHoist b h g).stores = b.stores := rfl
@[simp] theorem modHoist_t_group (h : Nat) (g : Hoist → Hoist) : (modHoist b h g).t.group = b.t.group := rfl
@[simp] theorem modHoist_t_roster (h : Nat) (g : Hoist → Hoist) : (modHoist b h g).t.roster = b.t.roster := rfl
@[simp] theorem modHoist_t_route (h : Nat) (g : Hoist → Hoist) : (modHoist b h g).t.route = b.t.route := rfl
@[simp] theorem modHoist_t_mcast (h : Nat) (g : Hoist → Hoist) : (modHoist b h g).t.mcast = b.t.mcast := rfl
@[simp] theorem modHoist_t_haly (h : Nat) (g : Hoist → Hoist) : (modHoist b h g).t.haly = b.t.haly := rfl
@[simp] theorem modHoist_t_dir (h : Nat) (g : Hoist → Hoist) : (modHoist b h g).t.dir = b.t.dir := rfl
@[simp] theorem modHoist_t_stream (h : Nat) (g : Hoist → Hoist) : (modHoist b h g).t.stream = b.t.stream := rfl

@[simp] theorem modHaly_part (h : Nat) (g : Haly → Haly) : (modHaly b h g).part = b.part := rfl
@[simp] theorem modHaly_life (h : Nat) (g : Haly → Haly) : (modHaly b h g).life = b.life := rfl
@[simp] theorem modHaly_ctl (h : Nat) (g : Haly → Haly) : (modHaly b h g).ctl = b.ctl := rfl
@[simp] theorem modHaly_beat (h : Nat) (g : Haly → Haly) : (modHaly b h g).beat = b.beat := rfl
@[simp] theorem modHaly_pwr (h : Nat) (g : Haly → Haly) : (modHaly b h g).pwr = b.pwr := rfl
@[simp] theorem modHaly_sec (h : Nat) (g : Haly → Haly) : (modHaly b h g).sec = b.sec := rfl
@[simp] theorem modHaly_test (h : Nat) (g : Haly → Haly) : (modHaly b h g).test = b.test := rfl
@[simp] theorem modHaly_tiles (h : Nat) (g : Haly → Haly) : (modHaly b h g).tiles = b.tiles := rfl
@[simp] theorem modHaly_sectors (h : Nat) (g : Haly → Haly) : (modHaly b h g).sectors = b.sectors := rfl
@[simp] theorem modHaly_cores (h : Nat) (g : Haly → Haly) : (modHaly b h g).cores = b.cores := rfl
@[simp] theorem modHaly_restarts (h : Nat) (g : Haly → Haly) : (modHaly b h g).restarts = b.restarts := rfl
@[simp] theorem modHaly_snap (h : Nat) (g : Haly → Haly) : (modHaly b h g).snap = b.snap := rfl
@[simp] theorem modHaly_shadow (h : Nat) (g : Haly → Haly) : (modHaly b h g).shadow = b.shadow := rfl
@[simp] theorem modHaly_due (h : Nat) (g : Haly → Haly) : (modHaly b h g).due = b.due := rfl
@[simp] theorem modHaly_pens (h : Nat) (g : Haly → Haly) : (modHaly b h g).pens = b.pens := rfl
@[simp] theorem modHaly_watches (h : Nat) (g : Haly → Haly) : (modHaly b h g).watches = b.watches := rfl
@[simp] theorem modHaly_fns (h : Nat) (g : Haly → Haly) : (modHaly b h g).fns = b.fns := rfl
@[simp] theorem modHaly_cmds (h : Nat) (g : Haly → Haly) : (modHaly b h g).cmds = b.cmds := rfl
@[simp] theorem modHaly_dlck (h : Nat) (g : Haly → Haly) : (modHaly b h g).dlck = b.dlck := rfl
@[simp] theorem modHaly_staged (h : Nat) (g : Haly → Haly) : (modHaly b h g).staged = b.staged := rfl
@[simp] theorem modHaly_forming (h : Nat) (g : Haly → Haly) : (modHaly b h g).forming = b.forming := rfl
@[simp] theorem modHaly_walks (h : Nat) (g : Haly → Haly) : (modHaly b h g).walks = b.walks := rfl
@[simp] theorem modHaly_compiles (h : Nat) (g : Haly → Haly) : (modHaly b h g).compiles = b.compiles := rfl
@[simp] theorem modHaly_ports (h : Nat) (g : Haly → Haly) : (modHaly b h g).ports = b.ports := rfl
@[simp] theorem modHaly_fab (h : Nat) (g : Haly → Haly) : (modHaly b h g).fab = b.fab := rfl
@[simp] theorem modHaly_d2d (h : Nat) (g : Haly → Haly) : (modHaly b h g).d2d = b.d2d := rfl
@[simp] theorem modHaly_memp (h : Nat) (g : Haly → Haly) : (modHaly b h g).memp = b.memp := rfl
@[simp] theorem modHaly_xlats (h : Nat) (g : Haly → Haly) : (modHaly b h g).xlats = b.xlats := rfl
@[simp] theorem modHaly_fresh (h : Nat) (g : Haly → Haly) : (modHaly b h g).fresh = b.fresh := rfl
@[simp] theorem modHaly_stores (h : Nat) (g : Haly → Haly) : (modHaly b h g).stores = b.stores := rfl
@[simp] theorem modHaly_t_group (h : Nat) (g : Haly → Haly) : (modHaly b h g).t.group = b.t.group := rfl
@[simp] theorem modHaly_t_roster (h : Nat) (g : Haly → Haly) : (modHaly b h g).t.roster = b.t.roster := rfl
@[simp] theorem modHaly_t_route (h : Nat) (g : Haly → Haly) : (modHaly b h g).t.route = b.t.route := rfl
@[simp] theorem modHaly_t_mcast (h : Nat) (g : Haly → Haly) : (modHaly b h g).t.mcast = b.t.mcast := rfl
@[simp] theorem modHaly_t_hoist (h : Nat) (g : Haly → Haly) : (modHaly b h g).t.hoist = b.t.hoist := rfl
@[simp] theorem modHaly_t_dir (h : Nat) (g : Haly → Haly) : (modHaly b h g).t.dir = b.t.dir := rfl
@[simp] theorem modHaly_t_stream (h : Nat) (g : Haly → Haly) : (modHaly b h g).t.stream = b.t.stream := rfl

@[simp] theorem modStr_part (f n : Nat) (g : Stream → Stream) : (modStr b f n g).part = b.part := rfl
@[simp] theorem modStr_life (f n : Nat) (g : Stream → Stream) : (modStr b f n g).life = b.life := rfl
@[simp] theorem modStr_ctl (f n : Nat) (g : Stream → Stream) : (modStr b f n g).ctl = b.ctl := rfl
@[simp] theorem modStr_beat (f n : Nat) (g : Stream → Stream) : (modStr b f n g).beat = b.beat := rfl
@[simp] theorem modStr_pwr (f n : Nat) (g : Stream → Stream) : (modStr b f n g).pwr = b.pwr := rfl
@[simp] theorem modStr_sec (f n : Nat) (g : Stream → Stream) : (modStr b f n g).sec = b.sec := rfl
@[simp] theorem modStr_test (f n : Nat) (g : Stream → Stream) : (modStr b f n g).test = b.test := rfl
@[simp] theorem modStr_tiles (f n : Nat) (g : Stream → Stream) : (modStr b f n g).tiles = b.tiles := rfl
@[simp] theorem modStr_sectors (f n : Nat) (g : Stream → Stream) : (modStr b f n g).sectors = b.sectors := rfl
@[simp] theorem modStr_cores (f n : Nat) (g : Stream → Stream) : (modStr b f n g).cores = b.cores := rfl
@[simp] theorem modStr_restarts (f n : Nat) (g : Stream → Stream) : (modStr b f n g).restarts = b.restarts := rfl
@[simp] theorem modStr_snap (f n : Nat) (g : Stream → Stream) : (modStr b f n g).snap = b.snap := rfl
@[simp] theorem modStr_shadow (f n : Nat) (g : Stream → Stream) : (modStr b f n g).shadow = b.shadow := rfl
@[simp] theorem modStr_due (f n : Nat) (g : Stream → Stream) : (modStr b f n g).due = b.due := rfl
@[simp] theorem modStr_pens (f n : Nat) (g : Stream → Stream) : (modStr b f n g).pens = b.pens := rfl
@[simp] theorem modStr_watches (f n : Nat) (g : Stream → Stream) : (modStr b f n g).watches = b.watches := rfl
@[simp] theorem modStr_fns (f n : Nat) (g : Stream → Stream) : (modStr b f n g).fns = b.fns := rfl
@[simp] theorem modStr_cmds (f n : Nat) (g : Stream → Stream) : (modStr b f n g).cmds = b.cmds := rfl
@[simp] theorem modStr_dlck (f n : Nat) (g : Stream → Stream) : (modStr b f n g).dlck = b.dlck := rfl
@[simp] theorem modStr_staged (f n : Nat) (g : Stream → Stream) : (modStr b f n g).staged = b.staged := rfl
@[simp] theorem modStr_forming (f n : Nat) (g : Stream → Stream) : (modStr b f n g).forming = b.forming := rfl
@[simp] theorem modStr_walks (f n : Nat) (g : Stream → Stream) : (modStr b f n g).walks = b.walks := rfl
@[simp] theorem modStr_compiles (f n : Nat) (g : Stream → Stream) : (modStr b f n g).compiles = b.compiles := rfl
@[simp] theorem modStr_ports (f n : Nat) (g : Stream → Stream) : (modStr b f n g).ports = b.ports := rfl
@[simp] theorem modStr_fab (f n : Nat) (g : Stream → Stream) : (modStr b f n g).fab = b.fab := rfl
@[simp] theorem modStr_d2d (f n : Nat) (g : Stream → Stream) : (modStr b f n g).d2d = b.d2d := rfl
@[simp] theorem modStr_memp (f n : Nat) (g : Stream → Stream) : (modStr b f n g).memp = b.memp := rfl
@[simp] theorem modStr_xlats (f n : Nat) (g : Stream → Stream) : (modStr b f n g).xlats = b.xlats := rfl
@[simp] theorem modStr_fresh (f n : Nat) (g : Stream → Stream) : (modStr b f n g).fresh = b.fresh := rfl
@[simp] theorem modStr_stores (f n : Nat) (g : Stream → Stream) : (modStr b f n g).stores = b.stores := rfl
@[simp] theorem modStr_t_group (f n : Nat) (g : Stream → Stream) : (modStr b f n g).t.group = b.t.group := rfl
@[simp] theorem modStr_t_roster (f n : Nat) (g : Stream → Stream) : (modStr b f n g).t.roster = b.t.roster := rfl
@[simp] theorem modStr_t_route (f n : Nat) (g : Stream → Stream) : (modStr b f n g).t.route = b.t.route := rfl
@[simp] theorem modStr_t_mcast (f n : Nat) (g : Stream → Stream) : (modStr b f n g).t.mcast = b.t.mcast := rfl
@[simp] theorem modStr_t_haly (f n : Nat) (g : Stream → Stream) : (modStr b f n g).t.haly = b.t.haly := rfl
@[simp] theorem modStr_t_hoist (f n : Nat) (g : Stream → Stream) : (modStr b f n g).t.hoist = b.t.hoist := rfl
@[simp] theorem modStr_t_dir (f n : Nat) (g : Stream → Stream) : (modStr b f n g).t.dir = b.t.dir := rfl

@[simp] theorem draw_part : (draw b).2.part = b.part := rfl
@[simp] theorem draw_life : (draw b).2.life = b.life := rfl
@[simp] theorem draw_ctl : (draw b).2.ctl = b.ctl := rfl
@[simp] theorem draw_beat : (draw b).2.beat = b.beat := rfl
@[simp] theorem draw_pwr : (draw b).2.pwr = b.pwr := rfl
@[simp] theorem draw_sec : (draw b).2.sec = b.sec := rfl
@[simp] theorem draw_test : (draw b).2.test = b.test := rfl
@[simp] theorem draw_tiles : (draw b).2.tiles = b.tiles := rfl
@[simp] theorem draw_sectors : (draw b).2.sectors = b.sectors := rfl
@[simp] theorem draw_cores : (draw b).2.cores = b.cores := rfl
@[simp] theorem draw_restarts : (draw b).2.restarts = b.restarts := rfl
@[simp] theorem draw_t : (draw b).2.t = b.t := rfl
@[simp] theorem draw_snap : (draw b).2.snap = b.snap := rfl
@[simp] theorem draw_shadow : (draw b).2.shadow = b.shadow := rfl
@[simp] theorem draw_due : (draw b).2.due = b.due := rfl
@[simp] theorem draw_pens : (draw b).2.pens = b.pens := rfl
@[simp] theorem draw_watches : (draw b).2.watches = b.watches := rfl
@[simp] theorem draw_fns : (draw b).2.fns = b.fns := rfl
@[simp] theorem draw_cmds : (draw b).2.cmds = b.cmds := rfl
@[simp] theorem draw_dlck : (draw b).2.dlck = b.dlck := rfl
@[simp] theorem draw_staged : (draw b).2.staged = b.staged := rfl
@[simp] theorem draw_forming : (draw b).2.forming = b.forming := rfl
@[simp] theorem draw_walks : (draw b).2.walks = b.walks := rfl
@[simp] theorem draw_compiles : (draw b).2.compiles = b.compiles := rfl
@[simp] theorem draw_ports : (draw b).2.ports = b.ports := rfl
@[simp] theorem draw_fab : (draw b).2.fab = b.fab := rfl
@[simp] theorem draw_d2d : (draw b).2.d2d = b.d2d := rfl
@[simp] theorem draw_memp : (draw b).2.memp = b.memp := rfl
@[simp] theorem draw_xlats : (draw b).2.xlats = b.xlats := rfl
@[simp] theorem draw_stores : (draw b).2.stores = b.stores := rfl
@[simp] theorem draw_fresh : (draw b).2.fresh = b.fresh + 1 := rfl
@[simp] theorem store_stores (k : Nat) (bs : List Byte) : (store b k bs).stores = b.stores ++ [(k, bs)] := rfl
@[simp] theorem modFn_fns (f : Nat) (g : Fn → Fn) : (modFn b f g).fns = tmod fn0 b.fns f g := rfl
@[simp] theorem modPen_pens (p : Nat) (g : Pen → Pen) : (modPen b p g).pens = tmod pen0 b.pens p g := rfl
@[simp] theorem modP_ports (n : Nat) (g : Port → Port) : (modP b n g).ports = b.ports.modify n g := rfl
@[simp] theorem modM_memp (m : Nat) (g : MemP → MemP) : (modM b m g).memp = b.memp.modify m g := rfl
@[simp] theorem modD2_d2d (p : Nat) (g : D2d → D2d) : (modD2 b p g).d2d = b.d2d.modify p g := rfl
@[simp] theorem modTile_tiles (i : Nat) (g : Tile → Tile) : (modTile b i g).tiles = b.tiles.modify i g := rfl
@[simp] theorem modSect_sectors (i : Nat) (g : Sector → Sector) : (modSect b i g).sectors = b.sectors.modify i g := rfl

end Sys2Proof.Machine
end

