-- ==== Sys2Proof/Laws/Tab.lean ====
section
/-!
SUPPORT. Sparse tables: what an entry reads after a write, and that every operation keeps the canonical form.
-/
namespace Sys2Proof.Machine

section
variable {α : Type}

@[simp] theorem tget_nil (d : α) (k : Nat) : tget d [] k = d := rfl

theorem tget_cons (d v : α) (j k : Nat) (r : Tab α) : tget d ((j, v) :: r) k = if j = k then v else tget d r k := rfl

/-- An entry inserted reads as its value, every other as before. -/
theorem tget_tput (d v : α) (t : Tab α) (k j : Nat) : tget d (tput k v t) j = if j = k then v else tget d t j := by
  induction t with
  | nil => simp only [tput, tget_cons, tget_nil, eq_comm]
  | cons e r ih =>
    obtain ⟨i, w⟩ := e
    simp only [tput]
    split
    · simp only [tget_cons, eq_comm]
    · split
      · subst_vars; simp only [tget_cons, eq_comm]; split <;> simp_all
      · simp only [tget_cons, ih]; split <;> split <;> simp_all <;> omega

/-- An index below the bound of a rising table is not listed. -/
theorem tget_low (d : α) (t : Tab α) (b k : Nat) (h : risingFrom b t = true) (hk : k < b) : tget d t k = d := by
  induction t generalizing b with
  | nil => rfl
  | cons e r ih =>
    obtain ⟨j, v⟩ := e
    simp only [risingFrom, Bool.and_eq_true, decide_eq_true_eq] at h
    rw [tget_cons, if_neg (by omega)]
    exact ih (j + 1) h.2 (by omega)

/-- The bound of a rising table may be lowered. -/
theorem rising_mono (t : Tab α) (b c : Nat) (h : risingFrom b t = true) (hc : c ≤ b) : risingFrom c t = true := by
  cases t with
  | nil => rfl
  | cons e r =>
    obtain ⟨j, v⟩ := e
    simp only [risingFrom, Bool.and_eq_true, decide_eq_true_eq] at h ⊢
    exact ⟨by omega, h.2⟩

theorem rising_tput (t : Tab α) (b k : Nat) (v : α) (h : risingFrom b t = true) (hk : b ≤ k) : risingFrom b (tput k v t) = true := by
  induction t generalizing b with
  | nil => simp [tput, risingFrom, hk]
  | cons e r ih =>
    obtain ⟨j, w⟩ := e
    simp only [risingFrom, Bool.and_eq_true, decide_eq_true_eq] at h
    simp only [tput]
    split
    · simp only [risingFrom, Bool.and_eq_true, decide_eq_true_eq]; exact ⟨hk, by omega, h.2⟩
    · split
      · subst_vars; simp only [risingFrom, Bool.and_eq_true, decide_eq_true_eq]; exact ⟨hk, h.2⟩
      · simp only [risingFrom, Bool.and_eq_true, decide_eq_true_eq]; exact ⟨h.1, ih (j + 1) h.2 (by omega)⟩

theorem rising_tdel (t : Tab α) (b k : Nat) (h : risingFrom b t = true) : risingFrom b (tdel k t) = true := by
  induction t generalizing b with
  | nil => rfl
  | cons e r ih =>
    obtain ⟨j, w⟩ := e
    simp only [risingFrom, Bool.and_eq_true, decide_eq_true_eq] at h
    simp only [tdel]
    split
    · exact rising_mono r (j + 1) b h.2 (by omega)
    · simp only [risingFrom, Bool.and_eq_true, decide_eq_true_eq]; exact ⟨h.1, ih (j + 1) h.2⟩

theorem mem_tput (t : Tab α) (k : Nat) (v : α) (e : Nat × α) (h : e ∈ tput k v t) : e = (k, v) ∨ e ∈ t := by
  induction t with
  | nil => simpa [tput] using h
  | cons x r ih =>
    obtain ⟨j, w⟩ := x
    simp only [tput] at h
    split at h
    · simpa using h
    · split at h
      · simp only [List.mem_cons] at h ⊢; exact h.imp id .inr
      · simp only [List.mem_cons] at h ⊢
        rcases h with h | h
        · exact .inr (.inl h)
        · exact (ih h).imp id .inr

theorem mem_tdel (t : Tab α) (k : Nat) (e : Nat × α) (h : e ∈ tdel k t) : e ∈ t := by
  induction t with
  | nil => simp [tdel] at h
  | cons x r ih =>
    obtain ⟨j, w⟩ := x
    simp only [tdel] at h
    split at h
    · exact .tail _ h
    · simp only [List.mem_cons] at h ⊢; exact h.imp id ih

theorem tget_tdel_same (d : α) (t : Tab α) (b k : Nat) (h : risingFrom b t = true) : tget d (tdel k t) k = d := by
  induction t generalizing b with
  | nil => rfl
  | cons e r ih =>
    obtain ⟨j, w⟩ := e
    simp only [risingFrom, Bool.and_eq_true, decide_eq_true_eq] at h
    simp only [tdel]
    split
    · exact tget_low d r (j + 1) k h.2 (by omega)
    · rw [tget_cons, if_neg ‹_›]; exact ih (j + 1) h.2

theorem tget_tdel_other (d : α) (t : Tab α) (k j : Nat) (h : j ≠ k) : tget d (tdel k t) j = tget d t j := by
  induction t with
  | nil => rfl
  | cons e r ih =>
    obtain ⟨i, w⟩ := e
    simp only [tdel]
    split
    · rw [tget_cons, if_neg (by omega)]
    · simp only [tget_cons, ih]

variable [DecidableEq α]

theorem twf_rising {d : α} {t : Tab α} (h : twf d t = true) : risingFrom 0 t = true := by
  simp only [twf, Bool.and_eq_true] at h; exact h.1

/-- A write keeps the canonical form. -/
theorem twf_tset (d : α) (t : Tab α) (k : Nat) (v : α) (h : twf d t = true) : twf d (tset d t k v) = true := by
  simp only [twf, Bool.and_eq_true, List.all_eq_true, decide_eq_true_eq] at h ⊢
  unfold tset
  split
  · exact ⟨rising_tdel t 0 k h.1, fun e he => h.2 e (mem_tdel t k e he)⟩
  · refine ⟨rising_tput t 0 k v h.1 (Nat.zero_le k), fun e he => ?_⟩
    rcases mem_tput t k v e he with rfl | he
    · assumption
    · exact h.2 e he

/-- Read after write in a canonical table. -/
theorem tget_tset (d : α) (t : Tab α) (k j : Nat) (v : α) (h : twf d t = true) :
    tget d (tset d t k v) j = if j = k then v else tget d t j := by
  unfold tset
  split
  · rename_i hv
    by_cases hj : j = k
    · rw [if_pos hj, hj, hv]; exact tget_tdel_same d t 0 k (twf_rising h)
    · rw [if_neg hj]; exact tget_tdel_other d t k j hj
  · exact tget_tput d v t k j

/-- Read after a write of a value that is not the default, in any table. -/
theorem tget_tset_of_ne (d : α) (t : Tab α) (k j : Nat) (v : α) (h : v ≠ d) :
    tget d (tset d t k v) j = if j = k then v else tget d t j := by
  unfold tset; rw [if_neg h]; exact tget_tput d v t k j

/-- A write leaves every other entry of any table alone. -/
theorem tget_tset_other (d : α) (t : Tab α) (k j : Nat) (v : α) (h : j ≠ k) : tget d (tset d t k v) j = tget d t j := by
  unfold tset
  split
  · exact tget_tdel_other d t k j h
  · rw [tget_tput, if_neg h]

theorem tget_tmod (d : α) (t : Tab α) (k j : Nat) (f : α → α) (h : twf d t = true) :
    tget d (tmod d t k f) j = if j = k then f (tget d t k) else tget d t j := tget_tset d t k j _ h

theorem tget_tmod_other (d : α) (t : Tab α) (k j : Nat) (f : α → α) (h : j ≠ k) : tget d (tmod d t k f) j = tget d t j :=
  tget_tset_other d t k j _ h

theorem twf_tmod (d : α) (t : Tab α) (k : Nat) (f : α → α) (h : twf d t = true) : twf d (tmod d t k f) = true := twf_tset d t k _ h

end

end Sys2Proof.Machine
end

