-- ==== Sys2Proof/Laws/Memory.lean ====
section
/-!
SUPPORT. Memory: stores keep its canonical form, a byte reads as the last store to it, every other byte as before.
-/
namespace Sys2Proof.Machine

theorem memWf_putBytes (m : Tab Byte) (k : Nat) (bs : List Byte) (h : memWf m = true) : memWf (putBytes m k bs) = true := by
  induction bs generalizing m k with
  | nil => exact h
  | cons x r ih => exact ih _ _ (twf_tset 0 m k x h)

theorem memWf_applyStores (m : Tab Byte) (l : List (Nat × List Byte)) (h : memWf m = true) : memWf (applyStores m l) = true := by
  induction l generalizing m with
  | nil => exact h
  | cons x r ih => exact ih _ (memWf_putBytes m x.1 x.2 h)

theorem applyStores_append (m : Tab Byte) (l r : List (Nat × List Byte)) :
    applyStores m (l ++ r) = applyStores (applyStores m l) r := by
  induction l generalizing m with
  | nil => rfl
  | cons x r ih => exact ih _

@[simp] theorem applyStores_nil (m : Tab Byte) : applyStores m [] = m := rfl

/-- A byte outside a run of stored bytes reads as before. -/
theorem byteAt_putBytes_other (m : Tab Byte) (k a : Nat) (bs : List Byte) (h : a < k ∨ k + bs.length ≤ a) :
    byteAt (putBytes m k bs) a = byteAt m a := by
  induction bs generalizing m k with
  | nil => rfl
  | cons x r ih =>
    simp only [List.length_cons] at h
    rw [putBytes, ih _ (k + 1) (by omega)]
    exact tget_tset_other 0 m k a x (by omega)

/-- A byte of a run of stored bytes reads as stored. -/
theorem byteAt_putBytes_same (m : Tab Byte) (k i : Nat) (bs : List Byte) (hm : memWf m = true) (h : i < bs.length) :
    byteAt (putBytes m k bs) (k + i) = bs[i] := by
  induction bs generalizing m k i with
  | nil => exact absurd h (Nat.not_lt_zero i)
  | cons x r ih =>
    cases i with
    | zero =>
      rw [putBytes, byteAt_putBytes_other _ (k + 1) (k + 0) r (by omega)]
      exact (tget_tset 0 m k (k + 0) x hm).trans (if_pos rfl)
    | succ i =>
      have := ih (tset 0 m k x) (k + 1) i (twf_tset 0 m k x hm) (by simpa using h)
      rw [putBytes, show k + (i + 1) = k + 1 + i by omega, this]; rfl

/-- A byte that no store covers reads as before. -/
theorem byteAt_applyStores_other (m : Tab Byte) (a : Nat) (l : List (Nat × List Byte))
    (h : ∀ st ∈ l, a < st.1 ∨ st.1 + st.2.length ≤ a) : byteAt (applyStores m l) a = byteAt m a := by
  induction l generalizing m with
  | nil => rfl
  | cons x r ih =>
    rw [applyStores, ih _ (fun st hs => h st (.tail _ hs))]
    exact byteAt_putBytes_other m x.1 a x.2 (h x (.head _))

/-- A command that stores nothing leaves memory as it was. -/
theorem commit_of_no_stores (s : State) (b : Blk) (h : b.stores = []) : commit s b = { s with b := b } := by
  have e : ({ b with stores := [] } : Blk) = b := by rw [← h]
  unfold commit
  rw [h, e]; rfl

end Sys2Proof.Machine
end

