-- ==== Sys2Proof/Laws/Act.lean ====
section
/-!
SUPPORT. The forms in which a meaning acts, what each can do, and that every meaning has one of them.
-/
namespace Sys2Proof.Machine

/-- An outcome that carries out some change of the block, or nothing. -/
def Acts (s : State) (o : Host.Outcome State Fault Refusal) : Prop := o = .next s ∨ ∃ b, o = .next (commit s b)

theorem act_acts (s : State) (f : Blk → Tab Byte → Blk) : Acts s (act s f) := by
  unfold act; split
  · exact .inr ⟨_, rfl⟩
  · exact .inl rfl
theorem actLive_acts (s : State) (f : Blk → Tab Byte → Blk) : Acts s (actLive s f) := by
  unfold actLive; split
  · exact .inr ⟨_, rfl⟩
  · exact .inl rfl
theorem actCtl_acts (s : State) (f : Blk → Tab Byte → Blk) : Acts s (actCtl s f) := by
  unfold actCtl; split
  · exact .inr ⟨_, rfl⟩
  · exact .inl rfl
theorem actAlways_acts (s : State) (f : Blk → Tab Byte → Blk) : Acts s (actAlways s f) := .inr ⟨_, rfl⟩

theorem act_awake {s : State} (h : awake s.b = true) (f : Blk → Tab Byte → Blk) : act s f = .next (commit s (f s.b s.mem)) := by
  unfold act; rw [if_pos h]
theorem act_idle {s : State} (h : awake s.b = false) (f : Blk → Tab Byte → Blk) : act s f = .next s := by
  unfold act; rw [h]; rfl
theorem actLive_alive {s : State} (h : alive s.b = true) (f : Blk → Tab Byte → Blk) : actLive s f = .next (commit s (f s.b s.mem)) := by
  unfold actLive; rw [if_pos h]
theorem actLive_lost {s : State} (h : alive s.b = false) (f : Blk → Tab Byte → Blk) : actLive s f = .next s := by
  unfold actLive; rw [h]; rfl
theorem actCtl_open {s : State} (h : s.b.life.scanMode = false ∧ s.b.life.inReset = false) (f : Blk → Tab Byte → Blk) :
    actCtl s f = .next (commit s (f s.b s.mem)) := by
  unfold actCtl; rw [h.1, h.2]; rfl

theorem awake_alive {b : Blk} (h : awake b = true) : alive b = true := by
  simp only [awake, Bool.and_eq_true] at h; exact h.1

/-- Acting keeps the queue, the canonical form of memory, and leaves no store behind. -/
theorem acts_keeps {s t : State} {o : Host.Outcome State Fault Refusal} (h : Acts s o) (ht : o = .next t) :
    t.pending = s.pending ∧ (memWf s.mem = true → memWf t.mem = true) ∧ (s.b.stores = [] → t.b.stores = []) := by
  rcases h with h | ⟨b, h⟩
  · rw [h] at ht; injection ht with e; subst e; exact ⟨rfl, id, id⟩
  · rw [h] at ht; injection ht with e; subst e; exact ⟨rfl, memWf_applyStores _ _, fun _ => rfl⟩

end Sys2Proof.Machine
end

