-- ==== Sys2Proof/Laws/Rows.lean ====
section
/-!
SUPPORT. One lemma for each row: the form in which its meaning acts. Together they say what a step can do.
-/
namespace Sys2Proof.Machine

theorem row_allreduce (id : CmdId) (env : CollEnv) (s : State) : exec (.allreduce id env) s = act s fun b m => onRun b id 0x10 fun c => collFx b m c env := rfl
theorem row_reduceScatter (id : CmdId) (env : CollEnv) (s : State) : exec (.reduceScatter id env) s = act s fun b m => onRun b id 0x11 fun c => collFx b m c env := rfl
theorem row_allgather (id : CmdId) (env : CollEnv) (s : State) : exec (.allgather id env) s = act s fun b m => onRun b id 0x12 fun c => collFx b m c env := rfl
theorem row_broadcast (id : CmdId) (env : CollEnv) (s : State) : exec (.broadcast id env) s = act s fun b m => onRun b id 0x13 fun c => collFx b m c env := rfl
theorem row_reduce (id : CmdId) (env : CollEnv) (s : State) : exec (.reduce id env) s = act s fun b m => onRun b id 0x14 fun c => collFx b m c env := rfl
theorem row_gather (id : CmdId) (env : CollEnv) (s : State) : exec (.gather id env) s = act s fun b m => onRun b id 0x15 fun c => collFx b m c env := rfl
theorem row_scatter (id : CmdId) (env : CollEnv) (s : State) : exec (.scatter id env) s = act s fun b m => onRun b id 0x16 fun c => collFx b m c env := rfl
theorem row_alltoall (id : CmdId) (env : CollEnv) (s : State) : exec (.alltoall id env) s = act s fun b m => onRun b id 0x17 fun c => collFx b m c env := rfl
theorem row_alltoallv (id : CmdId) (env : CollEnv) (s : State) : exec (.alltoallv id env) s = act s fun b m => onRun b id 0x18 fun c => collFx b m c env := rfl
theorem row_barrier (id : CmdId) (env : CollEnv) (s : State) : exec (.barrier id env) s = act s fun b m => onRun b id 0x19 fun c => collFx b m c env := rfl
theorem row_topkGather (id : CmdId) (env : CollEnv) (s : State) : exec (.topkGather id env) s = act s fun b m => onRun b id 0x1A fun c => collFx b m c env := rfl
theorem row_dispatch (id : CmdId) (env : DispEnv) (s : State) : exec (.dispatch id env) s = act s fun b m => onRun b id 0x20 fun c => dispatchRowFx b m c env := rfl
theorem row_combine (id : CmdId) (env : CombEnv) (s : State) : exec (.combine id env) s = act s fun b m => onRun b id 0x21 fun c => combineRowFx b m c env := rfl
theorem row_score (id : CmdId) (fault : Option AccFault) (s : State) : exec (.score id fault) s = act s fun b m => onRun b id 0x22 fun c => scoreFx b m c fault := rfl
theorem row_put (id : CmdId) (fault : Option AccFault) (s : State) : exec (.put id fault) s = act s fun b m => onRun b id 0x30 fun c => putFx b m c 1 fault := rfl
theorem row_get (id : CmdId) (fault : Option AccFault) (s : State) : exec (.get id fault) s = act s fun b _ => onRun b id 0x31 fun c => getFx b c fault := rfl
theorem row_putSignal (id : CmdId) (fault : Option AccFault) (s : State) : exec (.putSignal id fault) s = act s fun b m => onRun b id 0x32 fun c => putFx b m c 1 fault := rfl
theorem row_memAtomic (id : CmdId) (fault : Option AccFault) (s : State) : exec (.memAtomic id fault) s = act s fun b m => onRun b id 0x33 fun c => putFx b m c 5 fault := rfl
theorem row_pennantSet (id : CmdId) (s : State) : exec (.pennantSet id) s = act s fun b _ => onRun b id 0x34 fun c => if fPenOp c == 0 && allDurable b id.f then pennantFx b c false else b := rfl
theorem row_pennantAdd (id : CmdId) (s : State) : exec (.pennantAdd id) s = act s fun b _ => onRun b id 0x34 fun c => if fPenOp c == 1 && allDurable b id.f then pennantFx b c true else b := rfl
theorem row_pennantWait (id : CmdId) (s : State) : exec (.pennantWait id) s =
    (act s fun b _ => match headCmd b id with
          | none => b
          | some c =>
            if opOf c != 0x34 || fPenOp c != 2 || (flWait c && !c.waitDone) then b
            else match penIdx b id.f (fPen c) with
            | none => endCmd b id 0x31 0
            | some p => modCmd (penWait b c p) id fun c => if decide (c.phase = .ended) then c else { c with phase := .running }) := rfl
theorem row_streamOpen (id : CmdId) (s : State) : exec (.streamOpen id) s = act s fun b _ => onRun b id 0x40 fun c => openFx b c := rfl
theorem row_stageAhead (id : CmdId) (s : State) : exec (.stageAhead id) s = act s fun b _ => onRun b id 0x41 fun c => openFx b c := rfl
theorem row_streamResume (id : CmdId) (s : State) : exec (.streamResume id) s =
    (act s fun b _ => onRun b id 0x42 fun c =>
          let st := getStr b id.f (fStream c)
          if st.valid && st.state == 2 then
            endCmd (modStr b id.f (fStream c) fun s => { s with state := 1, staged := 0, fault := 0 }) id 0 st.delivered
          else endCmd b id 0x61 0) := rfl
theorem row_streamCloseFinish (id : CmdId) (s : State) : exec (.streamCloseFinish id) s =
    (act s fun b _ => onRun b id 0x43 fun c =>
          let st := getStr b id.f (fStream c)
          if fCloseAbort c then b
          else if !st.valid || st.state == 2 then endCmd b id 0x61 0
          else if st.state == 3 || st.state == 4 then endCmd (freeStream b id.f (fStream c)) id 0 st.flies
          else b) := rfl
theorem row_streamCloseAbort (id : CmdId) (s : State) : exec (.streamCloseAbort id) s =
    (act s fun b _ => onRun b id 0x43 fun c =>
          let st := getStr b id.f (fStream c)
          if !fCloseAbort c then b
          else if !st.valid then endCmd b id 0x61 0
          else endCmd (freeFinish b id.f (fStream c)) id 0 st.flies) := rfl
theorem row_strike (id : CmdId) (s : State) : exec (.strike id) s =
    (act s fun b _ => match cmdIn b id .accepted [0x50] with
          | some c => settle (strikeFx b c)
          | none => b) := rfl
theorem row_queueShutdown (id : CmdId) (s : State) : exec (.queueShutdown id) s =
    (act s fun b _ => match cmdIn b id .accepted [0x51] with
          | some c => settle (shutdownFx b c)
          | none => b) := rfl
theorem row_functionEnable (id : CmdId) (s : State) : exec (.functionEnable id) s =
    (act s fun b _ => match cmdIn b id .accepted [0x80] with
          | some c => enableFx b c
          | none => b) := rfl
theorem row_functionDisable (id : CmdId) (s : State) : exec (.functionDisable id) s = act s fun b _ => onRun b id 0x81 fun c => disableFx b c := rfl
theorem row_pennantMap (id : CmdId) (s : State) : exec (.pennantMap id) s =
    (act s fun b _ => onRun b id 0x82 fun c =>
          if pf c 3 1 == 1 then b
          else if pmBad b c then endCmd b id 0x61 0
          else
            let ks := freeBlocks b (pf c 4 2)
            if ks.length < pf c 4 2 then endCmd b id 0x60 0 else stage b c (ks.headD 0) ks) := rfl
theorem row_unmap (id : CmdId) (s : State) : exec (.unmap id) s =
    (act s fun b _ => onRun b id 0x82 fun c =>
          if pf c 3 1 != 1 then b
          else if pmBad b c then endCmd b id 0x61 0
          else stage b c 0 ((pmPages c).map fun p => fld (tget 0 b.t.dir (fFn c * 256 + p)) 9 0)) := rfl
theorem row_groupCreate (id : CmdId) (fault : Option AccFault) (s : State) : exec (.groupCreate id fault) s = act s fun b m => onRun b id 0x83 fun c => createFx b m c fault := rfl
theorem row_groupReform (id : CmdId) (fault : Option AccFault) (s : State) : exec (.groupReform id fault) s = act s fun b m => onRun b id 0x84 fun c => reformFx b m c fault := rfl
theorem row_groupDestroy (id : CmdId) (s : State) : exec (.groupDestroy id) s = act s fun b _ => onRun b id 0x85 fun c => destroyFx b c := rfl
theorem row_hoistCompile (id : CmdId) (s : State) : exec (.hoistCompile id) s = act s fun b _ => onRun b id 0x86 fun c => hoistCompileFx b c := rfl
theorem row_hoistInstall (id : CmdId) (fault : Option AccFault) (s : State) : exec (.hoistInstall id fault) s = act s fun b m => onRun b id 0x87 fun c => hoistInstallFx b m c fault := rfl
theorem row_hoistRelease (id : CmdId) (s : State) : exec (.hoistRelease id) s =
    (act s fun b _ => onRun b id 0x88 fun c =>
          let k := pf c 0 4 % 2 ^ 17
          if !(getHoist b k).valid || decide (98304 ≤ k) then endCmd b id 0x61 0 else stage b c 0 [k]) := rfl
theorem row_routeUpdate (id : CmdId) (fault : Option AccFault) (s : State) : exec (.routeUpdate id fault) s =
    (act s fun b m => onRun b id 0x89 fun c => match b.fab.drain with
          | some d => if d.cmd = id then b else routeFx b m c fault
          | none => routeFx b m c fault) := rfl
theorem row_tableRead (id : CmdId) (fault : Option AccFault) (s : State) : exec (.tableRead id fault) s = act s fun b _ => onRun b id 0x8A fun c => tableReadFx b c fault := rfl
theorem row_powerPolicy (id : CmdId) (s : State) : exec (.powerPolicy id) s =
    (act s fun b _ => onRun b id 0x8B fun c =>
          if ppBad b c then endCmd b id 0x61 0 else stage b c (if tb (pf c 2 1) 0 then pf c 0 2 else b.pwr.cap) []) := rfl
theorem row_fnRotate (id : CmdId) (s : State) : exec (.fnRotate id) s =
    (act s fun b _ => onRun b id 0x8C fun c =>
          let f := fld (pf c 2 2) 8 0
          let n := getFn b f
          if pf c 0 1 != 0 then b
          else if !n.enabled then endCmd b id 0x61 0
          else if n.spill.any fun u => u.epoch != n.keyEpoch then b
          else endCmd (modFn b f fun n => { n with keyEpoch := (n.keyEpoch + 1) % 2 ^ 32 }) id 0 ((n.keyEpoch + 1) % 2 ^ 32)) := rfl
theorem row_linkSession (id : CmdId) (s : State) : exec (.linkSession id) s = act s fun b _ => onRun b id 0x8C fun c => rekeyFx b c 1 := rfl
theorem row_linkRekey (id : CmdId) (s : State) : exec (.linkRekey id) s = act s fun b _ => onRun b id 0x8C fun c => rekeyFx b c 2 := rfl
theorem row_attest (id : CmdId) (fault : Option AccFault) (s : State) : exec (.attest id fault) s = act s fun b m => onRun b id 0x8D fun c => attestFx b m c fault := rfl
theorem row_selftest (id : CmdId) (tests : List UnitTest) (fault : Option AccFault) (s : State) : exec (.selftest id tests fault) s = act s fun b _ => onRun b id 0x8E fun c => blockTestFx b c tests fault := rfl
theorem row_unlistedOpcode (id : CmdId) (s : State) : exec (.unlistedOpcode id) s =
    (act s fun b _ => match cmdIn b id .accepted (List.range 256) with
          | some c => if isUnlisted c then endCmd b id 0x61 0 else b
          | none => b) := rfl
theorem row_doorbell (f q : Nat) (v : Word) (s : State) : exec (.doorbell f q v) s = actCtl s fun b _ => ctlWrite b (pageOff f (8 * (q % 16))) v := rfl
theorem row_fnQring (f q : Nat) (v : Word) (s : State) : exec (.fnQring f q v) s = actCtl s fun b _ => ctlWrite b (pageOff f (0x100 + 16 * (q % 16))) v := rfl
theorem row_fnCring (f : Nat) (v : Word) (s : State) : exec (.fnCring f v) s = actCtl s fun b _ => ctlWrite b (pageOff f 0x200) v := rfl
theorem row_fnChead (f : Nat) (v : Word) (s : State) : exec (.fnChead f v) s = actCtl s fun b _ => ctlWrite b (pageOff f 0x208) v := rfl
theorem row_fnEqring (f : Nat) (v : Word) (s : State) : exec (.fnEqring f v) s = actCtl s fun b _ => ctlWrite b (pageOff f 0x300) v := rfl
theorem row_fnEqhead (f : Nat) (v : Word) (s : State) : exec (.fnEqhead f v) s = actCtl s fun b _ => ctlWrite b (pageOff f 0x308) v := rfl
theorem row_fnSpill (f : Nat) (v : Word) (s : State) : exec (.fnSpill f v) s = actCtl s fun b _ => ctlWrite b (pageOff f 0x400) v := rfl
theorem row_fnIrqcfg (f : Nat) (v : Word) (s : State) : exec (.fnIrqcfg f v) s = actCtl s fun b _ => ctlWrite b (pageOff f 0x500) v := rfl
theorem row_fnMsiAddr (f vec : Nat) (v : Word) (s : State) : exec (.fnMsiAddr f vec v) s = actCtl s fun b _ => ctlWrite b (pageOff f (0x800 + 16 * (vec % 32))) v := rfl
theorem row_fnPenSel (f : Nat) (v : Word) (s : State) : exec (.fnPenSel f v) s = actCtl s fun b _ => ctlWrite b (pageOff f 0xE00) v := rfl
theorem row_fnStrSel (f : Nat) (v : Word) (s : State) : exec (.fnStrSel f v) s = actCtl s fun b _ => ctlWrite b (pageOff f 0xE40) v := rfl
theorem row_blkAdmin (v : Word) (s : State) : exec (.blkAdmin v) s = actCtl s fun b _ => ctlWrite b 0x60 v := rfl
theorem row_blkReset (v : Word) (s : State) : exec (.blkReset v) s = actCtl s fun b _ => ctlWrite b 0x70 v := rfl
theorem row_fltFence (v : Word) (s : State) : exec (.fltFence v) s = actCtl s fun b _ => ctlWrite b 0x10008 v := rfl
theorem row_beatCfg (v : Word) (s : State) : exec (.beatCfg v) s = actCtl s fun b _ => ctlWrite b 0x200000 v := rfl
theorem row_fabSelf (v : Word) (s : State) : exec (.fabSelf v) s = actCtl s fun b _ => ctlWrite b 0x1F0008 v := rfl
theorem row_secFabricGen (v : Word) (s : State) : exec (.secFabricGen v) s = actCtl s fun b _ => ctlWrite b 0x240008 v := rfl
theorem row_clrCnt (n : Nat) (v : Word) (s : State) : exec (.clrCnt n v) s = actCtl s fun b _ => ctlWrite b (linkOff n 0) v := rfl
theorem row_beatOvrClr (v : Word) (s : State) : exec (.beatOvrClr v) s = actCtl s fun b _ => ctlWrite b 0x200018 v := rfl
theorem row_prbsEn (n : Nat) (v : Word) (s : State) : exec (.prbsEn n v) s = actCtl s fun b _ => ctlWrite b (linkOff n 0x100) v := rfl
theorem row_prbsInject (n : Nat) (v : Word) (s : State) : exec (.prbsInject n v) s = actCtl s fun b _ => ctlWrite b (linkOff n 0x100) v := rfl
theorem row_prbsClr (n : Nat) (v : Word) (s : State) : exec (.prbsClr n v) s = actCtl s fun b _ => ctlWrite b (linkOff n 0x100) v := rfl
theorem row_flashRel (v : Word) (s : State) : exec (.flashRel v) s = actCtl s fun b _ => ctlWrite b 0x1008 v := rfl
theorem row_dbgDis (v : Word) (s : State) : exec (.dbgDis v) s = actCtl s fun b _ => ctlWrite b 0x1008 v := rfl
theorem row_registerWrite (off : Nat) (v : Word) (s : State) : exec (.registerWrite off v) s = actCtl s fun b _ => ctlWrite b off v := rfl
theorem row_scan (f q : Nat) (fault : Option AccFault) (s : State) : exec (.scan f q fault) s =
    (act s fun b m =>
          if !scanDue b f q then b
          else match fault with
          | some a =>
            let b := modQ b f q fun x => { x with was := 4, state := 4, ringFault := true, scanPending := false }
            event b f 0x09 q 0 0 (a.addr % 2 ^ 57)
          | none => scanLoop m f q 257 b) := rfl
theorem row_hoistOnDemand (id : CmdId) (s : State) : exec (.hoistOnDemand id) s =
    (act s fun b m => match headCmd b id with
          | none => b
          | some c =>
            if !c.headOther || !usesHoist c || (cmdGenStatus b c).isSome then b
            else match findGroup b (fGid c) with
            | none => b
            | some (gh, g) =>
              let key := keyOf b m c
              if g.gen < fGen c || (findHoist b key).isSome || b.compiles.any (fun k => sameKey k.hoist key) then b
              else if !halvingOk key.opcode (if key.pin == 5 then 4 else key.pin) g.n then endCmd b id 0x61 0
              else match installFor b gh key c.id.f false with
              | .inl st => if st == 0 then b else endCmd b id st 0
              | .inr (k, b) => seekHalyards b gh k id false) := rfl
theorem row_fly (r : FlyRef) (s : State) : exec (.fly r) s =
    (act s fun b _ => match r with
          | .cmd id => match findCmd b id with
            | some c => if decide (c.phase = .running) && flFly c && decide (c.flies < c.ready) && fnLive b id.f && allDurable b id.f then
                flyCmd b c else b
            | none => b
          | .stream f n => if fnLive b f && allDurable b f && slotReady b (getStr b f n) then flyStream b f n else b) := rfl
theorem row_completion (id : CmdId) (s : State) : exec (.completion id) s =
    (act s fun b _ => match findCmd b id with
          | some c => if mayComplete b c then
              settle (carryIfShort (ringPut b id.f { w := completionWords c, cmd := some id }) id.f) else b
          | none => b) := rfl
theorem row_cqDelay (f : Nat) (s : State) : exec (.cqDelay f) s =
    (act s fun b _ =>
          let n := getFn b f
          let cfg := n.irqCfg.toNat
          if tb cfg 63 && decide (n.irqA < n.produced) && fld cfg 31 16 != 0 && fnLive b f then
            modFn (signalVec b f (fld cfg 62 58)) f fun n => { n with irqA := n.produced }
          else b) := rfl
theorem row_generationWaitTimeout (id : CmdId) (s : State) : exec (.generationWaitTimeout id) s =
    (act s fun b _ => match findCmd b id with
          | none => b
          | some c => match findGroup b (fGid c) with
            | none => b
            | some (_, g) =>
              if decide (c.phase = .accepted) && c.headOther && namesGroup c && decide (g.gen < fGen c) && g.timeout != 0 &&
                 decide (c.waitBeat + g.timeout ≤ beatNow b) && fnLive b id.f
              then endCmd b id 0x22 0 else b) := rfl
theorem row_stepTimeout (id : CmdId) (missing : List Nat) (s : State) : exec (.stepTimeout id missing) s =
    (act s fun b _ =>
          let slow := fun (gid gen since : Nat) (ranks : List Nat) => match findGroup b gid with
            | some (h, g) =>
              let ranks := ranks.filter fun r => decide (r < g.n) && slotEp (tget 0 b.t.roster (g.base + r)) != selfEp b
              if g.gen == gen && g.state == 1 && g.timeout != 0 && decide (since + g.timeout ≤ beatNow b) && !ranks.isEmpty
              then detectBreak b h 2 [ranks.foldl min 8191] else b
            | none => b
          match findCmd b id with
          | some c =>
            if hasPeers c && !c.effectDone then slow (fGid c) (fGen c) c.dispBeat missing
            else if isP2p (opOf c) && decide (c.phase = .running) && decide (c.acked < c.sent) then slow (fGid c) (fGen c) c.dispBeat [fTarget c]
            else b
          | none => match b.t.stream.find? fun e => e.2.valid && e.2.sharded && e.2.state == 1 && e.1 / 64 == id.f && e.2.openId == (id.q, id.rseq) with
            | some e => slow e.2.gid e.2.gen 0 missing
            | none => b) := rfl
theorem row_autoReform (gid : Nat) (s : State) : exec (.autoReform gid) s =
    (act s fun b _ => match findGroup b gid with
          | some (_, g) =>
            if !reformTime b g || b.due.reforms.contains gid then b
            else if cannotReform b g then stayBroken b g
            else { b with due := { b.due with reforms := b.due.reforms ++ [gid] } }
          | none => b) := rfl
theorem row_beatStart (s : State) : exec (.beatStart) s = actLive s fun b _ => startBeat b fun x => nextCount x (selfEp b) := rfl
theorem row_dipWindow (util : List Nat) (s : State) : exec (.dipWindow util) s = actLive s fun b _ => dipFx b util := rfl
theorem row_partnerAbsent (ep : Nat) (s : State) : exec (.partnerAbsent ep) s = act s fun b _ => partnerAbsentFx b ep := rfl
theorem row_parentLost (s : State) : exec (.parentLost) s = actLive s fun b _ => if b.beat.run && !isMaster b.beat && parentGone b then loseParent b else b := rfl
theorem row_deadlock (f : Nat) (s : State) : exec (.deadlock f) s = act s fun b _ => deadlockFx b f := rfl
theorem row_blockDeadlock (s : State) : exec (.blockDeadlock) s = act s fun b _ => blockDeadlockFx b := rfl
theorem row_frameSend (n : Nat) (s : State) : exec (.frameSend n) s = act s fun b _ => frameSendFx b n := rfl
theorem row_frameReceive (n : Nat) (fr : FrameRx) (s : State) : exec (.frameReceive n fr) s = act s fun b _ => frameReceiveFx b n fr := rfl
theorem row_replay (n : Nat) (s : State) : exec (.replay n) s = act s fun b _ => if framing b n && (getP b n).nakRx then replayFx b n else b := rfl
theorem row_replayTimeout (n : Nat) (s : State) : exec (.replayTimeout n) s = act s fun b _ => if framing b n && !(getP b n).replay.isEmpty then replayFx b n else b := rfl
theorem row_routedCell (n vn : Nat) (s : State) : exec (.routedCell n vn) s = act s fun b _ => if portExists b n then routedFx b n vn else b := rfl
theorem row_data (port : Nat) (p : Pkt) (tail : TailVerdict) (s : State) : exec (.data port p tail) s =
    (act s fun b _ => onPkt b port p 1 fun b => onGen b p fun _ g =>
          if tb (preOfPkt p).cseq 47 then p2pData b g p tail else collData b g p tail) := rfl
theorem row_signal (port : Nat) (p : Pkt) (s : State) : exec (.signal port p) s = act s fun b _ => onPkt b port p 2 fun b => onGen b p fun _ g => signalFx b port g p := rfl
theorem row_getReq (port : Nat) (p : Pkt) (fault : Option AccFault) (s : State) : exec (.getReq port p fault) s = act s fun b m => onPkt b port p 3 fun b => onGen b p fun _ g => serveFx b m port g p fault := rfl
theorem row_getResp (port : Nat) (p : Pkt) (tail : TailVerdict) (s : State) : exec (.getResp port p tail) s = act s fun b _ => onPkt b port p 4 fun b => respFx b p tail := rfl
theorem row_atomic (port : Nat) (p : Pkt) (fault : Option AccFault) (tail : TailVerdict) (s : State) : exec (.atomic port p fault tail) s = act s fun b m => onPkt b port p 5 fun b => onGen b p fun _ g => atomicFx b m g p fault tail := rfl
theorem row_e2eAck (port : Nat) (p : Pkt) (s : State) : exec (.e2eAck port p) s = act s fun b _ => onPkt b port p 6 fun b => ackFx b p := rfl
theorem row_e2eAckSend (ep : Nat) (s : State) : exec (.e2eAckSend ep) s =
    (act s fun b _ =>
          let b := ackSpace b ep (false, ep)
          ((b.fab.msrc.filter fun e => e.1 % 65536 == ep).map (·.1)).foldl (fun b k => ackSpace b ep (true, k)) b) := rfl
theorem row_e2eResend (ep seq : Nat) (s : State) : exec (.e2eResend ep seq) s = act s fun b _ => resendFx b ep seq := rfl
theorem row_hold (port : Nat) (p : Pkt) (s : State) : exec (.hold port p) s =
    (act s fun b _ =>
          let q := preOfPkt p
          if fld q.spec 7 0 != 0 then b
          else onPkt b port p 7 fun b =>
            if q.mcseq then modUnacked b p.hdr.src (some q.gid) q.e2e fun u => some { u with held := true }
            else modUnacked b p.hdr.src none q.e2e fun u => some { u with held := true }) := rfl
theorem row_holdResend (ep seq : Nat) (s : State) : exec (.holdResend ep seq) s =
    (act s fun b _ => match findUnacked b ep seq with
          | none => b
          | some (dom, u) =>
            if !u.held then b
            else if !stillSends b (preOfPkt u.pkt) then flushOf (modUnacked b ep dom seq fun _ => none) ep dom
            else again (modUnacked b ep dom seq fun u => some { u with held := false }) ep u false u.alt) := rfl
theorem row_recompute (port : Nat) (p : Pkt) (rc : Recomb) (s : State) : exec (.recompute port p rc) s = act s fun b _ => if fld (preOfPkt p).spec 7 0 != 1 then b else onPkt b port p 7 fun b => recomputeFx b p rc := rfl
theorem row_checkerSelftest (ep seq : Nat) (checkerOk : Bool) (tail : TailVerdict) (s : State) : exec (.checkerSelftest ep seq checkerOk tail) s =
    (act s fun b _ => match b.fab.arbs.find? fun a => a.src == ep && a.seq == seq && a.second with
          | some a => selftestFx b a checkerOk tail
          | none => b) := rfl
theorem row_abortNotice (port : Nat) (p : Pkt) (s : State) : exec (.abortNotice port p) s = act s fun b _ => onPkt b port p 8 fun b => onGen b p fun _ g => abortFx b g p := rfl
theorem row_breakNotice (port : Nat) (p : Pkt) (s : State) : exec (.breakNotice port p) s =
    (act s fun b _ => onPkt b port p 9 fun b => onGen b p fun h _ =>
          let q := preOfPkt p
          let ranks := (List.range (fld q.spec 31 16)).map fun i => leAt (dataOfPkt p) (2 * i) 2
          applyBreak (takeSeq b p) h (fld q.spec 7 0) ranks (preOff q)) := rfl
theorem row_reserve (port : Nat) (p : Pkt) (s : State) : exec (.reserve port p) s = act s fun b _ => if isCollPkt p && (preOfPkt p).type == 10 && portExists b port then reserveFx b port p else b := rfl
theorem row_reserveReply (port : Nat) (p : Pkt) (s : State) : exec (.reserveReply port p) s = act s fun b _ => if isCollPkt p && (preOfPkt p).type == 11 && portExists b port then replyFx b port p else b := rfl
theorem row_reserveTimeout (idx : Nat) (s : State) : exec (.reserveTimeout idx) s =
    (act s fun b _ => match b.walks.find? fun w => w.idx == idx with
          | some w => if decide (w.beat + 8 ≤ beatNow b) then walkDone (releaseHaly b idx) idx false else b
          | none => b) := rfl
theorem row_release (port : Nat) (p : Pkt) (s : State) : exec (.release port p) s = act s fun b _ => if isCollPkt p && (preOfPkt p).type == 12 then releaseFx b port p else b := rfl
theorem row_halyardCell (port id seq : Nat) (inWindow : Bool) (pay : List Byte) (s : State) : exec (.halyardCell port id seq inWindow pay) s = act s fun b _ => if framing b port then halyCellFx b port id seq inWindow pay else b := rfl
theorem row_halyardWindow (idx : Nat) (s : State) : exec (.halyardWindow idx) s = act s fun b _ => if b.beat.inDip then b else windowFx b idx := rfl
theorem row_overrun (idx : Nat) (s : State) : exec (.overrun idx) s = act s fun b _ => overrunFx b idx := rfl
theorem row_multicast (port : Nat) (p : Pkt) (s : State) : exec (.multicast port p) s = act s fun b _ => if p.hdr.hop == 0 && !ownCopy b p then multicastFx b port p else b := rfl
theorem row_ident (n ep code : Nat) (s : State) : exec (.ident n ep code) s = act s fun b _ => identFx b n ep code := rfl
theorem row_beatMark (n : Nat) (m : Mark) (rx : Nat) (s : State) : exec (.beatMark n m rx) s = actLive s fun b _ => beatMarkFx b n m rx := rfl
theorem row_keepAlive (n ep beat : Nat) (locked : Bool) (s : State) : exec (.keepAlive n ep beat locked) s = actLive s fun b _ => (fun (_ : Nat × Bool) => keepAliveFx b n ep) (beat, locked) := rfl
theorem row_beatIn (t : Nat) (s : State) : exec (.beatIn t) s = actLive s fun b _ => beatInFx b t := rfl
theorem row_beatInMissing (s : State) : exec (.beatInMissing) s = actLive s fun b _ => if b.beat.run && b.beat.source == 2 && b.beat.live && decide (2 ≤ b.beat.missed) then setLock b false else b := rfl
theorem row_drainTimeout (id : CmdId) (s : State) : exec (.drainTimeout id) s =
    (act s fun b _ => onRun b id 0x89 fun c => match b.fab.drain with
          | some d =>
            if d.cmd = id && !d.drainOff && decide (d.since + pf c 14 2 ≤ beatNow b) && !drained b d then
              if tb (pf c 16 1) 0 then drainOver b c d 3
              else endCmd (endDrain b id) id 0x10 (1 + mk [(47, 32, beatNow b - d.since)])
            else b
          | none => b) := rfl
theorem row_routeDrainDone (id : CmdId) (s : State) : exec (.routeDrainDone id) s =
    (act s fun b _ => onRun b id 0x89 fun c => match b.fab.drain with
          | some d => if d.cmd = id && !d.drainOff && drained b d then drainOver b c d 0 else b
          | none => b) := rfl
theorem row_linkTrainStart (n : Nat) (s : State) : exec (.linkTrainStart n) s =
    (act s fun b _ =>
          let p := getP b n
          if mayTrain b n && (p.state == 0 || (p.state == 1 && decide (p.phase = .reset))) then modP b n attempt else b) := rfl
theorem row_adaptDone (n good : Nat) (s : State) : exec (.adaptDone n good) s =
    (act s fun b _ => modP b n fun p =>
          if !decide (p.phase = .phy) || p.adaptReq == 0 || decide (laneCount good < 12) then p
          else { p with phase := .lanes, adapted := good, adaptReq := 0, goodMine := laneMinus good p.rxFault }) := rfl
theorem row_rxGood (n mask : Nat) (s : State) : exec (.rxGood n mask) s = act s fun b _ => rxGoodFx b n mask := rfl
theorem row_trainMessage (n : Nat) (m : TrainMsg) (s : State) : exec (.trainMessage n m) s = act s fun b _ => trainFx b n m := rfl
theorem row_trainResend (n : Nat) (s : State) : exec (.trainResend n) s = act s fun b _ => trainResendFx b n := rfl
theorem row_trainingTimeout (n : Nat) (s : State) : exec (.trainingTimeout n) s =
    (act s fun b _ =>
          let p := getP b n
          if p.retraining then linkDown b n
          else if p.state == 1 && !decide (p.phase = .reset) && !decide (p.phase = .done) then failAttempt b n
          else b) := rfl
theorem row_laneFault (n lane : Nat) (s : State) : exec (.laneFault n lane) s = act s fun b _ => laneFaultFx b n lane := rfl
theorem row_lossOfSignal (n : Nat) (s : State) : exec (.lossOfSignal n) s =
    (act s fun b _ =>
          let p := getP b n
          if p.state == 2 && decide (p.sleep ≤ 2) then linkDown b n
          else if p.state == 1 && !decide (p.phase = .reset) then failAttempt b n
          else b) := rfl
theorem row_sleepRequest (n : Nat) (s : State) : exec (.sleepRequest n) s = act s fun b _ => if maySleep b n && (getP b n).sleep == 0 then modP b n fun p => { p with sleep := 1 } else b := rfl
theorem row_sleep (n kind : Nat) (s : State) : exec (.sleep n kind) s = act s fun b _ => sleepFx b n kind := rfl
theorem row_wake (n : Nat) (deskewed : Bool) (s : State) : exec (.wake n deskewed) s = act s fun b _ => wakeFx b n deskewed := rfl
theorem row_d2dDoorbell (p f q : Nat) (s : State) : exec (.d2dDoorbell p f q) s = actLive s fun b _ => dieBell b p f q := rfl
theorem row_d2dSet (p f vid tag : Nat) (fence : Bool) (v : Word) (s : State) : exec (.d2dSet p f vid tag fence v) s = actLive s fun b _ => diePen b p f vid tag fence false v := rfl
theorem row_d2dAdd (p f vid tag : Nat) (fence : Bool) (v : Word) (s : State) : exec (.d2dAdd p f vid tag fence v) s = actLive s fun b _ => diePen b p f vid tag fence true v := rfl
theorem row_d2dRead (p f vid tag : Nat) (s : State) : exec (.d2dRead p f vid tag) s = actLive s fun b _ => dieRead b p f vid tag := rfl
theorem row_watch (p f vid tag wtag form : Nat) (v mask : Word) (s : State) : exec (.watch p f vid tag wtag form v mask) s = actLive s fun b _ => watchFx b p f vid tag wtag form v mask := rfl
theorem row_unwatch (p f tag wtag : Nat) (s : State) : exec (.unwatch p f tag wtag) s = actLive s fun b _ => unwatchFx b p f tag wtag := rfl
theorem row_mwr (p f tag addr : Nat) (enables : List Bool) (lines : List Byte) (s : State) : exec (.mwr p f tag addr enables lines) s = actLive s fun b _ => mwrFx b p f tag addr enables lines := rfl
theorem row_mrd (p f tag addr len : Nat) (s : State) : exec (.mrd p f tag addr len) s = actLive s fun b _ => mrdFx b p f tag addr len := rfl
theorem row_mwrRsp (p tag status : Nat) (s : State) : exec (.mwrRsp p tag status) s = actLive s fun b _ => dieResponse b p tag status 1 true := rfl
theorem row_mrdData (p tag status : Nat) (bytes : List Byte) (s : State) : exec (.mrdData p tag status bytes) s = actLive s fun b _ => dieResponse b p tag status (unitsOf bytes.length) false := rfl
theorem row_pktTx (p f tag dst : Nat) (bytes : List Byte) (s : State) : exec (.pktTx p f tag dst bytes) s = actLive s fun b _ => pktTxFx b p f tag dst bytes := rfl
theorem row_credit (p req rsp oth : Nat) (s : State) : exec (.credit p req rsp oth) s = actLive s fun b _ => creditFx b p req rsp oth := rfl
theorem row_fdiState (p : Nat) (active cfgOk : Bool) (s : State) : exec (.fdiState p active cfgOk) s = actLive s fun b _ => fdiFx b p active cfgOk := rfl
theorem row_d2dTimeout (p tag : Nat) (s : State) : exec (.d2dTimeout p tag) s = actLive s fun b _ => outTimeout b p tag := rfl
theorem row_d2dLinkLoss (p : Nat) (s : State) : exec (.d2dLinkLoss p) s = actLive s fun b _ => let d := getD2 b p; if d.state == 0 && d.everActive && !d.cfgErr then fenceD2d b p 3 else b := rfl
theorem row_readData (m tag stat : Nat) (bytes : List Byte) (s : State) : exec (.readData m tag stat bytes) s = actLive s fun b _ => readDataFx b m tag stat bytes := rfl
theorem row_writeCompletion (m tag stat : Nat) (s : State) : exec (.writeCompletion m tag stat) s = actCtl s fun b _ => writeDoneFx b m tag stat := rfl
theorem row_translationAnswer (m tag stat page size : Nat) (wr : Bool) (s : State) : exec (.translationAnswer m tag stat page size wr) s = actLive s fun b _ => xlAnswerFx b m tag stat page size wr := rfl
theorem row_invalidation (m tag ctx page size : Nat) (all : Bool) (s : State) : exec (.invalidation m tag ctx page size all) s = actLive s fun b _ => invalFx b m tag ctx page size all := rfl
theorem row_memTimeout (m kind tag : Nat) (s : State) : exec (.memTimeout m kind tag) s =
    (actLive s fun b _ =>
          let p := getM b m
          let out := if kind == 0 then p.reads.any fun r => r.tag == tag else if kind == 1 then p.writes.any fun w => w.tag == tag
            else p.xlats.any fun x => x.tag == tag
          if out && p.state == 1 then protocolError b m else b) := rfl
theorem row_haltDone (m : Nat) (s : State) : exec (.haltDone m) s = actLive s fun b _ => haltDoneFx b m := rfl
theorem row_haltTimeout (m : Nat) (s : State) : exec (.haltTimeout m) s = actLive s fun b _ => haltTimeoutFx b m := rfl
theorem row_streamPiece (t : Nat) (s : State) : exec (.streamPiece t) s =
    (act s fun b m =>
          if !tileUp b t || decide (b.life.phase ≠ .run) then b
          else match nextStream b with
          | some (k, st) => moveStream b m (k / 64) (k % 64) st
          | none => b) := rfl
theorem row_activityWindow (tile arr : Nat) (waited : Bool) (idle : Nat) (s : State) : exec (.activityWindow tile arr waited idle) s = actLive s fun b _ => activityFx b tile arr waited idle := rfl
theorem row_powerEstimate (watts amps : Nat) (s : State) : exec (.powerEstimate watts amps) s = actLive s fun b _ => estimateFx b watts amps := rfl
theorem row_thermal (sector temp : Nat) (s : State) : exec (.thermal sector temp) s = actLive s fun b _ => thermalFx b sector temp := rfl
theorem row_emerg (s : State) : exec (.emerg) s =
    (actLive s fun b _ =>
          let was := b.pwr.emerg
          let b := allDown { b with pwr := { b.pwr with emerg := true } }
          if was then b else overridden b 4 true (runMask b) 0) := rfl
theorem row_emergClear (s : State) : exec (.emergClear) s =
    (actLive s fun b _ =>
          if b.pwr.emerg then overridden { b with pwr := { b.pwr with emerg := false } } 4 false (runMask b) 0 else b) := rfl
theorem row_vgrant (s : State) : exec (.vgrant) s =
    (actLive s fun b _ =>
          if !b.pwr.vreqValid then b
          else
            let late := b.pwr.vgrant
            let b := requestVolt (grantRaises { b with pwr := { b.pwr with vgranted := b.pwr.vreq, vreqValid := false, vgrant := false } })
            if late then overridden b 5 false (runMask b) 0 else b) := rfl
theorem row_vgrantTimeout (s : State) : exec (.vgrantTimeout) s =
    (actLive s fun b _ =>
          let mask := mk (((running b).filter fun s => (getSect b s).raiseTo.isSome && !(getSect b s).granted).map fun s => (s, s, 1))
          if !b.pwr.vreqValid || mask == 0 then b
          else
            let was := b.pwr.vgrant
            let b := { b with
              sectors := b.sectors.map fun (x : Sector) => if x.granted then x else cancelRaise x
              pwr := { b.pwr with vgrant := true } }
            if was then b else overridden b 5 true mask 0) := rfl
theorem row_stagingEcc (tile : Nat) (s : State) : exec (.stagingEcc tile) s = actLive s fun b _ => fenceTile b tile 2 := rfl
theorem row_tableEcc (table idx : Nat) (s : State) : exec (.tableEcc table idx) s = act s fun b _ => tableEccFx b table idx := rfl
theorem row_seqWatchdog (tile seq : Nat) (s : State) : exec (.seqWatchdog tile seq) s = actLive s fun b _ => if b.pwr.crit then b else fenceSeq b tile seq 3 := rfl
theorem row_coreWatchdog (core : Nat) (s : State) : exec (.coreWatchdog core) s = actLive s fun b _ => fenceCore b core 3 := rfl
theorem row_roleRestart (core : Nat) (s : State) : exec (.roleRestart core) s = act s fun b _ => roleRestartFx b core := rfl
theorem row_sectorFault (sector cause : Nat) (s : State) : exec (.sectorFault sector cause) s = actLive s fun b _ => if cause == 2 || cause == 9 then fenceSector b sector cause else b := rfl
theorem row_fatal (cause : Nat) (s : State) : exec (.fatal cause) s = actCtl s fun b _ => if cause < 7 then setFatal b cause else b := rfl
theorem row_coldReset (s : State) : exec (.coldReset) s =
    (actAlways s fun b _ =>
          let x := blk0 b.part b.sec.svnFloor
          { x with life := { x.life with inReset := true }, test := { x.test with ir := b.test.ir, capture := b.test.capture, tapActive := b.test.tapActive }, fresh := b.fresh }) := rfl
theorem row_rstDone (s : State) : exec (.rstDone) s = actAlways s fun b _ => if b.life.scanMode then b else { b with life := { b.life with inReset := false } } := rfl
theorem row_firmwareLoad (fl : FlashImage) (s : State) : exec (.firmwareLoad fl) s = actLive s fun b _ => if b.life.fwVersion == 0 && b.life.lastCold && decide (b.life.phase = .run) then firmwareFx b fl else b := rfl
theorem row_quiesce (stuck : List Nat) (s : State) : exec (.quiesce stuck) s = actLive s fun b _ => quiesceFx b stuck := rfl
theorem row_firmwareRestart (us : Nat) (s : State) : exec (.firmwareRestart us) s = actLive s fun b m => restartFx b m us := rfl
theorem row_scanMode (s : State) : exec (.scanMode) s = actAlways s fun b _ => scanFx b := rfl
theorem row_tapReset (s : State) : exec (.tapReset) s = actAlways s fun b _ => { b with test := { b.test with ir := 1, tapActive := false } } := rfl
theorem row_tapInstruction (ir : Nat) (s : State) : exec (.tapInstruction ir) s = actAlways s fun b _ => { b with test := { b.test with ir := ir % 256, tapActive := true } } := rfl
theorem row_ctlrd (v : Nat) (s : State) : exec (.ctlrd v) s =
    (actCtl s fun b _ =>
          if tapActs b != 8 then b
          else { b with test := { b.test with capture := if b.test.dbgDis then 0 else ctlRead b (8 * (v % 2 ^ 21)) } }) := rfl
theorem row_phyrdy (n : Nat) (s : State) : exec (.phyrdy n) s =
    (actLive s fun b _ => modP b n fun p =>
          if !p.phyRstN then p
          else if decide (p.phase = .phy) && (p.state == 1 || p.retraining) then { p with phyRdy := true, txei := 0, adaptReq := 0x1FFF }
          else if p.prbsAct then { p with phyRdy := true, adaptReq := 0x1FFF }
          else { p with phyRdy := true }) := rfl
theorem row_lpAck (n : Nat) (level : Bool) (s : State) : exec (.lpAck n level) s =
    (act s fun b _ => modP b n fun p =>
          if p.state != 2 then p
          else if level && p.sleep == 3 then { p with sleep := 4, txei := 0x1FFF }
          else if !level && p.sleep == 5 then { p with txei := 0x1FFF - p.txActive }
          else p) := rfl
theorem row_sleepAnswerTimeout (n : Nat) (s : State) : exec (.sleepAnswerTimeout n) s = act s fun b _ => giveUp b n := rfl
theorem row_memCredit (m rq wq xq : Nat) (s : State) : exec (.memCredit m rq wq xq) s = actLive s fun b _ => memCreditFx b m rq wq xq := rfl
theorem row_prbsChecker (n lane : Nat) (bits : List Bool) (s : State) : exec (.prbsChecker n lane bits) s = actLive s fun b _ => checkerFx b n lane bits := rfl
theorem row_pllRetune (sector : Nat) (s : State) : exec (.pllRetune sector) s = actLive s fun b _ => if runs b sector then modSect b sector fun x => { x with bypass := false } else b := rfl

/-- A stop on a malformed command, or an act. -/
theorem stop_acts (c : Instr) (id : CmdId) (s : State) (q : Bool) (f : Blk → Tab Byte → Blk) (h : q = true → awake s.b = true)
    (hc : c = .accept id ∨ c = .commandDispatch id) :
    Acts s (if q = true then .fault (.malformedCommand id) else act s f) ∨
    ∃ i, (if q = true then .fault (.malformedCommand id) else act s f) = .fault (.malformedCommand i) ∧ awake s.b = true ∧
      (c = .accept i ∨ c = .commandDispatch i) := by
  cases q with
  | true => exact .inr ⟨id, rfl, h rfl, hc⟩
  | false => exact .inl (act_acts s f)

/-- ACCEPT acts, or stops on a malformed command while the block works. -/
theorem accept_acts (id : CmdId) (s : State) : Acts s (exec (.accept id) s) ∨
    ∃ i, exec (.accept id) s = .fault (.malformedCommand i) ∧ awake s.b = true ∧ (Instr.accept id = .accept i ∨ Instr.accept id = .commandDispatch i) := by
  show Acts s (execAccept id s) ∨ ∃ i, execAccept id s = _ ∧ _
  unfold execAccept
  cases acceptable s.b id with
  | none => exact .inl (.inl rfl)
  | some c =>
    exact stop_acts _ _ _ _ _ (fun h => by rw [Bool.and_eq_true, Bool.and_eq_true, Bool.and_eq_true] at h; exact h.1.1.1) (.inl rfl)

/-- COMMAND_DISPATCH acts, or stops on a malformed command while the block works. -/
theorem dispatch_acts (id : CmdId) (s : State) : Acts s (exec (.commandDispatch id) s) ∨
    ∃ i, exec (.commandDispatch id) s = .fault (.malformedCommand i) ∧ awake s.b = true ∧
      (Instr.commandDispatch id = .accept i ∨ Instr.commandDispatch id = .commandDispatch i) := by
  show Acts s (execCommandDispatch id s) ∨ ∃ i, execCommandDispatch id s = _ ∧ _
  unfold execCommandDispatch
  cases headCmd s.b id with
  | none => exact .inl (.inl rfl)
  | some c => exact stop_acts _ _ _ _ _ (fun h => by rw [Bool.and_eq_true] at h; exact h.1) (.inr rfl)

/-- What a row can do: act on the block and carry out its stores, or nothing, or, at acceptance and dispatch, stop on a malformed command. -/
theorem row_acts (c : Instr) (s : State) : Acts s (exec c s) ∨
    ∃ id, exec c s = .fault (.malformedCommand id) ∧ awake s.b = true ∧ (c = .accept id ∨ c = .commandDispatch id) :=
  match c with
  | .allreduce id env => .inl (row_allreduce id env s ▸ act_acts s _)
  | .reduceScatter id env => .inl (row_reduceScatter id env s ▸ act_acts s _)
  | .allgather id env => .inl (row_allgather id env s ▸ act_acts s _)
  | .broadcast id env => .inl (row_broadcast id env s ▸ act_acts s _)
  | .reduce id env => .inl (row_reduce id env s ▸ act_acts s _)
  | .gather id env => .inl (row_gather id env s ▸ act_acts s _)
  | .scatter id env => .inl (row_scatter id env s ▸ act_acts s _)
  | .alltoall id env => .inl (row_alltoall id env s ▸ act_acts s _)
  | .alltoallv id env => .inl (row_alltoallv id env s ▸ act_acts s _)
  | .barrier id env => .inl (row_barrier id env s ▸ act_acts s _)
  | .topkGather id env => .inl (row_topkGather id env s ▸ act_acts s _)
  | .dispatch id env => .inl (row_dispatch id env s ▸ act_acts s _)
  | .combine id env => .inl (row_combine id env s ▸ act_acts s _)
  | .score id fault => .inl (row_score id fault s ▸ act_acts s _)
  | .put id fault => .inl (row_put id fault s ▸ act_acts s _)
  | .get id fault => .inl (row_get id fault s ▸ act_acts s _)
  | .putSignal id fault => .inl (row_putSignal id fault s ▸ act_acts s _)
  | .memAtomic id fault => .inl (row_memAtomic id fault s ▸ act_acts s _)
  | .pennantSet id => .inl (row_pennantSet id s ▸ act_acts s _)
  | .pennantAdd id => .inl (row_pennantAdd id s ▸ act_acts s _)
  | .pennantWait id => .inl (row_pennantWait id s ▸ act_acts s _)
  | .streamOpen id => .inl (row_streamOpen id s ▸ act_acts s _)
  | .stageAhead id => .inl (row_stageAhead id s ▸ act_acts s _)
  | .streamResume id => .inl (row_streamResume id s ▸ act_acts s _)
  | .streamCloseFinish id => .inl (row_streamCloseFinish id s ▸ act_acts s _)
  | .streamCloseAbort id => .inl (row_streamCloseAbort id s ▸ act_acts s _)
  | .strike id => .inl (row_strike id s ▸ act_acts s _)
  | .queueShutdown id => .inl (row_queueShutdown id s ▸ act_acts s _)
  | .functionEnable id => .inl (row_functionEnable id s ▸ act_acts s _)
  | .functionDisable id => .inl (row_functionDisable id s ▸ act_acts s _)
  | .pennantMap id => .inl (row_pennantMap id s ▸ act_acts s _)
  | .unmap id => .inl (row_unmap id s ▸ act_acts s _)
  | .groupCreate id fault => .inl (row_groupCreate id fault s ▸ act_acts s _)
  | .groupReform id fault => .inl (row_groupReform id fault s ▸ act_acts s _)
  | .groupDestroy id => .inl (row_groupDestroy id s ▸ act_acts s _)
  | .hoistCompile id => .inl (row_hoistCompile id s ▸ act_acts s _)
  | .hoistInstall id fault => .inl (row_hoistInstall id fault s ▸ act_acts s _)
  | .hoistRelease id => .inl (row_hoistRelease id s ▸ act_acts s _)
  | .routeUpdate id fault => .inl (row_routeUpdate id fault s ▸ act_acts s _)
  | .tableRead id fault => .inl (row_tableRead id fault s ▸ act_acts s _)
  | .powerPolicy id => .inl (row_powerPolicy id s ▸ act_acts s _)
  | .fnRotate id => .inl (row_fnRotate id s ▸ act_acts s _)
  | .linkSession id => .inl (row_linkSession id s ▸ act_acts s _)
  | .linkRekey id => .inl (row_linkRekey id s ▸ act_acts s _)
  | .attest id fault => .inl (row_attest id fault s ▸ act_acts s _)
  | .selftest id tests fault => .inl (row_selftest id tests fault s ▸ act_acts s _)
  | .unlistedOpcode id => .inl (row_unlistedOpcode id s ▸ act_acts s _)
  | .doorbell f q v => .inl (row_doorbell f q v s ▸ actCtl_acts s _)
  | .fnQring f q v => .inl (row_fnQring f q v s ▸ actCtl_acts s _)
  | .fnCring f v => .inl (row_fnCring f v s ▸ actCtl_acts s _)
  | .fnChead f v => .inl (row_fnChead f v s ▸ actCtl_acts s _)
  | .fnEqring f v => .inl (row_fnEqring f v s ▸ actCtl_acts s _)
  | .fnEqhead f v => .inl (row_fnEqhead f v s ▸ actCtl_acts s _)
  | .fnSpill f v => .inl (row_fnSpill f v s ▸ actCtl_acts s _)
  | .fnIrqcfg f v => .inl (row_fnIrqcfg f v s ▸ actCtl_acts s _)
  | .fnMsiAddr f vec v => .inl (row_fnMsiAddr f vec v s ▸ actCtl_acts s _)
  | .fnPenSel f v => .inl (row_fnPenSel f v s ▸ actCtl_acts s _)
  | .fnStrSel f v => .inl (row_fnStrSel f v s ▸ actCtl_acts s _)
  | .blkAdmin v => .inl (row_blkAdmin v s ▸ actCtl_acts s _)
  | .blkReset v => .inl (row_blkReset v s ▸ actCtl_acts s _)
  | .fltFence v => .inl (row_fltFence v s ▸ actCtl_acts s _)
  | .beatCfg v => .inl (row_beatCfg v s ▸ actCtl_acts s _)
  | .fabSelf v => .inl (row_fabSelf v s ▸ actCtl_acts s _)
  | .secFabricGen v => .inl (row_secFabricGen v s ▸ actCtl_acts s _)
  | .clrCnt n v => .inl (row_clrCnt n v s ▸ actCtl_acts s _)
  | .beatOvrClr v => .inl (row_beatOvrClr v s ▸ actCtl_acts s _)
  | .prbsEn n v => .inl (row_prbsEn n v s ▸ actCtl_acts s _)
  | .prbsInject n v => .inl (row_prbsInject n v s ▸ actCtl_acts s _)
  | .prbsClr n v => .inl (row_prbsClr n v s ▸ actCtl_acts s _)
  | .flashRel v => .inl (row_flashRel v s ▸ actCtl_acts s _)
  | .dbgDis v => .inl (row_dbgDis v s ▸ actCtl_acts s _)
  | .registerWrite off v => .inl (row_registerWrite off v s ▸ actCtl_acts s _)
  | .scan f q fault => .inl (row_scan f q fault s ▸ act_acts s _)
  | .accept id => accept_acts id s
  | .commandDispatch id => dispatch_acts id s
  | .hoistOnDemand id => .inl (row_hoistOnDemand id s ▸ act_acts s _)
  | .fly r => .inl (row_fly r s ▸ act_acts s _)
  | .completion id => .inl (row_completion id s ▸ act_acts s _)
  | .cqDelay f => .inl (row_cqDelay f s ▸ act_acts s _)
  | .generationWaitTimeout id => .inl (row_generationWaitTimeout id s ▸ act_acts s _)
  | .stepTimeout id missing => .inl (row_stepTimeout id missing s ▸ act_acts s _)
  | .autoReform gid => .inl (row_autoReform gid s ▸ act_acts s _)
  | .beatStart => .inl (row_beatStart s ▸ actLive_acts s _)
  | .dipWindow util => .inl (row_dipWindow util s ▸ actLive_acts s _)
  | .partnerAbsent ep => .inl (row_partnerAbsent ep s ▸ act_acts s _)
  | .parentLost => .inl (row_parentLost s ▸ actLive_acts s _)
  | .deadlock f => .inl (row_deadlock f s ▸ act_acts s _)
  | .blockDeadlock => .inl (row_blockDeadlock s ▸ act_acts s _)
  | .frameSend n => .inl (row_frameSend n s ▸ act_acts s _)
  | .frameReceive n fr => .inl (row_frameReceive n fr s ▸ act_acts s _)
  | .replay n => .inl (row_replay n s ▸ act_acts s _)
  | .replayTimeout n => .inl (row_replayTimeout n s ▸ act_acts s _)
  | .routedCell n vn => .inl (row_routedCell n vn s ▸ act_acts s _)
  | .data port p tail => .inl (row_data port p tail s ▸ act_acts s _)
  | .signal port p => .inl (row_signal port p s ▸ act_acts s _)
  | .getReq port p fault => .inl (row_getReq port p fault s ▸ act_acts s _)
  | .getResp port p tail => .inl (row_getResp port p tail s ▸ act_acts s _)
  | .atomic port p fault tail => .inl (row_atomic port p fault tail s ▸ act_acts s _)
  | .e2eAck port p => .inl (row_e2eAck port p s ▸ act_acts s _)
  | .e2eAckSend ep => .inl (row_e2eAckSend ep s ▸ act_acts s _)
  | .e2eResend ep seq => .inl (row_e2eResend ep seq s ▸ act_acts s _)
  | .hold port p => .inl (row_hold port p s ▸ act_acts s _)
  | .holdResend ep seq => .inl (row_holdResend ep seq s ▸ act_acts s _)
  | .recompute port p rc => .inl (row_recompute port p rc s ▸ act_acts s _)
  | .checkerSelftest ep seq checkerOk tail => .inl (row_checkerSelftest ep seq checkerOk tail s ▸ act_acts s _)
  | .abortNotice port p => .inl (row_abortNotice port p s ▸ act_acts s _)
  | .breakNotice port p => .inl (row_breakNotice port p s ▸ act_acts s _)
  | .reserve port p => .inl (row_reserve port p s ▸ act_acts s _)
  | .reserveReply port p => .inl (row_reserveReply port p s ▸ act_acts s _)
  | .reserveTimeout idx => .inl (row_reserveTimeout idx s ▸ act_acts s _)
  | .release port p => .inl (row_release port p s ▸ act_acts s _)
  | .halyardCell port id seq inWindow pay => .inl (row_halyardCell port id seq inWindow pay s ▸ act_acts s _)
  | .halyardWindow idx => .inl (row_halyardWindow idx s ▸ act_acts s _)
  | .overrun idx => .inl (row_overrun idx s ▸ act_acts s _)
  | .multicast port p => .inl (row_multicast port p s ▸ act_acts s _)
  | .ident n ep code => .inl (row_ident n ep code s ▸ act_acts s _)
  | .beatMark n m rx => .inl (row_beatMark n m rx s ▸ actLive_acts s _)
  | .keepAlive n ep beat locked => .inl (row_keepAlive n ep beat locked s ▸ actLive_acts s _)
  | .beatIn t => .inl (row_beatIn t s ▸ actLive_acts s _)
  | .beatInMissing => .inl (row_beatInMissing s ▸ actLive_acts s _)
  | .drainTimeout id => .inl (row_drainTimeout id s ▸ act_acts s _)
  | .routeDrainDone id => .inl (row_routeDrainDone id s ▸ act_acts s _)
  | .linkTrainStart n => .inl (row_linkTrainStart n s ▸ act_acts s _)
  | .adaptDone n good => .inl (row_adaptDone n good s ▸ act_acts s _)
  | .rxGood n mask => .inl (row_rxGood n mask s ▸ act_acts s _)
  | .trainMessage n m => .inl (row_trainMessage n m s ▸ act_acts s _)
  | .trainResend n => .inl (row_trainResend n s ▸ act_acts s _)
  | .trainingTimeout n => .inl (row_trainingTimeout n s ▸ act_acts s _)
  | .laneFault n lane => .inl (row_laneFault n lane s ▸ act_acts s _)
  | .lossOfSignal n => .inl (row_lossOfSignal n s ▸ act_acts s _)
  | .sleepRequest n => .inl (row_sleepRequest n s ▸ act_acts s _)
  | .sleep n kind => .inl (row_sleep n kind s ▸ act_acts s _)
  | .wake n deskewed => .inl (row_wake n deskewed s ▸ act_acts s _)
  | .d2dDoorbell p f q => .inl (row_d2dDoorbell p f q s ▸ actLive_acts s _)
  | .d2dSet p f vid tag fence v => .inl (row_d2dSet p f vid tag fence v s ▸ actLive_acts s _)
  | .d2dAdd p f vid tag fence v => .inl (row_d2dAdd p f vid tag fence v s ▸ actLive_acts s _)
  | .d2dRead p f vid tag => .inl (row_d2dRead p f vid tag s ▸ actLive_acts s _)
  | .watch p f vid tag wtag form v mask => .inl (row_watch p f vid tag wtag form v mask s ▸ actLive_acts s _)
  | .unwatch p f tag wtag => .inl (row_unwatch p f tag wtag s ▸ actLive_acts s _)
  | .mwr p f tag addr enables lines => .inl (row_mwr p f tag addr enables lines s ▸ actLive_acts s _)
  | .mrd p f tag addr len => .inl (row_mrd p f tag addr len s ▸ actLive_acts s _)
  | .mwrRsp p tag status => .inl (row_mwrRsp p tag status s ▸ actLive_acts s _)
  | .mrdData p tag status bytes => .inl (row_mrdData p tag status bytes s ▸ actLive_acts s _)
  | .pktTx p f tag dst bytes => .inl (row_pktTx p f tag dst bytes s ▸ actLive_acts s _)
  | .credit p req rsp oth => .inl (row_credit p req rsp oth s ▸ actLive_acts s _)
  | .fdiState p active cfgOk => .inl (row_fdiState p active cfgOk s ▸ actLive_acts s _)
  | .d2dTimeout p tag => .inl (row_d2dTimeout p tag s ▸ actLive_acts s _)
  | .d2dLinkLoss p => .inl (row_d2dLinkLoss p s ▸ actLive_acts s _)
  | .readData m tag stat bytes => .inl (row_readData m tag stat bytes s ▸ actLive_acts s _)
  | .writeCompletion m tag stat => .inl (row_writeCompletion m tag stat s ▸ actCtl_acts s _)
  | .translationAnswer m tag stat page size wr => .inl (row_translationAnswer m tag stat page size wr s ▸ actLive_acts s _)
  | .invalidation m tag ctx page size all => .inl (row_invalidation m tag ctx page size all s ▸ actLive_acts s _)
  | .memTimeout m kind tag => .inl (row_memTimeout m kind tag s ▸ actLive_acts s _)
  | .haltDone m => .inl (row_haltDone m s ▸ actLive_acts s _)
  | .haltTimeout m => .inl (row_haltTimeout m s ▸ actLive_acts s _)
  | .streamPiece t => .inl (row_streamPiece t s ▸ act_acts s _)
  | .activityWindow tile arr waited idle => .inl (row_activityWindow tile arr waited idle s ▸ actLive_acts s _)
  | .powerEstimate watts amps => .inl (row_powerEstimate watts amps s ▸ actLive_acts s _)
  | .thermal sector temp => .inl (row_thermal sector temp s ▸ actLive_acts s _)
  | .emerg => .inl (row_emerg s ▸ actLive_acts s _)
  | .emergClear => .inl (row_emergClear s ▸ actLive_acts s _)
  | .vgrant => .inl (row_vgrant s ▸ actLive_acts s _)
  | .vgrantTimeout => .inl (row_vgrantTimeout s ▸ actLive_acts s _)
  | .stagingEcc tile => .inl (row_stagingEcc tile s ▸ actLive_acts s _)
  | .tableEcc table idx => .inl (row_tableEcc table idx s ▸ act_acts s _)
  | .seqWatchdog tile seq => .inl (row_seqWatchdog tile seq s ▸ actLive_acts s _)
  | .coreWatchdog core => .inl (row_coreWatchdog core s ▸ actLive_acts s _)
  | .roleRestart core => .inl (row_roleRestart core s ▸ act_acts s _)
  | .sectorFault sector cause => .inl (row_sectorFault sector cause s ▸ actLive_acts s _)
  | .fatal cause => .inl (row_fatal cause s ▸ actCtl_acts s _)
  | .coldReset => .inl (row_coldReset s ▸ actAlways_acts s _)
  | .rstDone => .inl (row_rstDone s ▸ actAlways_acts s _)
  | .firmwareLoad fl => .inl (row_firmwareLoad fl s ▸ actLive_acts s _)
  | .quiesce stuck => .inl (row_quiesce stuck s ▸ actLive_acts s _)
  | .firmwareRestart us => .inl (row_firmwareRestart us s ▸ actLive_acts s _)
  | .scanMode => .inl (row_scanMode s ▸ actAlways_acts s _)
  | .tapReset => .inl (row_tapReset s ▸ actAlways_acts s _)
  | .tapInstruction ir => .inl (row_tapInstruction ir s ▸ actAlways_acts s _)
  | .ctlrd v => .inl (row_ctlrd v s ▸ actCtl_acts s _)
  | .phyrdy n => .inl (row_phyrdy n s ▸ actLive_acts s _)
  | .lpAck n level => .inl (row_lpAck n level s ▸ act_acts s _)
  | .sleepAnswerTimeout n => .inl (row_sleepAnswerTimeout n s ▸ act_acts s _)
  | .memCredit m rq wq xq => .inl (row_memCredit m rq wq xq s ▸ actLive_acts s _)
  | .prbsChecker n lane bits => .inl (row_prbsChecker n lane bits s ▸ actLive_acts s _)
  | .pllRetune sector => .inl (row_pllRetune sector s ▸ actLive_acts s _)

end Sys2Proof.Machine
end

