-- ==== Sys2Proof/Laws/Ctl.lean ====
section
/-!
SUPPORT. CTL writes: which register an offset names, and what carrying out a write that stores nothing leaves.
-/
namespace Sys2Proof.Machine

/-- An offset of a function's page reaches that page's register. -/
theorem ctlWrite_page (b : Blk) (f k : Nat) (w : Word) (hf : f < 512) (hk : k < 0x1000) (h8 : k % 8 = 0) :
    ctlWrite b (pageOff f k) w = writePage b f k w.toNat := by
  unfold ctlWrite pageOff
  rw [Nat.mod_eq_of_lt hf]
  have h1 : (0x400000 + 0x1000 * f + k) % 8 = 0 := by omega
  have h2 : ¬ 0x400000 + 0x1000 * f + k < 0x10000 := by omega
  have h3 : ¬ 0x400000 + 0x1000 * f + k < 0x100000 := by omega
  have h4 : ¬ 0x400000 + 0x1000 * f + k < 0x200000 := by omega
  have h5 : ¬ 0x400000 + 0x1000 * f + k < 0x300000 := by omega
  have h6 : 0x400000 ≤ 0x400000 + 0x1000 * f + k := by omega
  have h7 : 0x400000 + 0x1000 * f + k < 0x600000 := by omega
  have e1 : (0x400000 + 0x1000 * f + k - 0x400000) / 0x1000 = f := by omega
  have e2 : (0x400000 + 0x1000 * f + k) % 0x1000 = k := by omega
  simp only [h1, h2, h3, h4, h5, h6, h7, e1, e2, if_false, decide_true, Bool.and_self, if_true, bne_self_eq_false, Bool.false_eq_true]

/-- An offset of a link page reaches that port's register. -/
theorem ctlWrite_link (b : Blk) (n k : Nat) (w : Word) (hn : n < 42) (hk : k < 0x1000) (h8 : k % 8 = 0) :
    ctlWrite b (linkOff n k) w = writeLink b n k w.toNat := by
  unfold ctlWrite linkOff
  rw [Nat.mod_eq_of_lt hn]
  have h1 : (0x100000 + 0x1000 * n + k) % 8 = 0 := by omega
  have h2 : ¬ 0x100000 + 0x1000 * n + k < 0x10000 := by omega
  have h3 : ¬ 0x100000 + 0x1000 * n + k < 0x100000 := by omega
  have h4 : 0x100000 + 0x1000 * n + k < 0x200000 := by omega
  have h5 : 0x100000 + 0x1000 * n + k < 0x12A000 := by omega
  have e1 : (0x100000 + 0x1000 * n + k - 0x100000) / 0x1000 = n := by omega
  have e2 : (0x100000 + 0x1000 * n + k) % 0x1000 = k := by omega
  simp only [h1, h2, h3, h4, if_false, if_true, bne_self_eq_false, Bool.false_eq_true, writePorts, h5, e1, e2]

/-- A CTL access that stores no byte changes the block alone. -/
theorem actCtl_quiet {s : State} (h : s.b.life.scanMode = false ∧ s.b.life.inReset = false) (f : Blk → Tab Byte → Blk)
    (hs : (f s.b s.mem).stores = []) : actCtl s f = .next { s with b := f s.b s.mem } := by
  rw [actCtl_open h, commit_of_no_stores s _ hs]

/-- A command that stores no byte changes the block alone. -/
theorem act_quiet {s : State} (h : awake s.b = true) (f : Blk → Tab Byte → Blk) (hs : (f s.b s.mem).stores = []) :
    act s f = .next { s with b := f s.b s.mem } := by
  rw [act_awake h, commit_of_no_stores s _ hs]

theorem actLive_quiet {s : State} (h : alive s.b = true) (f : Blk → Tab Byte → Blk) (hs : (f s.b s.mem).stores = []) :
    actLive s f = .next { s with b := f s.b s.mem } := by
  rw [actLive_alive h, commit_of_no_stores s _ hs]

/-- A command that changes nothing leaves the state as it is. -/
theorem act_nop {s : State} (f : Blk → Tab Byte → Blk) (hs : s.b.stores = []) (h : f s.b s.mem = s.b) : act s f = .next s := by
  unfold act; rw [h, commit_of_no_stores s _ hs, ite_self]

theorem actCtl_nop {s : State} (f : Blk → Tab Byte → Blk) (hs : s.b.stores = []) (h : f s.b s.mem = s.b) : actCtl s f = .next s := by
  unfold actCtl; rw [h, commit_of_no_stores s _ hs, ite_self]

theorem actLive_nop {s : State} (f : Blk → Tab Byte → Blk) (hs : s.b.stores = []) (h : f s.b s.mem = s.b) : actLive s f = .next s := by
  unfold actLive; rw [h, commit_of_no_stores s _ hs, ite_self]

/-- The rule of R796 in terms of the distance ahead. -/
theorem takesHead_iff (v c p : Nat) : takesHead (v % 2 ^ 32) c p = true ↔ ahead v c ≤ ahead p c := by
  have e : (p + 2 ^ 32 - c % 2 ^ 32) % 2 ^ 32 = (p % 2 ^ 32 + 2 ^ 32 - c % 2 ^ 32) % 2 ^ 32 := by omega
  unfold takesHead ahead
  rw [decide_eq_true_iff, e]

theorem headStep_ahead (v c : Nat) : headStep (v % 2 ^ 32) c = ahead v c := by unfold headStep ahead; rfl

end Sys2Proof.Machine
end

