-- ==== Sys2Proof/Laws/Lookups.lean ====
section
/-!
SUPPORT. Entries of the block's tables after a change: functions, queues, pennants, commands, ports.
-/
namespace Sys2Proof.Machine

/-! ### After a command: the block's tables stand as it left them -/

@[simp] theorem getFn_commit (s : State) (b : Blk) (f : Nat) : getFn (commit s b).b f = getFn b f := rfl
@[simp] theorem getQ_commit (s : State) (b : Blk) (f q : Nat) : getQ (commit s b).b f q = getQ b f q := rfl
@[simp] theorem findCmd_commit (s : State) (b : Blk) (id : CmdId) : findCmd (commit s b).b id = findCmd b id := rfl
@[simp] theorem getPen_commit (s : State) (b : Blk) (p : Nat) : getPen (commit s b).b p = getPen b p := rfl
@[simp] theorem getP_commit (s : State) (b : Blk) (n : Nat) : getP (commit s b).b n = getP b n := rfl

/-! ### Functions and queues -/

/-- A page that is not at its reset values reads as changed. -/
theorem getFn_modFn (b : Blk) (f : Nat) (g : Fn → Fn) (h : g (getFn b f) ≠ fn0) : getFn (modFn b f g) f = g (getFn b f) :=
  (tget_tset_of_ne fn0 b.fns f f _ h).trans (if_pos rfl)

theorem getFn_modFn_other (b : Blk) (f k : Nat) (g : Fn → Fn) (h : k ≠ f) : getFn (modFn b f g) k = getFn b k :=
  tget_tmod_other fn0 b.fns f k g h

/-- Two changes that agree on a page as it stands are one. -/
theorem modFn_congr (b : Blk) (f : Nat) (g h : Fn → Fn) (e : g (getFn b f) = h (getFn b f)) : modFn b f g = modFn b f h := by
  have : tmod fn0 b.fns f g = tmod fn0 b.fns f h := congrArg (tset fn0 b.fns f) e
  unfold modFn; rw [this]

/-- An enabled page is not at its reset values. -/
theorem enabled_ne {n : Fn} (h : n.enabled = true) : n ≠ fn0 := by
  intro e; rw [e] at h; exact absurd h (by decide)

theorem live_enabled {b : Blk} {f : Nat} (h : fnLive b f = true) : (getFn b f).enabled = true := by
  simp only [fnLive, Bool.and_eq_true] at h; exact h.1

/-- A function that is not fenced and enabled proceeds after a change that keeps it so. -/
theorem fnLive_modFn (b : Blk) (f k : Nat) (g : Fn → Fn) (h : fnLive b f = true) (he : ∀ n, (g n).enabled = n.enabled)
    (hf : ∀ n, (g n).fenced = n.fenced) : fnLive (modFn b f g) k = fnLive b k := by
  by_cases e : k = f
  · subst e
    have h1 : g (getFn b k) ≠ fn0 := enabled_ne ((he _).trans (live_enabled h))
    unfold fnLive
    rw [getFn_modFn b k g h1, he, hf]
  · unfold fnLive; rw [getFn_modFn_other b f k g e]

/-! ### Pennants -/

theorem getPen_modPen (b : Blk) (p : Nat) (g : Pen → Pen) (h : g (getPen b p) ≠ pen0) : getPen (modPen b p g) p = g (getPen b p) :=
  (tget_tset_of_ne pen0 b.pens p p _ h).trans (if_pos rfl)

theorem getPen_modPen_other (b : Blk) (p k : Nat) (g : Pen → Pen) (h : k ≠ p) : getPen (modPen b p g) k = getPen b k :=
  tget_tmod_other pen0 b.pens p k g h

/-! ### Commands -/

/-- A changed command, whose id the change keeps, is found as changed. -/
theorem find_map (l : List Cmd) (id k : CmdId) (g : Cmd → Cmd) (hg : ∀ c, (g c).id = c.id) :
    (l.map fun c => if c.id = id then g c else c).find? (fun c => decide (c.id = k)) =
      (l.find? fun c => decide (c.id = k)).map fun c => if c.id = id then g c else c := by
  induction l with
  | nil => rfl
  | cons c r ih =>
    have e : (if c.id = id then g c else c).id = c.id := by split <;> simp [hg]
    simp only [List.map_cons, List.find?_cons, e]
    split
    · simp
    · exact ih

theorem findCmd_modCmd (b : Blk) (id k : CmdId) (g : Cmd → Cmd) (hg : ∀ c, (g c).id = c.id) :
    findCmd (modCmd b id g) k = (findCmd b k).map fun c => if c.id = id then g c else c := find_map b.cmds id k g hg

theorem findCmd_id {b : Blk} {id : CmdId} {c : Cmd} (h : findCmd b id = some c) : c.id = id := by
  have := List.find?_some h; simpa using this

/-- The command changed. -/
theorem findCmd_modCmd_same {b : Blk} {id : CmdId} {c : Cmd} (g : Cmd → Cmd) (hg : ∀ c, (g c).id = c.id) (h : findCmd b id = some c) :
    findCmd (modCmd b id g) id = some (g c) := by
  rw [findCmd_modCmd b id id g hg, h, Option.map_some, if_pos (findCmd_id h)]

theorem findCmd_modCmd_other {b : Blk} {id k : CmdId} (g : Cmd → Cmd) (hg : ∀ c, (g c).id = c.id) (h : k ≠ id) :
    findCmd (modCmd b id g) k = findCmd b k := by
  rw [findCmd_modCmd b id k g hg]
  cases e : findCmd b k with
  | none => rfl
  | some c => rw [Option.map_some, if_neg (by rw [findCmd_id e]; exact h)]

/-- The block's commands alone decide which command an id finds. -/
theorem findCmd_congr {b b' : Blk} (id : CmdId) (h : b'.cmds = b.cmds) : findCmd b' id = findCmd b id := by unfold findCmd; rw [h]

/-- A command that waits for no pennant ends with its status and result. -/
theorem endCmd_ended {b : Blk} {id : CmdId} {c : Cmd} (st r : Nat) (h : findCmd b id = some c) (hp : c.phase ≠ .ended) (hw : c.waitOn = none) :
    endCmd b id st r = modCmd b id fun c => { c with phase := .ended, status := st, result := r } := by
  unfold endCmd withCmd unwait
  rw [h]; dsimp only; rw [if_neg hp, hw]

/-- A wait withdrawn: the command stands as before without it. -/
theorem unwait_find {b : Blk} {id : CmdId} {c : Cmd} (h : findCmd b id = some c) :
    findCmd (unwait b c) id = some { c with waitOn := none } := by
  obtain rfl := findCmd_id h
  unfold unwait
  cases hw : c.waitOn with
  | none => rw [h, ← hw]
  | some p =>
    dsimp only
    refine findCmd_modCmd_same (c := c) (fun c => { c with waitOn := none }) (fun _ => rfl) ?_
    rw [← h]; exact findCmd_congr c.id rfl

/-- Ending a command that has not ended leaves it ended, whatever it waited for. -/
theorem endCmd_endedWith {b : Blk} {id : CmdId} {c : Cmd} (st r : Nat) (h : findCmd b id = some c) (hp : c.phase ≠ .ended) :
    EndedWith (endCmd b id st r) id st r := by
  unfold endCmd withCmd
  rw [h]; dsimp only; rw [if_neg hp]
  exact ⟨_, findCmd_modCmd_same _ (fun _ => rfl) (unwait_find h), rfl, rfl, rfl⟩

/-! ### Units kept in lists: ports, memory and D2D ports, tiles, sectors -/

theorem getD_modify_same {α : Type} (l : List α) (n : Nat) (g : α → α) (d : α) (h : n < l.length) : (l.modify n g).getD n d = g (l.getD n d) := by
  simp [List.getD_eq_getElem?_getD, h]

theorem getD_modify_other {α : Type} (l : List α) (n k : Nat) (g : α → α) (d : α) (h : k ≠ n) : (l.modify n g).getD k d = l.getD k d := by
  simp [List.getD_eq_getElem?_getD, Ne.symm h]

/-- Two changes that agree on the element as it stands are one. -/
theorem modify_congr {α : Type} (l : List α) (n : Nat) (g h : α → α) (d : α) (e : g (l.getD n d) = h (l.getD n d)) : l.modify n g = l.modify n h := by
  apply List.ext_getElem?
  intro i
  simp only [List.getElem?_modify]
  by_cases hi : n = i
  · subst hi
    simp only [if_true, List.getD_eq_getElem?_getD] at e ⊢
    cases hl : l[n]? with
    | none => rfl
    | some x => rw [hl] at e; exact congrArg some e
  · simp [hi]

theorem modP_congr (b : Blk) (n : Nat) (g h : Port → Port) (e : g (getP b n) = h (getP b n)) : modP b n g = modP b n h := by
  unfold modP; rw [modify_congr b.ports n g h (port0 n) e]

/-- Two changes of one port, one after the other. -/
theorem modP_modP (b : Blk) (n : Nat) (g h : Port → Port) : modP (modP b n g) n h = modP b n fun p => h (g p) := by
  unfold modP; dsimp only; rw [List.modify_modify_eq]; rfl

end Sys2Proof.Machine
end

