-- ==== Sys2Proof/Laws/Log.lean ====
section
/-!
SUPPORT. Logbook lines, records and anchors: their lengths, where they go, and what issuing one leaves.
-/
namespace Sys2Proof.Machine

@[simp] theorem leBytes_length (n k : Nat) : (leBytes n k).length = k := by
  induction k generalizing n with
  | zero => rfl
  | succ k ih => simp [leBytes, ih]

/-- A line lies in one page. -/
theorem line_cut (a : Nat) (h : a % 64 = 0) : cutsOf a 64 = [(a, 64)] := by
  have : min 64 (4096 - a % 4096) = 64 := by omega
  unfold cutsOf pageCuts; simp [this]; unfold pageCuts; simp

/-- A line stored at a line's address is one store. -/
theorem fnStore_line (b : Blk) (f space va : Nat) (bs : List Byte) (h : va % 64 = 0) (hl : bs.length = 64) :
    fnStore b f space va bs = store b (fnKey b f space va) bs := by
  unfold fnStore; rw [hl, line_cut va h]; simp [slice, hl]
  rw [List.take_of_length_le (by omega)]

@[simp] theorem anchorBytes_length (n : Fn) (f tail : Nat) : (anchorBytes n f tail).length = 64 := by
  unfold anchorBytes; simp

/-- A record without further bytes is one line. -/
theorem logRecord_length (n : Fn) (kind sub q rseq tag a : Nat) (ws : List Nat) : (logRecord n kind sub q rseq tag a ws []).length = 64 := by
  unfold logRecord; simp [upTo, cdiv]
  all_goals rfl

/-- The line of a one-line record. -/
theorem recordLines_one (n : Fn) (bs : List Byte) (h : bs.length = 64) : recordLines n bs = [(lineAddr n n.head, bs)] := by
  have c : chunksOf 64 bs = [bs] := by
    unfold chunksOf; rw [h]
    match bs, h with
    | x :: r, h =>
      unfold groupsOf
      rw [List.take_of_length_le (by omega), List.drop_of_length_le (by omega)]; unfold groupsOf; rfl
  unfold recordLines; rw [c]; rfl

theorem lineAddr_aligned (n : Fn) (lsn : Nat) (h : n.logBase % 64 = 0) : lineAddr n lsn % 64 = 0 := by
  unfold lineAddr; omega

/-- Issuing a one-line record: its line is stored and the head moves on. -/
theorem appendLog_one (b : Blk) (f : Nat) (bs : List Byte) (h : bs.length = 64) (ha : (getFn b f).logBase % 64 = 0) :
    appendLog b f bs = modFn (store b (fnKey b f 0 (lineAddr (getFn b f) (getFn b f).head)) bs) f
      fun n => { n with head := n.head + 1, moved := true } := by
  unfold appendLog; dsimp only
  rw [recordLines_one _ _ h]
  simp only [List.foldl_cons, List.foldl_nil, h]
  rw [fnStore_line _ _ _ _ _ (lineAddr_aligned _ _ ha) h]

/-- A running sum of minima starting from 0 stays 0. -/
theorem foldl_min_zero (l : List Nat) : l.foldl min 0 = 0 := by
  induction l with
  | nil => rfl
  | cons a r ih => rw [List.foldl_cons, Nat.min_eq_left (Nat.zero_le a)]; exact ih

/-! ### Enabling a function -/

/-- An entry written twice holds the last value. -/
theorem tput_tput {α : Type} (k : Nat) (v w : α) (t : Tab α) : tput k w (tput k v t) = tput k w t := by
  induction t with
  | nil => simp [tput]
  | cons e r ih =>
    obtain ⟨j, x⟩ := e
    by_cases h1 : k < j
    · simp [tput, h1]
    · by_cases h2 : k = j
      · simp [tput, h2]
      · simp [tput, h1, h2, ih]

/-- A change to a page that does not leave it at its reset values. -/
theorem modFn_put (b : Blk) (f : Nat) (g : Fn → Fn) (h : g (getFn b f) ≠ fn0) : modFn b f g = { b with fns := tput f (g (getFn b f)) b.fns } := by
  have : tmod fn0 b.fns f g = tput f (g (getFn b f)) b.fns := if_neg h
  unfold modFn; rw [this]

theorem getFn_put (b : Blk) (f : Nat) (n : Fn) : getFn { b with fns := tput f n b.fns } f = n := by
  unfold getFn; rw [tget_tput, if_pos rfl]

/-- The page of a function just enabled. -/
def enabledPage (old : Fn) (q gq rq sq context mask base lg : Nat) : Fn :=
  { fn0 with
    enabled := true, nq := q, groupQuota := gq, rosterQuota := rq, stagingQuota := sq, context, d2dMask := mask
    logBase := base, logLog2 := lg, epoch := (old.epoch + 1) % 2 ^ 32, keyEpoch := 1, irqCfg := old.irqCfg, msi := old.msi
    head := 1, moved := true }

/-- Everything that enabling a function does: its page, its anchor, its ENABLE record. -/
theorem enableFn_eq (b : Blk) (f q gq rq sq context mask base lg : Nat) (hb : base % 64 = 0) :
    enableFn b f q gq rq sq context mask base lg =
      { b with
        fns := tput f (enabledPage (getFn b f) q gq rq sq context mask base lg) b.fns
        stores := b.stores ++ [(memKey 0 (translate b context base), anchorBytes (enabledPage (getFn b f) q gq rq sq context mask base lg) f 0),
          (memKey 0 (translate b context (base + 64)),
            logRecord { enabledPage (getFn b f) q gq rq sq context mask base lg with head := 0 } 6 0 0 0 0 0
              [q % 32, gq % 2 ^ 15, rq % 2 ^ 21, sq % 2 ^ 13] [])] } := by
  generalize hP : enabledPage (getFn b f) q gq rq sq context mask base lg = P
  let n0 : Fn := { P with head := 0, moved := false }
  have e0 : n0 ≠ fn0 := enabled_ne (by show P.enabled = true; rw [← hP]; rfl)
  have hbase : P.logBase = base := by rw [← hP]; rfl
  have hctx : P.context = context := by rw [← hP]; rfl
  have hta : P.tailAnchor = 0 := by rw [← hP]; rfl
  unfold enableFn; dsimp only
  have h1 : modFn b f (fun n => { fn0 with
    enabled := true, nq := q, groupQuota := gq, rosterQuota := rq, stagingQuota := sq, context, d2dMask := mask
    logBase := base, logLog2 := lg, epoch := (n.epoch + 1) % 2 ^ 32, keyEpoch := 1, irqCfg := n.irqCfg, msi := n.msi
    appliedLsn := 0 }) = { b with fns := tput f n0 b.fns } := by
    have : ({ fn0 with
      enabled := true, nq := q, groupQuota := gq, rosterQuota := rq, stagingQuota := sq, context, d2dMask := mask
      logBase := base, logLog2 := lg, epoch := ((getFn b f).epoch + 1) % 2 ^ 32, keyEpoch := 1, irqCfg := (getFn b f).irqCfg, msi := (getFn b f).msi
      appliedLsn := 0 } : Fn) = n0 := by rw [show n0 = { P with head := 0, moved := false } from rfl, ← hP]; rfl
    rw [modFn_put _ _ _ (by rw [this]; exact e0), this]
  rw [h1]
  have h2 : writeAnchor { b with fns := tput f n0 b.fns } f =
      { b with fns := tput f n0 b.fns, stores := b.stores ++ [(memKey 0 (translate b context base), anchorBytes P f 0)] } := by
    have ht : trueTail { b with fns := tput f n0 b.fns } f = 0 := by
      unfold trueTail; rw [getFn_put]; exact foldl_min_zero _
    have hk : fnKey { b with fns := tput f n0 b.fns } f 0 base = memKey 0 (translate b context base) := by
      unfold fnKey; rw [if_pos rfl, getFn_put, show n0.context = context from hctx]; rfl
    unfold writeAnchor; dsimp only
    rw [ht, getFn_put, show n0.logBase = base from hbase, fnStore_line _ _ _ _ _ hb (anchorBytes_length ..), hk]
    have hg : getFn (store { b with fns := tput f n0 b.fns } (memKey 0 (translate b context base)) (anchorBytes n0 f 0)) f = n0 := getFn_put b f n0
    rw [modFn_put _ _ _ (by rw [hg]; exact enabled_ne (by show P.enabled = true; rw [← hP]; rfl)), hg]
    have : ({ n0 with tailAnchor := 0 } : Fn) = n0 := by rw [show n0 = { P with head := 0, moved := false } from rfl, ← hP]; rfl
    rw [this]
    unfold store; dsimp only; rw [tput_tput]; rfl
  rw [h2]
  have hg : getFn { b with fns := tput f n0 b.fns, stores := b.stores ++ [(memKey 0 (translate b context base), anchorBytes P f 0)] } f = n0 :=
    getFn_put b f n0
  rw [appendLog_one _ _ _ (logRecord_length ..) (by rw [hg]; exact hbase ▸ hb), hg]
  have hl : lineAddr n0 n0.head = base + 64 := by
    unfold lineAddr; show P.logBase + 64 * (1 + 0 % _) = _; rw [hbase, Nat.zero_mod]
  have hk : ∀ st, fnKey { b with fns := tput f n0 b.fns, stores := st } f 0 (base + 64) = memKey 0 (translate b context (base + 64)) := by
    intro st; unfold fnKey; rw [if_pos rfl, show getFn { b with fns := tput f n0 b.fns, stores := st } f = n0 from getFn_put b f n0,
      show n0.context = context from hctx]; rfl
  rw [hl, hk]
  have hg3 : ∀ k bs, getFn (store { b with fns := tput f n0 b.fns, stores := b.stores ++ [(memKey 0 (translate b context base), anchorBytes P f 0)] } k bs) f = n0 :=
    fun _ _ => getFn_put b f n0
  rw [modFn_put _ _ _ (by rw [hg3]; exact enabled_ne (by show P.enabled = true; rw [← hP]; rfl)), hg3]
  have he : ({ n0 with head := n0.head + 1, moved := true } : Fn) = P := by rw [show n0 = { P with head := 0, moved := false } from rfl, ← hP]; rfl
  rw [he]
  unfold store; dsimp only; rw [tput_tput, List.append_assoc]
  rfl

end Sys2Proof.Machine
end

