-- ==== Sys2Proof/Laws/Only.lean ====
section
/-!
SUPPORT. What each shared operation can change at most: it answers the block with some fields replaced and every other as it was.
-/
namespace Sys2Proof.Machine

/-- A walk over a list keeps whatever each of its steps keeps. -/
theorem foldl_keeps {α β : Type} (P : β → Prop) (l : List α) (g : β → α → β) (b : β) (h0 : P b) (h : ∀ b x, P b → P (g b x)) :
    P (l.foldl g b) := by
  induction l generalizing b with
  | nil => exact h0
  | cons a r ih => exact ih _ (h _ _ h0)

theorem fnStore_only (b : Blk) (f space va : Nat) (bs : List Byte) : ∃ st, fnStore b f space va bs = { b with stores := st } := by
  unfold fnStore
  exact foldl_keeps (fun x : Blk => ∃ st, x = { b with stores := st }) _ _ _ ⟨_, rfl⟩ fun x y ⟨st, h⟩ => by subst h; exact ⟨_, rfl⟩

theorem fnStore_eq (b : Blk) (f space va : Nat) (bs : List Byte) :
    fnStore b f space va bs = { b with stores := (fnStore b f space va bs).stores } := by
  obtain ⟨_, h⟩ := fnStore_only b f space va bs; rw [h]

theorem signalVec_only (b : Blk) (f v : Nat) : ∃ fns memp, signalVec b f v = { b with fns := fns, memp := memp } := by
  unfold signalVec; dsimp only; split
  · exact ⟨_, _, rfl⟩
  · split <;> exact ⟨_, _, rfl⟩

theorem cqSignal_only (b : Blk) (f : Nat) : ∃ fns memp, cqSignal b f = { b with fns := fns, memp := memp } := by
  unfold cqSignal; dsimp only; split
  · obtain ⟨x, y, h⟩ := signalVec_only b f (fld (getFn b f).irqCfg.toNat 62 58); rw [h]; exact ⟨_, _, rfl⟩
  · exact ⟨_, _, rfl⟩

theorem cqSignal_eq (b : Blk) (f : Nat) :
    cqSignal b f = { b with fns := (cqSignal b f).fns, memp := (cqSignal b f).memp } := by
  obtain ⟨_, _, h⟩ := cqSignal_only b f; rw [h]

theorem eventIn_only (b : Blk) (f code q info a0 a1 : Nat) :
    ∃ fns memp st, (eventIn b f code q info a0 a1).1 = { b with fns := fns, memp := memp, stores := st } := by
  unfold eventIn; dsimp only; split
  · exact ⟨_, _, _, rfl⟩
  · split
    · exact ⟨_, _, _, rfl⟩
    · obtain ⟨st, h⟩ := fnStore_only b f 0 ((getFn b f).eqBase + 16 * ((getFn b f).eqProduced % 2 ^ (getFn b f).eqLog2))
        (leBytes (mk [(63, 63, 1 - (getFn b f).eqProduced / 2 ^ (getFn b f).eqLog2 % 2), (62, 56, code), (55, 52, q), (51, 32, info), (31, 0, a0)]) 8 ++ leBytes a1 8)
      rw [h]; dsimp only; split
      · obtain ⟨x, y, h'⟩ := signalVec_only (modFn { b with stores := st } f fun n => { n with eqProduced := n.eqProduced + 1, dropping := false, dropped := 0 }) f
          (fld (getFn b f).irqCfg.toNat 56 52)
        rw [h']; exact ⟨_, _, _, rfl⟩
      · exact ⟨_, _, _, rfl⟩

/-- An event changes functions, memory ports and stores at most. -/
theorem event_only (b : Blk) (f code q info a0 a1 : Nat) :
    ∃ fns memp st, event b f code q info a0 a1 = { b with fns := fns, memp := memp, stores := st } := by
  unfold event; dsimp only
  obtain ⟨x, y, z, h⟩ := eventIn_only b f code q info a0 a1
  generalize he : eventIn b f code q info a0 a1 = e at h ⊢
  obtain ⟨b1, first⟩ := e
  dsimp only at h ⊢; subst h
  split
  · obtain ⟨x', y', z', h'⟩ := eventIn_only { b with fns := x, memp := y, stores := z } 0 0x2A 0 0 f (getFn { b with fns := x, memp := y, stores := z } f).eqLost
    rw [h']; exact ⟨_, _, _, rfl⟩
  · exact ⟨_, _, _, rfl⟩

theorem event_eq (b : Blk) (f code q info a0 a1 : Nat) :
    event b f code q info a0 a1 = { b with fns := (event b f code q info a0 a1).fns, memp := (event b f code q info a0 a1).memp, stores := (event b f code q info a0 a1).stores } := by
  obtain ⟨_, _, _, h⟩ := event_only b f code q info a0 a1; rw [h]

theorem appendLog_only (b : Blk) (f : Nat) (bs : List Byte) : ∃ fns st, appendLog b f bs = { b with fns := fns, stores := st } := by
  unfold appendLog; dsimp only
  generalize hx : List.foldl _ b (recordLines (getFn b f) bs) = x
  have : ∃ st, x = { b with stores := st } := by
    rw [← hx]
    exact foldl_keeps (fun x : Blk => ∃ st, x = { b with stores := st }) _ _ _ ⟨_, rfl⟩ fun x y ⟨st, h⟩ => by
      subst h; obtain ⟨st', h'⟩ := fnStore_only { b with stores := st } f 0 y.1 y.2; exact ⟨st', h'⟩
  obtain ⟨st, rfl⟩ := this
  exact ⟨_, _, rfl⟩

theorem appendLog_eq (b : Blk) (f : Nat) (bs : List Byte) :
    appendLog b f bs = { b with fns := (appendLog b f bs).fns, stores := (appendLog b f bs).stores } := by
  obtain ⟨_, _, h⟩ := appendLog_only b f bs; rw [h]

theorem issueWrite_only (b : Blk) (k : Nat) (bs : List Byte) (use : MUse) : ∃ memp, issueWrite b k bs use = { b with memp := memp } := by
  unfold issueWrite
  exact foldl_keeps (fun x : Blk => ∃ m, x = { b with memp := m }) _ _ _ ⟨_, rfl⟩ fun x y ⟨m, h⟩ => by
    subst h; dsimp only; split <;> exact ⟨_, rfl⟩

/-- A record issued through the memory ports changes its function's head and the ports. -/
theorem issueLog_only (b : Blk) (f : Nat) (bs : List Byte) :
    ∃ memp, issueLog b f bs = modFn { b with memp := memp } f fun n => { n with head := n.head + bs.length / 64, moved := true } := by
  unfold issueLog; dsimp only
  generalize hx : List.foldl _ b (recordLines (getFn b f) bs) = x
  have : ∃ m, x = { b with memp := m } := by
    rw [← hx]
    exact foldl_keeps (fun x : Blk => ∃ m, x = { b with memp := m }) _ _ _ ⟨_, rfl⟩ fun x y ⟨m, h⟩ => by
      subst h; obtain ⟨m', h'⟩ := issueWrite_only { b with memp := m } (fnKey { b with memp := m } f 0 y.1) y.2 (.log f (getFn b f).head); exact ⟨m', h'⟩
  obtain ⟨m, rfl⟩ := this
  exact ⟨_, rfl⟩

theorem unwait_only (b : Blk) (c : Cmd) : ∃ pens fns cmds dlck, unwait b c = { b with pens := pens, fns := fns, cmds := cmds, dlck := dlck } := by
  unfold unwait; split <;> exact ⟨_, _, _, _, rfl⟩

/-- Ending a command changes pennants, functions, commands and the deadlock detector at most. -/
theorem endCmd_only (b : Blk) (id : CmdId) (st r : Nat) :
    ∃ pens fns cmds dlck, endCmd b id st r = { b with pens := pens, fns := fns, cmds := cmds, dlck := dlck } := by
  unfold endCmd withCmd
  split
  · rename_i c _
    dsimp only; split
    · exact ⟨_, _, _, _, rfl⟩
    · obtain ⟨a, d, e, g, h⟩ := unwait_only b c; rw [h]; exact ⟨_, _, _, _, rfl⟩
  · exact ⟨_, _, _, _, rfl⟩

theorem endCmd_eq (b : Blk) (id : CmdId) (st r : Nat) :
    endCmd b id st r = { b with pens := (endCmd b id st r).pens, fns := (endCmd b id st r).fns, cmds := (endCmd b id st r).cmds, dlck := (endCmd b id st r).dlck } := by
  obtain ⟨_, _, _, _, h⟩ := endCmd_only b id st r; rw [h]

/-! ### Packets out -/

theorem outTo_only (b : Blk) (code vn src : Nat) (en : Bool) (cells : List FCell) : ∃ ports, outTo b code vn src en cells = { b with ports := ports } := by
  unfold outTo; split
  · split <;> exact ⟨_, rfl⟩
  · split <;> exact ⟨_, rfl⟩

theorem outTo_eq (b : Blk) (code vn src : Nat) (en : Bool) (cells : List FCell) :
    outTo b code vn src en cells = { b with ports := (outTo b code vn src en cells).ports } := by
  obtain ⟨_, h⟩ := outTo_only b code vn src en cells; rw [h]

theorem launch_only (b : Blk) (p : Pkt) (alt : Bool) : ∃ fab ports, launch b p alt = { b with fab := fab, ports := ports } := by
  unfold launch; dsimp only; split
  · exact ⟨_, _, rfl⟩
  · rw [outTo_eq]; exact ⟨_, _, rfl⟩

theorem launch_eq (b : Blk) (p : Pkt) (alt : Bool) :
    launch b p alt = { b with fab := (launch b p alt).fab, ports := (launch b p alt).ports } := by
  obtain ⟨_, _, h⟩ := launch_only b p alt; rw [h]

theorem flowAlt_only (b : Blk) (cmd : Option CmdId) (dst vn : Nat) : ∃ fab, (flowAlt b cmd dst vn).2 = { b with fab := fab } := by
  unfold flowAlt; split
  · exact ⟨_, rfl⟩
  · split <;> exact ⟨_, rfl⟩

/-- A packet that leaves for no command changes the fabric and the ports. -/
theorem leave_only (b : Blk) (p : Pkt) (rank : Nat) : ∃ fab ports, leave b ⟨p, none, rank⟩ = { b with fab := fab, ports := ports } := by
  unfold leave; dsimp only
  have hq : ∃ fab, (if (p.hdr.cls == 1 && rank == 1) = true then (false, b) else flowAlt b none p.hdr.dst (vnOf p.hdr)).2 = { b with fab := fab } := by
    split
    · exact ⟨_, rfl⟩
    · exact flowAlt_only ..
  revert hq
  generalize (if (p.hdr.cls == 1 && rank == 1) = true then (false, b) else flowAlt b none p.hdr.dst (vnOf p.hdr)) = x
  rintro ⟨fab, h⟩
  rw [h]
  split
  · rw [launch_eq]; exact ⟨_, _, rfl⟩
  · rw [launch_eq]; exact ⟨_, _, rfl⟩

theorem sendPkt_only (b : Blk) (p : Pkt) : ∃ fab ports, sendPkt b p none = { b with fab := fab, ports := ports } := by
  unfold sendPkt sendTo; split
  · exact leave_only b p 0
  · exact ⟨_, _, rfl⟩

theorem sendBare_only (b : Blk) (dst net : Nat) (pre : Prefix) (data : List Byte) :
    ∃ fab ports, sendBare b dst net pre data = { b with fab := fab, ports := ports } := sendPkt_only ..

theorem sendBare_eq (b : Blk) (dst net : Nat) (pre : Prefix) (data : List Byte) :
    sendBare b dst net pre data = { b with fab := (sendBare b dst net pre data).fab, ports := (sendBare b dst net pre data).ports } := by
  obtain ⟨_, _, h⟩ := sendBare_only b dst net pre data; rw [h]

theorem abortNotices_only (b : Blk) (c : Cmd) (st : Nat) : ∃ fab ports, abortNotices b c st = { b with fab := fab, ports := ports } := by
  unfold abortNotices; split
  · exact foldl_keeps (fun x : Blk => ∃ fab ports, x = { b with fab := fab, ports := ports }) _ _ _ ⟨_, _, rfl⟩ fun x y ⟨f, p, h⟩ => by
      subst h
      obtain ⟨f', p', h'⟩ := sendBare_only { b with fab := f, ports := p } y 0 { cmdPre { b with fab := f, ports := p } c 8 0 st with descDig := 0 } []
      rw [h']; exact ⟨_, _, rfl⟩
  · exact ⟨_, _, rfl⟩

theorem freeBytes_only (b : Blk) (f sp a n : Nat) : ∃ fresh st, freeBytes b f sp a n = { b with fresh := fresh, stores := st } := by
  unfold freeBytes; split
  · exact ⟨_, _, rfl⟩
  · obtain ⟨st, h⟩ := fnStore_only { b with fresh := b.fresh + 1 } f sp a ((List.range n).map fun i => Config.freeByte b.fresh (a + i))
    rw [h]; exact ⟨_, _, rfl⟩

theorem freeBytes_eq (b : Blk) (f sp a n : Nat) :
    freeBytes b f sp a n = { b with fresh := (freeBytes b f sp a n).fresh, stores := (freeBytes b f sp a n).stores } := by
  obtain ⟨_, _, h⟩ := freeBytes_only b f sp a n; rw [h]

theorem undefDst_only (b : Blk) (c : Cmd) : ∃ fresh st, undefDst b c = { b with fresh := fresh, stores := st } := by
  unfold undefDst; split
  · dsimp only
    refine foldl_keeps (fun x : Blk => ∃ fresh st, x = { b with fresh := fresh, stores := st }) _ _ _ (freeBytes_only ..) ?_
    rintro x y ⟨f, s, rfl⟩
    rw [freeBytes_eq]; exact ⟨_, _, rfl⟩
  · exact ⟨_, _, rfl⟩

theorem purge_only (b : Blk) (id : CmdId) : ∃ fab, purge b id = { b with fab := fab } := ⟨_, rfl⟩

theorem abandon_only (b : Blk) (gid gen : Nat) (cs : Option Nat) :
    ∃ fns memp st fab, abandon b gid gen cs = { b with fns := fns, memp := memp, stores := st, fab := fab } := by
  unfold abandon; dsimp only
  generalize hx : List.foldl _ b _ = x
  have : ∃ fns memp st, x = { b with fns := fns, memp := memp, stores := st } := by
    rw [← hx]
    refine foldl_keeps (fun x : Blk => ∃ fns memp st, x = { b with fns := fns, memp := memp, stores := st }) _ _ _ ⟨_, _, _, rfl⟩ ?_
    rintro x y ⟨f, m, s, rfl⟩
    unfold arbEvent
    rw [event_eq]; exact ⟨_, _, _, rfl⟩
  obtain ⟨f, m, s, rfl⟩ := this
  exact ⟨_, _, _, _, rfl⟩

theorem abandon_eq (b : Blk) (gid gen : Nat) (cs : Option Nat) :
    abandon b gid gen cs = { b with fns := (abandon b gid gen cs).fns, memp := (abandon b gid gen cs).memp, stores := (abandon b gid gen cs).stores, fab := (abandon b gid gen cs).fab } := by
  obtain ⟨_, _, _, _, h⟩ := abandon_only b gid gen cs; rw [h]

/-- Ending a command early keeps every table, register and unit: what it can touch is listed. -/
theorem stopCmd_only (b : Blk) (id : CmdId) (st : Nat) : ∃ fns memp stores fab fresh pens cmds dlck, stopCmd b id st =
    { b with fns := fns, memp := memp, stores := stores, fab := fab, fresh := fresh, pens := pens, cmds := cmds, dlck := dlck } := by
  unfold stopCmd withCmd
  split
  · rename_i c _
    dsimp only; split
    · exact ⟨_, _, _, _, _, _, _, _, rfl⟩
    · generalize hx : (if namesGroup c && !isP2p (opOf c) then abandon b (fGid c) (fGen c) (some (fCseq c)) else b) = x
      have : ∃ fns memp st fab, x = { b with fns := fns, memp := memp, stores := st, fab := fab } := by
        rw [← hx]; split
        · exact abandon_only ..
        · exact ⟨_, _, _, _, rfl⟩
      obtain ⟨a1, a2, a3, a4, rfl⟩ := this
      obtain ⟨a5, a6, h1⟩ := undefDst_only { b with fns := a1, memp := a2, stores := a3, fab := a4 } c
      rw [h1]
      unfold purge
      rw [endCmd_eq]; exact ⟨_, _, _, _, _, _, _, _, rfl⟩
  · exact ⟨_, _, _, _, _, _, _, _, rfl⟩

theorem stopCmd_eq (b : Blk) (id : CmdId) (st : Nat) :
    stopCmd b id st = { b with fns := (stopCmd b id st).fns, memp := (stopCmd b id st).memp, stores := (stopCmd b id st).stores, fab := (stopCmd b id st).fab, fresh := (stopCmd b id st).fresh, pens := (stopCmd b id st).pens, cmds := (stopCmd b id st).cmds, dlck := (stopCmd b id st).dlck } := by
  obtain ⟨_, _, _, _, _, _, _, _, h⟩ := stopCmd_only b id st; rw [h]

theorem failCmd_only (b : Blk) (id : CmdId) (st no : Nat) : ∃ fns stores fab ports fresh pens cmds dlck, failCmd b id st no =
    { b with fns := fns, stores := stores, fab := fab, ports := ports, fresh := fresh, pens := pens, cmds := cmds, dlck := dlck } := by
  unfold failCmd withCmd
  split
  · rename_i c _
    dsimp only; split
    · exact ⟨_, _, _, _, _, _, _, _, rfl⟩
    · generalize hx : (if hasPeers c then abortNotices b c no else b) = x
      have : ∃ fab ports, x = { b with fab := fab, ports := ports } := by
        rw [← hx]; split
        · exact abortNotices_only ..
        · exact ⟨_, _, rfl⟩
      obtain ⟨a1, a2, rfl⟩ := this
      obtain ⟨a5, a6, h1⟩ := undefDst_only { b with fab := a1, ports := a2 } c
      rw [h1]
      rw [endCmd_eq]; exact ⟨_, _, _, _, _, _, _, _, rfl⟩
  · exact ⟨_, _, _, _, _, _, _, _, rfl⟩

theorem groupEvent_only (b : Blk) (g : Group) (code info a1 : Nat) :
    ∃ fns memp st, groupEvent b g code info a1 = { b with fns := fns, memp := memp, stores := st } := by
  unfold groupEvent
  refine foldl_keeps (fun x : Blk => ∃ fns memp st, x = { b with fns := fns, memp := memp, stores := st }) _ _ _ ⟨_, _, _, rfl⟩ ?_
  rintro x y ⟨f, m, s, rfl⟩
  rw [event_eq]; exact ⟨_, _, _, rfl⟩

theorem groupEvent_eq (b : Blk) (g : Group) (code info a1 : Nat) :
    groupEvent b g code info a1 = { b with fns := (groupEvent b g code info a1).fns, memp := (groupEvent b g code info a1).memp, stores := (groupEvent b g code info a1).stores } := by
  obtain ⟨_, _, _, h⟩ := groupEvent_only b g code info a1; rw [h]

/-! ### Completion rings, streams -/

/-- A record without a command behind it changes functions, memory ports and stores at most. -/
theorem ringPut_only (b : Blk) (f : Nat) (w : List Nat) :
    ∃ fns memp st, ringPut b f { w := w, cmd := none } = { b with fns := fns, memp := memp, stores := st } := by
  unfold ringPut; dsimp only; split
  · exact ⟨_, _, _, rfl⟩
  · split
    · unfold ringWrite; dsimp only
      rw [fnStore_eq]
      rw [cqSignal_eq]; exact ⟨_, _, _, rfl⟩
    · split
      · exact ⟨_, _, _, rfl⟩
      · rw [event_eq]; exact ⟨_, _, _, rfl⟩

theorem ringPut_eq (b : Blk) (f : Nat) (w : List Nat) :
    ringPut b f { w := w, cmd := none } = { b with fns := (ringPut b f { w := w, cmd := none }).fns, memp := (ringPut b f { w := w, cmd := none }).memp, stores := (ringPut b f { w := w, cmd := none }).stores } := by
  obtain ⟨_, _, _, h⟩ := ringPut_only b f w; rw [h]

theorem modStr_only (b : Blk) (f n : Nat) (g : Stream → Stream) : ∃ s, modStr b f n g = { b with t := { b.t with stream := s } } := ⟨_, rfl⟩

theorem streamRecord_only (b : Blk) (f n k st va : Nat) : ∃ fns memp stores str, streamRecord b f n k st va =
    { b with fns := fns, memp := memp, stores := stores, t := { b.t with stream := str } } := by
  unfold streamRecord; dsimp only
  rw [appendLog_eq]
  unfold modStr
  rw [ringPut_eq]; exact ⟨_, _, _, _, rfl⟩

theorem streamRecord_eq (b : Blk) (f n k st va : Nat) :
    streamRecord b f n k st va = { b with fns := (streamRecord b f n k st va).fns, memp := (streamRecord b f n k st va).memp, stores := (streamRecord b f n k st va).stores, t := { b.t with stream := (streamRecord b f n k st va).t.stream } } := by
  obtain ⟨_, _, _, _, h⟩ := streamRecord_only b f n k st va; rw [h]

theorem clearFollowers_only (b : Blk) (f n : Nat) : ∃ str, clearFollowers b f n = { b with t := { b.t with stream := str } } := by
  unfold clearFollowers
  refine foldl_keeps (fun x : Blk => ∃ str, x = { b with t := { b.t with stream := str } }) _ _ _ ⟨_, rfl⟩ ?_
  rintro x y ⟨s, rfl⟩
  dsimp only; split <;> exact ⟨_, rfl⟩

theorem clearFollowers_eq (b : Blk) (f n : Nat) :
    clearFollowers b f n = { b with t := { b.t with stream := (clearFollowers b f n).t.stream } } := by
  obtain ⟨_, h⟩ := clearFollowers_only b f n; rw [h]

theorem freeFinish_only (b : Blk) (f n : Nat) : ∃ str pens fns cmds dlck, freeFinish b f n =
    { b with t := { b.t with stream := str }, pens := pens, fns := fns, cmds := cmds, dlck := dlck } := by
  unfold freeFinish freeStream modStr; dsimp only
  obtain ⟨s, h⟩ := clearFollowers_only b f n
  rw [h]
  refine foldl_keeps (fun x : Blk => ∃ str pens fns cmds dlck, x = { b with t := { b.t with stream := str }, pens := pens, fns := fns, cmds := cmds, dlck := dlck })
    _ _ _ ⟨_, _, _, _, _, rfl⟩ ?_
  rintro x y ⟨s, p, f', c, d, rfl⟩
  rw [endCmd_eq]; exact ⟨_, _, _, _, _, rfl⟩

theorem freeFinish_eq (b : Blk) (f n : Nat) :
    freeFinish b f n = { b with t := { b.t with stream := (freeFinish b f n).t.stream }, pens := (freeFinish b f n).pens, fns := (freeFinish b f n).fns, cmds := (freeFinish b f n).cmds, dlck := (freeFinish b f n).dlck } := by
  obtain ⟨_, _, _, _, _, h⟩ := freeFinish_only b f n; rw [h]

theorem streamError_only (b : Blk) (f n st : Nat) : ∃ fns memp stores str pens cmds dlck, streamError b f n st =
    { b with fns := fns, memp := memp, stores := stores, t := { b.t with stream := str }, pens := pens, cmds := cmds, dlck := dlck } := by
  unfold streamError; dsimp only; split
  · rw [clearFollowers_eq]
    rw [streamRecord_eq]
    split
    · rw [freeFinish_eq]; exact ⟨_, _, _, _, _, _, _, rfl⟩
    · exact ⟨_, _, _, _, _, _, _, rfl⟩
  · exact ⟨_, _, _, _, _, _, _, rfl⟩

theorem streamError_eq (b : Blk) (f n st : Nat) :
    streamError b f n st = { b with fns := (streamError b f n st).fns, memp := (streamError b f n st).memp, stores := (streamError b f n st).stores, t := { b.t with stream := (streamError b f n st).t.stream }, pens := (streamError b f n st).pens, cmds := (streamError b f n st).cmds, dlck := (streamError b f n st).dlck } := by
  obtain ⟨_, _, _, _, _, _, _, h⟩ := streamError_only b f n st; rw [h]

/-! ### Breaks -/

/-- Streams and commands that end with their generation leave the groups, the rosters and the hoists as they are. -/
theorem endGenCmds_only (b : Blk) (gid gen st : Nat) : ∃ fns memp stores fab fresh pens cmds dlck, endGenCmds b gid gen st =
    { b with fns := fns, memp := memp, stores := stores, fab := fab, fresh := fresh, pens := pens, cmds := cmds, dlck := dlck } := by
  unfold endGenCmds
  refine foldl_keeps (fun x : Blk => ∃ fns memp stores fab fresh pens cmds dlck, x =
    { b with fns := fns, memp := memp, stores := stores, fab := fab, fresh := fresh, pens := pens, cmds := cmds, dlck := dlck }) _ _ _ ⟨_, _, _, _, _, _, _, _, rfl⟩ ?_
  rintro x y ⟨a1, a2, a3, a4, a5, a6, a7, a8, rfl⟩
  rw [stopCmd_eq]; exact ⟨_, _, _, _, _, _, _, _, rfl⟩

theorem endGenCmds_eq (b : Blk) (gid gen st : Nat) :
    endGenCmds b gid gen st = { b with fns := (endGenCmds b gid gen st).fns, memp := (endGenCmds b gid gen st).memp, stores := (endGenCmds b gid gen st).stores, fab := (endGenCmds b gid gen st).fab, fresh := (endGenCmds b gid gen st).fresh, pens := (endGenCmds b gid gen st).pens, cmds := (endGenCmds b gid gen st).cmds, dlck := (endGenCmds b gid gen st).dlck } := by
  obtain ⟨_, _, _, _, _, _, _, _, h⟩ := endGenCmds_only b gid gen st; rw [h]

theorem groupStreamsError_only (b : Blk) (gid gen st : Nat) : ∃ fns memp stores str pens cmds dlck, groupStreamsError b gid gen st =
    { b with fns := fns, memp := memp, stores := stores, t := { b.t with stream := str }, pens := pens, cmds := cmds, dlck := dlck } := by
  unfold groupStreamsError
  refine foldl_keeps (fun x : Blk => ∃ fns memp stores str pens cmds dlck, x =
    { b with fns := fns, memp := memp, stores := stores, t := { b.t with stream := str }, pens := pens, cmds := cmds, dlck := dlck }) _ _ _ ⟨_, _, _, _, _, _, _, rfl⟩ ?_
  rintro x y ⟨a1, a2, a3, a4, a5, a6, a7, rfl⟩
  rw [streamError_eq]; exact ⟨_, _, _, _, _, _, _, rfl⟩

theorem groupStreamsError_eq (b : Blk) (gid gen st : Nat) :
    groupStreamsError b gid gen st = { b with fns := (groupStreamsError b gid gen st).fns, memp := (groupStreamsError b gid gen st).memp, stores := (groupStreamsError b gid gen st).stores, t := { b.t with stream := (groupStreamsError b gid gen st).t.stream }, pens := (groupStreamsError b gid gen st).pens, cmds := (groupStreamsError b gid gen st).cmds, dlck := (groupStreamsError b gid gen st).dlck } := by
  obtain ⟨_, _, _, _, _, _, _, h⟩ := groupStreamsError_only b gid gen st; rw [h]

theorem breakNotices_only (b : Blk) (g : Group) (cause : Nat) (ranks : List Nat) (stamp : Nat) :
    ∃ fab ports, breakNotices b g cause ranks stamp = { b with fab := fab, ports := ports } := by
  unfold breakNotices
  refine foldl_keeps (fun x : Blk => ∃ fab ports, x = { b with fab := fab, ports := ports }) _ _ _ ⟨_, _, rfl⟩ ?_
  rintro x y ⟨f, p, rfl⟩
  rw [sendBare_eq]; exact ⟨_, _, rfl⟩

theorem markRanks_only (b : Blk) (g : Group) (cause : Nat) (ranks : List Nat) :
    ∃ ros, markRanks b g cause ranks = { b with t := { b.t with roster := ros } } := by
  unfold markRanks
  refine foldl_keeps (fun x : Blk => ∃ ros, x = { b with t := { b.t with roster := ros } }) _ _ _ ⟨_, rfl⟩ ?_
  rintro x y ⟨r, rfl⟩
  dsimp only; split <;> exact ⟨_, rfl⟩

/-- A group entry as a break of its current generation leaves it (R138, R139). -/
def brokenGroup (g : Group) (cause : Nat) (ranks : List Nat) (stamp : Nat) : Group :=
  { g with events := g.events ++ ranks.map (fun r => (cause, r, stamp)), state := 2, brokenCause := cause, brokenRank := ranks.foldl min 8191 }

/-- Everything that a break of an active generation can change: its group entry as `brokenGroup`; what else it touches is listed. -/
theorem applyBreak_only (b : Blk) (h cause : Nat) (ranks : List Nat) (stamp : Nat) (hv : (tget group0 b.t.group h).valid = true)
    (hs : (tget group0 b.t.group h).state = 1) : ∃ fns memp stores fab fresh pens cmds dlck str ros, applyBreak b h cause ranks stamp =
    { b with fns := fns, memp := memp, stores := stores, fab := fab, fresh := fresh, pens := pens, cmds := cmds, dlck := dlck
             t := { b.t with stream := str, roster := ros
                             group := tput h (brokenGroup (tget group0 b.t.group h) cause ranks stamp) b.t.group } } := by
  unfold applyBreak; dsimp only
  rw [if_neg (by simp [hv, hs])]
  obtain ⟨ros, hr⟩ := markRanks_only b (tget group0 b.t.group h) cause ranks
  rw [hr, if_neg (by simp [hs])]
  have ne : ∀ x : Group, x.valid = true → x ≠ group0 := by
    intro x hx e; rw [e] at hx; exact absurd hx (by decide)
  have hm : modGroup (modGroup { b with t := { b.t with roster := ros } } h fun g => { g with events := g.events ++ ranks.map fun r => (cause, r, stamp) }) h
      (fun g => { g with state := 2, brokenCause := cause, brokenRank := ranks.foldl min 8191 }) =
      { b with t := { b.t with roster := ros, group := tput h (brokenGroup (tget group0 b.t.group h) cause ranks stamp) b.t.group } } := by
    have m : ∀ (t : Tab Group) (v : Group) (g : Group → Group), tget group0 t h = v → (g v).valid = true →
        tmod group0 t h g = tput h (g v) t := by
      intro t v g e hg; unfold tmod tset; rw [e]; exact if_neg (ne _ hg)
    unfold modGroup; dsimp only
    rw [m b.t.group _ _ rfl (by exact hv)]
    rw [m _ { tget group0 b.t.group h with events := (tget group0 b.t.group h).events ++ ranks.map fun r => (cause, r, stamp) } _
      (by rw [tget_tput, if_pos rfl]) (by exact hv)]
    rw [tput_tput]; rfl
  rw [hm]
  rw [endGenCmds_eq]
  rw [groupStreamsError_eq]
  rw [abandon_eq]
  rw [groupEvent_eq]
  exact ⟨_, _, _, _, _, _, _, _, _, _, rfl⟩

/-- A break detected here: as `applyBreak`, with notices to the other engines through the ports. -/
theorem detectBreak_only (b : Blk) (h cause : Nat) (ranks : List Nat) (hv : (tget group0 b.t.group h).valid = true)
    (hs : (tget group0 b.t.group h).state = 1) (hr : ranks ≠ []) :
    ∃ fns memp stores fab ports fresh pens cmds dlck str ros, detectBreak b h cause ranks =
    { b with fns := fns, memp := memp, stores := stores, fab := fab, ports := ports, fresh := fresh, pens := pens, cmds := cmds, dlck := dlck
             t := { b.t with stream := str, roster := ros
                             group := tput h (brokenGroup (tget group0 b.t.group h) cause ranks (beatNow b)) b.t.group } } := by
  unfold detectBreak; dsimp only
  have : ranks.isEmpty = false := by cases ranks with | nil => exact absurd rfl hr | cons => rfl
  rw [if_neg (by simp [hv, hs, this])]
  obtain ⟨f, p, hn⟩ := breakNotices_only b (tget group0 b.t.group h) cause ranks (beatNow b)
  rw [hn]
  obtain ⟨a1, a2, a3, a4, a5, a6, a7, a8, a9, a10, ha⟩ := applyBreak_only { b with fab := f, ports := p } h cause ranks (beatNow b) hv hs
  rw [ha]; exact ⟨_, _, _, _, _, _, _, _, _, _, _, rfl⟩

/-! ### Accesses -/

theorem issueRead_eq (b : Blk) (k l : Nat) (v : Bool) (u : MUse) : issueRead b k l v u = { b with memp := (issueRead b k l v u).memp } := by
  unfold issueRead; split <;> rfl

theorem needXl_eq (b : Blk) (f va : Nat) (wr : Bool) (u : MUse) : needXl b f va wr u = { b with memp := (needXl b f va wr u).memp } := by
  unfold needXl; dsimp only; split
  · rfl
  · split
    · rfl
    · split <;> rfl

theorem dieAccess_eq (b : Blk) (p f : Nat) (who : FlyRef) (wr : Bool) (a flags : Nat) (body : List Byte) :
    dieAccess b p f who wr a flags body = { b with d2d := (dieAccess b p f who wr a flags body).d2d } := rfl

theorem firstAccesses_only (b : Blk) (c : Cmd) : ∃ memp d2d, firstAccesses b c = { b with memp := memp, d2d := d2d } := by
  unfold firstAccesses
  refine foldl_keeps (fun x : Blk => ∃ memp d2d, x = { b with memp := memp, d2d := d2d }) _ _ _ ⟨_, _, rfl⟩ ?_
  rintro x r ⟨m, d, rfl⟩
  dsimp only
  have h1 : ∀ y : Blk, (∃ m d, y = { b with memp := m, d2d := d }) →
      ∃ m d, (if (r.wr || r.space != 0) = true then y else issueRead y (fnKey y c.id.f 0 r.addr) 1 (flVol c) (MUse.cmd c.id r.space r.addr)) = { b with memp := m, d2d := d } := by
    rintro y ⟨m, d, rfl⟩; split
    · exact ⟨_, _, rfl⟩
    · rw [issueRead_eq]; exact ⟨_, _, rfl⟩
  apply h1
  split
  · rw [needXl_eq]; exact ⟨_, _, rfl⟩
  · split <;> exact ⟨_, _, rfl⟩

/-! ### Packets of commands -/

theorem flowAlt_eq (b : Blk) (cmd : Option CmdId) (dst vn : Nat) : (flowAlt b cmd dst vn).2 = { b with fab := (flowAlt b cmd dst vn).2.fab } := by
  obtain ⟨_, h⟩ := flowAlt_only b cmd dst vn; rw [h]

/-- A packet that leaves changes its function's mark of progress, the fabric and the ports. -/
theorem leaveCmd_only (b : Blk) (p : Pkt) (id : CmdId) (rank : Nat) : ∃ fab ports,
    leave b ⟨p, some id, rank⟩ = { modFn b id.f (fun n => { n with moved := true }) with fab := fab, ports := ports } := by
  unfold leave; dsimp only
  have hq : ∃ fab, (if (p.hdr.cls == 1 && rank == 1) = true then (false, b) else flowAlt b (some id) p.hdr.dst (vnOf p.hdr)).2 = { b with fab := fab } := by
    split
    · exact ⟨_, rfl⟩
    · exact flowAlt_only ..
  revert hq
  generalize (if (p.hdr.cls == 1 && rank == 1) = true then (false, b) else flowAlt b (some id) p.hdr.dst (vnOf p.hdr)) = x
  rintro ⟨fab, h⟩
  rw [h]
  split
  · rw [launch_eq]; exact ⟨_, _, rfl⟩
  · rw [launch_eq]; exact ⟨_, _, rfl⟩

theorem mcCopies_only (b : Blk) (a : Nat) (p : Pkt) (d mask : Nat) : ∃ ports, mcCopies b a p d mask = { b with ports := ports } := by
  unfold mcCopies
  refine foldl_keeps (fun x : Blk => ∃ ports, x = { b with ports := ports }) _ _ _ ⟨_, rfl⟩ ?_
  rintro x y ⟨q, rfl⟩
  dsimp only; split
  · rw [outTo_eq]; exact ⟨_, rfl⟩
  · exact ⟨_, rfl⟩

theorem mcCopies_eq (b : Blk) (a : Nat) (p : Pkt) (d mask : Nat) : mcCopies b a p d mask = { b with ports := (mcCopies b a p d mask).ports } := by
  obtain ⟨_, h⟩ := mcCopies_only b a p d mask; rw [h]

theorem sendMc_only (b : Blk) (d mask : Nat) (p : Pkt) (cmd : Option CmdId) : ∃ fab ports, sendMc b d mask p cmd = { b with fab := fab, ports := ports } := by
  unfold sendMc leaveMc; split
  · dsimp only; rw [mcCopies_eq]; exact ⟨_, _, rfl⟩
  · exact ⟨_, _, rfl⟩

/-- Sending changes the fabric, the ports and functions' marks of progress, and nothing else. -/
def Sends (b b' : Blk) : Prop :=
  (∃ fns fab ports, b' = { b with fns := fns, fab := fab, ports := ports }) ∧ ∀ f, (getFn b f).enabled = true → ∃ m, getFn b' f = { getFn b f with moved := m }

theorem Sends.refl (b : Blk) : Sends b b := ⟨⟨_, _, _, rfl⟩, fun _ _ => ⟨_, rfl⟩⟩

theorem Sends.trans {b b' b'' : Blk} (h : Sends b b') (h' : Sends b' b'') : Sends b b'' := by
  obtain ⟨⟨a1, a2, a3, ha⟩, hf⟩ := h
  obtain ⟨⟨c1, c2, c3, hc⟩, hg⟩ := h'
  refine ⟨⟨c1, c2, c3, by rw [hc, ha]⟩, fun f he => ?_⟩
  obtain ⟨m, hm⟩ := hf f he
  obtain ⟨k, hk⟩ := hg f (by rw [hm]; exact he)
  exact ⟨k, by rw [hk, hm]⟩

theorem Sends.foldl {α : Type} (l : List α) (g : Blk → α → Blk) (b : Blk) (h : ∀ b x, Sends b (g b x)) : Sends b (l.foldl g b) :=
  foldl_keeps (fun x => Sends b x) l g b (.refl b) fun y x hy => hy.trans (h y x)

theorem Sends.of_fab (b : Blk) (fab : Fabric) (ports : List Port) : Sends b { b with fab := fab, ports := ports } :=
  ⟨⟨_, _, _, rfl⟩, fun _ _ => ⟨_, rfl⟩⟩

theorem Sends.moved (b : Blk) (f : Nat) : Sends b (modFn b f fun n => { n with moved := true }) := by
  refine ⟨⟨_, _, _, rfl⟩, fun k he => ?_⟩
  by_cases e : k = f
  · subst e; exact ⟨true, getFn_modFn b k _ (enabled_ne (by exact he))⟩
  · rw [getFn_modFn_other b f k _ e]; exact ⟨_, rfl⟩

theorem sendTo_sends (b : Blk) (p : Pkt) (id : CmdId) (rank : Nat) : Sends b (sendTo b p (some id) rank) := by
  unfold sendTo; split
  · obtain ⟨f, q, h⟩ := leaveCmd_only b p id rank; rw [h]
    exact (Sends.moved b id.f).trans (.of_fab _ f q)
  · exact .of_fab b _ b.ports

theorem sendPkt_sends (b : Blk) (p : Pkt) : Sends b (sendPkt b p none) := by
  obtain ⟨f, q, h⟩ := sendPkt_only b p; rw [h]; exact .of_fab b f q

theorem sendMc_sends (b : Blk) (d mask : Nat) (p : Pkt) (cmd : Option CmdId) : Sends b (sendMc b d mask p cmd) := by
  obtain ⟨f, q, h⟩ := sendMc_only b d mask p cmd; rw [h]; exact .of_fab b f q

end Sys2Proof.Machine
end

