-- ==== Sys2Proof/Laws/Events.lean ====
section
/-!
SUPPORT. What an event, an interrupt and a log record leave of a function's page.
-/
namespace Sys2Proof.Machine

/-- A change of one page keeps what it keeps of that page, of every page, unless it makes the page its reset values. -/
theorem modFn_keeps {α : Type} (P : Fn → α) (b : Blk) (f k : Nat) (g : Fn → Fn) (hg : g (getFn b f) ≠ fn0) (hP : P (g (getFn b f)) = P (getFn b f)) :
    P (getFn (modFn b f g) k) = P (getFn b k) := by
  by_cases e : k = f
  · subst e; rw [getFn_modFn b k g hg]; exact hP
  · rw [getFn_modFn_other b f k g e]

theorem signalVec_keeps {α : Type} (P : Fn → α) (hP : ∀ n m, P { n with msi := m } = P n) (b : Blk) (f v k : Nat)
    (he : (getFn b f).enabled = true) : P (getFn (signalVec b f v) k) = P (getFn b k) := by
  unfold signalVec; dsimp only; split
  · exact modFn_keeps P b f k _ (enabled_ne (by exact he)) (hP _ _)
  · split <;> rfl

theorem fnStore_fns (b : Blk) (f sp va : Nat) (bs : List Byte) : (fnStore b f sp va bs).fns = b.fns := by rw [fnStore_eq]

theorem eventIn_keeps {α : Type} (P : Fn → α) (hm : ∀ n m, P { n with msi := m } = P n)
    (hd : ∀ n x y, P { n with eqLost := x, dropping := true, dropped := y } = P n)
    (hw : ∀ n x, P { n with eqProduced := x, dropping := false, dropped := 0 } = P n)
    (b : Blk) (f code q info a0 a1 k : Nat) : P (getFn (eventIn b f code q info a0 a1).1 k) = P (getFn b k) := by
  unfold eventIn; dsimp only; split
  · rfl
  · rename_i hf
    have he : (getFn b f).enabled = true := by
      cases h : (getFn b f).enabled with
      | true => rfl
      | false => simp [h] at hf
    split
    · exact modFn_keeps P b f k _ (enabled_ne (by exact he)) (hd _ _ _)
    · obtain ⟨st, h⟩ := fnStore_only b f 0 ((getFn b f).eqBase + 16 * ((getFn b f).eqProduced % 2 ^ (getFn b f).eqLog2))
        (leBytes (mk [(63, 63, 1 - (getFn b f).eqProduced / 2 ^ (getFn b f).eqLog2 % 2), (62, 56, code), (55, 52, q), (51, 32, info), (31, 0, a0)]) 8 ++ leBytes a1 8)
      rw [h]; dsimp only
      have hk : ∀ k, P (getFn (modFn { b with stores := st } f fun n => { n with eqProduced := n.eqProduced + 1, dropping := false, dropped := 0 }) k) = P (getFn b k) :=
        fun k => modFn_keeps P { b with stores := st } f k _ (enabled_ne (by exact he)) (hw _ _)
      split
      · rw [signalVec_keeps P hm _ f _ k ?_]
        · exact hk k
        · rw [getFn_modFn { b with stores := st } f _ (enabled_ne (by exact he))]; exact he
      · exact hk k

/-- An event keeps everything of every page but its error-queue counters and its vectors. -/
theorem event_keeps {α : Type} (P : Fn → α) (hm : ∀ n m, P { n with msi := m } = P n)
    (hd : ∀ n x y, P { n with eqLost := x, dropping := true, dropped := y } = P n)
    (hw : ∀ n x, P { n with eqProduced := x, dropping := false, dropped := 0 } = P n)
    (b : Blk) (f code q info a0 a1 k : Nat) : P (getFn (event b f code q info a0 a1) k) = P (getFn b k) := by
  unfold event
  have h1 := eventIn_keeps P hm hd hw b f code q info a0 a1 k
  generalize eventIn b f code q info a0 a1 = e at h1 ⊢
  obtain ⟨b1, first⟩ := e
  dsimp only at h1 ⊢
  split
  · rw [eventIn_keeps P hm hd hw]; exact h1
  · exact h1

theorem event_queues (b : Blk) (f code q info a0 a1 k j : Nat) : getQ (event b f code q info a0 a1) k j = getQ b k j := by
  unfold getQ; rw [event_keeps Fn.queues (fun _ _ => rfl) (fun _ _ _ => rfl) (fun _ _ => rfl)]

/-- A changed queue of an enabled page reads as changed. -/
theorem getQ_modQ (b : Blk) (f q : Nat) (g : Queue → Queue) (he : (getFn b f).enabled = true) (hg : g (getQ b f q) ≠ queue0) :
    getQ (modQ b f q g) f q = g (getQ b f q) := by
  unfold modQ
  unfold getQ at hg ⊢
  rw [getFn_modFn b f _ (enabled_ne (by exact he))]
  exact (tget_tset_of_ne queue0 _ q q _ hg).trans (if_pos rfl)

/-! ### Ended commands -/

/-- Commands that have ended stand as they were. -/
def KeepsEnded (b b' : Blk) : Prop := ∀ id c, findCmd b id = some c → c.phase = .ended → findCmd b' id = some c

theorem KeepsEnded.of_cmds {b b' : Blk} (h : b'.cmds = b.cmds) : KeepsEnded b b' := fun id _ hc _ => (findCmd_congr id h).trans hc

theorem KeepsEnded.trans {b b' b'' : Blk} (h : KeepsEnded b b') (h' : KeepsEnded b' b'') : KeepsEnded b b'' :=
  fun id c hc he => h' id c (h id c hc he) he

theorem unwait_find_other {b : Blk} {c : Cmd} {k : CmdId} (h : k ≠ c.id) : findCmd (unwait b c) k = findCmd b k := by
  unfold unwait; split
  · exact (findCmd_modCmd_other _ (by simp) h).trans (findCmd_congr k rfl)
  · rfl

/-- Ending one command leaves every ended command as it is. -/
theorem endCmd_keepsEnded (b : Blk) (k : CmdId) (st r : Nat) : KeepsEnded b (endCmd b k st r) := by
  intro id c hc he
  unfold endCmd withCmd
  split
  · rename_i d hd
    dsimp only; split
    · exact hc
    · rename_i hp
      have hn : id ≠ k := by
        intro e; subst e; rw [hc] at hd; injection hd with hd; subst hd; exact hp he
      refine (findCmd_modCmd_other _ (by intro c; rfl) hn).trans ((unwait_find_other (by rw [findCmd_id hd]; exact hn)).trans ?_); exact hc
  · exact hc

/-- Ending one command leaves every other command as it is. -/
theorem endCmd_find_other (b : Blk) {k id : CmdId} (st r : Nat) (hn : id ≠ k) : findCmd (endCmd b k st r) id = findCmd b id := by
  unfold endCmd withCmd
  split
  · rename_i d hd
    dsimp only; split
    · rfl
    · refine (findCmd_modCmd_other _ (by intro c; rfl) hn).trans ((unwait_find_other (by rw [findCmd_id hd]; exact hn)).trans rfl)
  · rfl

theorem foldl_keepsEnded {α : Type} (l : List α) (g : Blk → α → Blk) (b : Blk) (h : ∀ b x, KeepsEnded b (g b x)) : KeepsEnded b (l.foldl g b) :=
  foldl_keeps (fun x => KeepsEnded b x) l g b (.of_cmds rfl) fun y x hy => hy.trans (h y x)

theorem writeAnchor_cmds (b : Blk) (f : Nat) : (writeAnchor b f).cmds = b.cmds := by unfold writeAnchor; dsimp only; rw [fnStore_eq]; rfl

theorem settleQueue_keepsEnded (b : Blk) (f q : Nat) : KeepsEnded b (settleQueue b f q) := by
  unfold settleQueue; split
  · exact (KeepsEnded.of_cmds (b' := modQ b f q fun x => { x with state := 3 }) rfl).trans (foldl_keepsEnded _ _ _ fun b x => endCmd_keepsEnded b x.id 0 x.count)
  · exact .of_cmds rfl

theorem appendLog_cmds (b : Blk) (f : Nat) (bs : List Byte) : (appendLog b f bs).cmds = b.cmds := by rw [appendLog_eq]

theorem enableFrom_cmds (b : Blk) (c : Cmd) : (enableFrom b c).cmds = b.cmds := by
  unfold enableFrom enableFn; dsimp only; rw [appendLog_cmds, writeAnchor_cmds]; rfl

theorem closeFn_keepsEnded (b : Blk) (f : Nat) : KeepsEnded b (closeFn b f) := by
  unfold closeFn
  refine KeepsEnded.trans (.of_cmds ?_) (foldl_keepsEnded _ _ _ fun b x => endCmd_keepsEnded b x.id 0 0)
  exact writeAnchor_cmds b f

theorem settleFn_keepsEnded (b : Blk) (f : Nat) : KeepsEnded b (settleFn b f) := by
  unfold settleFn
  extract_lets n1 x n2 y n3
  have h1 : KeepsEnded b x := foldl_keepsEnded _ _ _ fun b q => settleQueue_keepsEnded b f q
  have h2 : KeepsEnded b y := by
    simp only [y]; split
    · exact h1.trans (closeFn_keepsEnded x f)
    · exact h1
  clear_value n3 y
  refine h2.trans ?_
  split
  · split
    · exact .of_cmds rfl
    · split
      · split
        · exact (KeepsEnded.of_cmds (b' := modFn y f fun n => { n with enableHeld := none }) rfl).trans (endCmd_keepsEnded _ _ _ _)
        · refine KeepsEnded.trans ?_ (endCmd_keepsEnded _ _ _ _)
          exact .of_cmds (enableFrom_cmds _ _)
      · exact .of_cmds rfl
  · exact .of_cmds rfl

/-- What follows a completion leaves every ended command as it is. -/
theorem settle_keepsEnded (b : Blk) : KeepsEnded b (settle b) := by
  unfold settle; exact foldl_keepsEnded _ _ _ settleFn_keepsEnded

theorem EndedWith.keep {b b' : Blk} {id : CmdId} {st r : Nat} (h : EndedWith b id st r) (hk : KeepsEnded b b') : EndedWith b' id st r := by
  obtain ⟨c, h1, h2, h3, h4⟩ := h; exact ⟨c, hk id c h1 h2, h2, h3, h4⟩

end Sys2Proof.Machine
end

