-- ==== Sys2Proof/Laws/Ending.lean ====
section
/-!
SUPPORT. Commands that run, commands that end early, and what an early end leaves of the other commands.
-/
namespace Sys2Proof.Machine

theorem awake_run {b : Blk} (h : awake b = true) : b.life.phase = .run := by
  simp only [awake, Bool.and_eq_true, decide_eq_true_eq] at h; exact h.2

/-- A step that changes nothing. -/
theorem commit_id (s : State) (h : s.b.stores = []) : (Host.Outcome.next (commit s s.b) : Host.Outcome State Fault Refusal) = .next s := by
  congr 1; exact commit_of_no_stores s s.b h

/-- A row that carries out a running command's effect. -/
theorem onRun_runs {b : Blk} {id : CmdId} {op : Nat} {c : Cmd} (h : RunsNow b id op c) (hr : b.life.phase = .run) (k : Cmd → Blk) :
    onRun b id op k = k c := by
  obtain ⟨h1, h2, h3, h4, h5, h6⟩ := h
  unfold onRun cmdIn; rw [h1]; simp [Option.filter, h2, h3, h4, h5, h6, hr]

/-- A row that acts at acceptance. -/
theorem cmdIn_accepted {b : Blk} {id : CmdId} {op : Nat} {c : Cmd} (h : AcceptedNow b id op c) (hr : b.life.phase = .run) :
    cmdIn b id .accepted [op] = some c := by
  obtain ⟨h1, h2, h3, h4⟩ := h
  unfold cmdIn; rw [h1]; simp [Option.filter, h2, h3, h4, hr]

/-! ### Packets leave no mark on commands -/

theorem launch_cmds (b : Blk) (p : Pkt) (alt : Bool) : (launch b p alt).cmds = b.cmds := by rw [launch_eq]
theorem flowAlt_cmds (b : Blk) (c : Option CmdId) (d v : Nat) : (flowAlt b c d v).2.cmds = b.cmds := by rw [flowAlt_eq]

theorem leave_cmds (b : Blk) (x : Unsent) : (leave b x).cmds = b.cmds := by
  have hq : (if (x.pkt.hdr.cls == 1 && x.rank == 1) = true then (false, b) else flowAlt b x.cmd x.pkt.hdr.dst (vnOf x.pkt.hdr)).2.cmds = b.cmds := by
    split
    · rfl
    · exact flowAlt_cmds ..
  unfold leave; dsimp only
  split
  · rw [launch_cmds]; show Blk.cmds (match x.cmd with | some id => _ | none => _) = _
    cases hc : x.cmd <;> (rw [hc] at hq; exact hq)
  · rw [launch_cmds]
    cases hc : x.cmd <;> (rw [hc] at hq; exact hq)

theorem flushDst_cmds (n ep : Nat) (b : Blk) : (flushDst n ep b).cmds = b.cmds := by
  induction n generalizing b with
  | zero => rfl
  | succ n ih =>
    unfold flushDst; split
    · rfl
    · split
      · rw [ih, leave_cmds]; rfl
      · rfl

theorem flush_cmds (b : Blk) (ep : Nat) : (flush b ep).cmds = b.cmds := flushDst_cmds _ _ _

theorem leaveMc_cmds (b : Blk) (d mask : Nat) (x : Unsent) : (leaveMc b d mask x).cmds = b.cmds := by
  unfold leaveMc; dsimp only; rw [mcCopies_eq]; rfl

theorem flushMcAt_cmds (n d : Nat) (b : Blk) : (flushMcAt n d b).cmds = b.cmds := by
  induction n generalizing b with
  | zero => rfl
  | succ n ih =>
    unfold flushMcAt; split
    · rfl
    · split
      · rw [ih, leaveMc_cmds]; rfl
      · rfl

theorem flushMc_cmds (b : Blk) (d : Nat) : (flushMc b d).cmds = b.cmds := flushMcAt_cmds _ _ _

theorem foldl_cmds {α : Type} (l : List α) (g : Blk → α → Blk) (b : Blk) (h : ∀ b x, (g b x).cmds = b.cmds) : (l.foldl g b).cmds = b.cmds :=
  foldl_keeps (fun x => x.cmds = b.cmds) l g b rfl fun y x hy => (h y x).trans hy

theorem endDrain_cmds (b : Blk) (id : CmdId) : (endDrain b id).cmds = b.cmds := by
  unfold endDrain; split
  · split
    · rw [foldl_cmds _ _ _ flushMc_cmds, foldl_cmds _ _ _ flush_cmds]
    · rfl
  · rfl

/-! ### An early end -/

/-- Ending a command early: its status is decided. -/
theorem failCmd_endedWith {b : Blk} {id : CmdId} {c : Cmd} (st no : Nat) (h : findCmd b id = some c) (hp : c.phase ≠ .ended) :
    ∃ r, EndedWith (failCmd b id st no) id st r := by
  unfold failCmd withCmd; rw [h]; dsimp only; rw [if_neg hp]
  refine ⟨_, endCmd_endedWith st _ (c := c) ?_ hp⟩
  refine (findCmd_congr id ?_).trans h
  obtain ⟨f, m, e⟩ := undefDst_only (if hasPeers c = true then abortNotices b c no else b) c
  rw [e]; dsimp only; split
  · obtain ⟨f, q, e⟩ := abortNotices_only b c no; rw [e]
  · rfl

theorem failCmd_find_other (b : Blk) {id k : CmdId} (st no : Nat) (hn : k ≠ id) : findCmd (failCmd b id st no) k = findCmd b k := by
  unfold failCmd withCmd; split
  · rename_i c hc
    dsimp only; split
    · rfl
    · rw [endCmd_find_other _ _ _ hn]
      refine findCmd_congr k ?_
      obtain ⟨f, m, e⟩ := undefDst_only (if hasPeers c = true then abortNotices b c no else b) c
      rw [e]; dsimp only; split
      · obtain ⟨f, q, e⟩ := abortNotices_only b c no; rw [e]
      · rfl
  · rfl

theorem abandon_cmds (b : Blk) (gid gen : Nat) (cs : Option Nat) : (abandon b gid gen cs).cmds = b.cmds := by rw [abandon_eq]

theorem releaseHaly_cmds (b : Blk) (i : Nat) : (releaseHaly b i).cmds = b.cmds := by
  unfold releaseHaly; dsimp only; split
  · rfl
  · split
    · rfl
    · show (sendBare _ _ _ _ _).cmds = _; rw [sendBare_eq]

theorem dropHalyards_cmds (b : Blk) (h : Nat) : (dropHalyards b h).cmds = b.cmds := foldl_cmds _ _ _ fun b e => releaseHaly_cmds b e.1

/-- Releasing what a command has reserved leaves its status and result, and every other command. -/
theorem unreserve_find (b : Blk) (id k : CmdId) :
    (k ≠ id → findCmd (unreserve b id) k = findCmd b k) ∧ ∀ st r, EndedWith b id st r → EndedWith (unreserve b id) id st r := by
  unfold unreserve withCmd
  split
  · dsimp only; split
    · split
      · rename_i c _ h _ _
        have hc : (modHoist (dropHalyards b h) h fun _ => hoist0).cmds = b.cmds := dropHalyards_cmds b h
        generalize modHoist (dropHalyards b h) h _ = y at hc
        refine ⟨fun hn => ?_, ?_⟩
        · exact (findCmd_modCmd_other _ (by intro c; rfl) hn).trans (findCmd_congr k hc)
        · rintro st r ⟨d, h1, h2, h3, h4⟩
          exact ⟨_, findCmd_modCmd_same (c := d) (fun c => { c with handle := none }) (fun _ => rfl)
            ((findCmd_congr id hc).trans h1), h2, h3, h4⟩
      · exact ⟨fun _ => rfl, fun _ _ h => h⟩
    · exact ⟨fun _ => rfl, fun _ _ h => h⟩
  · exact ⟨fun _ => rfl, fun _ _ h => h⟩

theorem EndedWith.of_cmds {b b' : Blk} {id : CmdId} {st r : Nat} (h : EndedWith b id st r) (e : b'.cmds = b.cmds) : EndedWith b' id st r := by
  obtain ⟨c, h1, h2⟩ := h; exact ⟨c, (findCmd_congr id e).trans h1, h2⟩

theorem unstage_find (b : Blk) (id k : CmdId) :
    (k ≠ id → findCmd (unstage b id) k = findCmd b k) ∧ ∀ st r, EndedWith b id st r → EndedWith (unstage b id) id st r := by
  have e : (unstage b id).cmds = (unreserve b id).cmds := endDrain_cmds _ id
  refine ⟨fun hn => (findCmd_congr k e).trans ((unreserve_find b id k).1 hn), fun st r h => EndedWith.of_cmds ((unreserve_find b id k).2 st r h) e⟩

/-- A command ended early stands ended with the status. -/
theorem endEarly_endedWith {b : Blk} {id : CmdId} {c : Cmd} (st no : Nat) (h : findCmd b id = some c) (hp : c.phase ≠ .ended) :
    ∃ r, EndedWith (endEarly b id st no) id st r := by
  have e : ∀ y : Blk, y.cmds = b.cmds → ∃ r, EndedWith (unstage (purge (failCmd y id st no) id) id) id st r := by
    intro y hy
    obtain ⟨r, hr⟩ := failCmd_endedWith st no ((findCmd_congr id hy).trans h) hp
    exact ⟨r, (unstage_find _ id id).2 st r (EndedWith.of_cmds hr rfl)⟩
  unfold endEarly withCmd; rw [h]; dsimp only
  refine e _ ?_; split
  · exact abandon_cmds ..
  · rfl

/-- Every other command stands as it was. -/
theorem endEarly_find_other (b : Blk) {id k : CmdId} (st no : Nat) (hn : k ≠ id) : findCmd (endEarly b id st no) k = findCmd b k := by
  have e : ∀ y : Blk, y.cmds = b.cmds → findCmd (unstage (purge (failCmd y id st no) id) id) k = findCmd b k := by
    intro y hy
    rw [(unstage_find _ id k).1 hn]
    exact (failCmd_find_other y st no hn).trans (findCmd_congr k hy)
  unfold endEarly withCmd
  split
  · refine e _ ?_; dsimp only; split
    · exact abandon_cmds ..
    · rfl
  · exact e b rfl

/-! ### Queues and the words of commands stay through an early end -/

/-- Enabled pages keep their queues, and every command keeps its id and its words. -/
def QKept (b b' : Blk) : Prop :=
  (∀ f, (getFn b f).enabled = true → (getFn b' f).enabled = true ∧ (getFn b' f).queues = (getFn b f).queues) ∧
  b'.cmds.map (fun c => (c.id, c.raw)) = b.cmds.map fun c => (c.id, c.raw)

theorem QKept.trans {b b' b'' : Blk} (h : QKept b b') (h' : QKept b' b'') : QKept b b'' :=
  ⟨fun f he => ⟨(h'.1 f (h.1 f he).1).1, ((h'.1 f (h.1 f he).1).2).trans (h.1 f he).2⟩, h'.2.trans h.2⟩

theorem QKept.same {b b' : Blk} (h1 : b'.fns = b.fns) (h2 : b'.cmds = b.cmds) : QKept b b' :=
  ⟨fun f he => by unfold getFn at he ⊢; rw [h1]; exact ⟨he, rfl⟩, by rw [h2]⟩

theorem QKept.refl (b : Blk) : QKept b b := .same rfl rfl

theorem QKept.foldl {α : Type} (l : List α) (g : Blk → α → Blk) (b : Blk) (h : ∀ b x, QKept b (g b x)) : QKept b (l.foldl g b) :=
  foldl_keeps (fun x => QKept b x) l g b (.refl b) fun y x hy => hy.trans (h y x)

theorem QKept.modFn (b : Blk) (k : Nat) (g : Fn → Fn) (h1 : ∀ n, (g n).enabled = n.enabled) (h2 : ∀ n, (g n).queues = n.queues) :
    QKept b (modFn b k g) := by
  refine ⟨fun f he => ?_, rfl⟩
  by_cases e : f = k
  · subst e
    rw [getFn_modFn b f g (enabled_ne ((h1 _).trans he)), h1, h2]; exact ⟨he, rfl⟩
  · rw [getFn_modFn_other b k f g e]; exact ⟨he, rfl⟩

theorem QKept.modCmd (b : Blk) (k : CmdId) (g : Cmd → Cmd) (h1 : ∀ c, (g c).id = c.id) (h2 : ∀ c, (g c).raw = c.raw) : QKept b (modCmd b k g) := by
  refine ⟨fun f he => ⟨he, rfl⟩, ?_⟩
  unfold Machine.modCmd; dsimp only
  rw [List.map_map]
  refine List.map_congr_left fun c _ => ?_
  show ((if c.id = k then g c else c).id, (if c.id = k then g c else c).raw) = _
  split
  · rw [h1, h2]
  · rfl

theorem unwait_qkept (b : Blk) (c : Cmd) : QKept b (unwait b c) := by
  unfold unwait; split
  · rename_i p _
    refine QKept.trans ?_ (.modCmd _ _ _ (fun _ => rfl) (fun _ => rfl))
    exact (QKept.same (b' := modPen b p fun e => { e with waiters := e.waiters - 1 }) rfl rfl).trans
      ((QKept.modFn _ c.id.f (fun n => { n with deadlocked := false }) (fun _ => rfl) (fun _ => rfl)).trans (.same rfl rfl))
  · exact .refl b

theorem endCmd_qkept (b : Blk) (k : CmdId) (st r : Nat) : QKept b (endCmd b k st r) := by
  unfold endCmd withCmd; split
  · dsimp only; split
    · exact .refl b
    · exact (unwait_qkept b _).trans (.modCmd _ _ _ (fun _ => rfl) (fun _ => rfl))
  · exact .refl b

theorem event_qkept (b : Blk) (f code q info a0 a1 : Nat) : QKept b (event b f code q info a0 a1) := by
  refine ⟨fun k he => ⟨?_, event_keeps Fn.queues (fun _ _ => rfl) (fun _ _ _ => rfl) (fun _ _ => rfl) b f code q info a0 a1 k⟩, ?_⟩
  · rw [event_keeps Fn.enabled (fun _ _ => rfl) (fun _ _ _ => rfl) (fun _ _ => rfl) b f code q info a0 a1 k]; exact he
  · rw [event_eq]

theorem abandon_qkept (b : Blk) (gid gen : Nat) (cs : Option Nat) : QKept b (abandon b gid gen cs) := by
  unfold abandon
  exact (QKept.foldl _ _ _ fun b (a : Arb) => event_qkept b a.fn _ _ _ _ _).trans (.same rfl rfl)

theorem failCmd_qkept (b : Blk) (id : CmdId) (st no : Nat) : QKept b (failCmd b id st no) := by
  unfold failCmd withCmd; split
  · rename_i c hc
    dsimp only; split
    · exact .refl b
    · refine QKept.trans ?_ (endCmd_qkept _ _ _ _)
      obtain ⟨f, m, e⟩ := undefDst_only (if hasPeers c = true then abortNotices b c no else b) c
      rw [e]; split
      · obtain ⟨f, q, e⟩ := abortNotices_only b c no; rw [e]; exact .same rfl rfl
      · exact .same rfl rfl
  · exact .refl b

theorem leave_qkept (b : Blk) (x : Unsent) : QKept b (leave b x) := by
  have hl : ∀ (b : Blk) p alt, QKept b (launch b p alt) := fun b p alt => by rw [launch_eq]; exact .same rfl rfl
  have hm : ∀ y : Blk, QKept b y → QKept b (match x.cmd with | some id => modFn y id.f fun n => { n with moved := true } | none => y) := by
    intro y hy; split
    · exact hy.trans (.modFn _ _ _ (fun _ => rfl) (fun _ => rfl))
    · exact hy
  have hq : QKept b (if (x.pkt.hdr.cls == 1 && x.rank == 1) = true then (false, b) else flowAlt b x.cmd x.pkt.hdr.dst (vnOf x.pkt.hdr)).2 := by
    split
    · exact .refl b
    · rw [flowAlt_eq]; exact .same rfl rfl
  unfold leave; dsimp only
  split
  · refine QKept.trans ?_ (hl _ _ _); exact (hm _ hq).trans (.same rfl rfl)
  · refine QKept.trans ?_ (hl _ _ _); exact hm _ hq

theorem flush_qkept (b : Blk) (ep : Nat) : QKept b (flush b ep) := by
  have : ∀ n (b : Blk), QKept b (flushDst n ep b) := by
    intro n; induction n with
    | zero => exact fun b => .refl b
    | succ n ih =>
      intro b; unfold flushDst; split
      · exact .refl b
      · split
        · refine QKept.trans ?_ (ih _); refine QKept.trans ?_ (leave_qkept _ _); exact .same rfl rfl
        · exact .refl b
  exact this _ b

theorem flushMc_qkept (b : Blk) (d : Nat) : QKept b (flushMc b d) := by
  have : ∀ n (b : Blk), QKept b (flushMcAt n d b) := by
    intro n; induction n with
    | zero => exact fun b => .refl b
    | succ n ih =>
      intro b; unfold flushMcAt; split
      · exact .refl b
      · split
        · refine QKept.trans ?_ (ih _)
          unfold leaveMc; dsimp only; rw [mcCopies_eq]; exact .same rfl rfl
        · exact .refl b
  exact this _ b

theorem endDrain_qkept (b : Blk) (id : CmdId) : QKept b (endDrain b id) := by
  unfold endDrain; split
  · split
    · refine QKept.trans ?_ (QKept.foldl _ _ _ flushMc_qkept); refine QKept.trans ?_ (QKept.foldl _ _ _ flush_qkept); exact .same rfl rfl
    · exact .refl b
  · exact .refl b

theorem dropHalyards_qkept (b : Blk) (h : Nat) : QKept b (dropHalyards b h) := by
  unfold dropHalyards
  refine QKept.foldl _ _ _ fun b e => ?_
  unfold releaseHaly; dsimp only; split
  · exact .refl b
  · split
    · exact .same rfl rfl
    · refine QKept.trans ?_ (.same (b := sendBare b _ _ _ _) rfl rfl); rw [sendBare_eq]; exact .same rfl rfl

theorem unstage_qkept (b : Blk) (id : CmdId) : QKept b (unstage b id) := by
  have hu : QKept b (unreserve b id) := by
    unfold unreserve withCmd; split
    · dsimp only; split
      · split
        · rename_i c _ h _ _
          have h1 : QKept b (modHoist (dropHalyards b h) h fun _ => hoist0) := (dropHalyards_qkept b h).trans (.same rfl rfl)
          generalize modHoist (dropHalyards b h) h _ = y at h1 ⊢
          exact (h1.trans (.same rfl rfl)).trans (.modCmd _ _ _ (by intro c; rfl) (by intro c; rfl))
        · exact .refl b
      · exact .refl b
    · exact .refl b
  exact (hu.trans (endDrain_qkept _ id)).trans (.same rfl rfl)

theorem endEarly_qkept (b : Blk) (id : CmdId) (st no : Nat) : QKept b (endEarly b id st no) := by
  have e : ∀ y : Blk, QKept b y → QKept b (unstage (purge (failCmd y id st no) id) id) := fun y hy => by
    refine QKept.trans ?_ (unstage_qkept _ id)
    exact (hy.trans (failCmd_qkept y id st no)).trans (.same rfl rfl)
  unfold endEarly withCmd
  split
  · refine e _ ?_; dsimp only; split
    · exact abandon_qkept ..
    · exact .refl b
  · exact e b (.refl b)

/-! ### Ended commands keep their status and result -/

/-- Whatever ended with a status and a result stands so. -/
def KeepsEW (b b' : Blk) : Prop := ∀ id st r, EndedWith b id st r → EndedWith b' id st r

theorem KeepsEW.refl (b : Blk) : KeepsEW b b := fun _ _ _ h => h
theorem KeepsEW.trans {b b' b'' : Blk} (h : KeepsEW b b') (h' : KeepsEW b' b'') : KeepsEW b b'' := fun id st r x => h' id st r (h id st r x)
theorem KeepsEW.of_cmds {b b' : Blk} (e : b'.cmds = b.cmds) : KeepsEW b b' := fun _ _ _ h => EndedWith.of_cmds h e
theorem KeepsEnded.ew {b b' : Blk} (h : KeepsEnded b b') : KeepsEW b b' := fun _ _ _ x => EndedWith.keep x h
theorem KeepsEW.foldl {α : Type} (l : List α) (g : Blk → α → Blk) (b : Blk) (h : ∀ b x, KeepsEW b (g b x)) : KeepsEW b (l.foldl g b) :=
  foldl_keeps (fun x => KeepsEW b x) l g b (.refl b) fun y x hy => hy.trans (h y x)

theorem KeepsEW.fab {b x : Blk} (fab : Fabric) (h : KeepsEW b x) : KeepsEW b { x with fab := fab } := h.trans (.of_cmds rfl)

theorem undefDst_cmds (b : Blk) (c : Cmd) : (undefDst b c).cmds = b.cmds := by obtain ⟨f, m, e⟩ := undefDst_only b c; rw [e]
theorem abortNotices_cmds (b : Blk) (c : Cmd) (no : Nat) : (abortNotices b c no).cmds = b.cmds := by
  obtain ⟨f, q, e⟩ := abortNotices_only b c no; rw [e]

theorem failCmd_ew (b : Blk) (id : CmdId) (st no : Nat) : KeepsEW b (failCmd b id st no) := by
  unfold failCmd withCmd; split
  · rename_i c hc
    dsimp only; split
    · exact .refl b
    · refine KeepsEW.trans (.of_cmds ?_) (endCmd_keepsEnded _ _ _ _).ew
      rw [undefDst_cmds]; split
      · exact abortNotices_cmds ..
      · rfl
  · exact .refl b

theorem unstage_ew (b : Blk) (id : CmdId) : KeepsEW b (unstage b id) := by
  intro k st r h
  by_cases e : k = id
  · subst e; exact (unstage_find b k k).2 st r h
  · obtain ⟨c, h1, h2⟩ := h; exact ⟨c, ((unstage_find b id k).1 e).trans h1, h2⟩

theorem endEarly_ew (b : Blk) (id : CmdId) (st no : Nat) : KeepsEW b (endEarly b id st no) := by
  have e : ∀ y : Blk, KeepsEW b y → KeepsEW b (unstage (purge (failCmd y id st no) id) id) := fun y hy => by
    refine KeepsEW.trans ?_ (unstage_ew _ id)
    exact (hy.trans (failCmd_ew y id st no)).trans (.of_cmds rfl)
  unfold endEarly withCmd
  split
  · refine e _ ?_; dsimp only; split
    · exact .of_cmds (abandon_cmds ..)
    · exact .refl b
  · exact e b (.refl b)

theorem stopCmd_ew (b : Blk) (id : CmdId) (st : Nat) : KeepsEW b (stopCmd b id st) := by
  unfold stopCmd withCmd; split
  · rename_i c hc
    dsimp only; split
    · exact .refl b
    · refine KeepsEW.trans (.of_cmds ?_) (endCmd_keepsEnded _ _ _ _).ew
      show (undefDst _ _).cmds = _; rw [undefDst_cmds]; split
      · exact abandon_cmds ..
      · rfl
  · exact .refl b

theorem endGenCmds_ew (b : Blk) (gid gen st : Nat) : KeepsEW b (endGenCmds b gid gen st) :=
  KeepsEW.foldl _ _ _ fun b c => stopCmd_ew b c.id st

theorem freeFinish_ew (b : Blk) (f n : Nat) : KeepsEW b (freeFinish b f n) := by
  unfold freeFinish freeStream modStr; rw [clearFollowers_eq]
  refine KeepsEW.trans ?_ (KeepsEW.foldl _ _ _ fun b c => (endCmd_keepsEnded b c.id 0 _).ew)
  exact .of_cmds rfl

theorem streamError_ew (b : Blk) (f n st : Nat) : KeepsEW b (streamError b f n st) := by
  unfold streamError; dsimp only; split
  · have h : (streamRecord (clearFollowers (modStr b f n fun s => { s with state := 4, staged := 0 }) f n) f n 2 st 0).cmds = b.cmds := by
      rw [streamRecord_eq, clearFollowers_eq]; rfl
    generalize streamRecord _ f n 2 st 0 = y at h ⊢
    split
    · exact (KeepsEW.of_cmds h).trans (freeFinish_ew y f n)
    · exact .of_cmds h
  · exact .refl b

theorem groupStreamsError_ew (b : Blk) (gid gen st : Nat) : KeepsEW b (groupStreamsError b gid gen st) :=
  KeepsEW.foldl _ _ _ fun b e => streamError_ew b _ _ st

theorem breakNotices_cmds (b : Blk) (g : Group) (cause : Nat) (ranks : List Nat) (stamp : Nat) : (breakNotices b g cause ranks stamp).cmds = b.cmds := by
  obtain ⟨f, q, e⟩ := breakNotices_only b g cause ranks stamp; rw [e]

theorem groupEvent_cmds (b : Blk) (g : Group) (code info a1 : Nat) : (groupEvent b g code info a1).cmds = b.cmds := by rw [groupEvent_eq]

theorem applyBreak_ew (b : Blk) (h cause : Nat) (ranks : List Nat) (stamp : Nat) : KeepsEW b (applyBreak b h cause ranks stamp) := by
  unfold applyBreak; dsimp only; split
  · exact .refl b
  · have hm : (markRanks b (tget group0 b.t.group h) cause ranks).cmds = b.cmds := by
      unfold markRanks
      refine foldl_cmds _ _ _ fun b r => ?_
      split <;> rfl
    split
    · exact .of_cmds hm
    · refine KeepsEW.trans ?_ (.of_cmds (groupEvent_cmds _ _ _ _ _))
      refine KeepsEW.fab _ ?_
      refine KeepsEW.trans ?_ (.of_cmds (abandon_cmds _ _ _ _))
      refine KeepsEW.trans ?_ (groupStreamsError_ew _ _ _ _)
      refine KeepsEW.trans ?_ (endGenCmds_ew _ _ _ _)
      exact .of_cmds hm

theorem detectBreak_ew (b : Blk) (h cause : Nat) (ranks : List Nat) : KeepsEW b (detectBreak b h cause ranks) := by
  unfold detectBreak; dsimp only; split
  · exact .refl b
  · exact (KeepsEW.of_cmds (breakNotices_cmds b _ cause ranks _)).trans (applyBreak_ew _ _ _ _ _)

theorem loseFn_ew (b : Blk) (f : Nat) : KeepsEW b (loseFn b f) :=
  KeepsEW.foldl _ _ _ fun b e => detectBreak_ew b _ _ _

end Sys2Proof.Machine
end

