-- ==== Sys2Proof/Tests/Slice0.lean ====
section
/-!
SUPPORT. The model's own tests: an ill-formed command for each check of WellFormed, a state and operands that meet the hypotheses of each
statement, and single steps against the spec's worked values.
-/
namespace Sys2Proof.Tests

open Sys2Proof Sys2Proof.Machine

set_option Elab.async false

/-! ### Small states -/

/-- The entries of a command: opcode, TAG and flag bits in the header, parameters by packet offset, length and value (R487, R490). -/
def entries (n op tag flags : Nat) (fs : List (Nat × Nat × Nat)) : List Byte :=
  let space := fs.foldl (fun r x => splice r x.1 (leBytes x.2.2 x.2.1)) (List.replicate (56 * n) (0 : Byte))
  (List.range n).flatMap fun i =>
    leBytes (if i = 0 then mk [(63, 63, 1), (62, 62, 1), (61, 61, if n = 1 then 1 else 0), (55, 48, op), (46, 40, flags), (31, 0, tag)]
      else mk [(63, 63, 1), (61, 61, if i + 1 = n then 1 else 0)]) 8 ++ slice space (56 * i) 56

/-- A function with two queues, queue 0 OPEN, a completion ring and a logbook. -/
def fn1 : Fn :=
  { fn0 with
    enabled := true, nq := 2, groupQuota := 16, rosterQuota := 64, stagingQuota := 16, d2dMask := 1, logBase := 0x100000, logLog2 := 20, epoch := 1
    queues := [(0, { queue0 with state := 1, base := 0x10000, log2 := 4 })], head := 1, cqEn := true, cqBase := 0x40000, cqLog2 := 8
    keyEpoch := 1, msi := [(0, { mask := false, addr := 0x5000, pend := false, data := 7 })] }

/-- A command in a phase. -/
def cmd (id : CmdId) (raw : List Byte) (ph : Phase) : Cmd :=
  { id, raw, phase := ph, status := 0, result := 0, satTiles := 0, flags := 0, lsn := 1, lines := 1 + raw.length / 64, prog := none
    rank := 0, handle := none, staging := 0, split := false, waitOn := none, waitDone := false, headOther := false, waitBeat := 0
    dispBeat := 0, chunks := 0, ready := 0, flies := 0, satChunks := [], sent := 0, acked := 0, rflies := 0, sigSent := false, gotten := []
    recvd := [], applied := none, count := 0, extent := 0, effectDone := false }

/-- Endpoint 5 with firmware, functions 0 and 1 enabled, a fabric secret held. -/
def base : Blk :=
  { State.reset.b with
    life := { State.reset.b.life with fwVersion := 1 }
    ctl := { State.reset.b.ctl with fabSelf := 0x100000005#64 }
    sec := { State.reset.b.sec with fs := some 9 }
    fns := [(0, { fn1 with logBase := 0x200000, cqBase := 0x48000 }), (1, fn1)] }

def st (b : Blk) : State := { b, mem := [], pending := [] }
def work : State := st base

/-- The state that a row answers, the state before where it answers none. -/
def after (c : Instr) (s : State) : State := match exec c s with | .next t => t | _ => s
/-- Whether a row answers a next state. -/
def goes (c : Instr) (s : State) : Bool := match exec c s with | .next _ => true | _ => false
/-- The block with its life changed. -/
def life (g : Life → Life) (b : Blk) : Blk := { b with life := g b.life }
/-- Function 1 changed. -/
def fnW (g : Fn → Fn) : State := st (modFn base 1 g)

/-! ### Ill-formed commands, one for each check -/

def id1 : CmdId := ⟨1, 0, 0⟩
def noEnv : CollEnv := { xs := [], counts := [], fault := none }
def hdr1 : RHdr := { net := 0, cls := 0, hop := 1, src := 6, dst := 5, pseq := 0, path := 63 }
def pkt1 : Pkt := { hdr := hdr1, body := .other [] }

theorem test_wf_ids : wellFormed (.put ⟨511, 15, 2 ^ 48 - 1⟩ none) = true ∧ wellFormed (.put ⟨512, 0, 0⟩ none) = false ∧
    wellFormed (.put ⟨0, 16, 0⟩ none) = false ∧ wellFormed (.put ⟨0, 0, 2 ^ 48⟩ none) = false := by decide +kernel
theorem test_wf_access : wellFormed (.get id1 (some ⟨.error, 4, 2 ^ 57 - 1⟩)) = true ∧ wellFormed (.get id1 (some ⟨.error, 5, 0⟩)) = false ∧
    wellFormed (.get id1 (some ⟨.error, 0, 2 ^ 57⟩)) = false ∧ wellFormed (.allreduce id1 { noEnv with fault := some ⟨.error, 5, 0⟩ }) = false ∧
    wellFormed (.dispatch id1 { members := [], fault := some ⟨.error, 5, 0⟩ }) = false ∧
    wellFormed (.combine id1 { yout := [], fault := some ⟨.error, 5, 0⟩ }) = false := by decide +kernel
theorem test_wf_pages : wellFormed (.doorbell 511 15 0) = true ∧ wellFormed (.doorbell 512 0 0) = false ∧ wellFormed (.fnQring 0 16 0) = false ∧
    wellFormed (.fnCring 512 0) = false ∧ wellFormed (.fnMsiAddr 0 31 0) = true ∧ wellFormed (.fnMsiAddr 0 32 0) = false := by decide +kernel
theorem test_wf_registers : wellFormed (.registerWrite (2 ^ 24 - 8) 0) = true ∧ wellFormed (.registerWrite (2 ^ 24) 0) = false ∧
    wellFormed (.registerWrite 4 0) = false ∧ wellFormed (.clrCnt 41 0) = true ∧ wellFormed (.clrCnt 42 0) = false := by decide +kernel
theorem test_wf_engine : wellFormed (.scan 512 0 none) = false ∧ wellFormed (.fly (.stream 1 63)) = true ∧ wellFormed (.fly (.stream 1 64)) = false ∧
    wellFormed (.autoReform (2 ^ 32)) = false ∧ wellFormed (.stepTimeout ⟨512, 0, 0⟩ []) = false ∧ wellFormed (.partnerAbsent 65536) = false := by decide +kernel
theorem test_wf_links : wellFormed (.routedCell 41 2) = true ∧ wellFormed (.routedCell 41 3) = false ∧ wellFormed (.frameSend 42) = false ∧
    wellFormed (.ident 0 65536 0) = false ∧ wellFormed (.ident 0 0 64) = false ∧ wellFormed (.laneFault 0 12) = true ∧ wellFormed (.laneFault 0 13) = false ∧
    wellFormed (.adaptDone 0 (2 ^ 13)) = false ∧ wellFormed (.sleep 0 4) = false ∧ wellFormed (.prbsChecker 0 13 []) = false := by decide +kernel
theorem test_wf_packets : wellFormed (.data 63 pkt1 .good) = true ∧ wellFormed (.data 42 pkt1 .good) = false ∧
    wellFormed (.hold 0 { pkt1 with hdr := { hdr1 with hop := 16 } }) = false ∧ wellFormed (.signal 0 { pkt1 with hdr := { hdr1 with net := 2 } }) = false ∧
    wellFormed (.release 0 { pkt1 with hdr := { hdr1 with path := 2 ^ 84 } }) = false ∧ wellFormed (.multicast 0 { pkt1 with hdr := { hdr1 with pseq := 16 } }) = false ∧
    wellFormed (.e2eAck 0 { pkt1 with hdr := { hdr1 with dst := 65536 } }) = false := by decide +kernel
theorem test_wf_halyards : wellFormed (.halyardCell 0 32767 0 true (List.replicate 56 0)) = true ∧
    wellFormed (.halyardCell 0 32768 0 true (List.replicate 56 0)) = false ∧ wellFormed (.halyardCell 0 0 0 true []) = false ∧
    wellFormed (.halyardWindow 32768) = false ∧ wellFormed (.reserveTimeout 32768) = false := by decide +kernel
theorem test_wf_dies : wellFormed (.d2dSet 3 0 65535 0 false 0) = true ∧ wellFormed (.d2dSet 4 0 0 0 false 0) = false ∧ wellFormed (.d2dRead 0 0 65536 0) = false ∧
    wellFormed (.watch 0 0 0 0 1024 0 0 0) = false ∧ wellFormed (.watch 0 0 0 0 0 3 0 0) = false ∧ wellFormed (.mwr 0 0 0 (2 ^ 57) [] []) = false ∧
    wellFormed (.pktTx 0 0 0 65536 []) = false ∧ wellFormed (.credit 4 0 0 0) = false := by decide +kernel
theorem test_wf_memory : wellFormed (.readData 15 1023 0 []) = true ∧ wellFormed (.readData 16 0 0 []) = false ∧ wellFormed (.readData 0 1024 0 []) = false ∧
    wellFormed (.translationAnswer 0 256 0 0 12 true) = false ∧ wellFormed (.memTimeout 0 3 0) = false ∧ wellFormed (.haltDone 16) = false := by decide +kernel
theorem test_wf_units : wellFormed (.streamPiece 127) = true ∧ wellFormed (.streamPiece 128) = false ∧ wellFormed (.activityWindow 0 8 false 0) = false ∧
    wellFormed (.thermal 8 0) = false ∧ wellFormed (.thermal 0 256) = false ∧ wellFormed (.seqWatchdog 0 16) = false ∧ wellFormed (.coreWatchdog 3) = false ∧
    wellFormed (.fatal 7) = false ∧ wellFormed (.tapInstruction 256) = false := by decide +kernel

/-! ### The step, the queue, what every row keeps -/

theorem test_StepRunsFront : work.pending = [] ∧ step { work with pending := [.beatStart] } = exec .beatStart work := ⟨rfl, rfl⟩
theorem test_SafeIsKept : Safe { work with pending := [.tapReset] } ∧
    step { work with pending := [.tapReset] } = .next { work with b := { base with test := { base.test with ir := 1, tapActive := false } } } :=
  ⟨⟨by decide, rfl⟩, rfl⟩
theorem test_QueueUntouched : exec .tapReset work = .next { work with b := { base with test := { base.test with ir := 1, tapActive := false } } } := rfl
def scanned : State := st (life (fun l => { l with scanMode := true }) base)
theorem test_ScanModeHolds : (scanned.b.life.scanMode = true ∧ scanned.b.stores = []) ∧ isPinRow .beatStart = false := by decide +kernel
def lost : State := st (life (fun l => { l with fatal := 1 }) base)
theorem test_LostBlockStops : lost.b.life.fatal ≠ 0 ∧ isCtlRow .beatStart = false ∧ isPinRow .beatStart = false := by decide +kernel
def quiescing : State := st (life (fun l => { l with phase := .quiesce }) base)
theorem test_BlockResetHolds : quiescing.b.life.phase ≠ .run ∧ isLiveRow (.scan 1 0 none) = false ∧ isCtlRow (.scan 1 0 none) = false ∧
    isPinRow (.scan 1 0 none) = false := by decide +kernel

/-! ### Register writes -/

theorem test_open : CtlOpen work ∧ PageOpen work 1 ∧ work.b.stores = [] := ⟨⟨rfl, rfl⟩, ⟨rfl, by decide⟩, rfl⟩
theorem test_DoorbellIsCaptured : (getFn work.b 1).enabled = true ∧ 0 < (getFn work.b 1).nq ∧ (getQ work.b 1 0).state = 1 ∧
    exec (.doorbell 1 0 7) work = .next { work with b := modQ base 1 0 fun x => { x with scanPending := true } } := ⟨by decide, by decide, by decide, rfl⟩
theorem test_a_doorbell_beyond_the_queue_count_is_not_captured : ¬ 2 < (getFn work.b 1).nq ∧ exec (.doorbell 1 2 7) work = .next work := ⟨by decide, rfl⟩
theorem test_QueueRingOpens : 1 < (getFn work.b 1).nq ∧ (getQ work.b 1 1).state ∉ [1, 2, 4] ∧ (getFn work.b 1).cqEn = true ∧
    [4, 16].all (fun g => (getQ (after (.fnQring 1 1 (BitVec.ofNat 64 (mk [(63, 63, 1), (62, 61, 2), (56, 6, 0x800), (4, 0, g)]))) work).b 1 1).state == 1) = true ∧
    [3, 17].all (fun g => (getQ (after (.fnQring 1 1 (BitVec.ofNat 64 (mk [(63, 63, 1), (56, 6, 0x800), (4, 0, g)]))) work).b 1 1).state == 0) = true := by decide +kernel
theorem test_FunctionRingsAndHeads : (getFn work.b 1).full = false ∧ (getFn (fnW fun n => { n with full := true }).b 1).full = true ∧
    (getFn work.b 1).eqEn = false ∧ (getFn work.b 1).spEn = false ∧ (getFn (fnW fun n => { n with cqEn := false }).b 1).cqEn = false := by decide +kernel
theorem test_ring_sizes_at_their_limits :
    ([(8, 8), (20, 20), (7, 0), (21, 0)].all fun x =>
      (getFn (after (.fnCring 1 (BitVec.ofNat 64 (2 ^ 63 + x.1))) (fnW fun n => { n with cqEn := false, cqLog2 := 0 })).b 1).cqLog2 == x.2) = true ∧
    ([(8, 8), (16, 16), (7, 0), (17, 0)].all fun x => (getFn (after (.fnEqring 1 (BitVec.ofNat 64 (2 ^ 63 + x.1))) work).b 1).eqLog2 == x.2) = true ∧
    ([(20, 20), (40, 40), (19, 0), (41, 0)].all fun x => (getFn (after (.fnSpill 1 (BitVec.ofNat 64 (2 ^ 63 + x.1))) work).b 1).spLog2 == x.2) = true := by decide +kernel
/-- R796: PRODUCED at 2^32 + 2, CONSUMED at 2^32 − 1; a write of 1 lies ahead of CONSUMED across the wrap, and one of 3 lies beyond PRODUCED. -/
theorem test_heads_wrap :
    let s := fnW fun n => { n with produced := 2 ^ 32 + 2, consumed := 2 ^ 32 - 1, eqProduced := 2 ^ 32 + 2, eqConsumed := 2 ^ 32 - 1 }
    (getFn (after (.fnChead 1 1) s).b 1).consumed = 2 ^ 32 + 1 ∧ (getFn (after (.fnChead 1 3) s).b 1).consumed = 2 ^ 32 - 1 ∧
    (getFn (after (.fnEqhead 1 2) s).b 1).eqConsumed = 2 ^ 32 + 2 ∧ (getFn (after (.fnEqhead 1 3) s).b 1).eqConsumed = 2 ^ 32 - 1 := by decide +kernel
theorem test_VectorsAreSet : tb (0 : Word).toNat 63 = false ∧ tb (getFn work.b 1).irqCfg.toNat 63 = false ∧ tb (2 ^ 63 : Word).toNat 63 = true ∧
    (tget msi0 (getFn work.b 1).msi 31).pend = false ∧ 31 < 32 ∧ portFrom work.b work.b.ctl.msiPort = some 0 ∧ work.b.life.fatal = 0 ∧
    (tget msi0 (getFn (fnW fun n => { n with msi := [(0, { mask := true, addr := 0, pend := true, data := 7 })] }).b 1).msi 0).pend = true := by decide +kernel
/-- Function 1 maps virtual page 0 to block 3, whose pennant 0 holds 4; it has stream 2 ACTIVE. -/
def pen1 : Pen := { pen0 with value := 4, mapped := true, fn := 1 }
def strm : Machine.Stream :=
  { stream0 with valid := true, state := 1, slotLog2 := 12, nslots := 2, flyPen := 0, creditPen := 1, len0 := 4096, counts := [1, 1, 1, 1], strides := [0, 0, 0, 0]
                 srcBase := 0x80000, dstBase := 0x90000, opcode := 0x40, tag := 3, drainNs := 1 }
def mapped : Blk := { base with pens := [(768, pen1)], t := { base.t with dir := [(256, 2 ^ 15 + 3)], stream := [(66, strm)] } }
theorem test_SelectorsTakeSnapshots : penIdx mapped 1 0 = some 768 ∧ (getPen mapped 768).mapped = true ∧ penIdx mapped 1 0x100 = none ∧
    (getStr mapped 1 2).valid = true ∧ (getStr mapped 1 3).valid = false := by decide +kernel
theorem test_AdminIsEnabled : tb work.b.ctl.admin.toNat 63 = false ∧ work.b.life.fwVersion ≠ 0 ∧ work.b.life.fatal = 0 ∧
    ([19, 20, 40, 41].all fun g => (getFn (after (.blkAdmin (BitVec.ofNat 64 (mk [(63, 63, 1), (5, 0, g)]))) (st { base with fns := [] })).b 0).enabled ==
      (20 ≤ g && g ≤ 40 : Bool)) = true := by decide +kernel
theorem test_BlockResetBegins : work.b.life.fatal = 0 ∧ work.b.life.phase = .run ∧
    (after (.blkReset 0x80000000000000A5#64) work).b.life.phase = .quiesce ∧ (after (.blkReset 0x80000000000000A4#64) work).b.life.phase = .run := by decide +kernel
/-- The last unit of each kind is captured and the one behind it is not (R613). -/
theorem test_FenceIsCaptured :
    ([(0, 127), (1, 7), (2, 41), (3, 15), (4, 3), (5, 511), (5, 1)].all fun x =>
      (after (.fltFence (BitVec.ofNat 64 (mk [(63, 63, 1), (62, 60, x.1), (8, 0, x.2)]))) work).b.ctl.fences == [{ kind := x.1, index := x.2 }]) = true ∧
    ([(0, 128), (1, 8), (2, 42), (3, 16), (4, 4), (5, 0), (6, 1), (7, 1)].all fun x =>
      (after (.fltFence (BitVec.ofNat 64 (mk [(63, 63, 1), (62, 60, x.1), (8, 0, x.2)]))) work).b.ctl.fences == []) = true := by decide +kernel
theorem test_BeatRegistersAreSet : work.b.beat.run = false ∧ (after (.beatCfg 0x8000000000000000#64) work).b.beat.period = 1000 ∧
    (after (.beatCfg 0x8000000000000000#64) work).b.beat.run = true ∧
    (after (.beatCfg 0#64) (st { base with beat := { base.beat with run := true } })).b.beat.period = 0x4E20 := by decide +kernel
theorem test_IdentityIsLocked : tb work.b.ctl.fabSelf.toNat 32 = true ∧ work.b.sec.fs ≠ none ∧ tb State.reset.b.ctl.fabSelf.toNat 32 = false ∧
    { work.b.sec with fs := none }.fs = none ∧ tb (2 ^ 63 : Word).toNat 63 = true := by decide +kernel
/-- A DRS4-7S part without physical sector 0 lacks its home ports. -/
def part7 : State := st { base with part := { disabled := some 0, repaired := [] } }
theorem test_LinkCountersClear : portExists part7.b 0 = false ∧ portExists work.b 41 = true ∧ (getP work.b 41).enable = false := by decide +kernel
def testing : State := st { base with ports := base.ports.modify 2 fun p => { p with prbsCtl := 0x8FFF800000000000#64, prbsAct := true } }
theorem test_PatternTestRuns : portExists work.b 2 = true ∧ tb (getP work.b 2).prbsCtl.toNat 63 = false ∧ (getP work.b 2).enable = false ∧
    tb (getP testing.b 2).prbsCtl.toNat 63 = true ∧
    (getP (st { base with ports := base.ports.modify 2 fun p => { p with enable := true } }).b 2).enable = true := by decide +kernel
theorem test_RegisterWrites : exec (.registerWrite 4 7) work = .next work ∧ exec (.registerWrite 0x240010 7) work = .next work ∧
    exec (.registerWrite 0x3FFFF8 7) work = .next work ∧ exec (.registerWrite 0x600000 7) work = .next work ∧
    exec (.registerWrite (0x100000 + 0x1000 * 41) 7) work = exec (.clrCnt 41 7) work ∧
    exec (.registerWrite (0x400000 + 0x1000 * 511 + 8 * 15) 7) work = exec (.doorbell 511 15 7) work := ⟨rfl, rfl, rfl, rfl, rfl, rfl⟩
/-- A reserved byte of a PENNANT command that is not zero (R16, R551). -/
theorem test_a_malformed_command_faults :
    (match exec (.accept id1) (st { mapped with cmds := [cmd id1 (entries 1 0x34 0 0 [(4, 4, 1)]) .taken] }) with
      | .fault f => decide (f = .malformedCommand id1) | _ => false) = true := by decide +kernel

/-! ### The command engine -/

/-- Group 7 in entry 3: rank 0 is function 1 here, rank 1 function 1 of endpoint 6, which the route over port 2 reaches. -/
def grp : Group :=
  { group0 with valid := true, state := 1, n := 2, gen := 1, gid := 7, timeout := 10, minMembers := 1, digest := 77, locs := [(1, 0)] }
def route6 : Nat := mk [(255, 255, 1), (5, 0, 2), (11, 6, 63)]
def tabs (g : Group) : Tables :=
  { mapped.t with group := [(3, g)], roster := [(0, mk [(31, 16, 5), (8, 0, 1)]), (1, mk [(31, 16, 6), (8, 0, 1)])], route := [(6, route6)] }
def upPort : Port → Port := fun p => { p with
  enable := true, state := 2, partnerEp := 6, phyRstN := true, phyRdy := true, txei := 0x1000, txActive := 0xFFF, rxActive := 0xFFF, phase := .done, trained := true }
def grouped (g : Group) : Blk := { mapped with t := tabs g, ports := mapped.ports.modify 2 upPort }
def net : Blk := grouped grp
def withC (b : Blk) (cs : List Cmd) : State := st { b with cmds := cs }

def setRaw : List Byte := entries 1 0x34 7 0 [(2, 2, 0), (8, 8, 9)]
def waitRaw (v : Nat) : List Byte := entries 1 0x34 7 0 [(0, 1, 2), (2, 2, 0), (8, 8, v)]
/-- A PENNANT SET behind a wait clause on a virtual ID, form and value (R557). -/
def clauseRaw (vid v : Nat) : List Byte := entries 1 0x34 7 0x20 [(2, 2, 0), (8, 8, 9), (24, 2, vid), (32, 8, v)]
def barrierRaw (gid gen : Nat) : List Byte := entries 1 0x19 7 0 [(0, 4, gid), (4, 4, gen), (8, 6, 5)]
def p2pRaw (op flags len : Nat) : List Byte :=
  entries 1 op 7 flags [(0, 4, 7), (4, 4, 1), (8, 6, 2 ^ 47 + 5), (18, 2, 1), (24, 8, 0x1000), (32, 8, 0x2000), (40, 4, len)]

def owning : State :=
  { st { mapped with fns := [(1, { fn1 with queues := [(0, { queue0 with state := 1, base := 0x10000, log2 := 4, scanPending := true })] })] } with
    mem := putBytes [] 0x10000 setRaw }
theorem test_ScanTakesPackets : scanDue owning.b 1 0 = true ∧ scanDue work.b 1 0 = false ∧
    packetAt (fun i => fnRead owning.b owning.mem 1 0 (slotAddr (getQ owning.b 1 0) ((getQ owning.b 1 0).scanSlot + i)) 64) 0 = some setRaw ∧
    mayTake owning.b 1 0 1 = true ∧ mayTake { owning.b with fns := [(1, { getFn owning.b 1 with head := 20000 })] } 1 0 1 = false ∧
    tb (leAt (fnRead owning.b [] 1 0 0x10000 64) 0 8) 63 = false := by decide +kernel
theorem test_a_scan_takes_its_packet : ((after (.scan 1 0 none) owning).b.cmds.map fun c => (c.id, decide (c.raw = setRaw), c.lsn)) = [(id1, true, 1)] := by decide +kernel

def takenSet : Cmd := cmd id1 setRaw .taken
def shutting : Blk := modQ mapped 1 0 fun x => { x with state := 2 }
theorem test_AcceptanceDecides : acceptable (withC mapped [takenSet]).b id1 = some takenSet ∧ takenSet.waitOn = none ∧
    firstStatus (withC mapped [takenSet]).b takenSet = none ∧ malformedAtAccept (withC mapped [takenSet]).b takenSet = false ∧
    liveLines (withC mapped [takenSet]).b 1 + 32 ≤ logFree (withC mapped [takenSet]).b 1 ∧ (getFn mapped 1).spill = [] ∧ (getQ mapped 1 0).state = 1 ∧
    (getQ shutting 1 0).state = 2 ∧ heldAbort (withC mapped [takenSet]).b takenSet = none := by decide +kernel
/-- A PENNANT command without START, on an unmapped pennant, and a BARRIER whose abort notice is held (R60, R127, R792). -/
theorem test_acceptance_statuses :
    firstStatus mapped (cmd id1 (entries 1 0x34 7 0 [(2, 2, 0x100)]) .taken) = some 0x31 ∧ firstStatus mapped (cmd id1 (entries 1 0x34 7 0 [(0, 1, 3)]) .taken) = some 0x61 ∧
    firstStatus net (cmd id1 (barrierRaw 7 1) .taken) = none ∧
    heldAbort { net with fab := { net.fab with aborts := [(7, 1, 5, 0x11)] } } (cmd id1 (barrierRaw 7 1) .taken) = some 0x11 := by decide +kernel

def headOf (b : Blk) (raw : List Byte) : Bool := (headCmd (withC b [cmd id1 raw .accepted]).b id1).isSome
theorem test_DispatchStartsCommands_waits :
    headOf mapped setRaw = true ∧ headOf mapped (waitRaw 3) = true ∧ headOf mapped (clauseRaw 0 4) = true ∧ headOf mapped (clauseRaw 0x100 4) = true ∧
    flWait (cmd id1 (clauseRaw 0 4) .accepted) = true ∧ wcPen (cmd id1 (clauseRaw 0x100 4) .accepted) = 0x100 ∧
    condHolds 0 (wcValue (cmd id1 (clauseRaw 0 4) .accepted)) 0 (getPen mapped 768).value.toNat = true ∧
    condHolds 0 (wcValue (cmd id1 (clauseRaw 0 5) .accepted)) 0 (getPen mapped 768).value.toNat = false ∧
    opOf (cmd id1 (waitRaw 3) .accepted) = 0x34 ∧ fPenOp (cmd id1 (waitRaw 3) .accepted) = 2 ∧ fPenOp (cmd id1 setRaw .accepted) = 0 := by decide +kernel
def getting : Cmd := cmd ⟨1, 1, 0⟩ (p2pRaw 0x31 0 64) .running
def bar (gen : Nat) (ph : Phase) : Cmd := cmd id1 (barrierRaw 7 gen) ph
theorem test_DispatchStartsCommands_generations :
    startsMalformed (withC net [getting, cmd id1 (p2pRaw 0x31 0 64) .accepted]).b (cmd id1 (p2pRaw 0x31 0 64) .accepted) = true ∧
    startsMalformed (withC net [bar 1 .accepted]).b (bar 1 .accepted) = false ∧ headOf net (barrierRaw 7 1) = true ∧
    namesGroup (bar 2 .accepted) = true ∧ findGroup net 7 = some (3, grp) ∧ grp.gen < fGen (bar 2 .accepted) ∧ ¬ grp.gen < fGen (bar 1 .accepted) ∧
    cmdGenStatus net (bar 0 .accepted) = some 0x22 ∧ cmdGenStatus net (bar 1 .accepted) = none ∧ usesHoist (bar 1 .accepted) = true ∧
    cmdGenStatus net (cmd id1 setRaw .accepted) = none ∧ usesHoist (cmd id1 setRaw .accepted) = false ∧
    findHoist net (keyOf net [] (bar 1 .accepted)) = none := by decide +kernel
/-- The hoist of the barrier in shared handle 65,536. -/
def barHoist : Hoist := { keyOf net [] (bar 1 .running) with valid := true, alg := 1, chunkLog2 := 16, stagingNeed := 1, window := 1, bound := 1 }
def hoisted : Blk := { net with t := { net.t with hoist := [(65536, barHoist)] } }
theorem test_DispatchStartsCommands_hoists :
    findHoist hoisted (keyOf hoisted [] (bar 1 .accepted)) = some 65536 ∧ headOf hoisted (barrierRaw 7 1) = true ∧
    (getFn hoisted 1).stagingUsed + (stagingFor (getHoist hoisted 65536) (getFn hoisted 1).stagingQuota).1 ≤ (getFn hoisted 1).stagingQuota * 65536 ∧
    ¬ (getFn hoisted 1).stagingQuota * 65536 + (stagingFor (getHoist hoisted 65536) (getFn hoisted 1).stagingQuota).1 ≤ (getFn hoisted 1).stagingQuota * 65536 ∧
    ((after (.commandDispatch id1) (withC hoisted [bar 1 .accepted])).b.cmds.map fun c => (c.phase, c.handle)) = [(.running, some 65536)] := by decide +kernel

def waitingBar (gen : Nat) : Cmd := { bar gen .accepted with headOther := true }
def agRaw : List Byte := entries 1 0x12 7 0 [(0, 4, 7), (4, 4, 1), (8, 6, 5), (14, 1, 2), (24, 8, 16), (32, 8, 0x1000), (40, 8, 0x8000)]
theorem test_HeadsThatWait :
    headCmd (withC net [waitingBar 1]).b id1 = some (waitingBar 1) ∧ (waitingBar 1).headOther = true ∧ usesHoist (waitingBar 1) = true ∧
    cmdGenStatus net (waitingBar 1) = none ∧ grp.gen = fGen (waitingBar 1) ∧ findHoist net (keyOf net [] (waitingBar 1)) = none ∧ net.compiles = [] ∧
    halvingOk 0x19 0 2 = true ∧ halvingOk 0x12 (keyOf net [] (cmd id1 agRaw .accepted)).pin 3 = false ∧
    (match installFor net 3 (keyOf net [] (waitingBar 1)) 1 false with | .inr x => x.1 == 65536 | .inl _ => false) = true ∧
    grp.gen < fGen (waitingBar 2) ∧ grp.timeout ≠ 0 ∧ ¬ (waitingBar 2).waitBeat + grp.timeout ≤ net.beat.count ∧
    (waitingBar 2).waitBeat + grp.timeout ≤ { net.beat with count := 10 }.count ∧ fnLive net 1 = true := by decide +kernel
/-- Every roster slot is taken. -/
def fullRoster : Blk :=
  { net with t := { net.t with group := [(3, grp), (4, { grp with gid := 8, base := 2, n := 1048574 })] } }
theorem test_a_hierarchical_hoist_needs_roster_room : (match installFor fullRoster 3 { keyOf net [] (cmd id1 agRaw .accepted) with pin := 5, sizeClass := 30 } 1 false with
    | .inl st => st != 0 | .inr _ => false) = true := by decide +kernel

def runBar : Cmd := bar 1 .running
def late : Blk := { net with beat := { net.beat with count := 10 } }
theorem test_SlowMembersBreakGroups :
    findCmd (withC late [runBar]).b id1 = some runBar ∧ hasPeers runBar = true ∧ runBar.effectDone = false ∧ findGroup late (fGid runBar) = some (3, grp) ∧
    tget group0 late.t.group 3 = grp ∧ grp.gen = fGen runBar ∧ grp.state = 1 ∧ grp.timeout ≠ 0 ∧ runBar.dispBeat + grp.timeout ≤ late.beat.count ∧
    ([0, 1].filter fun r => decide (r < grp.n) && slotEp (tget 0 late.t.roster (grp.base + r)) != selfEp late) = [1] ∧
    ([0].filter fun r => decide (r < grp.n) && slotEp (tget 0 late.t.roster (grp.base + r)) != selfEp late) = [] ∧
    net.beat.count < runBar.dispBeat + grp.timeout := by decide +kernel
theorem test_a_step_timeout_breaks_the_group :
    (let g := tget group0 (after (.stepTimeout id1 [0, 1]) (withC late [runBar])).b.t.group 3; (g.state, g.brokenCause, g.brokenRank, g.events)) =
      (2, 2, 1, [(2, 1, 10)]) := by decide +kernel

/-- Broken at beat 7 by the loss of rank 1, in the dip window of beat 10. -/
def brokenGrp : Group := { grp with state := 2, autoReform := 1, events := [(1, 1, 7)], brokenCause := 1, brokenRank := 1 }
def broken (g : Group) : Blk := { grouped g with beat := { net.beat with count := 10, inDip := true } }
theorem test_ReformationFallsDue :
    findGroup (broken brokenGrp) 7 = some (3, brokenGrp) ∧ 7 ∉ (broken brokenGrp).due.reforms ∧ brokenGrp.events ≠ [] ∧ (broken brokenGrp).beat.inDip = true ∧
    7 + 3 ≤ (broken brokenGrp).beat.count ∧ permits brokenGrp.autoReform 1 = true ∧ permits 1 2 = false ∧ permits 2 2 = true ∧ permits 2 3 = false ∧
    ((rosterOf (broken brokenGrp) brokenGrp).zipIdx.filter fun x => !([1] : List Nat).contains x.2).length = 1 ∧
    (after (.autoReform 7) (st (broken brokenGrp))).b.due.reforms = [7] ∧
    (after (.autoReform 7) (st (broken { brokenGrp with autoReform := 0 }))).b.due.reforms = [] ∧
    (after (.autoReform 7) (st { broken brokenGrp with beat := { net.beat with count := 9, inDip := true } })).b.due.reforms = [] := by decide +kernel

/-- A BARRIER with FLY on pennant 0. -/
def flying : Cmd := { cmd id1 (entries 1 0x19 7 4 [(0, 4, 7), (4, 4, 1), (8, 6, 5), (14, 1, 16), (20, 2, 0)]) .running with effectDone := true, chunks := 1, ready := 1 }
theorem test_FliesAreRaised :
    findCmd (withC net [flying]).b id1 = some flying ∧ flFly flying = true ∧ fFlyMode flying = 1 ∧ flying.flies < flying.ready ∧
    allDurable (withC net [flying]).b 1 = true ∧ penIdx net 1 (fFlyPen flying) = some 768 ∧
    slotReady (withC net []).b (getStr mapped 1 2) = false ∧ slotReady mapped { strm with delivered := 4096 } = true ∧
    penIdx mapped 1 strm.flyPen = some 768 := by decide +kernel
theorem test_a_fly_raises_its_pennant : (getPen (after (.fly (.cmd id1)) (withC net [flying])).b 768).value = 5 := by decide +kernel

def endedSet : Cmd := { cmd id1 setRaw .ended with result := 9 }
theorem test_CompletionsAreWritten :
    mayComplete (withC mapped [endedSet]).b endedSet = true ∧ mayComplete (withC mapped [takenSet]).b takenSet = false ∧ (getFn mapped 1).cqEn = true ∧
    liveLines (withC mapped [endedSet]).b 1 + 33 ≤ logFree (withC mapped [endedSet]).b 1 ∧ (getFn mapped 1).logBase % 64 = 0 ∧
    (getFn mapped 1).cqBase % 64 = 0 ∧ (getFn mapped 1).ringWait = [] ∧ (getFn mapped 1).produced - (getFn mapped 1).consumed < 2 ^ (getFn mapped 1).cqLog2 ∧
    (mapped.fns.all fun e => !e.2.disabling && e.2.enableHeld.isNone && e.2.queues.all fun q => q.2.state != 2) = true := by decide +kernel
def fullRing : Blk := modFn mapped 1 fun n => { n with produced := 256, full := true }
theorem test_a_full_ring_keeps_its_record :
    2 ^ (getFn fullRing 1).cqLog2 ≤ (getFn fullRing 1).produced - (getFn fullRing 1).consumed ∧ mayComplete (withC fullRing [endedSet]).b endedSet = true ∧
    ((getFn (after (.completion id1) (withC fullRing [endedSet])).b 1).ringWait.map (·.cmd)) = [some id1] := by decide +kernel
/-- The record of a PENNANT SET (R520, R521): PHASE 1 in the first pass, opcode, TAG, then RESULT. -/
theorem test_a_completion_record :
    readMem (after (.completion id1) (withC mapped [endedSet])).mem 0x40000 16 = leBytes 0x8034000000000007 8 ++ leBytes 9 8 := by decide +kernel

def delayed : Blk := modFn mapped 1 fun n => { n with irqCfg := 0x8000000100010000#64, produced := 3, irqA := 2 }
theorem test_CqDelaySignals : fnLive delayed 1 = true ∧ tb (getFn delayed 1).irqCfg.toNat 63 = true ∧ (getFn delayed 1).irqA < (getFn delayed 1).produced ∧
    fld (getFn delayed 1).irqCfg.toNat 31 16 ≠ 0 ∧ (tget msi0 (getFn delayed 1).msi 0).mask = false ∧ portFrom delayed delayed.ctl.msiPort = some 0 ∧
    (tget msi0 (getFn (modFn delayed 1 fun n => { n with msi := [] }) 1).msi 0).mask = true ∧
    ((getM (after (.cqDelay 1) (st delayed)).b 0).wrWait.map (·.use)) = [.msi 1 0] ∧ tb (getFn work.b 1).irqCfg.toNat 63 = false := by decide +kernel

/-! ### Commands that move and combine data -/

def collRaw (op fmt oper : Nat) : List Byte :=
  entries 1 op 7 0 [(0, 4, 7), (4, 4, 1), (8, 6, 5), (15, 1, fmt + 16 * oper), (24, 8, 1), (32, 8, 0x1000), (40, 8, 0x8000)]
def bound (c : Cmd) : Cmd := { c with handle := some 65536 }
/-- SRC of this member holds 3.0, that of rank 1 holds 1.5 (FP32). -/
def contrib : CollEnv := { xs := [[], leBytes 0x3FC00000 4], counts := [], fault := none }
def collS (op oper : Nat) : State :=
  { withC hoisted [bound (cmd id1 (collRaw op 0 oper) .running)] with mem := putBytes [] 0x1000 (leBytes 0x40400000 4) }
theorem test_CollectivesComplete :
    ([(0x10, 0), (0x11, 0), (0x12, 0), (0x13, 0), (0x14, 0), (0x15, 0), (0x16, 0), (0x17, 0), (0x18, 0), (0x19, 0), (0x1A, 9)].all fun x =>
      let s := collS x.1 x.2
      (findCmd s.b id1).any fun c => decide (c.phase = .running) && opOf c == x.1 && fnLive s.b 1 && !c.effectDone && c.applied.isNone && c.waitOn.isNone &&
        decide (findGroup s.b (fGid c) = some (3, grp)) && decide (c.handle = some 65536)) = true ∧
    (collHere (collS 0x10 0).b (collS 0x10 0).mem (bound (cmd id1 (collRaw 0x10 0 0) .running)) grp barHoist contrib).fail = none ∧
    (collHere (collS 0x10 0).b (collS 0x10 0).mem (bound (cmd id1 (collRaw 0x10 0 0) .running)) grp barHoist contrib).satOwn = false ∧
    (collHere (collS 0x18 0).b [] (bound (cmd id1 (collRaw 0x18 0 0) .running)) grp barHoist { contrib with counts := [[], [1, 0]] }).fail = some 0x31 := by
  decide +kernel
theorem test_an_allreduce_adds : readMem (after (.allreduce id1 contrib) (collS 0x10 0)).mem 0x8000 4 = leBytes 0x40900000 4 := by decide +kernel
theorem test_an_allgather_takes_rank_order : readMem (after (.allgather id1 contrib) (collS 0x12 0)).mem 0x8000 8 = leBytes 0x40400000 4 ++ leBytes 0x3FC00000 4 := by
  decide +kernel
theorem test_MovesCopyBits : isScaled 0 = false ∧ isScaled 8 = false := by decide +kernel

theorem test_PointToPointSends :
    ([0x30, 0x31, 0x32, 0x33].all fun op => (findCmd (withC net [cmd id1 (p2pRaw op 0 64) .running]).b id1).any fun c =>
      opOf c == op && fnLive net 1 && !c.effectDone && c.applied.isNone && c.chunks == 0 && !flRfly c) = true ∧
    flRfly (cmd id1 (p2pRaw 0x32 0x40 64) .running) = true ∧
    ((getDst (after (.put id1 none) (withC net [cmd id1 (p2pRaw 0x30 0 64) .running])).b 6).unacked.map fun u => (preOfPkt u.pkt).type) = [1] ∧
    ((getDst (after (.putSignal id1 none) (withC net [cmd id1 (p2pRaw 0x32 0 64) .running])).b 6).unacked.map fun u => (preOfPkt u.pkt).type) = [1, 2] := by
  decide +kernel

theorem test_PennantsOperate :
    (findCmd (withC mapped [cmd id1 setRaw .running]).b id1).isSome = true ∧ fPenOp (cmd id1 setRaw .running) = 0 ∧
    fPenOp (cmd id1 (entries 1 0x34 7 0 [(0, 1, 1), (8, 8, 9)]) .running) = 1 ∧ allDurable mapped 1 = true ∧
    penIdx mapped 1 (fPen (cmd id1 setRaw .running)) = some 768 ∧ penIdx mapped 1 0x100 = none ∧ headOf mapped (waitRaw 4) = true ∧
    condHolds 0 4 0 (getPen mapped 768).value.toNat = true ∧ condHolds 0 5 0 (getPen mapped 768).value.toNat = false := by decide +kernel
theorem test_pennant_operations :
    (getPen (after (.pennantSet id1) (withC mapped [cmd id1 setRaw .running])).b 768).value = 9 ∧
    (getPen (after (.pennantAdd id1) (withC mapped [cmd id1 (entries 1 0x34 7 0 [(0, 1, 1), (8, 8, 9)]) .running])).b 768).value = 13 ∧
    (getPen (after (.pennantWait id1) (withC mapped [cmd id1 (waitRaw 5) .accepted])).b 768).waiters = 1 := by decide +kernel

def openRaw (op n : Nat) : List Byte := entries 2 op 7 0 [(14, 1, n), (15, 1, if op = 0x41 then 2 else 0), (16, 1, 12), (18, 2, 2), (20, 2, 0), (22, 2, 1),
  (24, 4, 4096), (28, 4, 1), (32, 8, 0x80000), (40, 8, 0x90000), (48, 2, 1), (50, 2, 1), (52, 2, 1), (54, 2, 1)]
def closeRaw (op n ab : Nat) : List Byte := entries 1 op 7 0 [(0, 1, n), (1, 1, ab)]
def withStr (e : Machine.Stream) : Blk := { mapped with t := { mapped.t with stream := [(66, e)] } }
def noStream : Blk := { mapped with t := { mapped.t with stream := [] } }
theorem test_StreamsOpenAndClose :
    openOk noStream (cmd id1 (openRaw 0x40 0) .running) = true ∧ ringOverlap noStream (cmd id1 (openRaw 0x40 0) .running) = false ∧
    penMapped noStream 1 0 = true ∧ penMapped noStream 1 1 = true ∧ penMapped noStream 1 0x100 = false ∧
    openOk mapped (cmd id1 (openRaw 0x40 2) .running) = false ∧ openOk mapped (cmd id1 (openRaw 0x41 63) .running) = true ∧
    ringOverlap mapped (cmd id1 (openRaw 0x41 63) .running) = true ∧
    ringOverlap (withStr { strm with dstBase := 0xA0000 }) (cmd id1 (openRaw 0x41 63) .running) = false ∧
    fStream (cmd id1 (closeRaw 0x42 2 0) .running) = 2 ∧ fCloseAbort (cmd id1 (closeRaw 0x43 2 0) .running) = false ∧
    fCloseAbort (cmd id1 (closeRaw 0x43 2 1) .running) = true ∧ (getStr (withStr { strm with state := 2 }) 1 2).state = 2 ∧
    (getStr (withStr { strm with state := 3 }) 1 2).valid = true ∧ (getStr mapped 1 2).state = 1 ∧ (getStr mapped 1 3).valid = false ∧
    twf stream0 mapped.t.stream = true := by decide +kernel
theorem test_streams_open_resume_and_close :
    (let e := getStr (after (.streamOpen id1) (withC noStream [cmd id1 (openRaw 0x40 63) .running])).b 1 63; (e.valid, e.state, e.dstBase)) = (true, 1, 0x90000) ∧
    (getStr (after (.stageAhead id1) (withC (withStr { strm with dstBase := 0xA0000 }) [cmd id1 (openRaw 0x41 63) .running])).b 1 63).follows = 2 ∧
    (getStr (after (.streamResume id1) (withC (withStr { strm with state := 2 }) [cmd id1 (closeRaw 0x42 2 0) .running])).b 1 2).state = 1 ∧
    (getStr (after (.streamCloseFinish id1) (withC (withStr { strm with state := 3 }) [cmd id1 (closeRaw 0x43 2 0) .running])).b 1 2).valid = false ∧
    (getStr (after (.streamCloseAbort id1) (withC mapped [cmd id1 (closeRaw 0x43 2 1) .running])).b 1 2).valid = false := by decide +kernel

/-- Stream 2 with its credit given and its translations kept. -/
def moving : Blk :=
  { withStr { strm with flyPen := 0, creditPen := 1 } with
    pens := [(768, pen1), (769, { pen1 with value := 8, vid := 1 })]
    xlats := [{ ctx := 0, vpage := 0, ppage := 0, size := 30, wr := true }] }
theorem test_PiecesAreMoved :
    tileUp moving 127 = true ∧ nextStream moving = some (66, strm) ∧ nextStream noStream = none ∧ getStr moving 1 2 = strm ∧ strm.sharded = false ∧
    missingXl moving 1 (pieceNeeds strm 0 (pieceLen moving 1 strm) true) = [] ∧
    (missingXl { moving with xlats := [] } 1 (pieceNeeds strm 0 (pieceLen moving 1 strm) true)).isEmpty = false ∧
    (getStr (after (.streamPiece 127) (st moving)).b 1 2).delivered ≠ 0 := by decide +kernel
/-- The second half of a SHARDED stream belongs to rank 1. -/
def shard : Machine.Stream := { strm with sharded := true, gid := 7, gen := 1, cseq := 5, rank := 0, delivered := 4096, opcode := 0x40 }
def sharded : Blk := { moving with t := { tabs grp with stream := [(66, shard)] }, ports := net.ports }
theorem test_a_remote_piece_is_asked_for :
    nextStream sharded = some (66, shard) ∧ ¬ shard.delivered / max 1 (strZ shard) = shard.rank ∧
    missingXl sharded 1 (pieceNeeds shard shard.delivered (min (pieceLen sharded 1 shard) (strZ shard - shard.delivered % max 1 (strZ shard))) false) = [] ∧
    (getStr (after (.streamPiece 127) (st sharded)).b 1 2).staged ≠ 0 := by decide +kernel

/-! ### Queues, functions, management -/

def id0 : CmdId := ⟨0, 0, 0⟩
/-- An admin command of function 0, running, alone or beside others. -/
def adm (op : Nat) (fs : List (Nat × Nat × Nat)) : Cmd := cmd id0 (entries (cdiv (lpOf (cmd id0 (entries 1 op 7 0 []) .running)) 56) op 7 0 fs) .running
def runs0 (b : Blk) (c : Cmd) (op : Nat) : Bool :=
  (findCmd b c.id).any fun d => decide (d = c) && decide (d.phase = .running) && opOf d == op && fnLive b d.id.f && !d.effectDone && d.applied.isNone && d.waitOn.isNone
def takes (b : Blk) (c : Cmd) (op : Nat) : Bool :=
  (findCmd b c.id).any fun d => decide (d = c) && decide (d.phase = .accepted) && opOf d == op && fnLive b d.id.f && d.waitOn.isNone

/-- A STRIKE of queue 1 of function 1 against TAG 7 on its queue 0. -/
def striker : Cmd := cmd ⟨1, 1, 0⟩ (entries 1 0x50 8 0 [(0, 2, 1), (2, 1, 0), (4, 4, 7)]) .accepted
def struckOf (c : Cmd) : State := withC net [c, striker]
theorem test_QueuesAreControlled_strike :
    takes (struckOf runBar).b striker 0x50 = true ∧ takes (withC net [striker]).b striker 0x50 = true ∧
    ([runBar, bar 1 .ended].all fun d => (struckOf d).b.cmds.find? (fun d => d.id.f == fFn striker && d.id.q == fQ striker && tagOf d == fTtag striker &&
      !decide (d.id = striker.id) && !decide (d.phase = .taken)) == some d && findCmd (struckOf d).b d.id == some d) = true ∧
    runBar.phase ≠ .ended ∧ tooLate (struckOf runBar).b runBar = false ∧ (getFn net 1).fenced = false ∧
    ((after (.strike striker.id) (struckOf runBar)).b.cmds.map fun c => (c.status, c.result)) = [(0x11, 0), (0, 1)] ∧
    ((after (.strike striker.id) (struckOf (bar 1 .ended))).b.cmds.map fun c => (c.status, c.result)) = [(0, 0), (0, 2)] ∧
    ((after (.strike striker.id) (withC net [striker])).b.cmds.map fun c => (c.status, c.result)) = [(0, 0)] := by decide +kernel
def stopper (q : Nat) : Cmd := cmd ⟨1, 1, 0⟩ (entries 1 0x51 8 0 [(0, 2, 1), (2, 1, q)]) .accepted
theorem test_QueuesAreControlled_shutdown :
    takes (withC net [stopper 1]).b (stopper 1) 0x51 = true ∧ (getQ net 1 1).state = 0 ∧ (getQ net 1 0).state = 1 ∧ (getFn net 1).enabled = true ∧
    endable (withC net [runBar, stopper 0]).b 1 0 (stopper 0).id = [runBar] ∧
    ((after (.queueShutdown (stopper 0).id) (withC net [runBar, stopper 0])).b.cmds.map fun c => (c.phase, c.status)) = [(.ended, 0x10), (.running, 0)] := by
  decide +kernel
def enabler (f q : Nat) : Cmd :=
  cmd id0 (entries 1 0x80 7 0 [(0, 2, f), (2, 1, q), (3, 1, 20), (4, 4, 3), (8, 8, 0x300000), (16, 2, 16384), (20, 4, 1048576), (24, 2, 1), (26, 1, 15)]) .accepted
def crowded (nq : Nat) : Blk := { base with fns := (List.range 256).map fun f => (f, { fn1 with nq := if f = 2 then 0 else nq, enabled := decide (f ≠ 2) }) }
theorem test_QueuesAreControlled_enable :
    takes (withC base [enabler 2 16]).b (enabler 2 16) 0x80 = true ∧ enableFieldsOk (enabler 2 16) = true ∧ enableFieldsOk (enabler 2 17) = false ∧
    (getFn base 2).enabled = false ∧ (getFn base 2).disabling = false ∧ (getFn base 1).enabled = true ∧ poolUse base + 16 ≤ 4096 ∧
    poolUse (crowded 16) + 16 ≤ 4096 ∧ 4096 < poolUse (modFn (crowded 16) 2 fun n => { n with enabled := true, nq := 16 }) + 16 ∧
    (getFn (after (.functionEnable id0) (withC base [enabler 511 16])).b 511).nq = 16 := by decide +kernel
theorem test_QueuesAreControlled_disable :
    runs0 (withC net [adm 0x81 [(0, 2, 1)]]).b (adm 0x81 [(0, 2, 1)]) 0x81 = true ∧ fFn (adm 0x81 [(0, 2, 0)]) = 0 ∧ (getFn net 2).enabled = false ∧
    (getFn (modFn net 1 fun n => { n with fenced := true }) 1).fenced = true ∧ (getFn net 1).disabling = false ∧
    ((after (.functionDisable id0) (withC net [bar 1 .accepted, adm 0x81 [(0, 2, 1)]])).b.cmds.map fun c => (c.phase, c.status)).head? =
      some (.ended, 0x10) := by decide +kernel

def admS (op : Nat) (fs : List (Nat × Nat × Nat)) : State := withC net [adm op fs]
def statusAfter (i : Instr) (s : State) : Option (Phase × Nat) := (after i s).b.cmds.head?.map fun c => (c.phase, c.status)
def stagedAfter (i : Instr) (s : State) : List (List Nat) := (after i s).b.staged.map (·.held)
/-- Function 1 has virtual page 0 mapped to block 3 (R442, R443). -/
theorem test_ChangesAreStaged_pennants :
    runs0 (admS 0x82 [(0, 2, 1), (2, 1, 1), (4, 2, 255)]).b (adm 0x82 [(0, 2, 1), (2, 1, 1), (4, 2, 255)]) 0x82 = true ∧
    pmBad net (adm 0x82 [(0, 2, 1), (2, 1, 1), (4, 2, 255)]) = false ∧ pmBad net (adm 0x82 [(0, 2, 1), (2, 1, 1), (4, 2, 256)]) = true ∧
    pmBad net (adm 0x82 [(0, 2, 1), (2, 1, 0), (4, 2, 1)]) = true ∧ pmBad net (adm 0x82 [(0, 2, 1), (3, 1, 1), (4, 2, 1)]) = false ∧
    stagedAfter (.pennantMap id0) (admS 0x82 [(0, 2, 1), (2, 1, 1), (4, 2, 4)]) = [[0, 1, 2, 4]] ∧
    stagedAfter (.unmap id0) (admS 0x82 [(0, 2, 1), (3, 1, 1), (4, 2, 1)]) = [[3]] := by decide +kernel
/-- Every block is held by a staged PENNANT_MAP. -/
def holder : Staged := { cmd := id0, lsn := 1, held := List.range 1024, inForce := false }
def mapper : Cmd := adm 0x82 [(0, 2, 1), (2, 1, 1), (4, 2, 4)]
def fullPool : Blk := { base with cmds := [mapper], staged := [holder] }
theorem test_a_full_pool_has_no_block : (freeBlocks fullPool 1).length < 1 := by
  have hs : stagedOf fullPool 0x82 = [(holder, mapper)] := rfl
  have hd : fullPool.t.dir = [] := rfl
  unfold freeBlocks
  rw [hs, hd]
  simp [holder]
def gcFields (gid gen n mn : Nat) : List (Nat × Nat × Nat) := [(0, 4, gid), (4, 4, gen), (8, 2, n), (10, 2, mn), (12, 2, 10), (16, 8, 0x7000)]
/-- A roster of functions 2 and 1 of endpoints 6 and 5 at 0x7000, ascending as R120 asks. -/
def rosterMem : Tab Byte := putBytes [] 0x7000 (leBytes (mk [(31, 16, 5), (8, 0, 1)]) 4 ++ leBytes (mk [(31, 16, 6), (8, 0, 2)]) 4)
def gcS (op : Nat) (fs : List (Nat × Nat × Nat)) : State := { admS op fs with mem := rosterMem }
theorem test_ChangesAreStaged_groups :
    gidHeld net 9 = false ∧ gidHeld net 7 = true ∧ rosterOk net (gcRoster net rosterMem (adm 0x83 (gcFields 9 1 2 2))) = true ∧
    rosterOk net (gcRoster net [] (adm 0x83 (gcFields 9 1 2 2))) = false ∧ quotaOk net (gcRoster net rosterMem (adm 0x83 (gcFields 9 1 2 2))) none = true ∧
    quotaOk (modFn net 1 fun n => { n with groupQuota := 1 }) (gcRoster net rosterMem (adm 0x83 (gcFields 9 1 2 2))) none = false ∧
    freeGroup net = some 0 ∧ (takeRun net 2).isSome = true ∧
    (stagedAfter (.groupCreate id0 none) (gcS 0x83 (gcFields 9 1 2 2))).map (·.head?) = [some 0] ∧
    statusAfter (.groupCreate id0 none) (gcS 0x83 (gcFields 9 1 2 3)) = some (.ended, 0x61) ∧
    statusAfter (.groupCreate id0 none) (gcS 0x83 (gcFields 9 0 2 2)) = some (.ended, 0x61) ∧
    findGroup net 9 = none ∧ groupPhase net 7 grp = 1 ∧ groupPhase net 7 { grp with state := 5 } = 5 ∧
    stagedAfter (.groupReform id0 none) (gcS 0x84 [(0, 4, 7), (4, 4, 2), (8, 2, 2), (16, 8, 0x7000)]) = [[3]] ∧
    statusAfter (.groupReform id0 none) (gcS 0x84 [(0, 4, 7), (4, 4, 1), (8, 2, 2), (16, 8, 0x7000)]) = some (.ended, 0x61) ∧
    stagedAfter (.groupDestroy id0) (gcS 0x85 [(0, 4, 7)]) = [[3]] := by decide +kernel
def hoistS (k : Nat) : State := withC hoisted [adm 0x88 [(0, 4, k)]]
def compiled (op : Nat) : Cmd := { adm op [(0, 4, 7)] with handle := some 12 }
def barCompile : Cmd := adm 0x86 [(0, 4, 7), (4, 1, 0x19), (12, 1, 0x24)]
theorem test_ChangesAreStaged_hoists :
    (getHoist hoisted 65536).valid = true ∧ (getHoist hoisted 65537).valid = false ∧ stagedAfter (.hoistRelease id0) (hoistS 65536) = [[65536]] ∧
    statusAfter (.hoistRelease id0) (hoistS 98304) = some (.ended, 0x61) ∧
    ([0x86, 0x87].all fun op => runs0 (withC net [compiled op]).b (compiled op) op && (net.compiles.any fun x => x.handle == 12) == false &&
      (getHoist net 12).halyardOpt == 0) = true ∧
    findGroup net 8 = none ∧ stagedAfter (.hoistCompile id0) (withC net [barCompile]) = [[12]] ∧
    handleFor net 3 true = some 12 ∧
    (let x := compileKey barCompile grp
     let y := compile net grp x
     hoistOpcode x.opcode && decide (x.sizeClass ≤ 34) && x.halyardOpt == 1 && decide (y.alg ≠ 5) && y.halyardOpt == 1 &&
      schedOk { x with alg := y.alg, inner := if tb x.kept 3 then x.inner else y.inner } grp.n (enginesOf (rosterEps net grp)).length) = true := by
  decide +kernel
theorem test_ChangesAreStaged_policy :
    ([(19, true), (20, false), (340, false), (341, true), (0, false)].all fun x => ppBad net (adm 0x8B [(0, 2, x.1), (2, 1, 1)]) == x.2) = true ∧
    ppBad net (adm 0x8B ((2, 1, 2) :: (List.range 8).flatMap fun s => [(8 + 4 * s, 2, 400), (10 + 4 * s, 2, 1500)])) = false ∧
    ppBad net (adm 0x8B ((2, 1, 2) :: (List.range 8).flatMap fun s => [(8 + 4 * s, 2, 400), (10 + 4 * s, 2, 1501)])) = true := by decide +kernel

theorem test_ManagementAnswers_tables :
    runs0 (admS 0x8A [(4, 4, 1), (16, 8, 0x9000)]).b (adm 0x8A [(4, 4, 1), (16, 8, 0x9000)]) 0x8A = true ∧ tableShape 0 = some (64, 16384) ∧ tableShape 99 = none ∧
    statusAfter (.tableRead id0 none) (admS 0x8A [(4, 4, 1), (8, 8, 16384), (16, 8, 0x9000)]) = some (.ended, 0x61) ∧
    statusAfter (.tableRead id0 none) (admS 0x8A [(4, 4, 1), (8, 8, 16383), (16, 8, 0x9000)]) = some (.ended, 0) ∧
    statusAfter (.tableRead id0 none) (admS 0x8A [(4, 4, 0), (16, 8, 0x9000)]) = some (.ended, 0x61) := by decide +kernel
theorem test_ManagementAnswers_keys :
    runs0 (admS 0x8C [(2, 2, 1)]).b (adm 0x8C [(2, 2, 1)]) 0x8C = true ∧ (getFn net 1).spill = [] ∧
    (getFn (after (.fnRotate id0) (admS 0x8C [(2, 2, 1)])).b 1).keyEpoch = 2 ∧ statusAfter (.fnRotate id0) (admS 0x8C [(2, 2, 2)]) = some (.ended, 0x61) ∧
    ((({ fn1 with spill := [{ unit := 0, units := 1, epoch := 0, pkt := pkt1 }] } : Fn)).spill.any fun u => u.epoch != fn1.keyEpoch) = true ∧
    (let c := adm 0x8D [(16, 4, 4), (20, 4, 64)]; (runs0 (withC net [c]).b c 0x8D, pf c 16 4, pf c 20 4) = (true, 4, 64)) ∧
    statusAfter (.attest id0 none) (admS 0x8D [(16, 4, 3), (20, 4, 64)]) = some (.ended, 0x61) ∧
    statusAfter (.attest id0 none) (admS 0x8D [(16, 4, 65537), (20, 4, 64)]) = some (.ended, 0x61) := by decide +kernel
def selftest : Cmd := adm 0x8E [(2, 2, 127), (8, 8, 0xA000), (16, 4, 64)]
def tested (c : Cmd) : State := withC { net with test := { net.test with patternsOk := true } } [c]
theorem test_ManagementAnswers_selftest :
    runs0 (tested selftest).b selftest 0x8E = true ∧ testBad (tested selftest).b selftest = false ∧ testSet selftest = 0 ∧
    testBad (tested selftest).b (adm 0x8E [(2, 2, 128), (8, 8, 0xA000), (16, 4, 64)]) = true ∧
    statusAfter (.selftest id0 [] none) (tested selftest) = some (.ended, 0) ∧
    (let c := cmd id1 (entries 1 0x7F 7 0 []) .accepted; (takes (withC net [c]).b c 0x7F, isUnlisted c) = (true, true)) ∧
    statusAfter (.unlistedOpcode id1) (withC net [cmd id1 (entries 1 0x7F 7 0 []) .accepted]) = some (.ended, 0x61) := by decide +kernel
def keyCmd (op port : Nat) : Cmd := adm 0x8C [(0, 1, op), (1, 1, port)]
theorem test_LinksAndRoutesAreManaged_keys :
    runs0 (withC net [keyCmd 1 2]).b (keyCmd 1 2) 0x8C = true ∧ portExists net 42 = false ∧ portExists net 2 = true ∧ (getP net 2).enable = true ∧
    (getP net 2).state = 2 ∧ (getP net 3).enable = false ∧ keyPort net (keyCmd 2 2) = 2 ∧
    statusAfter (.linkSession id0) (withC net [keyCmd 1 42]) = some (.ended, 0x61) ∧ statusAfter (.linkRekey id0) (withC net [keyCmd 2 3]) = some (.ended, 0x61) ∧
    (let b := modP net 2 fun p => { p with replay := [{ fseq := 0, cells := [] }], trained := false }
     ((getP b 2).trained, (getP (after (.linkRekey id0) (withC b [keyCmd 2 2])).b 2).rekey) = (false, 2)) ∧
    statusAfter (.linkSession id0) (withC (modP net 2 fun p => { p with state := 3 }) [keyCmd 1 2]) = some (.ended, 0) := by decide +kernel
/-- A ROUTE_UPDATE of one entry, endpoint 6 now over port 3 (R579). -/
def ru (n beats force : Nat) : Cmd := adm 0x89 [(0, 8, 0xB000), (8, 4, n), (14, 2, beats), (16, 1, force)]
def ruMem : Tab Byte :=
  putBytes [] 0xB000 (leBytes 6 32 ++ leBytes (mk [(255, 255, 1), (253, 250, 1), (5, 0, 3), (11, 6, 63), (17, 12, 63), (23, 18, 63), (29, 24, 63), (35, 30, 63),
    (41, 36, 63), (47, 42, 63), (53, 48, 63), (59, 54, 63), (65, 60, 63), (71, 66, 63), (77, 72, 63), (83, 78, 63), (89, 84, 63)]) 32)
def draining6 (off : Bool) : Blk := { net with fab := { net.fab with drain := some { cmd := id0, eps := [6], doms := [], since := 0, routes := [], domains := [], drainOff := off } } }
def unack6 : Unacked := { seq := 0, pkt := pkt1, cmd := none, rank := 0, haly := none, held := false, alt := false, resends := 0, mcast := none }
theorem test_LinksAndRoutesAreManaged_routes :
    runs0 (withC net [ru 1 1 0]).b (ru 1 1 0) 0x89 = true ∧ net.fab.drain = none ∧ statusAfter (.routeUpdate id0 none) (withC net [ru 0 1 0]) = some (.ended, 0) ∧
    statusAfter (.routeUpdate id0 none) (withC net [ru 65537 1 0]) = some (.ended, 0x61) ∧ statusAfter (.routeUpdate id0 none) (withC net [ru 1 0 0]) = some (.ended, 0x61) ∧
    ((after (.routeUpdate id0 none) { withC net [ru 1 1 0] with mem := ruMem }).b.fab.drain.map (·.eps)) = some [6] ∧
    statusAfter (.routeUpdate id0 none) { withC net [ru 1 1 0] with mem := putBytes ruMem 0xB020 [42] } = some (.ended, 0x61) ∧
    (draining6 false).fab.drain.isSome = true ∧ drained (draining6 false) { cmd := id0, eps := [6], doms := [], since := 0, routes := [], domains := [], drainOff := false } = true ∧
    drained (modDst (draining6 false) 6 fun d => { d with unacked := [unack6] }) { cmd := id0, eps := [6], doms := [], since := 0, routes := [], domains := [], drainOff := false } = false ∧
    (after (.routeDrainDone id0) (withC (draining6 false) [ru 1 1 0])).b.staged.length = 1 := by decide +kernel
theorem test_a_drain_times_out :
    (let b := modDst { draining6 false with beat := { net.beat with count := 1 } } 6 fun d => { d with unacked := [unack6] }
     (statusAfter (.drainTimeout id0) (withC b [ru 1 1 0]), stagedAfter (.drainTimeout id0) (withC b [ru 1 1 1]), stagedAfter (.drainTimeout id0) (withC b [ru 1 2 1])) =
       (some (.ended, 0x10), [[]], [])) := by decide +kernel

/-! ### DISPATCH, COMBINE, SCORE -/

/-- Two tokens of dimension 64, two experts, one slot each: W selects expert 1 by its first row (R276). -/
def scoreRaw : List Byte := entries 1 0x22 7 0 [(0, 4, 1), (4, 4, 64), (8, 2, 2), (10, 1, 1), (16, 8, 0x1000), (24, 8, 0x2000), (32, 8, 0x3000), (40, 8, 0x4000)]
def dispRaw (drops : Nat) : List Byte :=
  entries 2 0x20 7 0 [(0, 4, 7), (4, 4, 1), (8, 6, 5), (16, 1, 1), (18, 2, 2), (24, 4, 1), (28, 4, 64), (32, 4, 1), (36, 4, if drops = 0 then 0 else 1), (40, 8, 0x1000), (56, 8, 0x3000),
    (64, 8, 0x4000), (72, 8, 0x5000), (80, 8, 0x6000), (88, 8, drops)]
def combRaw : List Byte := entries 2 0x21 7 0 [(0, 4, 7), (4, 4, 1), (8, 6, 6), (32, 8, 0x4000), (40, 8, 0x6000), (48, 8, 0x7000), (56, 8, 0x8000), (28, 4, 64)]
def dispP : MoeP := moeOf hoisted (bound (cmd id1 (dispRaw 0) .running))
def combMem (kind : Nat) : Tab Byte := putBytes (putBytes [] 0x4000 (tableHeader dispP true 1 0 0)) 0x6000 (tableHeader dispP true kind 0 0)
theorem test_ExpertCommandsComplete :
    runs0 (withC hoisted [cmd id1 scoreRaw .running]).b (cmd id1 scoreRaw .running) 0x22 = true ∧
    runs0 (withC hoisted [bound (cmd id1 (dispRaw 0) .running)]).b (bound (cmd id1 (dispRaw 0) .running)) 0x20 = true ∧
    runs0 (withC hoisted [bound (cmd id1 combRaw .running)]).b (bound (cmd id1 combRaw .running)) 0x21 = true ∧
    findGroup hoisted (fGid (cmd id1 combRaw .running)) = some (3, grp) ∧
    headerOk (cmd id1 combRaw .running) 1 (fnRead hoisted (combMem 2) 1 0 0x4000 64) = true ∧
    headerOk (cmd id1 combRaw .running) 2 (fnRead hoisted (combMem 2) 1 0 0x6000 64) = true ∧
    headerOk (cmd id1 combRaw .running) 2 (fnRead hoisted (combMem 1) 1 0 0x6000 64) = false := by decide +kernel

/-! ### Power and thermal limits -/

/-- At 1,000 MHz and 260 W of 340: T_THROTTLE 100, T_CRIT 110, ICC_MAX 450 (R658, R661, R664). -/
def warm (g : Sector → Sector) : Blk := { base with sectors := base.sectors.modify 7 g }
theorem test_PowerLimitsHold_thermal :
    alive base = true ∧ runs base 7 = true ∧ runs base 8 = false ∧ 7 < base.sectors.length ∧ tThrottle base = 100 ∧ tCrit base = 110 ∧ base.pwr.crit = false ∧
    ([(100, 8, false), (101, 7, true), (110, 7, true), (111, 0, true)].all fun x =>
      let y := getSect (after (.thermal 7 x.1) work).b 7
      y.opp == x.2.1 && y.thermal == x.2.2) = true ∧
    (getSect (after (.thermal 7 94) (st (warm fun y => { y with thermal := true }))).b 7).thermal = false ∧
    (getSect (after (.thermal 7 95) (st (warm fun y => { y with thermal := true }))).b 7).thermal = true ∧
    (getSect (after (.thermal 7 111) work).b 7).actMax = 0 := by decide +kernel
theorem test_PowerLimitsHold_current :
    base.pwr.current = false ∧ base.pwr.pmax = false ∧ iccMax base = 450 ∧ capOf base.pwr = 340 ∧ capVictim base = some 0 ∧
    (getSect (after (.powerEstimate 340 450) work).b 0).opp = 8 ∧ (after (.powerEstimate 340 451) work).b.pwr.current = true ∧
    (getSect (after (.powerEstimate 101 450) (st { base with pwr := { base.pwr with cap := 100 } })).b 0).opp = 7 ∧
    (getSect (after .emerg work).b 3).opp = 0 ∧ (after .emergClear (after .emerg work |> fun s => s)).b.pwr.emerg = false := by decide +kernel
def asking : Blk := { warm (fun y => { y with raiseTo := some 11 }) with pwr := { base.pwr with vreqValid := true, vreq := 950 } }
theorem test_PowerLimitsHold_voltage :
    asking.pwr.vreqValid = true ∧ base.pwr.vreqValid = false ∧
    mk (((running asking).filter fun k => (getSect asking k).raiseTo.isSome && !(getSect asking k).granted).map fun k => (k, k, 1)) = 2 ^ 7 ∧
    (after .vgrant (st asking)).b.pwr.vgranted = 950 ∧ (after .vgrantTimeout (st asking)).b.pwr.vgrant = true ∧
    (getSect (after .vgrantTimeout (st asking)).b 7).raiseTo = none := by decide +kernel
theorem test_PowerLimitsHold_levels :
    tileExists base 127 = true ∧ (getSect base 7).fenced = false ∧ 127 < base.tiles.length ∧
    (getTile (after (.activityWindow 127 7 true 0) work).b 127).level = [0, 0, 0, 0, 0, 0, 0, 1] ∧
    [nextLevel 16 16 0 256 0 false true, nextLevel 16 15 0 256 0 false true, nextLevel 3 16 256 256 64 false false, nextLevel 3 16 255 256 64 false false,
      nextLevel 3 16 256 256 64 true false] = [16, 15, 2, 3, 4] := by decide +kernel

/-! ### Beats -/

def beating (source : Nat) (g : Beat → Beat) : Blk := { net with beat := g { net.beat with run := true, source, live := true, count := 8, locked := true } }
def mrk : Mark := { dist := 0, locked := true, master := true, period := 0x4E20, beat := 8, tTx := 0, echoOf := 7, echoBeat := 7, echoRx := 4, guard := 0x40, dipLen := 0xC8, masterEp := 6 }
theorem test_BeatsAdvance :
    net.due = due0 ∧ net.beat.run = false ∧ (beating 1 id).beat.source = 1 ∧ (beating 1 id).beat.live = true ∧
    (after .beatStart (st net)).b.beat.count = 1 ∧ (after .beatStart (st (beating 1 fun x => { x with live := false }))).b.beat.count = 0 ∧
    (after .beatStart (st (beating 0 fun x => { x with parent := 2, adopt := some 41 }))).b.beat.count = 42 ∧
    (after (.dipWindow []) (st net)).b.beat.inDip = true ∧
    exec (.dipWindow []) (st (beating 1 fun x => { x with inDip := true })) = .next (st (beating 1 fun x => { x with inDip := true })) :=
  ⟨by decide +kernel, by decide +kernel, by decide +kernel, by decide +kernel, by decide +kernel, by decide +kernel, by decide +kernel, by decide +kernel, rfl⟩
theorem test_BeatsAdvance_pin :
    (beating 2 id).beat.lostBeat = none ∧ ((beating 2 fun x => { x with edge := some 0, locked := false }).beat.edge = some 0) ∧
    ([(20008, true), (19992, true), (20009, false), (20065, false)].all fun x =>
      (after (.beatIn x.1) (st (beating 2 fun y => { y with edge := some 0, locked := false }))).b.beat.locked == x.2) = true ∧
    (after (.beatIn 20065) (st (beating 2 fun y => { y with edge := some 0 }))).b.beat.locked = false ∧
    (after .beatInMissing (st (beating 2 fun y => { y with missed := 2 }))).b.beat.locked = false ∧
    (after .beatInMissing (st (beating 2 fun y => { y with missed := 1 }))).b.beat.locked = true := by decide +kernel
/-- A FABRIC engine at 255 − 2 hops at most of master 6 over port 2, its last mark to it sent at the start of beat 7. -/
def follower (g : Beat → Beat) : Blk :=
  modP (beating 0 fun x => g { x with parent := 2, dist := 1, masterEp := some 6, good := 1, locked := false }) 2 fun p => { p with sentMarks := [(7, 0)] }
def markS (rx : Nat) : State := after (.beatMark 2 { mrk with echoRx := rx } rx) (st (follower id))
theorem test_BeatPartnersAndDeadlock_marks :
    framing (follower id) 2 = true ∧ (getP (follower id) 2).woke = false ∧ 2 < (follower id).ports.length ∧ isMaster (follower id).beat = false ∧
    measure (follower id) (getP (follower id) 2) mrk 12 = some (4, 8) ∧ (after (.beatMark 2 mrk 12) (st (follower id))).b.beat.locked = true ∧
    (after (.beatMark 2 mrk 22) (st (follower id))).b.beat.locked = false ∧ (after (.beatMark 2 mrk 200) (st (follower id))).b.beat.adopt = some 8 ∧
    (after (.beatMark 2 mrk 12) (st (follower id))).b.beat.dist = 1 ∧ mrk.dist < 254 := by decide +kernel
def orphan : Blk := modP (follower id) 2 fun p => { p with mark := { p.mark with mark := some mrk, age := 2 } }
/-- Port 3 offers the same master at one hop more. -/
def adopted : Blk := modP orphan 3 fun p => { upPort p with mark := { p.mark with mark := some { mrk with dist := 1 } } }
theorem test_BeatPartnersAndDeadlock_parents :
    parentGone orphan = true ∧ parentGone (modP orphan 2 fun p => { p with mark := { p.mark with age := 1 } }) = false ∧ choose orphan = none ∧
    (choose adopted).map (·.1) = some 3 ∧ (after .parentLost (st orphan)).b.beat.parent = 63 ∧ (after .parentLost (st adopted)).b.beat.parent = 3 := by decide +kernel
def absence (last : Nat) : Blk := { net with beat := { net.beat with count := 10, seen := [{ ep := 6, last, absent := false }] } }
theorem test_BeatPartnersAndDeadlock_absence :
    isAbsent (absence 6) 6 = true ∧ isAbsent (absence 7) 6 = false ∧ (getP (after (.partnerAbsent 6) (st { absence 6 with t := mapped.t })).b 2).state ≠ 2 ∧
    (mapped.t.group.all fun e => !e.2.valid || (ranksAt mapped e.2 6).isEmpty) = true ∧
    ((after (.keepAlive 2 6 10 true) (st (absence 6))).b.beat.seen.map (·.last)) = [10] := by decide +kernel
def stuckCmd : Cmd := { cmd id1 (waitRaw 9) .running with waitOn := some 768 }
def stuck : Blk := { modFn mapped 1 (fun n => { n with stillBeats := 1000 }) with cmds := [stuckCmd], dlck := { still := 1000, reported := false, episodes := 0 } }
theorem test_BeatPartnersAndDeadlock_deadlock :
    stalled stuck 1 = true ∧ fnBeats stuck = 1000 ∧ blkBeats stuck = 1000 ∧ tb stuck.ctl.penDlck.force.toNat 63 = true ∧ tb stuck.ctl.penDlck.force.toNat 62 = true ∧
    (getFn stuck 1).deadlocked = false ∧ stuck.dlck.reported = false ∧ fnLive stuck 0 = true ∧ stalled mapped 1 = false ∧
    (getFn (after (.deadlock 1) (st stuck)).b 1).episodes = 1 ∧ (getFn (after (.deadlock 1) (st (modFn stuck 1 fun n => { n with stillBeats := 999 }))).b 1).episodes = 0 ∧
    (after .blockDeadlock (st stuck)).b.dlck.reported = true := by decide +kernel

/-! ### Link ports -/

def port2 (g : Port → Port) : State := st (modP net 2 g)
def p2 (s : State) : Port := getP s.b 2
def frame (fseq : Nat) : FrameRx := { fseq, ack := 2 ^ 64 - 1, fc := 0, nak := false, crcOk := true, tagOk := true, cells := [] }
def sent (n : Nat) : SentFrame := { fseq := n, cells := [] }
theorem test_LinksCarryFrames :
    framing net 2 = true ∧ framing net 3 = false ∧ (getP net 2).replay.length < 64 ∧ (getP net 2).sleep < 2 ∧ (getP net 2).rekey = 0 ∧
    ((p2 (after (.frameSend 2) (st net))).replay.map (·.cells.length)) = [63] ∧
    (p2 (after (.frameSend 2) (port2 fun p => { p with replay := List.replicate 64 (sent 0) }))).replay.length = 64 ∧
    (p2 (after (.frameReceive 2 (frame 0)) (st net))).rxNext = 1 ∧ (p2 (after (.frameReceive 2 (frame 1)) (st net))).rxNext = 0 ∧
    (p2 (after (.frameReceive 2 { frame 0 with crcOk := false }) (st net))).nakDue = true ∧
    (p2 (after (.frameReceive 2 { frame 0 with tagOk := false }) (st net))).state = 3 := by decide +kernel
theorem test_LinksCarryFrames_replay :
    (p2 (after (.replay 2) (port2 fun p => { p with nakRx := true, replay := [sent 4], retried := some 4, retryRun := 6 }))).retryRun = 7 ∧
    (p2 (after (.replayTimeout 2) (port2 fun p => { p with replay := [sent 4], retried := some 4, retryRun := 7 }))).state ≠ 2 ∧
    (p2 (after (.replay 2) (port2 fun p => { p with nakRx := true }))).nakRx = false := by decide +kernel
def other (hop path : Nat) : Pkt := { hdr := { hdr1 with cls := 1, hop, path }, body := .other (List.replicate 48 7) }
def routed (p : Pkt) : Blk := modP (modP net 3 upPort) 2 fun q => { q with inq := [(1, p)] }
theorem test_LinksCarryFrames_cells :
    (getP (routed (other 1 63)) 2).inq.find? (fun x => x.1 == 1) = some (1, other 1 63) ∧ pathCode (other 1 63).hdr = 63 ∧ pathCode (other 1 (3 + 64 * 63)).hdr = 3 ∧
    portAt (routed (other 1 3)) 3 = some 3 ∧ (getP (routed (other 1 3)) 3).state = 2 ∧
    ((after (.routedCell 2 1) (st (routed (other 0 3)))).b.fab.arrived.map (·.1)) = [2] ∧
    ((getP (after (.routedCell 2 1) (st (routed (other 1 (3 + 64 * 63))))).b 3).out.map (·.vn)) = [1] := by decide +kernel

def train2 (ph : TrainPhase) (g : Port → Port) : State := port2 fun p => g { p with state := 1, phase := ph, trained := false, goodMine := 0x1FFF, adaptReq := 0x1FFF }
theorem test_PortsTrain_start :
    mayTrain net 2 = true ∧ mayTrain net 3 = false ∧ (p2 (after (.linkTrainStart 2) (port2 fun p => { p with state := 0 }))).phase = .phy ∧
    (p2 (after (.phyrdy 2) (train2 .phy id))).phyRdy = true ∧ laneCount 0xFFF = 12 ∧ laneCount 0x7FF = 11 ∧
    (p2 (after (.adaptDone 2 0xFFF) (train2 .phy id))).phase = .lanes ∧ (p2 (after (.adaptDone 2 0x7FF) (train2 .phy id))).phase ≠ .lanes ∧
    (p2 (after (.rxGood 2 0xFFF) (train2 .lanes id))).phase = .key ∧
    (p2 (after (.rxGood 2 0xFFF) (port2 fun p => { p with phase := .lanes, retraining := true, goodMine := 0xFFF }))).phase = .done := by decide +kernel
theorem test_PortsTrain_keys :
    (p2 (after (.trainMessage 2 (.session true true)) (train2 .key id))).sessOurs = true ∧
    ((p2 (after (.trainMessage 2 (.session false true)) (train2 .key fun p => { p with sessOurs := true }))).msgs.map (·.2)) = [1] ∧
    (p2 (after (.trainMessage 2 (.session true false)) (train2 .key id))).phase = .reset ∧ (p2 (after (.trainMessage 2 .overlong) (train2 .key id))).phase = .reset ∧
    (p2 (after (.trainMessage 2 (.ack 3)) (train2 .key fun p => { p with msgs := [(3, 1)] }))).msgs = [] ∧
    (p2 (after (.trainMessage 2 (.fs (some 9))) (train2 .key fun p => { p with sessOurs := true, sessTheirs := true }))).phase = .frames ∧
    (p2 (after (.trainMessage 2 (.fs (some 8))) (train2 .key fun p => { p with sessOurs := true, sessTheirs := true }))).fsConflict = true ∧
    (p2 (after (.trainResend 2) (train2 .key fun p => { p with msgs := [(3, 7)] }))).msgs = [(3, 8)] ∧
    (p2 (after (.trainResend 2) (train2 .key fun p => { p with msgs := [(3, 8)] }))).phase = .reset := by decide +kernel
theorem test_PortsTrain_ends :
    (p2 (after (.trainingTimeout 2) (train2 .lanes id))).phase = .reset ∧
    (p2 (after (.trainingTimeout 2) (port2 fun p => { p with retraining := true, phase := .phy }))).state ≠ 2 ∧ (p2 (after (.lossOfSignal 2) (st net))).state ≠ 2 ∧
    (p2 (after (.lossOfSignal 2) (train2 .key id))).phase = .reset ∧ (p2 (after (.ident 2 6 4) (train2 .frames id))).phase = .done ∧ selfEp net = 5 ∧
    (p2 (after (.laneFault 2 11) (st net))).retraining = true ∧ (p2 (after (.laneFault 2 12) (st net))).retraining = false ∧
    (p2 (after (.laneFault 2 11) (port2 fun p => { p with rxFault := 0x1000 }))).state ≠ 2 ∧ (spareLane 0xFFF 0x800).isSome = true ∧
    spareLane 0xFFF 0x1800 = none := by decide +kernel

/-- A port idle for long enough to sleep (R397, R707). -/
def idle2 (g : Port → Port) : State :=
  st { modP net 2 (fun p => g { p with idle := 100000 }) with ctl := { net.ctl with pwrLink := dip0 0x8000000000000010#64 } }
theorem test_PortsSleep :
    maySleep (idle2 id).b 2 = true ∧ maySleep net 2 = false ∧ (p2 (after (.sleepRequest 2) (idle2 id))).sleep = 1 ∧ (p2 (after (.sleep 2 0) (idle2 id))).sleep = 3 ∧
    (p2 (after (.sleep 2 0) (st net))).sleep = 0 ∧ (p2 (after (.sleep 2 1) (port2 fun p => { p with sleep := 1, replay := [sent 0] }))).sleep = 2 ∧
    (p2 (after (.sleep 2 2) (port2 fun p => { p with sleep := 1 }))).sleep = 0 ∧ (p2 (after (.lpAck 2 true) (port2 fun p => { p with sleep := 3 }))).sleep = 4 ∧
    (p2 (after (.wake 2 true) (port2 fun p => { p with sleep := 4 }))).sleep = 5 ∧
    (p2 (after (.lpAck 2 false) (port2 fun p => { p with sleep := 5, txei := 0x1FFF }))).txei = 0x1000 ∧
    (p2 (after (.wake 2 true) (port2 fun p => { p with sleep := 5 }))).woke = true ∧
    (p2 (after (.wake 2 true) (port2 fun p => { p with sleep := 5, txei := 0x1FFF }))).sleep = 5 ∧
    (p2 (after (.wake 2 false) (port2 fun p => { p with sleep := 5 }))).phase = .phy ∧
    (p2 (after (.sleepAnswerTimeout 2) (port2 fun p => { p with sleep := 1 }))).sleep = 0 := by decide +kernel

/-! ### Packets -/

/-- Two members on this engine, functions 1 and 2: a point-to-point command of function 1 for rank 1. -/
def grp2 : Group := { grp with locs := [(1, 0), (2, 1)] }
def putter : Cmd := cmd id1 (p2pRaw 0x30 0 64) .running
def pair (c : Cmd) : Blk :=
  { modFn net 2 (fun _ => { fn1 with logBase := 0x400000, cqBase := 0x4C000 }) with
    t := { tabs grp2 with dir := [(256, 2 ^ 15 + 3), (512, 2 ^ 15 + 3)], roster := [(0, mk [(31, 16, 5), (8, 0, 1)]), (1, mk [(31, 16, 5), (8, 0, 2)])] }, cmds := [c] }
def pre7 (type cseq spec : Nat) : Prefix := { pre0 with type, gid := 7, gen := 1, cseq, rosterDig := 77, spec }
/-- A packet from an endpoint to this one, or to another. -/
def pktOf6 (src dst : Nat) (q : Prefix) (data : List Byte) : Pkt :=
  { hdr := { net := 0, cls := 0, hop := 1, src, dst, pseq := 0, path := 63 }, body := .coll q data }
def isNext (i : Instr) (s t : State) : Bool := match exec i s with | .next u => decide (u = t) | _ => false
def p2pCseq : Nat := 2 ^ 47 + 5
theorem test_PacketsAreChecked :
    (let p := pktOf6 6 5 (pre7 1 5 0) []
     isCollPkt p && (preOfPkt p).type == 1 && p.hdr.dst == selfEp net && !applied (getSrc net (srcKey net p)) 0 && !unsettled net p &&
       applied (getSrc (modSrc net (false, 6) fun r => { r with seen := [0] }) (false, 6)) 0) = true ∧
    applied { srcSt0 with high := some 300 } 44 = true ∧ applied { srcSt0 with high := some 300 } 45 = false ∧
    findGroup net 8 = none ∧ (findGroup net 7).map (fun x => x.2.gen) = some 1 ∧ tb p2pCseq 47 = true ∧ tb 5 47 = false ∧
    (getSrc (after (.abortNotice 0 (pktOf6 6 5 { pre7 8 5 0 with gen := 0 } [])) (st net)).b (false, 6)).due = [0] ∧
    ((getP (after (.data 0 (pktOf6 6 5 { pre7 1 5 0 with gen := 2 } []) .good) (st net)).b 2).out.map (·.vn)) = [2] := by decide +kernel

def dataPkt : Pkt := pktOf6 5 5 (pre7 1 p2pCseq (specLO 84 0)) ((List.range 84).map (BitVec.ofNat 8))
theorem test_PointToPointArrives_data :
    findGroup (pair putter) 7 = some (3, grp2) ∧ grp2.gen = (preOfPkt dataPkt).gen ∧ grp2.digest = (preOfPkt dataPkt).rosterDig ∧
    applied (getSrc (pair putter) (srcKey (pair putter) dataPkt)) 0 = false ∧
    (let x := p2pIn (pair putter) grp2 dataPkt
     (x.fn == 2 && x.space == 0 && x.remote == 0x2000 && d2dOk (pair putter) x.fn x.space) = true) ∧
    slotEp (tget 0 (pair putter).t.roster 0) = 5 ∧ findArb (pair putter) 5 (preOfPkt dataPkt) = none ∧ (pair putter).fab.heldSigs = [] ∧
    readMem (after (.data 63 dataPkt .good) (st (pair putter))).mem 0x2000 65 = (List.range 64).map (BitVec.ofNat 8) ++ [0] ∧
    (after (.data 63 dataPkt .inner) (st (pair putter))).b.fab.unver.length = 1 ∧
    (after (.data 63 dataPkt (.digestMismatch 3)) (st (pair putter))).b.fab.arbs.length = 1 := by decide +kernel
def atomer : Cmd := cmd id1 (entries 1 0x33 7 0 [(0, 4, 7), (4, 4, 1), (8, 6, p2pCseq), (18, 2, 1), (24, 8, 0x1000), (32, 8, 0x2000), (40, 4, 1)]) .running
def atomPkt : Pkt := pktOf6 5 5 (pre7 5 p2pCseq (specLO 24 0)) (leBytes 0x3F800000 4 ++ List.replicate 20 0)
theorem test_PointToPointArrives_atomic :
    (let x := p2pIn (pair atomer) grp2 atomPkt
     (x.fmt == 0 && x.oper == 0 && dataRuns x 0 (dataOfPkt atomPkt) == [(0, leBytes 0x3F800000 4)] && elemBits 0 == 32) = true) ∧
    (pair atomer).fab.atoms = [] ∧
    readMem (after (.atomic 63 atomPkt none .good) { st (pair atomer) with mem := putBytes [] 0x2000 (leBytes 0x40000000 4) }).mem 0x2000 4 = leBytes 0x40400000 4 := by
  decide +kernel
def sigPkt (n vid : Nat) : Pkt := pktOf6 5 5 (pre7 2 p2pCseq (mk [(31, 0, n), (47, 32, vid), (48, 48, 1)])) (leBytes 3 8)
theorem test_PointToPointArrives_signal :
    countOf (pair putter) 5 (preOfPkt (sigPkt 0 0)) = 0 ∧ (getFn (pair putter) 2).fenced = false ∧ penIdx (pair putter) 2 0 = some 768 ∧ penIdx (pair putter) 2 0x100 = none ∧
    (getPen (after (.signal 63 (sigPkt 0 0)) (st (pair putter))).b 768).value = 7 ∧
    (after (.signal 63 (sigPkt 1 0)) (st (pair putter))).b.fab.heldSigs.length = 1 := by decide +kernel
def getter : Cmd := { cmd id1 (p2pRaw 0x31 0 64) .running with chunks := 1, gotten := [0] }
def reqPkt : Pkt := pktOf6 5 5 (pre7 3 p2pCseq (specLO 64 0)) []
def respPkt (n : Nat) : Pkt := pktOf6 5 5 { pre7 4 p2pCseq (specLO n 0) with srcRank := 1 } (List.replicate n 9)
theorem test_PointToPointArrives_get :
    streamFor (pair getter) (preOfPkt reqPkt) = none ∧ ((cmdFor (pair getter) (preOfPkt reqPkt) none).all fun c => opOf c != 0x21) = true ∧
    ((after (.getReq 63 reqPkt none) (st (pair getter))).b.fab.arrived.map fun x => (preOfPkt x.2).type) = [4] ∧
    fTarget getter = 1 ∧ chunkOf (pair getter) getter = 65536 ∧ getter.gotten.getD 0 0 = 0 ∧
    ((after (.getResp 63 (respPkt 83) .inner) (st (pair getter))).b.cmds.map (·.gotten)) = [[83]] ∧
    readMem (after (.getResp 63 (respPkt 83) .inner) (st (pair getter))).mem 0x1000 65 = List.replicate 64 9 ++ [0] := by decide +kernel

/-- Data of the barrier's group, sealed with the digests of the local command. -/
def collPkt (c : Cmd) : Pkt :=
  pktOf6 6 5 { pre7 1 5 (specLO 4 0) with srcRank := 1, descDig := descDigest c, schedDig := schedDigest barHoist } (leBytes 0x3FC00000 4)
def bar1 : Cmd := bound runBar
theorem test_CollectiveDataArrives :
    (let b := (withC hoisted [bar1]).b
     ((cmdFor b (preOfPkt (collPkt bar1)) none).filter (fun c => !decide (c.phase = .ended)) == [bar1]) = true ∧ fnLive b 1 = true ∧
     digestDiffers b (preOfPkt (collPkt bar1)) bar1 = false ∧ digestDiffers b (preOfPkt (pktOf6 6 5 (pre7 1 5 0) [])) bar1 = true ∧
     findArb b 6 (preOfPkt (collPkt bar1)) = none ∧ b.fab.halyRx = []) ∧
    ((after (.data 2 (collPkt bar1) .good) (withC hoisted [bar1])).b.cmds.map (·.recvd)) = [[(0, 1, 0, 4)]] ∧
    ((after (.data 2 (pktOf6 6 5 (pre7 1 5 0) []) .good) (withC hoisted [bar1])).b.cmds.map (·.status)) = [0x61] ∧
    cmdFor hoisted (preOfPkt (collPkt bar1)) none = [] ∧ hasEnded hoisted (preOfPkt (collPkt bar1)) = false ∧ (getFn hoisted 1).spEn = false ∧
    spillRun { fn1 with spEn := true, spBase := 0x8000000, spLog2 := 20 } 1 = some 0 := by decide +kernel

/-! ### Acknowledgements, resends, arbitration -/

def waiting6 (u : Unacked) : Blk := modDst net 6 fun d => { d with next := 1, unacked := [u] }
def u6 (c : Option CmdId) : Unacked := { unack6 with pkt := pktOf6 5 6 (pre7 1 5 (specLO 4 0)) (leBytes 7 4), cmd := c }
def ackPkt : Pkt := pktOf6 6 5 { pre0 with type := 6, spec := 1 } []
def putDone : Cmd := { putter with chunks := 1, effectDone := true, sent := 1 }
theorem test_PacketsAreAcknowledged :
    twf dstSt0 (waiting6 (u6 none)).fab.dst = true ∧ (getDst (waiting6 (u6 none)) 6).waiting = [] ∧ covers (preOfPkt ackPkt) 0 = true ∧
    covers { preOfPkt ackPkt with spec := 2 ^ 63 } 63 = true ∧ covers { preOfPkt ackPkt with spec := 2 ^ 64 } 64 = false ∧
    isNext (.e2eAck 2 ackPkt) (st (waiting6 (u6 none))) (st (modDst (waiting6 (u6 none)) 6 fun d => { d with unacked := [] })) = true ∧
    ((after (.e2eAck 2 ackPkt) (withC (waiting6 (u6 (some id1))) [putDone])).b.cmds.map fun c => (c.phase, c.acked)) = [(.ended, 1)] ∧
    ((getP (after (.e2eAckSend 6) (st (modSrc net (false, 6) fun r => { r with due := [5, 68] }))).b 2).out.map (·.vn)) = [2] := by decide +kernel
theorem test_PacketsAreAcknowledged_resends :
    fld net.ctl.e2e.force.toNat 19 16 = 4 ∧ rtAlt (routeOf net 6) = false ∧ portAt net (rtCode (routeOf net 6) false 0) = some 2 ∧
    ((getDst (after (.e2eResend 6 0) (st (waiting6 { u6 none with resends := 3 }))).b 6).unacked.map (·.resends)) = [4] ∧
    (getDst (after (.e2eResend 6 0) (st (waiting6 { u6 none with resends := 4 }))).b 6).unacked = [] ∧
    stillSends (withC net [runBar]).b (preOfPkt (u6 none).pkt) = true ∧ stillSends net { pre7 1 5 0 with gen := 9 } = false ∧
    ((getDst (after (.holdResend 6 0) (withC (waiting6 { u6 none with held := true }) [runBar])).b 6).unacked.map (·.held)) = [false] ∧
    (getDst (after (.holdResend 6 0) (st (waiting6 { u6 none with held := true, pkt := pktOf6 5 6 { pre7 1 5 0 with gen := 9 } [] }))).b 6).unacked = [] ∧
    ((getDst (after (.hold 2 (pktOf6 6 5 { pre0 with type := 7 } [])) (st (waiting6 (u6 none)))).b 6).unacked.map (·.held)) = [true] := by decide +kernel

def arb0 : Arb :=
  { src := 6, dom := none, gid := 7, gen := 1, cseq := 5, rank := 1, step := 0, off := 0, seq := 0, digest := 1, fn := 1, tag := 7, chunk := 0, tile := 127, check := true
    expected := 1, observed := 2, second := true }
def arbS (cs : List Cmd) : State := st { hoisted with fab := { hoisted.fab with arbs := [arb0] }, cmds := cs }
def holdArb : Pkt := pktOf6 6 5 { pre7 7 5 (mk [(7, 0, 1)]) with srcRank := 0 } []
theorem test_ArbitrationEnds :
    ((arbS []).b.fab.arbs.find? fun a => a.src == 6 && a.seq == 0 && a.second) = some arb0 ∧ tileExists (arbS []).b arb0.tile = true ∧ arb0.tile < (arbS []).b.tiles.length ∧
    (getTile (after (.checkerSelftest 6 0 false .good) (arbS [])).b 127).state = 3 ∧
    (cmdFor (arbS [bar1]).b { pre0 with gid := 7, gen := 1, cseq := 5, srcRank := 1 } none == [bar1]) = true ∧
    ((after (.checkerSelftest 6 0 true .good) (arbS [bar1])).b.cmds.map (·.status)) = [0x40] ∧
    (findUnacked (waiting6 (u6 none)) 6 0).isSome = true ∧
    (getDst (after (.recompute 2 holdArb { badTiles := [127], badArrays := [] }) (st (waiting6 (u6 none)))).b 6).unacked.length = 2 ∧
    (getTile (after (.recompute 2 holdArb { badTiles := [127], badArrays := [] }) (st (waiting6 (u6 none)))).b 127).state = 3 := by decide +kernel

def abortPkt (cseq st' : Nat) : Pkt := pktOf6 6 5 (pre7 8 cseq st') []
def breakPkt : Pkt := pktOf6 6 5 (pre7 9 0 (mk [(7, 0, 1), (31, 16, 1), (63, 32, 4)])) (leBytes 1 2)
/-- Domain 3: this engine is member 0, endpoints 6 and 7 members 1 and 2 over port 2. -/
def domain : List Nat := (List.range 64).map fun k => if k = 0 then 2 ^ 63 else if k = 1 then mk [(15, 0, 5), (31, 16, 6), (47, 32, 7)] else if k = 19 then 6 else 0
def mcNet : Blk := { net with t := { net.t with mcast := [(3, domain)] } }
def mcPkt (mask : Nat) : Pkt := { pktOf6 9 6 (pre7 1 5 0) [] with hdr := { net := 0, cls := 0, hop := 0, src := 9, dst := 6, pseq := 0, path := mk [(83, 72, 3), (63, 0, mask)] } }
theorem test_NoticesAndCopies :
    (cmdFor (withC net [runBar]).b (preOfPkt (abortPkt 5 0x11)) none == [runBar]) = true ∧
    ((after (.abortNotice 2 (abortPkt 5 0x11)) (withC net [runBar])).b.cmds.map (·.status)) = [0x11] ∧ cmdFor net (preOfPkt (abortPkt 5 0x11)) none = [] ∧
    (net.t.stream.all fun e => !e.2.sharded) = true ∧ (after (.abortNotice 2 (abortPkt 5 0x11)) (st net)).b.fab.aborts = [(7, 1, 5, 0x11)] ∧
    (tget group0 (after (.breakNotice 2 breakPkt) (st net)).b.t.group 3).brokenRank = 1 ∧ domValid domain = true ∧ domValid (domOf net 3) = false ∧
    ownCopy mcNet (mcPkt 7) = false ∧ domSelf domain = 0 ∧ codeAwake mcNet 2 = true ∧
    ((after (.multicast 9 (mcPkt 7)) (st mcNet)).b.fab.arrived.map fun x => x.2.hdr.dst) = [5] ∧
    ((getP (after (.multicast 9 (mcPkt 7)) (st mcNet)).b 2).out.map (·.cells)) = [cellsOf { mcPkt 7 with hdr := mcHdr mcNet (mcPkt 7).hdr 3 6 }] := by decide +kernel

/-! ### Halyards -/

/-- Port 3 is UP too; RESERVE, its reply and RELEASE of endpoint 9, in the network class. -/
def two : Blk := modP net 3 upPort
def halyPkt (type dst path spec : Nat) (data : List Byte) : Pkt :=
  { hdr := { net := 0, cls := 0, hop := 1, src := 9, dst, pseq := 0, path }, body := .coll (pre7 type 0 spec) data }
def hops : List Byte := leBytes 12 4 ++ List.replicate 4 0 ++ [BitVec.ofNat 8 63, 4, 0] ++ List.replicate 29 0xFF
def resPkt (dst path : Nat) : Pkt := halyPkt 10 dst path (mk [(21, 0, 1000), (53, 32, 4), (85, 64, 100000)]) hops
/-- Entry 7 leads from port 2 to an output; entry 8 starts here and is granted. -/
def entryOf (inPort out : Nat) : Haly := { haly0 with valid := true, active := true, granted := true, inPort, outPort := out, outId := 21, len := 4, originEp := 9, originIdx := 4 }
def halyB (e : Haly) : Blk := { two with t := { two.t with haly := [(7, e)] }, beat := { two.beat with locked := true } }
def walkB (count : Nat) : Blk :=
  { halyB { entryOf 63 2 with active := false, granted := false, originEp := 5, originIdx := 7 } with
    walks := [{ idx := 7, outPort := 2, handle := 9, step := 0, dst := 6, beat := 0, cmd := none }], beat := { two.beat with count } }
theorem test_HalyardsCarryTransfers_reserve :
    (getP two 2).serves = 2 ∧ (getP two 3).serves = 3 ∧ portExists two 2 = true ∧ hopCount hops = 1 ∧ (hopRec hops 0).2 = 4 ∧ lowestFree 32768 0 two.t.haly = some 0 ∧
    pathCode (resPkt 6 3).hdr = 3 ∧ pathCode (resPkt 5 63).hdr = 63 ∧ codeUp two 3 = true ∧ codeUp two 4 = false ∧
    ((after (.reserve 2 (resPkt 5 63)) (st two)).b.t.haly.map fun e => (e.1, e.2.granted, e.2.inPort, e.2.originIdx, e.2.actBeat)) = [(0, true, 2, 4, 12)] ∧
    ((after (.reserve 2 (resPkt 6 3)) (st two)).b.t.haly.map fun e => (e.1, e.2.granted, decide (1000 < e.2.start))) = [(0, false, true)] ∧
    ((getP (after (.reserve 2 (resPkt 6 3)) (st two)).b 3).out.map (·.vn)) = [0] ∧
    (after (.reserve 2 (resPkt 6 4)) (st two)).b.t.haly = [] ∧ (after (.reserve 2 (resPkt 6 63)) (st two)).b.t.haly = [] := by decide +kernel
theorem test_HalyardsCarryTransfers_replies :
    twf haly0 (walkB 0).t.haly = true ∧ (getHaly (walkB 0) 7).granted = false ∧
    (let t := after (.reserveReply 2 (halyPkt 11 5 63 (mk [(31, 16, 33)]) (splice hops 9 [7, 0]))) (st (walkB 0))
     (getHaly t.b 7).granted = true ∧ (getHaly t.b 7).outId = 33 ∧ t.b.walks = []) ∧
    isNext (.reserveTimeout 7) (st (walkB 7)) (st (walkB 7)) = true ∧ (after (.reserveTimeout 7) (st (walkB 8))).b.walks = [] ∧
    (getHaly (after (.reserveTimeout 7) (st (walkB 8))).b 7).valid = false ∧
    ((halyB (entryOf 2 3)).t.haly.map fun e => (e.2.originEp, e.2.originIdx)) = [(9, 4)] ∧
    (after (.release 2 (halyPkt 12 5 63 4 [])) (st (halyB (entryOf 2 63)))).b.t.haly = [] ∧
    (after (.release 2 (halyPkt 12 5 63 5 [])) (st (halyB (entryOf 2 63)))).b.t.haly ≠ [] := by decide +kernel
def cell0 : List Byte := padTo 60 (prefixBytes { pre7 1 5 (specLO 4 0) with srcRank := 1 })
def assembling : Blk := { halyB (entryOf 2 63) with fab := { two.fab with halyRx := [{ idx := 7, cells := [(0, cell0)], cut := none }] } }
theorem test_HalyardsCarryTransfers_cells :
    framing two 2 = true ∧ portAt two 3 = some 3 ∧
    isNext (.halyardCell 2 9 0 true []) (st two) (st (modP two 2 fun p => { p with framing := bump p.framing 255 })) = true ∧
    (getP (after (.halyardCell 2 7 1 true [5]) (st (halyB (entryOf 2 3)))).b 3).halyQ = [.halyard 21 1 [5]] ∧
    ((getP (after (.halyardCell 2 7 1 false [5]) (st (halyB (entryOf 2 3)))).b 3).out.map (·.cells)) = [[.halyard 21 1 [5]]] ∧
    rxPrefix { idx := 7, cells := [(0, cell0)], cut := none } = some { pre7 1 5 (specLO 4 0) with srcRank := 1 } ∧
    ((after (.halyardCell 2 7 1 true ([1, 2, 3, 4] ++ List.replicate 56 0)) (st assembling)).b.fab.arrived.map fun x => dataOfPkt x.2) = [[1, 2, 3, 4]] := by decide +kernel
def trans (n : Nat) (seq : Option Nat) : HTrans := { cmd := id1, idx := 7, pre := pre7 1 5 (specLO n 0), rank := 1, bytes := List.replicate n 3, seq }
def starting (tr : HTrans) (out : Nat) : Blk := { halyB (entryOf 63 out) with fab := { two.fab with halyT := [tr] } }
/-- What its window has left of a transfer: cells 2 and 3. -/
def left (tr : HTrans) : Blk := modP (starting tr 2) 2 fun p => { p with halyQ := [.halyard 21 2 [0], .halyard 5 0 [], .halyard 21 3 [0]] }
theorem test_HalyardsCarryTransfers_windows :
    demotes (starting (trans 200 none) 2) (getHaly (starting (trans 200 none) 2) 7) = false ∧ demotes (starting (trans 4 none) 4) (getHaly (starting (trans 4 none) 4) 7) = true ∧
    transDst (starting (trans 200 none) 2) (trans 200 none) = 6 ∧ (starting (trans 200 none) 2).beat.inDip = false ∧
    (let t := after (.halyardWindow 7) (st (starting (trans 200 none) 2))
     (t.b.fab.halyT.map fun x => (x.bytes.length, x.seq)) = [(168, some 0), (32, none)] ∧ (getP t.b 2).halyQ.length = 4 ∧ (getDst t.b 6).next = 1) ∧
    (let t := after (.halyardWindow 7) (st (starting (trans 4 none) 4)); t.b.beat.demote = 1 ∧ (getDst t.b 6).unacked.length = 1 ∧ t.b.fab.halyT = []) ∧
    (let t := after (.overrun 7) (st (left (trans 160 (some 0))))
     t.b.beat.overrun = 1 ∧ (getP t.b 2).halyQ = [.halyard 5 0 []] ∧ ((getDst t.b 6).unacked.map fun u => (dataOfPkt u.pkt).length) = [104]) ∧
    isNext (.overrun 7) (st (starting (trans 4 (some 0)) 2)) (st { halyB (entryOf 63 2) with fab := { two.fab with halyT := [] } }) = true := by decide +kernel

/-! ### The dies and the memory ports -/

/-- Die port 0 is up and may act for function 1. -/
def dieB : Blk := { mapped with d2d := mapped.d2d.modify 0 fun d => { d with state := 1, cReq := 64, cRsp := 64, cOth := 64 } }
def dieP (g : D2d → D2d) : Blk := { dieB with d2d := dieB.d2d.modify 0 g }
def types (b : Blk) : List (Nat × Nat) := (getD2 b 0).sent.map fun m => (m.type, m.arg)
/-- Memory port 0 is UP with credits; translations are kept. -/
def memB (g : MemP → MemP) : Blk :=
  { dieB with memp := dieB.memp.modify 0 fun p => g { p with state := 1, rq := 8, wq := 8, xq := 8 }, xlats := [{ ctx := 0, vpage := 0, ppage := 0, size := 30, wr := true }] }
theorem test_DieMessagesAct_pennants :
    0 < dieB.d2d.length ∧ dieTalks dieB 0 = true ∧ decide (dieB.life.phase = .run) = true ∧ tb (getFn dieB 1).d2dMask 0 = true ∧ tb (getFn dieB 1).d2dMask 1 = false ∧
    penIdx dieB 1 0 = some 768 ∧ penIdx dieB 1 0x100 = none ∧ (getD2 dieB 0).held = [] ∧
    types (after (.d2dRead 0 1 0 9) (st dieB)).b = [(0x0C, 1), (3, 0)] ∧ types (after (.d2dRead 0 1 0x100 9) (st dieB)).b = [(0x0C, 1), (3, 2)] ∧
    (getPen (after (.d2dAdd 0 1 0 9 false 3) (st dieB)).b 768).value = 7 ∧ (getPen (after (.d2dSet 0 1 0 9 false 3) (st dieB)).b 768).lastKind = 4 ∧
    (let b := dieP fun d => { d with accs := [{ n := 4, tag := 1, f := 1, va := 0, wr := true, runs := [], lines := 1 }], nextAcc := 5 }
     (getD2 (after (.d2dAdd 0 1 0 9 true 3) (st b)).b 0).held.map (·.waits)) = [[4]] ∧
    types (after (.d2dRead 0 2 0 9) (st dieB)).b = [(0x0C, 1), (3, 1)] ∧
    types (after (.d2dRead 0 1 0 9) (st (life (fun l => { l with phase := .quiesce }) dieB))).b = [(0x0C, 1), (3, 3)] := by decide +kernel
def watched : Blk := { dieB with watches := [{ port := 0, wtag := 8, pen := 768, f := 1, form := 0, value := 9, mask := 0 }] }
theorem test_DieMessagesAct_watches :
    condHolds 0 3 0 (getPen dieB 768).value.toNat = true ∧ condHolds 0 9 0 (getPen dieB 768).value.toNat = false ∧
    (types (after (.watch 0 1 0 9 8 0 3 0) (st dieB)).b).map (·.1) = [0x0C, 3, 4] ∧ (after (.watch 0 1 0 9 8 0 9 0) (st dieB)).b.watches.length = 1 ∧
    types (after (.watch 0 1 0 9 8 0 9 0) (st watched)).b = [(0x0C, 1), (3, 1)] ∧ types (after (.unwatch 0 1 9 8) (st dieB)).b = [(0x0C, 1), (3, 5)] ∧
    (after (.unwatch 0 1 9 8) (st watched)).b.watches = [] := by decide +kernel
def outTo0 : DOut := { tag := 3, write := true, addr := 64, who := .cmd id1 }
def outB : State := withC (dieP fun d => { d with outs := [outTo0] }) [putter]
theorem test_DieMessagesAct_accesses :
    ((memB id).xlats.find? (xlCovers · (getFn (memB id) 1).context 64)).isSome = true ∧ portOf (memB id) (fnKey (memB id) 1 0 64) = some 0 ∧ dieB.xlats.length = 0 ∧
    ((getM (after (.mwr 0 1 9 64 [true] [7]) (st (memB id))).b 0).writes.map (·.bytes)) = [[(64, [7])]] ∧
    ((getM (after (.mrd 0 1 9 64 64) (st (memB id))).b 0).reads.map (·.lines)) = [1] ∧
    (findCmd outB.b id1 == some putter) = true ∧ ((after (.mwrRsp 0 3 2) outB).b.cmds.map (·.status)) = [0x31] ∧ ((after (.mwrRsp 0 3 0) outB).b.cmds.map (·.status)) = [0] ∧
    ((after (.mrdData 0 3 2 []) outB).b.cmds.map (·.status)) = [0] ∧ ((after (.d2dTimeout 0 3) outB).b.cmds.map (·.status)) = [0x31] ∧
    isNext (.d2dTimeout 0 9) outB outB = true := by decide +kernel
def dieNet : Blk := { net with d2d := dieB.d2d }
theorem test_DieMessagesAct_packets :
    selfEp dieNet = 5 ∧ rtValid (routeOf dieNet 6) = true ∧ rtValid (routeOf dieNet 7) = false ∧ portAt dieNet (rtCode (routeOf dieNet 6) false 0) = some 2 ∧
    chooseAlt dieNet (routeOf dieNet 6) 1 = false ∧ types (after (.pktTx 0 1 9 7 (List.replicate 16 0)) (st dieNet)).b = [(0x0C, 2 ^ 32), (0x0B, 4)] ∧
    ((getP (after (.pktTx 0 1 9 6 (List.replicate 16 0)) (st dieNet)).b 2).injected) = (cellsOf { hdr := hdrTo dieNet 6 0 1, body := .other (List.replicate 16 0) }).length ∧
    (getD2 (after (.credit 0 1 2 3) (st dieB)).b 0).cRsp = 66 := by decide +kernel
theorem test_DieMessagesAct_link :
    (getD2 (after (.fdiState 0 true false) (st (dieP fun d => { d with state := 0 }))).b 0).cfgErr = true ∧
    (getD2 (after (.fdiState 0 true true) (st (dieP fun d => { d with state := 0 }))).b 0).state = 1 ∧
    (getD2 (after (.fdiState 0 false true) (st dieB)).b 0).linkLoss = 1 ∧ ((after (.fdiState 0 false true) outB).b.cmds.map (·.status)) = [0x31] ∧
    (getD2 (after (.d2dLinkLoss 0) (st (dieP fun d => { d with state := 0, everActive := true }))).b 0).state = 2 := by decide +kernel

def rd (use : MUse) : MemP → MemP := fun p => { p with reads := [{ tag := 3, addr := 64, lines := 1, vol := false, use }] }
def wr (use : MUse) : MemP → MemP := fun p => { p with writes := [{ tag := 3, bytes := [(64, [7])], puts := 1, msi := false, use }] }
def xl (stale writes : Bool) : MemP → MemP := fun p => { p with xlats := [{ tag := 3, ctx := 0, page := 4096, wr := writes, stale, use := .cmd id1 0 4096 }] }
def memS (g : MemP → MemP) : State := withC (memB g) [putter]
def stOf (i : Instr) (s : State) : List Nat := (after i s).b.cmds.map (·.status)
theorem test_MemoryPortsAnswer_data :
    0 < (memB id).memp.length ∧ ((memB id).memp.all fun q => q.invals.isEmpty) = true ∧ (findCmd (memS id).b id1 == some putter) = true ∧
    (getFn (memS id).b id1.f).fenced = false ∧ (getM (after (.readData 0 3 0 []) (st (memB id))).b 0).state = 2 ∧
    (getM (after (.readData 0 3 0 (List.replicate 64 1)) (memS (rd (.cmd id1 0 64)))).b 0).reads = [] ∧ stOf (.readData 0 3 1 []) (memS (rd (.cmd id1 0 64))) = [0x31] ∧
    (let b := { memB (rd (.die 0 4)) with d2d := (dieP fun d => { d with accs := [{ n := 4, tag := 1, f := 1, va := 64, wr := false, runs := [], lines := 1 }] }).d2d }
     types (after (.readData 0 3 0 (List.replicate 64 1)) (st b)).b) = [(8, 0)] ∧
    tget 0 (after (.writeCompletion 0 3 0) (st (memB (wr (.log 1 4))))).mem 64 = 7 ∧ stOf (.writeCompletion 0 3 1) (memS (wr (.cmd id1 0 64))) = [0x31] := by decide +kernel
theorem test_MemoryPortsAnswer_translations :
    ((getM (after (.translationAnswer 0 3 0 0 12 true) (memS (xl true true))).b 0).xlats.length) = 1 ∧
    ((after (.translationAnswer 0 3 0 0x10000 12 true) (memS (xl false true))).b.xlats.map (·.ppage)) = [0, 0x10000] ∧
    stOf (.translationAnswer 0 3 0 0 12 false) (memS (xl false true)) = [0x31] ∧ stOf (.translationAnswer 0 3 1 0 12 false) (memS (xl false true)) = [0x30] ∧
    stOf (.translationAnswer 0 3 2 0 12 false) (memS (xl false true)) = [0x31] ∧
    (getM (memB id) 0).invals = [] ∧ (let t := after (.invalidation 0 3 0 0 12 true) (st (memB id)); t.b.xlats = [] ∧ (getM t.b 0).done = [3]) ∧
    (getM (after (.invalidation 0 3 0 0 12 true) (st (memB fun p => { p with invals := [(3, [])] }))).b 0).state = 2 := by decide +kernel
theorem test_MemoryPortsAnswer_limits :
    (getM (after (.memCredit 0 1 2 3) (st (memB fun p => { p with state := 0 }))).b 0).state = 1 ∧
    (getM (after (.memTimeout 0 0 3) (memS (rd (.cmd id1 0 64)))).b 0).state = 2 ∧ (getM (after (.memTimeout 0 1 3) (memS (rd (.cmd id1 0 64)))).b 0).state = 1 ∧
    (getM (after (.haltDone 0) (memS (rd (.cmd id1 0 64) ∘ fun p => { p with halt := true }))).b 0).halted = true ∧
    ((getM (after (.haltTimeout 0) (memS (rd (.cmd id1 0 64) ∘ fun p => { p with halt := true }))).b 0).rdWait.length) = 1 ∧
    stOf (.haltTimeout 0) (memS (wr (.cmd id1 0 64) ∘ fun p => { p with halt := true })) = [0x31] ∧
    isNext (.haltDone 0) (memS id) (memS id) = true := by decide +kernel

/-! ### Faults, resets, test -/

theorem test_FaultsAreContained_units :
    net.tiles.length = 128 ∧ tileExists net 127 = true ∧ (getTile net 127).state = 0 ∧ (getTile net 127).seqDue = [] ∧ net.pwr.crit = false ∧
    (getTile (after (.stagingEcc 127) (st net)).b 127).state = 3 ∧ (getTile (after (.seqWatchdog 127 0) (st net)).b 127).seqDue = [0] ∧
    (getTile (after (.seqWatchdog 127 0) (st { net with tiles := net.tiles.modify 127 fun x => { x with seqSpares := 2 } })).b 127).state = 3 ∧
    sectorExists net 7 = true ∧ (getSect net 7).fenced = false ∧ (getSect (after (.sectorFault 7 9) (st net)).b 7).cause = 9 ∧
    (getTile (after (.sectorFault 7 9) (st net)).b 112).state = 3 ∧
    (let b := { net with cores := [{ core0 with role := 1 }, { core0 with role := 2 }, core0] }
     (after (.coreWatchdog 0) (st b)).b.cores.map fun c => (c.fenced, c.role)) = [(true, 0), (false, 2), (false, 1)] := by decide +kernel
theorem test_FaultsAreContained_tables :
    isNext (.tableEcc 6 4) (st net) (after (.fatal 5) (st net)) = true ∧ rtValid (routeOf (after (.tableEcc 2 6) (st net)).b 6) = false ∧
    (getHaly (after (.tableEcc 4 7) (st (halyB (entryOf 2 3)))).b 7).valid = false ∧ grp.locs ≠ [] ∧
    (tget group0 (after (.tableEcc 0 3) (st net)).b.t.group 3).state = 2 ∧
    (let t := after (.fatal 4) (st net); t.b.life.fatal = 16 ∧ alive t.b = false) ∧
    (let b := { net with cores := [{ core0 with restarting := true }], cmds := [adm 0x8A []] }
     (after (.roleRestart 0) (st b)).b.cmds.map fun c => (c.phase, c.flags)) = [(.accepted, 2)] ∧
    (let b := { net with cores := [{ core0 with restarting := true }] }; (after (.roleRestart 0) (st b)).b.cores.map (·.restarting)) = [false] := by decide +kernel
def image (version svn : Nat) : FwImage := { version, svn, sigOk := true }
def flashed (a b : Option FwImage) : FlashImage :=
  { directoryOk := true, repairOk := true, fwA := a, fwB := b, patternsOk := false, patset0Ver := 0, flashKib := 64, routes := [], domains := [] }
def cold : State := st { State.reset.b with life := { State.reset.b.life with lastCold := true } }
theorem test_ResetsRun :
    State.reset.b.part = net.part ∧ (after .coldReset (st net)).b.fns = [] ∧ (after .coldReset (st net)).b.life.inReset = true ∧ net.life.scanMode = false ∧
    (after .rstDone (after .coldReset (st net))).b.life.inReset = false ∧ cold.b.life.fwVersion = 0 ∧ cold.b.life.phase = .run := by decide +kernel
theorem test_ResetsRun_firmware :
    (let t := after (.firmwareLoad (flashed (some (image 4 7)) (some (image 5 2)))) cold; t.b.life.fwVersion = 5 ∧ t.b.sec.fwSlot = 1 ∧ t.b.sec.svnFloor = 0) ∧
    (let t := after (.firmwareLoad (flashed (some (image 5 7)) (some (image 5 2)))) cold; t.b.sec.fwSlot = 0 ∧ t.b.sec.svnFloor = 4) ∧
    (after (.firmwareLoad (flashed none none)) cold).b.life.fatal = 4 := by decide +kernel
theorem test_ResetsRun_block :
    (let t := after (.quiesce [1]) (st (life (fun l => { l with phase := .quiesce }) net))
     t.b.life.phase = .firmware ∧ t.b.life.unquiesced = 1 ∧ (getFn t.b 1).unquiesced = true) ∧
    (let t := after (.firmwareRestart 8) (st { life (fun l => { l with phase := .firmware }) net with t := { net.t with stream := [] } })
     t.b.life.phase = .run ∧ t.b.life.replayUs = 8 ∧ t.b.pens = net.pens) := by decide +kernel
theorem test_TestAccessWorks :
    (let t := after .scanMode (st net); t.b.sec.fs = none ∧ (getP t.b 2).txActive = 0) ∧ (after (.tapInstruction 0x108) (st net)).b.test.ir = 8 ∧
    (let x := (after (.dbgDis 0xC000000000000000) work).b.test; x.dbgDis = true ∧ x.flashRel = true) ∧
    (let t := { net with test := { net.test with ir := 8 } }; (after (.ctlrd 0) (st t)).b.test.capture = ctlRead t 0) ∧
    (let b := modP net 2 fun p => { p with prbsAct := true, prbsCtl := BitVec.ofNat 64 (2 ^ 62 + 2 ^ 47) }
     let t := after (.prbsChecker 2 0 [true]) (st b)
     (tget checker0 (getP t.b 2).prbs 0).hist = [true] ∧ (getP t.b 2).prbsBits = 1) ∧
    checker0.lock = false ∧ (checkBit true { checker0 with hist := List.replicate 13 true, run := 127 } false).lock = true ∧
    (checkBit true { checker0 with hist := List.replicate 13 true, lock := true } true).err = 1 := by decide +kernel

end Sys2Proof.Tests
end

section
/-!
Heads of queues: what COMMAND_DISPATCH, HOIST_ON_DEMAND and GENERATION_WAIT_TIMEOUT make of them (R36, R100, R127, R166, R168, R451 to R454, R516).
-/
namespace Sys2Proof.Machine

/-! ### The head of a queue -/

theorem headCmd_find {b : Blk} {id : CmdId} {c : Cmd} (h : headCmd b id = some c) : findCmd b id = some c :=
  (Option.filter_eq_some_iff.mp h).1

theorem headCmd_accepted {b : Blk} {id : CmdId} {c : Cmd} (h : headCmd b id = some c) : c.phase = .accepted := by
  have hp := (Option.filter_eq_some_iff.mp h).2
  simp only [Bool.and_eq_true, decide_eq_true_eq, and_assoc] at hp
  exact hp.1

/-- An accepted command stands ended once a row that acts has decided its status. -/
theorem endCmd_commit_endedWith {s : State} {id : CmdId} {c : Cmd} (st r : Nat) (hf : findCmd s.b id = some c) (hp : c.phase = .accepted) :
    EndedWith (commit s (endCmd s.b id st r)).b id st r :=
  EndedWith.of_cmds (endCmd_endedWith st r hf (by rw [hp]; decide)) rfl

/-- PENNANT names no group. -/
theorem namesGroup_pennant {c : Cmd} (h : opOf c = 0x34) : namesGroup c = false := by
  simp [namesGroup, isColl, isP2p, isOpen, h]

/-! ### A head that waits -/

/-- The head as it stands once it waits for a generation, a hoist or staging (R485). -/
def waitingHead (beat : Nat) (c : Cmd) : Cmd := if c.headOther then c else { c with headOther := true, waitBeat := beat }

theorem waitOther_find {b : Blk} {c : Cmd} (h : findCmd b c.id = some c) :
    findCmd (waitOther b c) c.id = some (waitingHead b.beat.count c) := by
  unfold waitOther waitingHead
  split
  · exact h
  · exact findCmd_modCmd_same _ (fun _ => rfl) h

theorem waitOther_eq (b : Blk) (c : Cmd) : waitOther b c = { b with cmds := (waitOther b c).cmds } := by
  unfold waitOther; split <;> rfl

/-! ### A head that starts -/

/-- The command as it stands once it has left the head (R36, R168). -/
def startedHead (beat : Nat) (h : Option Nat) (staging : Nat) (split : Bool) (c : Cmd) : Cmd :=
  { c with phase := .running, headOther := false, handle := h, staging, split, dispBeat := beat }

theorem firstAccesses_eq (b : Blk) (c : Cmd) :
    firstAccesses b c = { b with memp := (firstAccesses b c).memp, d2d := (firstAccesses b c).d2d } := by
  obtain ⟨_, _, h⟩ := firstAccesses_only b c; rw [h]

theorem startCmd_cmds (b : Blk) (c : Cmd) (h : Option Nat) (n : Nat) (sp : Bool) :
    (startCmd b c h n sp).cmds = (modCmd b c.id (startedHead b.beat.count h n sp)).cmds := by
  unfold startCmd
  rw [firstAccesses_eq]
  cases h <;> rfl

theorem startCmd_find {b : Blk} {c : Cmd} (h : Option Nat) (n : Nat) (sp : Bool) (hf : findCmd b c.id = some c) :
    findCmd (startCmd b c h n sp) c.id = some (startedHead b.beat.count h n sp c) :=
  (findCmd_congr c.id (startCmd_cmds b c h n sp)).trans
    (findCmd_modCmd_same (startedHead b.beat.count h n sp) (fun _ => rfl) hf)

/-- Without a hoist the start touches commands, functions and the ports' requests at most. -/
theorem startCmd_none_only (b : Blk) (c : Cmd) : ∃ cmds fns memp d2d,
    startCmd b c none 0 false = { b with cmds := cmds, fns := fns, memp := memp, d2d := d2d } := by
  unfold startCmd
  rw [firstAccesses_eq]
  exact ⟨_, _, _, _, rfl⟩

/-- The first writes of a command leave its words in the table but the size of DST. -/
theorem firstWrites_find {b : Blk} {c d : Cmd} (m : Tab Byte) (h : findCmd b c.id = some d) :
    ∃ n, findCmd (firstWrites b m c) c.id = some { d with extent := n } := by
  unfold firstWrites
  split
  · refine ⟨d.extent, (findCmd_congr c.id ?_).trans h⟩
    dsimp only
    rw [fnStore_eq, fnStore_eq b]
  · split
    · exact ⟨_, findCmd_modCmd_same _ (fun _ => rfl) h⟩
    · exact ⟨d.extent, h⟩

/-! ### Binding a head -/

/-- The head names a generation of its group that lies ahead (R127). -/
def genAhead (b : Blk) (c : Cmd) : Bool := namesGroup c && (findGroup b (fGid c)).any fun e => decide (e.2.gen < fGen c)

/-- The head is a GROUP_REFORM of a group that is re-forming. -/
def reformHeld (b : Blk) (c : Cmd) : Bool := opOf c == 0x84 && (findGroup b (pf c 0 4)).any fun e => e.2.state == 3

theorem genAhead_iff (b : Blk) (c : Cmd) :
    genAhead b c = true ↔ namesGroup c = true ∧ ∃ h g, findGroup b (fGid c) = some (h, g) ∧ g.gen < fGen c := by
  simp [genAhead, Option.any_eq_true]

theorem reformHeld_iff (b : Blk) (c : Cmd) :
    reformHeld b c = true ↔ opOf c = 0x84 ∧ ∃ h g, findGroup b (pf c 0 4) = some (h, g) ∧ g.state = 3 := by
  simp [reformHeld, Option.any_eq_true]

/-- Binding a head that neither a later generation nor a re-formation holds (R36, R127, R168). -/
def bindNow (b : Blk) (m : Tab Byte) (c : Cmd) : Blk :=
  match cmdGenStatus b c, usesHoist c, findHoist b (keyOf b m c) with
  | some st, _, _ => endCmd b c.id st 0
  | none, false, _ => startCmd b c none 0 false
  | none, true, none => waitOther b c
  | none, true, some h =>
    let need := stagingFor (getHoist b h) (getFn b c.id.f).stagingQuota
    if (getFn b c.id.f).stagingUsed + need.1 ≤ (getFn b c.id.f).stagingQuota * 65536
    then firstWrites (startCmd b c (some h) need.1 need.2) m c else waitOther b c

theorem bindNow_turnedAway {b : Blk} {c : Cmd} {st : Nat} (m : Tab Byte) (h : cmdGenStatus b c = some st) :
    bindNow b m c = endCmd b c.id st 0 := by
  unfold bindNow; rw [h]

theorem bindNow_noHoist {b : Blk} {c : Cmd} (m : Tab Byte) (h : cmdGenStatus b c = none) (hu : usesHoist c = false) :
    bindNow b m c = startCmd b c none 0 false := by
  unfold bindNow; rw [h, hu]

theorem bindNow_notInstalled {b : Blk} {m : Tab Byte} {c : Cmd} (h : cmdGenStatus b c = none) (hu : usesHoist c = true)
    (hk : findHoist b (keyOf b m c) = none) : bindNow b m c = waitOther b c := by
  unfold bindNow; rw [h, hu, hk]

theorem bindNow_installed {b : Blk} {m : Tab Byte} {c : Cmd} {k : Nat} (h : cmdGenStatus b c = none) (hu : usesHoist c = true)
    (hk : findHoist b (keyOf b m c) = some k) :
    let need := stagingFor (getHoist b k) (getFn b c.id.f).stagingQuota
    bindNow b m c = if (getFn b c.id.f).stagingUsed + need.1 ≤ (getFn b c.id.f).stagingQuota * 65536
      then firstWrites (startCmd b c (some k) need.1 need.2) m c else waitOther b c := by
  unfold bindNow; rw [h, hu, hk]

/-- A head waits for a later generation or the end of a re-formation, and is bound otherwise. -/
theorem bindHead_eq (b : Blk) (m : Tab Byte) (c : Cmd) :
    bindHead b m c = if genAhead b c then waitOther b c else if reformHeld b c then waitOther b c else bindNow b m c := by
  unfold bindHead genAhead reformHeld
  refine if_congr ?_ rfl (if_congr ?_ rfl ?_)
  · cases findGroup b (fGid c) <;> rfl
  · cases findGroup b (pf c 0 4) <;> rfl
  · unfold bindNow
    cases cmdGenStatus b c with
    | some st => rfl
    | none =>
      cases usesHoist c with
      | false => rfl
      | true =>
        cases findHoist b (keyOf b m c) with
        | none => rfl
        | some h =>
          dsimp only
          rw [if_pos rfl, ← ite_not]
          exact if_congr Nat.not_lt rfl rfl

/-! ### COMMAND_DISPATCH -/

theorem waitCond_clause {c : Cmd} (hw : flWait c = true) (hd : c.waitDone = false) :
    waitCond c = (wcPen c, wcForm c, wcValue c, wcMask c) := by
  unfold waitCond; rw [hw, hd]; rfl

/-- A wait clause whose condition holds already is done at once (R452). -/
theorem penWait_holds {b : Blk} {c : Cmd} {p : Nat} (hw : flWait c = true) (hd : c.waitDone = false)
    (h : condHolds (wcForm c) (wcValue c) (wcMask c) (getPen b p).value.toNat = true) :
    penWait b c p = modCmd b c.id fun c => releaseHead c (getPen b p).value := by
  unfold penWait; rw [waitCond_clause hw hd]; exact if_pos h

/-- A wait clause whose condition does not hold is registered at its pennant (R451). -/
theorem penWait_registers {b : Blk} {c : Cmd} {p : Nat} (hw : flWait c = true) (hd : c.waitDone = false)
    (h : condHolds (wcForm c) (wcValue c) (wcMask c) (getPen b p).value.toNat = false) :
    penWait b c p = modCmd (modPen b p fun e => { e with waiters := e.waiters + 1 }) c.id fun c => { c with waitOn := some p } := by
  unfold penWait; rw [waitCond_clause hw hd]; exact if_neg (Bool.eq_false_iff.mp h)

theorem dispatchFx_unmapped {b : Blk} {c : Cmd} (m : Tab Byte) (hw : flWait c = true) (hd : c.waitDone = false) (ho : c.waitOn = none)
    (hp : penIdx b c.id.f (wcPen c) = none) : dispatchFx b m c = endCmd b c.id 0x31 0 := by
  simp [dispatchFx, clauseStep, hw, hd, ho, hp]

theorem dispatchFx_clause {b : Blk} {c : Cmd} {p : Nat} (m : Tab Byte) (hw : flWait c = true) (hd : c.waitDone = false)
    (ho : c.waitOn = none) (hp : penIdx b c.id.f (wcPen c) = some p) : dispatchFx b m c = penWait b c p := by
  simp [dispatchFx, clauseStep, hw, hd, ho, hp]

/-- No wait clause of the command is open: it has none, or it is done. -/
def clauseDone (c : Cmd) : Prop := flWait c = false ∨ c.waitDone = true

theorem dispatchFx_pennantWait {b : Blk} {c : Cmd} (m : Tab Byte) (hr : clauseDone c) (h : opOf c = 0x34 ∧ fPenOp c = 2) :
    dispatchFx b m c = b := by
  rcases hr with hr | hr <;> simp [dispatchFx, hr, h]

theorem dispatchFx_binds {b : Blk} {c : Cmd} (m : Tab Byte) (hr : clauseDone c) (h : opOf c = 0x34 → fPenOp c ≠ 2) :
    dispatchFx b m c = bindHead b m c := by
  rcases hr with hr | hr <;> simpa [dispatchFx, hr] using fun h1 h2 => absurd h2 (h h1)

theorem dispatchFx_ahead {b : Blk} {c : Cmd} (m : Tab Byte) (hr : clauseDone c) (h : genAhead b c = true) :
    dispatchFx b m c = waitOther b c := by
  have hn : namesGroup c = true := ((genAhead_iff b c).mp h).1
  rw [dispatchFx_binds m hr fun ho => absurd hn (by simp [namesGroup_pennant ho]), bindHead_eq, if_pos h]

theorem dispatchFx_free {b : Blk} {c : Cmd} (m : Tab Byte) (hr : clauseDone c) (ha : ¬ genAhead b c = true) (hh : ¬ reformHeld b c = true)
    (h : opOf c = 0x34 → fPenOp c ≠ 2) : dispatchFx b m c = bindNow b m c := by
  rw [dispatchFx_binds m hr h, bindHead_eq, if_neg ha, if_neg hh]

section
variable {s : State} {c : Cmd} (ha : awake s.b = true) (hc : headCmd s.b c.id = some c)
include ha hc

theorem commandDispatch_malformed (hm : startsMalformed s.b c = true) :
    exec (.commandDispatch c.id) s = .fault (.malformedCommand c.id) := by
  show execCommandDispatch c.id s = _
  unfold execCommandDispatch
  rw [hc]; dsimp only; rw [ha, hm]; rfl

variable (hm : startsMalformed s.b c = false)
include hm

theorem commandDispatch_acts : exec (.commandDispatch c.id) s = .next (commit s (dispatchFx s.b s.mem c)) := by
  show execCommandDispatch c.id s = _
  unfold execCommandDispatch
  rw [hc]; dsimp only; rw [hm, Bool.and_false, if_neg Bool.false_ne_true, act_awake ha]

/-- A dispatch that stores no byte changes the block alone. -/
theorem commandDispatch_quiet {b : Blk} (h : dispatchFx s.b s.mem c = b) (hs : b.stores = []) :
    exec (.commandDispatch c.id) s = .next { s with b := b } := by
  rw [commandDispatch_acts ha hc hm, h, commit_of_no_stores s b hs]

theorem commandDispatch_ends {st r : Nat} (h : dispatchFx s.b s.mem c = endCmd s.b c.id st r) :
    ∃ t, exec (.commandDispatch c.id) s = .next t ∧ EndedWith t.b c.id st r := by
  refine ⟨_, commandDispatch_acts ha hc hm, ?_⟩
  rw [h]; exact endCmd_commit_endedWith st r (headCmd_find hc) (headCmd_accepted hc)

theorem commandDispatch_waits (hs : s.b.stores = []) (h : dispatchFx s.b s.mem c = waitOther s.b c) :
    ∃ t, exec (.commandDispatch c.id) s = .next t ∧ findCmd t.b c.id = some (waitingHead s.b.beat.count c) ∧
      t = { s with b := { s.b with cmds := t.b.cmds } } := by
  have e := waitOther_eq s.b c
  refine ⟨_, commandDispatch_quiet ha hc hm h (by rw [e]; exact hs), waitOther_find (headCmd_find hc), ?_⟩
  rw [e]

theorem commandDispatch_starts_unhoisted (hs : s.b.stores = []) (h : dispatchFx s.b s.mem c = startCmd s.b c none 0 false) :
    ∃ t, exec (.commandDispatch c.id) s = .next t ∧ findCmd t.b c.id = some (startedHead s.b.beat.count none 0 false c) ∧
      t = { s with b := { s.b with cmds := t.b.cmds, fns := t.b.fns, memp := t.b.memp, d2d := t.b.d2d } } := by
  obtain ⟨_, _, _, _, e⟩ := startCmd_none_only s.b c
  refine ⟨_, commandDispatch_quiet ha hc hm h (by rw [e]; exact hs), startCmd_find _ _ _ (headCmd_find hc), ?_⟩
  rw [e]

theorem commandDispatch_starts_hoisted {k n : Nat} {sp : Bool}
    (h : dispatchFx s.b s.mem c = firstWrites (startCmd s.b c (some k) n sp) s.mem c) :
    ∃ t x, exec (.commandDispatch c.id) s = .next t ∧
      findCmd t.b c.id = some { startedHead s.b.beat.count (some k) n sp c with extent := x } := by
  obtain ⟨x, hx⟩ := firstWrites_find s.mem (startCmd_find (some k) n sp (headCmd_find hc))
  refine ⟨_, x, commandDispatch_acts ha hc hm, ?_⟩
  rw [h]; exact hx

end

/-- Settles O25, by the equation of a dispatch in each of its cases: the wait clause, the generation, the hoist, the staging. -/
theorem dispatchStartsCommands : Obligations.DispatchStartsCommands := by
  unfold Obligations.DispatchStartsCommands
  intro id c s ha hs hc
  obtain rfl := findCmd_id (headCmd_find hc)
  intro ready waits ahead' reforms free
  refine ⟨commandDispatch_malformed ha hc, fun hm => ?_⟩
  have bound : free → dispatchFx s.b s.mem c = bindNow s.b s.mem c := fun ⟨hr, h1, h2, h3⟩ =>
    dispatchFx_free s.mem hr (mt (genAhead_iff s.b c).mp h1) (mt (reformHeld_iff s.b c).mp h2) h3
  refine ⟨fun hw hd ho => ⟨fun hp => ?unmapped, fun p hp => ⟨fun h => ?holds, fun h => ?registers⟩⟩, fun hr h => ?pennantWait,
    fun hr h => ?ahead, fun hf st hst => ?turnedAway, fun hf hg hu => ?unhoisted, fun hf hg hu hk => ?notInstalled,
    fun hf hg hu k hk => ?installed⟩
  case unmapped => exact commandDispatch_ends ha hc hm (dispatchFx_unmapped s.mem hw hd ho hp)
  case holds => exact commandDispatch_quiet ha hc hm ((dispatchFx_clause s.mem hw hd ho hp).trans (penWait_holds hw hd h)) hs
  case registers => exact commandDispatch_quiet ha hc hm ((dispatchFx_clause s.mem hw hd ho hp).trans (penWait_registers hw hd h)) hs
  case pennantWait => exact commandDispatch_quiet ha hc hm (dispatchFx_pennantWait s.mem hr h) hs
  case ahead => exact commandDispatch_waits ha hc hm hs (dispatchFx_ahead s.mem hr ((genAhead_iff s.b c).mpr h))
  case turnedAway => exact commandDispatch_ends ha hc hm ((bound hf).trans (bindNow_turnedAway s.mem hst))
  case unhoisted =>
    obtain ⟨t, h1, h2, h3⟩ := commandDispatch_starts_unhoisted ha hc hm hs ((bound hf).trans (bindNow_noHoist s.mem hg hu))
    exact ⟨t, _, h1, h2, rfl, h3⟩
  case notInstalled => exact commandDispatch_waits ha hc hm hs ((bound hf).trans (bindNow_notInstalled hg hu hk))
  case installed =>
    intro need room
    have e := (bound hf).trans (bindNow_installed hg hu hk)
    refine ⟨fun hn => ?_, fun hr => ?_⟩
    · obtain ⟨t, h1, h2, -⟩ := commandDispatch_waits ha hc hm hs (e.trans (if_neg hn))
      exact ⟨t, h1, h2⟩
    · obtain ⟨t, x, h1, h2⟩ := commandDispatch_starts_hoisted ha hc hm (e.trans (if_pos hr))
      exact ⟨t, _, h1, h2, rfl, rfl, rfl, rfl, rfl, rfl, rfl⟩

/-! ### HOIST_ON_DEMAND -/

/-- What the command core does for a head that waits for the hoist of a key, in a group of n members (R36, R159, R166). -/
def compileFor (b : Blk) (gh n : Nat) (key : Hoist) (id : CmdId) : Blk :=
  if halvingOk key.opcode (if key.pin = 5 then 4 else key.pin) n = false then endCmd b id 0x61 0
  else match installFor b gh key id.f false with
  | .inl st => if st = 0 then b else endCmd b id st 0
  | .inr (k, b') => seekHalyards b' gh k id false

theorem compileFor_unhalved {b : Blk} {gh n : Nat} {key : Hoist} {id : CmdId}
    (h : halvingOk key.opcode (if key.pin = 5 then 4 else key.pin) n = false) : compileFor b gh n key id = endCmd b id 0x61 0 := if_pos h

theorem compileFor_short {b : Blk} {gh n st : Nat} {key : Hoist} {id : CmdId}
    (h : halvingOk key.opcode (if key.pin = 5 then 4 else key.pin) n = true) (hst : st ≠ 0)
    (hi : installFor b gh key id.f false = .inl st) : compileFor b gh n key id = endCmd b id st 0 := by
  simp [compileFor, h, hi, hst]

theorem compileFor_installs {b b' : Blk} {gh n k : Nat} {key : Hoist} {id : CmdId}
    (h : halvingOk key.opcode (if key.pin = 5 then 4 else key.pin) n = true)
    (hi : installFor b gh key id.f false = .inr (k, b')) : compileFor b gh n key id = seekHalyards b' gh k id false := by
  simp [compileFor, h, hi]

section
variable {s : State} {c : Cmd} (ha : awake s.b = true) (hc : headCmd s.b c.id = some c)
include hc

theorem hoistOnDemand_notWaiting (hs : s.b.stores = []) (ho : c.headOther = false) : exec (.hoistOnDemand c.id) s = .next s := by
  rw [row_hoistOnDemand]
  refine act_nop _ hs ?_
  simp [hc, ho]

include ha

/-- A head that waits for a hoist that is neither installed nor being compiled has it compiled. -/
theorem hoistOnDemand_compiles (ho : c.headOther = true) (hu : usesHoist c = true) (hst : cmdGenStatus s.b c = none) {gh : Nat} {g : Group}
    (hg : findGroup s.b (fGid c) = some (gh, g)) (hgen : g.gen = fGen c) (hk : findHoist s.b (keyOf s.b s.mem c) = none)
    (hn : ∀ k ∈ s.b.compiles, sameKey k.hoist (keyOf s.b s.mem c) = false) :
    exec (.hoistOnDemand c.id) s = .next (commit s (compileFor s.b gh g.n (keyOf s.b s.mem c) c.id)) := by
  have hany : (s.b.compiles.any fun k => sameKey k.hoist (keyOf s.b s.mem c)) = false := by simpa using hn
  rw [row_hoistOnDemand, act_awake ha]
  simp [hc, ho, hu, hst, hg, hgen, hk, hany, compileFor] <;> rfl

end

/-! ### GENERATION_WAIT_TIMEOUT -/

theorem endCmd_stores (b : Blk) (id : CmdId) (st r : Nat) : (endCmd b id st r).stores = b.stores := by rw [endCmd_eq]

theorem endCmd_tables (b : Blk) (id : CmdId) (st r : Nat) : (endCmd b id st r).t = b.t := by rw [endCmd_eq]

section
variable {s : State} {id : CmdId} {c : Cmd} {k : Nat} {g : Group} (hf : findCmd s.b id = some c) (hg : findGroup s.b (fGid c) = some (k, g))
include hf hg

/-- A head that has waited STEP_TIMEOUT beats for its generation is turned away (R127). -/
theorem generationWaitTimeout_expires (ha : awake s.b = true) (hp : c.phase = .accepted) (ho : c.headOther = true) (hn : namesGroup c = true)
    (hl : fnLive s.b id.f = true) (hgen : g.gen < fGen c) (ht : g.timeout ≠ 0) (hw : c.waitBeat + g.timeout ≤ s.b.beat.count) :
    exec (.generationWaitTimeout id) s = .next (commit s (endCmd s.b id 0x22 0)) := by
  rw [row_generationWaitTimeout, act_awake ha]
  simp [hf, hg, hp, ho, hn, hl, hgen, ht, hw, beatNow]

theorem generationWaitTimeout_early (hs : s.b.stores = []) (h : g.timeout = 0 ∨ s.b.beat.count < c.waitBeat + g.timeout) :
    exec (.generationWaitTimeout id) s = .next s := by
  rw [row_generationWaitTimeout]
  refine act_nop _ hs ?_
  rcases h with h | h
  · simp [hf, hg, h]
  · simp [hf, hg, beatNow, Nat.not_le.mpr h]

end

/-- Settles O26: the compilation case by case, and the timeout on either side of its beat. -/
theorem headsThatWait : Obligations.HeadsThatWait := by
  unfold Obligations.HeadsThatWait
  intro id c s ha hs
  refine ⟨fun hc => ?onDemand, fun hf hp ho hn hl k g hg hgen => ⟨fun ht hw => ?expires, generationWaitTimeout_early hf hg hs⟩⟩
  case onDemand =>
    obtain rfl := findCmd_id (headCmd_find hc)
    refine ⟨hoistOnDemand_notWaiting hc hs, fun ho hu hst gh g hg hgen => ?_⟩
    intro key hk hn
    have compiles := hoistOnDemand_compiles ha hc ho hu hst hg hgen hk hn
    have ends : ∀ st, compileFor s.b gh g.n key c.id = endCmd s.b c.id st 0 →
        ∃ t, exec (.hoistOnDemand c.id) s = .next t ∧ EndedWith t.b c.id st 0 := fun st e =>
      ⟨_, compiles.trans (by rw [e]), endCmd_commit_endedWith st 0 (headCmd_find hc) (headCmd_accepted hc)⟩
    refine ⟨fun h => ends 0x61 (compileFor_unhalved h), fun h => ⟨fun st h0 hi => ends st (compileFor_short h h0 hi), fun k b' hi => ?_⟩⟩
    rw [compiles, compileFor_installs h hi]
  case expires =>
    refine ⟨_, generationWaitTimeout_expires hf hg ha hp ho hn hl hgen ht hw, endCmd_commit_endedWith _ _ hf hp, endCmd_tables .., ?_⟩
    rw [commit_mem, endCmd_stores, hs, applyStores_nil]

end Sys2Proof.Machine
end

section
/-!
Collectives that only move data: what a member's DST holds, element by element (R67 to R69, R90).
-/
namespace Sys2Proof.Machine

/-- A member's buffer: its own SRC, or what another member brings. -/
def bufOf (r : Nat) (src : List Byte) (env : CollEnv) (i : Nat) : List Byte := if i = r then src else env.xs.getD i []

/-- A member's counts: its own, or what another member brings. -/
def cntOf (r : Nat) (counts : List Nat) (env : CollEnv) (i : Nat) : List Nat := if i = r then counts else env.counts.getD i []

/-- What each rank counted for member r (R87). -/
def countedFor (n r : Nat) (counts : List Nat) (env : CollEnv) : List Nat := (List.range n).map fun j => (cntOf r counts env j).getD r 0

theorem takeEls_unscaled {f : Nat} (hs : isScaled f = false) (bs : List Byte) (i n : Nat) :
    takeEls f bs i n = slice bs (i * (elemBits f / 8)) (n * (elemBits f / 8)) := by
  simp [takeEls, hs]

theorem putEls_unscaled {f : Nat} (hs : isScaled f = false) (p : List Byte) : putEls f p = p := by simp [putEls, hs]

section
variable {k : Coll} {r : Nat} (topk cap : Nat) (src : List Byte) (counts : List Nat) (pre efb : Option (List Byte)) (env : CollEnv)

/-- ALLGATHER, BROADCAST, GATHER, SCATTER and ALLTOALL move data without a counts phase. -/
theorem collOut_moves (h : k.opc = 0x12 ∨ k.opc = 0x13 ∨ k.opc = 0x15 ∨ k.opc = 0x16 ∨ k.opc = 0x17) :
    collOut k r topk cap false src counts pre efb env = moveOut k r src env := by
  rcases h with h | h | h | h | h <;> simp [collOut, h]

theorem collOut_alltoallv (h : k.opc = 0x18) :
    collOut k r topk cap false src counts pre efb env = movevOut k r cap src counts env := by
  simp [collOut, h]

theorem collOut_barrier_dst (h : k.opc = 0x19) : (collOut k r topk cap false src counts pre efb env).dst = none := by
  simp [collOut, h, emptyOut]

/-- The first c.N counts of c.N ranks are all of them. -/
theorem countsBefore_ranks (n : Nat) (g : Nat → Nat) : countsBefore ((List.range n).map g) n = ((List.range n).map g).foldl (· + ·) 0 := by
  unfold countsBefore; rw [List.take_of_length_le (by simp)]

variable (hs : isScaled k.f = false)
include hs

/-- ALLTOALLV whose counts fit: every rank's segment for this member, in rank order (R87 to R89). -/
theorem movevOut_fits (h : k.opc = 0x18) (hc : (countedFor k.N r counts env).foldl (· + ·) 0 ≤ cap) :
    (movevOut k r cap src counts env).dst = some ((List.range k.N).map fun j => slice (bufOf r src env j)
      (countsBefore (cntOf r counts env j) r * (elemBits k.f / 8)) ((cntOf r counts env j).getD r 0 * (elemBits k.f / 8))).flatten := by
  simp only [countedFor, cntOf] at hc
  simp [-List.getD_eq_getElem?_getD, movevOut, h, hs, countsBefore_ranks, Nat.not_lt.mpr hc, putEls_unscaled, takeEls_unscaled, bufOf, cntOf]

/-- ALLTOALLV whose counts exceed DST_CAP writes nothing and fails (R90). -/
theorem movevOut_overflows (h : k.opc = 0x18) (hc : cap < (countedFor k.N r counts env).foldl (· + ·) 0) :
    (movevOut k r cap src counts env).dst = none ∧ (movevOut k r cap src counts env).fail = some 0x31 := by
  simp only [countedFor, cntOf] at hc
  simp [-List.getD_eq_getElem?_getD, movevOut, h, hs, countsBefore_ranks, hc, stFaultAccess, emptyOut]

end

/-- Settles O33: of an unscaled format, taking elements is slicing bytes and putting them back changes nothing; then each opcode's own line of `moveOut` or
`movevOut`. -/
theorem movesCopyBits : Obligations.MovesCopyBits := by
  unfold Obligations.MovesCopyBits
  intro k r topk cap src counts pre efb env hs w buf cnt all res sum
  have move : k.opc = 0x12 ∨ k.opc = 0x13 ∨ k.opc = 0x15 ∨ k.opc = 0x16 ∨ k.opc = 0x17 → res = (moveOut k r src env).dst :=
    fun h => congrArg CollOut.dst (collOut_moves topk cap src counts pre efb env h)
  have copies : ∀ bs n, putEls k.f (takeEls k.f bs 0 n) = slice bs 0 (n * w) := fun bs n => by
    rw [putEls_unscaled hs, takeEls_unscaled hs, Nat.zero_mul]
  refine ⟨fun h => ?gathers, fun h => ?other, fun h => ?broadcast, fun h => ?scatter, fun h => ?alltoall,
    fun h => collOut_barrier_dst topk cap src counts pre efb env h, fun h hc => ?fits, fun h hc => ?overflows⟩
  case gathers =>
    rcases h with h | ⟨h, hr⟩
    · rw [move (.inl h)]; simp [moveOut, h, copies, buf, all]
    · rw [move (.inr (.inr (.inl h)))]; simp [moveOut, h, hr, copies, buf, all]
  case other => rw [move (.inr (.inr (.inl h.1)))]; simp [moveOut, h]
  case broadcast => rw [move (.inr (.inl h))]; simp [moveOut, h, copies, buf]
  case scatter => rw [move (.inr (.inr (.inr (.inl h))))]; simp [moveOut, h, copies, buf]
  case alltoall => rw [move (.inr (.inr (.inr (.inr h))))]; simp [moveOut, h, copies, buf, all]
  case fits => exact (congrArg CollOut.dst (collOut_alltoallv topk cap src counts pre efb env h)).trans (movevOut_fits cap src counts env hs h hc)
  case overflows =>
    obtain ⟨hd, hf⟩ := movevOut_overflows cap src counts env hs h hc
    have e := collOut_alltoallv (r := r) topk cap src counts pre efb env h
    exact ⟨(congrArg CollOut.dst e).trans hd, (congrArg CollOut.fail e).trans hf⟩

end Sys2Proof.Machine
end

section
/-!
Flies: what raising one leaves of pennants, pages and commands, and what follows it keeps (R92 to R94, R414, R438, R526).
-/
namespace Sys2Proof.Machine

/-- A pennant that an operation has touched is not at its reset values. -/
theorem pen_ne {p : Pen} (h : p.lastKind ≠ 0) : p ≠ pen0 := by rintro rfl; exact h rfl

/-- Letting a head go keeps its id and its count of flies. -/
theorem releaseHead_id (c : Cmd) (v : Word) : (releaseHead c v).id = c.id := by unfold releaseHead; split <;> rfl
theorem releaseHead_flies (c : Cmd) (v : Word) : (releaseHead c v).flies = c.flies := by unfold releaseHead; split <;> rfl

/-! ### What a fly leaves to be kept -/

/-- Enabled pages keep their APPLIED_LSN, pennants that an operation has touched keep their value, and commands their count of flies. -/
structure KeepsFlies (b b' : Blk) : Prop where
  fn : ∀ f, (getFn b f).enabled = true → (getFn b' f).enabled = true ∧ (getFn b' f).appliedLsn = (getFn b f).appliedLsn
  pen : ∀ p, (getPen b p).lastKind ≠ 0 → (getPen b' p).lastKind = (getPen b p).lastKind ∧ (getPen b' p).value = (getPen b p).value
  cmd : ∀ id c, findCmd b id = some c → ∃ c', findCmd b' id = some c' ∧ c'.flies = c.flies

namespace KeepsFlies

theorem refl (b : Blk) : KeepsFlies b b := ⟨fun _ h => ⟨h, rfl⟩, fun _ _ => ⟨rfl, rfl⟩, fun _ c h => ⟨c, h, rfl⟩⟩

theorem trans {b b' b'' : Blk} (h : KeepsFlies b b') (h' : KeepsFlies b' b'') : KeepsFlies b b'' where
  fn f he := by
    obtain ⟨he', hl⟩ := h.fn f he
    obtain ⟨he'', hl'⟩ := h'.fn f he'
    exact ⟨he'', hl'.trans hl⟩
  pen p hk := by
    obtain ⟨hk', hv⟩ := h.pen p hk
    obtain ⟨hk'', hv'⟩ := h'.pen p (hk' ▸ hk)
    exact ⟨hk''.trans hk', hv'.trans hv⟩
  cmd id c hc := by
    obtain ⟨c', hc', hf⟩ := h.cmd id c hc
    obtain ⟨c'', hc'', hf'⟩ := h'.cmd id c' hc'
    exact ⟨c'', hc'', hf'.trans hf⟩

theorem same {b x b' : Blk} (h : KeepsFlies b x) (hf : b'.fns = x.fns) (hp : b'.pens = x.pens) (hc : b'.cmds = x.cmds) : KeepsFlies b b' :=
  h.trans {
    fn := fun f he => by unfold getFn at he ⊢; rw [hf]; exact ⟨he, rfl⟩
    pen := fun p _ => by unfold getPen; rw [hp]; exact ⟨rfl, rfl⟩
    cmd := fun id c h => ⟨c, (findCmd_congr id hc).trans h, rfl⟩ }

theorem foldl {α : Type} {b x : Blk} (h : KeepsFlies b x) (l : List α) (g : Blk → α → Blk) (hg : ∀ b x, KeepsFlies b (g b x)) :
    KeepsFlies b (l.foldl g x) :=
  foldl_keeps (fun x => KeepsFlies b x) l g x h fun y x hy => hy.trans (hg y x)

theorem modFn {b x : Blk} {f : Nat} {g : Fn → Fn} (h : KeepsFlies b x) (he : ∀ n, (g n).enabled = n.enabled)
    (hl : ∀ n, (g n).appliedLsn = n.appliedLsn) : KeepsFlies b (modFn x f g) :=
  h.trans {
    fn := fun k hk => by
      by_cases e : k = f
      · subst e; rw [getFn_modFn x k g (enabled_ne ((he _).trans hk))]; exact ⟨(he _).trans hk, hl _⟩
      · rw [getFn_modFn_other x f k g e]; exact ⟨hk, rfl⟩
    pen := fun _ _ => ⟨rfl, rfl⟩
    cmd := fun _ c h => ⟨c, h, rfl⟩ }

theorem modCmd {b x : Blk} {k : CmdId} {g : Cmd → Cmd} (h : KeepsFlies b x) (hi : ∀ c, (g c).id = c.id)
    (hf : ∀ c, (g c).flies = c.flies) : KeepsFlies b (modCmd x k g) :=
  h.trans {
    fn := fun _ h => ⟨h, rfl⟩
    pen := fun _ _ => ⟨rfl, rfl⟩
    cmd := fun id c h => by
      refine ⟨if c.id = k then g c else c, by rw [findCmd_modCmd x k id g hi, h]; rfl, ?_⟩
      split
      · exact hf c
      · rfl }

theorem modPen {b x : Blk} {p : Nat} {g : Pen → Pen} (h : KeepsFlies b x) (hk : ∀ e, (g e).lastKind = e.lastKind)
    (hv : ∀ e, (g e).value = e.value) : KeepsFlies b (modPen x p g) :=
  h.trans {
    fn := fun _ h => ⟨h, rfl⟩
    pen := fun k h => by
      by_cases e : k = p
      · subst e; rw [getPen_modPen x k g (pen_ne (by rw [hk]; exact h))]; exact ⟨hk _, hv _⟩
      · rw [getPen_modPen_other x p k g e]; exact ⟨rfl, rfl⟩
    cmd := fun _ c h => ⟨c, h, rfl⟩ }

theorem unwait {b x : Blk} (h : KeepsFlies b x) (c : Cmd) : KeepsFlies b (unwait x c) := by
  unfold Machine.unwait; split
  · extract_lets b1 b2
    have h1 : KeepsFlies b b1 := h.modPen (fun _ => rfl) (fun _ => rfl)
    have h2 : KeepsFlies b b2 := h1.modFn (fun _ => rfl) (fun _ => rfl)
    exact .modCmd (.same h2 rfl rfl rfl) (fun _ => rfl) (fun _ => rfl)
  · exact h

theorem endCmd {b x : Blk} (h : KeepsFlies b x) (id : CmdId) (st r : Nat) : KeepsFlies b (endCmd x id st r) := by
  unfold Machine.endCmd withCmd; split
  · dsimp only; split
    · exact h
    · exact (h.unwait _).modCmd (fun _ => rfl) (fun _ => rfl)
  · exact h

theorem finishCmd {b x : Blk} (h : KeepsFlies b x) (id : CmdId) : KeepsFlies b (finishCmd x id) := by
  unfold Machine.finishCmd withCmd; split
  · dsimp only; split
    · exact h.endCmd ..
    · exact h
  · exact h

theorem event {b x : Blk} (h : KeepsFlies b x) (f code q info a0 a1 : Nat) : KeepsFlies b (event x f code q info a0 a1) :=
  h.trans {
    fn := fun k he => by
      have hk := event_keeps (fun n => (n.enabled, n.appliedLsn)) (fun _ _ => rfl) (fun _ _ _ => rfl) (fun _ _ => rfl) x f code q info a0 a1 k
      simp only [Prod.mk.injEq] at hk
      exact ⟨hk.1.trans he, hk.2⟩
    pen := fun p _ => by rw [event_eq]; exact ⟨rfl, rfl⟩
    cmd := fun id c h => ⟨c, (findCmd_congr id (by rw [event_eq])).trans h, rfl⟩ }

theorem signalVec {b x : Blk} (h : KeepsFlies b x) (f v : Nat) : KeepsFlies b (signalVec x f v) := by
  unfold Machine.signalVec; dsimp only; split
  · exact h.modFn (fun _ => rfl) (fun _ => rfl)
  · split
    · exact h.same rfl rfl rfl
    · exact h

theorem cqSignal {b x : Blk} (h : KeepsFlies b x) (f : Nat) : KeepsFlies b (cqSignal x f) := by
  unfold Machine.cqSignal; dsimp only; split
  · exact (h.signalVec f _).modFn (fun _ => rfl) (fun _ => rfl)
  · exact h

theorem fnStore {b x : Blk} (h : KeepsFlies b x) (f sp va : Nat) (bs : List Byte) : KeepsFlies b (fnStore x f sp va bs) := by
  rw [fnStore_eq]; exact h.same rfl rfl rfl

theorem ringWrite {b x : Blk} (h : KeepsFlies b x) (f : Nat) (w : List Nat) : KeepsFlies b (ringWrite x f { w := w, cmd := none }) := by
  unfold Machine.ringWrite
  extract_lets n num bytes b1 b2 b3 b4
  have h2 : KeepsFlies b b2 := h.fnStore ..
  have h3 : KeepsFlies b b3 := h2.modFn (fun _ => rfl) (fun _ => rfl)
  exact h3.cqSignal f

/-- A record that no command waits for. -/
theorem ringPut {b x : Blk} (h : KeepsFlies b x) (f : Nat) (w : List Nat) : KeepsFlies b (ringPut x f { w := w, cmd := none }) := by
  unfold Machine.ringPut; dsimp only; split
  · exact h
  · split
    · exact h.ringWrite f w
    · refine .modFn ?_ (fun _ => rfl) (fun _ => rfl)
      split
      · exact h
      · exact h.event ..

theorem appendLog {b x : Blk} (h : KeepsFlies b x) (f : Nat) (bs : List Byte) : KeepsFlies b (appendLog x f bs) := by
  unfold Machine.appendLog
  extract_lets n b1
  have h1 : KeepsFlies b b1 := h.foldl _ _ fun y a => (KeepsFlies.refl y).fnStore f 0 a.1 a.2
  exact h1.modFn (fun _ => rfl) (fun _ => rfl)

theorem writeAnchor {b x : Blk} (h : KeepsFlies b x) (f : Nat) : KeepsFlies b (writeAnchor x f) := by
  unfold Machine.writeAnchor
  extract_lets n tail b1
  have h1 : KeepsFlies b b1 := h.fnStore ..
  exact h1.modFn (fun _ => rfl) (fun _ => rfl)

theorem modStr {b x : Blk} (h : KeepsFlies b x) (f n : Nat) (g : Stream → Stream) : KeepsFlies b (modStr x f n g) :=
  h.same (modStr_fns ..) (modStr_pens ..) (modStr_cmds ..)

/-- A change of the stream table. -/
theorem streams {b x : Blk} (h : KeepsFlies b x) (str : Tab Stream) : KeepsFlies b { x with t := { x.t with stream := str } } := h.same rfl rfl rfl

theorem carried {b x : Blk} (h : KeepsFlies b x) (id : CmdId) (lsn n : Nat) :
    KeepsFlies b (Machine.modCmd x id fun c => { c with lsn := lsn, lines := n }) := h.modCmd (fun _ => rfl) (fun _ => rfl)

theorem carryOne {b x : Blk} (h : KeepsFlies b x) (f : Nat) : KeepsFlies b (carryOne x f) := by
  unfold Machine.carryOne
  extract_lets tail n; split
  · split
    extract_lets bs
    exact .writeAnchor (.carried (h.appendLog f bs) _ _ _) f
  · split
    · split
      extract_lets bs b1
      have h1 : KeepsFlies b b1 := h.appendLog ..
      exact .writeAnchor (h1.streams _) f
    · exact h.writeAnchor f

theorem carryLoop {b x : Blk} (h : KeepsFlies b x) (k f : Nat) : KeepsFlies b (carryLoop k f x) := by
  induction k generalizing x with
  | zero => exact h
  | succ k ih =>
    unfold Machine.carryLoop; split
    · exact ih (h.carryOne f)
    · exact h

theorem streamRecord {b x : Blk} (h : KeepsFlies b x) (f n k st va : Nat) : KeepsFlies b (streamRecord x f n k st va) := by
  unfold Machine.streamRecord
  extract_lets s nf b1 b2
  have h1 : KeepsFlies b b1 := h.appendLog ..
  have h2 : KeepsFlies b b2 := h1.modStr ..
  exact h2.ringPut f _

theorem clearFollowers {b x : Blk} (h : KeepsFlies b x) (f n : Nat) : KeepsFlies b (clearFollowers x f n) := by
  rw [clearFollowers_eq]; exact h.streams _

theorem freeStream {b x : Blk} (h : KeepsFlies b x) (f n : Nat) : KeepsFlies b (freeStream x f n) := by
  unfold Machine.freeStream; exact (h.clearFollowers f n).modStr ..

theorem freeFinish {b x : Blk} (h : KeepsFlies b x) (f n : Nat) : KeepsFlies b (freeFinish x f n) := by
  unfold Machine.freeFinish
  exact .foldl (h.freeStream f n) _ _ fun y c => (KeepsFlies.refl y).endCmd c.id 0 _

theorem streamTryEnd {b x : Blk} (h : KeepsFlies b x) (f n : Nat) : KeepsFlies b (streamTryEnd x f n) := by
  have hr : KeepsFlies b (Machine.streamRecord (Machine.clearFollowers (Machine.modStr x f n fun s => { s with state := 3 }) f n) f n 0 0 0) :=
    .streamRecord (.clearFollowers (h.modStr ..) f n) ..
  unfold Machine.streamTryEnd; dsimp only; split
  · split
    · exact hr.freeFinish ..
    · split
      · exact hr.freeStream ..
      · exact hr
  · exact h

/-- A change of every command that keeps its id and its flies. -/
theorem mapCmds {b x : Blk} (h : KeepsFlies b x) (g : Cmd → Cmd) (ws : List Watch) (hi : ∀ c, (g c).id = c.id)
    (hf : ∀ c, (g c).flies = c.flies) : KeepsFlies b { x with cmds := x.cmds.map g, watches := ws } :=
  h.trans {
    fn := fun _ h => ⟨h, rfl⟩
    pen := fun _ _ => ⟨rfl, rfl⟩
    cmd := fun id c h => ⟨g c, by
      have e : (fun c => decide (c.id = id)) ∘ g = fun c => decide (c.id = id) := funext fun c => by simp [hi]
      unfold findCmd at h ⊢; rw [List.find?_map, e, h]; rfl, hf c⟩ }

theorem reported {b x : Blk} (h : KeepsFlies b x) (r : Bool) : KeepsFlies b { x with dlck := { x.dlck with reported := r } } :=
  h.same rfl rfl rfl

theorem notify {b x : Blk} (h : KeepsFlies b x) (w : Watch) (st : Nat) (v : Word) : KeepsFlies b (notify x w st v) := h.same rfl rfl rfl

theorem penRelease {b x : Blk} (h : KeepsFlies b x) (p : Nat) : KeepsFlies b (penRelease x p) := by
  unfold Machine.penRelease
  extract_lets v holds heads ws b1 b2 b3 d b4
  have h1 : KeepsFlies b b1 := h.modPen (fun _ => rfl) (fun _ => rfl)
  have h2 : KeepsFlies b b2 := h1.mapCmds _ _ (fun c => by split <;> simp [releaseHead_id]) (fun c => by split <;> simp [releaseHead_flies])
  have h3 : KeepsFlies b b3 := h2.foldl _ _ fun y c => (KeepsFlies.refl y).modFn (fun _ => rfl) (fun _ => rfl)
  have h4 : KeepsFlies b b4 := by
    simp only [b4]; split
    · exact h3
    · exact h3.reported false
  exact h4.foldl _ _ fun y w => (KeepsFlies.refl y).notify w 0 v

/-- An operation on a pennant keeps everything but that pennant's entry, which `penApply` gives. -/
theorem penOp (b : Blk) (p : Nat) (add : Bool) (v : Word) (ep fn kind tag : Nat) :
    KeepsFlies (Machine.modPen b p fun e => penApply e add v ep fn kind tag) (penOp b p add v ep fn kind tag) := by
  unfold Machine.penOp
  extract_lets b1 b2
  have h2 : KeepsFlies b1 b2 := (KeepsFlies.refl b1).foldl _ _ fun y c => (KeepsFlies.refl y).modFn (fun _ => rfl) (fun _ => rfl)
  exact h2.penRelease p

end KeepsFlies

/-! ### Raising the pennant -/

/-- The pennant that a fly raises, where it is mapped (R438). -/
def raisePen (b : Blk) (f vid tag : Nat) : Blk :=
  match penIdx b f vid with
  | some p => penOp b p true 1 (selfEp b) f 2 tag
  | none => b

theorem raisePen_enabled {b : Blk} {k : Nat} (f vid tag : Nat) (h : (getFn b k).enabled = true) :
    (getFn (raisePen b f vid tag) k).enabled = true := by
  unfold raisePen; split
  · exact ((KeepsFlies.penOp b _ true 1 (selfEp b) f 2 tag).fn k h).1
  · exact h

theorem raisePen_flies {b : Blk} {id : CmdId} {c : Cmd} (f vid tag : Nat) (h : findCmd b id = some c) :
    ∃ c', findCmd (raisePen b f vid tag) id = some c' ∧ c'.flies = c.flies := by
  unfold raisePen; split
  · exact (KeepsFlies.penOp b _ true 1 (selfEp b) f 2 tag).cmd id c h
  · exact ⟨c, h, rfl⟩

theorem raisePen_value {b : Blk} {f vid p : Nat} (tag : Nat) (h : penIdx b f vid = some p) :
    (getPen (raisePen b f vid tag) p).lastKind = 2 ∧ (getPen (raisePen b f vid tag) p).value = (getPen b p).value + 1 := by
  have hp := getPen_modPen b p (fun e => penApply e true 1 (selfEp b) f 2 tag) (pen_ne (Nat.succ_ne_zero 1))
  unfold raisePen; rw [h]
  obtain ⟨hk, hv⟩ := (KeepsFlies.penOp b p true 1 (selfEp b) f 2 tag).pen p (by rw [hp]; exact Nat.succ_ne_zero 1)
  rw [hp] at hk hv
  exact ⟨hk, hv⟩

/-! ### FLY of a command -/

theorem KeepsFlies.progress {b x : Blk} (h : KeepsFlies b x) (c : Cmd) (sub a : Nat) (ws : List Nat) : KeepsFlies b (progress x c sub a ws) := by
  unfold Machine.progress
  extract_lets n b1
  have h1 : KeepsFlies b b1 := h.appendLog ..
  exact h1.modCmd (fun _ => rfl) (fun _ => rfl)

theorem appendLog_pen (b : Blk) (f : Nat) (bs : List Byte) (p : Nat) : getPen (appendLog b f bs) p = getPen b p := by rw [appendLog_eq]; rfl
theorem appendLog_penIdx (b : Blk) (f : Nat) (bs : List Byte) (k vid : Nat) : penIdx (appendLog b f bs) k vid = penIdx b k vid := by
  rw [appendLog_eq]; rfl

theorem progress_pens (b : Blk) (c : Cmd) (sub a : Nat) (ws : List Nat) : (progress b c sub a ws).pens = b.pens := by
  unfold progress; extract_lets n b1; rw [modCmd_pens]; unfold b1; rw [appendLog_eq]

theorem progress_t (b : Blk) (c : Cmd) (sub a : Nat) (ws : List Nat) : (progress b c sub a ws).t = b.t := by
  unfold progress; extract_lets n b1; rw [modCmd_t]; unfold b1; rw [appendLog_eq]

/-- The pennant part of a command's fly, for a mode that raises one. -/
def flyPen (b : Blk) (c : Cmd) : Blk := if fFlyMode c == 1 || fFlyMode c == 3 then raisePen b c.id.f (fFlyPen c) (tagOf c) else b

theorem flyPen_enabled {b : Blk} {k : Nat} (c : Cmd) (h : (getFn b k).enabled = true) : (getFn (flyPen b c) k).enabled = true := by
  unfold flyPen; split
  · exact raisePen_enabled _ _ _ h
  · exact h

theorem flyPen_flies {b : Blk} {id : CmdId} {c : Cmd} (d : Cmd) (h : findCmd b id = some c) :
    ∃ c', findCmd (flyPen b d) id = some c' ∧ c'.flies = c.flies := by
  unfold flyPen; split
  · exact raisePen_flies _ _ _ h
  · exact ⟨c, h, rfl⟩

/-- A page's APPLIED_LSN set, and everything else kept as it stands (R526). -/
theorem getFn_applied {b : Blk} {f : Nat} (lsn : Nat) (h : (getFn b f).enabled = true) :
    getFn (modFn b f fun n => { n with appliedLsn := lsn }) f = { getFn b f with appliedLsn := lsn } :=
  getFn_modFn b f (fun n => { n with appliedLsn := lsn }) (enabled_ne h)

/-- What a fly of a command leaves: one more fly, APPLIED_LSN, and its pennant raised by one (R92 to R94, R526). -/
theorem flyCmd_raises {b : Blk} {c : Cmd} (hc : findCmd b c.id = some c) (he : (getFn b c.id.f).enabled = true) :
    (∃ c', findCmd (flyCmd b c) c.id = some c' ∧ c'.flies = c.flies + 1) ∧
    (getFn (flyCmd b c) c.id.f).appliedLsn = (getFn b c.id.f).head ∧
    (fFlyMode c = 1 ∨ fFlyMode c = 3 → ∀ p, penIdx b c.id.f (fFlyPen c) = some p →
      (getPen (flyCmd b c) p).value = (getPen b p).value + 1) := by
  unfold flyCmd
  extract_lets i f mode sat pen recd lsn b1 b2 b3 b4 w0 b5
  have h1 : KeepsFlies b b1 := (KeepsFlies.refl b).progress ..
  have hp1 : ∀ p, getPen b1 p = getPen b p := fun p => by unfold getPen; rw [show b1.pens = b.pens from progress_pens ..]
  have hi1 : ∀ vid, penIdx b1 f vid = penIdx b f vid := fun vid => by unfold penIdx; rw [show b1.t = b.t from progress_t ..]
  have e2 : b2 = flyPen b1 c := rfl
  clear_value b1 b2
  have k5 : KeepsFlies b4 (finishCmd (carryIfShort b5 f) c.id) := by
    refine .finishCmd (.carryLoop ?_ _ f) c.id
    simp only [b5]; split
    · exact (KeepsFlies.refl b4).ringPut f _
    · exact .refl b4
  have he2 : (getFn b2 f).enabled = true := e2 ▸ flyPen_enabled c (h1.fn f he).1
  have hf3 : getFn b4 f = { getFn b2 f with appliedLsn := lsn } := getFn_applied lsn he2
  refine ⟨?flies, ?applied, fun hm p hp => ?pen⟩
  case flies =>
    obtain ⟨c1, hc1, hn1⟩ := h1.cmd c.id c hc
    obtain ⟨c2, hc2, hn2⟩ := flyPen_flies c hc1
    rw [← e2] at hc2
    have hc4 : findCmd b4 c.id = some { c2 with flies := c2.flies + 1 } :=
      findCmd_modCmd_same (b := b3) (c := c2) (fun c => { c with flies := c.flies + 1 }) (fun _ => rfl) hc2
    obtain ⟨c5, hc5, hn5⟩ := k5.cmd c.id _ hc4
    exact ⟨c5, hc5, by rw [hn5, ← hn1, ← hn2]⟩
  case applied => rw [(k5.fn f (by rw [hf3]; exact he2)).2, hf3]
  case pen =>
    have hq : penIdx b1 f (fFlyPen c) = some p := (hi1 _).trans hp
    have hb : b2 = raisePen b1 f (fFlyPen c) (tagOf c) := by
      rw [e2]; unfold flyPen; rw [if_pos]; simpa using hm
    obtain ⟨hk, hv⟩ := raisePen_value (tagOf c) hq
    rw [← hb] at hk hv
    exact ((k5.pen p (by show (getPen b2 p).lastKind ≠ 0; rw [hk]; decide)).2.trans hv).trans (by rw [hp1])

/-! ### FLY of a stream -/

/-- What a fly of a stream leaves: APPLIED_LSN, and its pennant raised by one (R414, R526). -/
theorem flyStream_raises {b : Blk} {f n : Nat} (he : (getFn b f).enabled = true) :
    (getFn (flyStream b f n) f).appliedLsn = (getFn b f).head ∧
    ∀ p, penIdx b f (getStr b f n).flyPen = some p → (getPen (flyStream b f n) p).value = (getPen b p).value + 1 := by
  unfold flyStream
  extract_lets s nf ws b1 b2 b3 b4
  have h1 : KeepsFlies b b1 := (KeepsFlies.refl b).appendLog ..
  have hp1 : ∀ p, getPen b1 p = getPen b p := appendLog_pen b f _
  have hi1 : ∀ vid, penIdx b1 f vid = penIdx b f vid := appendLog_penIdx b f _ f
  have e2 : b2 = raisePen b1 f s.flyPen s.tag := rfl
  clear_value b1 b2
  have k4 : KeepsFlies b3 (streamTryEnd (carryIfShort b4 f) f n) := .streamTryEnd (.carryLoop ((KeepsFlies.refl b3).modStr ..) _ f) f n
  have he2 : (getFn b2 f).enabled = true := e2 ▸ raisePen_enabled _ _ _ (h1.fn f he).1
  have hf3 : getFn b3 f = { getFn b2 f with appliedLsn := nf.head } := getFn_applied nf.head he2
  refine ⟨?applied, fun p hp => ?pen⟩
  case applied => rw [(k4.fn f (by rw [hf3]; exact he2)).2, hf3]
  case pen =>
    have hq : penIdx b1 f s.flyPen = some p := (hi1 _).trans hp
    obtain ⟨hk, hv⟩ := raisePen_value s.tag hq
    rw [← e2] at hk hv
    exact ((k4.pen p (by show (getPen b2 p).lastKind ≠ 0; rw [hk]; decide)).2.trans hv).trans (by rw [hp1])

section
variable {s : State} (ha : awake s.b = true)
include ha

theorem fly_cmd {id : CmdId} {c : Cmd} (hc : findCmd s.b id = some c) (hp : c.phase = .running) (hf : flFly c = true)
    (hl : fnLive s.b id.f = true) (hn : c.flies < c.ready) (hd : allDurable s.b id.f = true) :
    exec (.fly (.cmd id)) s = .next (commit s (flyCmd s.b c)) := by
  rw [row_fly, act_awake ha]; dsimp only; rw [hc]; dsimp only; rw [if_pos (by simp [hp, hf, hn, hl, hd])]

theorem fly_stream {f n : Nat} (hl : fnLive s.b f = true) (hd : allDurable s.b f = true) (hr : slotReady s.b (getStr s.b f n) = true) :
    exec (.fly (.stream f n)) s = .next (commit s (flyStream s.b f n)) := by
  rw [row_fly, act_awake ha]; dsimp only; rw [if_pos (by simp [hl, hd, hr])]

end

section
variable {s : State} (hs : s.b.stores = [])
include hs

theorem fly_cmd_held {id : CmdId} {c : Cmd} (hc : findCmd s.b id = some c) (h : c.ready ≤ c.flies ∨ allDurable s.b id.f = false) :
    exec (.fly (.cmd id)) s = .next s := by
  rw [row_fly]; refine act_nop _ hs ?_
  rcases h with h | h
  · simp [hc, Nat.not_lt.mpr h]
  · simp [hc, h]

theorem fly_stream_held {f n : Nat} (h : allDurable s.b f = false ∨ slotReady s.b (getStr s.b f n) = false) :
    exec (.fly (.stream f n)) s = .next s := by
  rw [row_fly]; refine act_nop _ hs ?_
  rcases h with h | h <;> simp [h]

end

/-- Settles O29: a fly that may go is `flyCmd_raises` or `flyStream_raises`; one that may not finds its guard false. -/
theorem fliesAreRaised : Obligations.FliesAreRaised := by
  unfold Obligations.FliesAreRaised
  intro s ha hs
  refine ⟨fun id c hc hp hf hl => ⟨fun hn hd => ?cmd, fly_cmd_held hs hc⟩, fun f n hl => ⟨fun hd hr => ?stream, fly_stream_held hs⟩⟩
  case cmd =>
    obtain rfl := findCmd_id hc
    have raises := flyCmd_raises hc (live_enabled hl)
    have e := fly_cmd ha hc hp hf hl hn hd
    generalize flyCmd s.b c = b at raises e
    obtain ⟨⟨c', hc', hflies⟩, happlied, hpen⟩ := raises
    exact ⟨commit s b, c', e, hc', hflies, happlied, hpen⟩
  case stream =>
    have raises := flyStream_raises (n := n) (live_enabled hl)
    have e := fly_stream ha hl hd hr
    generalize flyStream s.b f n = b at raises e
    obtain ⟨happlied, hpen⟩ := raises
    exact ⟨commit s b, e, happlied, hpen⟩

end Sys2Proof.Machine
end

section
/-!
Point-to-point commands at their issuer: what sending one packet keeps for its destination, and what PUT, GET, PUT_SIGNAL and MEM_ATOMIC
leave of their command (R82, R84, R317, R349).
-/
namespace Sys2Proof.Machine

/-! ### Packets kept for a destination -/

/-- Packets kept for an endpoint: those without acknowledgement and those that wait to leave. -/
def keptFor (b : Blk) (ep : Nat) : Nat := (getDst b ep).unacked.length + (getDst b ep).waiting.length

/-- A packet under an end-to-end sequence (R349). -/
def sequenced (p : Pkt) : Bool := isCollPkt p && isSeqType (preOfPkt p).type

theorem launch_dst (b : Blk) (p : Pkt) (alt : Bool) : (launch b p alt).fab.dst = b.fab.dst := by
  unfold launch; dsimp only; split
  · rfl
  · rw [outTo_eq]

theorem flowAlt_dst (b : Blk) (cmd : Option CmdId) (dst vn : Nat) : (flowAlt b cmd dst vn).2.fab.dst = b.fab.dst := by
  unfold flowAlt; split
  · rfl
  · split <;> rfl

/-- What is kept for a destination once a packet has been added to it. -/
theorem getDst_modDst (b : Blk) (ep : Nat) (g : DstSt → DstSt) (h : g (getDst b ep) ≠ dstSt0) : getDst (modDst b ep g) ep = g (getDst b ep) :=
  (tget_tset_of_ne dstSt0 b.fab.dst ep ep _ h).trans (if_pos rfl)

theorem dst_ne_of_unacked {d : DstSt} (h : d.unacked ≠ []) : d ≠ dstSt0 := by rintro rfl; exact h rfl
theorem dst_ne_of_waiting {d : DstSt} (h : d.waiting ≠ []) : d ≠ dstSt0 := by rintro rfl; exact h rfl

theorem getDst_congr {b b' : Blk} (h : b'.fab.dst = b.fab.dst) (ep : Nat) : getDst b' ep = getDst b ep := by unfold getDst; rw [h]

/-- A sequenced packet that leaves joins those without acknowledgement (R349). -/
theorem leave_unacked (b : Blk) (x : Unsent) (h : sequenced x.pkt = true) :
    ∃ u, getDst (leave b x) x.pkt.hdr.dst = { getDst b x.pkt.hdr.dst with
      next := ((getDst b x.pkt.hdr.dst).next + 1) % 2 ^ 32, unacked := (getDst b x.pkt.hdr.dst).unacked ++ [u] } := by
  unfold leave
  extract_lets p dst
  have hq : ∀ y : Bool × Blk, y = (if (p.hdr.cls == 1 && x.rank == 1) = true then (false, b) else flowAlt b x.cmd dst (vnOf p.hdr)) →
      y.2.fab.dst = b.fab.dst := by
    rintro y rfl; split
    · rfl
    · exact flowAlt_dst ..
  generalize hy : (if (p.hdr.cls == 1 && x.rank == 1) = true then (false, b) else flowAlt b x.cmd dst (vnOf p.hdr)) = y
  replace hq := hq y hy.symm
  obtain ⟨alt, b1⟩ := y
  dsimp -zeta only
  extract_lets b2 n q b3
  have h2 : b2.fab.dst = b.fab.dst := by
    simp only [b2]
    split
    · exact hq
    · exact hq
  have h3 : getDst b3 dst = { getDst b dst with next := (n + 1) % 2 ^ 32, unacked := (getDst b dst).unacked ++
      [{ seq := n, pkt := q, cmd := x.cmd, rank := x.rank, haly := none, held := false, alt, resends := 0, mcast := none }] } := by
    rw [← getDst_congr h2]
    exact getDst_modDst b2 dst _ (dst_ne_of_unacked (by simp))
  rw [if_pos (show (isCollPkt p && isSeqType (preOfPkt p).type) = true from h)]
  exact ⟨_, (getDst_congr (launch_dst b3 q alt) dst).trans (by rw [h3, show n = (getDst b dst).next from congrArg DstSt.next (getDst_congr h2 dst)])⟩

/-- Each sequenced packet sent is kept for its destination, acknowledged or not left yet. -/
theorem sendTo_kept (b : Blk) (p : Pkt) (cmd : Option CmdId) (rank : Nat) (h : sequenced p = true) :
    keptFor (sendTo b p cmd rank) p.hdr.dst = keptFor b p.hdr.dst + 1 := by
  unfold sendTo keptFor; split
  · obtain ⟨u, hu⟩ := leave_unacked b ⟨p, cmd, rank⟩ h
    rw [show getDst (leave b ⟨p, cmd, rank⟩) p.hdr.dst = _ from hu]
    simp only [List.length_append, List.length_singleton]; omega
  · rw [getDst_modDst b p.hdr.dst _ (dst_ne_of_waiting (by simp))]
    simp only [List.length_append, List.length_singleton]; omega

theorem foldl_sendTo_kept (ps : List Pkt) (b : Blk) (cmd : Option CmdId) (rank ep : Nat) (h : ∀ p ∈ ps, sequenced p = true ∧ p.hdr.dst = ep) :
    keptFor (ps.foldl (fun b p => sendTo b p cmd rank) b) ep = keptFor b ep + ps.length := by
  induction ps generalizing b with
  | nil => rfl
  | cons p ps ih =>
    obtain ⟨hs, hd⟩ := h p (.head _)
    rw [List.foldl_cons, ih _ fun q hq => h q (.tail _ hq), ← hd, sendTo_kept b p cmd rank hs, List.length_cons]
    omega

/-! ### Packets of a point-to-point command -/

theorem cryptPkt_hdr (b : Blk) (rank att : Nat) (p : Pkt) : (cryptPkt b rank att p).hdr = p.hdr := by
  unfold cryptPkt; split
  · split
    · split <;> rfl
    · rfl
  · rfl

theorem cryptPkt_sequenced (b : Blk) (rank att : Nat) (p : Pkt) : sequenced (cryptPkt b rank att p) = sequenced p := by
  unfold cryptPkt; split
  · rename_i h
    split
    · split
      · unfold sequenced isCollPkt preOfPkt; rw [h]
      · rfl
    · rfl
  · rfl

/-- The DATA and ATOMIC packets of a command are sequenced, and for its target. -/
theorem p2pPkts_target {b : Blk} {c : Cmd} {type : Nat} (ht : isSeqType type = true) (data : List Byte) :
    ∀ p ∈ p2pPkts b c type data, sequenced p = true ∧ p.hdr.dst = targetEp b c := by
  intro p hp
  simp only [p2pPkts, dataPkts, List.mem_flatMap, List.mem_map] at hp
  obtain ⟨_, _, x, _, rfl⟩ := hp
  rw [cryptPkt_sequenced, cryptPkt_hdr]
  exact ⟨ht, rfl⟩

theorem withCmd_found {b : Blk} {id : CmdId} {c : Cmd} (h : findCmd b id = some c) (k : Cmd → Blk) : withCmd b id k = k c := by
  unfold withCmd; rw [h]

/-- Sending a command's packets: they are kept for its target and counted; every other command stands as before. -/
theorem sendAll_kept (b : Blk) (c : Cmd) (ps : List Pkt) (ep : Nat) (h : ∀ p ∈ ps, sequenced p = true ∧ p.hdr.dst = ep) :
    keptFor (sendAll b c ps) ep = keptFor b ep + ps.length := foldl_sendTo_kept ps _ _ _ ep h

theorem sendAll_only (b : Blk) (c : Cmd) (ps : List Pkt) : ∃ fns fab ports, sendAll b c ps =
    { modCmd b c.id (fun c => { c with sent := c.sent + ps.length }) with fns := fns, fab := fab, ports := ports } :=
  (Sends.foldl ps _ _ fun b p => sendTo_sends b p c.id (fTarget c)).1

theorem sendAll_find {b : Blk} {c d : Cmd} (ps : List Pkt) (h : findCmd b c.id = some d) :
    findCmd (sendAll b c ps) c.id = some { d with sent := d.sent + ps.length } := by
  obtain ⟨_, _, _, e⟩ := sendAll_only b c ps
  rw [e]
  exact findCmd_modCmd_same (fun c => { c with sent := c.sent + ps.length }) (fun _ => rfl) h

/-- The target's endpoint depends on the tables and on the command's words. -/
theorem targetEp_congr {b b' : Blk} {c c' : Cmd} (ht : b'.t = b.t) (hr : c'.raw = c.raw) : targetEp b' c' = targetEp b c := by
  unfold targetEp findGroup fGid fTarget pf; rw [ht, hr]

/-! ### The SIGNAL behind the data -/

/-- How many SIGNAL packets follow a command's data: one for PUT_SIGNAL (R319). -/
def signals (c : Cmd) : Nat := if opOf c = 0x32 then 1 else 0

/-- A command once everything of it is on its way. -/
def allSent (c : Cmd) : Cmd := { c with sent := c.sent + signals c, sigSent := opOf c == 0x32 || c.sigSent, effectDone := true }

theorem sendSignal_find {b : Blk} {c : Cmd} (h : findCmd b c.id = some c) : findCmd (sendSignal b c) c.id = some (allSent c) := by
  unfold sendSignal
  by_cases ho : opOf c = 0x32
  · have h1 := sendAll_find [signalPkt b c (pktsTo b c c.chunks) (fSigPen c) (fSigAdd c) (fSigValue c)] h
    have h2 := findCmd_modCmd_same (fun c => { c with sigSent := true }) (fun _ => rfl) h1
    simp only [ho, beq_self_eq_true, if_true]
    rw [findCmd_modCmd_same (fun c => { c with effectDone := true }) (fun _ => rfl) h2]
    simp [allSent, signals, ho]
  · rw [if_neg (by simpa using ho), findCmd_modCmd_same (fun c => { c with effectDone := true }) (fun _ => rfl) h]
    simp [allSent, signals, ho]

theorem sendSignal_kept (b : Blk) (c : Cmd) : keptFor (sendSignal b c) (targetEp b c) = keptFor b (targetEp b c) + signals c := by
  unfold sendSignal signals
  by_cases ho : opOf c = 0x32
  · simp only [ho, beq_self_eq_true, if_true]
    have h := sendAll_kept b c [signalPkt b c (pktsTo b c c.chunks) (fSigPen c) (fSigAdd c) (fSigValue c)] (targetEp b c)
      (by rintro p hp; rw [List.mem_singleton.mp hp]; exact ⟨rfl, rfl⟩)
    generalize sendAll b c _ = b' at h ⊢
    exact h
  · rw [if_neg (by simpa using ho), if_neg ho]; rfl

theorem sendSignal_only (b : Blk) (c : Cmd) : ∃ fns cmds fab ports,
    sendSignal b c = { b with fns := fns, cmds := cmds, fab := fab, ports := ports } := by
  unfold sendSignal; extract_lets b1
  have h1 : ∃ fns cmds fab ports, b1 = { b with fns := fns, cmds := cmds, fab := fab, ports := ports } := by
    simp only [b1]; split
    · obtain ⟨_, _, _, e⟩ := sendAll_only b c [signalPkt b c (pktsTo b c c.chunks) (fSigPen c) (fSigAdd c) (fSigValue c)]
      rw [e]; exact ⟨_, _, _, _, rfl⟩
    · exact ⟨_, _, _, _, rfl⟩
  clear_value b1
  obtain ⟨_, _, _, _, rfl⟩ := h1
  exact ⟨_, _, _, _, rfl⟩

/-! ### PUT, PUT_SIGNAL, MEM_ATOMIC -/

/-- The command as it stands while its chunks are on their way (R82, R84). -/
def putStarted (b : Blk) (c d : Cmd) : Cmd :=
  { d with chunks := cdiv (p2pBytes c) (chunkOf b c), flags := d.flags &&& 2 ||| b2n (opOf c == 0x33), status := b2n c.split }

/-- The packets of a command's data. -/
def putPkts (b : Blk) (m : Tab Byte) (c : Cmd) (type : Nat) : List Pkt :=
  p2pPkts b c type (fnRead b m c.id.f (fSpaceA c) (fLocal c) (p2pBytes c))

/-- The block once a command's data packets are sent. -/
def dataSent (b : Blk) (m : Tab Byte) (c : Cmd) (type : Nat) : Blk := sendAll (modCmd b c.id (putStarted b c)) c (putPkts b m c type)

/-- What a command's own packets leave: the command as given, as many more packets kept for its target as it has sent more, and nothing
outside functions, commands, the fabric and the ports. -/
structure SentAs (b b' : Blk) (c c' : Cmd) : Prop where
  found : findCmd b' c.id = some c'
  kept : keptFor b' (targetEp b c) + c.sent = keptFor b (targetEp b c) + c'.sent
  frame : ∃ fns cmds fab ports, b' = { b with fns := fns, cmds := cmds, fab := fab, ports := ports }

/-- A command that has sent n packets more. -/
def sentMore (n : Nat) (c : Cmd) : Cmd := { c with sent := c.sent + n }

/-- A signal sent behind what a command has sent already. -/
theorem SentAs.signal {b b' : Blk} {c d : Cmd} (h : SentAs b b' c d) (hi : d.id = c.id) (hr : d.raw = c.raw) :
    SentAs b (sendSignal b' d) c (allSent d) := by
  obtain ⟨found, kept, frame⟩ := h
  have ht : b'.t = b.t := by obtain ⟨_, _, _, _, e⟩ := frame; rw [e]
  refine ⟨hi ▸ sendSignal_find (hi ▸ found), ?_, ?_⟩
  · have hk := sendSignal_kept b' d
    rw [targetEp_congr ht hr] at hk
    rw [hk, show (allSent d).sent = d.sent + signals d from rfl]
    omega
  · obtain ⟨_, _, _, _, e⟩ := frame
    obtain ⟨_, _, _, _, e'⟩ := sendSignal_only b' d
    rw [e', e]; exact ⟨_, _, _, _, rfl⟩

section
variable {b : Blk} {c : Cmd} (hc : findCmd b c.id = some c)
include hc

/-- Sequenced packets for its target, sent after a change that keeps the command's identity. -/
theorem sendAll_sentAs (g : Cmd → Cmd) (ps : List Pkt) (hi : ∀ d, (g d).id = d.id) (hs : (g c).sent = c.sent)
    (hp : ∀ p ∈ ps, sequenced p = true ∧ p.hdr.dst = targetEp b c) : SentAs b (sendAll (modCmd b c.id g) c ps) c (sentMore ps.length (g c)) where
  found := sendAll_find ps (findCmd_modCmd_same g hi hc)
  kept := by
    have h : keptFor (sendAll (modCmd b c.id g) c ps) (targetEp b c) = keptFor b (targetEp b c) + ps.length := sendAll_kept _ c _ _ hp
    rw [h, show (sentMore ps.length (g c)).sent = c.sent + ps.length by rw [← hs]; rfl]
    omega
  frame := by
    obtain ⟨_, _, _, e⟩ := sendAll_only (modCmd b c.id g) c ps
    rw [e]; exact ⟨_, _, _, _, rfl⟩

theorem dataSent_sentAs (m : Tab Byte) {type : Nat} (ht : isSeqType type = true) :
    SentAs b (dataSent b m c type) c (sentMore (putPkts b m c type).length (putStarted b c c)) :=
  sendAll_sentAs hc (putStarted b c) _ (fun _ => rfl) rfl (p2pPkts_target ht _)

theorem putFx_signalled (m : Tab Byte) {type : Nat} (ht : isSeqType type = true) (h0 : c.chunks = 0) (hr : flRfly c = false) :
    SentAs b (putFx b m c type none) c (allSent (sentMore (putPkts b m c type).length (putStarted b c c))) := by
  have h := dataSent_sentAs hc m ht
  have e : putFx b m c type none = sendSignal (dataSent b m c type) (sentMore (putPkts b m c type).length (putStarted b c c)) := by
    unfold putFx; rw [if_neg (by simp [h0])]; dsimp only; rw [if_neg (by simp [hr])]
    exact withCmd_found h.found (sendSignal (dataSent b m c type))
  rw [e]
  exact h.signal rfl rfl

end

/-- With remote flies the signal waits for them (R462). -/
theorem putFx_rfly {b : Blk} {c : Cmd} (m : Tab Byte) (type : Nat) (h0 : c.chunks = 0) (hr : flRfly c = true) :
    putFx b m c type none = dataSent b m c type := by
  unfold putFx; rw [if_neg (by simp [h0])]; dsimp only; rw [if_pos hr]; rfl

/-- NONDET is bit 0 of the flags (R84, R521). -/
theorem putStarted_nondet (b : Blk) (c : Cmd) : (putStarted b c c).flags % 2 = b2n (opOf c == 0x33) := by
  have h2 : (c.flags &&& 2) % 2 = 0 := by rw [Nat.and_mod_two_pow (n := 1)]; simp
  show (c.flags &&& 2 ||| b2n (opOf c == 0x33)) % 2 = _
  rw [Nat.or_mod_two_pow (n := 1), pow_one, h2]
  unfold b2n; split <;> rfl

/-! ### GET -/

/-- The command as it stands while its requests are out (R353). -/
def getStarted (b : Blk) (c d : Cmd) : Cmd :=
  { d with chunks := cdiv (fLen c) (chunkOf b c), gotten := List.replicate (cdiv (fLen c) (chunkOf b c)) 0, effectDone := true, status := b2n c.split }

/-- A GET's request for a chunk (R318, R353). -/
def getReqPkt (b : Blk) (c : Cmd) (i : Nat) : Pkt :=
  { hdr := hdrTo b (targetEp b c) 0 0
    body := .coll (cmdPre b c 3 0 (specLO (min (chunkOf b c) (fLen c - i * chunkOf b c)) (i * chunkOf b c))) [] }

theorem getFx_sentAs {b : Blk} {c : Cmd} (hc : findCmd b c.id = some c) (h0 : c.chunks = 0) :
    SentAs b (getFx b c none) c (sentMore (cdiv (fLen c) (chunkOf b c)) (getStarted b c c)) := by
  have h := sendAll_sentAs hc (getStarted b c) ((List.range (cdiv (fLen c) (chunkOf b c))).map (getReqPkt b c)) (fun _ => rfl) rfl
    (by intro p hp; obtain ⟨i, _, rfl⟩ := List.mem_map.mp hp; exact ⟨rfl, rfl⟩)
  rw [List.length_map, List.length_range] at h
  have e : getFx b c none = sendAll (modCmd b c.id (getStarted b c)) c ((List.range (cdiv (fLen c) (chunkOf b c))).map (getReqPkt b c)) := by
    unfold getFx; rw [if_neg (by simp [h0])]; rfl
  rw [e]; exact h

/-- What a sending row leaves of the state: no byte of memory, nothing outside functions, commands, the fabric and the ports. -/
theorem SentAs.commit {s : State} {b : Blk} {c c' : Cmd} (h : SentAs s.b b c c') (hs : s.b.stores = []) :
    (commit s b).mem = s.mem ∧ (commit s b).b = { s.b with fns := b.fns, cmds := b.cmds, fab := b.fab, ports := b.ports } := by
  obtain ⟨_, _, _, _, e⟩ := h.frame
  have hb : b.stores = [] := by rw [e]; exact hs
  rw [commit_of_no_stores s b hb, e]
  exact ⟨rfl, rfl⟩

/-- The rows of PUT, PUT_SIGNAL and MEM_ATOMIC run `putFx` with their packet type. -/
theorem putRows_run {s : State} {c : Cmd} (ha : awake s.b = true) :
    ∀ row ∈ ([(.put, 0x30, 1), (.putSignal, 0x32, 1), (.memAtomic, 0x33, 5)] : List ((CmdId → Option AccFault → Instr) × Nat × Nat)),
      RunsNow s.b c.id row.2.1 c → isSeqType row.2.2 = true ∧ exec (row.1 c.id none) s = .next (Machine.commit s (putFx s.b s.mem c row.2.2 none)) := by
  simp only [List.forall_mem_cons, List.not_mem_nil, false_implies, implies_true, and_true]
  refine ⟨fun hr => ⟨rfl, ?_⟩, fun hr => ⟨rfl, ?_⟩, fun hr => ⟨rfl, ?_⟩⟩
  · rw [row_put, act_awake ha, onRun_runs hr (awake_run ha)]
  · rw [row_putSignal, act_awake ha, onRun_runs hr (awake_run ha)]
  · rw [row_memAtomic, act_awake ha, onRun_runs hr (awake_run ha)]

/-- Settles O34: `putFx` with and without remote flies, and `getFx`, by what sending a command's packets leaves (`SentAs`). -/
theorem pointToPointSends : Obligations.PointToPointSends := by
  unfold Obligations.PointToPointSends
  intro id c s ha hs h0
  refine ⟨fun row hrow hr => ?put, fun hr => ?get⟩
  case put =>
    obtain rfl := findCmd_id hr.1
    obtain ⟨hc, hp, ho, -, he, -⟩ := id hr
    obtain ⟨ht, hx⟩ := putRows_run ha row hrow hr
    rw [hx]
    cases hf : flRfly c with
    | false =>
      have h := putFx_signalled hc s.mem ht h0 hf
      generalize putFx s.b s.mem c row.2.2 none = b' at h ⊢
      obtain ⟨hm, hb⟩ := h.commit hs
      refine ⟨_, _, rfl, h.found, hm, hb, hp, rfl, ho ▸ putStarted_nondet s.b c, h.kept, ?_, fun _ => rfl, nofun⟩
      show c.sent + (putPkts s.b s.mem c row.2.2).length + signals c = _
      simp [signals, ho, putPkts]
    | true =>
      have h := dataSent_sentAs hc s.mem ht
      rw [putFx_rfly s.mem row.2.2 h0 hf]
      generalize dataSent s.b s.mem c row.2.2 = b' at h ⊢
      obtain ⟨hm, hb⟩ := h.commit hs
      refine ⟨_, _, rfl, h.found, hm, hb, hp, rfl, ho ▸ putStarted_nondet s.b c, h.kept, ?_, nofun, fun _ => ⟨he, rfl⟩⟩
      simp [sentMore, putStarted, putPkts]
  case get =>
    obtain rfl := findCmd_id hr.1
    have h := getFx_sentAs hr.1 h0
    obtain ⟨hm, hb⟩ := h.commit hs
    refine ⟨Machine.commit s (getFx s.b c none), _, ?_, h.found, hm, hb, hr.2.1, rfl, rfl, rfl, h.kept⟩
    rw [row_get, act_awake ha, onRun_runs hr (awake_run ha)]

end Sys2Proof.Machine
end

section
/-!
SUPPORT for the rows of packets: what a new packet of a current group goes on to, and what applying its sequence (R349 to R351) changes.
-/
namespace Sys2Proof.Machine

variable {b : Blk} {p : Pkt} {type h : Nat} {g : Group}

/-! ### New packets reach the effect of their type -/

theorem onPkt_here (port : Nat) (k : Blk → Blk) (hc : isCollPkt p = true) (ht : (preOfPkt p).type = type) (hh : p.hdr.hop ≠ 0)
    (hd : p.hdr.dst = selfEp b) (hn : isSeqType type = false ∨ type = 3 ∨ applied (getSrc b (srcKey b p)) (preOfPkt p).e2e = false) :
    onPkt b port p type k = k (taken b port p) := by
  have hs : getSrc (taken b port p) (srcKey (taken b port p) p) = getSrc b (srcKey b p) := rfl
  have hm : misrouted (taken b port p) p = false := by
    have : p.hdr.dst = selfEp (taken b port p) := hd
    simp [misrouted, this]
  unfold onPkt
  rw [if_neg (by simp [hc, ht, ownCopy, hh])]
  dsimp only
  rw [hm, if_neg (by simp), hs, if_neg (by rcases hn with e | e | e <;> simp [e])]

/-- A new packet of a group's current generation goes on to its effect, taken off those that have arrived. -/
theorem onPkt_onGen (hn : NewFor b type p h g) (port : Nat) (k : Blk → Nat → Group → Blk) :
    (onPkt b port p type fun b => onGen b p (k b)) = k (taken b port p) h g := by
  obtain ⟨hc, ht, hh, hd, ha, hf, hg, hr⟩ := hn
  rw [onPkt_here port _ hc ht hh hd (.inr (.inr ha))]
  have hf' : findGroup (taken b port p) (preOfPkt p).gid = some (h, g) := hf
  simp [onGen, hf', hg, hr]

theorem newFor_type (hn : NewFor b type p h g) : (preOfPkt p).type = type := hn.2.1

theorem newFor_valid (hn : NewFor b type p h g) : g.valid = true := by
  obtain ⟨-, -, -, -, -, hf, -⟩ := hn
  have hv := List.find?_some hf
  simp only [Bool.and_eq_true] at hv
  exact hv.1

/-! ### Sequences -/

theorem srcKey_congr {b' : Blk} (p : Pkt) (ht : b'.t = b.t) : srcKey b' p = srcKey b p := by
  unfold srcKey domainWith; rw [ht]

theorem getSrc_congr {b' : Blk} (k : Bool × Nat) (hs : b'.fab.src = b.fab.src) (hm : b'.fab.msrc = b.fab.msrc) : getSrc b' k = getSrc b k := by
  unfold getSrc; rw [hs, hm]

theorem getSrc_modSrc (b : Blk) (k : Bool × Nat) (g : SrcSt → SrcSt) (hg : g (getSrc b k) ≠ srcSt0) : getSrc (modSrc b k g) k = g (getSrc b k) := by
  obtain ⟨m, k⟩ := k
  cases m <;> exact (tget_tset_of_ne _ _ _ _ _ hg).trans (if_pos rfl)

/-- Sequence spaces apart, nothing changes. -/
theorem modSrc_only (b : Blk) (k : Bool × Nat) (g : SrcSt → SrcSt) :
    ∃ src msrc, modSrc b k g = { b with fab := { b.fab with src := src, msrc := msrc } } := by
  unfold modSrc; split <;> exact ⟨_, _, rfl⟩

theorem mark_only (b : Blk) (k : Bool × Nat) (seq : Nat) : ∃ src msrc, mark b k seq = { b with fab := { b.fab with src := src, msrc := msrc } } :=
  modSrc_only ..

theorem ackDue_only (b : Blk) (k : Bool × Nat) (seq : Nat) : ∃ src msrc, ackDue b k seq = { b with fab := { b.fab with src := src, msrc := msrc } } :=
  modSrc_only ..

theorem takeSeq_only (b : Blk) (p : Pkt) : ∃ src msrc, takeSeq b p = { b with fab := { b.fab with src := src, msrc := msrc } } := by
  unfold takeSeq; dsimp only; split
  · obtain ⟨x, y, e⟩ := mark_only b (srcKey b p) (preOfPkt p).e2e
    obtain ⟨x', y', e'⟩ := ackDue_only (mark b (srcKey b p) (preOfPkt p).e2e) (srcKey b p) (preOfPkt p).e2e
    rw [e', e]; exact ⟨_, _, rfl⟩
  · exact ⟨_, _, rfl⟩

/-- A sequence marked counts as applied (R350); what is due stays due. -/
theorem getSrc_mark (b : Blk) (k : Bool × Nat) (seq : Nat) :
    applied (getSrc (mark b k seq) k) seq = true ∧ (getSrc (mark b k seq) k).due = (getSrc b k).due := by
  unfold mark
  rw [getSrc_modSrc _ _ _ (by intro h; cases congrArg SrcSt.seen h)]
  exact ⟨by simp [applied], rfl⟩

/-- An acknowledgement due (R351); what is applied stays so. -/
theorem getSrc_ackDue (b : Blk) (k : Bool × Nat) (seq : Nat) :
    seq ∈ (getSrc (ackDue b k seq) k).due ∧ ∀ n, applied (getSrc (ackDue b k seq) k) n = applied (getSrc b k) n := by
  have hm : seq ∈ (if (getSrc b k).due.contains seq then (getSrc b k).due else (getSrc b k).due ++ [seq]) := by
    by_cases hc : seq ∈ (getSrc b k).due <;> simp [hc]
  unfold ackDue
  rw [getSrc_modSrc]
  · exact ⟨hm, fun _ => rfl⟩
  · intro h
    have hd := congrArg SrcSt.due h
    dsimp only at hd
    rw [hd] at hm
    cases hm

theorem acknowledged_congr {b' : Blk} (ha : Acknowledged b p) (ht : b'.t = b.t) (hs : b'.fab.src = b.fab.src) (hm : b'.fab.msrc = b.fab.msrc) :
    Acknowledged b' p := by
  unfold Acknowledged; rw [srcKey_congr p ht, getSrc_congr _ hs hm]; exact ha

theorem acknowledged_takeSeq (b : Blk) (hq : isSeqType (preOfPkt p).type = true) : Acknowledged (takeSeq b p) p := by
  obtain ⟨x, y, e⟩ := takeSeq_only b p
  have hk : srcKey (takeSeq b p) p = srcKey b p := srcKey_congr p (by rw [e])
  unfold Acknowledged
  rw [hk]
  unfold takeSeq; rw [if_pos hq]
  obtain ⟨hd, ha⟩ := getSrc_ackDue (mark b (srcKey b p) (preOfPkt p).e2e) (srcKey b p) (preOfPkt p).e2e
  exact ⟨(ha _).trans (getSrc_mark ..).1, hd⟩

/-! ### The end of a command -/

/-- A running command whose effect is carried out ends once its flies and its acknowledgements are complete, with its status (R82, R93). -/
theorem finishCmd_running {id : CmdId} {c : Cmd} (hc : findCmd b id = some c) (hp : c.phase = .running) (he : c.effectDone = true) (hw : c.waitOn = none) :
    ∃ ph r cmds, findCmd (finishCmd b id) id = some { c with phase := ph, result := r } ∧
      (ph = .ended ↔ (flFly c = false ∨ c.flies = c.chunks) ∧ c.sent ≤ c.acked) ∧ finishCmd b id = { b with cmds := cmds } := by
  unfold finishCmd
  rw [withCmd_found hc]
  by_cases ha : (flFly c = false ∨ c.flies = c.chunks) ∧ c.sent ≤ c.acked
  · rw [if_pos (by simpa [hp, he] using ha), endCmd_ended _ _ hc (by simp [hp]) hw]
    exact ⟨_, _, _, findCmd_modCmd_same _ (fun _ => rfl) hc, by simp [ha], rfl⟩
  · rw [if_neg (by simpa [hp, he] using ha)]
    exact ⟨_, _, _, hc, by simp [ha, hp], rfl⟩

end Sys2Proof.Machine
end

section
/-!
O54: notices of an abort and of a break at the engine they reach, and the copies of a multicast packet.
-/
namespace Sys2Proof.Machine

/-! ### ABORT_NOTICE -/

/-- A command stopped ends with the status given. -/
theorem stopCmd_endedWith {b : Blk} {id : CmdId} {c : Cmd} (st : Nat) (h : findCmd b id = some c) (hp : c.phase ≠ .ended) :
    ∃ r, EndedWith (stopCmd b id st) id st r := by
  unfold stopCmd withCmd; rw [h]; dsimp only; rw [if_neg hp]
  refine ⟨_, endCmd_endedWith st _ (c := c) ?_ hp⟩
  refine (findCmd_congr id ?_).trans h
  obtain ⟨_, _, e⟩ := undefDst_only (if (namesGroup c && !isP2p (opOf c)) = true then abandon b (fGid c) (fGen c) (some (fCseq c)) else b) c
  rw [e]
  show Blk.cmds (if (namesGroup c && !isP2p (opOf c)) = true then abandon b (fGid c) (fGen c) (some (fCseq c)) else b) = b.cmds
  split
  · exact abandon_cmds ..
  · rfl

theorem stopped_endedWith {b : Blk} {id : CmdId} {c : Cmd} (st : Nat) (h : findCmd b id = some c) (hp : c.phase ≠ .ended) :
    ∃ r, EndedWith (unstage (stopCmd b id st) id) id st r := by
  obtain ⟨r, hr⟩ := stopCmd_endedWith st h hp
  exact ⟨r, unstage_ew _ _ _ _ _ hr⟩

/-- The live commands that a packet names. -/
def liveFor (b : Blk) (q : Prefix) : List Cmd := (cmdFor b q none).filter fun c => !decide (c.phase = .ended)

theorem liveFor_congr {b b' : Blk} (q : Prefix) (h : b'.cmds = b.cmds) : liveFor b' q = liveFor b q := by
  unfold liveFor cmdFor; rw [h]

theorem mem_liveFor {b : Blk} {q : Prefix} {c : Cmd} (h : c ∈ liveFor b q) : c.phase ≠ .ended := by
  have := (List.mem_filter.mp h).2
  simpa using this

theorem endedWith_ite {x y : Blk} {id : CmdId} {st r : Nat} {P : Prop} [Decidable P] (hx : EndedWith x id st r) (hy : EndedWith y id st r) :
    EndedWith (if P then x else y) id st r := by split <;> assumption

theorem streamsError_ew (l : List (Nat × Stream)) (st : Nat) (b : Blk) :
    KeepsEW b (l.foldl (fun b e => streamError b (e.1 / 64) (e.1 % 64) st) b) :=
  KeepsEW.foldl _ _ _ fun b _ => streamError_ew b _ _ st

/-- The one live command that a notice names ends with the notice's status (R59, R128). -/
theorem abortFx_ends {b : Blk} {g : Group} {p : Pkt} {c : Cmd} (hl : liveFor b (preOfPkt p) = [c]) (hc : findCmd b c.id = some c)
    (hp : tb (preOfPkt p).cseq 47 = true → isP2p (opOf c) = true) :
    ∃ r, EndedWith (abortFx b g p) c.id (fld (preOfPkt p).spec 7 0) r := by
  have hcm : (takeSeq b p).cmds = b.cmds := by obtain ⟨_, _, e⟩ := takeSeq_only b p; rw [e]
  have hl' : ((cmdFor (takeSeq b p) (preOfPkt p) none).filter fun c => !decide (c.phase = .ended)) = [c] := (liveFor_congr _ hcm).trans hl
  have hc' : findCmd (takeSeq b p) c.id = some c := (findCmd_congr _ hcm).trans hc
  have hph : c.phase ≠ .ended := mem_liveFor (hl ▸ List.mem_singleton_self c)
  unfold abortFx; dsimp only
  rw [hl']
  split
  next ht =>
    simp only [List.filter_cons, hp ht, if_true, List.filter_nil, List.foldl_cons, List.foldl_nil]
    refine stopped_endedWith _ ?_ hph
    split
    · refine (findCmd_congr _ ?_).trans hc'
      unfold accessEvent; rw [event_eq]
    · exact hc'
  next =>
    simp only [List.foldl_cons, List.foldl_nil]
    obtain ⟨r, hr⟩ := stopped_endedWith (fld (preOfPkt p).spec 7 0) hc' hph
    exact ⟨r, endedWith_ite (streamsError_ew _ _ _ _ _ _ hr) ((streamsError_ew _ _ _).fab _ _ _ _ hr)⟩

/-- No stream of this engine is shared by the command that a packet names. -/
def NoStreamFor (b : Blk) (q : Prefix) : Prop :=
  ∀ e ∈ b.t.stream, ¬ (e.2.valid = true ∧ e.2.sharded = true ∧ e.2.gid = q.gid ∧ e.2.gen = q.gen ∧ e.2.cseq = q.cseq)

/-- A notice of a command not posted yet is kept (R60). -/
theorem abortFx_keeps {b : Blk} {g : Group} {p : Pkt} (ht : tb (preOfPkt p).cseq 47 = false) (hn : cmdFor b (preOfPkt p) none = []) (hl : g.locs ≠ [])
    (hs : NoStreamFor b (preOfPkt p)) (ha : ∀ a ∈ b.fab.aborts, (a.1, a.2.1, a.2.2.1) ≠ ((preOfPkt p).gid, (preOfPkt p).gen, (preOfPkt p).cseq)) :
    abortFx b g p = { takeSeq b p with fab := { (takeSeq b p).fab with
      aborts := b.fab.aborts ++ [((preOfPkt p).gid, (preOfPkt p).gen, (preOfPkt p).cseq, fld (preOfPkt p).spec 7 0)] } } := by
  obtain ⟨x, y, e⟩ := takeSeq_only b p
  have hn' : cmdFor (takeSeq b p) (preOfPkt p) none = [] := by rw [e]; exact hn
  have hs' : ((takeSeq b p).t.stream.filter fun e => e.2.valid && e.2.sharded && e.2.gid == (preOfPkt p).gid && e.2.gen == (preOfPkt p).gen &&
      e.2.cseq == (preOfPkt p).cseq) = [] := by
    rw [e, List.filter_eq_nil_iff]
    intro z hz hz'
    simp only [Bool.and_eq_true, beq_iff_eq] at hz'
    obtain ⟨⟨⟨⟨h1, h2⟩, h3⟩, h4⟩, h5⟩ := hz'
    exact hs z hz ⟨h1, h2, h3, h4, h5⟩
  have hab : (takeSeq b p).fab.aborts = b.fab.aborts := by rw [e]
  have ha' : (b.fab.aborts.any fun a => a.1 == (preOfPkt p).gid && a.2.1 == (preOfPkt p).gen && a.2.2.1 == (preOfPkt p).cseq) = false := by
    rw [List.any_eq_false]
    intro a hm h
    simp only [Bool.and_eq_true, beq_iff_eq] at h
    obtain ⟨⟨h1, h2⟩, h3⟩ := h
    exact ha a hm (by rw [h1, h2, h3])
  have hlen : ¬ g.locs.length ≤ 0 := by simpa [List.length_eq_zero_iff] using hl
  unfold abortFx
  simp only [ht, hn', List.filter_nil, List.foldl_nil, hs', hab, ha', List.length_nil, hlen, Bool.or_false, decide_false, if_false,
    Bool.false_eq_true]

/-! ### MULTICAST -/

/-- The packet goes on to a port: another than its own, awake, with members of the mask behind it. -/
def goesOn (e : List Nat) (arrival mask : Nat) (b : Blk) (i : Nat) : Bool := i != arrival && codeAwake b i && mask &&& domMask e i != 0

/-- The copy of a packet for a port (R367). -/
def copyFor (e : List Nat) (p : Pkt) (d mask : Nat) (b : Blk) (i : Nat) : Pkt := { p with hdr := mcHdr b p.hdr d (mask &&& domMask e i) }

/-- One port's copy. -/
def mcStep (e : List Nat) (arrival : Nat) (p : Pkt) (d mask : Nat) (b : Blk) (i : Nat) : Blk :=
  if goesOn e arrival mask b i then
    outTo b i (vnOf (copyFor e p d mask b i).hdr) arrival (arrival == 63) (cellsOf (copyFor e p d mask b i))
  else b

theorem mcCopies_steps (b : Blk) (arrival : Nat) (p : Pkt) (d mask : Nat) :
    mcCopies b arrival p d mask = (List.range 42).foldl (mcStep (domOf b d) arrival p d mask) b := rfl

theorem portAt_serves {b : Blk} {i m : Nat} (h : portAt b i = some m) : (getP b m).serves = i := by
  have hm := List.find?_some h
  simp only [Bool.and_eq_true, beq_iff_eq] at hm
  exact hm.1.2

/-- Two ports that answer to the same code. -/
def SameCode (x y : Port) : Prop := x.serves = y.serves ∧ x.spared = y.spared

theorem portAt_congr {b b' : Blk} (i : Nat) (hp : b'.part = b.part) (h : ∀ n, SameCode (getP b' n) (getP b n)) : portAt b' i = portAt b i := by
  unfold portAt portExists
  rw [hp]
  congr 1; funext n
  rw [(h n).1, (h n).2]

/-- A port with cells queued on it. -/
def queuedOn (vn src : Nat) (en : Bool) (cells : List FCell) (p : Port) : Port :=
  rouse { p with out := p.out ++ [{ vn, src, entering := en, started := false, cells }], idle := 0 }

theorem queuedOn_code (vn src : Nat) (en : Bool) (cells : List FCell) (p : Port) : SameCode (queuedOn vn src en cells p) p := by
  unfold queuedOn rouse; split <;> exact ⟨rfl, rfl⟩

theorem queuedOn_out (vn src : Nat) (en : Bool) (cells : List FCell) (p : Port) :
    (queuedOn vn src en cells p).out = p.out ++ [{ vn, src, entering := en, started := false, cells }] := by
  unfold queuedOn rouse; split <;> rfl

theorem queuedOn_cells (vn src : Nat) (en : Bool) (cells : List FCell) (p : Port) :
    (queuedOn vn src en cells p).out.map (·.cells) = p.out.map (·.cells) ++ [cells] := by
  rw [queuedOn_out]; simp

/-- Cells for a port that is UP are queued on it. -/
theorem outTo_up {b : Blk} {i m : Nat} (vn src : Nat) (en : Bool) (cells : List FCell) (h : portAt b i = some m) (hu : (getP b m).state = 2) :
    outTo b i vn src en cells = modP b m (queuedOn vn src en cells) := by
  unfold outTo; rw [h]; dsimp only; rw [if_pos (by simp [hu])]; rfl

theorem getP_modP_same (b : Blk) {n : Nat} (g : Port → Port) (h : n < b.ports.length) : getP (modP b n g) n = g (getP b n) :=
  getD_modify_same _ _ _ _ h

theorem getP_modP_other (b : Blk) {n k : Nat} (g : Port → Port) (h : k ≠ n) : getP (modP b n g) k = getP b k :=
  getD_modify_other _ _ _ _ _ h

theorem modP_code (b : Blk) (n k : Nat) (g : Port → Port) (hg : ∀ p, SameCode (g p) p) : SameCode (getP (modP b n g) k) (getP b k) := by
  by_cases hk : k = n
  · subst hk
    by_cases hl : k < b.ports.length
    · rw [getP_modP_same b g hl]; exact hg _
    · have e : modP b k g = b := by unfold modP; rw [List.modify_eq_self (Nat.le_of_not_lt hl)]
      rw [e]; exact ⟨rfl, rfl⟩
  · rw [getP_modP_other b g hk]; exact ⟨rfl, rfl⟩

section
variable (e : List Nat) (arrival : Nat) (p : Pkt) (d mask : Nat) (b : Blk)

/-- A copy to a port that takes it is queued on the port that answers to the code. -/
theorem mcStep_goes {i : Nat} (hg : goesOn e arrival mask b i = true) : ∃ m vn, portAt b i = some m ∧
    mcStep e arrival p d mask b i = modP b m (queuedOn vn arrival (arrival == 63) (cellsOf (copyFor e p d mask b i))) := by
  unfold mcStep; rw [if_pos hg]
  simp only [goesOn, codeAwake, Bool.and_eq_true] at hg
  obtain ⟨⟨-, ha⟩, -⟩ := hg
  cases hp : portAt b i with
  | none => simp [hp] at ha
  | some m =>
    simp only [hp, Bool.and_eq_true, beq_iff_eq] at ha
    exact ⟨m, _, rfl, outTo_up _ _ _ _ hp ha.1⟩

theorem mcStep_stays {i : Nat} (hg : goesOn e arrival mask b i = false) : mcStep e arrival p d mask b i = b := by
  unfold mcStep; rw [if_neg (by simp [hg])]

theorem mcStep_code (i n : Nat) : SameCode (getP (mcStep e arrival p d mask b i) n) (getP b n) := by
  cases hg : goesOn e arrival mask b i with
  | false => rw [mcStep_stays _ _ _ _ _ _ hg]; exact ⟨rfl, rfl⟩
  | true =>
    obtain ⟨m, vn, -, h⟩ := mcStep_goes e arrival p d mask b hg
    rw [h]; exact modP_code _ _ _ _ fun _ => queuedOn_code ..

/-- Nothing but ports changes; their number stays. -/
theorem mcStep_only (i : Nat) : ∃ ports, mcStep e arrival p d mask b i = { b with ports := ports } ∧ ports.length = b.ports.length := by
  cases hg : goesOn e arrival mask b i with
  | false => rw [mcStep_stays _ _ _ _ _ _ hg]; exact ⟨_, rfl, rfl⟩
  | true =>
    obtain ⟨m, vn, -, h⟩ := mcStep_goes e arrival p d mask b hg
    rw [h]; exact ⟨_, rfl, List.length_modify ..⟩

theorem mcStep_portAt (i j : Nat) : portAt (mcStep e arrival p d mask b i) j = portAt b j := by
  refine portAt_congr j ?_ (mcStep_code e arrival p d mask b i)
  obtain ⟨_, h, -⟩ := mcStep_only e arrival p d mask b i
  rw [h]

/-- A port that does not answer to the code stays as it is. -/
theorem mcStep_other {i m : Nat} (h : goesOn e arrival mask b i = true → portAt b i ≠ some m) : getP (mcStep e arrival p d mask b i) m = getP b m := by
  cases hg : goesOn e arrival mask b i with
  | false => rw [mcStep_stays _ _ _ _ _ _ hg]
  | true =>
    obtain ⟨n, vn, hp, e⟩ := mcStep_goes e arrival p d mask b hg
    rw [e, getP_modP_other]
    rintro rfl
    exact h hg hp

/-- Whether a packet goes on to another port does not depend on this one's copy. -/
theorem mcStep_goesOn {i j : Nat} (hn : j ≠ i) : goesOn e arrival mask (mcStep e arrival p d mask b i) j = goesOn e arrival mask b j := by
  unfold goesOn codeAwake
  rw [mcStep_portAt]
  cases hp : portAt b j with
  | none => rfl
  | some n =>
    have h : getP (mcStep e arrival p d mask b i) n = getP b n := mcStep_other _ _ _ _ _ _ fun _ hi => hn ((portAt_serves hp).symm.trans (portAt_serves hi))
    dsimp only; rw [h]

theorem mcStep_copyFor (i j : Nat) : copyFor e p d mask (mcStep e arrival p d mask b i) j = copyFor e p d mask b j := by
  obtain ⟨_, h, -⟩ := mcStep_only e arrival p d mask b i
  rw [h]; rfl

theorem mcSteps_other (l : List Nat) (hl : l.Nodup) (m : Nat) (h : ∀ i ∈ l, goesOn e arrival mask b i = true → portAt b i ≠ some m) :
    getP (l.foldl (mcStep e arrival p d mask) b) m = getP b m := by
  induction l generalizing b with
  | nil => rfl
  | cons i l ih =>
    obtain ⟨hi, hl⟩ := List.nodup_cons.mp hl
    refine (ih _ hl fun j hj hg => ?_).trans (mcStep_other _ _ _ _ _ _ (h i List.mem_cons_self))
    have hn : j ≠ i := fun e => hi (e ▸ hj)
    rw [mcStep_portAt]
    exact h j (List.mem_cons_of_mem _ hj) (mcStep_goesOn e arrival p d mask b hn ▸ hg)

/-- Every port that the packet goes on to has its copy queued, each port once. -/
theorem mcSteps_copy (l : List Nat) (hl : l.Nodup) {i m : Nat} (hi : i ∈ l) (hg : goesOn e arrival mask b i = true) (hp : portAt b i = some m)
    (hm : m < b.ports.length) : (getP (l.foldl (mcStep e arrival p d mask) b) m).out.map (·.cells) =
      (getP b m).out.map (·.cells) ++ [cellsOf (copyFor e p d mask b i)] := by
  induction l generalizing b with
  | nil => cases hi
  | cons j l ih =>
    obtain ⟨hj, hl'⟩ := List.nodup_cons.mp hl
    rw [List.foldl_cons]
    rcases List.mem_cons.mp hi with rfl | hi
    · rw [mcSteps_other _ _ _ _ _ _ l hl' m fun k hk _ hk' => ?_]
      · obtain ⟨n, vn, hp', h⟩ := mcStep_goes e arrival p d mask b hg
        obtain rfl := Option.some.inj (hp.symm.trans hp')
        rw [h, getP_modP_same _ _ hm, queuedOn_cells]
      · rw [mcStep_portAt] at hk'
        exact hj ((portAt_serves hp).symm.trans (portAt_serves hk') ▸ hk)
    · have hn : i ≠ j := fun e => hj (e ▸ hi)
      obtain ⟨ports, h, hlen⟩ := mcStep_only e arrival p d mask b j
      rw [ih (mcStep e arrival p d mask b j) hl' hi (by rw [mcStep_goesOn _ _ _ _ _ _ hn]; exact hg) (by rw [mcStep_portAt]; exact hp) (by rw [h]; dsimp only; omega),
        mcStep_copyFor, mcStep_other]
      exact fun _ h => hn ((portAt_serves hp).symm.trans (portAt_serves h))

end

/-- The packet as it is delivered here, if SELF is in its mask (R367). -/
def selfCopy (b : Blk) (port : Nat) (p : Pkt) : List (Nat × Pkt) :=
  let d := fld p.hdr.path 83 72
  if domSelf (domOf b d) < 64 ∧ tb (fld p.hdr.path 63 0) (domSelf (domOf b d)) = true then
    [(port, { p with hdr := { p.hdr with path := mk [(83, 72, d), (63, 0, 2 ^ domSelf (domOf b d))], dst := domMember (domOf b d) (domSelf (domOf b d)) } })]
  else []

/-- The block with a packet delivered here, before its copies. -/
def delivered (b : Blk) (port : Nat) (p : Pkt) : Blk :=
  { b with fab := { b.fab with arrived := b.fab.arrived.erase (port, p) ++ selfCopy b port p } }

theorem multicastFx_valid {b : Blk} {port : Nat} {p : Pkt} (h : domValid (domOf b (fld p.hdr.path 83 72)) = true) :
    multicastFx b port p = mcCopies (delivered b port p) port p (fld p.hdr.path 83 72) (fld p.hdr.path 63 0) := by
  unfold multicastFx; dsimp only
  rw [if_neg (by simp [h])]
  congr 1
  unfold delivered selfCopy arrive taken
  simp only [Bool.and_eq_true, decide_eq_true_eq]
  split <;> simp

theorem multicastFx_invalid {b : Blk} {port : Nat} {p : Pkt} (h : domValid (domOf b (fld p.hdr.path 83 72)) = false) :
    multicastFx b port p = taken b port p := by
  unfold multicastFx; dsimp only
  rw [if_pos (by simp [h])]

/-! ### The rows -/

theorem abortNotice_exec {s : State} {port h : Nat} {g : Group} {p : Pkt} (ha : awake s.b = true) (hn : NewFor s.b 8 p h g) :
    exec (.abortNotice port p) s = .next (Machine.commit s (abortFx (taken s.b port p) g p)) := by
  rw [row_abortNotice, act_awake ha, onPkt_onGen hn port fun b _ g => abortFx b g p]

/-- The ranks that a BREAK_NOTICE lists (R138). -/
def noticeRanks (p : Pkt) : List Nat := (List.range (fld (preOfPkt p).spec 31 16)).map fun i => leAt (dataOfPkt p) (2 * i) 2

/-- The break that a notice brings: its cause, ranks and stamp (R137, R138). -/
def noticed (b : Blk) (h : Nat) (p : Pkt) : Blk := applyBreak (takeSeq b p) h (fld (preOfPkt p).spec 7 0) (noticeRanks p) (preOff (preOfPkt p))

theorem breakNotice_exec {s : State} {port h : Nat} {g : Group} {p : Pkt} (ha : awake s.b = true) (hn : NewFor s.b 9 p h g) :
    exec (.breakNotice port p) s = .next (Machine.commit s (noticed (taken s.b port p) h p)) := by
  have hx := onPkt_onGen hn port fun b h _ => noticed b h p
  rw [row_breakNotice, act_awake ha]
  exact congrArg (fun b => Host.Outcome.next (Machine.commit s b)) hx

theorem multicast_exec {s : State} {port : Nat} {p : Pkt} (ha : awake s.b = true) (hh : p.hdr.hop = 0) (ho : ownCopy s.b p = false) :
    exec (.multicast port p) s = .next (Machine.commit s (multicastFx s.b port p)) := by
  rw [row_multicast, act_awake ha, if_pos (by simp [hh, ho])]

/-- Settles O54: the notices by `abortFx_ends`, `abortFx_keeps` and `applyBreak_only`; the copies port by port (`mcSteps_copy`). -/
theorem noticesAndCopies : Obligations.NoticesAndCopies := by
  unfold Obligations.NoticesAndCopies
  intro s port h g p ha hst
  refine ⟨fun hn => ⟨?ends, ?kept⟩, ?breaks, ?copies⟩
  case ends =>
    intro c hl hc hp
    obtain ⟨r, hr⟩ := abortFx_ends (b := taken s.b port p) (g := g) hl hc hp
    exact ⟨_, r, abortNotice_exec ha hn, hr⟩
  case kept =>
    intro ht hc hl hs hab
    have hk := abortFx_keeps (b := taken s.b port p) (g := g) ht hc hl hs hab
    have hack := acknowledged_takeSeq (taken s.b port p) (p := p) (by rw [newFor_type hn]; rfl)
    obtain ⟨x, y, e⟩ := takeSeq_only (taken s.b port p) p
    have hb : (abortFx (taken s.b port p) g p).stores = [] := by rw [hk, e]; exact hst
    refine ⟨_, abortNotice_exec ha hn, ?_⟩
    rw [commit_of_no_stores _ _ hb, hk]
    exact ⟨acknowledged_congr hack rfl rfl rfl, rfl, by rw [e]; rfl⟩
  case breaks =>
    intro hn hg1 hg
    obtain ⟨x, y, e⟩ := takeSeq_only (taken s.b port p) p
    have hg' : tget group0 (takeSeq (taken s.b port p) p).t.group h = g := by rw [e]; exact hg
    obtain ⟨_, _, _, _, _, _, _, _, _, _, hb⟩ := applyBreak_only (takeSeq (taken s.b port p) p) h (fld (preOfPkt p).spec 7 0) (noticeRanks p)
      (preOff (preOfPkt p)) (by rw [hg']; exact newFor_valid hn) (by rw [hg']; exact hg1)
    refine ⟨_, breakNotice_exec ha hn, ?_⟩
    unfold noticed; rw [hb, hg', e]
    exact ⟨rfl, rfl, rfl, rfl, rfl, rfl, rfl⟩
  case copies =>
    intro hh ho
    refine ⟨fun hd => ?_, fun hd => ?_⟩
    · rw [multicast_exec ha hh ho, multicastFx_invalid hd]
      exact congrArg _ (commit_of_no_stores s _ hst)
    · have hg : ∀ i, (decide (i ≠ port) && codeAwake s.b i && decide (fld p.hdr.path 63 0 &&& domMask (domOf s.b (fld p.hdr.path 83 72)) i ≠ 0)) =
          goesOn (domOf s.b (fld p.hdr.path 83 72)) port (fld p.hdr.path 63 0) (delivered s.b port p) i := by
        intro i; simp [goesOn, bne]; rfl
      have hx := multicast_exec (port := port) ha hh ho
      rw [multicastFx_valid hd] at hx
      obtain ⟨ports, e⟩ := mcCopies_only (delivered s.b port p) port p (fld p.hdr.path 83 72) (fld p.hdr.path 63 0)
      have hc := commit_of_no_stores s (mcCopies (delivered s.b port p) port p (fld p.hdr.path 83 72) (fld p.hdr.path 63 0)) (by rw [e]; exact hst)
      rw [hc] at hx
      refine ⟨_, hx, by rw [e]; rfl, by rw [e]; rfl, fun i m hi h hp hm => ?_, fun m h => ?_⟩ <;> rw [mcCopies_steps]
      · exact mcSteps_copy _ _ _ _ _ _ (List.range 42) List.nodup_range (List.mem_range.mpr hi) ((hg i).symm.trans h) hp hm
      · exact mcSteps_other _ _ _ _ _ _ (List.range 42) List.nodup_range m fun i hi h' => h i (List.mem_range.mp hi) ((hg i).trans h')

end Sys2Proof.Machine
end

section
/-!
O52: what is kept for a destination, the acknowledgements that free it and the resends that repeat it (R349 to R352).
-/
namespace Sys2Proof.Machine

/-! ### What sending without a command changes -/

theorem launch_fab (b : Blk) (p : Pkt) (alt : Bool) :
    ∃ pseq arrived ports, launch b p alt = { b with fab := { b.fab with pseq := pseq, arrived := arrived }, ports := ports } := by
  unfold launch; dsimp only; split
  · exact ⟨_, _, _, rfl⟩
  · rw [outTo_eq]; exact ⟨_, _, _, rfl⟩

/-- A packet of no command changes what is kept for destinations, header sequences, what has arrived, and ports. -/
theorem sendPkt_fab (b : Blk) (p : Pkt) :
    ∃ dst pseq arrived ports, sendPkt b p none = { b with fab := { b.fab with dst := dst, pseq := pseq, arrived := arrived }, ports := ports } := by
  unfold sendPkt sendTo
  split
  · unfold leave
    extract_lets q dst
    rw [show (if (q.hdr.cls == 1 && 0 == 1) = true then (false, b) else flowAlt b none dst (vnOf q.hdr)) = (chooseAlt b (routeOf b dst) (vnOf q.hdr), b) by
      rw [if_neg (by simp)]; rfl]
    dsimp only
    split
    · obtain ⟨_, _, _, e⟩ := launch_fab (modDst b dst fun d => { d with next := ((getDst b dst).next + 1) % 2 ^ 32, unacked := d.unacked ++
        [{ seq := (getDst b dst).next, pkt := setPre q fun r => { r with e2e := (getDst b dst).next }, cmd := none, rank := 0, haly := none, held := false
           alt := chooseAlt b (routeOf b dst) (vnOf q.hdr), resends := 0, mcast := none }] })
        (setPre q fun r => { r with e2e := (getDst b dst).next }) (chooseAlt b (routeOf b dst) (vnOf q.hdr))
      exact ⟨_, _, _, _, e⟩
    · obtain ⟨_, _, _, e⟩ := launch_fab b q (chooseAlt b (routeOf b dst) (vnOf q.hdr))
      exact ⟨_, _, _, _, e⟩
  · exact ⟨_, _, _, _, rfl⟩

theorem sendBare_fab (b : Blk) (dst net : Nat) (pre : Prefix) (data : List Byte) : ∃ d pseq arrived ports,
    sendBare b dst net pre data = { b with fab := { b.fab with dst := d, pseq := pseq, arrived := arrived }, ports := ports } := sendPkt_fab ..

/-! ### Destinations -/

theorem modDst_congr (b : Blk) (ep : Nat) (g k : DstSt → DstSt) (h : g (getDst b ep) = k (getDst b ep)) : modDst b ep g = modDst b ep k := by
  unfold modDst tmod; rw [show g (tget dstSt0 b.fab.dst ep) = k (tget dstSt0 b.fab.dst ep) from h]

section
variable {b : Blk} (hw : twf dstSt0 b.fab.dst = true) (ep : Nat)
include hw

theorem getDst_modDst_wf (g : DstSt → DstSt) : getDst (modDst b ep g) ep = g (getDst b ep) :=
  (tget_tmod dstSt0 b.fab.dst ep ep g hw).trans (if_pos rfl)

/-- Nothing waits for a destination: a change of what is acknowledged lets nothing leave. -/
theorem flush_modDst (g : DstSt → DstSt) (h : (g (getDst b ep)).waiting = []) : flush (modDst b ep g) ep = modDst b ep g := by
  unfold flush; rw [getDst_modDst_wf hw, h]; rfl

end

/-! ### E2E_ACK -/

/-- What an acknowledgement leaves to be acknowledged. -/
def uncovered (q : Prefix) (d : DstSt) : DstSt := { d with unacked := d.unacked.filter fun u => !covers q u.seq }

/-- A command with one more packet acknowledged. -/
def ackedMore (c : Cmd) : Cmd := { c with acked := c.acked + 1 }

theorem countAck_none (b : Blk) {u : Unacked} (h : u.cmd = none) : countAck b u = b := by unfold countAck; rw [h]

theorem countAck_p2p {b : Blk} {u : Unacked} {id : CmdId} {c : Cmd} (hu : u.cmd = some id) (hc : findCmd b id = some c) (hp : isP2p (opOf c) = true) :
    countAck b u = modCmd b id ackedMore := by
  unfold countAck; rw [hu]; dsimp only; rw [withCmd_found hc, if_pos hp]; rfl

section
variable {b : Blk} {p : Pkt} (hw : twf dstSt0 b.fab.dst = true) (hm : (preOfPkt p).mcseq = false) (hq : (getDst b p.hdr.src).waiting = [])
include hw hm hq

/-- Packets of no command are freed, and nothing else changes (R350). -/
theorem ackFx_frees (hn : ∀ u ∈ (getDst b p.hdr.src).unacked, covers (preOfPkt p) u.seq = true → u.cmd = none) :
    ackFx b p = modDst b p.hdr.src (uncovered (preOfPkt p)) := by
  have hus : ∀ u ∈ (getDst b p.hdr.src).unacked.filter (fun u => covers (preOfPkt p) u.seq), u.cmd = none := by
    intro u hu
    obtain ⟨hu, hc⟩ := List.mem_filter.mp hu
    exact hn u hu hc
  have hf : ∀ (us : List Unacked) (b : Blk), (∀ u ∈ us, u.cmd = none) → us.foldl countAck b = b := by
    intro us b h
    induction us with
    | nil => rfl
    | cons u us ih => rw [List.foldl_cons, countAck_none _ (h u List.mem_cons_self)]; exact ih fun v hv => h v (List.mem_cons_of_mem _ hv)
  have hc : ((getDst b p.hdr.src).unacked.filter fun u => covers (preOfPkt p) u.seq).filterMap (·.cmd) = [] := by
    rw [List.filterMap_eq_nil_iff]; exact hus
  unfold ackFx; dsimp only
  rw [if_neg (by simp [hm]), hf _ _ hus, hc, flush_modDst hw _ _ hq]
  rfl

/-- The one packet covered is counted for its command, which goes on (R82, R350). -/
theorem ackFx_counts {u : Unacked} {id : CmdId} {c : Cmd} (hu : (getDst b p.hdr.src).unacked.filter (fun u => covers (preOfPkt p) u.seq) = [u])
    (hi : u.cmd = some id) (hc : findCmd b id = some c) (hp : isP2p (opOf c) = true) :
    ackFx b p = p2pProgress (modCmd (modDst b p.hdr.src (uncovered (preOfPkt p))) id ackedMore) id := by
  unfold ackFx; dsimp only
  rw [if_neg (by simp [hm]), hu]
  simp only [List.foldl_cons, List.foldl_nil, List.filterMap_cons, List.filterMap_nil, hi]
  have hk : countAck (modDst b p.hdr.src (uncovered (preOfPkt p))) u = modCmd (modDst b p.hdr.src (uncovered (preOfPkt p))) id ackedMore :=
    countAck_p2p hi (show findCmd (modDst b p.hdr.src (uncovered (preOfPkt p))) id = some c from hc) hp
  have h := flush_modDst (b := modCmd b id ackedMore) hw p.hdr.src (uncovered (preOfPkt p)) hq
  unfold uncovered at hk h
  rw [hk]
  exact congrArg (fun x => p2pProgress x id) h

end

/-- A command that has sent everything and has no flies ends once all of it is acknowledged (R82). -/
theorem finishCmd_acked {b : Blk} {id : CmdId} {c : Cmd} (hc : findCmd b id = some c) (hp : c.phase = .running) (he : c.effectDone = true)
    (hw : c.waitOn = none) (hf : flFly c = false) : ∃ c', findCmd (finishCmd b id) id = some c' ∧ c'.acked = c.acked ∧
      (c'.phase = .ended ↔ c.sent ≤ c.acked) ∧ c'.status = c.status ∧ ∃ cmds, finishCmd b id = { b with cmds := cmds } := by
  obtain ⟨ph, r, cmds, h1, h2, h3⟩ := finishCmd_running hc hp he hw
  exact ⟨_, h1, rfl, h2.trans (by simp [hf]), rfl, cmds, h3⟩

/-- After an acknowledgement of a command that has sent everything: its ready chunks and its end. -/
theorem p2pProgress_sent {b : Blk} {id : CmdId} {c : Cmd} (hc : findCmd b id = some c) (ho : isP2p (opOf c) = true) (hp : c.phase = .running)
    (he : c.effectDone = true) (hw : c.waitOn = none) (hk : c.chunks ≠ 0) (hf : flFly c = false) : ∃ c', findCmd (p2pProgress b id) id = some c' ∧
      c'.acked = c.acked ∧ (c'.phase = .ended ↔ c.sent ≤ c.acked) ∧ c'.status = c.status ∧ ∃ cmds, p2pProgress b id = { b with cmds := cmds } := by
  have hfin : ∀ (x : Blk) (d : Cmd), findCmd x id = some d → d.effectDone = true →
      withCmd x id (fun c => if (flRfly c && !c.effectDone && c.rflies == c.chunks) = true then sendSignal x c else x) = x := by
    intro x d hd he; rw [withCmd_found hd, if_neg (by simp [he])]
  unfold p2pProgress
  rw [withCmd_found hc]
  dsimp only
  rw [if_neg (by simp [ho, hp, hk]), if_neg (by simp [he])]
  split
  · rw [hfin b c hc he]; exact finishCmd_acked hc hp he hw hf
  · have hc' := findCmd_modCmd_same (fun c => { c with ready := readyChunks b c }) (fun _ => rfl) hc
    rw [hfin _ _ hc' he]
    obtain ⟨c', h1, h2, h3, h4, cmds, h5⟩ := finishCmd_acked hc' hp he hw hf
    exact ⟨c', h1, h2, h3, h4, cmds, h5⟩

/-! ### E2E_ACK_SEND -/

theorem modSrc_congr (b : Blk) (k : Bool × Nat) (g g' : SrcSt → SrcSt) (h : g (getSrc b k) = g' (getSrc b k)) : modSrc b k g = modSrc b k g' := by
  obtain ⟨m, k⟩ := k
  cases m
  · exact congrArg (fun x => ({ b with fab := { b.fab with src := tset srcSt0 b.fab.src k x } } : Blk)) h
  · exact congrArg (fun x => ({ b with fab := { b.fab with msrc := tset srcSt0 b.fab.msrc k x } } : Blk)) h

/-- The acknowledgement of sequences due that all lie within 64 of the first: a map from it (R350, R351). -/
theorem ackSpace_from {b : Blk} {ep : Nat} {x : Nat} {xs : List Nat} (hd : (getSrc b (false, ep)).due = x :: xs) (hb : ∀ y ∈ x :: xs, y < 2 ^ 32)
    (hn : ∀ y ∈ xs, y ≠ x ∧ (y + 2 ^ 32 - x) % 2 ^ 32 < 64) :
    ackSpace b ep (false, ep) = sendBare (modSrc b (false, ep) fun r => { r with due := [] }) ep 1 { pre0 with
      type := 6, e2e := x, spec := (x :: xs).foldl (fun m y => setBit m ((y + 2 ^ 32 - x) % 2 ^ 32) true) 0 } [] := by
  have hx : x < 2 ^ 32 := hb x List.mem_cons_self
  have hbase : ∀ l : List Nat, (∀ y ∈ l, y ∈ xs) → l.foldl (fun a y => if (a + 2 ^ 32 - y) % 2 ^ 32 < 2 ^ 31 then y else a) x = x := by
    intro l hl
    induction l with
    | nil => rfl
    | cons y l ih =>
      have hy := hb y (List.mem_cons_of_mem _ (hl y List.mem_cons_self))
      obtain ⟨h1, h2⟩ := hn y (hl y List.mem_cons_self)
      rw [List.foldl_cons, if_neg (by omega)]
      exact ih fun z hz => hl z (List.mem_cons_of_mem _ hz)
  have hnear : ∀ y ∈ x :: xs, (y + 2 ^ 32 - x) % 2 ^ 32 < 64 := by
    intro y hy
    rcases List.mem_cons.mp hy with rfl | hy
    · omega
    · exact (hn y hy).2
  have hall : (x :: xs).filter (fun y => decide ((y + 2 ^ 32 - x) % 2 ^ 32 < 64)) = x :: xs :=
    List.filter_eq_self.mpr fun y hy => decide_eq_true (hnear y hy)
  have hnone : (x :: xs).filter (fun y => !decide ((y + 2 ^ 32 - x) % 2 ^ 32 < 64)) = [] :=
    List.filter_eq_nil_iff.mpr fun y hy => by simpa using hnear y hy
  have hm : modSrc b (false, ep) (fun s => { s with due := s.due.filter fun y => !decide ((y + 2 ^ 32 - x) % 2 ^ 32 < 64) }) =
      modSrc b (false, ep) fun s => { s with due := [] } := modSrc_congr _ _ _ _ (by rw [hd, hnone])
  unfold ackSpace; dsimp only
  rw [hd]
  dsimp only
  rw [hbase xs fun _ h => h, hall, hm]
  rfl

/-- Where no domain of the endpoint has acknowledgements due, E2E_ACK_SEND sends those of its own sequence space alone. -/
theorem e2eAckSend_exec {s : State} {ep : Nat} {g : SrcSt → SrcSt} {pre : Prefix} (ha : awake s.b = true) (hs : s.b.stores = [])
    (hx : ackSpace s.b ep (false, ep) = sendBare (modSrc s.b (false, ep) g) ep 1 pre [])
    (hm : (s.b.fab.msrc.filter fun e => e.1 % 65536 == ep) = []) :
    exec (.e2eAckSend ep) s = .next { s with b := sendBare (modSrc s.b (false, ep) g) ep 1 pre [] } := by
  rw [row_e2eAckSend, act_awake ha]
  dsimp only
  rw [hx]
  obtain ⟨_, _, _, _, e⟩ := sendBare_fab (modSrc s.b (false, ep) g) ep 1 pre []
  have h1 : (sendBare (modSrc s.b (false, ep) g) ep 1 pre []).fab.msrc = s.b.fab.msrc := by rw [e]; rfl
  have h2 : (sendBare (modSrc s.b (false, ep) g) ep 1 pre []).stores = [] := by rw [e]; exact hs
  rw [h1, hm]
  exact congrArg _ (commit_of_no_stores s _ h2)

/-! ### One unacknowledged packet -/

/-- One packet kept for a destination, changed. -/
def setUnacked (seq : Nat) (v : Unacked) (d : DstSt) : DstSt := { d with unacked := d.unacked.map fun w => if w.seq = seq then v else w }

/-- One packet kept for a destination, given up. -/
def dropUnacked (seq : Nat) (d : DstSt) : DstSt := { d with unacked := d.unacked.filter fun v => decide (v.seq ≠ seq) }

theorem findUnacked_here {b : Blk} {ep seq : Nat} {u : Unacked} (h : ((getDst b ep).unacked.find? fun u => u.seq == seq) = some u) :
    findUnacked b ep seq = some (none, u) := by
  unfold findUnacked; rw [h]

theorem modUnacked_drop (b : Blk) (ep seq : Nat) : modUnacked b ep none seq (fun _ => none) = modDst b ep (dropUnacked seq) := by
  refine modDst_congr b ep _ _ ?_
  unfold dropUnacked
  congr 1
  simp only [beq_iff_eq, ne_eq, decide_not]
  induction (getDst b ep).unacked with
  | nil => rfl
  | cons v vs ih => by_cases h : v.seq = seq <;> simp [h, ih]

theorem modUnacked_map (b : Blk) (ep seq : Nat) (f : Unacked → Unacked) :
    modUnacked b ep none seq (fun u => some (f u)) = modDst b ep fun d => { d with unacked := d.unacked.map fun w => if w.seq = seq then f w else w } := by
  refine modDst_congr b ep _ _ ?_
  congr 1
  simp only [beq_iff_eq]
  induction (getDst b ep).unacked with
  | nil => rfl
  | cons v vs ih => by_cases h : v.seq = seq <;> simp [h, ih]

/-- Where a sequence names one packet, changing those of the sequence is changing that packet. -/
theorem modUnacked_one {b : Blk} {ep seq : Nat} {u : Unacked} (h : ∀ v ∈ (getDst b ep).unacked, v.seq = seq → v = u) (f : Unacked → Unacked) :
    modUnacked b ep none seq (fun u => some (f u)) = modDst b ep (setUnacked seq (f u)) := by
  rw [modUnacked_map]
  refine modDst_congr b ep _ _ ?_
  unfold setUnacked
  congr 1
  refine List.map_congr_left fun v hv => ?_
  split
  next hs => rw [h v hv hs]
  next => rfl

/-- A packet given up: nothing else changes where nothing waits for the destination. -/
theorem flushOf_drop {b : Blk} {ep seq : Nat} (hw : twf dstSt0 b.fab.dst = true) (hq : (getDst b ep).waiting = []) :
    flushOf (modUnacked b ep none seq fun _ => none) ep none = modDst b ep (dropUnacked seq) := by
  rw [modUnacked_drop]; exact flush_modDst hw ep _ hq

theorem pinFlow_only (b : Blk) (cmd : Option CmdId) (ep : Nat) (alt : Bool) : ∃ flows, pinFlow b cmd ep alt = { b with fab := { b.fab with flows := flows } } := by
  unfold pinFlow; split <;> exact ⟨_, rfl⟩

/-! ### The packet again -/

/-- A packet that leaves for another engine is queued on the port of its route, with its path (R311, R345). -/
theorem launch_out {b : Blk} {p : Pkt} {alt : Bool} {m : Nat} (hd : p.hdr.dst ≠ selfEp b) (hp : portAt b (rtCode (routeOf b p.hdr.dst) alt 0) = some m)
    (hu : (getP b m).state = 2) (hm : m < b.ports.length) : ∃ x h, (getP (launch b p alt) m).out = (getP b m).out ++ [x] ∧
      x.cells = cellsOf { hdr := h, body := p.body } ∧ h.dst = p.hdr.dst ∧ h.hop = 1 ∧ h.path = rtPath (routeOf b p.hdr.dst) alt ∧ h.net = p.hdr.net := by
  unfold launch
  extract_lets dst e key seq _ hdr _ b1
  rw [if_neg (by simpa using hd)]
  have hp1 : portAt b1 (rtCode e alt 0) = some m := hp
  rw [outTo_up _ _ _ _ hp1 hu, getP_modP_same b1 _ hm, queuedOn_out]
  exact ⟨_, _, rfl, rfl, rfl, rfl, rfl, rfl⟩

/-- The packet as it is sent again. -/
def againPkt (b : Blk) (ep : Nat) (u : Unacked) (resend : Bool) : Pkt :=
  { hdr := { hdrTo b ep 0 0 with net := u.pkt.hdr.net }, body := (setPre u.pkt fun q => { q with resend := q.resend || resend }).body }

theorem again_launch (b : Blk) (ep : Nat) (u : Unacked) (resend alt : Bool) : again b ep u resend alt = launch b (againPkt b ep u resend) alt := by
  unfold again againPkt setPre
  cases u.pkt.body <;> rfl

/-- The block with a packet's entry changed and the packet sent again. -/
def ResentAs (b b' : Blk) (ep seq : Nat) (u v : Unacked) (resend : Bool) : Prop :=
  ∃ flows pseq arrived ports, b' = { modDst b ep (setUnacked seq v) with
    fab := { (modDst b ep (setUnacked seq v)).fab with flows := flows, pseq := pseq, arrived := arrived }, ports := ports } ∧
  ∀ m, ep ≠ selfEp b → portAt b (rtCode (routeOf b ep) v.alt 0) = some m → (getP b m).state = 2 → m < b.ports.length → ∃ x h,
    (getP b' m).out = (getP b m).out ++ [x] ∧ x.cells = cellsOf { hdr := h, body := (againPkt b ep u resend).body } ∧ h.dst = ep ∧ h.hop = 1 ∧
    h.path = rtPath (routeOf b ep) v.alt ∧ h.net = u.pkt.hdr.net

theorem again_resentAs {b : Blk} {ep seq : Nat} {u v : Unacked} {resend : Bool} {b1 : Blk} {flows : List Flow}
    (h : b1 = { modDst b ep (setUnacked seq v) with fab := { (modDst b ep (setUnacked seq v)).fab with flows := flows } }) :
    ResentAs b (again b1 ep u resend v.alt) ep seq u v resend := by
  obtain ⟨pseq, arrived, ports, e⟩ := launch_fab b1 (againPkt b1 ep u resend) v.alt
  rw [again_launch]
  subst h
  exact ⟨flows, pseq, arrived, ports, e, fun m hd hp hu hm => launch_out hd hp hu hm⟩

theorem ResentAs.commit {s : State} {b' : Blk} {ep seq : Nat} {u v : Unacked} {resend : Bool} (h : ResentAs s.b b' ep seq u v resend)
    (hs : s.b.stores = []) (hw : twf dstSt0 s.b.fab.dst = true) :
    commit s b' = { s with b := { s.b with fab := b'.fab, ports := b'.ports } } ∧
    (getDst (Machine.commit s b').b ep).unacked = (getDst s.b ep).unacked.map fun w => if w.seq = seq then v else w := by
  obtain ⟨flows, pseq, arrived, ports, e, -⟩ := h
  refine ⟨(commit_of_no_stores s b' (by rw [e]; exact hs)).trans (by rw [e]; rfl), ?_⟩
  have hd : getDst (Machine.commit s b').b ep = getDst (modDst s.b ep (setUnacked seq v)) ep := getDst_congr (by rw [e]; rfl) ep
  rw [hd, getDst_modDst_wf hw]; rfl

/-! ### The rows of resends -/

/-- A packet's entry once it has been sent again on the other path (R352). -/
def onOtherPath (b : Blk) (ep : Nat) (u : Unacked) : Unacked :=
  { u with resends := u.resends + 1, alt := if rtAlt (routeOf b ep) then !u.alt else u.alt }

section
variable {b : Blk} {ep seq : Nat} {u : Unacked} (hf : ((getDst b ep).unacked.find? fun u => u.seq == seq) = some u)
include hf

/-- A packet that is held is not sent again by a timeout (R352). -/
theorem resendFx_held (hh : u.held = true) : resendFx b ep seq = b := by
  unfold resendFx; rw [findUnacked_here hf]; dsimp only; rw [if_pos hh]

/-- After RESENDS resends the packet is given up (R352). -/
theorem resendFx_drops (hh : u.held = false) (hy : u.haly = none) (hr : fld b.ctl.e2e.force.toNat 19 16 ≤ u.resends)
    (hw : twf dstSt0 b.fab.dst = true) (hq : (getDst b ep).waiting = []) : resendFx b ep seq = modDst b ep (dropUnacked seq) := by
  unfold resendFx; rw [findUnacked_here hf]; dsimp only; rw [if_neg (by simp [hh]), hy]; dsimp only; rw [if_pos hr]
  exact flushOf_drop hw hq

/-- Before that it goes again on the other path (R352). -/
theorem resendFx_again (hh : u.held = false) (hy : u.haly = none) (hr : u.resends < fld b.ctl.e2e.force.toNat 19 16)
    (ho : ∀ v ∈ (getDst b ep).unacked, v.seq = seq → v = u) :
    ResentAs b (resendFx b ep seq) ep seq u (onOtherPath b ep u) true := by
  unfold resendFx; rw [findUnacked_here hf]; dsimp only; rw [if_neg (by simp [hh]), hy]; dsimp only; rw [if_neg (by omega)]
  have hm := modUnacked_one ho fun w => { w with resends := w.resends + 1, alt := if rtAlt (routeOf b ep) then !u.alt else u.alt }
  rw [show modUnacked b ep none seq _ = modDst b ep (setUnacked seq (onOtherPath b ep u)) from hm]
  obtain ⟨flows, e⟩ := pinFlow_only (modDst b ep (setUnacked seq (onOtherPath b ep u))) u.cmd ep (onOtherPath b ep u).alt
  exact again_resentAs e

end

/-- What HOLD_RESEND makes of the block (R61). -/
def holdResendFx (b : Blk) (ep seq : Nat) : Blk :=
  match findUnacked b ep seq with
  | none => b
  | some (dom, u) =>
    if !u.held then b
    else if !stillSends b (preOfPkt u.pkt) then flushOf (modUnacked b ep dom seq fun _ => none) ep dom
    else again (modUnacked b ep dom seq fun u => some { u with held := false }) ep u false u.alt

section
variable {b : Blk} {ep seq : Nat} {u : Unacked} (hf : ((getDst b ep).unacked.find? fun u => u.seq == seq) = some u) (hh : u.held = true)
include hf hh

theorem holdResendFx_drops (hg : stillSends b (preOfPkt u.pkt) = false) (hw : twf dstSt0 b.fab.dst = true) (hq : (getDst b ep).waiting = []) :
    holdResendFx b ep seq = modDst b ep (dropUnacked seq) := by
  unfold holdResendFx; rw [findUnacked_here hf]; dsimp only; rw [if_neg (by simp [hh]), if_pos (by simp [hg])]
  exact flushOf_drop hw hq

theorem holdResendFx_again (hg : stillSends b (preOfPkt u.pkt) = true) (ho : ∀ v ∈ (getDst b ep).unacked, v.seq = seq → v = u) :
    ResentAs b (holdResendFx b ep seq) ep seq u { u with held := false } false := by
  unfold holdResendFx; rw [findUnacked_here hf]; dsimp only; rw [if_neg (by simp [hh]), if_neg (by simp [hg])]
  rw [modUnacked_one ho fun u => { u with held := false }]
  exact again_resentAs (flows := b.fab.flows) rfl

end

theorem e2eResend_exec {s : State} {ep seq : Nat} (ha : awake s.b = true) :
    exec (.e2eResend ep seq) s = .next (commit s (resendFx s.b ep seq)) := by rw [row_e2eResend, act_awake ha]

theorem holdResend_exec {s : State} {ep seq : Nat} (ha : awake s.b = true) :
    exec (.holdResend ep seq) s = .next (commit s (holdResendFx s.b ep seq)) := by rw [row_holdResend, act_awake ha]; rfl

/-- A hold reply marks the packet that it names (R61). -/
theorem hold_exec {s : State} {port : Nat} {p : Pkt} (ha : awake s.b = true) (hs : s.b.stores = []) (hc : isCollPkt p = true)
    (ht : (preOfPkt p).type = 7) (hk : fld (preOfPkt p).spec 7 0 = 0) (hm : (preOfPkt p).mcseq = false) (hh : p.hdr.hop ≠ 0) (hd : p.hdr.dst = selfEp s.b) :
    exec (.hold port p) s = .next { s with b := modDst (taken s.b port p) p.hdr.src fun d => { d with
      unacked := d.unacked.map fun v => if v.seq = (preOfPkt p).e2e then { v with held := true } else v } } := by
  rw [row_hold, act_awake ha]
  dsimp only
  rw [if_neg (by simp [hk]), onPkt_here port _ hc ht hh hd (.inl rfl), if_neg (by simp [hm]), modUnacked_map]
  exact congrArg _ (commit_of_no_stores s _ hs)

theorem e2eAck_exec {s : State} {port : Nat} {p : Pkt} (ha : awake s.b = true) (hc : isCollPkt p = true) (ht : (preOfPkt p).type = 6)
    (hh : p.hdr.hop ≠ 0) (hd : p.hdr.dst = selfEp s.b) : exec (.e2eAck port p) s = .next (commit s (ackFx (taken s.b port p) p)) := by
  rw [row_e2eAck, act_awake ha, onPkt_here port _ hc ht hh hd (.inl rfl)]

/-- Settles O52, row by row; a packet sent again by `ResentAs`. -/
theorem packetsAreAcknowledged : Obligations.PacketsAreAcknowledged := by
  unfold Obligations.PacketsAreAcknowledged
  intro s port ep p ha hs hw
  have gone : ∀ seq, commit s (modDst s.b ep (dropUnacked seq)) = { s with b := modDst s.b ep fun d => { d with
      unacked := (getDst s.b ep).unacked.filter fun v => decide (v.seq ≠ seq) } } := fun seq =>
    (commit_of_no_stores s (modDst s.b ep (dropUnacked seq)) hs).trans
      (congrArg (fun b => { s with b := b }) (modDst_congr s.b ep (dropUnacked seq) _ rfl))
  refine ⟨fun hc ht hm hh hd hsrc hq => ⟨fun hn => ?_, fun u id c hu hi hf hp hrun he hwo hk hfl => ?_⟩, fun x xs hx hb hn hmc => ?_, fun seq u hf ho => ⟨?_, ?_, ?_⟩⟩
  · subst hsrc
    rw [e2eAck_exec ha hc ht hh hd, ackFx_frees (b := taken s.b port p) hw hm hq hn]
    exact congrArg _ (commit_of_no_stores s _ hs)
  · subst hsrc
    have hx := ackFx_counts (b := taken s.b port p) hw hm hq hu hi hf hp
    have hf' : findCmd (modCmd (modDst (taken s.b port p) p.hdr.src (uncovered (preOfPkt p))) id ackedMore) id = some (ackedMore c) :=
      findCmd_modCmd_same ackedMore (fun _ => rfl) hf
    obtain ⟨c', h1, h2, h3, h4, cmds, h5⟩ := p2pProgress_sent hf' hp hrun he hwo hk hfl
    refine ⟨_, c', e2eAck_exec ha hc ht hh hd, ?_, by rw [findCmd_commit, hx]; exact h1, h2, h3, h4, ?_⟩
    · have hd : getDst (commit s (ackFx (taken s.b port p) p)).b p.hdr.src = getDst (modDst (taken s.b port p) p.hdr.src (uncovered (preOfPkt p))) p.hdr.src :=
        getDst_congr (by rw [commit_b_fab, hx, h5]; rfl) _
      rw [hd, getDst_modDst_wf (b := taken s.b port p) hw]; rfl
    · have hst : (ackFx (taken s.b port p) p).stores = [] := by rw [hx, h5]; exact hs
      rw [commit_mem, hst]; rfl
  · exact e2eAckSend_exec ha hs (ackSpace_from hx hb hn) hmc
  · refine fun hh hy => ⟨fun hr => ?_, fun hr hq => ?_⟩
    · have h := resendFx_again hf hh hy hr ho
      obtain ⟨h1, h2⟩ := h.commit hs hw
      obtain ⟨_, _, _, _, -, hout⟩ := h
      exact ⟨_, e2eResend_exec ha, h1, h2, hout⟩
    · rw [e2eResend_exec ha, resendFx_drops hf hh hy hr hw hq, gone]
  · refine fun hh => ⟨?_, fun hg => ?_, fun hg hq => ?_⟩
    · rw [e2eResend_exec ha, resendFx_held hf hh, commit_id s hs]
    · have h := holdResendFx_again hf hh hg ho
      obtain ⟨h1, h2⟩ := h.commit hs hw
      obtain ⟨_, _, _, _, -, hout⟩ := h
      exact ⟨_, holdResend_exec ha, h1, h2, hout⟩
    · rw [holdResend_exec ha, holdResendFx_drops hf hh hg hw hq, gone]
  · intro hc ht hk hm he hh hd hsrc
    subst he hsrc
    exact hold_exec ha hs hc ht hk hm hh hd

end Sys2Proof.Machine
end

section
/-!
SUPPORT. A function's writes as a list of stores, the bookkeeping of applied point-to-point packets, and chunk transfers whose tail is good or not known yet.
-/
namespace Sys2Proof.Machine

/-! ### A function's writes -/

/-- The stores of a function's write, piece by piece. -/
def fnStores (b : Blk) (f space va : Nat) (bs : List Byte) : List (Nat × List Byte) :=
  (cutsOf va bs.length).map fun c => (fnKey b f space c.1, slice bs (c.1 - va) c.2)

theorem fnKey_congr {b b' : Blk} (f space va : Nat) (hf : b'.fns = b.fns) (hx : b'.xlats = b.xlats) : fnKey b' f space va = fnKey b f space va := by
  unfold fnKey translate getFn; rw [hf, hx]

theorem fnStores_congr {b b' : Blk} (f space va : Nat) (bs : List Byte) (hf : b'.fns = b.fns) (hx : b'.xlats = b.xlats) :
    fnStores b' f space va bs = fnStores b f space va bs := by
  unfold fnStores
  simp only [fnKey_congr f space _ hf hx]

/-- A function's write adds its stores, and changes nothing else. -/
theorem fnStore_adds (b : Blk) (f space va : Nat) (bs : List Byte) : fnStore b f space va bs = { b with stores := b.stores ++ fnStores b f space va bs } := by
  have h : ∀ (l : List (Nat × Nat)) (x : Blk), x.fns = b.fns → x.xlats = b.xlats →
      l.foldl (fun b (a, k) => store b (fnKey b f space a) (slice bs (a - va) k)) x =
        { x with stores := x.stores ++ l.map fun c => (fnKey b f space c.1, slice bs (c.1 - va) c.2) } := by
    intro l
    induction l with
    | nil => intro x _ _; simp
    | cons c l ih =>
      intro x hf hx
      refine (ih (store x (fnKey x f space c.1) (slice bs (c.1 - va) c.2)) hf hx).trans ?_
      simp [store, fnKey_congr f space c.1 hf hx]
  exact h _ b rfl rfl

/-- Writes one after the other add their stores in order. -/
theorem foldl_fnStore {α : Type} (l : List α) (f space : Nat) (va : α → Nat) (bs : α → List Byte) (b : Blk) :
    l.foldl (fun b x => fnStore b f space (va x) (bs x)) b = { b with stores := b.stores ++ l.flatMap fun x => fnStores b f space (va x) (bs x) } := by
  induction l generalizing b with
  | nil => simp
  | cons x l ih =>
    rw [List.foldl_cons, ih, fnStore_adds]
    simp only [List.flatMap_cons, List.append_assoc]
    congr 3

theorem fnStore_stores {b : Blk} (f space va : Nat) (bs : List Byte) (h : b.stores = []) : (fnStore b f space va bs).stores = fnStores b f space va bs := by
  rw [fnStore_adds, h]; rfl

/-! ### Applied packets of a command -/

theorem countOf_congr {b b' : Blk} (src : Nat) (q : Prefix) (h : b'.fab.applied = b.fab.applied) : countOf b' src q = countOf b src q := by
  unfold countOf; rw [h]

theorem countOf_bumpApplied (b : Blk) (src : Nat) (q : Prefix) (n : Nat) : countOf (bumpApplied b src q n) src q = countOf b src q + n := by
  have hn : ∀ l : List Applied, (l.filter fun a => !(a.src == src && a.gid == q.gid && a.gen == q.gen && a.cseq == q.cseq && a.rank == q.srcRank)).find?
      (fun a => a.src == src && a.gid == q.gid && a.gen == q.gen && a.cseq == q.cseq && a.rank == q.srcRank) = none := by
    intro l
    rw [List.find?_eq_none]
    intro a ha
    have hf := (List.mem_filter.mp ha).2
    intro h
    rw [h] at hf
    cases hf
  have h : (bumpApplied b src q n).fab.applied.find? (fun a => a.src == src && a.gid == q.gid && a.gen == q.gen && a.cseq == q.cseq && a.rank == q.srcRank) =
      some { src, gid := q.gid, gen := q.gen, cseq := q.cseq, rank := q.srcRank, count := countOf b src q + n } := by
    unfold bumpApplied; dsimp only
    rw [List.find?_append, hn]
    simp
  conv_lhs => unfold countOf
  rw [h]

/-! ### Transfers whose tail has passed, or is not known yet -/

/-- The packets of a transfer that are in place and not verified, up to a packet (R602). -/
def heldBefore (b : Blk) (p : Pkt) : List Unver := b.fab.unver.filter fun u => sameTransfer u p.hdr.src (preOfPkt p) && decide (u.off ≤ preOff (preOfPkt p))

/-- Acknowledging packets changes the sequence spaces alone. -/
theorem foldl_ackDue_only (l : List Unver) (b : Blk) : ∃ src msrc,
    l.foldl (fun b u => ackDue b (match u.dom with | some d => (true, d * 65536 + u.src) | none => (false, u.src)) u.seq) b =
      { b with fab := { b.fab with src := src, msrc := msrc } } := by
  induction l generalizing b with
  | nil => exact ⟨_, _, rfl⟩
  | cons u l ih =>
    obtain ⟨x, y, e⟩ := ackDue_only b (match u.dom with | some d => (true, d * 65536 + u.src) | none => (false, u.src)) u.seq
    obtain ⟨x', y', e'⟩ := ih { b with fab := { b.fab with src := x, msrc := y } }
    rw [List.foldl_cons, e, e']
    exact ⟨_, _, rfl⟩

/-- A tail that passes: the packets of its transfer are acknowledged and counted (R319, R602). -/
theorem passTail_passes (b : Blk) {p : Pkt} (hq : isSeqType (preOfPkt p).type = true) : Acknowledged (passTail b p) p ∧
    countOf (passTail b p) p.hdr.src (preOfPkt p) = countOf b p.hdr.src (preOfPkt p) + ((heldBefore b p).length + 1) ∧
    ∃ src msrc applied unver, passTail b p = { b with fab := { b.fab with src := src, msrc := msrc, applied := applied, unver := unver } } := by
  unfold passTail
  extract_lets q mine _ b1 b2
  obtain ⟨x, y, e2⟩ : ∃ src msrc, b2 = { b1 with fab := { b1.fab with src := src, msrc := msrc } } := foldl_ackDue_only mine b1
  obtain ⟨x', y', e3⟩ := takeSeq_only b2 p
  have hc : countOf (takeSeq b2 p) p.hdr.src q = countOf b p.hdr.src q := countOf_congr _ _ (by rw [e3, e2])
  refine ⟨acknowledged_congr (acknowledged_takeSeq b2 hq) rfl rfl rfl, ?_, ?_⟩
  · rw [countOf_bumpApplied, hc]; rfl
  · unfold bumpApplied; rw [e3, e2]; exact ⟨_, _, _, _, rfl⟩

/-- Outside arbitration a good tail passes. -/
theorem settleTail_good {b : Blk} {p : Pkt} (c : Option Cmd) (fn tag C : Nat) (data : List Byte) (h : findArb b p.hdr.src (preOfPkt p) = none) :
    settleTail b p c fn tag C data .good = passTail b p := by
  unfold settleTail; dsimp only; rw [h]

theorem settleTail_inner {b : Blk} {p : Pkt} (c : Option Cmd) (fn tag C : Nat) (data : List Byte) (h : findArb b p.hdr.src (preOfPkt p) = none) :
    settleTail b p c fn tag C data .inner = holdTail b p := by
  unfold settleTail; dsimp only; rw [h]

/-- Outside arbitration the packets of a chunk transfer are ATTEMPT 0 (R644). -/
theorem attemptOf_none {b : Blk} {p : Pkt} (h : findArb b p.hdr.src (preOfPkt p) = none) : attemptOf b p = 0 := by
  unfold attemptOf; rw [h]; simp [b2n]

end Sys2Proof.Machine
end

section
/-!
O51: DATA of a collective, DISPATCH or COMBINE at the engine it reaches: recorded with its command, refused for its format, spilled or held back.
-/
namespace Sys2Proof.Machine

theorem data_exec {s : State} {port h : Nat} {g : Group} {p : Pkt} (tail : TailVerdict) (ha : awake s.b = true) (hn : NewFor s.b 1 p h g) :
    exec (.data port p tail) s = .next (commit s (if tb (preOfPkt p).cseq 47 then p2pData (taken s.b port p) g p tail else collData (taken s.b port p) g p tail)) := by
  rw [row_data, act_awake ha, onPkt_onGen hn port fun b _ g => if tb (preOfPkt p).cseq 47 then p2pData b g p tail else collData b g p tail]

/-! ### A command that takes the data -/

/-- A command with a packet's bytes recorded. -/
def recorded (q : Prefix) (n : Nat) (c : Cmd) : Cmd := { c with recvd := c.recvd ++ [(q.step, q.srcRank, preOff q, n)] }

theorem cutAssembly_idle {b : Blk} (p : Pkt) (h : b.fab.halyRx = []) : cutAssembly b p = b := by
  unfold cutAssembly; simp only [h, List.filter_nil, List.map_nil, List.foldl_nil]
  rw [← h]

/-- With its digests and a good tail a packet is recorded, acknowledged and counted (R350, R351). -/
theorem collData_records {b : Blk} {g : Group} {p : Pkt} {c : Cmd} {r : List Cmd} (ht : (preOfPkt p).type = 1) (hg : g.state = 1)
    (hl : liveFor b (preOfPkt p) = c :: r) (hc : findCmd b c.id = some c)
    (hd : ∀ d ∈ liveFor b (preOfPkt p), digestDiffers b (preOfPkt p) d = false) (ha : findArb b p.hdr.src (preOfPkt p) = none) (hx : b.fab.halyRx = []) :
    ∃ n, Acknowledged (collData b g p .good) p ∧ findCmd (collData b g p .good) c.id = some (recorded (preOfPkt p) n c) ∧
      countOf b p.hdr.src (preOfPkt p) < countOf (collData b g p .good) p.hdr.src (preOfPkt p) ∧
      ∃ fns cmds fab, collData b g p .good = { b with fns := fns, cmds := cmds, fab := fab } := by
  have hbad : (liveFor b (preOfPkt p)).filter (digestDiffers b (preOfPkt p)) = [] := List.filter_eq_nil_iff.mpr fun d hm => by simp [hd d hm]
  unfold collData
  extract_lets q cs live
  rw [if_neg (by simp [hg]), show live = c :: r from hl]
  rw [hl] at hbad
  dsimp -zeta only
  rw [hbad]
  dsimp -zeta only
  extract_lets bs b1 b2
  have h1 : findCmd b1 c.id = some (recorded q bs.length c) := findCmd_modCmd_same (recorded q bs.length) (fun _ => rfl) hc
  have h2 : b2 = modFn b1 c.id.f fun n => { n with moved := true } := by
    simp only [b2]; rw [cutAssembly_idle (b := b1) p hx]
  have ha2 : findArb b2 p.hdr.src (preOfPkt p) = none := by rw [h2]; exact ha
  rw [settleTail_good _ _ _ _ _ ha2]
  obtain ⟨k1, k2, src, msrc, applied, unver, k3⟩ := passTail_passes b2 (p := p) (by rw [ht]; rfl)
  refine ⟨bs.length, k1, ?_, ?_, ?_⟩
  · rw [k3, h2]; exact h1
  · have : countOf b2 p.hdr.src (preOfPkt p) = countOf b p.hdr.src (preOfPkt p) := countOf_congr _ _ (by rw [h2]; rfl)
    rw [k2, this]; omega
  · rw [k3, h2]; exact ⟨_, _, _, rfl⟩

/-- A command whose digests differ ends REJECTED_FORMAT (R59, R153). -/
theorem collData_rejects {b : Blk} {g : Group} {p : Pkt} {c : Cmd} (tail : TailVerdict) (hg : g.state = 1) (hl : liveFor b (preOfPkt p) = [c])
    (hc : findCmd b c.id = some c) (hd : digestDiffers b (preOfPkt p) c = true) : ∃ x, EndedWith (collData b g p tail) c.id 0x61 x := by
  have hph : c.phase ≠ .ended := mem_liveFor (hl ▸ List.mem_singleton_self c)
  have hbad : [c].filter (digestDiffers b (preOfPkt p)) = [c] := by simp [hd]
  unfold collData
  extract_lets q cs live
  rw [if_neg (by simp [hg]), show live = [c] from hl]
  dsimp -zeta only
  rw [hbad]
  simp only [List.foldl_cons, List.foldl_nil]
  obtain ⟨x, hx⟩ : ∃ x, EndedWith (rejectFormat b c) c.id 0x61 x := by
    unfold rejectFormat
    refine endEarly_endedWith 0x61 0x61 (c := c) ((findCmd_congr _ ?_).trans hc) hph
    split
    · rfl
    · exact abortNotices_cmds ..
  obtain ⟨_, _, e⟩ := takeSeq_only (rejectFormat b c) p
  exact ⟨x, EndedWith.of_cmds hx (by rw [e])⟩

/-! ### Before any local command -/

theorem collData_early {b : Blk} {g : Group} {p : Pkt} (tail : TailVerdict) (hg : g.state = 1) (hc : cmdFor b (preOfPkt p) none = [])
    (he : hasEnded b (preOfPkt p) = false) : collData b g p tail = early b g p := by
  unfold collData; dsimp only
  rw [if_neg (by simp [hg]), hc]; simp [he]

/-- No local member can spill: the packet is refused (R61). -/
theorem early_holds {b : Blk} {g : Group} {p : Pkt} (h : ∀ l ∈ g.locs, (getFn b l.1).spEn = false) : early b g p = holdReply b p := by
  have hn : (g.locs.findSome? fun l => spillPkt b l.1 p) = none := by
    rw [List.findSome?_eq_none_iff]
    intro l hl
    unfold spillPkt; dsimp only
    rw [if_pos (by simp [h l hl])]
  unfold early; rw [hn]

/-- The stores of a packet's spill units (R60, R648). -/
def spillStores (b : Blk) (f : Nat) (p : Pkt) (u : Nat) : List (Nat × List Byte) :=
  let n := getFn b f
  let bs := prefixBytes (preOfPkt p) ++ dataOfPkt p
  (List.range (max 1 (cdiv bs.length 4096))).flatMap fun i =>
    fnStores b f 0 (n.spBase + 4096 * (u + i)) (sealUnit f (n.epoch * 2 ^ 32 + n.keyEpoch) ((n.spBase + 4096 * (u + i)) / 4096) (slice bs (4096 * i) 4096))

/-- A function's page with a packet spilled. -/
def withSpill (p : Pkt) (u : Nat) (n : Fn) : Fn :=
  { n with spill := n.spill ++ [{ unit := u, units := max 1 (cdiv (prefixBytes (preOfPkt p) ++ dataOfPkt p).length 4096), epoch := n.keyEpoch, pkt := p }] }

/-- The block with a packet spilled. -/
def spilled (b : Blk) (f : Nat) (p : Pkt) (u : Nat) : Blk := modFn { b with stores := b.stores ++ spillStores b f p u } f (withSpill p u)

theorem spillPkt_spills {b : Blk} {f u : Nat} {p : Pkt} (hl : fnLive b f = true) (he : (getFn b f).spEn = true)
    (hu : spillRun (getFn b f) (max 1 (cdiv (prefixBytes (preOfPkt p) ++ dataOfPkt p).length 4096)) = some u) :
    spillPkt b f p = some (spilled b f p u) := by
  simp only [fnLive, Bool.and_eq_true, Bool.not_eq_true'] at hl
  unfold spillPkt; dsimp only
  rw [if_neg (by simp [he, hl.2]), hu, Option.map_some, foldl_fnStore]
  rfl

theorem withSpill_ne (p : Pkt) (u : Nat) {n : Fn} (h : n.enabled = true) : withSpill p u n ≠ fn0 := by
  intro e
  have he : (withSpill p u n).enabled = fn0.enabled := congrArg Fn.enabled e
  rw [show (withSpill p u n).enabled = true from h] at he
  cases he

theorem getFn_withSpill (b : Blk) (st : List (Nat × List Byte)) (f : Nat) (p : Pkt) (u : Nat) (h : (getFn b f).enabled = true) :
    getFn (modFn { b with stores := st } f (withSpill p u)) f = withSpill p u (getFn b f) :=
  getFn_modFn { b with stores := st } f (withSpill p u) (withSpill_ne p u h)

theorem spilled_fn {b : Blk} {f : Nat} (p : Pkt) (u : Nat) (hl : fnLive b f = true) : getFn (spilled b f p u) f = withSpill p u (getFn b f) := by
  simp only [fnLive, Bool.and_eq_true] at hl
  unfold spilled
  exact getFn_withSpill b _ f p u hl.1

/-- A packet's units are the function's writes of their ciphertext. -/
theorem spillStores_eq {b : Blk} (f : Nat) (p : Pkt) (u : Nat) (hs : b.stores = []) :
    spillStores b f p u = (List.range (max 1 (cdiv (prefixBytes (preOfPkt p) ++ dataOfPkt p).length 4096))).flatMap fun i =>
      (fnStore b f 0 ((getFn b f).spBase + 4096 * (u + i)) (sealUnit f ((getFn b f).epoch * 2 ^ 32 + (getFn b f).keyEpoch)
        (((getFn b f).spBase + 4096 * (u + i)) / 4096) (slice (prefixBytes (preOfPkt p) ++ dataOfPkt p) (4096 * i) 4096))).stores := by
  simp only [fnStore_stores _ _ _ _ hs]; rfl

theorem spilled_stores {b : Blk} (f : Nat) (p : Pkt) (u : Nat) (hs : b.stores = []) :
    (spilled b f p u).stores = spillStores b f p u := by
  unfold spilled; rw [modFn_stores]; dsimp only; rw [hs, List.nil_append]

/-- The one local member takes the packet into its spill region (R60). -/
theorem early_spills {b b' : Blk} {g : Group} {p : Pkt} {f r : Nat} (hloc : g.locs = [(f, r)]) (h : spillPkt b f p = some b') : early b g p = takeSeq b' p := by
  unfold early; rw [hloc, List.findSome?_cons, h]

/-- Settles O51: the data recorded, rejected, held back or spilled. -/
theorem collectiveDataArrives : Obligations.CollectiveDataArrives := by
  unfold Obligations.CollectiveDataArrives
  intro s port h g p tail ha hs hn q off live hg ht
  have hx : ∀ tail, exec (.data port p tail) s = .next (Machine.commit s (collData (taken s.b port p) g p tail)) := by
    intro tail; rw [data_exec tail ha hn, if_neg (by simpa using ht)]
  refine ⟨fun c r hl hc _ => ⟨fun hd hf hy => ?_, fun hr hd => ?_⟩, fun hc he => ⟨fun hsp => ?_, fun f r u hloc hlive hsp => ?_⟩⟩
  · obtain ⟨n, h1, h2, h3, fns, cmds, fab, h4⟩ := collData_records (b := taken s.b port p) (newFor_type hn) hg hl hc
      (fun d hm => hd d hm) hf hy
    have hc := commit_of_no_stores s (collData (taken s.b port p) g p .good) (by rw [h4]; exact hs)
    refine ⟨_, n, hx .good, ?_⟩
    rw [hc]
    exact ⟨h1, h2, h3, by rw [h4]; rfl⟩
  · obtain ⟨x, he⟩ := collData_rejects (b := taken s.b port p) tail hg (hr ▸ hl) hc hd
    exact ⟨_, x, hx tail, he⟩
  · rw [hx, collData_early (b := taken s.b port p) tail hg hc he, early_holds (b := taken s.b port p) hsp]
    have hst : (holdReply (taken s.b port p) p).stores = [] := by unfold holdReply; rw [sendBare_eq]; exact hs
    exact congrArg _ (commit_of_no_stores s _ hst)
  · intro n bytes k hu
    have hb : collData (taken s.b port p) g p tail = takeSeq (spilled (taken s.b port p) f p u) p :=
      (collData_early (b := taken s.b port p) tail hg hc he).trans (early_spills (b := taken s.b port p) hloc (spillPkt_spills (b := taken s.b port p) hlive hsp hu))
    obtain ⟨src, msrc, e⟩ := takeSeq_only (spilled (taken s.b port p) f p u) p
    refine ⟨_, hx tail, ?_⟩
    rw [hb]
    refine ⟨?_, ?_, ?_, ?_⟩
    · exact acknowledged_congr (acknowledged_takeSeq (spilled (taken s.b port p) f p u) (by rw [newFor_type hn]; rfl)) rfl rfl rfl
    · rw [getFn_commit, e]; exact spilled_fn (b := taken s.b port p) p u hlive
    · have hst : (takeSeq (spilled (taken s.b port p) f p u) p).stores = spillStores s.b f p u := by
        rw [e]; exact spilled_stores (b := taken s.b port p) f p u hs
      rw [commit_mem, hst, spillStores_eq f p u hs]
    · rw [e]; exact (congrArg (fun st => ({ s.b with fns := _, fab := _, stores := st } : Blk)) hs.symm)

end Sys2Proof.Machine
end

section
/-!
O50: packets of point-to-point commands at their target: DATA, ATOMIC, SIGNAL and GET_REQ, and the GET_RESP at the issuer.
-/
namespace Sys2Proof.Machine

/-! ### The target's check (R81, R128) -/

/-- What the target may act on draws no refusal. -/
theorem p2pFinding_may {b : Blk} {g : Group} {p : Pkt} {x : P2pIn} (h : TargetMay b g p x.fn x.space) : p2pFinding b g p x = none := by
  obtain ⟨hg, hn, hs, ⟨l, hl, hf⟩, hd⟩ := h
  have hloc : g.locs.any (fun l => l.1 == x.fn) = true := List.any_eq_true.mpr ⟨l, hl, by simp [hf]⟩
  unfold p2pFinding; dsimp only
  rw [if_neg (by simp [hg]), if_neg (by simp [hg, hs, hn]), if_neg (by simp [hloc, hd])]

/-! ### DATA -/

/-- The stores of a packet's runs at REMOTE. -/
def remoteStores (b : Blk) (x : P2pIn) (runs : List (Nat × List Byte)) : List (Nat × List Byte) :=
  runs.flatMap fun r => fnStores b x.fn x.space (x.remote + r.1) r.2

theorem remoteStores_congr {b b' : Blk} (x : P2pIn) (runs : List (Nat × List Byte)) (hf : b'.fns = b.fns) (hx : b'.xlats = b.xlats) :
    remoteStores b' x runs = remoteStores b x runs := by
  unfold remoteStores
  simp only [fnStores_congr _ _ _ _ hf hx]

/-- Asking for translations changes memory ports alone. -/
theorem foldl_needXl_only {α : Type} (l : List α) (f : Nat) (va : α → Nat) (wr : Bool) (use : α → MUse) (b : Blk) :
    ∃ memp, l.foldl (fun b c => needXl b f (va c) wr (use c)) b = { b with memp := memp } :=
  foldl_keeps (fun x => ∃ memp, x = { b with memp := memp }) l _ b ⟨_, rfl⟩ fun y c ⟨m, h⟩ => by
    subst h; rw [needXl_eq]; exact ⟨_, rfl⟩

/-- The bytes of a packet are written to REMOTE, run by run, and translations asked for (R81, R729). -/
theorem writeRemote_writes (b : Blk) (p : Pkt) (x : P2pIn) (off : Nat) (bs : List Byte) :
    ∃ memp, writeRemote b p x off bs = { b with memp := memp, stores := b.stores ++ remoteStores b x (dataRuns x off bs) } := by
  unfold writeRemote
  extract_lets q
  generalize dataRuns x off bs = runs
  induction runs generalizing b with
  | nil => exact ⟨b.memp, by simp [remoteStores]⟩
  | cons r runs ih =>
    obtain ⟨m, h⟩ : ∃ memp, (if (x.space != 0) = true then b else (cutsOf (x.remote + r.1) r.2.length).foldl (fun b (c : Nat × Nat) =>
        needXl b x.fn c.1 true (.remote p.hdr.src q.gid q.gen q.cseq q.srcRank c.1)) b) = { b with memp := memp } := by
      split
      · exact ⟨_, rfl⟩
      · exact foldl_needXl_only _ _ (fun c : Nat × Nat => c.1) true (fun c => .remote p.hdr.src q.gid q.gen q.cseq q.srcRank c.1) b
    obtain ⟨m', h'⟩ := ih (fnStore { b with memp := m } x.fn x.space (x.remote + r.1) r.2)
    rw [List.foldl_cons]
    dsimp only
    rw [h, h', fnStore_adds]
    refine ⟨m', ?_⟩
    dsimp only
    rw [remoteStores_congr (b := b) (b' := { b with memp := m, stores := _ }) x runs rfl rfl, List.append_assoc]
    rfl

theorem releaseSignals_idle {b : Blk} (g : Group) (src : Nat) (q : Prefix) (h : b.fab.heldSigs = []) : releaseSignals b g src q = b := by
  unfold releaseSignals; simp only [h, List.filter_nil, List.foldl_nil]
  rw [← h]

/-- An unverified packet is in place, and its acknowledgement is not due (R602). -/
theorem holdTail_holds (b : Blk) (p : Pkt) : (holdTail b p).fab.unver.length = b.fab.unver.length + 1 ∧
    (getSrc (holdTail b p) (srcKey b p)).due = (getSrc b (srcKey b p)).due ∧
    ∃ src msrc unver, holdTail b p = { b with fab := { b.fab with src := src, msrc := msrc, unver := unver } } := by
  have hd := (getSrc_mark b (srcKey b p) (preOfPkt p).e2e).2
  obtain ⟨x, y, e⟩ := mark_only b (srcKey b p) (preOfPkt p).e2e
  refine ⟨by unfold holdTail; simp, (congrArg SrcSt.due (getSrc_congr _ rfl rfl)).trans hd, ?_⟩
  unfold holdTail; dsimp only; rw [e]
  exact ⟨_, _, _, rfl⟩

/-- A mismatch begins an arbitration; the acknowledgement is not due (R602). -/
theorem beginArb_begins (b : Blk) (p : Pkt) (c : Option Cmd) (fn tag off C : Nat) (data : List Byte) (check : Bool) (o : Nat) :
    (beginArb b p c fn tag off C data check o).fab.arbs.length = b.fab.arbs.length + 1 ∧
    (getSrc (beginArb b p c fn tag off C data check o) (srcKey b p)).due = (getSrc b (srcKey b p)).due ∧
    (beginArb b p c fn tag off C data check o).fab.heldSigs = b.fab.heldSigs ∧ (beginArb b p c fn tag off C data check o).stores = b.stores := by
  have hd := (getSrc_mark b (srcKey b p) (preOfPkt p).e2e).2
  obtain ⟨x, y, e⟩ := mark_only b (srcKey b p) (preOfPkt p).e2e
  unfold beginArb
  extract_lets q t tail k b1 b2 _ b3
  obtain ⟨d, pseq, arrived, ports, e3⟩ := sendBare_fab b3 p.hdr.src 1 { pre0 with
    type := 7, mcseq := q.mcseq, gid := q.gid, gen := q.gen, cseq := q.cseq, srcRank := q.srcRank, step := q.step, e2e := q.e2e
    spec := mk [(7, 0, 1), (95, 32, off)] } []
  have h1 : b1.fab.arbs = b.fab.arbs ∧ b1.fab.heldSigs = b.fab.heldSigs ∧ b1.stores = b.stores := by
    simp only [b1, k, q]; rw [e]; exact ⟨rfl, rfl, rfl⟩
  obtain ⟨ha, hh, hs⟩ := h1
  rw [e3]
  refine ⟨?_, (congrArg SrcSt.due (getSrc_congr (b := b1) _ rfl rfl)).trans hd, hh, hs⟩
  show (b1.fab.arbs ++ [_]).length = _
  rw [ha, List.length_append, List.length_singleton]

section
variable {b : Blk} {g : Group} {p : Pkt} (hm : TargetMay b g p (p2pIn b g p).fn (p2pIn b g p).space) (ha : findArb b p.hdr.src (preOfPkt p) = none)
  (hh : b.fab.heldSigs = [])

/-- The block with a packet's bytes in place at REMOTE. -/
def inPlaceAt (b : Blk) (g : Group) (p : Pkt) : Blk :=
  writeRemote b p (p2pIn b g p) (preOff (preOfPkt p)) (openPkt b p (p2pIn b g p).rank 0)

/-- What a packet writes at REMOTE. -/
def dataStores (b : Blk) (g : Group) (p : Pkt) : List (Nat × List Byte) :=
  remoteStores b (p2pIn b g p) (dataRuns (p2pIn b g p) (preOff (preOfPkt p)) (openPkt b p (p2pIn b g p).rank 0))

theorem inPlaceAt_only (b : Blk) (g : Group) (p : Pkt) :
    ∃ memp, inPlaceAt b g p = { b with memp := memp, stores := b.stores ++ dataStores b g p } := writeRemote_writes ..

include hm ha in
theorem p2pData_may (tail : TailVerdict) : p2pData b g p tail = releaseSignals (settleTail (inPlaceAt b g p) p none (p2pIn b g p).fn (p2pIn b g p).tag
    (p2pIn b g p).chunk (openPkt b p (p2pIn b g p).rank 0) tail) g p.hdr.src (preOfPkt p) := by
  unfold p2pData; dsimp only
  rw [p2pFinding_may hm, attemptOf_none ha]; rfl

include ha in
theorem findArb_inPlaceAt : findArb (inPlaceAt b g p) p.hdr.src (preOfPkt p) = none := by
  obtain ⟨_, e⟩ := inPlaceAt_only b g p; rw [e]; exact ha

include hm ha hh

/-- DATA with a good tail: written, acknowledged and counted (R319, R350). -/
theorem p2pData_good (hq : isSeqType (preOfPkt p).type = true) : Acknowledged (p2pData b g p .good) p ∧
    countOf (p2pData b g p .good) p.hdr.src (preOfPkt p) = countOf b p.hdr.src (preOfPkt p) + ((heldBefore b p).length + 1) ∧
    ∃ fab memp, p2pData b g p .good = { b with fab := fab, memp := memp, stores := b.stores ++ dataStores b g p } := by
  obtain ⟨memp, e⟩ := inPlaceAt_only b g p
  obtain ⟨h1, h2, _, _, _, _, h3⟩ := passTail_passes (inPlaceAt b g p) hq
  have hi : (passTail (inPlaceAt b g p) p).fab.heldSigs = [] := by rw [h3, e]; exact hh
  rw [p2pData_may hm ha, settleTail_good _ _ _ _ _ (findArb_inPlaceAt ha), releaseSignals_idle _ _ _ hi]
  exact ⟨h1, by rw [h2, e]; rfl, by rw [h3, e]; exact ⟨_, _, rfl⟩⟩

/-- DATA not verified yet: written, and its acknowledgement not due (R602). -/
theorem p2pData_inner : (p2pData b g p .inner).fab.unver.length = b.fab.unver.length + 1 ∧
    (getSrc (p2pData b g p .inner) (srcKey b p)).due = (getSrc b (srcKey b p)).due ∧
    ∃ fab memp, p2pData b g p .inner = { b with fab := fab, memp := memp, stores := b.stores ++ dataStores b g p } := by
  obtain ⟨memp, e⟩ := inPlaceAt_only b g p
  obtain ⟨h1, h2, _, _, _, h3⟩ := holdTail_holds (inPlaceAt b g p) p
  have hi : (holdTail (inPlaceAt b g p) p).fab.heldSigs = [] := by rw [h3, e]; exact hh
  rw [p2pData_may hm ha, settleTail_inner _ _ _ _ _ (findArb_inPlaceAt ha), releaseSignals_idle _ _ _ hi]
  have hk : srcKey (inPlaceAt b g p) p = srcKey b p := srcKey_congr p (by rw [e])
  rw [hk] at h2
  exact ⟨by rw [h1, e], by rw [h2, e]; rfl, by rw [h3, e]; exact ⟨_, _, rfl⟩⟩

/-- DATA whose digest differs: written, under arbitration, and its acknowledgement not due (R602). -/
theorem p2pData_mismatch (o : Nat) : (p2pData b g p (.digestMismatch o)).fab.arbs.length = b.fab.arbs.length + 1 ∧
    (getSrc (p2pData b g p (.digestMismatch o)) (srcKey b p)).due = (getSrc b (srcKey b p)).due ∧
    (p2pData b g p (.digestMismatch o)).stores = b.stores ++ dataStores b g p := by
  obtain ⟨memp, e⟩ := inPlaceAt_only b g p
  have hs : ∃ off, settleTail (inPlaceAt b g p) p none (p2pIn b g p).fn (p2pIn b g p).tag (p2pIn b g p).chunk (openPkt b p (p2pIn b g p).rank 0) (.digestMismatch o) =
      beginArb (inPlaceAt b g p) p none (p2pIn b g p).fn (p2pIn b g p).tag off (p2pIn b g p).chunk (openPkt b p (p2pIn b g p).rank 0) false o := by
    unfold settleTail; dsimp only; rw [findArb_inPlaceAt ha]; exact ⟨_, rfl⟩
  obtain ⟨off, hs⟩ := hs
  obtain ⟨h1, h2, h3, h4⟩ := beginArb_begins (inPlaceAt b g p) p none (p2pIn b g p).fn (p2pIn b g p).tag off (p2pIn b g p).chunk
    (openPkt b p (p2pIn b g p).rank 0) false o
  rw [p2pData_may hm ha, hs, releaseSignals_idle _ _ _ (h3.trans (by rw [e]; exact hh))]
  have hk : srcKey (inPlaceAt b g p) p = srcKey b p := srcKey_congr p (by rw [e])
  rw [hk] at h2
  exact ⟨by rw [h1, e], by rw [h2, e]; rfl, by rw [h4, e]⟩

end

/-! ### ATOMIC -/

/-- Bytes no longer than one group are one group. -/
theorem chunksOf_one {α : Type} {w : Nat} {l : List α} (h0 : 0 < w) (h : l.length = w) : chunksOf w l = [l] := by
  unfold chunksOf
  match l, h with
  | [], h => rw [← h] at h0; cases h0
  | x :: r, h =>
    rw [List.length_cons]; unfold groupsOf
    rw [List.take_of_length_le (by omega), List.drop_of_length_le (by omega)]
    cases r.length <;> rfl

/-- A run of one element: its update is the one store (R84). -/
theorem atomicRun_one {b : Blk} (m : Tab Byte) (x : P2pIn) (o : Nat) {r : List Byte} {w : Nat} (hs : b.stores = []) (hw : w = elemBits x.fmt / 8) (h0 : 0 < w)
    (hr : r.length = w) : atomicRun m x b o r = fnStore b x.fn x.space (x.remote + o)
      (leBytes (atomicElem x.fmt x.oper (ofLe (readMem m (fnKey b x.fn x.space (x.remote + o)) w)) (ofLe r)) w) := by
  have hmax : max 1 (elemBits x.fmt / 8) = w := by omega
  unfold atomicRun; dsimp only
  rw [hmax, chunksOf_one h0 hr]
  simp [hs]

section
variable {b : Blk} {g : Group} {p : Pkt} (hm : TargetMay b g p (p2pIn b g p).fn (p2pIn b g p).space) (ha : findArb b p.hdr.src (preOfPkt p) = none)
include hm ha

/-- ATOMIC of one element with a good tail: the element is updated, and the packet acknowledged (R84, R602). -/
theorem atomicFx_good (m : Tab Byte) {o w : Nat} {r : List Byte} (hq : isSeqType (preOfPkt p).type = true) (hs : b.stores = []) (hat : b.fab.atoms = [])
    (hr : dataRuns (p2pIn b g p) (preOff (preOfPkt p)) (openPkt b p (p2pIn b g p).rank 0) = [(o, r)])
    (hw : w = elemBits (p2pIn b g p).fmt / 8) (h0 : 0 < w) (hl : r.length = w) :
    Acknowledged (atomicFx b m g p none .good) p ∧ ∃ fab, atomicFx b m g p none .good =
      { fnStore b (p2pIn b g p).fn (p2pIn b g p).space ((p2pIn b g p).remote + o) (leBytes (atomicElem (p2pIn b g p).fmt (p2pIn b g p).oper
        (ofLe (readMem m (fnKey b (p2pIn b g p).fn (p2pIn b g p).space ((p2pIn b g p).remote + o)) w)) (ofLe r)) w) with fab := fab } := by
  have hb : ({ b with fab := { b.fab with atoms := [] } } : Blk) = b := by rw [← hat]
  unfold atomicFx; dsimp only
  rw [p2pFinding_may hm, attemptOf_none ha]
  dsimp only
  simp only [hat, List.filter_nil, List.nil_append, List.foldl_cons, List.foldl_nil]
  rw [hb]
  unfold atomicApply
  rw [hr, List.foldl_cons, List.foldl_nil]
  dsimp only
  rw [atomicRun_one m _ o hs hw h0 hl]
  generalize leBytes _ w = v
  have ha' : findArb (fnStore b (p2pIn b g p).fn (p2pIn b g p).space ((p2pIn b g p).remote + o) v) p.hdr.src (preOfPkt p) = none := by
    rw [fnStore_adds]; exact ha
  rw [settleTail_good _ _ _ _ _ ha']
  obtain ⟨h1, -, _, _, _, _, h3⟩ := passTail_passes (fnStore b (p2pIn b g p).fn (p2pIn b g p).space ((p2pIn b g p).remote + o) v) hq
  exact ⟨h1, _, h3⟩

/-- ATOMIC not verified yet: kept until its tail is known (R602). -/
theorem atomicFx_inner (m : Tab Byte) : (atomicFx b m g p none .inner).fab.atoms = b.fab.atoms ++ [p] ∧ (atomicFx b m g p none .inner).stores = b.stores := by
  have ha' : findArb { b with fab := { b.fab with atoms := b.fab.atoms ++ [p] } } p.hdr.src (preOfPkt p) = none := ha
  unfold atomicFx; dsimp only
  rw [p2pFinding_may hm]
  dsimp only
  rw [settleTail_inner _ _ _ _ _ ha']
  obtain ⟨-, -, _, _, _, h3⟩ := holdTail_holds { b with fab := { b.fab with atoms := b.fab.atoms ++ [p] } } p
  rw [h3]; exact ⟨rfl, rfl⟩

end

/-! ### SIGNAL -/

theorem foldl_modFn_only {α : Type} (l : List α) (f : α → Nat) (g : Fn → Fn) (b : Blk) :
    ∃ fns, l.foldl (fun b c => modFn b (f c) g) b = { b with fns := fns } :=
  foldl_keeps (fun x => ∃ fns, x = { b with fns := fns }) l _ b ⟨_, rfl⟩ fun y c ⟨m, h⟩ => by subst h; exact ⟨_, rfl⟩

theorem foldl_notify_only (l : List Watch) (v : Word) (b : Blk) : ∃ d2d, l.foldl (fun b w => notify b w 0 v) b = { b with d2d := d2d } :=
  foldl_keeps (fun x => ∃ d2d, x = { b with d2d := d2d }) l _ b ⟨_, rfl⟩ fun y c ⟨m, h⟩ => by subst h; exact ⟨_, rfl⟩

/-- A pennant with fewer waiters. -/
def fewerWaiters (n k : Nat) (e : Pen) : Pen := { e with waiters := e.waiters - n - k }

/-- Release takes waiters off the pennant; else it changes functions, commands, watches, the deadlock detector and dies alone. -/
theorem penRelease_only (b : Blk) (p : Nat) : ∃ n k fns cmds watches dlck d2d, penRelease b p =
    { modPen b p (fewerWaiters n k) with fns := fns, cmds := cmds, watches := watches, dlck := dlck, d2d := d2d } := by
  unfold penRelease
  extract_lets v holds heads ws b1 b2 b3 _ b4
  obtain ⟨fns, e3⟩ : ∃ fns, b3 = { b2 with fns := fns } := foldl_modFn_only heads (fun c => c.id.f) _ b2
  have e4 : ∃ dlck, b4 = { b3 with dlck := dlck } := by
    simp only [b4]; split <;> exact ⟨_, rfl⟩
  obtain ⟨dlck, e4⟩ := e4
  obtain ⟨d2d, e5⟩ := foldl_notify_only ws v b4
  rw [e5, e4, e3]
  exact ⟨heads.length, ws.length, _, _, _, _, _, rfl⟩

/-- An operation on a pennant: its entry, but for the waiters that it releases; no other pennant changes (R438). -/
theorem penOp_leaves (b : Blk) (p : Nat) (add : Bool) (v : Word) (ep fn kind tag : Nat) (hk : kind ≠ 0) :
    (∃ w, getPen (penOp b p add v ep fn kind tag) p = { penApply (getPen b p) add v ep fn kind tag with waiters := w }) ∧
    (∀ k, k ≠ p → getPen (penOp b p add v ep fn kind tag) k = getPen b k) ∧
    ∃ pens fns cmds watches dlck d2d, penOp b p add v ep fn kind tag =
      { b with pens := pens, fns := fns, cmds := cmds, watches := watches, dlck := dlck, d2d := d2d } := by
  unfold penOp
  extract_lets b1 b2
  obtain ⟨fns, e2⟩ : ∃ fns, b2 = { b1 with fns := fns } := foldl_modFn_only _ (fun c : Cmd => c.id.f) _ b1
  obtain ⟨n, k, fns', cmds, watches, dlck, d2d, e3⟩ := penRelease_only b2 p
  have hp : (penRelease b2 p).pens = (modPen b1 p (fewerWaiters n k)).pens := by rw [e3, e2]; rfl
  have hg : ∀ j, getPen (penRelease b2 p) j = getPen (modPen b1 p (fewerWaiters n k)) j := fun j => by unfold getPen; rw [hp]
  have h1 : getPen b1 p = penApply (getPen b p) add v ep fn kind tag := getPen_modPen b p _ (pen_ne hk)
  have ho : ∀ j, j ≠ p → getPen b1 j = getPen b j := fun j hj => getPen_modPen_other b p j _ hj
  obtain ⟨pens, e1⟩ : ∃ pens, b1 = { b with pens := pens } := ⟨_, rfl⟩
  clear_value b1 b2
  refine ⟨?_, fun j hj => ?_, ?_⟩
  · rw [hg, getPen_modPen b1 p _ (pen_ne (by rw [h1]; exact hk)), h1]; exact ⟨_, rfl⟩
  · rw [hg, getPen_modPen_other _ _ _ _ hj, ho j hj]
  · rw [e3, e2, e1]; exact ⟨_, _, _, _, _, _, rfl⟩

/-- The function that a signal's issuer runs on. -/
def issuerOf (b : Blk) (g : Group) (p : Pkt) : Nat := slotFn (tget 0 b.t.roster (g.base + (preOfPkt p).srcRank))

/-- What a signal leaves of its pennant, but for the waiters (R438, R463). -/
def signalled (b : Blk) (g : Group) (p : Pkt) (e : Pen) : Pen :=
  penApply e (tb (preOfPkt p).spec 48) (BitVec.ofNat 64 (ofLe (dataOfPkt p))) p.hdr.src (issuerOf b g p) 3 (p2pIn b g p).tag

section
variable {b : Blk} {g : Group} {p : Pkt} (hm : TargetMay b g p (p2pIn b g p).fn 0)
include hm

theorem signalFx_applies (port : Nat) (hc : fld (preOfPkt p).spec 31 0 ≤ countOf b p.hdr.src (preOfPkt p)) : signalFx b port g p = applySignal b g p := by
  unfold signalFx; dsimp only
  rw [p2pFinding_may (x := { p2pIn b g p with space := 0 }) hm]
  dsimp only
  rw [if_pos hc]

/-- A signal ahead of its data is held (R461). -/
theorem signalFx_holds (port : Nat) (hc : countOf b p.hdr.src (preOfPkt p) < fld (preOfPkt p).spec 31 0) (hh : b.fab.heldSigs = []) :
    signalFx b port g p = { b with fab := { b.fab with heldSigs := [{ port, pkt := p }] } } := by
  unfold signalFx; dsimp only
  rw [p2pFinding_may (x := { p2pIn b g p with space := 0 }) hm]
  dsimp only
  rw [if_neg (by omega), hh]; rfl

end

/-- A signal applied: its pennant operated on, and nothing of memory (R438, R463). -/
theorem applySignal_raises {b : Blk} {g : Group} {p : Pkt} {pen : Nat} (hq : isSeqType (preOfPkt p).type = true)
    (hf : (getFn b (p2pIn b g p).fn).fenced = false) (hp : penIdx b (p2pIn b g p).fn (fld (preOfPkt p).spec 47 32) = some pen) :
    Acknowledged (applySignal b g p) p ∧ (applySignal b g p).stores = b.stores ∧ (∀ k, k ≠ pen → getPen (applySignal b g p) k = getPen b k) ∧
    ∃ w, getPen (applySignal b g p) pen = { signalled b g p (getPen b pen) with waiters := w } := by
  obtain ⟨src, msrc, e⟩ := takeSeq_only b p
  have hx : (if (getFn (takeSeq b p) (p2pIn b g p).fn).fenced then none else penIdx (takeSeq b p) (p2pIn b g p).fn (fld (preOfPkt p).spec 47 32)) = some pen := by
    have hf' : (getFn (takeSeq b p) (p2pIn b g p).fn).fenced = false := by rw [e]; exact hf
    rw [if_neg (by simp [hf']), ← hp, e]; rfl
  have hb : applySignal b g p = penOp (takeSeq b p) pen (tb (preOfPkt p).spec 48) (BitVec.ofNat 64 (ofLe (dataOfPkt p))) p.hdr.src (issuerOf b g p) 3 (p2pIn b g p).tag := by
    unfold applySignal; dsimp only; rw [hx]; rfl
  obtain ⟨⟨w, h1⟩, h2, _, _, _, _, _, _, h3⟩ := penOp_leaves (takeSeq b p) pen (tb (preOfPkt p).spec 48) (BitVec.ofNat 64 (ofLe (dataOfPkt p))) p.hdr.src
    (issuerOf b g p) 3 (p2pIn b g p).tag (by decide)
  have hpen : ∀ k, getPen (takeSeq b p) k = getPen b k := by intro k; rw [e]; rfl
  rw [hb]
  refine ⟨?_, by rw [h3, e], fun k hk => (h2 k hk).trans (hpen k), w, by rw [h1, hpen]; rfl⟩
  rw [h3]; exact acknowledged_congr (acknowledged_takeSeq b hq) rfl rfl rfl

/-- A signal for a pennant that is not mapped is reported here and to its issuer (R463, R616). -/
theorem applySignal_unmapped {b : Blk} {g : Group} {p : Pkt} (hp : penIdx b (p2pIn b g p).fn (fld (preOfPkt p).spec 47 32) = none) :
    applySignal b g p = abortTo (event (takeSeq b p) (p2pIn b g p).fn 0x0B 0 0 (fld (preOfPkt p).spec 47 32)
      (mk [(63, 48, p.hdr.src), (47, 39, issuerOf b g p), (31, 0, (p2pIn b g p).tag)])) p.hdr.src (preOfPkt p) (p2pIn b g p).rank 0x31 := by
  obtain ⟨src, msrc, e⟩ := takeSeq_only b p
  have hx : (if (getFn (takeSeq b p) (p2pIn b g p).fn).fenced then none else penIdx (takeSeq b p) (p2pIn b g p).fn (fld (preOfPkt p).spec 47 32)) = none := by
    have hp' : penIdx (takeSeq b p) (p2pIn b g p).fn (fld (preOfPkt p).spec 47 32) = none := by rw [e]; exact hp
    rw [hp', ite_self]
  unfold applySignal; dsimp only; rw [hx]; rfl

/-! ### GET_REQ -/

theorem sendResp_stores (b : Blk) (p : Pkt) (rank : Nat) (data : List Byte) : (sendResp b p rank data).stores = b.stores := by
  unfold sendResp
  refine foldl_keeps (fun x => x.stores = b.stores) _ _ b rfl ?_
  rintro y ⟨x, i⟩ h
  dsimp only; rw [sendBare_eq]; exact h

/-- A request of a point-to-point GET, no COMBINE and no stream being there to serve it. -/
theorem serveFx_p2p {b : Blk} {g : Group} {p : Pkt} (m : Tab Byte) (port : Nat) (fault : Option AccFault)
    (hm : TargetMay b g p (p2pIn b g p).fn (p2pIn b g p).space) (ht : tb (preOfPkt p).cseq 47 = true)
    (hc : ∀ c ∈ cmdFor b (preOfPkt p) none, opOf c ≠ 0x21) (hs : streamFor b (preOfPkt p) = none) : serveFx b m port g p fault = match fault with
      | some a => p2pRefuse b p (p2pIn b g p).rank (faultStatus a.kind)
      | none => sendResp (served b p) p (p2pIn b g p).rank
          (fnRead b m (p2pIn b g p).fn (p2pIn b g p).space ((p2pIn b g p).remote + preOff (preOfPkt p)) (preLen (preOfPkt p))) := by
  have hn : (cmdFor b (preOfPkt p) none).find? (fun c => opOf c == 0x21 && decide (c.phase = .running)) = none := by
    rw [List.find?_eq_none]
    intro c h; simp [hc c h]
  unfold serveFx; dsimp only
  rw [hn, hs]
  dsimp only
  rw [if_pos ht]
  unfold p2pServe; dsimp only
  rw [p2pFinding_may hm]
  cases fault <;> rfl

/-! ### GET_RESP -/

/-- A write to a space: its stores, and messages to the die where the space is one (R716, R719). -/
theorem spaceStore_only (b : Blk) (f : Nat) (who : FlyRef) (space va : Nat) (bs : List Byte) :
    ∃ d2d, spaceStore b f who space va bs = { b with d2d := d2d, stores := b.stores ++ fnStores b f space va bs } := by
  have h : ∃ d2d, spaceStore b f who space va bs = { fnStore b f space va bs with d2d := d2d } := by
    unfold spaceStore; dsimp only; split
    · exact ⟨_, rfl⟩
    · refine foldl_keeps (fun x => ∃ d2d, x = { fnStore b f space va bs with d2d := d2d }) _ _ (fnStore b f space va bs) ⟨(fnStore b f space va bs).d2d, rfl⟩ ?_
      rintro y ⟨a, k⟩ ⟨m, rfl⟩
      dsimp only
      split
      · rw [dieAccess_eq]; exact ⟨_, rfl⟩
      · rw [dieAccess_eq]; exact ⟨_, rfl⟩
  obtain ⟨d2d, h⟩ := h
  exact ⟨d2d, by rw [h, fnStore_adds]⟩

/-- A command with the bytes of a request got so far. -/
def gotMore (i n : Nat) (c : Cmd) : Cmd := { c with gotten := c.gotten.set i n }

/-- The bytes of a response that belong to its chunk's data, as stores at LOCAL. -/
def getStores (b : Blk) (c : Cmd) (p : Pkt) : List (Nat × List Byte) :=
  let i := preOff (preOfPkt p) / chunkOf b c
  let j := preOff (preOfPkt p) % chunkOf b c
  fnStores b c.id.f (fSpaceA c) (fLocal c + i * chunkOf b c + j) ((dataOfPkt p).take (min (chunkOf b c) (fLen c - i * chunkOf b c) - j))

/-- The next bytes of a request, not its last ones: written at LOCAL, and counted (R353). -/
theorem getData_writes {b : Blk} {c : Cmd} {p : Pkt} (tail : TailVerdict) (hf : findCmd b c.id = some c)
    (hi : preOff (preOfPkt p) / chunkOf b c < c.chunks) (hg : c.gotten.getD (preOff (preOfPkt p) / chunkOf b c) 0 = preOff (preOfPkt p) % chunkOf b c)
    (hn : preOff (preOfPkt p) % chunkOf b c < min (chunkOf b c) (fLen c - preOff (preOfPkt p) / chunkOf b c * chunkOf b c))
    (hl : preOff (preOfPkt p) % chunkOf b c + (dataOfPkt p).length < min (chunkOf b c) (fLen c - preOff (preOfPkt p) / chunkOf b c * chunkOf b c) + 20) :
    findCmd (getData b c p tail) c.id = some (gotMore (preOff (preOfPkt p) / chunkOf b c) (preOff (preOfPkt p) % chunkOf b c + (dataOfPkt p).length) c) ∧
    ∃ fns cmds d2d, getData b c p tail = { b with fns := fns, cmds := cmds, d2d := d2d, stores := b.stores ++ getStores b c p } := by
  unfold getData
  extract_lets q C i j n bs b1 b2
  have hg' : c.gotten.getD i 0 = j := hg
  have hi' : i < c.chunks := hi
  have hn' : j < n := hn
  rw [if_neg (by rw [hg']; simp; omega), if_pos hl]
  obtain ⟨d2d, e1⟩ : ∃ d2d, b1 = { b with d2d := d2d, stores := b.stores ++ getStores b c p } := spaceStore_only ..
  have hf2 : findCmd b2 c.id = some c := by
    refine (findCmd_congr c.id ?_).trans hf
    simp only [b2]; rw [modFn_cmds, e1]
  refine ⟨findCmd_modCmd_same (gotMore i (j + bs.length)) (fun _ => rfl) hf2, ?_⟩
  simp only [b2]; rw [e1]
  exact ⟨_, _, _, rfl⟩

/-- A response of a command that is running goes to that command. -/
theorem respFx_command {b : Blk} {c : Cmd} {p : Pkt} (tail : TailVerdict) (h : (b.cmds.find? fun c => opOf c == 0x31 && decide (c.phase = .running) &&
      fGid c == (preOfPkt p).gid && fGen c == (preOfPkt p).gen && fCseq c == (preOfPkt p).cseq && fTarget c == (preOfPkt p).srcRank) = some c) :
    respFx b p tail = getData b c p tail := by
  unfold respFx; dsimp only; rw [h]

/-! ### The rows -/

section
variable {s : State} {port h : Nat} {g : Group} {p : Pkt} (ha : awake s.b = true)
include ha

theorem atomic_exec (fault : Option AccFault) (tail : TailVerdict) (hn : NewFor s.b 5 p h g) :
    exec (.atomic port p fault tail) s = .next (commit s (atomicFx (taken s.b port p) s.mem g p fault tail)) := by
  rw [row_atomic, act_awake ha, onPkt_onGen hn port fun b _ g => atomicFx b s.mem g p fault tail]

theorem signal_exec (hn : NewFor s.b 2 p h g) : exec (.signal port p) s = .next (commit s (signalFx (taken s.b port p) port g p)) := by
  rw [row_signal, act_awake ha, onPkt_onGen hn port fun b _ g => signalFx b port g p]

theorem getReq_exec (fault : Option AccFault) (hn : NewFor s.b 3 p h g) :
    exec (.getReq port p fault) s = .next (commit s (serveFx (taken s.b port p) s.mem port g p fault)) := by
  rw [row_getReq, act_awake ha, onPkt_onGen hn port fun b _ g => serveFx b s.mem port g p fault]

theorem getResp_exec (tail : TailVerdict) (hc : isCollPkt p = true) (ht : (preOfPkt p).type = 4) (hh : p.hdr.hop ≠ 0) (hd : p.hdr.dst = selfEp s.b) :
    exec (.getResp port p tail) s = .next (commit s (respFx (taken s.b port p) p tail)) := by
  rw [row_getResp, act_awake ha, onPkt_here port _ hc ht hh hd (.inl rfl)]

end

/-- What a packet writes, as the writes of its runs. -/
theorem dataStores_eq {b : Blk} (g : Group) (p : Pkt) (hs : b.stores = []) : dataStores b g p =
    (dataRuns (p2pIn b g p) (preOff (preOfPkt p)) (openPkt b p (p2pIn b g p).rank 0)).flatMap fun r =>
      (fnStore b (p2pIn b g p).fn (p2pIn b g p).space ((p2pIn b g p).remote + r.1) r.2).stores := by
  simp only [fnStore_stores _ _ _ _ hs]; rfl

/-- Settles O50: a lemma for each type of packet and each verdict of its tail. -/
theorem pointToPointArrives : Obligations.PointToPointArrives := by
  unfold Obligations.PointToPointArrives
  intro s port h g p ha hs q off x bytes runs writes may abort before
  have hw : (taken s.b port p).stores ++ dataStores (taken s.b port p) g p = writes := by
    rw [show (taken s.b port p).stores = [] from hs, List.nil_append]
    exact dataStores_eq (b := s.b) g p hs
  refine ⟨fun ⟨hn, hm⟩ ht hf hh => ?data, fun ⟨hn, hm⟩ hf => ?atomic, fun ⟨hn, hm⟩ => ?signal, fun ⟨hn, hm⟩ ht hc hst => ?request, ?response⟩
  case data =>
    have hq : isSeqType (preOfPkt p).type = true := by rw [newFor_type hn]; rfl
    have hx : ∀ tail, exec (.data port p tail) s = .next (Machine.commit s (p2pData (taken s.b port p) g p tail)) := by
      intro tail; rw [data_exec tail ha hn, if_pos ht]
    refine ⟨?_, ?_, fun o => ?_⟩
    · obtain ⟨h1, h2, fab, memp, h3⟩ := p2pData_good (b := taken s.b port p) hm hf hh hq
      refine ⟨_, hx .good, ?_, h1, h2, ?_⟩
      · rw [commit_mem, h3, ← hw]
      · rw [h3]; exact congrArg (fun st => ({ s.b with fab := fab, memp := memp, stores := st } : Blk)) hs.symm
    · obtain ⟨h1, h2, fab, memp, h3⟩ := p2pData_inner (b := taken s.b port p) hm hf hh
      refine ⟨_, hx .inner, ?_, h1, h2, ?_⟩
      · rw [commit_mem, h3, ← hw]
      · rw [h3]; exact congrArg (fun st => ({ s.b with fab := fab, memp := memp, stores := st } : Blk)) hs.symm
    · obtain ⟨h1, h2, h3⟩ := p2pData_mismatch (b := taken s.b port p) hm hf hh o
      exact ⟨_, hx _, by rw [commit_mem, h3, hw], h1, h2⟩
  case atomic =>
    refine ⟨fun o r w hr hw0 h0 hl hat => ?_, ?_⟩
    · obtain ⟨h1, fab, h2⟩ := atomicFx_good (b := taken s.b port p) hm hf s.mem (by rw [newFor_type hn]; rfl) hs hat hr hw0 h0 hl
      refine ⟨_, atomic_exec ha none .good hn, h1, ?_, ?_⟩
      · rw [h2, fnStore_adds]
        exact congrArg (fun st => ({ s.b with fab := fab, stores := st } : Blk)) hs.symm
      · rw [commit_mem, h2]
        exact congrArg (applyStores s.mem) ((fnStore_stores (b := taken s.b port p) _ _ _ _ hs).trans (fnStore_stores (b := s.b) _ _ _ _ hs).symm)
    · obtain ⟨h1, h2⟩ := atomicFx_inner (b := taken s.b port p) hm hf s.mem
      exact ⟨_, atomic_exec ha none .inner hn, by rw [commit_mem, h2, show (taken s.b port p).stores = [] from hs]; rfl, h1⟩
  case signal =>
    have hq : isSeqType (preOfPkt p).type = true := by rw [newFor_type hn]; rfl
    intro vid issuer
    refine ⟨fun hc => ⟨fun pen hfen hp => ?_, fun hp => ?_⟩, fun hc hh => ?_⟩
    · intro old v
      have hx := signal_exec (port := port) ha hn
      rw [signalFx_applies (b := taken s.b port p) hm port hc] at hx
      obtain ⟨h1, h2, h3, w, h4⟩ := applySignal_raises (b := taken s.b port p) hq hfen hp
      exact ⟨_, w, hx, h1, by rw [commit_mem, h2, show (taken s.b port p).stores = [] from hs]; rfl, h3, h4⟩
    · rw [signal_exec ha hn, signalFx_applies (b := taken s.b port p) hm port hc, applySignal_unmapped (b := taken s.b port p) hp]
      rfl
    · rw [signal_exec ha hn, signalFx_holds (b := taken s.b port p) hm port hc hh]
      exact congrArg _ (commit_of_no_stores s _ hs)
  case request =>
    refine ⟨?_, fun a => ?_⟩
    · rw [getReq_exec ha none hn, serveFx_p2p (b := taken s.b port p) s.mem port none hm ht hc hst]
      refine congrArg _ (commit_of_no_stores s _ ?_)
      obtain ⟨_, _, e⟩ := mark_only (taken s.b port p) (srcKey (taken s.b port p) p) (preOfPkt p).e2e
      rw [sendResp_stores]; unfold served; rw [e]; exact hs
    · rw [getReq_exec ha (some a) hn, serveFx_p2p (b := taken s.b port p) s.mem port (some a) hm ht hc hst]
      refine congrArg _ (commit_of_no_stores s _ ?_)
      obtain ⟨_, _, e⟩ := takeSeq_only (taken s.b port p) p
      dsimp only
      unfold p2pRefuse abortTo; rw [sendBare_eq, e]; exact hs
  case response =>
    intro c tail hc ht hh hd hlive hfind hcmd C i n got data hi hg hgn hl
    obtain ⟨h1, fns, cmds, d2d, h2⟩ := getData_writes (b := taken s.b port p) tail hfind hi hg hgn hl
    have hx := getResp_exec (port := port) ha tail hc ht hh hd
    rw [respFx_command (b := taken s.b port p) tail hcmd] at hx
    refine ⟨_, hx, h1, ?_, ?_⟩
    · rw [commit_mem, h2, fnStore_stores _ _ _ _ hs]
      exact congrArg (fun st => applyStores s.mem (st ++ getStores s.b c p)) hs
    · rw [h2]
      exact congrArg (fun st => ({ s.b with fns := fns, cmds := cmds, fab := (taken s.b port p).fab, d2d := d2d, stores := st } : Blk)) hs.symm

end Sys2Proof.Machine
end

section
/-!
O32: a collective at one member, from the counts that it learns to the end of its command (R67, R87 to R93).
-/
namespace Sys2Proof.Machine

/-! ### Messages -/

/-- Sending along with a count of the bytes sent. -/
theorem foldl_sends {α β : Type} (l : List α) (g : Blk × β → α → Blk × β) (b : Blk) (x : β) (h : ∀ acc a, Sends acc.1 (g acc a).1) :
    Sends b (l.foldl g (b, x)).1 :=
  foldl_keeps (fun acc => Sends b acc.1) l g (b, x) (.refl b) fun acc a hb => hb.trans (h acc a)

theorem sendMsg_sends (b : Blk) (c : Cmd) (k : Coll) (m : CMsg) : Sends b (sendMsg b c k m) := by
  unfold sendMsg; dsimp only; split
  · exact .refl b
  · split
    · exact .of_fab b _ b.ports
    · split
      · exact sendTo_sends ..
      · exact foldl_sends _ _ b 0 fun acc t => Sends.foldl _ _ _ fun b p => sendTo_sends b p c.id m.dst

/-- The messages of a command are sent, and nothing else happens. -/
theorem sendMsgs_sends (b : Blk) (c : Cmd) (k : Coll) (ms : List CMsg) : Sends b (sendMsgs b c k ms) := by
  unfold sendMsgs
  refine foldl_sends ms _ b [] fun acc m => ?_
  split
  · split
    · exact .refl _
    · exact foldl_sends _ _ _ 0 fun x t => Sends.foldl _ _ _ fun b p => sendMc_sends b _ _ p (some c.id)
  · exact sendMsg_sends ..

/-! ### What a result writes -/

/-- The stores of RCOUNTS. -/
def countStores (b : Blk) (c : Cmd) (o : CollOut) : List (Nat × List Byte) :=
  match o.rcounts with
  | some x => if fRcounts c = 0 then [] else fnStores b c.id.f 0 (fRcounts c) x
  | none => []

/-- The stores of DST, from the first byte whose fly is not raised. -/
def dstStores (b : Blk) (c : Cmd) (h : Hoist) (o : CollOut) : List (Nat × List Byte) :=
  match o.dst with
  | some x => fnStores b c.id.f (fSpaceB c) (fDst c + c.flies * 2 ^ h.chunkLog2) (x.drop (c.flies * 2 ^ h.chunkLog2))
  | none => []

/-- The stores of the error feedback. -/
def efbStores (b : Blk) (c : Cmd) (o : CollOut) : List (Nat × List Byte) :=
  match o.efb with
  | some x => fnStores b c.id.f 0 (fEfb c) x
  | none => []

/-- A function's writes go by its context and the kept translations. -/
theorem fnStores_context {b b' : Blk} (f space va : Nat) (bs : List Byte) (hf : (getFn b' f).context = (getFn b f).context) (hx : b'.xlats = b.xlats) :
    fnStores b' f space va bs = fnStores b f space va bs := by
  unfold fnStores fnKey translate
  rw [hf, hx]

theorem collCounts_writes (b : Blk) (c : Cmd) (o : CollOut) : collCounts b c o = { b with stores := b.stores ++ countStores b c o } := by
  unfold collCounts countStores
  cases o.rcounts with
  | none => simp
  | some x =>
    dsimp only; split
    · simp
    · exact fnStore_adds ..

theorem collDst_writes (b : Blk) (c : Cmd) (h : Hoist) (o : CollOut) : ∃ d2d, collDst b c h o = { b with d2d := d2d, stores := b.stores ++ dstStores b c h o } := by
  unfold collDst dstStores
  cases o.dst with
  | none => exact ⟨b.d2d, by simp⟩
  | some x => exact spaceStore_only ..

theorem collEfb_writes (b : Blk) (c : Cmd) (o : CollOut) : collEfb b c o = { b with stores := b.stores ++ efbStores b c o } := by
  unfold collEfb efbStores
  cases o.efb with
  | none => simp
  | some x => exact fnStore_adds ..

/-- Saturation events mark tiles with a drawn value, and nothing happens without one (R196). -/
theorem satMask_only (b : Blk) (h : Hoist) (own : Bool) : ∃ tiles fresh, (satMask b h own).2 = { b with tiles := tiles, fresh := fresh } ∧
    (own = false → tiles = b.tiles ∧ fresh = b.fresh ∧ (satMask b h own).1 = 0) := by
  unfold satMask
  cases own with
  | false => exact ⟨_, _, rfl, fun _ => ⟨rfl, rfl, rfl⟩⟩
  | true => exact ⟨_, _, rfl, nofun⟩

/-! ### The result takes effect -/

/-- What a collective leaves: its command, its stores, and functions, ports, the fabric and dies; tiles and the counter of free values change for a
saturation event here alone. -/
structure CollLeaves (b b' : Blk) (c c' : Cmd) (o : CollOut) (st : List (Nat × List Byte)) : Prop where
  found : findCmd b' c.id = some c'
  frame : ∃ fns cmds ports fab d2d tiles fresh, b' =
    { b with fns := fns, cmds := cmds, ports := ports, fab := fab, d2d := d2d, tiles := tiles, fresh := fresh, stores := b.stores ++ st }
  calm : o.satOwn = false → b'.tiles = b.tiles ∧ b'.fresh = b.fresh ∧ c'.satTiles = 0

/-- The block once a collective's counts are written, its saturation events are marked and its messages are sent. -/
def collSent (b : Blk) (c : Cmd) (k : Coll) (h : Hoist) (o : CollOut) : Blk :=
  sendMsgs (satMask (collCounts b c o) h o.satOwn).2 c k o.msgs

/-- The tiles that a collective's saturation events mark. -/
def collTiles (b : Blk) (c : Cmd) (h : Hoist) (o : CollOut) : Nat := (satMask (collCounts b c o) h o.satOwn).1

section
variable {b : Blk} {c : Cmd} (k : Coll) (h : Hoist) (o : CollOut)

theorem collSent_only : ∃ fns ports fab tiles fresh, collSent b c k h o =
    { b with fns := fns, ports := ports, fab := fab, tiles := tiles, fresh := fresh, stores := b.stores ++ countStores b c o } ∧
    (o.satOwn = false → tiles = b.tiles ∧ fresh = b.fresh ∧ collTiles b c h o = 0) := by
  obtain ⟨tiles, fresh, e1, hc⟩ := satMask_only (collCounts b c o) h o.satOwn
  obtain ⟨⟨fns, fab, ports, e2⟩, -⟩ := sendMsgs_sends (satMask (collCounts b c o) h o.satOwn).2 c k o.msgs
  refine ⟨fns, ports, fab, tiles, fresh, ?_, ?_⟩
  · unfold collSent; rw [e2, e1, collCounts_writes]
  · unfold collTiles; rw [collCounts_writes] at hc ⊢; exact hc

/-- Sending leaves a live function its context. -/
theorem collSent_context (hl : fnLive b c.id.f = true) : (getFn (collSent b c k h o) c.id.f).context = (getFn b c.id.f).context := by
  obtain ⟨tiles, fresh, e1, -⟩ := satMask_only (collCounts b c o) h o.satOwn
  have hf : (satMask (collCounts b c o) h o.satOwn).2.fns = b.fns := by rw [e1, collCounts_writes]
  have hg : getFn (satMask (collCounts b c o) h o.satOwn).2 c.id.f = getFn b c.id.f := by unfold getFn; rw [hf]
  simp only [fnLive, Bool.and_eq_true] at hl
  obtain ⟨m, hm⟩ := (sendMsgs_sends (satMask (collCounts b c o) h o.satOwn).2 c k o.msgs).2 c.id.f (by rw [hg]; exact hl.1)
  unfold collSent
  rw [hm, hg]

theorem collSent_find : findCmd (collSent b c k h o) c.id = findCmd b c.id := by
  obtain ⟨_, _, _, _, _, e, -⟩ := collSent_only (b := b) (c := c) k h o
  exact findCmd_congr _ (by rw [e])

/-- The block once a collective's result is written as well. -/
def collWritten (b : Blk) (c : Cmd) (k : Coll) (h : Hoist) (o : CollOut) : Blk := collEfb (collDst (collSent b c k h o) c h o) c o

/-- Everything that a collective writes, and what its writing and sending change beside. -/
theorem collWritten_only (hl : fnLive b c.id.f = true) : ∃ fns ports fab d2d tiles fresh, collWritten b c k h o =
    { b with fns := fns, ports := ports, fab := fab, d2d := d2d, tiles := tiles, fresh := fresh
             stores := b.stores ++ (countStores b c o ++ dstStores b c h o ++ efbStores b c o) } ∧
    (o.satOwn = false → tiles = b.tiles ∧ fresh = b.fresh ∧ collTiles b c h o = 0) := by
  obtain ⟨fns, ports, fab, tiles, fresh, e, hc⟩ := collSent_only (b := b) (c := c) k h o
  have hcx := collSent_context k h o hl
  have hxl : (collSent b c k h o).xlats = b.xlats := by rw [e]
  obtain ⟨d2d, e3⟩ := collDst_writes (collSent b c k h o) c h o
  have hdst : dstStores (collSent b c k h o) c h o = dstStores b c h o := by
    unfold dstStores; cases o.dst with
    | none => rfl
    | some x => exact fnStores_context _ _ _ _ hcx hxl
  have hefb : efbStores (collDst (collSent b c k h o) c h o) c o = efbStores b c o := by
    rw [e3]; unfold efbStores; cases o.efb with
    | none => rfl
    | some x => exact fnStores_context _ _ _ _ hcx hxl
  refine ⟨fns, ports, fab, d2d, tiles, fresh, ?_, hc⟩
  unfold collWritten
  rw [collEfb_writes, hefb, e3, hdst, e]
  simp only [List.append_assoc]

theorem collWritten_find (hl : fnLive b c.id.f = true) : findCmd (collWritten b c k h o) c.id = findCmd b c.id := by
  obtain ⟨_, _, _, _, _, _, e, -⟩ := collWritten_only k h o hl
  exact findCmd_congr _ (by rw [e])

/-- A command with its status decided. -/
def decided (st r : Nat) (c : Cmd) : Cmd := { c with phase := .ended, status := st, result := r }

/-- The tiles marked for a command. -/
def marked (sat : Nat) (c : Cmd) : Cmd := { c with satTiles := sat }

variable (hf : findCmd b c.id = some c) (hp : c.phase = .running) (hw : c.waitOn = none)
include hf hp hw

/-- A result that is turned away ends the command, with RCOUNTS alone written (R65, R90). -/
theorem collDone_fails {st : Nat} (hx : o.fail = some st) :
    ∃ r, CollLeaves b (collDone b c k h o) c (decided st r (marked (collTiles b c h o) c)) o (countStores b c o) := by
  obtain ⟨fns, ports, fab, tiles, fresh, e, hc⟩ := collSent_only (b := b) (c := c) k h o
  have h1 : findCmd (modCmd (collSent b c k h o) c.id (marked (collTiles b c h o))) c.id = some (marked (collTiles b c h o) c) :=
    findCmd_modCmd_same _ (fun _ => rfl) ((collSent_find k h o).trans hf)
  have hd : collDone b c k h o = modCmd (modCmd (collSent b c k h o) c.id (marked (collTiles b c h o))) c.id
      (decided st (collResult (collSent b c k h o) c)) := by
    unfold collDone; dsimp only; rw [hx]
    exact endCmd_ended _ _ h1 (by simp [marked, hp]) hw
  refine ⟨collResult (collSent b c k h o) c, ?_, ?_, ?_⟩
  · rw [hd]; exact findCmd_modCmd_same (decided st _) (fun _ => rfl) h1
  · rw [hd, e]; exact ⟨_, _, _, _, _, _, _, rfl⟩
  · rw [hd, e]; exact hc

/-- A result written: the command stands ready for its flies, and ends with its last one (R92, R93). -/
theorem collDone_writes (hl : fnLive b c.id.f = true) (hx : o.fail = none) : ∃ ph r,
    CollLeaves b (collDone b c k h o) c { collReady h o (chunkCount c o.dst h) (collTiles b c h o) c with phase := ph, result := r } o
      (countStores b c o ++ dstStores b c h o ++ efbStores b c o) ∧
    (ph = .ended ↔ (flFly c = false ∨ c.flies = chunkCount c o.dst h) ∧ c.sent ≤ c.acked) := by
  obtain ⟨fns, ports, fab, d2d, tiles, fresh, e, hc⟩ := collWritten_only k h o hl
  have h1 : findCmd (modFn (modCmd (collWritten b c k h o) c.id (collReady h o (chunkCount c o.dst h) (collTiles b c h o))) c.id.f
      fun n => { n with moved := true }) c.id = some (collReady h o (chunkCount c o.dst h) (collTiles b c h o) c) :=
    findCmd_modCmd_same (collReady h o (chunkCount c o.dst h) (collTiles b c h o)) (fun _ => rfl) ((collWritten_find k h o hl).trans hf)
  obtain ⟨ph, r, cmds, h2, h3, h4⟩ := finishCmd_running h1 hp rfl hw
  have hd : collDone b c k h o = finishCmd (modFn (modCmd (collWritten b c k h o) c.id
      (collReady h o (chunkCount c o.dst h) (collTiles b c h o))) c.id.f fun n => { n with moved := true }) c.id := by
    unfold collDone; dsimp only; rw [hx]; rfl
  refine ⟨ph, r, ⟨by rw [hd]; exact h2, ?_, ?_⟩, h3⟩
  · rw [hd, h4, e]; exact ⟨_, _, _, _, _, _, _, rfl⟩
  · rw [hd, h4, e]; exact hc

end

/-! ### The rows -/

/-- Each collective's row runs it under its opcode. -/
theorem collRows_run {s : State} (ha : awake s.b = true) {id : CmdId} {env : CollEnv} {c : Cmd} :
    ∀ row ∈ ([(.allreduce, 0x10), (.reduceScatter, 0x11), (.allgather, 0x12), (.broadcast, 0x13), (.reduce, 0x14), (.gather, 0x15), (.scatter, 0x16),
      (.alltoall, 0x17), (.alltoallv, 0x18), (.barrier, 0x19), (.topkGather, 0x1A)] : List ((CmdId → CollEnv → Instr) × Nat)),
      RunsNow s.b id row.2 c → exec (row.1 id env) s = .next (commit s (collFx s.b s.mem c env)) := by
  have hrun : ∀ op, RunsNow s.b id op c → runColl op id env s = .next (commit s (collFx s.b s.mem c env)) := by
    intro op hr
    unfold runColl
    rw [act_awake ha, onRun_runs hr (awake_run ha)]
  simp only [List.forall_mem_cons, List.not_mem_nil, false_implies, implies_true, and_true]
  exact ⟨hrun 0x10, hrun 0x11, hrun 0x12, hrun 0x13, hrun 0x14, hrun 0x15, hrun 0x16, hrun 0x17, hrun 0x18, hrun 0x19, hrun 0x1A⟩

/-- What a collective leaves of the block once its stores are in memory. -/
theorem CollLeaves.commit {s : State} {b' : Blk} {c c' : Cmd} {o : CollOut} {st : List (Nat × List Byte)} (h : CollLeaves s.b b' c c' o st)
    (hs : s.b.stores = []) : (commit s b').mem = applyStores s.mem st ∧ (Machine.commit s b').b = { s.b with
      fns := b'.fns, cmds := b'.cmds, ports := b'.ports, fab := b'.fab, d2d := b'.d2d, tiles := b'.tiles, fresh := b'.fresh } := by
  obtain ⟨fns, cmds, ports, fab, d2d, tiles, fresh, e⟩ := h.frame
  rw [e]
  refine ⟨by rw [commit_mem, hs]; rfl, ?_⟩
  exact congrArg (fun st => ({ s.b with fns := fns, cmds := cmds, ports := ports, fab := fab, d2d := d2d, tiles := tiles, fresh := fresh, stores := st } : Blk)) hs.symm

section
variable {b : Blk} (c : Cmd) (h : Hoist) (o : CollOut) (hs : b.stores = [])
include hs

theorem countStores_eq : countStores b c o =
    match o.rcounts with | some x => if fRcounts c = 0 then [] else (fnStore b c.id.f 0 (fRcounts c) x).stores | none => [] := by
  simp only [fnStore_stores _ _ _ _ hs]; rfl

theorem dstStores_eq : dstStores b c h o = match o.dst with
    | some x => (fnStore b c.id.f (fSpaceB c) (fDst c + c.flies * 2 ^ h.chunkLog2) (x.drop (c.flies * 2 ^ h.chunkLog2))).stores
    | none => [] := by
  simp only [fnStore_stores _ _ _ _ hs]; rfl

theorem efbStores_eq : efbStores b c o = match o.efb with | some x => (fnStore b c.id.f 0 (fEfb c) x).stores | none => [] := by
  simp only [fnStore_stores _ _ _ _ hs]; rfl

end

/-- Settles O32: a result turned away by `collDone_fails`, one written by `collDone_writes`. -/
theorem collectivesComplete : Obligations.CollectivesComplete := by
  unfold Obligations.CollectivesComplete
  intro row hrow id env c s gh g hn ha hs hr hw hg hh hfault h o done counts dst efb n status
  obtain rfl := findCmd_id hr.1
  obtain ⟨hf, hp, ho, hl, he, -⟩ := id hr
  have hx : exec (row.1 c.id env) s = .next (Machine.commit s (collDone s.b c (collOf s.b c g h) h o)) := by
    rw [collRows_run ha row hrow hr]
    unfold collFx; rw [hg, hh]; dsimp only; rw [hfault]
  cases hfail : o.fail with
  | some st =>
    obtain ⟨r, hc⟩ := collDone_fails (collOf s.b c g h) h o hf hp hw hfail
    obtain ⟨hm, hb⟩ := hc.commit hs
    refine ⟨_, _, hx, hc.found, hb, hc.calm, ?_, nofun⟩
    rintro st' ⟨⟩
    exact ⟨rfl, rfl, hm.trans (congrArg (applyStores s.mem) (countStores_eq c o hs))⟩
  | none =>
    obtain ⟨ph, r, hc, hph⟩ := collDone_writes (collOf s.b c g h) h o hf hp hw hl hfail
    obtain ⟨hm, hb⟩ := hc.commit hs
    have hn' : chunkCount c o.dst h = n := by
      simp only [chunkCount, n, ho, beq_iff_eq]
    refine ⟨_, _, hx, hc.found, hb, hc.calm, nofun, fun _ => ⟨?_, rfl, hn', hn', ?_, hn' ▸ hph⟩⟩
    · exact hm.trans (congrArg (applyStores s.mem) (congrArg₂ (· ++ ·) (congrArg₂ (· ++ ·) (countStores_eq c o hs) (dstStores_eq c h o hs)) (efbStores_eq c o hs)))
    · simp only [collReady, status]
      cases o.satChunks <;> rfl

end Sys2Proof.Machine
end

section
/-!
O27, O28: what STEP_TIMEOUT does to the group of a collective whose step waits too long (R136, R138), and AUTO_REFORM's judgement of a broken
group (R141, R142).
-/
namespace Sys2Proof.Machine

theorem findGroup_valid {b : Blk} {gid h : Nat} {g : Group} (hf : findGroup b gid = some (h, g)) : g.valid = true := by
  have hv := List.find?_some hf
  simp only [Bool.and_eq_true] at hv
  exact hv.1

/-! ### STEP_TIMEOUT -/

/-- The ranks of a group among those whose cells are missing that belong to other engines (R136). -/
def lateRanks (b : Blk) (g : Group) (missing : List Nat) : List Nat :=
  missing.filter fun r => decide (r < g.n) && slotEp (tget 0 b.t.roster (g.base + r)) != selfEp b

/-- A command's step has waited for STEP_TIMEOUT beats in its ACTIVE generation, and another engine's member is late (R136). -/
def StepIsLate (b : Blk) (c : Cmd) (g : Group) (missing : List Nat) : Prop :=
  g.gen = fGen c ∧ g.state = 1 ∧ g.timeout ≠ 0 ∧ c.dispBeat + g.timeout ≤ beatNow b ∧ lateRanks b g missing ≠ []

section
variable {s : State} {id : CmdId} {c : Cmd} {h : Nat} {g : Group} {missing : List Nat} (hc : findCmd s.b id = some c) (hp : hasPeers c = true)
  (he : c.effectDone = false) (hg : findGroup s.b (fGid c) = some (h, g))
include hc hp he hg

/-- The lowest rank that is late is named slow (R136). -/
theorem stepTimeout_breaks (ha : awake s.b = true) (hl : StepIsLate s.b c g missing) :
    exec (.stepTimeout id missing) s = .next (commit s (detectBreak s.b h 2 [(lateRanks s.b g missing).foldl min 8191])) := by
  obtain ⟨hgen, hst, ht, hw, hr⟩ := hl
  unfold lateRanks at hr
  rw [row_stepTimeout, act_awake ha]
  simp [hc, hp, he, hg, hgen, hst, ht, hw, hr, lateRanks]

theorem stepTimeout_early (hs : s.b.stores = []) (hl : ¬ StepIsLate s.b c g missing) : exec (.stepTimeout id missing) s = .next s := by
  rw [row_stepTimeout]
  refine act_nop _ hs ?_
  simp only [hc, hp, he, hg, Bool.not_false, Bool.and_self, if_true]
  refine if_neg fun hn => hl ?_
  simpa [StepIsLate, lateRanks, and_assoc] using hn

end

/-- Settles O27: a late step by `detectBreak_only`, every other by `stepTimeout_early`. -/
theorem slowMembersBreakGroups : Obligations.SlowMembersBreakGroups := by
  unfold Obligations.SlowMembersBreakGroups
  intro id c missing s ha hs hc hp he h g hg hget late
  refine ⟨fun hgen hst ht hw hr => ?_, fun hn => stepTimeout_early hc hp he hg hs ?_⟩
  · obtain ⟨_, _, _, _, _, _, _, _, _, _, _, hb⟩ := detectBreak_only s.b h 2 [late.foldl min 8191] (by rw [hget]; exact findGroup_valid hg)
      (by rw [hget]; exact hst) (List.cons_ne_nil _ _)
    refine ⟨_, stepTimeout_breaks hc hp he hg ha ⟨hgen, hst, ht, hw, hr⟩, ?_⟩
    rw [show lateRanks s.b g missing = late from rfl, hb, hget]
    exact ⟨rfl, rfl, rfl, rfl, rfl, rfl, rfl⟩
  · rintro ⟨hgen, hst, ht, hw, hr⟩
    rcases hn with h | h | h | h | h
    · exact h hgen
    · exact h hst
    · exact ht h
    · exact Nat.not_le.mpr h hw
    · exact hr h

/-! ### AUTO_REFORM -/

/-- The events of a group's earliest break (R141). -/
def firstEvents (g : Group) : List (Nat × Nat × Nat) := g.events.filter fun e => e.2.2 == dZero g

/-- The members that the earliest break leaves (R141). -/
def survivors (b : Blk) (g : Group) : Nat := ((rosterOf b g).zipIdx.filter fun x => !((firstEvents g).map (·.2.1)).contains x.2).length

theorem reformTime_iff (b : Blk) (g : Group) :
    reformTime b g = true ↔ g.state = 2 ∧ g.events ≠ [] ∧ b.beat.inDip = true ∧ dZero g + 3 ≤ beatNow b := by
  simp [reformTime, and_assoc]

/-- What re-formation takes (R142). -/
theorem cannotReform_iff (b : Blk) (g : Group) : cannotReform b g = false ↔
    (∀ e ∈ firstEvents g, permits g.autoReform e.1 = true) ∧ g.minMembers ≤ survivors b g ∧ survivors b g ≠ 0 ∧ g.gen ≠ 0xFFFFFFFF := by
  have hp : allPermitted g = (firstEvents g).all fun e => permits g.autoReform e.1 := rfl
  have hc : cannotReform b g = (!allPermitted g || decide (survivors b g < g.minMembers) || survivors b g == 0 || g.gen == 0xFFFFFFFF) := rfl
  rw [hc, hp]
  simp only [Bool.or_eq_false_iff, Bool.not_eq_false', List.all_eq_true, decide_eq_false_iff_not, Nat.not_lt, beq_eq_false_iff_ne, and_assoc, ne_eq]

/-- An entry that stays BROKEN has an event for the admin function at most (R142). -/
theorem stayBroken_only (b : Blk) (g : Group) : ∃ fns memp st, stayBroken b g = { b with fns := fns, memp := memp, stores := st } := by
  unfold stayBroken; split
  · exact event_only ..
  · exact ⟨_, _, _, rfl⟩

section
variable {s : State} {gid h : Nat} {g : Group} (hg : findGroup s.b gid = some (h, g))
include hg

theorem autoReform_falls_due (ha : awake s.b = true) (hd : gid ∉ s.b.due.reforms) (ht : reformTime s.b g = true) (hm : cannotReform s.b g = false) :
    exec (.autoReform gid) s = .next (commit s { s.b with due := { s.b.due with reforms := s.b.due.reforms ++ [gid] } }) := by
  rw [row_autoReform, act_awake ha]
  simp [hg, hd, ht, hm]

theorem autoReform_stays_broken (ha : awake s.b = true) (hd : gid ∉ s.b.due.reforms) (ht : reformTime s.b g = true) (hm : cannotReform s.b g = true) :
    exec (.autoReform gid) s = .next (commit s (stayBroken s.b g)) := by
  rw [row_autoReform, act_awake ha]
  simp [hg, hd, ht, hm]

theorem autoReform_untimely (hs : s.b.stores = []) (ht : reformTime s.b g = false) : exec (.autoReform gid) s = .next s := by
  rw [row_autoReform]
  refine act_nop _ hs ?_
  simp [hg, ht]

end

/-- Settles O28: its time by `reformTime_iff`, its conditions by `cannotReform_iff`. -/
theorem reformationFallsDue : Obligations.ReformationFallsDue := by
  unfold Obligations.ReformationFallsDue
  intro gid h g s ha hs hg hd d0 first left may time
  have htime : reformTime s.b g = true ↔ time := reformTime_iff s.b g
  have hmay : cannotReform s.b g = false ↔ may := cannotReform_iff s.b g
  refine ⟨fun ht hm => ?_, fun ht hm => ?_, fun ht => ?_⟩
  · rw [autoReform_falls_due hg ha hd (htime.mpr ht) (hmay.mpr hm)]
    exact congrArg _ (commit_of_no_stores s _ hs)
  · have hc : cannotReform s.b g = true := Bool.eq_true_of_not_eq_false fun hc => hm (hmay.mp hc)
    refine ⟨_, autoReform_stays_broken hg ha hd (htime.mpr ht) hc, ?_⟩
    obtain ⟨fns, memp, _, e⟩ := stayBroken_only s.b g
    rw [e]
    exact congrArg (fun st => ({ s.b with fns := fns, memp := memp, stores := st } : Blk)) hs.symm
  · exact autoReform_untimely hg hs (Bool.eq_false_of_not_eq_true fun hr => ht (htime.mp hr))

end Sys2Proof.Machine
end

section
/-!
O49: what every packet of a command or a notice meets first: its destination, its sequence, and the generation of its group (R124, R128 to R130, R348, R350).
-/
namespace Sys2Proof.Machine

/-! ### What each check makes of a packet -/

section
variable {b : Blk} {p : Pkt} {type : Nat} (port : Nat) (k : Blk → Blk)

/-- A packet for another endpoint is discarded (R348). -/
theorem onPkt_misrouted (hc : isCollPkt p = true) (ht : (preOfPkt p).type = type) (hh : p.hdr.hop ≠ 0) (hd : p.hdr.dst ≠ selfEp b) :
    onPkt b port p type k = misroute (taken b port p) port p := by
  have hm : misrouted (taken b port p) p = true := by
    have : p.hdr.dst ≠ selfEp (taken b port p) := hd
    simp [misrouted, hh, this]
  unfold onPkt
  rw [if_neg (by simp [hc, ht, ownCopy, hh])]
  dsimp only
  rw [if_pos hm]

/-- A sequence applied already is acknowledged again (R350). -/
theorem onPkt_again (hc : isCollPkt p = true) (ht : (preOfPkt p).type = type) (hh : p.hdr.hop ≠ 0) (hd : p.hdr.dst = selfEp b)
    (hq : isSeqType type = true) (h3 : type ≠ 3) (hp : port ≠ 64) (ha : applied (getSrc b (srcKey b p)) (preOfPkt p).e2e = true)
    (hu : unsettled (taken b port p) p = false) : onPkt b port p type k = ackDue (taken b port p) (srcKey b p) (preOfPkt p).e2e := by
  have hm : misrouted (taken b port p) p = false := by
    have : p.hdr.dst = selfEp (taken b port p) := hd
    simp [misrouted, this]
  have ha' : applied (getSrc (taken b port p) (srcKey (taken b port p) p)) (preOfPkt p).e2e = true := ha
  unfold onPkt
  rw [if_neg (by simp [hc, ht, ownCopy, hh])]
  dsimp only
  rw [hm, if_neg (by simp), if_pos (by simp [hq, h3, hp, ha']), hu]
  rfl

end

section
variable {b : Blk} {p : Pkt} (k : Nat → Group → Blk)

/-- A packet whose group or generation this engine does not hold yet gets a hold reply (R129, R130). -/
theorem onGen_unknown (h : findGroup b (preOfPkt p).gid = none ∨ ∃ i g, findGroup b (preOfPkt p).gid = some (i, g) ∧ g.gen < (preOfPkt p).gen) :
    onGen b p k = holdReply b p := by
  unfold onGen; dsimp only
  rcases h with h | ⟨i, g, h, hg⟩ <;> rw [h]
  exact if_pos hg

/-- The packets of point-to-point commands that their target answers for (R128). -/
def IsP2pPkt (p : Pkt) : Prop := tb (preOfPkt p).cseq 47 = true ∧ (preOfPkt p).type ∈ [1, 2, 3, 5]

section
variable {i : Nat} {g : Group} (h : findGroup b (preOfPkt p).gid = some (i, g)) (hg : (preOfPkt p).gen < g.gen)
include h hg

/-- A packet of an older generation counts as applied (R129, R350). -/
theorem onGen_older (ht : ¬ IsP2pPkt p) : onGen b p k = takeSeq b p := by
  unfold onGen; dsimp only
  rw [h]; dsimp only
  rw [if_neg (Nat.lt_asymm hg), if_pos hg, if_neg (by simpa [IsP2pPkt, or_assoc] using ht)]

/-- One of a point-to-point command is refused besides, with STALE_GENERATION (R128). -/
theorem onGen_older_p2p (ht : IsP2pPkt p) : onGen b p k = p2pRefuse b p ((g.locs.headD (0, 0)).2) 0x22 := by
  unfold onGen; dsimp only
  rw [h]; dsimp only
  rw [if_neg (Nat.lt_asymm hg), if_pos hg, if_pos (by simpa [IsP2pPkt, or_assoc] using ht)]

end
end

/-! ### What acknowledging changes -/

/-- An acknowledgement due again changes nothing of what counts as applied (R350). -/
theorem getSrc_ackDue_seen (b : Blk) (k : Bool × Nat) (seq : Nat) : (getSrc (ackDue b k seq) k).seen = (getSrc b k).seen := by
  unfold ackDue
  rw [getSrc_modSrc]
  intro h
  have hd : (if (getSrc b k).due.contains seq then (getSrc b k).due else (getSrc b k).due ++ [seq]) = [] := congrArg SrcSt.due h
  split at hd
  next hc => rw [hd] at hc; cases hc
  next => exact List.append_ne_nil_of_right_ne_nil _ (List.cons_ne_nil _ _) hd

theorem acknowledged_ackDue {b : Blk} {p : Pkt} (h : applied (getSrc b (srcKey b p)) (preOfPkt p).e2e = true) :
    Acknowledged (ackDue b (srcKey b p) (preOfPkt p).e2e) p := by
  obtain ⟨_, _, e⟩ := ackDue_only b (srcKey b p) (preOfPkt p).e2e
  have hk : srcKey (ackDue b (srcKey b p) (preOfPkt p).e2e) p = srcKey b p := srcKey_congr p (by rw [e])
  obtain ⟨hd, ha⟩ := getSrc_ackDue b (srcKey b p) (preOfPkt p).e2e
  unfold Acknowledged
  rw [hk]
  exact ⟨(ha _).trans h, hd⟩

theorem ackDue_eq (b : Blk) (k : Bool × Nat) (seq : Nat) : ackDue b k seq = { b with fab := (ackDue b k seq).fab } := by
  obtain ⟨_, _, e⟩ := ackDue_only b k seq; rw [e]

theorem takeSeq_eq (b : Blk) (p : Pkt) : takeSeq b p = { b with fab := (takeSeq b p).fab } := by
  obtain ⟨_, _, e⟩ := takeSeq_only b p; rw [e]

theorem holdReply_stores (b : Blk) (p : Pkt) : (holdReply b p).stores = b.stores := by unfold holdReply; rw [sendBare_eq]

theorem p2pRefuse_stores (b : Blk) (p : Pkt) (rank st : Nat) : (p2pRefuse b p rank st).stores = b.stores := by
  unfold p2pRefuse abortTo; rw [sendBare_eq, takeSeq_eq]

/-! ### The rows -/

/-- Each row of a sequenced packet checks it before its effect. -/
def ChecksFirst (s : State) (port : Nat) (p : Pkt) (row : Instr × Nat) : Prop :=
  isSeqType row.2 = true ∧ ∃ k : Blk → Nat → Group → Blk, exec row.1 s = .next (commit s (onPkt s.b port p row.2 fun b => onGen b p (k b)))

theorem packetRows_checkFirst {s : State} (ha : awake s.b = true) (port : Nat) (p : Pkt) (tail : TailVerdict) (fault : Option AccFault) :
    ∀ row ∈ ([(.data port p tail, 1), (.signal port p, 2), (.getReq port p fault, 3), (.atomic port p fault tail, 5), (.abortNotice port p, 8),
      (.breakNotice port p, 9)] : List (Instr × Nat)), ChecksFirst s port p row := by
  have check : ∀ {i : Instr} {type : Nat} (k : Tab Byte → Blk → Nat → Group → Blk), isSeqType type = true →
      exec i s = act s (fun b m => onPkt b port p type fun b => onGen b p (k m b)) → ChecksFirst s port p (i, type) :=
    fun k hq hx => ⟨hq, k s.mem, hx.trans (act_awake ha _)⟩
  simp only [List.forall_mem_cons, List.not_mem_nil, false_implies, implies_true, and_true]
  exact ⟨check _ rfl (row_data ..), check _ rfl (row_signal ..), check _ rfl (row_getReq ..), check _ rfl (row_atomic ..),
    check _ rfl (row_abortNotice ..), check _ rfl (row_breakNotice ..)⟩

section
variable {s : State} {port : Nat} {p : Pkt} {row : Instr × Nat} (hrow : ChecksFirst s port p row) (hc : isCollPkt p = true)
  (ht : (preOfPkt p).type = row.2) (hh : p.hdr.hop ≠ 0)
include hrow hc ht hh

theorem checked_misrouted (hd : p.hdr.dst ≠ selfEp s.b) : exec row.1 s = .next (commit s (misroute (taken s.b port p) port p)) := by
  obtain ⟨-, k, hx⟩ := hrow
  rw [hx, onPkt_misrouted port _ hc ht hh hd]

variable (hs : s.b.stores = []) (hd : p.hdr.dst = selfEp s.b)
include hs hd

theorem checked_again (h3 : row.2 ≠ 3) (hp : port ≠ 64) (ha : applied (getSrc s.b (srcKey s.b p)) (preOfPkt p).e2e = true)
    (hu : unsettled (taken s.b port p) p = false) :
    exec row.1 s = .next { s with b := ackDue (taken s.b port p) (srcKey s.b p) (preOfPkt p).e2e } := by
  obtain ⟨hq, k, hx⟩ := hrow
  rw [hx, onPkt_again port _ hc ht hh hd hq h3 hp ha hu]
  exact congrArg _ (commit_of_no_stores s _ (by rw [ackDue_eq]; exact hs))

variable (hn : applied (getSrc s.b (srcKey s.b p)) (preOfPkt p).e2e = false)
include hn

theorem checked_unknown (h : findGroup s.b (preOfPkt p).gid = none ∨
    ∃ i g, findGroup s.b (preOfPkt p).gid = some (i, g) ∧ g.gen < (preOfPkt p).gen) :
    exec row.1 s = .next { s with b := holdReply (taken s.b port p) p } := by
  obtain ⟨-, k, hx⟩ := hrow
  rw [hx, onPkt_here port _ hc ht hh hd (.inr (.inr hn)), onGen_unknown (b := taken s.b port p) _ h]
  exact congrArg _ (commit_of_no_stores s _ ((holdReply_stores ..).trans hs))

variable {i : Nat} {g : Group} (hf : findGroup s.b (preOfPkt p).gid = some (i, g)) (hg : (preOfPkt p).gen < g.gen)
include hf hg

theorem checked_older (h2 : ¬ IsP2pPkt p) : exec row.1 s = .next { s with b := takeSeq (taken s.b port p) p } := by
  obtain ⟨-, k, hx⟩ := hrow
  rw [hx, onPkt_here port _ hc ht hh hd (.inr (.inr hn)), onGen_older (b := taken s.b port p) _ hf hg h2]
  exact congrArg _ (commit_of_no_stores s _ (by rw [takeSeq_eq]; exact hs))

theorem checked_older_p2p (h2 : IsP2pPkt p) :
    exec row.1 s = .next { s with b := p2pRefuse (taken s.b port p) p ((g.locs.headD (0, 0)).2) 0x22 } := by
  obtain ⟨-, k, hx⟩ := hrow
  rw [hx, onPkt_here port _ hc ht hh hd (.inr (.inr hn)), onGen_older_p2p (b := taken s.b port p) _ hf hg h2]
  exact congrArg _ (commit_of_no_stores s _ ((p2pRefuse_stores ..).trans hs))

end

/-- A packet of these rows is of a point-to-point command by bit 47 of CSEQ, its type below that of the notices (R56, R318). -/
theorem isP2pPkt_iff {p : Pkt} (h : (preOfPkt p).type ∈ [1, 2, 3, 5, 8, 9]) :
    IsP2pPkt p ↔ tb (preOfPkt p).cseq 47 = true ∧ (preOfPkt p).type < 8 := by
  refine and_congr_right fun _ => ?_
  simp only [List.mem_cons, List.not_mem_nil, or_false] at h ⊢
  omega

/-- Settles O49: what a packet meets first, check by check (`onPkt`, `onGen`). -/
theorem packetsAreChecked : Obligations.PacketsAreChecked := by
  unfold Obligations.PacketsAreChecked
  intro s port p tail fault ha hs row hrow hc ht hh q key off fabOnly
  have hk := packetRows_checkFirst ha port p tail fault row hrow
  have hq : isSeqType q.type = true := ht ▸ hk.1
  have htype : q.type ∈ [1, 2, 3, 5, 8, 9] := ht ▸ List.mem_map_of_mem (f := Prod.snd) hrow
  refine ⟨checked_misrouted hk hc ht hh, fun hd h3 hp happ hu => ?again, fun hd hn => ⟨checked_unknown hk hc ht hh hs hd hn,
    fun i g hf hg => ⟨fun h2 => ?older, fun h2 h8 => ?refused⟩⟩⟩
  case again =>
    exact ⟨_, checked_again hk hc ht hh hs hd h3 hp happ hu, acknowledged_ackDue (b := off) happ, getSrc_ackDue_seen off key q.e2e,
      congrArg (fun b => { s with b := b }) (ackDue_eq off key q.e2e)⟩
  case older =>
    have hp : ¬ IsP2pPkt p := by
      rw [isP2pPkt_iff htype, ht]
      rintro ⟨hb, h8⟩
      rcases h2 with h2 | h2
      · rw [h2] at hb; cases hb
      · exact Nat.not_lt.mpr h2 h8
    exact ⟨_, checked_older hk hc ht hh hs hd hn hf hg hp, acknowledged_takeSeq off hq,
      congrArg (fun b => { s with b := b }) (takeSeq_eq off p)⟩
  case refused => exact checked_older_p2p hk hc ht hh hs hd hn hf hg ((isP2pPkt_iff htype).mpr ⟨h2, ht ▸ h8⟩)

end Sys2Proof.Machine
end

section
/-!
O42: SCORE, DISPATCH and COMBINE at one member: what each writes and sends, and the command that stands ready for its flies (R283, R288, R296 to R300).
-/
namespace Sys2Proof.Machine

/-! ### Writing and sending -/

/-- What a function's command has done to the block while it writes and sends: its stores are `st`, and beside them marks of progress, packets, messages to
dies, tiles and the counter of free values have changed. The function's addresses go where they went. -/
structure Wrote (f : Nat) (b b' : Blk) (st : List (Nat × List Byte)) : Prop where
  frame : ∃ fns ports fab d2d tiles fresh, b' =
    { b with fns := fns, ports := ports, fab := fab, d2d := d2d, tiles := tiles, fresh := fresh, stores := b.stores ++ st }
  page : (getFn b' f).enabled = true ∧ (getFn b' f).context = (getFn b f).context

namespace Wrote
variable {f : Nat} {b x : Blk} {st : List (Nat × List Byte)}

theorem start (h : fnLive b f = true) : Wrote f b b [] := ⟨⟨_, _, _, _, _, _, by rw [List.append_nil]⟩, live_enabled h, rfl⟩

theorem sent (h : Wrote f b x st) {y : Blk} (hy : Sends x y) : Wrote f b y st := by
  obtain ⟨⟨_, _, _, _, _, _, rfl⟩, he, hc⟩ := h
  obtain ⟨⟨_, _, _, rfl⟩, hf⟩ := hy
  obtain ⟨m, hm⟩ := hf f he
  exact ⟨⟨_, _, _, _, _, _, rfl⟩, by rw [hm]; exact he, by rw [hm]; exact hc⟩

theorem marked (h : Wrote f b x st) (k : Hoist) (own : Bool) : Wrote f b (satMask x k own).2 st := by
  obtain ⟨tiles, fresh, e, -⟩ := satMask_only x k own
  obtain ⟨fns, ports, fab, d2d, _, _, hx⟩ := h.frame
  rw [e]
  exact ⟨⟨fns, ports, fab, d2d, tiles, fresh, by rw [hx]⟩, h.page⟩

theorem tables (h : Wrote f b x st) : x.t = b.t := by obtain ⟨_, _, _, _, _, _, hx⟩ := h.frame; rw [hx]

theorem cmds (h : Wrote f b x st) : x.cmds = b.cmds := by obtain ⟨_, _, _, _, _, _, hx⟩ := h.frame; rw [hx]

theorem xlats (h : Wrote f b x st) : x.xlats = b.xlats := by obtain ⟨_, _, _, _, _, _, hx⟩ := h.frame; rw [hx]

/-- A function's write stores what the same write stores in the block as it was. -/
theorem stored (h : Wrote f b x st) (hs : b.stores = []) (sp va : Nat) (bs : List Byte) (d2d : List D2d) :
    Wrote f b { x with d2d := d2d, stores := x.stores ++ fnStores x f sp va bs } (st ++ (fnStore b f sp va bs).stores) := by
  obtain ⟨fns, ports, fab, _, tiles, fresh, hx⟩ := h.frame
  rw [fnStore_stores _ _ _ _ hs, fnStores_context f sp va bs h.page.2 h.xlats]
  exact ⟨⟨fns, ports, fab, d2d, tiles, fresh, by rw [hx, ← List.append_assoc]⟩, h.page⟩

theorem mem (h : Wrote f b x st) (hs : b.stores = []) (va : Nat) (bs : List Byte) :
    Wrote f b (fnStore x f 0 va bs) (st ++ (fnStore b f 0 va bs).stores) := by
  rw [fnStore_adds x]; exact h.stored hs 0 va bs x.d2d

theorem space (h : Wrote f b x st) (hs : b.stores = []) (who : FlyRef) (sp va : Nat) (bs : List Byte) :
    Wrote f b (spaceStore x f who sp va bs) (st ++ (fnStore b f sp va bs).stores) := by
  obtain ⟨d2d, e⟩ := spaceStore_only x f who sp va bs
  rw [e]; exact h.stored hs sp va bs d2d

/-- Writes along a list store what each of them stores. -/
theorem foldl {α : Type} (h : Wrote f b x st) (l : List α) (g : Blk → α → Blk) (w : α → List (Nat × List Byte))
    (hg : ∀ y st a, Wrote f b y st → Wrote f b (g y a) (st ++ w a)) : Wrote f b (l.foldl g x) (st ++ l.flatMap w) := by
  induction l generalizing x st with
  | nil => simpa using h
  | cons a l ih => simpa only [List.foldl_cons, List.flatMap_cons, List.append_assoc] using ih (hg x st a h)

/-- A write to MEM that is left out under a condition. -/
theorem memUnless {p : Prop} [Decidable p] (h : Wrote f b x st) (hs : b.stores = []) (va : Nat) (bs : List Byte) :
    Wrote f b (if p then x else fnStore x f 0 va bs) (st ++ if p then [] else (fnStore b f 0 va bs).stores) := by
  split
  · rwa [List.append_nil]
  · exact h.mem hs va bs

end Wrote

/-- The stores of LOGITS, where it is named and scores are formed here (R285, R288). -/
def logitStores (b : Blk) (c : Cmd) (rows : List (List Nat)) : List (Nat × List Byte) :=
  if fLogits c = 0 ∨ fW c = 0 then [] else (fnStore b c.id.f 0 (fLogits c) (logitBytes rows)).stores

theorem Wrote.logits {b x : Blk} {c : Cmd} (h : Wrote c.id.f b x []) (hs : b.stores = []) (rows : List (List Nat)) :
    Wrote c.id.f b (storeLogits x c rows) (logitStores b c rows) := by
  unfold storeLogits logitStores
  simp only [Bool.or_eq_true, decide_eq_true_eq]
  exact h.memUnless hs _ _

/-! ### Messages -/

theorem exchange_sends (b : Blk) (c : Cmd) (k : Coll) (base : Nat) (unit : Nat → Nat → List Byte) : Sends b (exchange b c k base unit) :=
  Sends.foldl _ _ _ fun b _ => sendMsg_sends b c k _

theorem dispatchSends_sends (b : Blk) (c : Cmd) (k : Coll) (p : MoeP) (rounds : List (Adm × Adm)) (rows : Nat → Nat → List Byte) :
    Sends b (dispatchSends b c k p rounds rows) := by
  unfold dispatchSends
  refine Sends.trans (Sends.foldl _ _ _ fun b r => ?_) (exchange_sends ..)
  exact ((exchange_sends ..).trans (exchange_sends ..)).trans (exchange_sends ..)

/-! ### The effect carried out -/

theorem dstBytes_congr {b b' : Blk} (c : Cmd) (h : b'.t = b.t) : dstBytes b' c = dstBytes b c := by
  unfold dstBytes cmdN findGroup
  rw [h]

/-- A DISPATCH that ends keeps the result that it has formed (R296). -/
theorem finishCmd_dispatch {b : Blk} {id : CmdId} {c d : Cmd} (hc : findCmd b id = some c) (ho : opOf c = 0x20)
    (hd : findCmd (finishCmd b id) id = some d) : d.result = c.result := by
  unfold finishCmd at hd
  rw [withCmd_found hc] at hd
  split at hd
  next hr =>
    simp only [Bool.and_eq_true, decide_eq_true_eq] at hr
    obtain ⟨⟨⟨hp, -⟩, -⟩, -⟩ := hr
    obtain ⟨e, he, -, -, hr⟩ := endCmd_endedWith c.status _ hc (by simp [hp])
    obtain rfl := Option.some.inj (he.symm.trans hd)
    exact hr.trans (by simp [ho, isColl, isP2p])
  next => rw [Option.some.inj (hc.symm.trans hd)]

/-- A row leaves its command with its effect carried out and every chunk ready, memory with the stores, and the rest of the block as it was. -/
def StandsReady (s : State) (i : Instr) (c : Cmd) (n : Nat) (sat : Bool) (w : List (Nat × List Byte)) (P : Cmd → Prop) : Prop :=
  ∃ t c', exec i s = .next t ∧ findCmd t.b c.id = some c' ∧ P c' ∧
  c'.effectDone = true ∧ c'.chunks = n ∧ c'.ready = n ∧ c'.status = (if sat = true then 2 else if c.split = true then 1 else 0) ∧ t.mem = applyStores s.mem w ∧
  t.b = { s.b with fns := t.b.fns, cmds := t.b.cmds, tiles := t.b.tiles, fresh := t.b.fresh, ports := t.b.ports, fab := t.b.fab, d2d := t.b.d2d }

/-- The block once a command's effect is carried out: the command as `g` leaves it, finished where nothing is left to do. -/
def effected (b : Blk) (c : Cmd) (g : Cmd → Cmd) : Blk := finishCmd (modFn (modCmd b c.id g) c.id.f fun x => { x with moved := true }) c.id

/-- What a running command's change of its own entry must keep and set. -/
structure Readies (c : Cmd) (n : Nat) (sat : Bool) (g : Cmd → Cmd) : Prop where
  id : ∀ d, (g d).id = d.id
  kept : (g c).raw = c.raw ∧ (g c).phase = c.phase ∧ (g c).waitOn = c.waitOn
  set : (g c).effectDone = true ∧ (g c).chunks = n ∧ (g c).ready = (g c).chunks ∧ (g c).status = doneStatus c sat

/-- A running command whose stores are written and whose entry is made ready stands ready; a DISPATCH has its result as well, whether it ends now or later. -/
theorem Wrote.ready {s : State} {b : Blk} {i : Instr} {c : Cmd} {g : Cmd → Cmd} {n : Nat} {sat : Bool} {w : List (Nat × List Byte)} {P : Cmd → Prop}
    (h : Wrote c.id.f s.b b w) (hg : Readies c n sat g) (hs : s.b.stores = []) (hf : findCmd s.b c.id = some c) (hp : c.phase = .running)
    (hw : c.waitOn = none) (hx : exec i s = .next (commit s (effected b c g)))
    (hP : ∀ ph r, (opOf c = 0x20 → r = (g c).result) → P { g c with phase := ph, result := r }) : StandsReady s i c n sat w P := by
  obtain ⟨hid, ⟨hraw, hphase, hwait⟩, hdone, hn, hr, hst⟩ := hg
  have hc : findCmd (modFn (modCmd b c.id g) c.id.f fun x => { x with moved := true }) c.id = some (g c) :=
    findCmd_modCmd_same g hid ((findCmd_congr _ h.cmds).trans hf)
  obtain ⟨ph, r, cmds, hc', -, e⟩ := finishCmd_running hc (hphase.trans hp) hdone (hwait.trans hw)
  have hres : opOf c = 0x20 → r = (g c).result := fun ho => finishCmd_dispatch hc (by unfold opOf; rw [hraw]; exact ho) hc'
  obtain ⟨fns, ports, fab, d2d, tiles, fresh, hb⟩ := h.frame
  refine ⟨_, _, hx, hc', hP ph r hres, hdone, hn, hr.trans hn, hst.trans ?_, ?_, ?_⟩
  · unfold doneStatus; cases c.split <;> rfl
  · unfold effected; rw [e, hb, commit_mem, hs]; rfl
  · unfold effected; rw [e, hb]; unfold commit; dsimp only; rw [hs]; rfl

/-! ### What each command writes -/

/-- SCORE's stores: LOGITS, then its ASSIGN table (R288). -/
def scoreStores (b : Blk) (m : Tab Byte) (c : Cmd) : List (Nat × List Byte) :=
  let p := moeOf b c
  let own := ownScores b m c p
  logitStores b c own.1 ++
    if p.k = 0 then [] else (fnStore b c.id.f 0 (fAssign c) (tableHeader p true 3 0 0 ++ (selectBytes p.k own.1).1)).stores

/-- The admission that DISPATCH computes from its own scores and the other members' (R290 to R292). -/
def dispatchAdm (b : Blk) (m : Tab Byte) (c : Cmd) (env : DispEnv) : Adm :=
  let p := moeOf b c
  admission p ((List.range p.N).map fun r => if r = p.rank then (ownScores b m c p).1 else (env.members.getD r ⟨[], []⟩).scores)

/-- The model tests a member's own rank as a Bool. -/
theorem dispatchAdm_eq (b : Blk) (m : Tab Byte) (c : Cmd) (env : DispEnv) : dispatchAdm b m c env = admission (moeOf b c)
    ((List.range (moeOf b c).N).map fun r => if r == (moeOf b c).rank then (ownScores b m c (moeOf b c)).1 else (env.members.getD r ⟨[], []⟩).scores) := by
  simp only [dispatchAdm, beq_iff_eq]

/-- This member's tokens after admission. -/
def dispatchMine (b : Blk) (m : Tab Byte) (c : Cmd) (env : DispEnv) : List (List (Nat × Nat) × List Slot) :=
  (dispatchAdm b m c env).toks.getD (moeOf b c).rank []

/-- The entries that DISPATCH's drop list holds. -/
def dropRoom (c : Cmd) : Nat := if fDrops c = 0 then 0 else fDropCap c

/-- The stores of the rows admitted here (R293). -/
def rowStores (b : Blk) (m : Tab Byte) (c : Cmd) (env : DispEnv) : List (Nat × List Byte) :=
  let p := moeOf b c
  let rs := bytesOf p.f p.d
  (recvRows p (dispatchAdm b m c env)).flatMap fun (i, r, t) => (fnStore b c.id.f (fSpaceB c) (fRecv c + i * rs)
    (if r = p.rank then slice (fnRead b m c.id.f (fSpaceA c) (fX c) (p.T * rs)) (t * rs) rs
      else slice ((env.members.getD r ⟨[], []⟩).rows.getD t []) 0 rs)).stores

/-- DISPATCH's stores: LOGITS, ORIGIN's records, the rows, ASSIGN's records, the drop list, then the headers (R293, R295). -/
def dispatchStores (b : Blk) (m : Tab Byte) (c : Cmd) (env : DispEnv) : List (Nat × List Byte) :=
  let p := moeOf b c
  let a := dispatchAdm b m c env
  let mine := dispatchMine b m c env
  let write := fun (va : Nat) (bs : List Byte) => (fnStore b c.id.f 0 va bs).stores
  logitStores b c (ownScores b m c p).1 ++ write (fOrigin c + 64) (originBytes p a) ++ rowStores b m c env ++ write (fAssign c + 64) (assignBytes mine).1 ++
    (if fDrops c = 0 then [] else write (fDrops c) (((dropList mine).take (dropRoom c)).flatten)) ++
    write (fAssign c) (tableHeader p true 1 ((mine.map fun t => (t.2.filter fun s => s.row.isSome).length).foldl (· + ·) 0) (dropList mine).length) ++
    write (fOrigin c) (tableHeader p true 2 (recvRows p a).length 0)

/-- COMBINE's stores: one row of CDST for each token (R299, R300). -/
def combineStores (b : Blk) (c : Cmd) (rs : Nat) (outs : List (List Byte × Bool)) : List (Nat × List Byte) :=
  outs.zipIdx.flatMap fun (o, t) => (fnStore b c.id.f (fSpaceB c) (fCdst c + t * rs) o.1).stores

section
variable {b : Blk} {c : Cmd} (m : Tab Byte) (hl : fnLive b c.id.f = true) (hs : b.stores = [])
include hl hs

/-- SCORE writes what `scoreStores` lists, and is ready with the chunks of LOGITS (R288). -/
theorem scoreFx_writes :
    let p := moeOf b c
    let own := ownScores b m c p
    ∃ y g, scoreFx b m c none = effected y c g ∧ Wrote c.id.f b y (scoreStores b m c) ∧
      Readies c (if fLogits c = 0 then 0 else cdiv (dstBytes b c) 65536) (own.2 || (selectBytes p.k own.1).2) g := by
  intro p own
  have w : Wrote c.id.f b _ (scoreStores b m c) := ((Wrote.start hl).logits hs _).memUnless hs _ _
  exact ⟨_, _, rfl, w.marked _ _, fun _ => rfl, ⟨rfl, rfl, rfl⟩, rfl, by rw [← dstBytes_congr c w.tables]; rfl, rfl, rfl⟩

/-- DISPATCH writes what `dispatchStores` lists, and is ready with the chunks of RECV, its truncation flag and its two counts (R294, R296). -/
theorem dispatchDone_writes (k : Coll) (h : Hoist) (env : DispEnv) :
    ∃ y g, dispatchDone b m c k h env = effected y c g ∧ Wrote c.id.f b y (dispatchStores b m c env) ∧
      Readies c (cdiv (dstBytes y c) k.c) ((ownScores b m c (moeOf b c)).2 || (assignBytes (dispatchMine b m c env)).2) g ∧
      (g c).flags = c.flags &&& 2 ||| 8 * b2n (decide (dropRoom c < (dropList (dispatchMine b m c env)).length)) ∧
      (g c).result = mk [(63, 32, (recvRows (moeOf b c) (dispatchAdm b m c env)).length), (31, 0, (dropList (dispatchMine b m c env)).length)] := by
  unfold dispatchStores dispatchMine rowStores
  rw [dispatchAdm_eq]
  refine ⟨_, _, rfl, ?wrote, ⟨fun _ => rfl, ⟨rfl, rfl, rfl⟩, rfl, rfl, rfl, rfl⟩, rfl, rfl⟩
  case wrote =>
    -- the exchanges, LOGITS, ORIGIN's records, the rows, ASSIGN's records, the drop list, the two headers
    refine (((((((((Wrote.start hl).sent (dispatchSends_sends ..)).logits hs _).mem hs _ _).foldl _ _ _ ?row).mem hs _ _).memUnless hs _ _
      ).mem hs _ _).mem hs _ _).marked h _
    rintro x st ⟨i, r, t⟩ w
    simp only [beq_iff_eq]
    exact w.space hs _ _ _ _

/-- COMBINE of its own tables writes what `combineStores` lists, and is ready with the chunks of CDST (R300). -/
theorem combineDone_writes (k : Coll) (h : Hoist) (env : CombEnv) (h1 : headerOk c 1 (fnRead b m c.id.f 0 (fAssign c) 64) = true)
    (h2 : headerOk c 2 (fnRead b m c.id.f 0 (fOrigin c) 64) = true) :
    let p := combineP b c (fnRead b m c.id.f 0 (fAssign c) 64)
    let outs := combineOut b m c p env
    ∃ y g, combineDone b m c k h env = effected y c g ∧ Wrote c.id.f b y (combineStores b c (bytesOf p.f p.d) outs) ∧
      Readies c (cdiv (p.T * bytesOf p.f p.d) k.c) (outs.any (·.2)) g ∧ (g c).extent = p.T * bytesOf p.f p.d := by
  intro p outs
  unfold combineDone
  simp only [h1, h2, Bool.not_true, Bool.or_self, Bool.false_eq_true, if_false]
  refine ⟨_, _, rfl, ?wrote, ⟨fun _ => rfl, ⟨rfl, rfl, rfl⟩, rfl, rfl, rfl, rfl⟩, rfl⟩
  case wrote =>
    show Wrote c.id.f b _ ([] ++ combineStores b c (bytesOf p.f p.d) outs)
    refine (((Wrote.start hl).foldl outs.zipIdx _ _ ?row).sent (Sends.foldl _ _ _ ?request)).marked h _
    case row =>
      rintro x st ⟨o, t⟩ w
      exact w.space hs _ _ _ _
    case request =>
      rintro x ⟨_, o, row⟩
      dsimp only; split
      · exact .refl x
      · exact sendTo_sends ..

end

/-- COMBINE of two tables that are not its own is turned away (R297). -/
theorem combineDone_rejects {b : Blk} {c : Cmd} (m : Tab Byte) (k : Coll) (h : Hoist) (env : CombEnv) (hf : findCmd b c.id = some c)
    (hp : c.phase = .running) (hh : headerOk c 1 (fnRead b m c.id.f 0 (fAssign c) 64) = false ∨ headerOk c 2 (fnRead b m c.id.f 0 (fOrigin c) 64) = false) :
    ∃ r, EndedWith (combineDone b m c k h env) c.id 0x61 r := by
  unfold combineDone; dsimp only
  rw [if_pos (by simpa using hh)]
  exact endEarly_endedWith _ _ (findCmd_modCmd_same (fun d => { d with extent := 0 }) (fun _ => rfl) hf) (by simp [hp])

/-! ### The rows -/

section
variable {s : State} {id : CmdId} {c : Cmd} (ha : awake s.b = true)
include ha

theorem score_exec (hr : RunsNow s.b id 0x22 c) : exec (.score id none) s = .next (commit s (scoreFx s.b s.mem c none)) := by
  rw [row_score, act_awake ha, onRun_runs hr (awake_run ha)]

variable {gh hn : Nat} {g : Group} (hg : findGroup s.b (fGid c) = some (gh, g)) (hh : c.handle = some hn)
include hg hh

theorem dispatch_exec {env : DispEnv} (hr : RunsNow s.b id 0x20 c) (he : env.fault = none) :
    exec (.dispatch id env) s = .next (commit s (dispatchDone s.b s.mem c (collOf s.b c g (getHoist s.b hn)) (getHoist s.b hn) env)) := by
  rw [row_dispatch, act_awake ha, onRun_runs hr (awake_run ha)]
  unfold dispatchRowFx; rw [hg, hh]; dsimp only; rw [he]

theorem combine_exec {env : CombEnv} (hr : RunsNow s.b id 0x21 c) (he : env.fault = none) :
    exec (.combine id env) s = .next (commit s (combineDone s.b s.mem c (collOf s.b c g (getHoist s.b hn)) (getHoist s.b hn) env)) := by
  rw [row_combine, act_awake ha, onRun_runs hr (awake_run ha)]
  unfold combineRowFx; rw [hg, hh]; dsimp only; rw [he]

end

/-- Settles O42: `Wrote.ready` for what each of the three writes, and `combineDone_rejects`. -/
theorem expertCommandsComplete : Obligations.ExpertCommandsComplete := by
  unfold Obligations.ExpertCommandsComplete
  intro id c s ha hs hw write logits ready
  refine ⟨fun hr => ?score, fun gh g hn hg hh => ⟨fun env hr he => ?dispatch, fun env hr he => ⟨fun hbad => ?rejected, fun h1 h2 => ?combine⟩⟩⟩
  case score =>
    have hx := score_exec ha hr
    obtain rfl := findCmd_id hr.1
    obtain ⟨hf, hp, -, hl, -⟩ := hr
    obtain ⟨y, g, e, w, hready⟩ := scoreFx_writes s.mem hl hs
    exact w.ready hready hs hf hp hw (e ▸ hx) fun _ _ _ => trivial
  case dispatch =>
    have hx := dispatch_exec ha hg hh hr he
    obtain rfl := findCmd_id hr.1
    obtain ⟨hf, hp, ho, hl, -⟩ := hr
    obtain ⟨y, f, e, w, hready, hflags, hres⟩ := dispatchDone_writes s.mem hl hs (collOf s.b c g (getHoist s.b hn)) (getHoist s.b hn) env
    rw [dstBytes_congr c w.tables] at hready
    exact w.ready hready hs hf hp hw (e ▸ hx) fun _ _ hkept => ⟨hflags, (hkept ho).trans hres⟩
  case rejected =>
    have hx := combine_exec ha hg hh hr he
    obtain rfl := findCmd_id hr.1
    obtain ⟨r, h⟩ := combineDone_rejects s.mem (collOf s.b c g (getHoist s.b hn)) (getHoist s.b hn) env hr.1 hr.2.1 hbad
    exact ⟨_, r, hx, h⟩
  case combine =>
    have hx := combine_exec ha hg hh hr he
    obtain rfl := findCmd_id hr.1
    obtain ⟨hf, hp, -, hl, -⟩ := hr
    obtain ⟨y, f, e, w, hready, hext⟩ := combineDone_writes s.mem hl hs (collOf s.b c g (getHoist s.b hn)) (getHoist s.b hn) env h1 h2
    exact w.ready hready hs hf hp hw (e ▸ hx) fun _ _ _ => hext

end Sys2Proof.Machine
end

section
/-!
O19, O20: the endpoint register, the fabric secret, and LNK_CFG (R305, R307, R639).
-/
namespace Sys2Proof.Machine

/-! ### FAB_SELF and SEC_FABRIC -/

theorem ctlWrite_fabSelf (b : Blk) (w : Word) : ctlWrite b 0x1F0008 w = writeSelf b w.toNat := rfl

theorem ctlWrite_secFabric (b : Blk) (w : Word) : ctlWrite b 0x240008 w = writeSecFabric b w.toNat := rfl

/-- Deriving the key of a generation adds to the keys alone, none of which is the fabric secret (R642). -/
theorem deriveGk_only (b : Blk) (gid gen digest : Nat) : ∃ gks, deriveGk b gid gen digest = { b with sec := { b.sec with gks := gks } } := by
  unfold deriveGk
  split
  · split <;> exact ⟨_, rfl⟩
  · exact ⟨_, rfl⟩

/-- Holding a fabric secret changes the secret and the keys derived from it (R639, R642). -/
theorem holdFs_only (b : Blk) (fs : Nat) : ∃ gks, holdFs b fs = { b with sec := { b.sec with fs := some fs, gks := gks } } := by
  unfold holdFs
  refine foldl_keeps (fun x : Blk => ∃ gks, x = { b with sec := { b.sec with fs := some fs, gks := gks } }) _ _ _ ⟨_, rfl⟩ ?_
  rintro x e ⟨gks, rfl⟩
  obtain ⟨gks', h⟩ := deriveGk_only { b with sec := { b.sec with fs := some fs, gks := gks } } e.2.gid e.2.gen e.2.digest
  exact ⟨gks', h⟩

/-- GEN with no secret held and the endpoint locked: the secret drawn is held, with the keys that follow from it. -/
theorem writeSecFabric_draws {b : Blk} {v : Nat} (hv : tb v 63 = true) (hf : b.sec.fs = none) (hl : tb b.ctl.fabSelf.toNat 32 = true) :
    ∃ gks, writeSecFabric b v = { b with sec := { b.sec with fs := some (Config.drawFs b.fresh), gks := gks }, fresh := b.fresh + 1 } := by
  obtain ⟨gks, h⟩ := holdFs_only { b with fresh := b.fresh + 1 } (Config.drawFs b.fresh)
  unfold writeSecFabric
  rw [if_pos (by simp [hv, hf, hl]), h]
  exact ⟨gks, rfl⟩

theorem writeSecFabric_ignored {b : Blk} {v : Nat} (h : tb v 63 = false ∨ b.sec.fs ≠ none ∨ tb b.ctl.fabSelf.toNat 32 = false) :
    writeSecFabric b v = b := by
  unfold writeSecFabric
  rw [if_neg]
  intro hc
  simp only [Bool.and_eq_true, Option.isNone_iff_eq_none] at hc
  obtain ⟨⟨hv, hf⟩, hl⟩ := hc
  rcases h with h | h | h
  · simp [h] at hv
  · exact h hf
  · simp [h] at hl

/-- Settles O19: FAB_SELF by its one branch on LOCK; a secret drawn by `holdFs_only`, an ignored GEN by `writeSecFabric_ignored`. -/
theorem identityIsLocked : Obligations.IdentityIsLocked := by
  unfold Obligations.IdentityIsLocked
  intro v s ho hs
  refine ⟨?self, fun hv hf hl => ?draws, fun h => ?ignored⟩
  case self =>
    rw [row_fabSelf]
    simp only [ctlWrite_fabSelf, writeSelf]
    split
    next hl => exact actCtl_nop _ hs (if_pos hl)
    next hl => exact (actCtl_quiet ho _ (by rw [if_neg hl]; exact hs)).trans (by rw [if_neg hl])
  case draws =>
    obtain ⟨gks, h⟩ := writeSecFabric_draws hv hf hl
    rw [row_secFabricGen, actCtl_quiet ho _ (by rw [ctlWrite_secFabric, h]; exact hs), ctlWrite_secFabric, h]
    exact ⟨_, rfl, rfl, rfl, rfl, rfl, rfl, rfl⟩
  case ignored =>
    rw [row_secFabricGen]
    exact actCtl_nop _ hs (writeSecFabric_ignored h)

/-! ### LNK_CFG -/

/-- The fields of LNK_CFG as a write leaves them (R307). -/
def cfgFields (v : Nat) (p : Port) : Port :=
  { p with enable := tb v 63, ring := fld v 59 56, cable := if 160 < fld v 7 0 then 160 else fld v 7 0 }

/-- Every counter of LNK_ERR and LNK_FEC at 0 (R307). -/
def clearCounters (p : Port) : Port :=
  { p with crcErr := 0, retry := 0, retryRun := 0, authFail := 0, downDrop := 0, framing := 0, corrSym := 0, uncorr := 0 }

/-- A write that does not take a training or UP port out of service changes that port's fields and counters alone. -/
theorem writeLnkCfg_stays {b : Blk} {n v : Nat}
    (h : (getP b n).enable = false ∨ tb v 63 = true ∨ (getP b n).state = 0 ∨ (getP b n).state = 3) :
    writeLnkCfg b n v = modP b n (if tb v 62 then fun p => clearCounters (cfgFields v p) else cfgFields v) := by
  have hs : ¬ ((getP b n).enable && !tb v 63 && ((getP b n).state == 1 || (getP b n).state == 2)) = true := by
    rcases h with h | h | h | h <;> simp [h]
  have hf : (fun p : Port => { p with enable := tb v 63, ring := fld v 59 56, cable := min 160 (fld v 7 0) }) = cfgFields v := by
    funext p; rw [min_def_lt]; rfl
  unfold writeLnkCfg
  dsimp only
  rw [if_neg hs, hf]
  split
  · exact modP_modP b n _ _
  · rfl

/-- Settles O20: the link page's register by `ctlWrite_link`, its write by `writeLnkCfg_stays`. -/
theorem linkCountersClear : Obligations.LinkCountersClear := by
  unfold Obligations.LinkCountersClear
  intro n v s ho hs hn
  have hw : ctlWrite s.b (linkOff n 0) v = writeLink s.b n 0 v.toNat := ctlWrite_link s.b n 0 v hn (by omega) rfl
  refine ⟨fun he => ?absent, fun he hstay => ?stored⟩
  case absent =>
    rw [row_clrCnt]
    exact actCtl_nop _ hs (hw.trans (if_pos (by simp [he])))
  case stored =>
    have h : ctlWrite s.b (linkOff n 0) v = _ := hw.trans ((if_neg (by simp [he])).trans (writeLnkCfg_stays hstay))
    rw [row_clrCnt, actCtl_quiet ho _ (by rw [h]; exact hs), h]
    rfl

end Sys2Proof.Machine
end

section
/-!
SUPPORT for the rows of link ports: a command that changes one port, and what a port declared down or fenced leaves (R331, R332).
-/
namespace Sys2Proof.Machine

/-! ### A row that changes the block as computed -/

/-- A command whose effect is known and stores no byte. -/
theorem act_yields {s : State} {f : Blk → Tab Byte → Blk} {b : Blk} (ha : awake s.b = true) (h : f s.b s.mem = b) (hs : b.stores = []) :
    act s f = .next { s with b := b } := by
  subst h; exact act_quiet ha f hs

/-- A command that changes one port. -/
theorem exec_modP {s : State} {i : Instr} {f : Blk → Tab Byte → Blk} {n : Nat} {g : Port → Port} (ha : awake s.b = true) (hs : s.b.stores = [])
    (hrow : exec i s = act s f) (hfx : f s.b s.mem = modP s.b n g) : exec i s = .next { s with b := modP s.b n g } :=
  hrow.trans (act_yields ha hfx hs)

theorem actLive_yields {s : State} {f : Blk → Tab Byte → Blk} {b : Blk} (ha : alive s.b = true) (h : f s.b s.mem = b) (hs : b.stores = []) :
    actLive s f = .next { s with b := b } := by
  subst h; exact actLive_quiet ha f hs

theorem modP_length (b : Blk) (n : Nat) (g : Port → Port) : (modP b n g).ports.length = b.ports.length := List.length_modify ..

/-! ### What events and the ends of commands leave of the ports -/

/-- The ports alone decide what a port reads. -/
theorem getP_congr {b b' : Blk} (h : b'.ports = b.ports) (n : Nat) : getP b' n = getP b n := by unfold getP; rw [h]

theorem portExists_congr {b b' : Blk} (h : b'.part = b.part) (n : Nat) : portExists b' n = portExists b n := by unfold portExists; rw [h]

theorem adminEvent_ports (b : Blk) (code info a0 a1 : Nat) : (adminEvent b code info a0 a1).ports = b.ports := by
  unfold adminEvent; rw [event_eq]

theorem unitFenced_ports (b : Blk) (kind cause idx sub : Nat) : (unitFenced b kind cause idx sub).ports = b.ports := adminEvent_ports ..

theorem unitSpared_ports (b : Blk) (kind idx sub spare : Nat) : (unitSpared b kind idx sub spare).ports = b.ports := adminEvent_ports ..

theorem unitFenced_part (b : Blk) (kind cause idx sub : Nat) : (unitFenced b kind cause idx sub).part = b.part := by
  unfold unitFenced adminEvent; rw [event_eq]

/-- A handshake that is over changes its port's mark and commands (R638). -/
theorem endRekey_ports (b : Blk) (n : Nat) : (endRekey b n).ports = b.ports.modify n fun p => { p with rekey := 0 } := by
  unfold endRekey
  refine foldl_keeps (fun x : Blk => x.ports = b.ports.modify n fun p => { p with rekey := 0 }) _ _ _ rfl fun x c h => ?_
  rw [endCmd_eq]; exact h

theorem endRekey_part (b : Blk) (n : Nat) : (endRekey b n).part = b.part := by
  unfold endRekey
  refine foldl_keeps (fun x : Blk => x.part = b.part) _ _ _ rfl fun x c h => ?_
  rw [endCmd_eq]; exact h

/-! ### A port that leaves service -/

/-- A port without what it held (R332). -/
def dropHeld (p : Port) : Port :=
  { p with
    replay := [], nakRx := false, retried := none, rxPkt := [none, none, none], out := [], halyQ := [], linkQ := [], nakDue := false
    downDrop := satAdd p.downDrop p.out.length 255, trained := false, retraining := false }

theorem dropPort_ports (b : Blk) (n : Nat) : (dropPort b n).ports = b.ports.modify n dropHeld := rfl

/-- A port as its fence leaves it (R331, R332). -/
def fencedPort (n : Nat) (p : Port) : Port :=
  idleLanes { dropHeld p with rekey := 0, state := 3, phase := .reset, sleep := 0, woke := false, spareDue := decide (n < 40), retryRun := 0 }

theorem fenceLink_ports {b : Blk} {n : Nat} (cause : Nat) (he : portExists b n = true) (hs : (getP b n).state ≠ 3) :
    (fenceLink b n cause).ports = b.ports.modify n (fencedPort n) := by
  unfold fenceLink
  extract_lets p b1 b2 b3
  rw [if_neg (by simp [he, p, hs]), unitFenced_ports, adminEvent_ports, modP_ports, endRekey_ports, dropPort_ports,
    List.modify_modify_eq, List.modify_modify_eq]
  rfl

theorem fenceLink_port {b : Blk} {n : Nat} (cause : Nat) (he : portExists b n = true) (hs : (getP b n).state ≠ 3) (hn : n < b.ports.length) :
    getP (fenceLink b n cause) n = fencedPort n (getP b n) := by
  unfold getP; rw [fenceLink_ports cause he hs]; exact getD_modify_same _ _ _ _ hn

/-- What a port that goes down is afterwards: no longer UP, nothing kept for replay, no lane retrain; its faulty lanes stay marked (R332). -/
structure WentDown (p q : Port) : Prop where
  state : q.state ≠ 2
  replay : q.replay = []
  retraining : q.retraining = false
  rxFault : q.rxFault = p.rxFault

theorem fencedPort_wentDown (n : Nat) (p : Port) : WentDown p (fencedPort n p) := ⟨by simp [fencedPort, idleLanes], rfl, rfl, rfl⟩

/-- An UP port declared down (R332): it trains again, or is fenced the fourth time. -/
theorem linkDown_wentDown {b : Blk} {n : Nat} (he : portExists b n = true) (hu : (getP b n).state = 2) (hn : n < b.ports.length) :
    WentDown (getP b n) (getP (linkDown b n) n) := by
  unfold linkDown
  extract_lets p recent b1 b2 b3
  rw [if_neg (by simp [p, hu])]
  have h1 : getP b1 n = { p with downCount := bump p.downCount 255, downBeats := recent } := getP_modP_same b _ hn
  have hn1 : n < b1.ports.length := (modP_length ..).symm ▸ hn
  split
  · have hd := fencedPort_wentDown n (getP b1 n)
    rw [fenceLink_port (b := b1) 5 he (by rw [h1]; simp [p, hu]) hn1]
    exact ⟨hd.state, hd.replay, hd.retraining, hd.rxFault.trans (by rw [h1])⟩
  · have h2 : getP b2 n = { dropHeld (getP b1 n) with rekey := 0 } := by
      unfold getP
      rw [endRekey_ports, dropPort_ports, List.modify_modify_eq]
      exact getD_modify_same _ _ _ _ hn1
    have hn2 : n < b2.ports.length := by rw [endRekey_ports, List.length_modify, dropPort_ports, List.length_modify]; exact hn1
    rw [getP_congr (adminEvent_ports ..), getP_modP_same b2 _ hn2, h2, h1]
    refine ⟨?_, rfl, rfl, rfl⟩
    dsimp only [idleLanes]
    split <;> simp

end Sys2Proof.Machine
end

section
/-!
O46: frames sent and received, replays, and routed cells (R312, R323 to R335).
-/
namespace Sys2Proof.Machine

/-! ### Sending -/

/-- The cell of a slot is taken from what the port has queued; nothing else of the port changes. -/
theorem popCell_only (p : Port) (i : Nat) : ∃ out rr, (popCell p i).2 = { p with out := out, rr := rr } := by
  unfold popCell
  split
  · split <;> exact ⟨_, _, rfl⟩
  · exact ⟨_, _, rfl⟩

theorem slotCell_only (b : Blk) (fl : Nat) (p : Port) :
    ∃ out rr linkQ halyQ, (slotCell b fl p).2 = { p with out := out, rr := rr, linkQ := linkQ, halyQ := halyQ } := by
  have hpop : ∀ i, ∃ out rr linkQ halyQ, (popCell p i).2 = { p with out := out, rr := rr, linkQ := linkQ, halyQ := halyQ } := fun i => by
    obtain ⟨_, _, h⟩ := popCell_only p i
    exact ⟨_, _, _, _, h⟩
  unfold slotCell
  extract_lets other
  clear_value other
  cases other with
  | some i => exact hpop i
  | none =>
    dsimp only
    split
    next => exact ⟨_, _, _, _, rfl⟩
    next =>
      split
      next => exact ⟨_, _, _, _, rfl⟩
      next =>
        split
        next => exact ⟨_, _, _, _, rfl⟩
        next =>
          split
          next i _ => exact hpop i
          next => exact ⟨_, _, _, _, rfl⟩

/-- A frame's cells, one for each slot (R323). -/
theorem frameCells_only (b : Blk) (fl k : Nat) (p : Port) : (frameCells b fl k p).1.length = k ∧
    ∃ out rr linkQ halyQ slot, (frameCells b fl k p).2 = { p with out := out, rr := rr, linkQ := linkQ, halyQ := halyQ, slot := slot } := by
  induction k generalizing p with
  | zero => exact ⟨rfl, _, _, _, _, _, rfl⟩
  | succ k ih =>
    obtain ⟨o, r, l, h, e⟩ := slotCell_only b fl p
    obtain ⟨hl, o', r', l', h', s', e'⟩ := ih { (slotCell b fl p).2 with slot := (slotCell b fl p).2.slot + 1 }
    refine ⟨by simpa [frameCells] using hl, o', r', l', h', s', ?_⟩
    rw [show (frameCells b fl (k + 1) p).2 = (frameCells b fl k { (slotCell b fl p).2 with slot := (slotCell b fl p).2.slot + 1 }).2 from rfl, e', e]

theorem drainDone_rekey {p : Port} (h : p.rekey = 0) : drainDone p = false := by simp [drainDone, h]

theorem frameSendFx_stays {b : Blk} {n : Nat} (h : framing b n = false ∨ 64 ≤ (getP b n).replay.length ∨ 2 ≤ (getP b n).sleep) :
    frameSendFx b n = b := by
  unfold frameSendFx
  rw [if_pos]
  rcases h with h | h | h <;> simp [h]

/-- The frame sent: 63 cells under the next FSEQ, kept for replay (R323, R326, R328). -/
theorem frameSendFx_sends {b : Blk} {n : Nat} (hf : framing b n = true) (hl : (getP b n).replay.length < 64) (hs : (getP b n).sleep < 2)
    (hr : (getP b n).rekey = 0) : ∃ q cells, frameSendFx b n = modP b n (fun _ => q) ∧ cells.length = 63 ∧
      q.replay = (getP b n).replay ++ [{ fseq := (getP b n).txNext, cells }] ∧ q.txNext = ((getP b n).txNext + 1) % 2 ^ 64 ∧ q.nakDue = false := by
  obtain ⟨hlen, _, _, _, _, _, e⟩ := frameCells_only b (floorNow b) 63 (getP b n)
  unfold frameSendFx
  dsimp only
  rw [if_neg (by simp [hf, drainDone_rekey hr]; omega)]
  refine ⟨_, _, rfl, hlen, ?_, ?_, rfl⟩ <;> rw [e]

/-! ### Receiving -/

/-- A port that is neither granted sleep nor to repeat its handshake goes on (R638, R709). -/
theorem quiet_stays {b : Blk} {n : Nat} (hs : (getP b n).sleep < 2) (hr : (getP b n).rekey = 0) : quiet b n = b := by
  have h2 : ((getP b n).sleep == 2) = false := by simp; omega
  unfold quiet
  simp only [drainDone_rekey hr, h2, Bool.false_and, Bool.false_eq_true, if_false, ite_self]

theorem endRx_only (p : Port) (vn : Nat) (h : RHdr) (xs : List (List Byte)) :
    ∃ rx fr inq, endRx p vn h xs = { p with rxPkt := rx, framing := fr, inq := inq } := by
  unfold endRx; dsimp only; split <;> exact ⟨_, _, _, rfl⟩

/-- A routed cell is assembled: the packet in reception, the input buffer and the count of framing errors (R313, R314). -/
theorem rxCell_only (p : Port) (h : RHdr) (first last : Bool) (pay : List Byte) :
    ∃ rx fr inq, rxCell p h first last pay = { p with rxPkt := rx, framing := fr, inq := inq } := by
  have hstart : ∀ p : Port, ∃ rx fr inq, (if last then endRx p (vnOf h) h [pay] else { p with rxPkt := p.rxPkt.set (vnOf h) (some (h, [pay])) }) =
      { p with rxPkt := rx, framing := fr, inq := inq } := fun p => by
    split
    · exact endRx_only ..
    · exact ⟨_, _, _, rfl⟩
  unfold rxCell
  extract_lets vn same start
  split
  next =>
    split
    · exact hstart p
    · exact ⟨_, _, _, rfl⟩
  next g xs _ =>
    split
    · obtain ⟨_, _, _, e⟩ := hstart (dropRx p vn)
      exact ⟨_, _, _, e⟩
    · split
      · exact ⟨_, _, _, rfl⟩
      · split
        · exact endRx_only ..
        · exact ⟨_, _, _, rfl⟩

/-- One cell of an accepted frame, as FRAME_RECEIVE takes it. -/
def takeCell (p : Port) (c : FCell) : Port :=
  match c with
  | .routed h f l pay => rxCell { p with idle := 0 } h f l pay
  | .halyard _ _ _ => { p with idle := 0 }
  | _ => p

theorem takeCells_only (cells : List FCell) (p : Port) :
    ∃ rx fr inq idle, cells.foldl takeCell p = { p with rxPkt := rx, framing := fr, inq := inq, idle := idle } := by
  refine foldl_keeps (fun q : Port => ∃ rx fr inq idle, q = { p with rxPkt := rx, framing := fr, inq := inq, idle := idle }) _ _ _ ⟨_, _, _, _, rfl⟩ ?_
  rintro q c ⟨rx, fr, inq, idle, rfl⟩
  unfold takeCell
  split
  next h f l pay =>
    obtain ⟨_, _, _, e⟩ := rxCell_only { p with rxPkt := rx, framing := fr, inq := inq, idle := 0 } h f l pay
    exact ⟨_, _, _, 0, e⟩
  next => exact ⟨_, _, _, _, rfl⟩
  next => exact ⟨_, _, _, _, rfl⟩

theorem takeAck_only (p : Port) (ack : Nat) : ∃ replay run retried, takeAck p ack = { p with replay := replay, retryRun := run, retried := retried } := by
  unfold takeAck; split <;> exact ⟨_, _, _, rfl⟩

/-- A port with the acknowledgement, flow control and replay request of an authentic frame taken (R328, R329, R334). -/
def heard (fr : FrameRx) (p : Port) : Port := takeAck { p with fcIn := fr.fc, nakRx := p.nakRx || fr.nak } fr.ack

theorem heard_keeps (fr : FrameRx) (p : Port) : (heard fr p).sleep = p.sleep ∧ (heard fr p).rekey = p.rekey ∧ (heard fr p).rxNext = p.rxNext := by
  obtain ⟨_, _, _, e⟩ := takeAck_only { p with fcIn := fr.fc, nakRx := p.nakRx || fr.nak } fr.ack
  unfold heard; rw [e]; exact ⟨rfl, rfl, rfl⟩

/-- A port that has accepted a frame: its cells assembled, the next FSEQ expected (R329, R335). -/
def accepted (fr : FrameRx) (p : Port) : Port := markFc (fr.cells.foldl takeCell { p with rxNext := (p.rxNext + 1) % 2 ^ 64, nakDue := false })

theorem accepted_keeps (fr : FrameRx) (p : Port) : (accepted fr p).rxNext = (p.rxNext + 1) % 2 ^ 64 ∧ (accepted fr p).nakDue = false ∧
    (accepted fr p).replay = p.replay ∧ (accepted fr p).sleep = p.sleep ∧ (accepted fr p).rekey = p.rekey := by
  obtain ⟨_, _, _, _, e⟩ := takeCells_only fr.cells { p with rxNext := (p.rxNext + 1) % 2 ^ 64, nakDue := false }
  unfold accepted; rw [e]; exact ⟨rfl, rfl, rfl, rfl, rfl⟩

theorem framing_exists {b : Blk} {n : Nat} (h : framing b n = true) : portExists b n = true ∧ (getP b n).state ≠ 3 := by
  simp only [framing, Bool.and_eq_true, Bool.or_eq_true, beq_iff_eq] at h
  obtain ⟨⟨⟨he, hs⟩, -⟩, -⟩ := h
  exact ⟨he, by omega⟩

section
variable {b : Blk} {n : Nat} {fr : FrameRx} (hf : framing b n = true)
include hf

theorem frameReceiveFx_badCrc (hc : fr.crcOk = false) :
    frameReceiveFx b n fr = modP b n fun p => { p with crcErr := bump p.crcErr 65535, nakDue := true } := by
  unfold frameReceiveFx; rw [if_neg (by simp [hf]), if_pos (by simp [hc])]

theorem frameReceiveFx_badTag (hc : fr.crcOk = true) (ht : fr.tagOk = false) :
    frameReceiveFx b n fr = fenceLink (modP b n fun p => { p with authFail := bump p.authFail 255 }) n 6 := by
  unfold frameReceiveFx; rw [if_neg (by simp [hf]), if_neg (by simp [hc]), if_pos (by simp [ht])]

variable (hn : n < b.ports.length) (hc : fr.crcOk = true) (ht : fr.tagOk = true)
include hn hc ht

theorem frameReceiveFx_authentic : frameReceiveFx b n fr = if fr.fseq = (getP b n).rxNext then quiet (modP b n fun p => accepted fr (heard fr p)) n
    else quiet (modP b n (heard fr)) n := by
  have hnext : (getP (modP b n (heard fr)) n).rxNext = (getP b n).rxNext := by rw [getP_modP_same b _ hn, (heard_keeps fr _).2.2]
  unfold heard at hnext
  unfold frameReceiveFx
  rw [if_neg (by simp [hf]), if_neg (by simp [hc]), if_neg (by simp [ht])]
  dsimp only
  rw [hnext, modP_modP, modP_modP]
  by_cases hq : fr.fseq = (getP b n).rxNext
  · rw [if_neg (by simp [hq]), if_pos hq]; rfl
  · rw [if_pos (by simpa using hq), if_neg hq]; rfl

variable (hs : (getP b n).sleep < 2) (hr : (getP b n).rekey = 0)
include hs hr

theorem frameReceiveFx_outOfOrder (hq : fr.fseq ≠ (getP b n).rxNext) : frameReceiveFx b n fr = modP b n (heard fr) := by
  obtain ⟨h1, h2, -⟩ := heard_keeps fr (getP b n)
  have hp : getP (modP b n (heard fr)) n = heard fr (getP b n) := getP_modP_same b _ hn
  rw [frameReceiveFx_authentic hf hn hc ht, if_neg hq]
  exact quiet_stays (by rw [hp, h1]; exact hs) (by rw [hp, h2]; exact hr)

theorem frameReceiveFx_inOrder (hq : fr.fseq = (getP b n).rxNext) : frameReceiveFx b n fr = modP b n fun p => accepted fr (heard fr p) := by
  obtain ⟨h1, h2, -⟩ := heard_keeps fr (getP b n)
  obtain ⟨-, -, -, h3, h4⟩ := accepted_keeps fr (heard fr (getP b n))
  have hp : getP (modP b n fun p => accepted fr (heard fr p)) n = accepted fr (heard fr (getP b n)) := getP_modP_same b _ hn
  rw [frameReceiveFx_authentic hf hn hc ht, if_pos hq]
  exact quiet_stays (by rw [hp, h3, h1]; exact hs) (by rw [hp, h4, h2]; exact hr)

end

/-! ### Replay -/

/-- The run of failed retries as a replay leaves it: one more where the same first frame is repeated (R330). -/
def retryRunOf (p : Port) (f : SentFrame) : Nat := if p.retried = some f.fseq then p.retryRun + 1 else p.retryRun

theorem replayFx_nothing {b : Blk} {n : Nat} (h : (getP b n).replay = []) : replayFx b n = modP b n fun p => { p with nakRx := false } := by
  unfold replayFx; dsimp only; rw [h]

theorem replayFx_repeats {b : Blk} {n : Nat} {f : SentFrame} {r : List SentFrame} (h : (getP b n).replay = f :: r)
    (hrun : retryRunOf (getP b n) f < 8) : replayFx b n = modP b n fun p =>
      { p with nakRx := false, retryRun := retryRunOf (getP b n) f, retry := bump p.retry 65535, retried := some f.fseq } := by
  unfold replayFx; dsimp only; rw [h]
  dsimp only
  rw [if_neg (by unfold retryRunOf at hrun; omega)]
  exact modP_modP b n _ _

theorem replayFx_failed {b : Blk} {n : Nat} {f : SentFrame} {r : List SentFrame} (h : (getP b n).replay = f :: r)
    (hrun : 8 ≤ retryRunOf (getP b n) f) :
    replayFx b n = linkDown (modP b n fun p => { p with nakRx := false, retryRun := retryRunOf (getP b n) f }) n := by
  unfold replayFx; dsimp only; rw [h]
  dsimp only
  exact if_pos hrun

/-- Both causes of a replay run the same effect where their condition holds (R329). -/
theorem replay_runs {s : State} {n : Nat} {i : Instr} (hf : framing s.b n = true)
    (hi : (i = .replay n ∧ (getP s.b n).nakRx = true) ∨ (i = .replayTimeout n ∧ (getP s.b n).replay ≠ [])) :
    ∃ f : Blk → Tab Byte → Blk, exec i s = act s f ∧ f s.b s.mem = replayFx s.b n := by
  rcases hi with ⟨rfl, h⟩ | ⟨rfl, h⟩
  · exact ⟨_, row_replay n s, if_pos (by simp [hf, h])⟩
  · exact ⟨_, row_replayTimeout n s, if_pos (by simp [hf, h])⟩

/-! ### Routed cells -/

/-- A port whose input buffer has given up a packet (R334). -/
def without (x : Nat × Pkt) (q : Port) : Port := markFc { q with inq := q.inq.erase x }

theorem without_code (x : Nat × Pkt) (q : Port) : SameCode (without x q) q := ⟨rfl, rfl⟩

theorem routedFx_arrives {b : Blk} {n vn : Nat} {x : Nat × Pkt} (hx : (getP b n).inq.find? (fun x => x.1 == vn) = some x)
    (h : x.2.hdr.hop = 0 ∨ (x.2.hdr.cls = 0 ∧ (preOfPkt x.2).type ∈ [10, 11, 12]) ∨ (x.2.hdr.cls ≠ 1 ∧ pathCode x.2.hdr = 63)) :
    routedFx b n vn = arrive (modP b n (without x)) n x.2 := by
  unfold routedFx; rw [hx]
  dsimp only
  rcases h with h | ⟨hc, ht⟩ | ⟨hc, hp⟩
  · rw [if_pos (by simp [h])]; rfl
  · split
    · rfl
    · rw [if_pos (by simpa [hc, or_assoc] using ht)]; rfl
  · split
    · rfl
    · split
      · rfl
      · rw [if_pos (by simp [hp]), if_neg (by simp [hc])]; rfl

theorem routedFx_forwards {b : Blk} {n vn : Nat} {x : Nat × Pkt} (hx : (getP b n).inq.find? (fun x => x.1 == vn) = some x)
    (h : ¬ (x.2.hdr.hop = 0 ∨ (x.2.hdr.cls = 0 ∧ (preOfPkt x.2).type ∈ [10, 11, 12]) ∨ (x.2.hdr.cls ≠ 1 ∧ pathCode x.2.hdr = 63)))
    (hp : pathCode x.2.hdr ≠ 63) : routedFx b n vn = forward (modP b n (without x)) n x.2 := by
  simp only [not_or] at h
  obtain ⟨h0, hr, -⟩ := h
  unfold routedFx; rw [hx]
  dsimp only
  rw [if_neg (by simpa using h0), if_neg (by simpa [or_assoc] using hr), if_neg (by simpa using hp)]
  rfl

theorem portAt_without (b : Blk) (n : Nat) (x : Nat × Pkt) (code : Nat) : portAt (modP b n (without x)) code = portAt b code :=
  portAt_congr code rfl fun k => modP_code b n k _ (without_code x)

theorem queuedOn_idle (vn src : Nat) (en : Bool) (cells : List FCell) (p : Port) : (queuedOn vn src en cells p).idle = 0 := by
  unfold queuedOn rouse; split <;> rfl

/-- A packet that goes on is queued, one hop on, at the port that its path names. -/
theorem forward_up {b : Blk} {n m : Nat} {p : Pkt} (hp : portAt b (pathCode p.hdr) = some m) (hu : (getP b m).state = 2) :
    forward b n p = modP b m (queuedOn (vnOf p.hdr) n (entering b n (pathCode p.hdr)) (cellsOf { p with hdr := { p.hdr with hop := p.hdr.hop + 1 } })) :=
  outTo_up _ _ _ _ hp hu

/-- Settles O46: each row by what its effect is in the case (`frameSendFx_sends`, `frameReceiveFx_inOrder`, `replayFx_repeats`,
`routedFx_forwards` and their like); a port that goes down by `fenceLink_ports` and `linkDown_wentDown`. -/
theorem linksCarryFrames : Obligations.LinksCarryFrames := by
  unfold Obligations.LinksCarryFrames
  intro s n ha hs
  refine ⟨fun h => ?stays, fun hf hl hsl hr hn => ?sends, fun fr hf => ?deaf, fun fr hf hn => ⟨fun hc => ?badCrc, fun hc ht => ?badTag,
    fun hc ht hsl hr => ⟨fun hq => ?outOfOrder, fun hq => ?inOrder⟩⟩, fun hf => ⟨?noReplay, ?noTimeout⟩, fun i hf hi hn => ?replays,
    fun vn x he hn hx => ⟨fun h => ?arrives, fun h hp m hm hu hne hml => ?forwards⟩⟩
  case stays => exact (row_frameSend n s).trans (act_nop _ hs (frameSendFx_stays h))
  case sends =>
    obtain ⟨q, cells, e, hlen, hrep, htx, hnak⟩ := frameSendFx_sends hf hl hsl hr
    refine ⟨_, cells, exec_modP ha hs (row_frameSend n s) e, hlen, ?_⟩
    dsimp only
    rw [getP_modP_same s.b _ hn]
    exact ⟨hrep, htx, hnak, rfl, fun k hk => getP_modP_other s.b _ hk⟩
  case deaf => exact (row_frameReceive n fr s).trans (act_nop _ hs (if_pos (by simp [hf])))
  case badCrc => exact exec_modP ha hs (row_frameReceive n fr s) (frameReceiveFx_badCrc hf hc)
  case badTag =>
    obtain ⟨he, h3⟩ := framing_exists hf
    have hp : getP (modP s.b n fun p => { p with authFail := bump p.authFail 255 }) n = _ := getP_modP_same s.b _ hn
    have hfx := fenceLink_port 6 (b := modP s.b n fun p => { p with authFail := bump p.authFail 255 }) he (by rw [hp]; exact h3)
      ((modP_length ..).symm ▸ hn)
    rw [row_frameReceive, act_awake ha, frameReceiveFx_badTag hf hc ht]
    refine ⟨_, rfl, ?_⟩
    rw [getP_commit, hfx, hp]
    exact ⟨rfl, rfl, rfl, rfl⟩
  case outOfOrder => exact exec_modP ha hs (row_frameReceive n fr s) ((frameReceiveFx_outOfOrder hf hn hc ht hsl hr hq).trans (modP_congr _ _ _ _ rfl))
  case inOrder =>
    obtain ⟨h1, h2, h3, -, -⟩ := accepted_keeps fr (heard fr (getP s.b n))
    refine ⟨_, exec_modP ha hs (row_frameReceive n fr s) (frameReceiveFx_inOrder hf hn hc ht hsl hr hq), ?_⟩
    dsimp only
    rw [getP_modP_same s.b _ hn]
    exact ⟨h1.trans (by rw [(heard_keeps fr (getP s.b n)).2.2]), h2, h3, rfl⟩
  case noReplay => exact (row_replay n s).trans (act_nop _ hs (if_neg (by simp [hf])))
  case noTimeout => exact (row_replayTimeout n s).trans (act_nop _ hs (if_neg (by simp [hf])))
  case replays =>
    obtain ⟨f, hrow, hfx⟩ := replay_runs hf hi
    refine ⟨fun h0 => exec_modP ha hs hrow (hfx.trans (replayFx_nothing h0)), fun fr r hr => ⟨fun hrun => ?_, fun hrun hu => ?_⟩⟩
    · exact exec_modP ha hs hrow (hfx.trans (replayFx_repeats hr hrun))
    · have hp : getP (modP s.b n fun p => { p with nakRx := false, retryRun := retryRunOf (getP s.b n) fr }) n = _ := getP_modP_same s.b _ hn
      have hd := linkDown_wentDown (b := modP s.b n fun p => { p with nakRx := false, retryRun := retryRunOf (getP s.b n) fr })
        (framing_exists hf).1 (by rw [hp]; exact hu) ((modP_length ..).symm ▸ hn)
      rw [hrow, act_awake ha, hfx, replayFx_failed hr hrun]
      exact ⟨_, rfl, hd.state, hd.replay⟩
  case arrives =>
    rw [row_routedCell]
    exact act_yields ha ((if_pos he).trans (routedFx_arrives hx h)) hs
  case forwards =>
    have hfx := (routedFx_forwards hx h hp).trans (forward_up (b := modP s.b n (without x)) (by rw [portAt_without]; exact hm)
      (by rw [getP_modP_other s.b _ hne]; exact hu))
    refine ⟨_, (row_routedCell n vn s).trans (act_yields ha ((if_pos he).trans hfx) hs), ?_⟩
    dsimp only
    rw [getP_modP_other _ _ (Ne.symm hne), getP_modP_same s.b _ hn,
      getP_modP_same (modP s.b n (without x)) _ ((modP_length ..).symm ▸ hml), getP_modP_other s.b _ hne, queuedOn_out, queuedOn_idle]
    exact ⟨rfl, rfl, rfl, rfl⟩

end Sys2Proof.Machine
end

section
/-!
O47: the training of a port, phase by phase, and what ends it (R306, R634 to R641, R701 to R706).
-/
namespace Sys2Proof.Machine

/-! ### Attempts -/

/-- A port whose attempt has failed (R701). -/
def failedPort (p : Port) : Port :=
  idleLanes { p with
    phase := .reset, fsConflict := false, fsDone := false, sessOurs := false, sessTheirs := false, msgs := [], trained := false }

theorem failAttempt_fails {b : Blk} {n : Nat} (hn : n < b.ports.length) (hr : (getP b n).rekey = 0) : failAttempt b n = modP b n failedPort := by
  have hp : getP (modP b n failedPort) n = failedPort (getP b n) := getP_modP_same b _ hn
  show (if (getP (modP b n failedPort) n).rekey == 0 then modP b n failedPort else endRekey (modP b n failedPort) n) = _
  exact if_pos (by rw [hp]; exact beq_iff_eq.mpr hr)

/-- A port with one message more to be acknowledged (R703). -/
def addMessage (p : Port) : Port := { p with msgs := p.msgs ++ [(p.msgNext, 1)], msgNext := (p.msgNext + 1) % 65536 }

/-! ### Lanes -/

/-- A port with the lanes that both masks choose (R702); a lane retrain is over, an attempt goes on to its handshake (R705). -/
def chooseLanes (mask k : Nat) (p : Port) : Port :=
  let q := { p with goodTheirs := mask, txActive := lanesOf mask, rxActive := lanesOf p.goodMine, txei := 0x1FFF - lanesOf mask, skewNs := k }
  if q.retraining = true then { q with phase := .done, retraining := false } else addMessage { q with phase := .key, msgs := [] }

theorem rxGoodFx_chooses {b : Blk} {n mask : Nat} (hp : (getP b n).phase = .lanes) (hm : 12 ≤ laneCount mask) (hg : 12 ≤ laneCount (getP b n).goodMine) :
    ∃ k, rxGoodFx b n mask = { modP b n (chooseLanes mask k) with fresh := b.fresh + 1 } := by
  unfold rxGoodFx
  dsimp only
  rw [if_neg (by simp [hp, hm, hg])]
  exact ⟨(draw b).1 % 256, rfl⟩

/-! ### The key handshake -/

/-- A port whose frames start (R326, R638, R701). -/
def startedPort (cell : List Byte) (p : Port) : Port :=
  { p with
    phase := .frames, fsDone := true, keyEpoch := (p.keyEpoch + 1) % 2 ^ 32, txNext := 0, rxNext := 0, replay := [], retryRun := 0, retried := none
    nakRx := false, nakDue := false, fcIn := 0, fcOut := 0, msgs := [], linkQ := [cell] }

theorem startFrames_starts (b : Blk) (n : Nat) : startFrames b n = modP b n (startedPort (identCell b (getP b n))) := rfl

theorem fsExchange_agrees {b : Blk} {n a : Nat} (h : b.sec.fs = some a) : fsExchange b n (some a) = startFrames b n := by
  unfold fsExchange; rw [h]; exact if_pos (by simp)

theorem fsExchange_theirsMissing {b : Blk} {n a : Nat} (h : b.sec.fs = some a) : fsExchange b n none = startFrames b n := by
  unfold fsExchange; rw [h]

/-- Two secrets that differ are a conflict, counted once (R640). -/
theorem fsExchange_conflicts {b : Blk} {n a c : Nat} (h : b.sec.fs = some a) (hne : a ≠ c) : fsExchange b n (some c) =
    { modP b n (fun p => { p with fsConflict := true }) with sec := { b.sec with fsConflict := satAdd b.sec.fsConflict 1 65535 } } := by
  unfold fsExchange; rw [h]; exact if_neg (by simpa using hne)

theorem sessionDone_first {b : Blk} {n : Nat} {ours : Bool} (ho : (getP b n).sessOurs = false) (ht : (getP b n).sessTheirs = false) :
    sessionDone b n ours true = modP b n fun q => { q with sessOurs := ours, sessTheirs := !ours } := by
  refine modP_congr b n _ _ ?_
  cases ours <;> simp [ho, ht]

/-- The second session to finish brings the FS exchange's message (R635, R640). -/
theorem sessionDone_second {b : Blk} {n : Nat} {ours : Bool} (ho : (getP b n).sessOurs = !ours) (ht : (getP b n).sessTheirs = ours) :
    sessionDone b n ours true = modP b n fun q => addMessage { q with sessOurs := true, sessTheirs := true } := by
  refine modP_congr b n _ _ ?_
  cases ours <;> simp [ho, ht, addMessage]

theorem sessionDone_failed {b : Blk} {n : Nat} (ours : Bool) (hn : n < b.ports.length) (hr : (getP b n).rekey = 0) : sessionDone b n ours false =
    { modP b n failedPort with sec := { b.sec with hsFail := satAdd b.sec.hsFail 1 65535 } } :=
  failAttempt_fails (b := { b with sec := { b.sec with hsFail := satAdd b.sec.hsFail 1 65535 } }) hn hr

/-- A port in the KEY phase of an attempt: its messages take effect (R703). -/
def InKey (b : Blk) (n : Nat) : Prop := (getP b n).state = 1 ∧ (getP b n).phase = .key

section
variable {b : Blk} {n : Nat} (hk : InKey b n)
include hk

theorem trainFx_session (ours ok : Bool) : trainFx b n (.session ours ok) = sessionDone b n ours ok := by
  unfold trainFx; exact if_neg (by simp [hk.1, hk.2])

theorem trainFx_overlong : trainFx b n .overlong = failAttempt b n := by
  unfold trainFx; exact if_neg (by simp [hk.1, hk.2])

theorem trainFx_ack (num : Nat) : trainFx b n (.ack num) = modP b n fun q => { q with msgs := q.msgs.filter fun x => x.1 != num } := by
  unfold trainFx; exact if_neg (by simp [hk.1, hk.2])

theorem trainFx_fs (ho : (getP b n).sessOurs = true) (ht : (getP b n).sessTheirs = true) (hc : (getP b n).fsConflict = false) (fs : Option Nat) :
    trainFx b n (.fs fs) = fsExchange b n fs := by
  unfold trainFx
  dsimp only
  rw [if_neg (by simp [hk.1, hk.2]), if_pos (by simp [ho, ht, hc])]

theorem trainResendFx_again {x : Nat × Nat} {r : List (Nat × Nat)} (hm : (getP b n).msgs = x :: r) (h : x.2 < 8) :
    trainResendFx b n = modP b n fun q => { q with msgs := (x.1, x.2 + 1) :: r } := by
  unfold trainResendFx
  dsimp only
  rw [if_neg (by simp [hk.1, hk.2]), hm]
  exact if_neg (by omega)

theorem trainResendFx_failed {x : Nat × Nat} {r : List (Nat × Nat)} (hm : (getP b n).msgs = x :: r) (h : 8 ≤ x.2) :
    trainResendFx b n = failAttempt b n := by
  unfold trainResendFx
  dsimp only
  rw [if_neg (by simp [hk.1, hk.2]), hm]
  exact if_pos h

end

theorem identFx_ends {b : Blk} {n ep code : Nat} (hs : (getP b n).state = 1) (hp : (getP b n).phase = .frames) (hr : (getP b n).rekey = 0)
    (he : ep ≠ selfEp b) : identFx b n ep code =
      modP (seePartner b ep) n fun q => { q with partnerEp := ep, partnerPort := code, phase := .done, trained := true } := by
  unfold identFx
  dsimp only
  rw [if_neg (by simp [hs, hp]), if_neg (by simpa using he), if_pos (by simp [hr])]

/-! ### Faulty lanes -/

/-- The faulty lanes of a port with one more. -/
def faultWith (b : Blk) (n lane : Nat) : Nat := setBit (getP b n).rxFault lane true

/-- The block with a lane judged faulty (R704). -/
def laneFenced (b : Blk) (n lane : Nat) : Blk := unitFenced (modP b n fun p => { p with rxFault := faultWith b n lane }) 8 5 n lane

/-- The active lanes of each direction that uses a lane. -/
def usesLane (p : Port) (lane : Nat) : List Nat :=
  (if tb p.txActive lane then [p.txActive] else []) ++ (if tb p.rxActive lane then [p.rxActive] else [])

/-- A port that begins a lane retrain (R705). -/
def laneRetrain (p : Port) : Port :=
  { p with retraining := true, phase := .phy, txei := 0, adaptReq := 0x1FFF, laneRetrains := bump p.laneRetrains 63 }

/-- A port that may lose a lane: UP, awake, the lane not faulty yet. -/
structure LaneFails (b : Blk) (n lane : Nat) : Prop where
  exists_ : portExists b n = true
  up : (getP b n).state = 2
  awake : (getP b n).sleep ≤ 2
  good : tb (getP b n).rxFault lane = false
  listed : n < b.ports.length

section
variable {b : Blk} {n lane : Nat} (h : LaneFails b n lane)
include h

theorem laneFenced_port : getP (laneFenced b n lane) n = { getP b n with rxFault := faultWith b n lane } := by
  rw [laneFenced, getP_congr (unitFenced_ports ..)]
  exact getP_modP_same b _ h.listed

theorem laneFenced_length : n < (laneFenced b n lane).ports.length := by
  rw [laneFenced, unitFenced_ports, modP_length]; exact h.listed

/-- A lane that neither direction uses is only marked. -/
theorem laneFaultFx_unused (hu : usesLane (getP b n) lane = []) : laneFaultFx b n lane = laneFenced b n lane := by
  unfold laneFaultFx
  extract_lets p fault b1 need
  rw [if_neg (by simp [p, h.exists_, h.up, h.awake, h.good]), show need = [] from hu]
  rfl

/-- Every direction that uses the lane has an unused good one: a lane retrain moves to it (R705). -/
theorem laneFaultFx_spared (hu : usesLane (getP b n) lane ≠ []) (ha : ∀ a ∈ usesLane (getP b n) lane, (spareLane a (faultWith b n lane)).isSome = true) :
    ∃ k, laneFaultFx b n lane = unitSpared (modP (laneFenced b n lane) n laneRetrain) 8 n lane k := by
  unfold laneFaultFx
  extract_lets p fault b1 need
  rw [if_neg (by simp [p, h.exists_, h.up, h.awake, h.good])]
  have hall : (need.all fun a => (spareLane a fault).isSome) = true := List.all_eq_true.mpr ha
  obtain ⟨a, r, e⟩ := List.exists_cons_of_ne_nil (show need ≠ [] from hu)
  obtain ⟨k, hk⟩ := Option.isSome_iff_exists.mp (show (spareLane a fault).isSome = true from ha a (show a ∈ need from e ▸ List.mem_cons_self))
  refine ⟨k, ?_⟩
  clear_value need
  subst e
  dsimp only
  rw [hk]
  exact if_pos hall

/-- A direction without an unused good lane takes the port down (R704). -/
theorem laneFaultFx_down {a : Nat} (ha : a ∈ usesLane (getP b n) lane) (hs : spareLane a (faultWith b n lane) = none) :
    laneFaultFx b n lane = linkDown (laneFenced b n lane) n := by
  unfold laneFaultFx
  extract_lets p fault b1 need
  rw [if_neg (by simp [p, h.exists_, h.up, h.awake, h.good])]
  have hall : ¬ (need.all fun a => (spareLane a fault).isSome) = true := fun hc => by
    have := List.all_eq_true.mp hc a ha
    rw [show spareLane a fault = none from hs] at this
    cases this
  obtain ⟨a', r, e⟩ := List.exists_cons_of_ne_nil (show need ≠ [] from List.ne_nil_of_mem ha)
  clear_value need
  subst e
  dsimp only
  split
  · exact if_neg hall
  · rfl

theorem laneFault_down_port {a : Nat} (ha : a ∈ usesLane (getP b n) lane) (hs : spareLane a (faultWith b n lane) = none) :
    (getP (laneFaultFx b n lane) n).state ≠ 2 ∧ (getP (laneFaultFx b n lane) n).rxFault = faultWith b n lane := by
  have hp := laneFenced_port h
  have hd := linkDown_wentDown (b := laneFenced b n lane) ((portExists_congr (unitFenced_part ..) n).trans h.exists_)
    (by rw [hp]; exact h.up) (laneFenced_length h)
  rw [laneFaultFx_down h ha hs]
  exact ⟨hd.state, hd.rxFault.trans (by rw [hp])⟩

theorem laneFault_spared_port (hu : usesLane (getP b n) lane ≠ [])
    (ha : ∀ a ∈ usesLane (getP b n) lane, (spareLane a (faultWith b n lane)).isSome = true) :
    getP (laneFaultFx b n lane) n = laneRetrain { getP b n with rxFault := faultWith b n lane } := by
  obtain ⟨k, e⟩ := laneFaultFx_spared h hu ha
  rw [e, getP_congr (unitSpared_ports ..), getP_modP_same _ _ (laneFenced_length h), laneFenced_port h]

theorem laneFault_unused_port (hu : usesLane (getP b n) lane = []) :
    getP (laneFaultFx b n lane) n = { getP b n with rxFault := faultWith b n lane } := by
  rw [laneFaultFx_unused h hu, laneFenced_port h]

/-- The lane is marked faulty whatever becomes of the port (R704). -/
theorem laneFault_marks : (getP (laneFaultFx b n lane) n).rxFault = faultWith b n lane := by
  by_cases hu : usesLane (getP b n) lane = []
  · rw [laneFault_unused_port h hu]
  · by_cases ha : ∀ a ∈ usesLane (getP b n) lane, (spareLane a (faultWith b n lane)).isSome = true
    · rw [laneFault_spared_port h hu ha]; rfl
    · push Not at ha
      obtain ⟨a, hm, hs⟩ := ha
      exact (laneFault_down_port h hm (by simpa using hs)).2

end

/-! ### The rows -/

theorem laneFault_exec {s : State} (n lane : Nat) (ha : awake s.b = true) : exec (.laneFault n lane) s = .next (commit s (laneFaultFx s.b n lane)) := by
  rw [row_laneFault, act_awake ha]

/-- A command that takes an UP port down. -/
theorem exec_linkDown {s : State} {i : Instr} {f : Blk → Tab Byte → Blk} {n : Nat} (ha : awake s.b = true) (hrow : exec i s = act s f)
    (hfx : f s.b s.mem = linkDown s.b n) (hu : (getP s.b n).state = 2) (hn : n < s.b.ports.length) (he : portExists s.b n = true) :
    ∃ t, exec i s = .next t ∧ (getP t.b n).state ≠ 2 ∧ (getP t.b n).retraining = false := by
  have hd := linkDown_wentDown he hu hn
  exact ⟨commit s (linkDown s.b n), by rw [hrow, act_awake ha, hfx], hd.state, hd.retraining⟩

/-- Settles O47: each phase's row by its effect in the case; an attempt that ends by `failAttempt_fails`, a port that goes down by
`linkDown_wentDown`, a faulty lane by the three lemmas on `laneFaultFx`. -/
theorem portsTrain : Obligations.PortsTrain := by
  unfold Obligations.PortsTrain
  intro s n ha hs
  refine ⟨fun ht h => ?starts, fun ht => ?mayNot, fun hn hr hp h => ?phyrdy, fun good hn hp hr hg => ?adapts, fun mask hp hm hg => ?lanes,
    fun hst hp hn => ⟨fun ours h1 h2 => ?first, fun ours h1 h2 => ?second, fun ours hr => ?sessionFails, fun hr => ?overlong, fun num => ?acks,
      fun h1 h2 hc => ⟨fun a hfs => ⟨?sameFs, ?noFs⟩, fun a c hfs hne => ?conflict⟩, fun x r hm => ⟨fun h => ?again, fun h hr => ?tooOften⟩⟩,
    fun hr hst hp hd hk hn => ?timeout, fun hr hu => ?retrainTimeout, fun hu hsl => ?lossUp, fun hst hp hk hn => ?lossTraining,
    fun ep code hst hp hk he hn => ?ident, fun lane he hu hsl hg hn => ?laneFault⟩
  case starts =>
    refine exec_modP ha hs (row_linkTrainStart n s) (if_pos ?_)
    rcases h with h | ⟨h1, h2⟩
    · simp [ht, h]
    · simp [ht, h1, h2]
  case mayNot => exact (row_linkTrainStart n s).trans (act_nop _ hs (if_neg (by simp [ht])))
  case phyrdy =>
    have hc : (decide ((getP s.b n).phase = .phy) && ((getP s.b n).state == 1 || (getP s.b n).retraining)) = true := by
      rcases h with h | h <;> simp [hp, h]
    refine (row_phyrdy n s).trans (actLive_yields (awake_alive ha) (modP_congr s.b n _ _ ?_) hs)
    exact (if_neg (by simp [hr])).trans (if_pos hc)
  case adapts =>
    exact exec_modP ha hs (row_adaptDone n good s) (modP_congr s.b n _ _ (if_neg (by simp [hp, hr, hg])))
  case lanes =>
    obtain ⟨k, e⟩ := rxGoodFx_chooses hp hm hg
    exact ⟨k, (row_rxGood n mask s).trans (act_yields ha e hs)⟩
  case first => exact exec_modP ha hs (row_trainMessage n _ s) ((trainFx_session ⟨hst, hp⟩ ours true).trans (sessionDone_first h1 h2))
  case second => exact exec_modP ha hs (row_trainMessage n _ s) ((trainFx_session ⟨hst, hp⟩ ours true).trans (sessionDone_second h1 h2))
  case sessionFails =>
    exact (row_trainMessage n _ s).trans (act_yields ha ((trainFx_session ⟨hst, hp⟩ ours false).trans (sessionDone_failed ours hn hr)) hs)
  case overlong => exact exec_modP ha hs (row_trainMessage n _ s) ((trainFx_overlong ⟨hst, hp⟩).trans (failAttempt_fails hn hr))
  case acks => exact exec_modP ha hs (row_trainMessage n _ s) (trainFx_ack ⟨hst, hp⟩ num)
  case sameFs => exact exec_modP ha hs (row_trainMessage n _ s) ((trainFx_fs ⟨hst, hp⟩ h1 h2 hc _).trans (fsExchange_agrees hfs))
  case noFs => exact exec_modP ha hs (row_trainMessage n _ s) ((trainFx_fs ⟨hst, hp⟩ h1 h2 hc _).trans (fsExchange_theirsMissing hfs))
  case conflict => exact (row_trainMessage n _ s).trans (act_yields ha ((trainFx_fs ⟨hst, hp⟩ h1 h2 hc _).trans (fsExchange_conflicts hfs hne)) hs)
  case again => exact exec_modP ha hs (row_trainResend n s) (trainResendFx_again ⟨hst, hp⟩ hm h)
  case tooOften => exact exec_modP ha hs (row_trainResend n s) ((trainResendFx_failed ⟨hst, hp⟩ hm h).trans (failAttempt_fails hn hr))
  case timeout =>
    exact exec_modP ha hs (row_trainingTimeout n s) (((if_neg (by simp [hr])).trans (if_pos (by simp [hst, hp, hd]))).trans (failAttempt_fails hn hk))
  case retrainTimeout => exact exec_linkDown ha (row_trainingTimeout n s) (if_pos hr) hu
  case lossUp => exact exec_linkDown ha (row_lossOfSignal n s) (if_pos (by simp [hu, hsl])) hu
  case lossTraining =>
    exact exec_modP ha hs (row_lossOfSignal n s) (((if_neg (by simp [hst])).trans (if_pos (by simp [hst, hp]))).trans (failAttempt_fails hn hk))
  case ident => exact (row_ident n ep code s).trans (act_yields ha (identFx_ends hst hp hk he) hs)
  case laneFault =>
    have h : LaneFails s.b n lane := ⟨he, hu, hsl, hg, hn⟩
    refine ⟨_, laneFault_exec n lane ha, laneFault_marks h, fun htx hrx => ?_, fun htx hrx => ⟨fun hsp => ?_, fun hsp => ?_⟩⟩
    · rw [getP_commit, laneFault_unused_port h (by simp [usesLane, htx, hrx])]
      exact ⟨hu, rfl⟩
    · rw [getP_commit, laneFault_spared_port h (by simp [usesLane, htx]) (by simpa [usesLane, htx, hrx, faultWith] using hsp)]
      exact ⟨rfl, rfl⟩
    · exact (laneFault_down_port h (by simp [usesLane, htx]) hsp).1

end Sys2Proof.Machine
end

section
/-!
O55: the reservation of halyards, their cells, and the windows of their transfers (R357 to R363, R395 to R397).
-/
namespace Sys2Proof.Machine

@[simp] theorem selfEp_taken (b : Blk) (port : Nat) (p : Pkt) : selfEp (taken b port p) = selfEp b := rfl

/-! ### RESERVE -/

/-- The hop records of a RESERVE with this engine's own behind them (R360). -/
def hopRecord (b : Blk) (port : Nat) (p : Pkt) (i : Nat) : List Byte :=
  splice (dataOfPkt p) (8 + 3 * hopCount (dataOfPkt p)) (leBytes (getP b port).serves 1 ++ leBytes i 2)

/-- The entry that an engine takes for a RESERVE, as asked for (R360). -/
def askedEntry (b : Blk) (port : Nat) (p : Pkt) : Haly :=
  { haly0 with
    valid := true, inPort := (getP b port).serves, outPort := pathCode p.hdr, resFloor := floorNow b, step := (preOfPkt p).step
    start := fld (preOfPkt p).spec 21 0, len := fld (preOfPkt p).spec 53 32
    originEp := p.hdr.src, originIdx := (hopRec (dataOfPkt p) 0).2, actBeat := leAt (dataOfPkt p) 0 4 }

/-- The window that an engine takes for a RESERVE (R361). -/
def askedWindow (b : Blk) (port : Nat) (p : Pkt) : Option Nat :=
  chooseWindow b (pathCode p.hdr) (fld (preOfPkt p).spec 21 0 + nsSlots ((getP b port).cableForce + 54)) (fld (preOfPkt p).spec 53 32)
    (fld (preOfPkt p).spec 85 64)

/-- The RESERVE as it goes on from a window. -/
def reserveOn (b : Blk) (port : Nat) (p : Pkt) (i w : Nat) : Pkt :=
  let spec := mk [(21, 0, w), (53, 32, fld (preOfPkt p).spec 53 32), (85, 64, fld (preOfPkt p).spec 85 64)]
  { p with body := .coll { preOfPkt p with spec } (hopRecord b port p i) }

/-- The refusal of a RESERVE (R361). -/
def refusal (b : Blk) (port : Nat) (p : Pkt) : Blk := replyBack (taken b port p) p (hopRecord b port p 0) 1 0

theorem reserveFx_misroutes {b : Blk} {port : Nat} {p : Pkt} (ho : pathCode p.hdr = 63) (hd : p.hdr.dst ≠ selfEp b) :
    reserveFx b port p = misroute (taken b port p) port p :=
  if_pos (by simpa [ho] using hd)

section
variable {b : Blk} {port : Nat} {p : Pkt} (hk : hopCount (dataOfPkt p) < 8)
include hk

theorem reserveFx_full (hh : pathCode p.hdr ≠ 63 ∨ p.hdr.dst = selfEp b) (hf : lowestFree 32768 0 b.t.haly = none) :
    reserveFx b port p = refusal b port p := by
  have hm : ¬ (pathCode p.hdr == 63 && p.hdr.dst != selfEp (taken b port p)) = true := by
    rcases hh with h | h <;> simp [h]
  have hf' : lowestFree 32768 0 (taken b port p).t.haly = none := hf
  unfold reserveFx
  dsimp only
  rw [if_neg hm, if_neg (by omega), hf']
  rfl

variable {i : Nat} (hf : lowestFree 32768 0 b.t.haly = some i)
include hf

theorem reserveFx_grants (ho : pathCode p.hdr = 63) (hd : p.hdr.dst = selfEp b) : reserveFx b port p =
    replyBack (modHaly (taken b port p) i fun _ => { askedEntry b port p with granted := true }) p (hopRecord b port p i) 0 i := by
  have hf' : lowestFree 32768 0 (taken b port p).t.haly = some i := hf
  unfold reserveFx
  dsimp only
  rw [if_neg (by simp [hd]), if_neg (by omega), hf']
  dsimp only
  rw [if_pos (by simp [ho])]
  rfl

variable (ho : pathCode p.hdr ≠ 63)
include ho

theorem reserveFx_noWindow (hw : codeUp b (pathCode p.hdr) = false ∨ askedWindow b port p = none) : reserveFx b port p = refusal b port p := by
  have hf' : lowestFree 32768 0 (taken b port p).t.haly = some i := hf
  have hw' : (if codeUp (taken b port p) (pathCode p.hdr) then askedWindow (taken b port p) port p else none) = none := by
    rcases hw with h | h
    · rw [show codeUp (taken b port p) (pathCode p.hdr) = false from h]; rfl
    · rw [show askedWindow (taken b port p) port p = none from h, ite_self]
  unfold askedWindow at hw'
  unfold reserveFx
  dsimp only
  rw [if_neg (by simp [ho]), if_neg (by omega), hf']
  dsimp only
  rw [if_neg (by simp [ho]), hw']
  rfl

theorem reserveFx_takes {w : Nat} (hu : codeUp b (pathCode p.hdr) = true) (hw : askedWindow b port p = some w) : reserveFx b port p =
    forward (modHaly (taken b port p) i fun _ => { askedEntry b port p with start := w }) port (reserveOn b port p i w) := by
  have hf' : lowestFree 32768 0 (taken b port p).t.haly = some i := hf
  have hw' : (if codeUp (taken b port p) (pathCode p.hdr) then askedWindow (taken b port p) port p else none) = some w := by
    rw [show codeUp (taken b port p) (pathCode p.hdr) = true from hu]; exact hw
  unfold askedWindow at hw'
  unfold reserveFx
  dsimp only
  rw [if_neg (by simp [ho]), if_neg (by omega), hf']
  dsimp only
  rw [if_neg (by simp [ho]), hw']
  rfl

end

/-! ### RESERVE_REPLY -/

/-- The entry that a RESERVE_REPLY answers, at this engine (R361). -/
def answeredEntry (b : Blk) (port : Nat) (p : Pkt) : Option (Nat × Haly) :=
  b.t.haly.find? fun e => e.2.valid && !e.2.active && !e.2.granted && e.2.outPort == (getP b port).serves && e.2.originEp == p.hdr.dst &&
    e.2.originIdx == (hopRec (dataOfPkt p) 0).2

/-- The entry granted, with the index that follows downstream. -/
def grantHaly (b : Blk) (port : Nat) (p : Pkt) (i : Nat) : Blk :=
  modHaly (taken b port p) i fun e => { e with outId := fld (preOfPkt p).spec 31 16, granted := true }

/-- The block with an entry's reservation answered: granted, or freed (R361). -/
def answered (b : Blk) (port : Nat) (p : Pkt) (i : Nat) : Blk :=
  if fld (preOfPkt p).spec 7 0 = 0 then grantHaly b port p i else freeHaly (taken b port p) i

/-- A RESERVE_REPLY as it goes on towards the start. -/
def replyOn (p : Pkt) (status i : Nat) : Pkt :=
  { p with body := .coll { preOfPkt p with spec := mk [(7, 0, status), (31, 16, i)] } (dataOfPkt p) }

section
variable {b : Blk} {port : Nat} {p : Pkt} {i : Nat} {e : Haly} (hm : answeredEntry b port p = some (i, e))
include hm

theorem replyFx_answers : replyFx b port p =
    if p.hdr.dst = selfEp b then walkDone (answered b port p i) i (fld (preOfPkt p).spec 7 0 == 0)
    else forward (answered b port p i) port (replyOn p (b2n (!(fld (preOfPkt p).spec 7 0 == 0))) i) := by
  have hm' : answeredEntry (taken b port p) port p = some (i, e) := hm
  unfold answeredEntry at hm'
  unfold replyFx
  dsimp only
  rw [hm']
  simp only [selfEp_taken, beq_iff_eq]
  by_cases hd : p.hdr.dst = selfEp b
  · rw [if_pos hd, if_pos hd]; rfl
  · rw [if_neg hd, if_neg hd, if_neg hd]; rfl

theorem replyFx_grants_on (hg : fld (preOfPkt p).spec 7 0 = 0) (hd : p.hdr.dst ≠ selfEp b) :
    replyFx b port p = forward (grantHaly b port p i) port (replyOn p 0 i) := by
  rw [replyFx_answers hm, if_neg hd, answered, if_pos hg, hg]; rfl

theorem replyFx_refused_on (hg : fld (preOfPkt p).spec 7 0 ≠ 0) (hd : p.hdr.dst ≠ selfEp b) :
    replyFx b port p = forward (freeHaly (taken b port p) i) port (replyOn p 1 i) := by
  rw [replyFx_answers hm, if_neg hd, answered, if_neg hg, beq_false_of_ne hg]; rfl

/-- At the start an entry that no walk asks for is granted, and nothing else follows. -/
theorem replyFx_home (hg : fld (preOfPkt p).spec 7 0 = 0) (hd : p.hdr.dst = selfEp b) (hw : ∀ w ∈ b.walks, w.idx ≠ i) :
    replyFx b port p = grantHaly b port p i := by
  have hn : (grantHaly b port p i).walks.find? (fun w => w.idx == i) = none := List.find?_eq_none.mpr fun w h => by simpa using hw w h
  rw [replyFx_answers hm, if_pos hd, answered, if_pos hg]
  unfold walkDone; rw [hn]

end

/-! ### RESERVE_TIMEOUT -/

/-- A canonical table of halyards in which an entry is free. -/
def FreeIn (t : Tab Haly) (idx : Nat) : Prop := twf haly0 t = true ∧ (tget haly0 t idx).valid = false

/-- Releasing an entry changes the table of halyards at most, the fabric and the ports (R363). -/
theorem releaseHaly_only (b : Blk) (i : Nat) : ∃ haly fab ports, releaseHaly b i = { b with t := { b.t with haly := haly }, fab := fab, ports := ports } ∧
    (haly = b.t.haly ∧ (getHaly b i).valid = false ∨ haly = tset haly0 b.t.haly i haly0) := by
  unfold releaseHaly
  dsimp only
  split
  next h => exact ⟨_, _, _, rfl, .inl ⟨rfl, by simpa using h⟩⟩
  next =>
    split
    · exact ⟨_, _, _, rfl, .inr rfl⟩
    · rw [sendBare_eq]
      exact ⟨_, _, _, rfl, .inr rfl⟩

theorem freeIn_tset_same {t : Tab Haly} (i : Nat) (hw : twf haly0 t = true) : FreeIn (tset haly0 t i haly0) i :=
  ⟨twf_tset _ _ _ _ hw, by rw [tget_tset _ _ _ _ _ hw, if_pos rfl]; rfl⟩

theorem FreeIn.tset {t : Tab Haly} {idx : Nat} (h : FreeIn t idx) (i : Nat) : FreeIn (tset haly0 t i haly0) idx := by
  refine ⟨twf_tset _ _ _ _ h.1, ?_⟩
  rw [tget_tset _ _ _ _ _ h.1]
  split
  · rfl
  · exact h.2

theorem releaseHaly_frees {b : Blk} (i : Nat) (hw : twf haly0 b.t.haly = true) : FreeIn (releaseHaly b i).t.haly i := by
  obtain ⟨haly, _, _, e, ⟨rfl, hv⟩ | rfl⟩ := releaseHaly_only b i <;> rw [e]
  · exact ⟨hw, hv⟩
  · exact freeIn_tset_same i hw

theorem releaseHaly_keepsFree {b : Blk} {idx : Nat} (i : Nat) (h : FreeIn b.t.haly idx) : FreeIn (releaseHaly b i).t.haly idx := by
  obtain ⟨haly, _, _, e, ⟨rfl, -⟩ | rfl⟩ := releaseHaly_only b i <;> rw [e]
  · exact h
  · exact h.tset i

theorem releaseAll_only (l : List (Nat × Haly)) (b : Blk) : ∃ haly fab ports, l.foldl (fun b e => releaseHaly b e.1) b =
    { b with t := { b.t with haly := haly }, fab := fab, ports := ports } ∧ ∀ idx, FreeIn b.t.haly idx → FreeIn haly idx := by
  refine foldl_keeps (fun x : Blk => ∃ haly fab ports, x = { b with t := { b.t with haly := haly }, fab := fab, ports := ports } ∧
    ∀ idx, FreeIn b.t.haly idx → FreeIn haly idx) _ _ _ ⟨_, _, _, rfl, fun _ h => h⟩ ?_
  rintro x e ⟨haly, fab, ports, rfl, h⟩
  have hk := fun idx hf => releaseHaly_keepsFree (b := { b with t := { b.t with haly := haly }, fab := fab, ports := ports }) e.1 (h idx hf)
  obtain ⟨haly', _, _, e', -⟩ := releaseHaly_only { b with t := { b.t with haly := haly }, fab := fab, ports := ports } e.1
  rw [e'] at hk ⊢
  exact ⟨_, _, _, rfl, hk⟩

/-- A compile that ends without its halyards: a hoist on demand goes on by cut-through, and nothing waits for its walks (R159, R362). -/
theorem finishCompile_refused (b : Blk) (c : Compile) : ∃ haly hoist fab ports walks, finishCompile b c false =
    { b with t := { b.t with haly := haly, hoist := hoist }, fab := fab, ports := ports, walks := walks
             compiles := b.compiles.filter fun x => x.handle != c.handle } ∧
    (∀ idx, FreeIn b.t.haly idx → FreeIn haly idx) ∧ (∀ w ∈ walks, w ∈ b.walks) ∧ (c.explicit = false → (tget hoist0 hoist c.handle).valid = true) := by
  obtain ⟨haly, fab, ports, e, hk⟩ := releaseAll_only (b.t.haly.filter fun e => e.2.valid && e.2.inPort == 63 && e.2.handle == c.handle)
    { b with compiles := b.compiles.filter fun x => x.handle != c.handle }
  unfold finishCompile
  dsimp only
  rw [if_neg (by simp), e]
  refine ⟨haly, _, fab, ports, _, rfl, hk, fun w hw => (List.mem_filter.mp hw).1, fun hx => ?_⟩
  have hne : ({ getHoist b c.handle with valid := !c.explicit } : Hoist) ≠ hoist0 := fun h => by
    have := congrArg Hoist.valid h
    rw [hx] at this
    cases this
  exact (congrArg Hoist.valid ((tget_tset_of_ne hoist0 b.t.hoist c.handle c.handle _ hne).trans (if_pos rfl))).trans (by rw [hx]; rfl)

/-- The walk of an entry that has no reply in time: the entry is free, its walk is over, and a compile on demand ends (R362). -/
theorem walkDone_refused {b : Blk} {idx : Nat} {w : Walk} (hf : b.walks.find? (fun w => w.idx == idx) = some w) (hh : FreeIn b.t.haly idx) :
    FreeIn (walkDone b idx false).t.haly idx ∧ (∀ x ∈ (walkDone b idx false).walks, x.idx ≠ idx) ∧
    ∀ c, b.compiles.find? (fun c => c.handle == w.handle) = some c → c.explicit = false → (getHoist (walkDone b idx false) w.handle).valid = true := by
  have hne : ∀ x ∈ b.walks.filter (fun x => x.idx != idx), x.idx ≠ idx := fun x hx => by simpa using (List.mem_filter.mp hx).2
  unfold walkDone
  rw [hf]
  dsimp only
  split
  next hc =>
    refine ⟨hh, hne, fun c h => ?_⟩
    rw [hc] at h
    cases h
  next c hc =>
    obtain ⟨_, _, _, _, walks, e, hfree, hsub, hval⟩ := finishCompile_refused
      { b with walks := (b.walks.filter fun x => x.idx != idx).filter fun x => x.handle != w.handle } c
    rw [if_pos (by rfl), e]
    refine ⟨hfree idx hh, fun x hx => hne x (List.mem_filter.mp (hsub x hx)).1, fun d hd hx => ?_⟩
    obtain rfl := Option.some.inj (hd.symm.trans hc)
    have hw : d.handle = w.handle := by simpa using List.find?_some hc
    exact hw ▸ hval hx

/-- The effect of RESERVE_TIMEOUT once ACT_BEAT has come. -/
def timedOut (b : Blk) (idx : Nat) : Blk := walkDone (releaseHaly b idx) idx false

theorem timedOut_ends {b : Blk} {idx : Nat} {w : Walk} (hf : b.walks.find? (fun w => w.idx == idx) = some w) (ht : twf haly0 b.t.haly = true) :
    (getHaly (timedOut b idx) idx).valid = false ∧ (∀ x ∈ (timedOut b idx).walks, x.idx ≠ idx) ∧
    ∀ c, b.compiles.find? (fun c => c.handle == w.handle) = some c → c.explicit = false → (getHoist (timedOut b idx) w.handle).valid = true := by
  obtain ⟨_, _, _, e, -⟩ := releaseHaly_only b idx
  obtain ⟨h1, h2, h3⟩ := walkDone_refused (b := releaseHaly b idx) (by rw [e]; exact hf) (releaseHaly_frees idx ht)
  exact ⟨h1.2, h2, fun c hc => h3 c (by rw [e]; exact hc)⟩

/-! ### RELEASE -/

/-- The block without the entry that a RELEASE names (R363). -/
def released (b : Blk) (port : Nat) (p : Pkt) : Blk :=
  { taken b port p with t := { b.t with haly := b.t.haly.filter fun e =>
    !(e.2.valid && e.2.originEp == p.hdr.src && e.2.originIdx == fld (preOfPkt p).spec 15 0) } }

theorem releaseFx_here {b : Blk} {port : Nat} {p : Pkt} (hd : p.hdr.dst = selfEp b) : releaseFx b port p = takeSeq (released b port p) p :=
  if_pos (beq_iff_eq.mpr hd)

theorem releaseFx_on {b : Blk} {port : Nat} {p : Pkt} (hd : p.hdr.dst ≠ selfEp b) (hp : pathCode p.hdr ≠ 63) :
    releaseFx b port p = forward (released b port p) port p :=
  (if_neg (fun h => hd (beq_iff_eq.mp h))).trans (if_neg (by simpa using hp))

/-! ### Halyard cells -/

/-- An entry through which cells of a port go (R358). -/
def Carries (b : Blk) (port id : Nat) : Prop :=
  id < 32768 ∧ (getHaly b id).valid = true ∧ (getHaly b id).active = true ∧ (getHaly b id).inPort = (getP b port).serves

section
variable {b : Blk} {port id : Nat} (seq : Nat) (inWindow : Bool) (pay : List Byte)

theorem halyCellFx_framing (h : ¬ Carries b port id) :
    halyCellFx b port id seq inWindow pay = modP b port fun p => { p with framing := bump p.framing 255 } := by
  refine if_pos ?_
  by_contra hc
  refine h ?_
  simpa [Carries, and_assoc] using hc

variable (h : Carries b port id)
include h

theorem halyCellFx_inWindow {o : Nat} (hx : (getHaly b id).outPort ≠ 63) (ho : portAt b (getHaly b id).outPort = some o) (hw : inWindow = true)
    (hl : b.beat.locked = true) : halyCellFx b port id seq inWindow pay =
      modP b o fun p => { p with halyQ := p.halyQ ++ [.halyard (getHaly b id).outId seq pay], idle := 0 } := by
  obtain ⟨h1, h2, h3, h4⟩ := h
  unfold halyCellFx
  dsimp only
  rw [if_neg (by simp [h1, h2, h3, h4]), if_neg (by simpa using hx), ho]
  exact if_pos (by simp [hw, hl])

theorem halyCellFx_late {o : Nat} (hx : (getHaly b id).outPort ≠ 63) (ho : portAt b (getHaly b id).outPort = some o)
    (hw : inWindow = false ∨ b.beat.locked = false) : halyCellFx b port id seq inWindow pay = modP b o fun p => { p with
      out := p.out ++ [{ vn := 0, src := port, entering := false, started := true, cells := [.halyard (getHaly b id).outId seq pay] }], idle := 0 } := by
  obtain ⟨h1, h2, h3, h4⟩ := h
  unfold halyCellFx
  dsimp only
  rw [if_neg (by simp [h1, h2, h3, h4]), if_neg (by simpa using hx), ho]
  exact if_neg (by rcases hw with e | e <;> simp [e])

/-- A transfer in assembly with one cell more. -/
def withCell (old : HRx) (seq : Nat) (pay : List Byte) : HRx := { old with cells := old.cells ++ [(seq, pay)] }

/-- The block with a transfer in assembly. -/
def assembling (b : Blk) (id : Nat) (x : HRx) : Blk := { b with fab := { b.fab with halyRx := (b.fab.halyRx.filter fun y => y.idx != id) ++ [x] } }

theorem halyCellFx_collects {old : HRx} (hx : (getHaly b id).outPort = 63) (hf : b.fab.halyRx.find? (fun x => x.idx == id) = some old)
    (hn : (old.cells.any fun c => c.1 == seq) = false) : halyCellFx b port id seq inWindow pay =
      tryAssemble (assembling b id (withCell old seq pay)) (withCell old seq pay) := by
  obtain ⟨h1, h2, h3, h4⟩ := h
  unfold halyCellFx
  dsimp only
  rw [if_neg (by simp [h1, h2, h3, h4]), if_pos (by simp [hx]), hf]
  simp only [Option.getD_some, hn, Bool.false_eq_true, if_false]
  rfl

end

theorem tryAssemble_waits {b : Blk} {x : HRx} (h : rxPrefix x = none) : tryAssemble b x = b := by unfold tryAssemble; rw [h]

/-- The bytes of a transfer of which every cell has come (R321). -/
def assembled (x : HRx) (n : Nat) : List Byte :=
  ((List.range (cdiv n 56)).flatMap fun k => ((x.cells.find? fun c => c.1 == k + 1).map fun c => c.2.take 56).getD []).take n

/-- The block with a complete transfer delivered whole, and no longer in assembly (R321, R396). -/
def deliveredWhole (b : Blk) (x : HRx) (pre : Prefix) : Blk :=
  { b with fab := { b.fab with
    halyRx := b.fab.halyRx.filter fun y => y.idx != x.idx
    arrived := b.fab.arrived ++ [(63, {
      hdr := { net := 0, cls := 0, hop := 1, src := (getHaly b x.idx).originEp, dst := selfEp b, pseq := 0, path := 63 }
      body := .coll { pre with spec := specLO (preLen pre) (preOff pre) } (assembled x (preLen pre)) })] } }

theorem tryAssemble_delivers {b : Blk} {x : HRx} {pre : Prefix} (hp : rxPrefix x = some pre) (hc : x.cut = none)
    (ha : ∀ k, k < cdiv (preLen pre) 56 → ∃ c ∈ x.cells, c.1 = k + 1) : tryAssemble b x = deliveredWhole b x pre := by
  have hall : ((List.range (cdiv (preLen pre) 56)).all fun k => x.cells.any fun c => c.1 == k + 1) = true := by
    simpa using ha
  unfold tryAssemble
  rw [hp]
  dsimp only
  rw [hc]
  dsimp only
  rw [if_pos hall]
  rfl

end Sys2Proof.Machine
end

section
/-!
O55: transfers in the windows of their halyards (R395 to R397).
-/
namespace Sys2Proof.Machine

/-! ### What a command's packets leave -/

/-- Sending changes functions' marks of progress, what is kept for destinations, flows, header sequences, what has arrived here and ports;
no port's halyard cells. -/
structure SentFrom (b b' : Blk) : Prop where
  frame : ∃ fns dst flows pseq arrived ports, b' =
    { b with fns := fns, fab := { b.fab with dst := dst, flows := flows, pseq := pseq, arrived := arrived }, ports := ports }
  halyQ : ∀ o, (getP b' o).halyQ = (getP b o).halyQ

theorem SentFrom.refl (b : Blk) : SentFrom b b := ⟨⟨_, _, _, _, _, _, rfl⟩, fun _ => rfl⟩

theorem SentFrom.trans {b b' b'' : Blk} (h : SentFrom b b') (h' : SentFrom b' b'') : SentFrom b b'' := by
  obtain ⟨⟨_, _, _, _, _, _, e⟩, hq⟩ := h
  obtain ⟨⟨_, _, _, _, _, _, e'⟩, hq'⟩ := h'
  exact ⟨⟨_, _, _, _, _, _, by rw [e', e]⟩, fun o => (hq' o).trans (hq o)⟩

/-- What no change of one port alters is as before at every port. -/
theorem getP_modP_keeps {α : Type} (P : Port → α) (b : Blk) (n k : Nat) (g : Port → Port) (hg : ∀ p, P (g p) = P p) :
    P (getP (modP b n g) k) = P (getP b k) := by
  by_cases hk : k = n
  · subst hk
    by_cases hl : k < b.ports.length
    · rw [getP_modP_same b g hl]; exact hg _
    · have e : modP b k g = b := by unfold modP; rw [List.modify_eq_self (Nat.le_of_not_lt hl)]
      rw [e]
  · rw [getP_modP_other b g hk]

theorem outTo_sentFrom (b : Blk) (code vn src : Nat) (en : Bool) (cells : List FCell) : SentFrom b (outTo b code vn src en cells) := by
  have hmod : ∀ n g, (∀ p : Port, (g p).halyQ = p.halyQ) → SentFrom b (modP b n g) := fun n g hg =>
    ⟨⟨_, _, _, _, _, _, rfl⟩, fun o => getP_modP_keeps Port.halyQ b n o g hg⟩
  have hdrop : ∀ n, SentFrom b (modP b n fun p => { p with downDrop := bump p.downDrop 255 }) := fun n => hmod n _ fun _ => rfl
  unfold outTo
  split
  · split
    · exact hmod _ _ fun p => by unfold rouse; split <;> rfl
    · exact hdrop _
  · split
    · exact hdrop _
    · exact .refl b

theorem launch_sentFrom (b : Blk) (p : Pkt) (alt : Bool) : SentFrom b (launch b p alt) := by
  unfold launch
  dsimp only
  split
  · exact ⟨⟨_, _, _, _, _, _, rfl⟩, fun _ => rfl⟩
  · refine SentFrom.trans ?_ (outTo_sentFrom ..)
    exact ⟨⟨_, _, _, _, _, _, rfl⟩, fun _ => rfl⟩

theorem modDst_sentFrom (b : Blk) (ep : Nat) (g : DstSt → DstSt) : SentFrom b (modDst b ep g) := ⟨⟨_, _, _, _, _, _, rfl⟩, fun _ => rfl⟩

theorem flowAlt_sentFrom (b : Blk) (cmd : Option CmdId) (dst vn : Nat) : SentFrom b (flowAlt b cmd dst vn).2 := by
  unfold flowAlt
  split
  · exact .refl b
  · split
    · exact .refl b
    · exact ⟨⟨_, _, _, _, _, _, rfl⟩, fun _ => rfl⟩

theorem leave_sentFrom (b : Blk) (x : Unsent) : SentFrom b (leave b x) := by
  have hflow : SentFrom b (if x.pkt.hdr.cls == 1 && x.rank == 1 then (false, b) else flowAlt b x.cmd x.pkt.hdr.dst (vnOf x.pkt.hdr)).2 := by
    split
    · exact .refl b
    · exact flowAlt_sentFrom ..
  have hmove : ∀ y : Blk, SentFrom b y → SentFrom b (match x.cmd with | some id => modFn y id.f fun n => { n with moved := true } | none => y) := by
    intro y hy
    split
    · exact hy.trans ⟨⟨_, _, _, _, _, _, rfl⟩, fun _ => rfl⟩
    · exact hy
  have h := hmove _ hflow
  unfold leave
  dsimp only
  split
  · exact (h.trans (modDst_sentFrom ..)).trans (launch_sentFrom ..)
  · exact h.trans (launch_sentFrom ..)

theorem sendTo_sentFrom (b : Blk) (p : Pkt) (cmd : Option CmdId) (rank : Nat) : SentFrom b (sendTo b p cmd rank) := by
  unfold sendTo
  split
  · exact leave_sentFrom ..
  · exact modDst_sentFrom ..

/-! ### The rest of a transfer as DATA packets -/

theorem tailPkts_data {b : Blk} {t : HTrans} (ht : t.pre.type = 1) (dst from_ : Nat) (bs : List Byte) :
    ∀ p ∈ tailPkts b t dst from_ bs, sequenced p = true ∧ p.hdr.dst = dst := by
  intro p hp
  obtain ⟨x, -, rfl⟩ := List.mem_map.mp hp
  rw [cryptPkt_sequenced, cryptPkt_hdr]
  exact ⟨show (true && isSeqType t.pre.type) = true by rw [ht]; rfl, rfl⟩

theorem sendTail_sentFrom (b : Blk) (t : HTrans) (dst from_ : Nat) (bs : List Byte) : SentFrom b (sendTail b t dst from_ bs) :=
  foldl_keeps (fun x => SentFrom b x) _ _ _ (.refl b) fun x p h => h.trans (sendTo_sentFrom x p _ _)

theorem sendTail_kept {b : Blk} {t : HTrans} (ht : t.pre.type = 1) (dst from_ : Nat) (bs : List Byte) :
    keptFor (sendTail b t dst from_ bs) dst = keptFor b dst + (chunksOf maxData bs).length := by
  unfold sendTail
  rw [foldl_sendTo_kept _ _ _ _ _ (tailPkts_data ht dst from_ bs)]
  simp [tailPkts]

/-! ### HALYARD_WINDOW -/

/-- The block without a transfer. -/
def withoutTrans (b : Blk) (t : HTrans) : Blk := { b with fab := { b.fab with halyT := b.fab.halyT.erase t } }

/-- The block without a transfer that is counted as demoted (R397). -/
def demoted (b : Blk) (t : HTrans) : Blk := { withoutTrans b t with beat := { b.beat with demote := bump b.beat.demote 0xFFFFFFFF } }

theorem windowFx_demotes {b : Blk} {idx : Nat} {t : HTrans} (hf : b.fab.halyT.find? (fun t => t.idx == idx && t.seq.isNone) = some t)
    (hd : demotes b (getHaly b idx) = true) : windowFx b idx = sendTail (demoted b t) t (transDst b t) (preOff t.pre) t.bytes := by
  unfold windowFx
  rw [hf]
  exact if_pos hd

/-- How much of a transfer its window holds (R395). -/
def windowRoom (e : Haly) : Nat := 56 * (e.len - 1)

/-- What of a transfer goes in this window, under the next sequence of its destination. -/
def partNow (b : Blk) (idx : Nat) (t : HTrans) : HTrans :=
  let now := t.bytes.take (windowRoom (getHaly b idx))
  let seq := (getDst b (transDst b t)).next
  { t with bytes := now, seq := some seq, pre := { t.pre with e2e := seq, spec := specLO now.length (preOff t.pre) } }

/-- What of it is left for the windows after. -/
def partLater (b : Blk) (idx : Nat) (t : HTrans) : List HTrans :=
  let room := windowRoom (getHaly b idx)
  let later := t.bytes.drop room
  if later.isEmpty then [] else [{ t with bytes := later, pre := { t.pre with spec := specLO later.length (preOff t.pre + room) } }]

/-- The packet that the cells of this window carry. -/
def windowPkt (b : Blk) (idx : Nat) (t : HTrans) : Pkt :=
  cryptPkt b t.rank 0 { hdr := hdrTo b (transDst b t) 0 0, body := .coll (partNow b idx t).pre (partNow b idx t).bytes }

/-- The block with a transfer cut to its window, and its packet kept for its destination. -/
def windowKept (b : Blk) (idx : Nat) (t : HTrans) : Blk :=
  let seq := (getDst b (transDst b t)).next
  modDst { b with fab := { b.fab with halyT := partNow b idx t :: partLater b idx t ++ b.fab.halyT.erase t } } (transDst b t) fun d =>
    { d with next := (seq + 1) % 2 ^ 32, unacked := d.unacked ++
      [{ seq, pkt := windowPkt b idx t, cmd := some t.cmd, rank := t.rank, haly := some idx, held := false, alt := false, resends := 0, mcast := none }] }

/-- The block with the cells of a window queued at its port. -/
def windowSent (b : Blk) (idx o : Nat) (t : HTrans) : Blk :=
  modP (windowKept b idx t) o fun q => { q with halyQ := q.halyQ ++ halyCells (getHaly b idx).outId (windowPkt b idx t), idle := 0 }

theorem windowFx_sends {b : Blk} {idx o : Nat} {t : HTrans} (hf : b.fab.halyT.find? (fun t => t.idx == idx && t.seq.isNone) = some t)
    (hd : demotes b (getHaly b idx) = false) (ho : portAt b (getHaly b idx).outPort = some o) : windowFx b idx = windowSent b idx o t := by
  have ho' : portAt (windowKept b idx t) (getHaly b idx).outPort = some o := ho
  unfold windowFx
  rw [hf]
  dsimp only
  rw [if_neg (by simp [hd])]
  show (match portAt (windowKept b idx t) (getHaly b idx).outPort with | some o => windowSent b idx o t | none => windowKept b idx t) = _
  rw [ho']

theorem windowKept_dst (b : Blk) (idx : Nat) (t : HTrans) : ∃ u, getDst (windowKept b idx t) (transDst b t) =
    { getDst b (transDst b t) with
      next := ((getDst b (transDst b t)).next + 1) % 2 ^ 32, unacked := (getDst b (transDst b t)).unacked ++ [u] } :=
  ⟨_, getDst_modDst { b with fab := { b.fab with halyT := partNow b idx t :: partLater b idx t ++ b.fab.halyT.erase t } } (transDst b t) _
    (dst_ne_of_unacked (by simp))⟩

theorem windowKept_kept (b : Blk) (idx : Nat) (t : HTrans) : keptFor (windowKept b idx t) (transDst b t) = keptFor b (transDst b t) + 1 := by
  obtain ⟨u, h⟩ := windowKept_dst b idx t
  unfold keptFor
  rw [h]
  simp only [List.length_append, List.length_singleton]
  omega

/-! ### OVERRUN -/

/-- A cell of a halyard's identifier. -/
def cellOf (id : Nat) (c : FCell) : Bool := match c with | .halyard i _ _ => i == id | _ => false

section
variable {b : Blk} {idx o : Nat} {t : HTrans} (hf : b.fab.halyT.find? (fun t => t.idx == idx && t.seq.isSome) = some t)
  (ho : portAt b (getHaly b idx).outPort = some o)
include hf ho

theorem overrunFx_sent (hl : (getP b o).halyQ.filter (cellOf (getHaly b idx).outId) = []) : overrunFx b idx = withoutTrans b t := by
  have ho' : portAt (withoutTrans b t) (getHaly b idx).outPort = some o := ho
  have hl' : (getP (withoutTrans b t) o).halyQ.filter (cellOf (getHaly b idx).outId) = [] := hl
  unfold withoutTrans at ho'
  unfold overrunFx
  rw [hf]
  dsimp only
  rw [ho']
  dsimp only
  split
  next => rfl
  next h => cases h.symm.trans hl'

/-- The block once a window is over with a transfer's cells not sent: they leave the port, and the overrun is counted (R396). -/
def overran (b : Blk) (idx o : Nat) (t : HTrans) : Blk :=
  { modP (withoutTrans b t) o (fun q => { q with halyQ := q.halyQ.filter fun c => !cellOf (getHaly b idx).outId c }) with
    beat := { b.beat with overrun := bump b.beat.overrun 0x7FFFFFFF } }

theorem overrunFx_left {id k : Nat} {pay : List Byte} {r : List FCell}
    (hl : (getP b o).halyQ.filter (cellOf (getHaly b idx).outId) = .halyard id (k + 1) pay :: r) :
    overrunFx b idx = sendTail (overran b idx o t) t (transDst b t) (preOff t.pre + 56 * k) (t.bytes.drop (56 * k)) := by
  have ho' : portAt (withoutTrans b t) (getHaly b idx).outPort = some o := ho
  have hl' : (getP (withoutTrans b t) o).halyQ.filter (cellOf (getHaly b idx).outId) = _ := hl
  unfold withoutTrans at ho'
  unfold overrunFx
  rw [hf]
  dsimp only
  rw [ho']
  dsimp only
  split
  next h => cases h.symm.trans hl'
  next h =>
    obtain ⟨rfl, -⟩ := List.cons.inj (h.symm.trans hl')
    cases t.seq <;> rfl

end

/-! ### The rows -/

section
variable {s : State} {port : Nat} {p : Pkt} (ha : awake s.b = true) (hc : isCollPkt p = true)
include ha hc

theorem reserve_exec (ht : (preOfPkt p).type = 10) (he : portExists s.b port = true) :
    exec (.reserve port p) s = .next (commit s (reserveFx s.b port p)) := by
  rw [row_reserve, act_awake ha, if_pos (by simp [hc, ht, he])]

theorem reserveReply_exec (ht : (preOfPkt p).type = 11) (he : portExists s.b port = true) :
    exec (.reserveReply port p) s = .next (commit s (replyFx s.b port p)) := by
  rw [row_reserveReply, act_awake ha, if_pos (by simp [hc, ht, he])]

theorem release_exec (ht : (preOfPkt p).type = 12) : exec (.release port p) s = .next (commit s (releaseFx s.b port p)) := by
  rw [row_release, act_awake ha, if_pos (by simp [hc, ht])]

end

section
variable {s : State} (ha : awake s.b = true)
include ha

theorem halyardCell_exec {port id seq : Nat} {inWindow : Bool} {pay : List Byte} (hf : framing s.b port = true) :
    exec (.halyardCell port id seq inWindow pay) s = .next (commit s (halyCellFx s.b port id seq inWindow pay)) := by
  rw [row_halyardCell, act_awake ha, if_pos hf]

theorem halyardWindow_exec (idx : Nat) (hd : s.b.beat.inDip = false) : exec (.halyardWindow idx) s = .next (commit s (windowFx s.b idx)) := by
  rw [row_halyardWindow, act_awake ha, if_neg (by simp [hd])]

theorem overrun_exec (idx : Nat) : exec (.overrun idx) s = .next (commit s (overrunFx s.b idx)) := by
  rw [row_overrun, act_awake ha]

theorem reserveTimeout_exec {idx : Nat} {w : Walk} (hf : s.b.walks.find? (fun w => w.idx == idx) = some w) :
    exec (.reserveTimeout idx) s = .next (commit s (if w.beat + 8 ≤ s.b.beat.count then timedOut s.b idx else s.b)) := by
  rw [row_reserveTimeout, act_awake ha, hf]
  simp only [decide_eq_true_eq]
  rfl

end

/-- What sending leaves of a state: the beat, the transfers and memory. -/
theorem SentFrom.commit {s : State} {b b' : Blk} (h : SentFrom b b') (hb : b.stores = []) :
    (commit s b').b.beat = b.beat ∧ (commit s b').b.fab.halyT = b.fab.halyT ∧ (commit s b').mem = s.mem := by
  obtain ⟨_, _, _, _, _, _, e⟩ := h.frame
  rw [commit_mem, e]
  exact ⟨rfl, rfl, by rw [show (_ : Blk).stores = [] from hb]; rfl⟩

/-- Settles O55, row by row: reservations by `reserveFx` and `replyFx` in each case, timeouts by `timedOut_ends`, cells by `halyCellFx`, and
transfers by `windowFx` and `overrunFx`, whose DATA packets `sendTail_kept` counts. -/
theorem halyardsCarryTransfers : Obligations.HalyardsCarryTransfers := by
  unfold Obligations.HalyardsCarryTransfers
  intro s port p ha hs
  refine ⟨fun hc ht he hk => ⟨fun ho hd => ?misroutes, fun hh hf => ?full, fun i hf => ⟨fun ho hd => ?grants, fun ho => ⟨fun hw => ?noWindow,
    fun w hu hw => ?takes⟩⟩⟩, fun hc ht he i e hm => ⟨fun hg hd => ?grantedOn, fun hg hd => ?refusedOn, fun hg hd hw => ?home⟩,
    fun idx w hf hwf => ⟨fun hb => ?timedOut, fun hb => ?early⟩, fun hc ht => ⟨fun hd => ?releasedHere, fun hd hp => ?releasedOn⟩,
    fun hf id seq pay inWindow => ⟨fun hm => ?stray, fun hm hx o ho => ⟨fun hw hl => ?inWindow, fun hw => ?late⟩,
      fun hm hx old hold hcut hany => ⟨fun hp => ?collects, fun pre hp hall => ?delivers⟩⟩,
    fun idx tr hdip hf => ⟨fun hd ht => ?demotes, fun hd o ho hol => ?sends⟩,
    fun idx tr o hf ho hol => ⟨fun hl => ?sent, fun id k pay r hl ht => ?overruns⟩⟩
  case misroutes => rw [reserve_exec ha hc ht he, reserveFx_misroutes ho hd]; rfl
  case full => rw [reserve_exec ha hc ht he, reserveFx_full hk hh hf]; rfl
  case grants => rw [reserve_exec ha hc ht he, reserveFx_grants hk hf ho hd]; rfl
  case noWindow => rw [reserve_exec ha hc ht he, reserveFx_noWindow hk hf ho hw]; rfl
  case takes => rw [reserve_exec ha hc ht he, reserveFx_takes hk hf ho hu hw]; rfl
  case grantedOn => rw [reserveReply_exec ha hc ht he, replyFx_grants_on hm hg hd]; rfl
  case refusedOn => rw [reserveReply_exec ha hc ht he, replyFx_refused_on hm hg hd]; rfl
  case home =>
    rw [reserveReply_exec ha hc ht he, replyFx_home hm hg hd hw]
    exact congrArg _ (commit_of_no_stores s _ hs)
  case timedOut =>
    refine ⟨_, (reserveTimeout_exec ha hf).trans (by rw [if_pos hb]), timedOut_ends hf hwf⟩
  case early => rw [reserveTimeout_exec ha hf, if_neg (by omega), commit_id s hs]
  case releasedHere =>
    obtain ⟨_, _, e⟩ := takeSeq_only (released s.b port p) p
    rw [release_exec ha hc ht, releaseFx_here hd]
    exact congrArg _ (commit_of_no_stores s _ (by rw [e]; exact hs))
  case releasedOn => rw [release_exec ha hc ht, releaseFx_on hd hp]; rfl
  case stray =>
    rw [halyardCell_exec ha hf, halyCellFx_framing seq inWindow pay hm]
    exact congrArg _ (commit_of_no_stores s _ hs)
  case inWindow =>
    rw [halyardCell_exec ha hf, halyCellFx_inWindow seq inWindow pay hm hx ho hw hl]
    exact congrArg _ (commit_of_no_stores s _ hs)
  case late =>
    rw [halyardCell_exec ha hf, halyCellFx_late seq inWindow pay hm hx ho hw]
    exact congrArg _ (commit_of_no_stores s _ hs)
  case collects =>
    rw [halyardCell_exec ha hf, halyCellFx_collects seq inWindow pay hm hx hold hany, tryAssemble_waits (x := withCell old seq pay) hp]
    exact congrArg _ (commit_of_no_stores s _ hs)
  case delivers =>
    have hid : old.idx = id := by simpa using List.find?_some hold
    have hx' := halyardCell_exec (id := id) (seq := seq) (inWindow := inWindow) (pay := pay) ha hf
    rw [halyCellFx_collects seq inWindow pay hm hx hold hany, tryAssemble_delivers (x := withCell old seq pay) hp hcut hall,
      commit_of_no_stores s (deliveredWhole (assembling s.b id (withCell old seq pay)) (withCell old seq pay) pre) hs] at hx'
    subst hid
    refine ⟨_, hx', rfl, fun y hy => ?_, rfl⟩
    simpa [withCell] using (List.mem_filter.mp hy).2
  case demotes =>
    have hkept := sendTail_kept (b := demoted s.b tr) ht (transDst s.b tr) (preOff tr.pre) tr.bytes
    obtain ⟨h1, h2, h3⟩ := (sendTail_sentFrom (demoted s.b tr) tr (transDst s.b tr) (preOff tr.pre) tr.bytes).commit (s := s) hs
    exact ⟨_, (halyardWindow_exec ha idx hdip).trans (by rw [windowFx_demotes hf hd]), h1, h2, hkept, h3⟩
  case sends =>
    obtain ⟨u, hd'⟩ := windowKept_dst s.b idx tr
    have hx := halyardWindow_exec ha idx hdip
    rw [windowFx_sends hf hd ho, commit_of_no_stores s (windowSent s.b idx o tr) hs] at hx
    refine ⟨_, hx, ?_, windowKept_kept s.b idx tr, ?_, ?_, rfl, rfl⟩
    · exact congrArg DstSt.next hd'
    · exact congrArg Port.halyQ (getP_modP_same (windowKept s.b idx tr) _ hol)
    · show partNow s.b idx tr :: partLater s.b idx tr ++ s.b.fab.halyT.erase tr = _
      unfold partLater
      simp only [List.isEmpty_iff]
      rfl
  case sent =>
    rw [overrun_exec ha, overrunFx_sent hf ho hl]
    exact congrArg _ (commit_of_no_stores s _ hs)
  case overruns =>
    have hkept := sendTail_kept (b := overran s.b idx o tr) ht (transDst s.b tr) (preOff tr.pre + 56 * k) (tr.bytes.drop (56 * k))
    have hsent := sendTail_sentFrom (overran s.b idx o tr) tr (transDst s.b tr) (preOff tr.pre + 56 * k) (tr.bytes.drop (56 * k))
    obtain ⟨h1, h2, h3⟩ := hsent.commit (s := s) hs
    refine ⟨_, (overrun_exec ha idx).trans (by rw [overrunFx_left hf ho hl]), h1, ?_, hkept, h2, h3⟩
    exact (hsent.halyQ o).trans (congrArg Port.halyQ (getP_modP_same (withoutTrans s.b tr) _ hol))

end Sys2Proof.Machine
end

section
/-!
O18: BEAT_CFG and BEAT_OVR (R373, R374, R377).
-/
namespace Sys2Proof.Machine

theorem ctlWrite_beatCfg (b : Blk) (w : Word) : ctlWrite b 0x200000 w = writeBeatCfg b w.toNat := rfl

theorem ctlWrite_beatOvr (b : Blk) (w : Word) : ctlWrite b 0x200018 w = writeBeatOvr b w.toNat := rfl

/-- The nearer limit of a range, case by case (R373). -/
theorem clamp_cases {lo hi : Nat} (h : lo ≤ hi) (x : Nat) : clamp lo hi x = if x < lo then lo else if hi < x then hi else x := by
  unfold clamp
  split
  · omega
  · split <;> omega

/-- The fields of BEAT_CFG as a write stores them, RUN aside. -/
def storedCfg (x : Beat) (v : Nat) : Beat :=
  { x with
    source := fld v 62 61, dipLen := clamp 100 10000 (fld v 53 40), guard := clamp 16 1000 (fld v 39 30), period := clamp 1000 1000000 (fld v 19 0) }

/-- RUN is set where the stored periods leave 500 ns, and CFG_ERR otherwise (R374). -/
def startedCfg (x : Beat) : Beat :=
  if 500 + x.guard + x.dipLen ≤ x.period then { x with run := true, cfgErr := false } else { x with cfgErr := true }

theorem writeBeatCfg_running {b : Blk} (h : b.beat.run = true) (v : Nat) : writeBeatCfg b v = b := if_pos h

theorem writeBeatCfg_stopped {b : Blk} (h : b.beat.run = false) (v : Nat) :
    writeBeatCfg b v = { b with beat := if tb v 63 then startedCfg (storedCfg b.beat v) else storedCfg b.beat v } := by
  unfold writeBeatCfg startedCfg
  rw [if_neg (by simp [h])]
  cases tb v 63 with
  | false => rfl
  | true =>
    by_cases hp : 500 + (storedCfg b.beat v).guard + (storedCfg b.beat v).dipLen ≤ (storedCfg b.beat v).period
    · rw [if_pos rfl, if_pos hp]
      exact congrArg (fun x => { b with beat := x }) (if_neg (Nat.not_lt.mpr hp))
    · rw [if_pos rfl, if_neg hp]
      exact congrArg (fun x => { b with beat := x }) (if_pos (Nat.not_le.mp hp))

/-- Settles O18: `writeBeatCfg` while RUN is 1 and while it is 0, with each stored field at the nearer limit by `clamp_cases`. -/
theorem beatRegistersAreSet : Obligations.BeatRegistersAreSet := by
  unfold Obligations.BeatRegistersAreSet
  intro v s ho hs w near dip guard period x set
  have hx : storedCfg s.b.beat w = x := by
    unfold storedCfg
    rw [clamp_cases (by decide), clamp_cases (by decide), clamp_cases (by decide)]
  refine ⟨fun hr => ?ignored, fun hr => ?stored, ?cleared⟩
  case ignored =>
    exact (row_beatCfg v s).trans (actCtl_nop _ hs ((ctlWrite_beatCfg s.b v).trans (writeBeatCfg_running hr w)))
  case stored =>
    have h : ctlWrite s.b 0x200000 v = _ := (ctlWrite_beatCfg s.b v).trans (writeBeatCfg_stopped hr w)
    rw [row_beatCfg, actCtl_quiet ho _ (by rw [h]; exact hs), h, hx]
    rfl
  case cleared =>
    rw [row_beatOvrClr]
    by_cases hc : tb w 63 = true
    · have h : ctlWrite s.b 0x200018 v = _ := (ctlWrite_beatOvr s.b v).trans (if_pos hc)
      rw [actCtl_quiet ho _ (by rw [h]; exact hs), h, if_pos hc]
    · rw [actCtl_nop _ hs ((ctlWrite_beatOvr s.b v).trans (if_neg hc)), if_neg hc]

end Sys2Proof.Machine
end

section
/-!
O48: link sleep (R398, R399, R670, R671, R709, R710).
-/
namespace Sys2Proof.Machine

/-! ### Requests and answers -/

theorem maySleep_up {b : Blk} {n : Nat} (h : maySleep b n = true) : (getP b n).state = 2 := by
  unfold maySleep at h
  simp only [Bool.and_eq_true, beq_iff_eq] at h
  tauto

/-- A port that has agreed to sleep: LP_REQ rises once every frame it sent is acknowledged (R709). -/
def agreedPort (p : Port) : Port := if p.replay = [] then { p with sleep := 3, lpReq := true } else { p with sleep := 2 }

theorem agree_up {b : Blk} {n : Nat} (hu : (getP b n).state = 2) (hn : n < b.ports.length) : agree b n = modP b n agreedPort := by
  have hp : getP (modP b n fun p => { p with sleep := 2 }) n = { getP b n with sleep := 2 } := getP_modP_same b _ hn
  unfold agree quiet
  rw [hp]
  by_cases hr : (getP b n).replay = []
  · refine (if_neg (by simp [hr, hu])).trans ((if_pos rfl).trans ((modP_modP ..).trans (modP_congr b n _ _ ?_)))
    rw [agreedPort, if_pos hr]
  · refine (if_pos (by simp [hr])).trans (modP_congr b n _ _ ?_)
    rw [agreedPort, if_neg hr]

theorem giveUp_asking {b : Blk} {n : Nat} (h : (getP b n).sleep = 1) : giveUp b n = modP b n fun q => { q with sleep := 0, idle := 0 } :=
  modP_congr b n _ _ (if_pos (by simp [h]))

/-- A port that has woken and resumes framing: its offset is to be measured again (R399). -/
def wokenPort (p : Port) : Port :=
  { p with sleep := 0, woke := true, idle := 0, mark := { p.mark with known := false }, sentMarks := [] }

section
variable {b : Blk} {n : Nat} (hu : (getP b n).state = 2)
include hu

theorem sleepFx_request (hn : n < b.ports.length) (h : (getP b n).sleep = 1 ∨ ((getP b n).sleep = 0 ∧ maySleep b n = true)) :
    sleepFx b n 0 = modP b n agreedPort := by
  refine (if_neg (by simp [hu])).trans ((if_pos ?_).trans (agree_up hu hn))
  simpa using h

theorem sleepFx_notGranted (h : (getP b n).sleep = 0) (hm : maySleep b n = false) : sleepFx b n 0 = b :=
  (if_neg (by simp [hu])).trans (if_neg (by simp [h, hm]))

theorem sleepFx_grant (hn : n < b.ports.length) (h : (getP b n).sleep = 1) : sleepFx b n 1 = modP b n agreedPort :=
  (if_neg (by simp [hu])).trans ((if_pos (by simp [h])).trans (agree_up hu hn))

theorem sleepFx_refusal (h : (getP b n).sleep = 1) : sleepFx b n 2 = modP b n fun q => { q with sleep := 0, idle := 0 } :=
  (if_neg (by simp [hu])).trans (giveUp_asking h)

/-! ### Waking -/

theorem wakeFx_asleep (h : (getP b n).sleep = 4) (d : Bool) : wakeFx b n d = modP b n fun q => { q with sleep := 5, lpReq := false } := by
  refine (if_neg (by simp [hu])).trans ((if_pos (by simp [h])).trans (modP_congr b n _ _ ?_))
  exact if_pos (by simp [h])

/-- A waking port goes on by its lanes (R399, R710). -/
theorem wakeFx_waking (h : (getP b n).sleep = 5) (d : Bool) : wakeFx b n d =
    if !d then retrain b n else if (getP b n).txei == 0x1FFF then b
    else quiet (seePartner (modP b n wokenPort) (getP b n).partnerEp) n :=
  (if_neg (by simp [hu])).trans ((if_neg (by simp [h])).trans (if_neg (by simp [h])))

/-- Framing resumes; a port that has no handshake to repeat goes on from there (R638). -/
theorem wakeFx_resumes (hn : n < b.ports.length) (h : (getP b n).sleep = 5) (he : (getP b n).txei ≠ 0x1FFF) (hr : (getP b n).rekey = 0) :
    wakeFx b n true = seePartner (modP b n wokenPort) (getP b n).partnerEp := by
  have hq := getP_modP_same b wokenPort hn
  refine (wakeFx_waking hu h true).trans ((if_neg (by simp)).trans ((if_neg (by simpa using he)).trans (quiet_stays ?_ ?_)))
  · exact (congrArg Port.sleep hq).trans_lt Nat.two_pos
  · exact (congrArg Port.rekey hq).trans hr

end

/-! ### The rows -/

/-- Settles O48, row by row: each answer to a request by its effect on an UP port, and each step of waking by `wakeFx_waking`. -/
theorem portsSleep : Obligations.PortsSleep := by
  unfold Obligations.PortsSleep
  intro s n ha hs hn
  refine ⟨fun hm h => ?asks, fun hm => ?mayNot, fun hu => ⟨fun h => ?request, fun h hm => ?notGranted, fun h => ⟨?grant, ?refusal⟩, fun h => ?sleeps,
    fun h => ?leavesIdle, fun d h => ?wakes, fun h => ?retrains, fun h he => ?stillIdle, fun h he hr => ?resumes⟩, fun h => ?unanswered⟩
  case asks => exact exec_modP ha hs (row_sleepRequest n s) (if_pos (by simp [hm, h]))
  case mayNot => exact (row_sleepRequest n s).trans (act_nop _ hs (if_neg (by simp [hm])))
  case request => exact exec_modP ha hs (row_sleep n 0 s) (sleepFx_request hu hn h)
  case notGranted => exact (row_sleep n 0 s).trans (act_nop _ hs (sleepFx_notGranted hu h hm))
  case grant => exact exec_modP ha hs (row_sleep n 1 s) (sleepFx_grant hu hn h)
  case refusal => exact exec_modP ha hs (row_sleep n 2 s) (sleepFx_refusal hu h)
  case sleeps => exact exec_modP ha hs (row_lpAck n true s) (modP_congr s.b n _ _ ((if_neg (by simp [hu])).trans (if_pos (by simp [h]))))
  case leavesIdle =>
    exact exec_modP ha hs (row_lpAck n false s)
      (modP_congr s.b n _ _ ((if_neg (by simp [hu])).trans ((if_neg (by simp)).trans (if_pos (by simp [h])))))
  case wakes => exact exec_modP ha hs (row_wake n d s) (wakeFx_asleep hu h d)
  case retrains => exact (row_wake n false s).trans (act_yields ha ((wakeFx_waking hu h false).trans (if_pos rfl)) hs)
  case stillIdle =>
    exact (row_wake n true s).trans (act_nop _ hs ((wakeFx_waking hu h true).trans ((if_neg (by simp)).trans (if_pos (by simp [he])))))
  case resumes => exact (row_wake n true s).trans (act_yields ha (wakeFx_resumes hu hn h he hr) hs)
  case unanswered => exact exec_modP ha hs (row_sleepAnswerTimeout n s) (giveUp_asking h)

end Sys2Proof.Machine
end

section
/-!
SUPPORT for the beat: what its shared operations change (the lock, parents, marks, dip-window registers), and how the count moves
(R374 to R390, R745).
-/
namespace Sys2Proof.Machine

/-! ### The lock -/

/-- The beat state with LOCKED at a value; its fall is counted (R375). -/
def relock (x : Beat) (v : Bool) : Beat :=
  if x.locked == v then x
  else { x with locked := v, lockLoss := if v then x.lockLoss else satAdd x.lockLoss 1 65535, good := 0 }

theorem setLock_only (b : Blk) (v : Bool) : ∃ shadow, setLock b v = { b with beat := relock b.beat v, shadow := shadow } := by
  unfold setLock relock
  split <;> exact ⟨_, rfl⟩

theorem relock_locked (x : Beat) (v : Bool) : (relock x v).locked = v := by
  unfold relock
  split
  next h => exact eq_of_beq h
  next => rfl

/-- A change of LOCKED touches its counters alone. -/
theorem relock_only (x : Beat) (v : Bool) : ∃ k g, relock x v = { x with locked := v, lockLoss := k, good := g } := by
  unfold relock
  split
  next h => rw [← eq_of_beq h]; exact ⟨_, _, rfl⟩
  next => exact ⟨_, _, rfl⟩

/-! ### Parents -/

/-- Following a parent, or none, changes no more of the beat than these. -/
def Follows (b b' : Blk) : Prop :=
  ∃ shadow locked lockLoss parent dist masterEp lostBeat good adopt step, b' = { b with
    shadow := shadow
    beat := { b.beat with
      locked := locked, lockLoss := lockLoss, parent := parent, dist := dist, masterEp := masterEp, lostBeat := lostBeat, good := good
      adopt := adopt, step := step } }

theorem takeParent_follows (b : Blk) (n : Nat) (m : Mark) : Follows b (takeParent b n m) := by
  unfold takeParent
  extract_lets +onlyGivenNames i near b1
  have h1 : ∃ shadow locked k g, b1 = { b with shadow := shadow, beat := { b.beat with locked := locked, lockLoss := k, good := g } } := by
    simp only [b1]
    split
    · exact ⟨_, _, _, _, rfl⟩
    · obtain ⟨_, h⟩ := setLock_only b false
      obtain ⟨_, _, h'⟩ := relock_only b.beat false
      rw [h, h']
      exact ⟨_, _, _, _, rfl⟩
  obtain ⟨_, _, _, _, h1⟩ := h1
  rw [h1]
  clear_value near
  cases near <;> exact ⟨_, _, _, _, _, _, _, _, _, _, rfl⟩

/-- A new parent is the one that was chosen (R388). -/
theorem takeParent_parent (b : Blk) (n : Nat) (m : Mark) :
    (takeParent b n m).beat.parent = n ∧ (takeParent b n m).beat.dist = m.dist + 1 ∧ (takeParent b n m).beat.masterEp = some m.masterEp := by
  unfold takeParent
  extract_lets i near b1 x
  dsimp only
  split <;> exact ⟨rfl, rfl, rfl⟩

theorem seekParent_follows (b : Blk) : Follows b (seekParent b) := by
  unfold seekParent
  split
  · exact ⟨_, _, _, _, _, _, _, _, _, _, rfl⟩
  · split
    · exact takeParent_follows ..
    · exact ⟨_, _, _, _, _, _, _, _, _, _, rfl⟩

/-- Only a running FABRIC engine without a parent seeks one. -/
theorem seekParent_stays {b : Blk} (h : b.beat.run = false ∨ isMaster b.beat = true ∨ b.beat.parent ≠ 63) : seekParent b = b := by
  unfold seekParent
  rw [if_pos]
  rcases h with h | h | h <;> simp [h]

theorem isMaster_iff (x : Beat) : isMaster x = true ↔ x.source = 1 ∨ x.source = 2 := by simp [isMaster]

end Sys2Proof.Machine
end

section
/-!
O44: beat starts, dip windows and edges of BEAT_IN (R379 to R387, R745).
-/
namespace Sys2Proof.Machine

/-! ### The registers that a dip window governs -/

/-- The registers that a dip window governs, as the beat start takes them (R745). -/
def forcedCtl (c : Ctl) : Ctl :=
  let f := fun (d : Dip) => { d with force := d.due }
  { c with arbSlack := f c.arbSlack, penDlck := f c.penDlck, arrCur := f c.arrCur, floor := f c.floor, throttle := f c.throttle
           e2e := f c.e2e, pwrLink := f c.pwrLink }

/-- The same registers as the dip window latches them (R745). -/
def latchedCtl (c : Ctl) : Ctl :=
  let f := fun (d : Dip) => { d with due := d.stored }
  { c with arbSlack := f c.arbSlack, penDlck := f c.penDlck, arrCur := f c.arrCur, floor := f c.floor, throttle := f c.throttle
           e2e := f c.e2e, pwrLink := f c.pwrLink }

/-- A port whose ring direction, as latched, is in force. -/
def forcedPort (p : Port) : Port := { p with ringForce := p.ringDue }

theorem forceRegs_eq (b : Blk) : forceRegs b = { b with ctl := forcedCtl b.ctl, ports := b.ports.map forcedPort } := rfl

/-- A port whose ring direction is latched. -/
def latchedPort (p : Port) : Port := { p with ringDue := p.ring }

theorem latchRegs_eq (b : Blk) : latchRegs b = { b with ctl := latchedCtl b.ctl, ports := b.ports.map latchedPort } := rfl

/-- A port of a list of changed ports. -/
theorem getP_map {b b' : Blk} {g : Port → Port} (h : b'.ports = b.ports.map g) {n : Nat} (hn : n < b.ports.length) : getP b' n = g (getP b n) := by
  unfold getP
  rw [h]
  simp [List.getD_eq_getElem?_getD, hn]

/-! ### What a beat start does besides its count -/

theorem applyAllStaged_nil (b : Blk) : applyAllStaged b [] = b :=
  foldl_keeps (fun x => x = b) _ _ _ rfl fun _ _ h => h

/-- With nothing due, the governed registers alone come into force. -/
theorem applyDue_nothing {b : Blk} (h : b.due = due0) : applyDue b = forceRegs b := by
  have e : ({ b with due := due0, ctl := { b.ctl with fences := b.ctl.fences.drop due0.fences.length } } : Blk) = b :=
    (congrArg (fun d => { b with due := d, ctl := { b.ctl with fences := b.ctl.fences.drop 0 } }) h).symm
  unfold applyDue
  rw [h]
  exact (applyAllStaged_nil _).trans (congrArg forceRegs e)

theorem awake_congr {b b' : Blk} (h : b'.life = b.life) : awake b' = awake b := by unfold awake alive; rw [h]

theorem countStill_only (b : Blk) : ∃ fns dlck, countStill b = { b with fns := fns, dlck := dlck } := by
  unfold countStill
  extract_lets fs busy still all b1
  have h1 : ∃ fns, b1 = { b with fns := fns } :=
    foldl_keeps (fun x : Blk => ∃ fns, x = { b with fns := fns }) _ _ _ ⟨_, rfl⟩ fun x f ⟨_, h⟩ => by subst h; exact ⟨_, rfl⟩
  obtain ⟨_, h1⟩ := h1
  rw [h1]
  exact ⟨_, _, rfl⟩

theorem requestVolt_only (b : Blk) : ∃ pwr, requestVolt b = { b with pwr := pwr } := by
  unfold requestVolt
  extract_lets w
  split <;> exact ⟨_, rfl⟩

theorem powerBeat_only (b : Blk) : ∃ pwr sectors, powerBeat b = { b with pwr := pwr, sectors := sectors } := by
  unfold powerBeat setActMax
  extract_lets p up
  obtain ⟨_, h⟩ := requestVolt_only { b with pwr := { p with sumW := 0, sumA := 0, samples := 0, actCap := if up then p.actCap + 1 else p.actCap } }
  rw [h]
  exact ⟨_, _, rfl⟩

theorem writeAnchor_only (b : Blk) (f : Nat) : ∃ fns stores, writeAnchor b f = { b with fns := fns, stores := stores } := by
  unfold writeAnchor
  dsimp only
  rw [fnStore_eq]
  exact ⟨_, _, rfl⟩

theorem anchors_only (b : Blk) : ∃ fns stores, anchors b = { b with fns := fns, stores := stores } := by
  unfold anchors
  refine foldl_keeps (fun x : Blk => ∃ fns stores, x = { b with fns := fns, stores := stores }) _ _ _ ⟨_, _, rfl⟩ ?_
  rintro x f ⟨_, _, rfl⟩
  split
  · exact ⟨_, _, rfl⟩
  · obtain ⟨_, _, h⟩ := writeAnchor_only { b with fns := _, stores := _ } f
    rw [h]
    exact ⟨_, _, rfl⟩

theorem returnOwed_only (b : Blk) : ∃ d2d, returnOwed b = { b with d2d := d2d } := by
  unfold returnOwed
  refine foldl_keeps (fun x : Blk => ∃ d2d, x = { b with d2d := d2d }) _ _ _ ⟨_, rfl⟩ ?_
  rintro x f ⟨_, rfl⟩
  extract_lets k
  split <;> exact ⟨_, rfl⟩

/-- Sending a mark queues a cell and notes its time, at each port. -/
theorem sendMarks_only (b : Blk) : ∃ g fresh, sendMarks b = { b with ports := b.ports.map g, fresh := fresh } ∧
    ∀ p, ∃ linkQ sentMarks, g p = { p with linkQ := linkQ, sentMarks := sentMarks } := by
  have hport : ∀ (cell : Port → List Byte) (count : Nat) (p : Port), ∃ linkQ sentMarks,
      (if portAwake p then { p with linkQ := p.linkQ ++ [cell p], sentMarks := ((count, 0) :: p.sentMarks).take 4 } else p) =
        { p with linkQ := linkQ, sentMarks := sentMarks } := fun cell count p => by split <;> exact ⟨_, _, rfl⟩
  unfold sendMarks
  split
  · exact ⟨id, _, by rw [List.map_id], fun p => ⟨_, _, rfl⟩⟩
  · cases b.beat.masterEp with
    | some e => exact ⟨_, _, rfl, hport _ _⟩
    | none => exact ⟨_, _, rfl, hport _ _⟩

/-! ### A beat start with nothing due -/

/-- A port as a beat start leaves it: a new beat of slots, marks one beat older, its ring as latched (R380, R745). -/
structure BegunPort (p q : Port) : Prop where
  slot : q.slot = 0
  injected : q.injected = 0
  idle : q.idle = p.idle + 1
  ring : q.ringForce = p.ringDue
  mark : q.mark = { p.mark with age := p.mark.age + 1 }

/-- What a beat start with nothing due leaves of everything but the beat state. -/
structure Begun (b b' : Blk) : Prop where
  snap : b'.snap = b.t
  cmds : b'.cmds = b.cmds
  ctl : b'.ctl = forcedCtl b.ctl
  ports : ∃ g, b'.ports = b.ports.map g ∧ ∀ p, BegunPort p (g p)

/-- The same, with what every beat start leaves of the beat state, whatever its count. -/
structure BeatBegun (b b' : Blk) : Prop extends Begun b b' where
  inDip : b'.beat.inDip = false
  run : b'.beat.run = b.beat.run
  ticked : b'.beat.ticked = awake b

/-- A lost parent with no other chosen clears LOCKED as the next beat starts (R389). -/
def unlockLost (x : Beat) : Beat := if x.lostBeat.isSome && x.parent == 63 then relock { x with lostBeat := none } false else x

/-- What is due has come into force and the tables' snapshot is taken (R380, R476). -/
def enforced (b : Blk) : Blk :=
  let b := if decide (b.life.phase = .run) then applyDue b else forceRegs b
  takeShadows (if awake b then countStill b else b)

/-- The lock of an engine whose parent was lost and not replaced (R389). -/
def lostChecked (b : Blk) : Blk :=
  if b.beat.lostBeat.isSome && b.beat.parent == 63 then setLock { b with beat := { b.beat with lostBeat := none } } false else b

/-- The count of the new beat, and the lock of a MASTER that starts. -/
def advanced (adv : Beat → Beat) (b : Blk) : Blk :=
  let y := { b with beat := { adv b.beat with ticked := awake b } }
  if !b.beat.live && y.beat.live && y.beat.source == 1 then setLock y true else y

/-- The ticks of the new beat: anchors, and credits owed (R364, R510). -/
def anchored (b : Blk) : Blk := if awake b then returnOwed (anchors b) else b

theorem startBeat_stages (b : Blk) (adv : Beat → Beat) : startBeat b adv =
    anchored (seekParent (sendMarks (powerBeat (portsBeat (advanced adv (lostChecked (enforced b))))))) := rfl

theorem enforced_only {b : Blk} (hd : b.due = due0) : ∃ fns dlck shadow,
    enforced b = { forceRegs b with fns := fns, dlck := dlck, snap := b.t, shadow := shadow } := by
  have h : (if decide (b.life.phase = .run) then applyDue b else forceRegs b) = forceRegs b := by
    split
    · exact applyDue_nothing hd
    · rfl
  obtain ⟨_, _, hc⟩ := countStill_only (forceRegs b)
  unfold enforced
  rw [h]
  dsimp only
  rw [hc]
  split <;> exact ⟨_, _, _, rfl⟩

theorem lostChecked_only (b : Blk) : ∃ shadow, lostChecked b = { b with beat := unlockLost b.beat, shadow := shadow } := by
  obtain ⟨_, h⟩ := setLock_only { b with beat := { b.beat with lostBeat := none } } false
  unfold lostChecked unlockLost
  rw [h]
  split <;> exact ⟨_, rfl⟩

/-- The beat state of the beat that begins; the first beat of a MASTER locks it (R387). -/
def advancedBeat (ticked : Bool) (adv : Beat → Beat) (x : Beat) : Beat :=
  let y := { adv x with ticked }
  if !x.live && y.live && y.source == 1 then relock y true else y

theorem advanced_only (adv : Beat → Beat) (b : Blk) :
    ∃ shadow, advanced adv b = { b with beat := advancedBeat (awake b) adv b.beat, shadow := shadow } := by
  obtain ⟨_, h⟩ := setLock_only { b with beat := { adv b.beat with ticked := awake b } } true
  unfold advanced advancedBeat
  dsimp only
  rw [h]
  split <;> exact ⟨_, rfl⟩

theorem anchored_only (b : Blk) : ∃ fns d2d stores, anchored b = { b with fns := fns, d2d := d2d, stores := stores } := by
  unfold anchored
  split
  · obtain ⟨_, _, h⟩ := anchors_only b
    rw [h]
    obtain ⟨_, h'⟩ := returnOwed_only { b with fns := _, stores := _ }
    rw [h']
    exact ⟨_, _, _, rfl⟩
  · exact ⟨_, _, _, rfl⟩

/-- A port at the start of a beat, at its new injection rate. -/
def beatPort (rate : Port → Nat) (p : Port) : Port :=
  { p with slot := 0, injected := 0, rate := rate p, idle := p.idle + 1, mark := { p.mark with age := p.mark.age + 1 } }

theorem portsBeat_eq (b : Blk) : portsBeat b = { b with ports := b.ports.map (beatPort (throttle b)) } := rfl

/-- A beat start with nothing due reaches the new beat's state, then looks for a parent and ticks. -/
theorem startBeat_begun {b : Blk} (adv : Beat → Beat) (hd : b.due = due0) :
    ∃ b', b'.beat = advancedBeat (awake b) adv (unlockLost b.beat) ∧ Begun b b' ∧ startBeat b adv = anchored (seekParent b') := by
  obtain ⟨_, _, _, h1⟩ := enforced_only hd
  have hs := startBeat_stages b adv
  generalize enforced b = b1 at h1 hs
  obtain ⟨_, h2⟩ := lostChecked_only b1
  generalize lostChecked b1 = b2 at h2 hs
  obtain ⟨_, h3⟩ := advanced_only adv b2
  generalize advanced adv b2 = b3 at h3 hs
  obtain ⟨_, _, h4⟩ := powerBeat_only (portsBeat b3)
  generalize powerBeat (portsBeat b3) = b4 at h4 hs
  obtain ⟨g, _, h5, hg⟩ := sendMarks_only b4
  generalize sendMarks b4 = b5 at h5 hs
  have hw : awake b2 = awake b := awake_congr (by simp only [h2, h1, forceRegs_eq])
  rw [hw] at h3
  refine ⟨b5, ?_, ⟨?_, ?_, ?_, g ∘ beatPort (throttle b3) ∘ forcedPort, ?_, fun p => ?_⟩, hs⟩
  · simp only [h5, h4, portsBeat_eq, h3, h2, h1, forceRegs_eq]
  · simp only [h5, h4, portsBeat_eq, h3, h2, h1]
  · simp only [h5, h4, portsBeat_eq, h3, h2, h1, forceRegs_eq]
  · simp only [h5, h4, portsBeat_eq, h3, h2, h1, forceRegs_eq]
  · simp only [h5, h4, portsBeat_eq, h3, h2, h1, forceRegs_eq, List.map_map]
  · obtain ⟨_, _, h⟩ := hg (beatPort (throttle b3) (forcedPort p))
    rw [Function.comp_apply, Function.comp_apply, h]
    exact ⟨rfl, rfl, rfl, rfl, rfl⟩

/-! ### The lock and the count of the new beat -/

theorem unlockLost_only (x : Beat) : ∃ l k g lb, unlockLost x = { x with locked := l, lockLoss := k, good := g, lostBeat := lb } := by
  obtain ⟨_, _, h⟩ := relock_only { x with lostBeat := none } false
  unfold unlockLost
  rw [h]
  split <;> exact ⟨_, _, _, _, rfl⟩

theorem unlockLost_stays {x : Beat} (h : x.parent ≠ 63 ∨ x.lostBeat = none) : unlockLost x = x := by
  unfold unlockLost
  rw [if_neg]
  rcases h with h | h <;> simp [h]

theorem advancedBeat_only (tk : Bool) (adv : Beat → Beat) (x : Beat) :
    ∃ l k g, advancedBeat tk adv x = { adv x with ticked := tk, locked := l, lockLoss := k, good := g } := by
  obtain ⟨_, _, h⟩ := relock_only { adv x with ticked := tk } true
  unfold advancedBeat
  dsimp only
  rw [h]
  split <;> exact ⟨_, _, _, rfl⟩

/-- Only the first beat of a MASTER locks it. -/
theorem advancedBeat_stays {tk : Bool} {adv : Beat → Beat} {x : Beat} (h : x.live = true ∨ (adv x).source ≠ 1) :
    advancedBeat tk adv x = { adv x with ticked := tk } := by
  unfold advancedBeat
  dsimp only
  rw [if_neg]
  rcases h with h | h <;> simp [h]

theorem advancedBeat_locks {tk : Bool} {adv : Beat → Beat} {x : Beat} (hl : x.live = false) (hl' : (adv x).live = true)
    (hs : (adv x).source = 1) : (advancedBeat tk adv x).locked = true := by
  unfold advancedBeat
  dsimp only
  rw [if_pos (by simp [hl, hl', hs]), relock_locked]

theorem nextPeriods_only (x : Beat) : ∃ per grd dip, nextPeriods x = { x with per := per, grd := grd, dip := dip } := by
  unfold nextPeriods
  split <;> exact ⟨_, _, _, rfl⟩

/-- The next count leaves RUN and the source, and closes the dip window. -/
theorem nextCount_keeps (x : Beat) (ep : Nat) :
    (nextCount x ep).inDip = false ∧ (nextCount x ep).run = x.run ∧ (nextCount x ep).source = x.source := by
  obtain ⟨_, _, _, h⟩ := nextPeriods_only x
  unfold nextCount
  rw [h]
  dsimp only
  split
  · exact ⟨rfl, rfl, rfl⟩
  · split
    · exact ⟨rfl, rfl, rfl⟩
    · split
      · exact ⟨rfl, rfl, rfl⟩
      · split <;> exact ⟨rfl, rfl, rfl⟩

theorem nextCount_preRun {x : Beat} (ep : Nat) (hr : x.run = false) : (nextCount x ep).count = x.count + 1 := by
  obtain ⟨_, _, _, h⟩ := nextPeriods_only x
  unfold nextCount
  rw [h]
  dsimp only
  rw [if_pos (by simp [hr])]

section
variable {x : Beat} (ep : Nat) (hr : x.run = true)
include hr

/-- A MASTER that starts counts from 0, at distance 0 from itself (R387). -/
theorem nextCount_starts (hs : x.source = 1) (hl : x.live = false) : nextCount x ep = { nextPeriods x with
    inDip := false, beatOut := x.run, live := true, master := true, parent := 63, dist := 0, masterEp := some ep, count := 0 } := by
  obtain ⟨_, _, _, h⟩ := nextPeriods_only x
  unfold nextCount
  rw [h]
  dsimp only
  rw [if_neg (by simp [hr, hs]), if_pos (by simp [hs, hl])]

theorem nextCount_master (hs : x.source = 1 ∨ x.source = 2) (hl : x.live = true) :
    ∃ missed, nextCount x ep = { nextPeriods x with inDip := false, beatOut := x.run, count := x.count + 1, missed := missed } := by
  obtain ⟨_, _, _, h⟩ := nextPeriods_only x
  unfold nextCount
  rw [h]
  dsimp only
  rw [if_neg (by simp [hr, hl]), if_neg (by simp [hl]), if_pos (by simpa [isMaster] using hs)]
  exact ⟨_, rfl⟩

/-- A FABRIC engine follows the count adopted from its parent (R388). -/
theorem nextCount_fabric (h1 : x.source ≠ 1) (h2 : x.source ≠ 2) : ∃ good, nextCount x ep = { nextPeriods x with
    inDip := false, beatOut := x.run, live := true, master := false, good := good, adopt := none
    count := x.adopt.getD x.count + 1 } := by
  obtain ⟨_, _, _, h⟩ := nextPeriods_only x
  unfold nextCount
  rw [h]
  dsimp only
  rw [if_neg (by simp [hr, h2]), if_neg (by simp [h1]), if_neg (by simp [isMaster, h1, h2])]
  cases x.adopt <;> exact ⟨_, rfl⟩

end

/-- What the beat of an edge keeps, and what it notes of the edge (R387). -/
theorem edgeCount_eq (ep t : Nat) (x : Beat) : ∃ per grd dip live master parent dist masterEp, edgeCount ep t x = { x with
    per := per, grd := grd, dip := dip, live := live, master := master, parent := parent, dist := dist, masterEp := masterEp
    inDip := false, beatOut := true, edge := some t, missed := 0, count := if x.live = true then x.count + 1 else 0 } := by
  obtain ⟨_, _, _, h⟩ := nextPeriods_only x
  unfold edgeCount
  rw [h]
  cases hl : x.live
  · exact ⟨_, _, _, _, _, _, _, _, rfl⟩
  · exact ⟨_, _, _, _, _, _, _, _, rfl⟩

/-! ### What a beat start leaves -/

theorem BeatBegun.setLock {b b' : Blk} (h : BeatBegun b b') (v : Bool) : BeatBegun b (setLock b' v) := by
  obtain ⟨_, e⟩ := setLock_only b' v
  obtain ⟨_, _, e'⟩ := relock_only b'.beat v
  rw [e, e']
  exact ⟨⟨h.snap, h.cmds, h.ctl, h.ports⟩, h.inDip, h.run, h.ticked⟩

theorem startBeat_beatBegun {b : Blk} {adv : Beat → Beat} (hd : b.due = due0) (ha : ∀ x, (adv x).inDip = false ∧ (adv x).run = x.run) :
    BeatBegun b (startBeat b adv) := by
  obtain ⟨b1, hz, hb, e⟩ := startBeat_begun adv hd
  obtain ⟨_, _, _, _, _, _, _, _, _, _, e1⟩ := seekParent_follows b1
  obtain ⟨_, _, _, e2⟩ := anchored_only (seekParent b1)
  obtain ⟨_, _, _, e3⟩ := advancedBeat_only (awake b) adv (unlockLost b.beat)
  obtain ⟨_, _, _, _, e4⟩ := unlockLost_only b.beat
  obtain ⟨hdip, hrun⟩ := ha (unlockLost b.beat)
  have hrun' : (adv (unlockLost b.beat)).run = b.beat.run := hrun.trans (by rw [e4])
  rw [e, e2, e1]
  refine ⟨⟨hb.snap, hb.cmds, hb.ctl, hb.ports⟩, ?_, ?_, ?_⟩
  · simp only [hz, e3, hdip]
  · simp only [hz, e3, hrun']
  · simp only [hz, e3]

/-- Where no parent is sought, the beat state is that of the new beat. -/
theorem startBeat_beat {b : Blk} {adv : Beat → Beat} {z : Beat} (hd : b.due = due0)
    (hz : advancedBeat (awake b) adv (unlockLost b.beat) = z) (h : z.run = false ∨ isMaster z = true ∨ z.parent ≠ 63) :
    (startBeat b adv).beat = z := by
  obtain ⟨b1, hb, -, e⟩ := startBeat_begun adv hd
  have hz' : b1.beat = z := hb.trans hz
  obtain ⟨_, _, _, e2⟩ := anchored_only b1
  rw [e, seekParent_stays (by rw [hz']; exact h), e2]
  exact hz'

end Sys2Proof.Machine
end

section
/-!
O44, continued: edges of BEAT_IN, dip windows, and the obligation (R379 to R387, R745).
-/
namespace Sys2Proof.Machine

/-! ### An edge of BEAT_IN -/

/-- LOCKED after an edge at time t: lost beyond the guard, gained by two edges within 8 ns of the period, kept otherwise (R387). -/
def edgeLocks (grd per t : Nat) (last : Option Nat) (was : Bool) : Bool :=
  match last with
  | none => was
  | some l => if grd < edgeError per l t then false else if l + per ≤ t + 8 ∧ t ≤ l + per + 8 then true else was

theorem setLock_same (b : Blk) : setLock b b.beat.locked = b := by
  unfold setLock
  rw [if_pos (beq_self_eq_true _)]

/-- An edge starts a beat and sets LOCKED by its distance from the last edge. -/
theorem beatInFx_beats {b : Blk} (t : Nat) (hr : b.beat.run = true) (hs : b.beat.source = 2) (b' : Blk)
    (hb : startBeat b (edgeCount (selfEp b) t) = b') :
    beatInFx b t = setLock b' (edgeLocks b'.beat.grd b.beat.per t b.beat.edge b'.beat.locked) := by
  subst hb
  unfold beatInFx edgeLocks
  rw [if_neg (by simp [hr, hs])]
  cases b.beat.edge with
  | none => exact (setLock_same _).symm
  | some l =>
    have hd : max (t - (l + b.beat.per)) (l + b.beat.per - t) ≤ 8 ↔ l + b.beat.per ≤ t + 8 ∧ t ≤ l + b.beat.per + 8 := by omega
    dsimp only
    split
    · rfl
    · rw [if_congr hd rfl rfl]
      split
      · rfl
      · exact (setLock_same _).symm

/-! ### Dip windows -/

/-- A port with the keep-alive of a dip window (R392). -/
def alivePort (ticked : Bool) (cell : List Byte) (p : Port) : Port :=
  { p with linkQ := p.linkQ ++ if ticked = true ∧ p.state = 2 ∧ p.sleep ≤ 2 then [cell] else [] }

theorem sendAlives_eq (b : Blk) : sendAlives b = { b with ports := b.ports.map (alivePort b.beat.ticked (aliveCell b)) } := by
  have hp : ∀ p : Port, alivePort false (aliveCell b) p = p := fun p => by simp [alivePort]
  unfold sendAlives
  cases b.beat.ticked with
  | false =>
    rw [show b.ports.map (alivePort false (aliveCell b)) = b.ports from (List.map_congr_left fun p _ => hp p).trans (List.map_id b.ports)]
    rfl
  | true =>
    refine congrArg (fun l => { b with ports := l }) (List.map_congr_left fun p _ => ?_)
    by_cases h : p.state = 2 ∧ p.sleep ≤ 2
    · simp [alivePort, portAwake, h]
    · rw [if_neg (by simpa [portAwake] using h)]
      simp [alivePort, h]

theorem adaptAll_only (b : Blk) (util : List Nat) : ∃ sectors pwr, adaptAll b util = { b with sectors := sectors, pwr := pwr } := by
  unfold adaptAll
  extract_lets step
  have hf : ∀ l : List Nat, ∃ sectors, (l.foldl step (b, b.pwr.watts)).1 = { b with sectors := sectors } := fun l => by
    refine foldl_keeps (fun x : Blk × Nat => ∃ sectors, x.1 = { b with sectors := sectors }) _ _ _ ⟨_, rfl⟩ ?_
    rintro ⟨x, est⟩ k ⟨_, rfl⟩
    simp only [step]
    split <;> exact ⟨_, rfl⟩
  obtain ⟨_, h⟩ := hf (running b)
  rw [h]
  obtain ⟨_, h'⟩ := requestVolt_only (grantRaises { b with sectors := _ })
  rw [h']
  exact ⟨_, _, rfl⟩

/-- What stays of the block decides which staged changes are due. -/
theorem dueStaged_congr {b b' : Blk} (h1 : b'.staged = b.staged) (h2 : b'.memp = b.memp) (h3 : b'.fns = b.fns) : dueStaged b' = dueStaged b := by
  unfold dueStaged durable writesOut fnLive getFn
  rw [h1, h2, h3]

/-- The OPPs adapted by utilisation, while firmware runs (R663). -/
def adapted (util : List Nat) (b : Blk) : Blk := if b.life.fwVersion != 0 && decide (b.life.phase = .run) then adaptAll b util else b

/-- What stands requested is listed as due, outside a block reset. -/
def listed (granted : List Nat) (b : Blk) : Blk := if decide (b.life.phase = .run) then { b with due := dueNow b granted } else b

theorem dipFx_stages {b : Blk} (util : List Nat) (h : b.beat.inDip = false) : dipFx b util =
    listed ((running b).filter fun s => (getSect b s).granted)
      (latchRegs (adapted util (sendAlives { b with beat := { b.beat with inDip := true } }))) := by
  unfold dipFx
  rw [if_neg (by simp [h])]
  rfl

theorem adapted_only (util : List Nat) (b : Blk) : ∃ sectors pwr, adapted util b = { b with sectors := sectors, pwr := pwr } := by
  obtain ⟨_, _, h⟩ := adaptAll_only b util
  unfold adapted
  rw [h]
  split <;> exact ⟨_, _, rfl⟩

theorem listed_only (granted : List Nat) (b : Blk) : ∃ due, listed granted b = { b with due := due } ∧
    (b.life.phase = .run → due.staged = dueStaged b ∧ due.fences = b.ctl.fences) := by
  unfold listed
  by_cases h : b.life.phase = .run
  · rw [if_pos (by simp [h])]
    exact ⟨_, rfl, fun _ => ⟨rfl, rfl⟩⟩
  · rw [if_neg (by simp [h])]
    exact ⟨_, rfl, fun h' => absurd h' h⟩

/-- A dip window that opens (R379, R392): what it changes, and what it lists as due. -/
theorem dipFx_opens {b : Blk} (util : List Nat) (h : b.beat.inDip = false) : ∃ sectors pwr due,
    dipFx b util = { b with
      beat := { b.beat with inDip := true }, ctl := latchedCtl b.ctl, sectors := sectors, pwr := pwr, due := due
      ports := (b.ports.map (alivePort b.beat.ticked (aliveCell b))).map latchedPort } ∧
    (b.life.phase = .run → due.staged = dueStaged b ∧ due.fences = b.ctl.fences) := by
  have h1 : sendAlives { b with beat := { b.beat with inDip := true } } =
      { b with beat := { b.beat with inDip := true }, ports := b.ports.map (alivePort b.beat.ticked (aliveCell b)) } := sendAlives_eq _
  have hs := dipFx_stages util h
  generalize sendAlives { b with beat := { b.beat with inDip := true } } = b1 at h1 hs
  obtain ⟨_, _, h2⟩ := adapted_only util b1
  generalize adapted util b1 = b2 at h2 hs
  obtain ⟨due, h4, hdue⟩ := listed_only ((running b).filter fun s => (getSect b s).granted) (latchRegs b2)
  rw [h4, latchRegs_eq] at hs
  subst h2 h1
  refine ⟨_, _, due, hs, fun hr => ?_⟩
  obtain ⟨hst, hf⟩ := hdue hr
  exact ⟨hst.trans (dueStaged_congr rfl rfl rfl), hf⟩

/-! ### The count of a beat start -/

/-- BEAT_START's beat. -/
def nextBeat (b : Blk) : Blk := startBeat b fun x => nextCount x (selfEp b)

theorem nextBeat_begun {b : Blk} (hd : b.due = due0) : BeatBegun b (nextBeat b) :=
  startBeat_beatBegun hd fun x => ⟨(nextCount_keeps x _).1, (nextCount_keeps x _).2.1⟩

section
variable {b : Blk} (hd : b.due = due0)
include hd

theorem nextBeat_preRun (hr : b.beat.run = false) : (nextBeat b).beat.count = b.beat.count + 1 := by
  obtain ⟨_, _, _, _, hy⟩ := unlockLost_only b.beat
  obtain ⟨_, _, _, hz⟩ := advancedBeat_only (awake b) (fun x => nextCount x (selfEp b)) (unlockLost b.beat)
  have hyr : (unlockLost b.beat).run = false := by rw [hy]; exact hr
  unfold nextBeat
  rw [startBeat_beat hd hz (.inl ((nextCount_keeps _ _).2.1.trans hyr))]
  exact (nextCount_preRun _ hyr).trans (by rw [hy])

variable (hr : b.beat.run = true)
include hr

theorem nextBeat_starts (hs : b.beat.source = 1) (hl : b.beat.live = false) :
    (nextBeat b).beat.count = 0 ∧ (nextBeat b).beat.live = true ∧ (nextBeat b).beat.master = true ∧ (nextBeat b).beat.dist = 0 ∧
      (nextBeat b).beat.locked = true ∧ (nextBeat b).beat.masterEp = some (selfEp b) := by
  obtain ⟨_, _, _, _, hy⟩ := unlockLost_only b.beat
  obtain ⟨_, _, _, hz⟩ := advancedBeat_only (awake b) (fun x => nextCount x (selfEp b)) (unlockLost b.beat)
  have hy1 : (unlockLost b.beat).source = 1 := by rw [hy]; exact hs
  have hy2 : (unlockLost b.beat).live = false := by rw [hy]; exact hl
  have hn := nextCount_starts (selfEp b) (x := unlockLost b.beat) (by rw [hy]; exact hr) hy1 hy2
  have hsrc : (nextCount (unlockLost b.beat) (selfEp b)).source = 1 := (nextCount_keeps ..).2.2.trans hy1
  have hlock := advancedBeat_locks (tk := awake b) (adv := fun x => nextCount x (selfEp b)) hy2 (by rw [hn]) hsrc
  unfold nextBeat
  rw [startBeat_beat hd rfl (.inr (.inl ((isMaster_iff _).mpr (.inl (by rw [hz]; exact hsrc)))))]
  refine ⟨?_, ?_, ?_, ?_, hlock, ?_⟩ <;> rw [hz] <;> dsimp only <;> rw [hn]

theorem nextBeat_master (hs : b.beat.source = 1 ∨ b.beat.source = 2) (hl : b.beat.live = true) :
    (nextBeat b).beat.count = b.beat.count + 1 ∧ (b.beat.parent ≠ 63 → (nextBeat b).beat.locked = b.beat.locked) := by
  obtain ⟨_, _, _, _, hy⟩ := unlockLost_only b.beat
  have hys : (unlockLost b.beat).source = 1 ∨ (unlockLost b.beat).source = 2 := by rw [hy]; exact hs
  have hyl : (unlockLost b.beat).live = true := by rw [hy]; exact hl
  obtain ⟨_, hn⟩ := nextCount_master (selfEp b) (x := unlockLost b.beat) (by rw [hy]; exact hr) hys hyl
  obtain ⟨_, _, _, hp⟩ := nextPeriods_only (unlockLost b.beat)
  have hz := advancedBeat_stays (tk := awake b) (adv := fun x => nextCount x (selfEp b)) (.inl hyl)
  unfold nextBeat
  rw [startBeat_beat hd hz (.inr (.inl ((isMaster_iff _).mpr (by rw [hn, hp]; exact hys)))), hn, hp]
  exact ⟨by rw [hy], fun h63 => by rw [unlockLost_stays (.inl h63)]⟩

theorem nextBeat_fabric (h1 : b.beat.source ≠ 1) (h2 : b.beat.source ≠ 2) (h63 : b.beat.parent ≠ 63) :
    (nextBeat b).beat.live = true ∧ (nextBeat b).beat.adopt = none ∧ (nextBeat b).beat.locked = b.beat.locked ∧
      (nextBeat b).beat.count = b.beat.adopt.getD b.beat.count + 1 := by
  obtain ⟨_, hn⟩ := nextCount_fabric (selfEp b) hr h1 h2
  obtain ⟨_, _, _, hp⟩ := nextPeriods_only b.beat
  have hz := advancedBeat_stays (tk := awake b) (adv := fun x => nextCount x (selfEp b)) (x := b.beat) (.inr (by rw [hn, hp]; exact h1))
  unfold nextBeat
  rw [startBeat_beat hd ((congrArg _ (unlockLost_stays (.inl h63))).trans hz) (.inr (.inr (by rw [hn, hp]; exact h63))), hn, hp]
  exact ⟨rfl, rfl, rfl, rfl⟩

end

/-! ### The rows -/

theorem BeatBegun.port {b b' : Blk} (h : BeatBegun b b') {n : Nat} (hn : n < b.ports.length) : BegunPort (getP b n) (getP b' n) := by
  obtain ⟨g, hp, hg⟩ := h.ports
  rw [getP_map hp hn]
  exact hg _

theorem BeatBegun.ports_length {b b' : Blk} (h : BeatBegun b b') : b'.ports.length = b.ports.length := by
  obtain ⟨g, hp, -⟩ := h.ports
  rw [hp, List.length_map]

theorem beatStart_exec {s : State} (ha : alive s.b = true) : exec .beatStart s = .next (commit s (nextBeat s.b)) := by
  rw [row_beatStart, actLive_alive ha]
  rfl

/-- The beat state that an edge leaves at an engine that has a parent, before LOCKED is judged. -/
theorem edgeBeat_eq {b : Blk} (t : Nat) (hd : b.due = due0) (hs : b.beat.source = 2) (hl : b.beat.lostBeat = none) :
    (startBeat b (edgeCount (selfEp b) t)).beat = { edgeCount (selfEp b) t b.beat with ticked := awake b } := by
  obtain ⟨_, _, _, _, _, _, _, _, e⟩ := edgeCount_eq (selfEp b) t b.beat
  have hz := advancedBeat_stays (tk := awake b) (adv := edgeCount (selfEp b) t) (x := b.beat) (.inr (by rw [e]; simp [hs]))
  refine startBeat_beat hd ((congrArg _ (unlockLost_stays (.inr hl))).trans hz) (.inr (.inl ((isMaster_iff _).mpr (.inr ?_))))
  rw [e]
  exact hs

theorem edgeBeat_begun {b : Blk} (t : Nat) (hd : b.due = due0) : BeatBegun b (startBeat b (edgeCount (selfEp b) t)) := by
  refine startBeat_beatBegun hd fun x => ?_
  obtain ⟨_, _, _, _, _, _, _, _, e⟩ := edgeCount_eq (selfEp b) t x
  rw [e]
  exact ⟨rfl, rfl⟩

/-- Settles O44: a beat start by `startBeat_begun` and the count of each kind of engine, a dip window by `dipFx_opens`, an edge by
`beatInFx_beats`. -/
theorem beatsAdvance : Obligations.BeatsAdvance := by
  unfold Obligations.BeatsAdvance
  intro s ha hs x dips starts
  have hstarts : ∀ b', BeatBegun s.b b' → starts (commit s b') := fun b' h =>
    ⟨h.inDip, h.run, h.ticked, h.snap, h.cmds, congrArg dips h.ctl, h.ports_length, fun n hn =>
      have p := h.port hn
      ⟨p.slot, p.injected, p.idle, p.ring, p.mark⟩⟩
  refine ⟨fun hd => ?start, fun hx u => ?twice, fun hx u => ?dip, fun time h => ?noEdge, fun time hr h2 hd hl => ?edge, ?missing⟩
  case start =>
    refine ⟨_, beatStart_exec ha, hstarts _ (nextBeat_begun hd), nextBeat_preRun hd, nextBeat_starts hd, nextBeat_master hd,
      fun hr h1 h2 h63 => ?_⟩
    obtain ⟨hlive, hadopt, hlock, hcount⟩ := nextBeat_fabric hd hr h1 h2 h63
    refine ⟨hlive, hadopt, hlock, hcount.trans ?_⟩
    dsimp only [x]
    cases s.b.beat.adopt <;> rfl
  case twice => exact (row_dipWindow u s).trans (actLive_nop _ hs (if_pos hx))
  case dip =>
    obtain ⟨_, _, due, e, hdue⟩ := dipFx_opens u hx
    refine ⟨_, (row_dipWindow u s).trans (actLive_yields ha e hs), rfl, rfl, rfl, fun n hn => ?_, hdue⟩
    exact getP_map (g := latchedPort ∘ alivePort x.ticked (aliveCell s.b)) List.map_map hn
  case noEdge =>
    refine (row_beatIn time s).trans (actLive_nop _ hs (if_pos ?_))
    rcases h with h | h <;> simp_all [x]
  case edge =>
    have hb := edgeBeat_begun time hd
    have hz := edgeBeat_eq time hd h2 hl
    have e := beatInFx_beats time hr h2 _ rfl
    generalize startBeat s.b (edgeCount (selfEp s.b) time) = b' at hb hz e
    obtain ⟨_, _, _, _, _, _, _, _, he⟩ := edgeCount_eq (selfEp s.b) time x
    obtain ⟨_, e1⟩ := setLock_only b' (edgeLocks b'.beat.grd x.per time x.edge b'.beat.locked)
    obtain ⟨_, _, e2⟩ := relock_only b'.beat (edgeLocks b'.beat.grd x.per time x.edge b'.beat.locked)
    have hlocked : b'.beat.locked = x.locked := by rw [hz, he]
    have hbeat : (beatInFx s.b time).beat = _ := (congrArg Blk.beat (e.trans e1)).trans e2
    refine ⟨_, (row_beatIn time s).trans (actLive_alive ha _), by rw [e]; exact hstarts _ (hb.setLock _), ?_, ?_, ?_, ?_⟩
    · rw [commit_b_beat, hbeat, hz, he]
    · rw [commit_b_beat, hbeat, hz, he]
    · rw [commit_b_beat, hbeat, hz, he]
    · rw [commit_b_beat, hbeat, ← hlocked]
      rfl
  case missing =>
    refine (row_beatInMissing s).trans ?_
    by_cases h : x.run = true ∧ x.source = 2 ∧ x.live = true ∧ 2 ≤ x.missed
    · obtain ⟨_, e⟩ := setLock_only s.b false
      obtain ⟨h1, h2, h3, h4⟩ := h
      rw [if_pos ⟨h1, h2, h3, h4⟩]
      exact actLive_yields ha (if_pos (by simp_all [x])) (by rw [e]; exact hs)
    · rw [if_neg h]
      exact actLive_nop _ hs (if_neg (by simpa [x, and_assoc] using h))

end Sys2Proof.Machine
end

section
/-!
SUPPORT for O45: what a beat mark does (R385 to R390).
-/
namespace Sys2Proof.Machine

/-! ### Measurements -/

/-- The block with a measurement's offset (R386). -/
def offsetSet (b : Blk) (theta : Int) : Blk := { b with beat := { b.beat with offset := theta } }

/-- The offset and the measurements in a row. -/
def offsetGood (b : Blk) (theta : Int) (good : Nat) : Blk := { b with beat := { b.beat with offset := theta, good := good } }

theorem useTheta_adopting {b : Blk} (theta : Int) (h : b.beat.adopt.isSome = true) : useTheta b theta = offsetSet b theta := by
  unfold useTheta
  exact if_pos h

section
variable {b : Blk} {theta : Int} (ha : b.beat.adopt.isSome = false)
include ha

/-- Beyond the guard (R389). -/
theorem useTheta_far (hg : b.beat.grd < theta.natAbs)
    {m : Mark} (hm : (getP (setLock (offsetSet b theta) false) (setLock (offsetSet b theta) false).beat.parent).mark.mark = some m) :
    useTheta b theta = { setLock (offsetSet b theta) false with
      beat := { (setLock (offsetSet b theta) false).beat with adopt := some m.beat, step := -theta, good := 0 } } := by
  unfold useTheta
  dsimp only
  rw [if_neg (by simp [ha]), if_pos hg]
  unfold offsetSet at hm ⊢
  rw [hm]

theorem useTheta_far_none (hg : b.beat.grd < theta.natAbs)
    (hm : (getP (setLock (offsetSet b theta) false) (setLock (offsetSet b theta) false).beat.parent).mark.mark = none) :
    useTheta b theta = setLock (offsetSet b theta) false := by
  unfold useTheta
  dsimp only
  rw [if_neg (by simp [ha]), if_pos hg]
  unfold offsetSet at hm ⊢
  rw [hm]

/-- Within 8 ns (R388). -/
theorem useTheta_near (hg : theta.natAbs ≤ b.beat.grd) (h8 : theta.natAbs ≤ 8) : useTheta b theta =
    if 1 ≤ b.beat.good then setLock (offsetGood b theta (b.beat.good + 1)) true else offsetGood b theta (b.beat.good + 1) := by
  unfold useTheta offsetGood
  dsimp only
  rw [if_neg (by simp [ha]), if_neg (by omega), if_pos h8]
  simp only [Nat.add_le_add_iff_right, show (2 : Nat) = 1 + 1 from rfl]

/-- Within the guard and beyond 8 ns. -/
theorem useTheta_between (hg : theta.natAbs ≤ b.beat.grd) (h8 : 8 < theta.natAbs) : useTheta b theta = offsetGood b theta 0 := by
  unfold useTheta
  dsimp only
  rw [if_neg (by simp [ha]), if_neg (by omega), if_neg (by omega)]
  rfl

end

/-- A measurement changes these of the beat at most (R386, R388, R389). -/
theorem useTheta_only (b : Blk) (theta : Int) : ∃ shadow locked lockLoss offset good adopt step, useTheta b theta = { b with
    shadow := shadow
    beat := { b.beat with
      locked := locked, lockLoss := lockLoss, offset := offset, good := good, adopt := adopt, step := step } } := by
  have hl : ∀ (x : Blk) (v : Bool), ∃ shadow k g, setLock x v = { x with shadow := shadow, beat := { x.beat with locked := v, lockLoss := k, good := g } } :=
    fun x v => by
      obtain ⟨_, h⟩ := setLock_only x v
      obtain ⟨_, _, h'⟩ := relock_only x.beat v
      exact ⟨_, _, _, h'.symm ▸ h⟩
  by_cases ha : b.beat.adopt.isSome = true
  · exact ⟨_, _, _, _, _, _, _, useTheta_adopting theta ha⟩
  · rw [Bool.not_eq_true] at ha
    by_cases hg : b.beat.grd < theta.natAbs
    · obtain ⟨_, _, _, h⟩ := hl (offsetSet b theta) false
      cases hm : (getP (setLock (offsetSet b theta) false) (setLock (offsetSet b theta) false).beat.parent).mark.mark with
      | none => rw [useTheta_far_none ha hg hm, h]; exact ⟨_, _, _, _, _, _, _, rfl⟩
      | some m => rw [useTheta_far ha hg hm, h]; exact ⟨_, _, _, _, _, _, _, rfl⟩
    · by_cases h8 : theta.natAbs ≤ 8
      · rw [useTheta_near ha (Nat.le_of_not_lt hg) h8]
        obtain ⟨_, _, _, h⟩ := hl (offsetGood b theta (b.beat.good + 1)) true
        rw [h]
        split <;> exact ⟨_, _, _, _, _, _, _, rfl⟩
      · rw [useTheta_between ha (Nat.le_of_not_lt hg) (Nat.lt_of_not_le h8)]
        exact ⟨_, _, _, _, _, _, _, rfl⟩

/-! ### Marks -/

/-- The block that has noted a mark of another master, or of another configuration (R390). -/
def noted (b : Blk) (m : Mark) : Blk := if markDiffers b m then { b with beat := { b.beat with mismatch := true } } else b

/-- The block that has reported the first mark of another master (R390). -/
def announced (b : Blk) (n : Nat) (m : Mark) (fresh : Bool) : Blk := if otherMaster b m && fresh then adminEvent b 0x24 n m.masterEp 0 else b

/-- What a mark of the parent means (R388, R389). -/
def markOfParent (b : Blk) (n : Nat) (m : Mark) (v : Option (Int × Int)) : Blk :=
  if parentGone b || !mayParent b (getP b n) then loseParent b
  else (v.map (·.1)).elim { b with beat := { b.beat with dist := m.dist + 1, masterEp := some m.masterEp } }
    (useTheta { b with beat := { b.beat with dist := m.dist + 1, masterEp := some m.masterEp } })

theorem useMark_eq (b : Blk) (n : Nat) (m : Mark) (fresh : Bool) (v : Option (Int × Int)) : useMark b n m fresh v =
    if isMaster (announced (noted b m) n m fresh).beat then announced (noted b m) n m fresh
    else if (announced (noted b m) n m fresh).beat.parent == n then markOfParent (announced (noted b m) n m fresh) n m v
    else seekParent (announced (noted b m) n m fresh) := by
  cases v <;> rfl

theorem announced_ports (b : Blk) (n : Nat) (m : Mark) (fresh : Bool) : (announced b n m fresh).ports = b.ports := by
  unfold announced
  split
  · exact adminEvent_ports ..
  · rfl

theorem seekParent_ports (b : Blk) : (seekParent b).ports = b.ports := by
  obtain ⟨_, _, _, _, _, _, _, _, _, _, h⟩ := seekParent_follows b
  rw [h]

theorem markOfParent_ports (b : Blk) (n : Nat) (m : Mark) (v : Option (Int × Int)) : (markOfParent b n m v).ports = b.ports := by
  unfold markOfParent
  split
  · exact seekParent_ports _
  · cases v with
    | none => rfl
    | some t =>
      obtain ⟨_, _, _, _, _, _, _, h⟩ := useTheta_only { b with beat := { b.beat with dist := m.dist + 1, masterEp := some m.masterEp } } t.1
      simp only [Option.map_some, Option.elim_some]
      rw [h]

/-- What a mark means leaves the ports as they are. -/
theorem useMark_ports (b : Blk) (n : Nat) (m : Mark) (fresh : Bool) (v : Option (Int × Int)) : (useMark b n m fresh v).ports = b.ports := by
  have h : (announced (noted b m) n m fresh).ports = b.ports := by
    rw [announced_ports]
    unfold noted
    split <;> rfl
  rw [useMark_eq]
  split
  · exact h
  · split
    · rw [markOfParent_ports, h]
    · rw [seekParent_ports, h]

/-- It is the first mark that the port has of this master (R390). -/
def firstOf (p : Port) (m : Mark) : Bool := p.mark.mark.all fun k => k.masterEp != m.masterEp

/-- A mark on an UP port that does not wait for its first echo: it is kept, and used while the beat runs. -/
theorem beatMarkFx_keeps {b : Blk} {n : Nat} (m : Mark) (rx : Nat) (hf : framing b n = true) (hu : (getP b n).state = 2)
    (hw : (getP b n).woke = false) : beatMarkFx b n m rx =
      if b.beat.run then useMark (modP b n fun q => { q with mark := markOf b (getP b n) m rx }) n m (firstOf (getP b n) m) (measure b (getP b n) m rx)
      else modP b n fun q => { q with mark := markOf b (getP b n) m rx } := by
  have hfirst : firstOf (getP b n) m = match (getP b n).mark.mark with | some k => k.masterEp != m.masterEp | none => true := by
    unfold firstOf
    cases (getP b n).mark.mark <;> rfl
  unfold beatMarkFx
  rw [if_neg (by simp [hf, hu]), hfirst]
  dsimp only
  rw [hw]
  cases hr : b.beat.run with
  | false => cases measure b (getP b n) m rx <;> simp [modP, hr]
  | true => cases measure b (getP b n) m rx <;> simp [modP, hr] <;> rfl

/-- A mark from the parent, which may remain it: no difference is noted and nothing is announced. -/
theorem useMark_parent {b : Blk} {n : Nat} {m : Mark} (fresh : Bool) (v : Option (Int × Int)) (hma : isMaster b.beat = false)
    (hpa : b.beat.parent = n) (hep : b.beat.masterEp = some m.masterEp) (hp : m.period = b.beat.per) (hg : m.guard = b.beat.grd)
    (hd : m.dipLen = b.beat.dip) (hgone : parentGone b = false) (hmay : mayParent b (getP b n) = true) : useMark b n m fresh v =
      (v.map (·.1)).elim { b with beat := { b.beat with dist := m.dist + 1, masterEp := some m.masterEp } }
        (useTheta { b with beat := { b.beat with dist := m.dist + 1, masterEp := some m.masterEp } }) := by
  have hn : noted b m = b := by
    unfold noted markDiffers
    rw [hep]
    simp [hp, hg, hd]
  have ha : announced b n m fresh = b := by
    unfold announced otherMaster
    rw [hep]
    simp
  rw [useMark_eq, hn, ha, if_neg (by simp [hma]), if_pos (by simp [hpa])]
  unfold markOfParent
  rw [if_neg (by simp [hgone, hmay])]

end Sys2Proof.Machine
end

section
/-!
SUPPORT for O45: marks of the parent, and the choice of another one (R385 to R390).
-/
namespace Sys2Proof.Machine

/-! ### Measurements against the parent -/

theorem setLock_getP (b : Blk) (v : Bool) (n : Nat) : getP (setLock b v) n = getP b n := by
  obtain ⟨_, h⟩ := setLock_only b v
  rw [h]
  rfl

theorem setLock_parent (b : Blk) (v : Bool) : (setLock b v).beat.parent = b.beat.parent := by
  obtain ⟨_, h⟩ := setLock_only b v
  obtain ⟨_, _, h'⟩ := relock_only b.beat v
  rw [h, h']

theorem setLock_offset (b : Blk) (v : Bool) : (setLock b v).beat.offset = b.beat.offset := by
  obtain ⟨_, h⟩ := setLock_only b v
  obtain ⟨_, _, h'⟩ := relock_only b.beat v
  rw [h, h']

theorem setLock_locked (b : Blk) (v : Bool) : (setLock b v).beat.locked = v := by
  obtain ⟨_, h⟩ := setLock_only b v
  rw [h]
  exact relock_locked ..

section
variable {b : Blk} {theta : Int} (ha : b.beat.adopt = none)
include ha

/-- Beyond the guard LOCKED clears, and the parent's count is adopted at the next beat (R389). -/
theorem useTheta_unlocks (hg : b.beat.grd < theta.natAbs) {m : Mark} (hm : (getP b b.beat.parent).mark.mark = some m) :
    (useTheta b theta).beat.locked = false ∧ (useTheta b theta).beat.adopt = some m.beat ∧ (useTheta b theta).beat.step = -theta := by
  have hm' : (getP (setLock (offsetSet b theta) false) (setLock (offsetSet b theta) false).beat.parent).mark.mark = some m := by
    rw [setLock_getP, setLock_parent]
    exact hm
  rw [useTheta_far (by rw [ha]; rfl) hg hm']
  exact ⟨setLock_locked .., rfl, rfl⟩

/-- The second measurement in a row within 8 ns locks (R388). -/
theorem useTheta_locks (hg : theta.natAbs ≤ b.beat.grd) (h8 : theta.natAbs ≤ 8) (h1 : 1 ≤ b.beat.good) : (useTheta b theta).beat.locked = true := by
  rw [useTheta_near (by rw [ha]; rfl) hg h8, if_pos h1]
  exact setLock_locked ..

end

/-- OFFSET is the last measurement (R386). -/
theorem useTheta_offset (b : Blk) (theta : Int) : (useTheta b theta).beat.offset = theta := by
  cases ha : b.beat.adopt.isSome with
  | true => rw [useTheta_adopting theta ha]; rfl
  | false =>
    by_cases hg : b.beat.grd < theta.natAbs
    · cases hm : (getP (setLock (offsetSet b theta) false) (setLock (offsetSet b theta) false).beat.parent).mark.mark with
      | none => rw [useTheta_far_none ha hg hm, setLock_offset]; rfl
      | some m => rw [useTheta_far ha hg hm]; exact setLock_offset ..
    · by_cases h8 : theta.natAbs ≤ 8
      · rw [useTheta_near ha (Nat.le_of_not_lt hg) h8]
        split
        · exact setLock_offset ..
        · rfl
      · rw [useTheta_between ha (Nat.le_of_not_lt hg) (Nat.lt_of_not_le h8)]
        rfl

/-- A measurement keeps the parent and the distance. -/
theorem useTheta_follows (b : Blk) (theta : Int) : (useTheta b theta).beat.parent = b.beat.parent ∧ (useTheta b theta).beat.dist = b.beat.dist := by
  obtain ⟨_, _, _, _, _, _, _, h⟩ := useTheta_only b theta
  rw [h]
  exact ⟨rfl, rfl⟩

/-! ### A mark that its port keeps -/

/-- The block whose port keeps a mark (R385, R386). -/
def markKept (b : Blk) (n : Nat) (m : Mark) (rx : Nat) : Blk := modP b n fun q => { q with mark := markOf b (getP b n) m rx }

/-- A port whose frames run is not asleep. -/
theorem framing_awake {b : Blk} {n : Nat} (hf : framing b n = true) (hu : (getP b n).state = 2) : portAwake (getP b n) = true := by
  simp only [framing, Bool.and_eq_true] at hf
  obtain ⟨⟨_, hs⟩, _⟩ := hf
  simp only [portAwake, Bool.and_eq_true]
  exact ⟨beq_iff_eq.mpr hu, hs⟩

section
variable {b : Blk} {n : Nat} {m : Mark} {rx : Nat} (hn : n < b.ports.length)
include hn

theorem markKept_port : getP (markKept b n m rx) n = { getP b n with mark := markOf b (getP b n) m rx } := getP_modP_same b _ hn

/-- A parent whose mark has just come with LOCKED is there. -/
theorem parentGone_markKept (hu : (getP b n).state = 2) (hp : b.beat.parent = n) (hl : m.locked = true) :
    parentGone (markKept b n m rx) = false := by
  have e : getP (markKept b n m rx) (markKept b n m rx).beat.parent = { getP b n with mark := markOf b (getP b n) m rx } := by
    rw [show (markKept b n m rx).beat.parent = n from hp]
    exact markKept_port hn
  unfold parentGone
  rw [e]
  simp [hu, hl, markOf]

/-- A mark with LOCKED, a DIST below 254 and this engine's periods lets its port be the parent (R388). -/
theorem mayParent_markKept (haw : portAwake (getP b n) = true) (hl : m.locked = true) (hd : m.dist < 254) (hper : m.period = b.beat.per)
    (hgrd : m.guard = b.beat.grd) (hdip : m.dipLen = b.beat.dip) : mayParent (markKept b n m rx) (getP (markKept b n m rx) n) = true := by
  rw [markKept_port hn]
  unfold mayParent
  rw [show portAwake { getP b n with mark := markOf b (getP b n) m rx } = portAwake (getP b n) from rfl, haw]
  simp [markOf, markKept, modP, hl, hd, hper, hgrd, hdip]

end

/-! ### A lost parent -/

/-- The block that has lost its parent (R389). -/
def orphaned (b : Blk) : Blk := { b with beat := { b.beat with parent := 63, dist := 255, lostBeat := some b.beat.count, adopt := none } }

/-- The choice of a parent does not depend on the one that was lost. -/
theorem choose_orphaned (b : Blk) : choose (orphaned b) = choose b := rfl

theorem parentLost_none {b : Blk} (h : choose b = none) : loseParent b = orphaned b := by
  change seekParent (orphaned b) = _
  unfold seekParent
  rw [choose_orphaned, h]
  exact ite_self _

theorem parentLost_some {b : Blk} (hr : b.beat.run = true) (hm : isMaster b.beat = false) {n : Nat} {m : Mark} (h : choose b = some (n, m)) :
    loseParent b = takeParent (orphaned b) n m := by
  change seekParent (orphaned b) = _
  unfold seekParent
  rw [choose_orphaned, h]
  refine if_neg ?_
  rw [show isMaster (orphaned b).beat = isMaster b.beat from rfl, hm]
  simp [orphaned, hr]

end Sys2Proof.Machine
end

section
/-!
SUPPORT for O45: ports that go down, and engines that are lost (R332, R389 to R394).
-/
namespace Sys2Proof.Machine

/-! ### A port that goes down -/

/-- All that a change of one port in service can touch: that port, and the commands, functions and halyards that follow it. -/
def TouchesPort (n : Nat) (b b' : Blk) : Prop := ∃ g fns memp stores pens cmds dlck haly, b' = { b with
  fns := fns, memp := memp, stores := stores, pens := pens, cmds := cmds, dlck := dlck
  t := { b.t with haly := haly }
  ports := b.ports.modify n g }

namespace TouchesPort

theorem modP (b : Blk) (n : Nat) (g : Port → Port) : TouchesPort n b (modP b n g) := ⟨g, _, _, _, _, _, _, _, rfl⟩

theorem refl (b : Blk) (n : Nat) : TouchesPort n b b := ⟨id, _, _, _, _, _, _, _, by rw [List.modify_id]⟩

theorem trans {n : Nat} {b b' b'' : Blk} (h : TouchesPort n b b') (h' : TouchesPort n b' b'') : TouchesPort n b b'' := by
  obtain ⟨g, _, _, _, _, _, _, _, rfl⟩ := h
  obtain ⟨g', _, _, _, _, _, _, _, rfl⟩ := h'
  exact ⟨g' ∘ g, _, _, _, _, _, _, _, by rw [List.modify_modify_eq]⟩

theorem adminEvent (b : Blk) (n code info a0 a1 : Nat) : TouchesPort n b (adminEvent b code info a0 a1) := by
  unfold Machine.adminEvent
  rw [event_eq]
  exact ⟨id, _, _, _, _, _, _, _, by rw [List.modify_id]⟩

theorem dropPort (b : Blk) (n : Nat) : TouchesPort n b (dropPort b n) := ⟨dropHeld, _, _, _, _, _, _, _, rfl⟩

theorem endRekey (b : Blk) (n : Nat) : TouchesPort n b (endRekey b n) :=
  foldl_keeps (TouchesPort n b) _ _ _ (.modP ..) fun x c h => h.trans (by
    rw [endCmd_eq]
    exact ⟨id, _, _, _, _, _, _, _, by rw [List.modify_id]⟩)

theorem fenceLink (b : Blk) (n cause : Nat) : TouchesPort n b (fenceLink b n cause) := by
  unfold Machine.fenceLink
  extract_lets p b1 b2 b3
  split
  · exact .refl ..
  · have h1 : TouchesPort n b b1 := .dropPort ..
    have h2 : TouchesPort n b b2 := (h1.trans (.endRekey ..)).trans (.modP ..)
    have h3 : TouchesPort n b b3 := h2.trans (.adminEvent ..)
    exact h3.trans (.adminEvent ..)

theorem linkDown (b : Blk) (n : Nat) : TouchesPort n b (linkDown b n) := by
  unfold Machine.linkDown
  extract_lets p recent b1 b2 b3
  split
  · exact .refl ..
  · have h1 : TouchesPort n b b1 := .modP ..
    split
    · exact h1.trans (.fenceLink ..)
    · have h2 : TouchesPort n b b2 := (h1.trans (.dropPort ..)).trans (.endRekey ..)
      exact (h2.trans (.modP ..)).trans (.adminEvent ..)

section
variable {n : Nat} {b b' : Blk} (h : TouchesPort n b b')
include h

theorem beat : b'.beat = b.beat := by obtain ⟨_, _, _, _, _, _, _, _, rfl⟩ := h; rfl
theorem part : b'.part = b.part := by obtain ⟨_, _, _, _, _, _, _, _, rfl⟩ := h; rfl
theorem group : b'.t.group = b.t.group := by obtain ⟨_, _, _, _, _, _, _, _, rfl⟩ := h; rfl
theorem roster : b'.t.roster = b.t.roster := by obtain ⟨_, _, _, _, _, _, _, _, rfl⟩ := h; rfl
theorem length : b'.ports.length = b.ports.length := by obtain ⟨_, _, _, _, _, _, _, _, rfl⟩ := h; exact List.length_modify ..

theorem other {k : Nat} (hk : k ≠ n) : getP b' k = getP b k := by
  obtain ⟨g, _, _, _, _, _, _, _, rfl⟩ := h
  exact getD_modify_other _ _ _ _ _ hk

end

end TouchesPort

/-! ### Several ports that go down -/

/-- What a walk that takes ports down leaves as it was. -/
structure KeepsEngine (b b' : Blk) : Prop where
  beat : b'.beat = b.beat
  group : b'.t.group = b.t.group
  roster : b'.t.roster = b.t.roster

theorem TouchesPort.keepsEngine {n : Nat} {b b' : Blk} (h : TouchesPort n b b') : KeepsEngine b b' := ⟨h.beat, h.group, h.roster⟩

theorem KeepsEngine.trans {b b' b'' : Blk} (h : KeepsEngine b b') (h' : KeepsEngine b' b'') : KeepsEngine b b'' :=
  ⟨h'.beat.trans h.beat, h'.group.trans h.group, h'.roster.trans h.roster⟩

theorem foldl_linkDown_keepsEngine (ns : List Nat) (b : Blk) : KeepsEngine b (ns.foldl linkDown b) :=
  foldl_keeps (KeepsEngine b) _ _ _ ⟨rfl, rfl, rfl⟩ fun x n h => h.trans (TouchesPort.linkDown x n).keepsEngine

theorem foldl_linkDown_other (ns : List Nat) (b : Blk) {k : Nat} (hk : k ∉ ns) : getP (ns.foldl linkDown b) k = getP b k := by
  induction ns generalizing b with
  | nil => rfl
  | cons n r ih =>
    simp only [List.mem_cons, not_or] at hk
    obtain ⟨hn, hr⟩ := hk
    exact (ih _ hr).trans ((TouchesPort.linkDown b n).other hn)

/-- Each UP port of the walk has left UP (R332). -/
theorem foldl_linkDown_down {ns : List Nat} (hd : ns.Nodup) (b : Blk) {k : Nat} (hk : k ∈ ns) (he : portExists b k = true)
    (hu : (getP b k).state = 2) (hn : k < b.ports.length) : (getP (ns.foldl linkDown b) k).state ≠ 2 := by
  induction ns generalizing b with
  | nil => exact absurd hk List.not_mem_nil
  | cons n r ih =>
    obtain ⟨hnr, hr⟩ := List.nodup_cons.mp hd
    have ht := TouchesPort.linkDown b n
    by_cases e : k = n
    · subst e
      rw [List.foldl_cons, foldl_linkDown_other r _ hnr]
      exact (linkDown_wentDown he hu hn).state
    · refine ih hr _ ((List.mem_cons.mp hk).resolve_left e) ?_ ?_ ?_
      · rw [portExists_congr ht.part]; exact he
      · rw [ht.other e]; exact hu
      · rw [ht.length]; exact hn

/-! ### Lost engines -/

theorem applyBreak_beat (b : Blk) (h cause : Nat) (ranks : List Nat) (stamp : Nat) : (applyBreak b h cause ranks stamp).beat = b.beat := by
  obtain ⟨_, hr⟩ := markRanks_only b (tget group0 b.t.group h) cause ranks
  unfold applyBreak
  dsimp only
  rw [hr]
  split
  · rfl
  · split
    · rfl
    · rw [groupEvent_eq]
      dsimp only
      rw [abandon_eq]
      dsimp only
      rw [groupStreamsError_eq]
      dsimp only
      rw [endGenCmds_eq]
      rfl

theorem detectBreak_beat (b : Blk) (h cause : Nat) (ranks : List Nat) : (detectBreak b h cause ranks).beat = b.beat := by
  unfold detectBreak
  dsimp only
  split
  · rfl
  · obtain ⟨_, _, hn⟩ := breakNotices_only b (tget group0 b.t.group h) cause ranks (beatNow b)
    rw [applyBreak_beat, hn]

/-- A group without a rank at a place breaks there for nothing. -/
theorem detectBreak_nobody (b : Blk) (h cause : Nat) : detectBreak b h cause [] = b := by
  unfold detectBreak
  simp

theorem loseEngine_beat (b : Blk) (ep : Nat) : (loseEngine b ep).beat = b.beat :=
  foldl_keeps (fun x : Blk => x.beat = b.beat) _ _ _ rfl fun _ _ h => (detectBreak_beat ..).trans h

theorem ranksAt_congr {b b' : Blk} (h : b'.t.roster = b.t.roster) (g : Group) (ep : Nat) : ranksAt b' g ep = ranksAt b g ep := by
  unfold ranksAt rosterOf
  rw [h]

/-- An engine that no group has a member at is lost without consequence. -/
theorem loseEngine_nobody {b : Blk} {ep : Nat} (h : ∀ e ∈ b.t.group, e.2.valid = true → ranksAt b e.2 ep = []) : loseEngine b ep = b := by
  unfold loseEngine
  have hl : ∀ e ∈ b.t.group.filter (·.2.valid), ranksAt b e.2 ep = [] := fun e he => h e (List.mem_filter.mp he).1 (List.mem_filter.mp he).2
  generalize b.t.group.filter (·.2.valid) = l at hl
  induction l with
  | nil => rfl
  | cons e r ih =>
    rw [List.foldl_cons, hl e List.mem_cons_self, detectBreak_nobody]
    exact ih fun x hx => hl x (List.mem_cons_of_mem _ hx)

/-! ### Absent partners -/

/-- The block that has marked an endpoint absent (R394). -/
def absentMarked (b : Blk) (ep : Nat) : Blk :=
  { b with beat := { b.beat with seen := b.beat.seen.map fun (x : Seen) => if x.ep == ep then { x with absent := true } else x } }

/-- The UP ports to an endpoint. -/
def portsTo (b : Blk) (ep : Nat) : List Nat := (List.range 42).filter fun n => (getP b n).state == 2 && (getP b n).partnerEp == ep

/-- The block that has taken them down. -/
def cutOff (b : Blk) (ep : Nat) : Blk := (portsTo b ep).foldl linkDown (absentMarked b ep)

theorem partnerAbsentFx_absent {b : Blk} {ep : Nat} (h : isAbsent b ep = true) :
    partnerAbsentFx b ep = loseEngine (adminEvent (cutOff b ep) 0x22 0 ep (beatNow (cutOff b ep))) ep := by
  unfold partnerAbsentFx
  rw [if_neg (by simp [h])]
  rfl

theorem mem_portsTo {b : Blk} {ep n : Nat} (he : portExists b n = true) (hu : (getP b n).state = 2) (hp : (getP b n).partnerEp = ep) :
    n ∈ portsTo b ep := by
  simp only [portExists, Bool.and_eq_true, decide_eq_true_eq] at he
  simp [portsTo, he.1, hu, hp]

theorem portsTo_nodup (b : Blk) (ep : Nat) : (portsTo b ep).Nodup := List.nodup_range.filter _

theorem cutOff_event_keepsEngine (b : Blk) (ep code info a0 a1 : Nat) : KeepsEngine (absentMarked b ep) (adminEvent (cutOff b ep) code info a0 a1) :=
  (foldl_linkDown_keepsEngine ..).trans (TouchesPort.adminEvent (cutOff b ep) 0 code info a0 a1).keepsEngine

theorem partnerAbsentFx_seen {b : Blk} {ep : Nat} (h : isAbsent b ep = true) : ∀ e ∈ (partnerAbsentFx b ep).beat.seen, e.ep = ep → e.absent = true := by
  rw [partnerAbsentFx_absent h, loseEngine_beat, (cutOff_event_keepsEngine ..).beat]
  intro e he hep
  obtain ⟨x, _, rfl⟩ := List.mem_map.mp he
  split at hep
  · rw [if_pos ‹_›]
  · exact absurd (beq_iff_eq.mpr hep) ‹_›

/-- Where no group has a member at the endpoint, its UP ports leave UP. -/
theorem partnerAbsentFx_down {b : Blk} {ep n : Nat} (h : isAbsent b ep = true)
    (hg : ∀ e ∈ b.t.group, e.2.valid = true → ranksAt b e.2 ep = []) (hn : n < b.ports.length) (he : portExists b n = true)
    (hu : (getP b n).state = 2) (hp : (getP b n).partnerEp = ep) : (getP (partnerAbsentFx b ep) n).state ≠ 2 := by
  have hk := cutOff_event_keepsEngine b ep 0x22 0 ep (beatNow (cutOff b ep))
  have hnone : ∀ e ∈ (adminEvent (cutOff b ep) 0x22 0 ep (beatNow (cutOff b ep))).t.group, e.2.valid = true →
      ranksAt (adminEvent (cutOff b ep) 0x22 0 ep (beatNow (cutOff b ep))) e.2 ep = [] := by
    rw [hk.group]
    exact fun e he hv => (ranksAt_congr hk.roster e.2 ep).trans (hg e he hv)
  rw [partnerAbsentFx_absent h, loseEngine_nobody hnone, getP_congr (adminEvent_ports ..)]
  exact foldl_linkDown_down (portsTo_nodup b ep) (absentMarked b ep) (mem_portsTo he hu hp) he hu hn

end Sys2Proof.Machine
end

section
/-!
SUPPORT for O45: what a deadlock's record and the carries after it leave of the function's page (R476 to R479, R512).
-/
namespace Sys2Proof.Machine

/-- Every record is one line at least. -/
theorem logRecord_line (n : Fn) (kind sub q rseq tag a : Nat) (ws : List Nat) (rest : List Byte) :
    1 ≤ (logRecord n kind sub q rseq tag a ws rest).length / 64 := by
  rw [Nat.le_div_iff_mul_le (by decide)]
  unfold logRecord
  simp
  omega

/-! ### An enabled page -/

/-- The page of an enabled function keeps its deadlock state, and its head does not go back. -/
structure KeepsPage (f : Nat) (b b' : Blk) : Prop where
  enabled : (getFn b' f).enabled = (getFn b f).enabled
  deadlocked : (getFn b' f).deadlocked = (getFn b f).deadlocked
  episodes : (getFn b' f).episodes = (getFn b f).episodes
  head : (getFn b f).head ≤ (getFn b' f).head

namespace KeepsPage

theorem of_page {f : Nat} {b b' : Blk} (h : getFn b' f = getFn b f) : KeepsPage f b b' := by
  constructor <;> rw [h]

theorem trans {f : Nat} {b b' b'' : Blk} (h : KeepsPage f b b') (h' : KeepsPage f b' b'') : KeepsPage f b b'' :=
  ⟨h'.enabled.trans h.enabled, h'.deadlocked.trans h.deadlocked, h'.episodes.trans h.episodes, h.head.trans h'.head⟩

theorem event (f code q info a0 a1 : Nat) (b : Blk) (g : Nat) : KeepsPage f b (event b g code q info a0 a1) := by
  have h := event_keeps (fun n => (n.enabled, n.deadlocked, n.episodes, n.head)) (fun _ _ => rfl) (fun _ _ _ => rfl) (fun _ _ => rfl)
    b g code q info a0 a1 f
  simp only [Prod.mk.injEq] at h
  obtain ⟨he, hd, hp, hh⟩ := h
  exact ⟨he, hd, hp, hh.ge⟩

end KeepsPage

/-! ### Records and carries -/

theorem streams_fns (b : Blk) (str : Tab Stream) : ({ b with t := { b.t with stream := str } } : Blk).fns = b.fns := rfl

theorem streams_dlck (b : Blk) (str : Tab Stream) : ({ b with t := { b.t with stream := str } } : Blk).dlck = b.dlck := rfl

section
variable {b : Blk} {f : Nat} (he : (getFn b f).enabled = true)
include he

/-- A record moves its function's head by its lines. -/
theorem getFn_appendLog (bs : List Byte) : getFn (appendLog b f bs) f =
    { getFn b f with head := (getFn b f).head + bs.length / 64, moved := true } := by
  have hs : ∀ l : List (Nat × List Byte), (l.foldl (fun b x => fnStore b f 0 x.1 x.2) b).fns = b.fns := fun l =>
    foldl_keeps (fun x : Blk => x.fns = b.fns) _ _ _ rfl fun x a h => (fnStore_fns x f 0 a.1 a.2).trans h
  unfold appendLog
  extract_lets n b1
  have h1 : getFn b1 f = getFn b f := congrArg (fun t => tget fn0 t f) (hs _)
  rw [getFn_modFn b1 f _ (enabled_ne (by rw [h1]; exact he)), h1]

theorem appendLog_keepsPage (bs : List Byte) : KeepsPage f b (appendLog b f bs) := by
  have h := getFn_appendLog he bs
  constructor <;> rw [h]
  exact Nat.le_add_right ..

theorem writeAnchor_keepsPage : KeepsPage f b (writeAnchor b f) := by
  unfold writeAnchor
  extract_lets n tail b1
  have h1 : getFn b1 f = getFn b f := congrArg (fun t => tget fn0 t f) (fnStore_fns ..)
  have h2 : getFn (modFn b1 f fun n => { n with tailAnchor := tail }) f = { getFn b f with tailAnchor := tail } := by
    rw [getFn_modFn b1 f _ (enabled_ne (by rw [h1]; exact he)), h1]
  constructor <;> rw [h2]

theorem carryOne_keepsPage : KeepsPage f b (carryOne b f) := by
  -- The record, a change of commands or streams, then the anchor.
  have hw : ∀ {x : Blk} (bs : List Byte), x.fns = (appendLog b f bs).fns → KeepsPage f b (writeAnchor x f) := fun bs hx => by
    have h := (appendLog_keepsPage he bs).trans (.of_page (congrArg (fun t => tget fn0 t f) hx))
    exact h.trans (writeAnchor_keepsPage (h.enabled.trans he))
  unfold carryOne
  extract_lets tail n
  split
  · split
    extract_lets bs
    exact hw bs (modCmd_fns ..)
  · split
    · split
      extract_lets bs b1
      exact hw bs (streams_fns b1 _)
    · exact writeAnchor_keepsPage he

end

theorem carryIfShort_keepsPage {b : Blk} {f : Nat} (he : (getFn b f).enabled = true) : KeepsPage f b (carryIfShort b f) := by
  unfold carryIfShort
  generalize b.cmds.length + b.t.stream.length + 1 = k
  induction k generalizing b with
  | zero => exact .of_page rfl
  | succ k ih =>
    unfold carryLoop
    split
    · have h := carryOne_keepsPage he
      exact h.trans (ih (h.enabled.trans he))
    · exact .of_page rfl

theorem appendLog_dlck (b : Blk) (f : Nat) (bs : List Byte) : (appendLog b f bs).dlck = b.dlck := by rw [appendLog_eq]

theorem writeAnchor_dlck (b : Blk) (f : Nat) : (writeAnchor b f).dlck = b.dlck := by
  obtain ⟨_, _, h⟩ := writeAnchor_only b f
  rw [h]

theorem adminEvent_dlck (b : Blk) (code info a0 a1 : Nat) : (adminEvent b code info a0 a1).dlck = b.dlck := by
  unfold adminEvent
  rw [event_eq]

theorem carryOne_dlck (b : Blk) (f : Nat) : (carryOne b f).dlck = b.dlck := by
  unfold carryOne
  extract_lets tail n
  split
  · split
    extract_lets bs
    rw [writeAnchor_dlck, modCmd_dlck, appendLog_dlck]
  · split
    · split
      extract_lets bs b1
      exact (writeAnchor_dlck _ f).trans ((streams_dlck b1 _).trans (appendLog_dlck b f bs))
    · exact writeAnchor_dlck ..

theorem carryIfShort_dlck (b : Blk) (f : Nat) : (carryIfShort b f).dlck = b.dlck := by
  unfold carryIfShort
  generalize b.cmds.length + b.t.stream.length + 1 = k
  induction k generalizing b with
  | zero => rfl
  | succ k ih =>
    unfold carryLoop
    split
    · exact (ih _).trans (carryOne_dlck ..)
    · rfl

/-! ### Deadlocks -/

/-- The page of a function that has reported a deadlock (R476). -/
def deadlockedPage (n : Fn) (episode : Nat) : Fn := { n with episodes := episode, deadlocked := true, moved := false }

/-- A function's deadlock: its record, its page, the carries and the event. -/
theorem deadlockFx_reports {b : Blk} {f : Nat} (ht : tb b.ctl.penDlck.force.toNat 63 = true) (hd : (getFn b f).deadlocked = false)
    (hb : fnBeats b ≤ (getFn b f).stillBeats) (hs : stalled b f = true) (hl : fnLive b f = true) : ∃ n kind sub q rseq tag a ws rest lsn,
      deadlockFx b f = event (carryIfShort (modFn (appendLog b f (logRecord n kind sub q rseq tag a ws rest)) f
        fun n => deadlockedPage n ((getFn b f).episodes + 1)) f) f 0x0C 0 0 ((getFn b f).episodes + 1) lsn := by
  unfold deadlockFx
  dsimp only
  rw [if_neg (by simp [ht, hd, hs, hl, hb])]
  exact ⟨_, _, _, _, _, _, _, _, _, _, rfl⟩

theorem stalled_live {b : Blk} {f : Nat} (h : stalled b f = true) : fnLive b f = true := by
  simp only [stalled, Bool.and_eq_true] at h
  obtain ⟨⟨hl, _⟩, _⟩ := h
  exact hl

theorem deadlockFx_page {b : Blk} {f : Nat} (ht : tb b.ctl.penDlck.force.toNat 63 = true) (hd : (getFn b f).deadlocked = false)
    (hb : fnBeats b ≤ (getFn b f).stillBeats) (hs : stalled b f = true) : (getFn (deadlockFx b f) f).deadlocked = true ∧
      (getFn (deadlockFx b f) f).episodes = (getFn b f).episodes + 1 ∧ (getFn b f).head < (getFn (deadlockFx b f) f).head := by
  have he := live_enabled (stalled_live hs)
  obtain ⟨n, kind, sub, q, rseq, tag, a, ws, rest, lsn, h⟩ := deadlockFx_reports ht hd hb hs (stalled_live hs)
  have hline := logRecord_line n kind sub q rseq tag a ws rest
  rw [h]
  generalize logRecord n kind sub q rseq tag a ws rest = bs at hline
  have hlog := getFn_appendLog he bs
  have hpage : getFn (modFn (appendLog b f bs) f fun n => deadlockedPage n ((getFn b f).episodes + 1)) f =
      deadlockedPage (getFn (appendLog b f bs) f) ((getFn b f).episodes + 1) :=
    getFn_modFn _ _ _ (enabled_ne (by rw [hlog]; exact he))
  rw [hlog] at hpage
  have hk := (carryIfShort_keepsPage (b := modFn (appendLog b f bs) f fun n => deadlockedPage n ((getFn b f).episodes + 1)) (f := f)
    (by rw [hpage]; exact he)).trans (.event f 0x0C 0 0 ((getFn b f).episodes + 1) lsn _ f)
  refine ⟨?_, ?_, ?_⟩
  · rw [hk.deadlocked, hpage]; rfl
  · rw [hk.episodes, hpage]; rfl
  · refine Nat.lt_of_lt_of_le ?_ hk.head
    rw [hpage]
    exact Nat.lt_add_of_pos_right hline

/-! ### The block's deadlock -/

/-- The block that has counted its deadlock (R479). -/
def blockCounted (b : Blk) (base : Blk) : Blk :=
  modFn { base with dlck := { base.dlck with episodes := b.dlck.episodes + 1, reported := true } } 0 fun n => { n with moved := false }

/-- The block's deadlock: a record where function 0 proceeds, the carries and the event. -/
theorem blockDeadlockFx_reports {b : Blk} (ht : tb b.ctl.penDlck.force.toNat 63 = true) (ht' : tb b.ctl.penDlck.force.toNat 62 = true)
    (hr : b.dlck.reported = false) (hb : blkBeats b ≤ b.dlck.still) : ∃ n kind sub q rseq tag a ws rest lsn,
      blockDeadlockFx b = adminEvent (carryIfShort (blockCounted b
        (if fnLive b 0 then appendLog b 0 (logRecord n kind sub q rseq tag a ws rest) else b)) 0) 0x0D 0 (b.dlck.episodes + 1) lsn := by
  unfold blockDeadlockFx
  dsimp only
  rw [if_neg (by simp [ht, ht', hr, hb])]
  exact ⟨_, _, _, _, _, _, _, _, _, _, rfl⟩

theorem blockDeadlockFx_dlck {b : Blk} (ht : tb b.ctl.penDlck.force.toNat 63 = true) (ht' : tb b.ctl.penDlck.force.toNat 62 = true)
    (hr : b.dlck.reported = false) (hb : blkBeats b ≤ b.dlck.still) :
    (blockDeadlockFx b).dlck = { b.dlck with episodes := b.dlck.episodes + 1, reported := true } := by
  obtain ⟨n, kind, sub, q, rseq, tag, a, ws, rest, lsn, h⟩ := blockDeadlockFx_reports ht ht' hr hb
  rw [h, adminEvent_dlck, carryIfShort_dlck]
  unfold blockCounted
  split
  · rw [appendLog_eq]; rfl
  · rfl

theorem blockDeadlockFx_head {b : Blk} (ht : tb b.ctl.penDlck.force.toNat 63 = true) (ht' : tb b.ctl.penDlck.force.toNat 62 = true)
    (hr : b.dlck.reported = false) (hb : blkBeats b ≤ b.dlck.still) (hl : fnLive b 0 = true) :
    (getFn b 0).head < (getFn (blockDeadlockFx b) 0).head := by
  have he := live_enabled hl
  obtain ⟨n, kind, sub, q, rseq, tag, a, ws, rest, lsn, h⟩ := blockDeadlockFx_reports ht ht' hr hb
  have hline := logRecord_line n kind sub q rseq tag a ws rest
  rw [h, if_pos hl]
  generalize logRecord n kind sub q rseq tag a ws rest = bs at hline
  have hlog := getFn_appendLog he bs
  have hpage : getFn (blockCounted b (appendLog b 0 bs)) 0 = { getFn (appendLog b 0 bs) 0 with moved := false } :=
    getFn_modFn _ _ _ (enabled_ne (by change (getFn (appendLog b 0 bs) 0).enabled = true; rw [hlog]; exact he))
  rw [hlog] at hpage
  have hk := (carryIfShort_keepsPage (b := blockCounted b (appendLog b 0 bs)) (f := 0) (by rw [hpage]; exact he)).trans
    (.event 0 0x0D 0 0 (b.dlck.episodes + 1) lsn _ 0)
  refine Nat.lt_of_lt_of_le ?_ hk.head
  rw [hpage]
  exact Nat.lt_add_of_pos_right hline

end Sys2Proof.Machine
end

section
/-!
O45: beat partners and deadlock (R385 to R394, R476 to R479).
-/
namespace Sys2Proof.Machine

/-- The block that has taken DIST from its parent's mark (R388). -/
def distTaken (b : Blk) (n : Nat) (m : Mark) (rx : Nat) : Blk :=
  { markKept b n m rx with beat := { b.beat with dist := m.dist + 1, masterEp := some m.masterEp } }

/-- What a measurement against the parent leaves of the beat, and what a mark without one does (R386, R388, R389). -/
theorem parentMeasured_beat {b : Blk} {n : Nat} {m : Mark} {rx : Nat} (hn : n < b.ports.length) (hpa : b.beat.parent = n)
    (had : b.beat.adopt = none) (v : Option (Int × Int)) :
    let y := ((v.map (·.1)).elim (distTaken b n m rx) (useTheta (distTaken b n m rx))).beat
    y.dist = m.dist + 1 ∧ y.parent = n ∧ (v = none → y.offset = b.beat.offset ∧ y.locked = b.beat.locked) ∧
      ∀ th d, v = some (th, d) → y.offset = th ∧
        (th.natAbs ≤ 8 → th.natAbs ≤ b.beat.grd → 1 ≤ b.beat.good → y.locked = true) ∧
        (b.beat.grd < th.natAbs → y.locked = false ∧ y.adopt = some m.beat ∧ y.step = -th) := by
  have hm : (getP (distTaken b n m rx) (distTaken b n m rx).beat.parent).mark.mark = some m := by
    rw [show (distTaken b n m rx).beat.parent = n from hpa, show getP (distTaken b n m rx) n = getP (markKept b n m rx) n from rfl,
      markKept_port hn]
    rfl
  cases v with
  | none => exact ⟨rfl, hpa, fun _ => ⟨rfl, rfl⟩, fun _ _ h => nomatch h⟩
  | some t =>
    obtain ⟨hp, hd⟩ := useTheta_follows (distTaken b n m rx) t.1
    refine ⟨hd, hp.trans hpa, fun h => absurd h (Option.some_ne_none t), fun th d h => ?_⟩
    obtain rfl : t = (th, d) := Option.some.inj h
    exact ⟨useTheta_offset .., fun h8 hg h1 => useTheta_locks (b := distTaken b n m rx) had hg h8 h1, fun hg => useTheta_unlocks (b := distTaken b n m rx) had hg hm⟩

/-- A mark of the parent that may remain it gives DIST, and OFFSET where it was measured (R388). -/
theorem beatMarkFx_parent {b : Blk} {n : Nat} {m : Mark} (rx : Nat) (hf : framing b n = true) (hu : (getP b n).state = 2)
    (hw : (getP b n).woke = false) (hn : n < b.ports.length) (hr : b.beat.run = true) (hma : isMaster b.beat = false)
    (hpa : b.beat.parent = n) (hep : b.beat.masterEp = some m.masterEp) (hl : m.locked = true) (hd : m.dist < 254)
    (hper : m.period = b.beat.per) (hgrd : m.guard = b.beat.grd) (hdip : m.dipLen = b.beat.dip) :
    beatMarkFx b n m rx = ((measure b (getP b n) m rx).map (·.1)).elim (distTaken b n m rx) (useTheta (distTaken b n m rx)) :=
  (beatMarkFx_keeps m rx hf hu hw).trans <| (if_pos hr).trans <|
    useMark_parent (b := markKept b n m rx) _ _ hma hpa hep hper hgrd hdip (parentGone_markKept hn hu hpa hl)
      (mayParent_markKept hn (framing_awake hf hu) hl hd hper hgrd hdip)

/-- A mark is kept whatever it means (R385). -/
theorem beatMarkFx_port {b : Blk} {n : Nat} (m : Mark) (rx : Nat) (hf : framing b n = true) (hu : (getP b n).state = 2)
    (hw : (getP b n).woke = false) (hn : n < b.ports.length) :
    getP (beatMarkFx b n m rx) n = { getP b n with mark := markOf b (getP b n) m rx } := by
  rw [beatMarkFx_keeps m rx hf hu hw]
  split
  · rw [getP_congr (useMark_ports ..)]
    exact markKept_port hn
  · exact markKept_port hn

/-- A keep-alive makes its endpoint present (R393). -/
theorem keepAliveFx_seen {b : Blk} {n : Nat} (ep : Nat) (hf : framing b n = true) (hu : (getP b n).state = 2) : keepAliveFx b n ep =
    { b with beat := { b.beat with seen := b.beat.seen.map fun (e : Seen) => if e.ep = ep then { e with last := b.beat.count, absent := false } else e } } := by
  unfold keepAliveFx
  rw [if_neg (by simp [hf, hu])]
  simp only [beq_iff_eq]

/-- A function that has reported, or that has not come to a stand, reports nothing. -/
theorem deadlockFx_quiet {b : Blk} {f : Nat} (h : (getFn b f).deadlocked = true ∨ stalled b f = false) : deadlockFx b f = b := by
  unfold deadlockFx
  refine if_pos ?_
  rcases h with h | h <;> simp [h]

/-- Settles O45: a mark by `useMark` of its port's marked state, a lost parent by the choice without it, an absent partner by the walk that
takes its ports down, a deadlock by what its record and the carries keep of the page. -/
theorem beatPartnersAndDeadlock : Obligations.BeatPartnersAndDeadlock := by
  intro s ha hs x
  refine ⟨?marks, ?stays, fun hr hm hg => ⟨?none, ?some⟩, ?alive, fun haw => ⟨?present, ?absent, ?function, ?told, ?block⟩⟩
  case marks =>
    intro n m rx hf hu hw hn p v mark
    refine ⟨?kept, ?still, ?parent⟩
    case kept => exact ⟨_, (row_beatMark n m rx s).trans (actLive_alive ha _), beatMarkFx_port m rx hf hu hw hn⟩
    case still =>
      intro hr
      have h : beatMarkFx s.b n m rx = markKept s.b n m rx := (beatMarkFx_keeps m rx hf hu hw).trans (if_neg (Bool.eq_false_iff.mp hr))
      have hc : markKept s.b n m rx = modP s.b n fun p => { p with mark } := rfl
      exact (row_beatMark n m rx s).trans (actLive_yields ha (h.trans hc) hs)
    case parent =>
      intro hr hma hpa hep hl hd hper hgrd hdip had hn63
      have h := beatMarkFx_parent rx hf hu hw hn hr hma hpa hep hl hd hper hgrd hdip
      refine ⟨_, (row_beatMark n m rx s).trans (actLive_alive ha _), ?_⟩
      rw [commit_b_beat, h]
      exact parentMeasured_beat hn hpa had _
  case stays =>
    intro h
    refine (row_parentLost s).trans (actLive_nop _ hs (if_neg ?_))
    rcases h with h | h | h
    · simp [show s.b.beat.run = false from h]
    · simp [show isMaster s.b.beat = true from h]
    · simp [h]
  case none =>
    intro hc
    exact (row_parentLost s).trans (actLive_yields ha ((if_pos (by simp_all [x])).trans (parentLost_none hc)) hs)
  case some =>
    intro n m hc
    have h : (if s.b.beat.run && !isMaster s.b.beat && parentGone s.b then loseParent s.b else s.b) = takeParent (orphaned s.b) n m :=
      (if_pos (by simp_all [x])).trans (parentLost_some hr hm hc)
    refine ⟨_, (row_parentLost s).trans (actLive_alive ha _), ?_⟩
    rw [commit_b_beat, h]
    exact takeParent_parent ..
  case alive =>
    intro n ep bt lk hf hu
    exact (row_keepAlive n ep bt lk s).trans (actLive_yields ha (keepAliveFx_seen ep hf hu) hs)
  case present =>
    intro ep h
    exact (row_partnerAbsent ep s).trans (act_nop _ hs (if_pos (by simp [h])))
  case absent =>
    intro ep h
    refine ⟨_, (row_partnerAbsent ep s).trans (act_awake haw _), partnerAbsentFx_seen h, ?_⟩
    exact fun hg n hn he hu hp => partnerAbsentFx_down h hg hn he hu hp
  case function =>
    intro f n
    refine ⟨fun h => (row_deadlock f s).trans (act_nop _ hs (deadlockFx_quiet h)), fun ht hd hb hst => ?_⟩
    exact ⟨_, (row_deadlock f s).trans (act_awake haw _), deadlockFx_page ht hd hb hst⟩
  case told =>
    intro h
    exact (row_blockDeadlock s).trans (act_nop _ hs (if_pos (by simp [h])))
  case block =>
    intro ht ht' hr hb
    exact ⟨_, (row_blockDeadlock s).trans (act_awake haw _), blockDeadlockFx_dlck ht ht' hr hb, blockDeadlockFx_head ht ht' hr hb⟩

end Sys2Proof.Machine
end

section
/-!
Streams that open and close: what a write of an entry, STREAM_OPEN, STAGE_AHEAD, STREAM_RESUME and STREAM_CLOSE leave (R407, R408, R427, R431, R432).
-/
namespace Sys2Proof.Machine

/-! ### Entries of streams -/

theorem stream_ne {e : Stream} (h : e.valid = true) : e ≠ stream0 := by rintro rfl; exact Bool.false_ne_true h

theorem getStr_congr {b b' : Blk} (h : b'.t.stream = b.t.stream) (f n : Nat) : getStr b' f n = getStr b f n := by unfold getStr; rw [h]

theorem commit_getStr (s : State) (b : Blk) (f n : Nat) : getStr (commit s b).b f n = getStr b f n := rfl

theorem endCmd_getStr (b : Blk) (id : CmdId) (st r f n : Nat) : getStr (endCmd b id st r) f n = getStr b f n :=
  getStr_congr (congrArg Tables.stream (endCmd_tables ..)) f n

theorem strV_congr {b b' : Blk} (h : b'.t = b.t) (e : Stream) : strV b' e = strV b e := by unfold strV strMembers findGroup; rw [h]

/-- An entry that is valid once changed reads as changed. -/
theorem getStr_modStr {b : Blk} {f n : Nat} {g : Stream → Stream} (h : (g (getStr b f n)).valid = true) :
    getStr (modStr b f n g) f n = g (getStr b f n) :=
  (tget_tset_of_ne stream0 _ _ _ _ (stream_ne h)).trans (if_pos rfl)

theorem modStr_stream (b : Blk) (f n : Nat) (g : Stream → Stream) : (modStr b f n g).t.stream = tmod stream0 b.t.stream (strKey f n) g := rfl

/-- Nothing of the block is changed but entries of streams. -/
def Restreams (b b' : Blk) : Prop := ∃ str, b' = { b with t := { b.t with stream := str } }

theorem Restreams.cmds {b x : Blk} (h : Restreams b x) : x.cmds = b.cmds := by obtain ⟨_, rfl⟩ := h; rfl

theorem Restreams.modStr {b x : Blk} (h : Restreams b x) (f n : Nat) (g : Stream → Stream) : Restreams b (modStr x f n g) := by
  obtain ⟨str, rfl⟩ := h; exact ⟨_, rfl⟩

theorem clearFollowers_twf {b : Blk} (f n : Nat) (h : twf stream0 b.t.stream = true) : twf stream0 (clearFollowers b f n).t.stream = true := by
  unfold clearFollowers
  refine foldl_keeps (fun x : Blk => twf stream0 x.t.stream = true) _ _ _ h fun x k hx => ?_
  split
  · rw [modStr_stream]; exact twf_tmod _ _ _ _ hx
  · exact hx

theorem freeStream_frees {b : Blk} (f n : Nat) (h : twf stream0 b.t.stream = true) : getStr (freeStream b f n) f n = stream0 := by
  unfold getStr freeStream
  rw [modStr_stream, ← strKey, tget_tmod _ _ _ _ _ (clearFollowers_twf f n h), if_pos rfl]

theorem freeStream_cmds (b : Blk) (f n : Nat) : (freeStream b f n).cmds = b.cmds := by unfold freeStream; rw [modStr_cmds, clearFollowers_eq]

theorem freeStream_stores (b : Blk) (f n : Nat) : (freeStream b f n).stores = b.stores := by unfold freeStream; rw [modStr_stores, clearFollowers_eq]

/-! ### Freeing an entry that FINISH commands wait for -/

/-- A command that is to end with a status and a result, or has done so. -/
def EndsAs (id : CmdId) (st r : Nat) (b : Blk) : Prop := (∃ c, findCmd b id = some c ∧ c.phase ≠ .ended) ∨ EndedWith b id st r

theorem EndsAs.ends {id : CmdId} {st r : Nat} {b : Blk} (h : EndsAs id st r b) : EndedWith (endCmd b id st r) id st r := by
  rcases h with ⟨c, hc, hp⟩ | h
  · exact endCmd_endedWith st r hc hp
  · exact EndedWith.keep h (endCmd_keepsEnded _ _ _ _)

/-- Commands that end alike, whichever they are, leave a command ending so. -/
theorem EndsAs.endCmd {id : CmdId} {st r : Nat} {b : Blk} (h : EndsAs id st r b) (k : CmdId) : EndsAs id st r (endCmd b k st r) := by
  by_cases hk : id = k
  · subst hk; exact .inr h.ends
  · rcases h with ⟨c, hc, hp⟩ | h
    · exact .inl ⟨c, (endCmd_find_other b st r hk).trans hc, hp⟩
    · exact .inr (EndedWith.keep h (endCmd_keepsEnded _ _ _ _))

theorem freeFinish_ends {b : Blk} {id : CmdId} {c : Cmd} (f n : Nat) (hc : findCmd b id = some c) (hp : c.phase ≠ .ended) :
    EndedWith (endCmd (freeFinish b f n) id 0 (getStr b f n).flies) id 0 (getStr b f n).flies := by
  refine EndsAs.ends ?_
  unfold freeFinish
  exact foldl_keeps (EndsAs id 0 _) _ _ _ (.inl ⟨c, (findCmd_congr id (freeStream_cmds b f n)).trans hc, hp⟩) fun x d hx => hx.endCmd d.id

theorem freeFinish_frees {b : Blk} (f n : Nat) (h : twf stream0 b.t.stream = true) : getStr (freeFinish b f n) f n = stream0 := by
  unfold freeFinish
  exact foldl_keeps (fun x : Blk => getStr x f n = stream0) _ _ _ (freeStream_frees f n h) fun x d hx => (endCmd_getStr ..).trans hx

/-! ### A running command that ends -/

section
variable {s : State} {id : CmdId} {op : Nat} {c : Cmd} (hr : RunsNow s.b id op c)
include hr

theorem runs_id : c.id = id := findCmd_id hr.1

theorem runs_op : opOf c = op := by obtain ⟨-, -, hop, -⟩ := hr; exact hop

theorem runs_find : findCmd s.b id = some c ∧ c.phase ≠ .ended := by
  obtain ⟨hc, hp, -⟩ := hr
  exact ⟨hc, by rw [hp]; decide⟩

/-- A running command ends over a block in which the commands stand as they were. -/
theorem runs_endedWith {b : Blk} (hb : b.cmds = s.b.cmds) (st r : Nat) : EndedWith (commit s (endCmd b id st r)).b id st r := by
  obtain ⟨hc, hp⟩ := runs_find hr
  exact EndedWith.of_cmds (endCmd_endedWith st r ((findCmd_congr id hb).trans hc) hp) rfl

/-- A command turned away ends with its status and leaves the tables as they are. -/
theorem turned_away {i : Instr} {st : Nat} (h : exec i s = .next (commit s (endCmd s.b id st 0))) :
    ∃ t, exec i s = .next t ∧ EndedWith t.b id st 0 ∧ t.b.t = s.b.t :=
  ⟨_, h, runs_endedWith hr rfl st 0, endCmd_tables ..⟩

/-- A command that ends after writing streams changes nothing but commands and streams. -/
theorem runs_streams (hs : s.b.stores = []) (hw : c.waitOn = none) {b : Blk} (hb : Restreams s.b b) (st r : Nat) :
    commit s (endCmd b id st r) =
      { s with b := { s.b with cmds := (endCmd b id st r).cmds, t := { s.b.t with stream := (endCmd b id st r).t.stream } } } := by
  obtain ⟨str, rfl⟩ := hb
  obtain ⟨hc, hp⟩ := runs_find hr
  have hf : findCmd { s.b with t := { s.b.t with stream := str } } id = some c := hc
  rw [endCmd_ended st r hf hp hw]
  exact commit_of_no_stores s (modCmd _ id _) hs

end

/-! ### STREAM_OPEN and STAGE_AHEAD -/

/-- The fields that an entry takes from the command that opens it (R407, R408). -/
structure Opened (c : Cmd) (n : Stream) : Prop where
  valid : n.valid = true
  state : n.state = 1
  flies : n.flies = 0
  delivered : n.delivered = 0
  queue : n.queue = c.id.q
  tag : n.tag = tagOf c
  srcSpace : n.srcSpace = fSpaceA c
  srcBase : n.srcBase = fSrcBase c
  dstSpace : n.dstSpace = fSpaceB c
  dstBase : n.dstBase = fDstBase c
  slotLog2 : n.slotLog2 = fSlotLog2 c
  nslots : n.nslots = fNslots c
  len0 : n.len0 = fLen0 c
  counts : n.counts = fCounts c
  strides : n.strides = fStrides c
  flyPen : n.flyPen = fFlyPen c
  creditPen : n.creditPen = fCreditPen c
  sharded : n.sharded = fSharded c
  openId : n.openId = (c.id.q, c.id.rseq)
  follows : opOf c = 0x41 → n.follows = fFollows c

/-- An entry is opened, whether it counts as having served its shard or not, and the command ends with the bytes of the stream. -/
theorem installStream_opens (b : Blk) (c : Cmd) : ∃ x, installStream b c = endCmd x c.id 0 (strV x (getStr x c.id.f (fStream c))) ∧
    Restreams b x ∧ Opened c (getStr x c.id.f (fStream c)) := by
  unfold installStream
  extract_lets f fo ahead base x n y
  have hx : Restreams b x := ⟨_, rfl⟩
  have hn : Opened c n := by
    rw [show n = _ from getStr_modStr rfl]
    constructor
    case follows => intro h; simp [ahead, h]
    all_goals rfl
  by_cases hm : strMembers x n ≤ 1
  · have hy : getStr y f (fStream c) = { n with servedAll := true } := by
      simp only [y]; rw [if_pos hm]; exact getStr_modStr hn.valid
    refine ⟨y, ?_, ?_, ?_⟩
    · rw [hy]; simp only [y]; rw [if_pos hm]; rfl
    · simp only [y]; rw [if_pos hm]; exact hx.modStr ..
    · rw [hy]; exact { hn with }
  · have hy : y = x := if_neg hm
    rw [hy]
    exact ⟨x, rfl, hx, hn⟩

theorem openFx_rejects {b : Blk} {c : Cmd} (h : openOk b c = false ∨ ringOverlap b c = true) : openFx b c = endCmd b c.id 0x61 0 :=
  if_pos (by rcases h with h | h <;> simp [h])

section
variable {b : Blk} {c : Cmd} (ho : openOk b c = true) (hn : ringOverlap b c = false)
include ho hn

theorem openFx_unmapped (h : penMapped b c.id.f (fFlyPen c) = false ∨ penMapped b c.id.f (fCreditPen c) = false) : openFx b c = endCmd b c.id 0x31 0 := by
  unfold openFx
  rw [if_neg (by simp [ho, hn]), if_pos (by rcases h with h | h <;> simp [h])]

theorem openFx_installs (hf : penMapped b c.id.f (fFlyPen c) = true) (hc : penMapped b c.id.f (fCreditPen c) = true) :
    openFx b c = installStream b c := by
  unfold openFx
  rw [if_neg (by simp [ho, hn]), if_neg (by simp [hf, hc])]

end

/-! ### The rows -/

section
variable {s : State} (ha : awake s.b = true) {c : Cmd}
include ha

/-- The rows of STREAM_OPEN and STAGE_AHEAD run `openFx`. -/
theorem openRows_run : ∀ row ∈ ([(.streamOpen, 0x40), (.stageAhead, 0x41)] : List ((CmdId → Instr) × Nat)),
    RunsNow s.b c.id row.2 c → exec (row.1 c.id) s = .next (commit s (openFx s.b c)) := by
  simp only [List.forall_mem_cons, List.not_mem_nil, false_implies, implies_true, and_true]
  refine ⟨fun hr => ?_, fun hr => ?_⟩
  · rw [row_streamOpen, act_awake ha, onRun_runs hr (awake_run ha)]
  · rw [row_stageAhead, act_awake ha, onRun_runs hr (awake_run ha)]

theorem streamResume_exec (hr : RunsNow s.b c.id 0x42 c) : exec (.streamResume c.id) s = .next (commit s (
    if (getStr s.b c.id.f (fStream c)).valid = true ∧ (getStr s.b c.id.f (fStream c)).state = 2 then
      endCmd (modStr s.b c.id.f (fStream c) fun e => { e with state := 1, staged := 0, fault := 0 }) c.id 0 (getStr s.b c.id.f (fStream c)).delivered
    else endCmd s.b c.id 0x61 0)) := by
  rw [row_streamResume, act_awake ha, onRun_runs hr (awake_run ha)]
  simp only [Bool.and_eq_true, beq_iff_eq]

theorem streamCloseFinish_exec (hr : RunsNow s.b c.id 0x43 c) (hf : fCloseAbort c = false) : exec (.streamCloseFinish c.id) s = .next (commit s (
    if (getStr s.b c.id.f (fStream c)).valid = false ∨ (getStr s.b c.id.f (fStream c)).state = 2 then endCmd s.b c.id 0x61 0
    else if (getStr s.b c.id.f (fStream c)).state = 3 ∨ (getStr s.b c.id.f (fStream c)).state = 4 then
      endCmd (freeStream s.b c.id.f (fStream c)) c.id 0 (getStr s.b c.id.f (fStream c)).flies
    else s.b)) := by
  rw [row_streamCloseFinish, act_awake ha, onRun_runs hr (awake_run ha)]
  simp [hf]

theorem streamCloseAbort_exec (hr : RunsNow s.b c.id 0x43 c) (hf : fCloseAbort c = true) : exec (.streamCloseAbort c.id) s = .next (commit s (
    if (getStr s.b c.id.f (fStream c)).valid = false then endCmd s.b c.id 0x61 0
    else endCmd (freeFinish s.b c.id.f (fStream c)) c.id 0 (getStr s.b c.id.f (fStream c)).flies)) := by
  rw [row_streamCloseAbort, act_awake ha, onRun_runs hr (awake_run ha)]
  simp [hf]

end

/-- Settles O36: an open in its three cases (`openFx`), with the entry that `installStream_opens` gives; a resumed entry by `getStr_modStr`;
a freed one by `freeStream_frees` and `freeFinish_frees`. -/
theorem streamsOpenAndClose : Obligations.StreamsOpenAndClose := by
  unfold Obligations.StreamsOpenAndClose
  intro id c s ha hs hw e
  refine ⟨fun row hrow hr => ?opens, fun hr => ?resumes, fun hr hab => ?finishes, fun hr hab => ?aborts⟩ <;> obtain rfl := runs_id hr
  case opens =>
    have run := openRows_run ha row hrow hr
    refine ⟨fun h => turned_away hr (run.trans (by rw [openFx_rejects h])), fun ho hn h => turned_away hr (run.trans (by rw [openFx_unmapped ho hn h])),
      fun ho hn hfly hcredit => ?_⟩
    obtain ⟨x, hx, hstr, o⟩ := installStream_opens s.b c
    rw [openFx_installs ho hn hfly hcredit, hx] at run
    refine ⟨_, run, ?_⟩
    intro n
    rw [show n = getStr x c.id.f (fStream c) from endCmd_getStr .., strV_congr ((commit_b_t ..).trans (endCmd_tables ..))]
    exact ⟨runs_endedWith hr hstr.cmds _ _, o.valid, o.state, o.flies, o.delivered, o.queue, o.tag, o.srcSpace, o.srcBase, o.dstSpace, o.dstBase, o.slotLog2,
      o.nslots, o.len0, o.counts, o.strides, o.flyPen, o.creditPen, o.sharded, o.openId, fun h => o.follows ((runs_op hr).trans h),
      runs_streams hr hs hw hstr _ _⟩
  case resumes =>
    have run := streamResume_exec ha hr
    refine ⟨fun h => ?_, fun h => turned_away hr (run.trans (by rw [if_neg h]))⟩
    rw [if_pos h] at run
    refine ⟨_, run, runs_endedWith hr (modStr_cmds ..) _ _, ?_, runs_streams hr hs hw (modStr_only ..) _ _⟩
    rw [commit_getStr, endCmd_getStr]
    exact getStr_modStr h.1
  case finishes =>
    have run := streamCloseFinish_exec ha hr hab
    refine ⟨fun hv h => ?freed, fun hv h => ?waits, fun h => turned_away hr (run.trans (by rw [if_pos h]))⟩
    case freed =>
      have hn : ¬ (e.valid = false ∨ e.state = 2) := by rcases h with h | h <;> simp [hv, h]
      rw [if_neg hn, if_pos h] at run
      refine ⟨_, run, runs_endedWith hr (freeStream_cmds ..) _ _, fun ht => ?_, ?_⟩
      · rw [commit_getStr, endCmd_getStr, freeStream_frees _ _ ht]; rfl
      · rw [commit_mem, endCmd_stores, freeStream_stores, hs, applyStores_nil]
    case waits =>
      have hn : ¬ (e.valid = false ∨ e.state = 2) := by simp [hv, h]
      have hn' : ¬ (e.state = 3 ∨ e.state = 4) := by simp [h]
      rw [if_neg hn, if_neg hn'] at run
      exact run.trans (commit_id s hs)
  case aborts =>
    have run := streamCloseAbort_exec ha hr hab
    refine ⟨fun hv => ?_, fun h => turned_away hr (run.trans (by rw [if_pos h]))⟩
    rw [if_neg (by simpa using hv)] at run
    obtain ⟨hc, hp⟩ := runs_find hr
    refine ⟨_, run, EndedWith.of_cmds (freeFinish_ends _ _ hc hp) rfl, fun ht => ?_, ?_⟩
    · rw [commit_getStr, endCmd_getStr, freeFinish_frees _ _ ht]; rfl
    · rw [commit_mem, endCmd_stores, freeFinish_eq, hs, applyStores_nil]

end Sys2Proof.Machine
end

section
/-!
Pieces of streams: the piece that STREAM_PIECE takes, and what moving it leaves (R412, R415, R418, R425).
-/
namespace Sys2Proof.Machine

/-! ### The piece that is taken -/

/-- The length of the next piece: a SHARDED stream's ends with the shard (R410, R412). -/
def nextLen (b : Blk) (f : Nat) (e : Stream) : Nat :=
  if e.sharded = true then min (pieceLen b f e) (strZ e - e.delivered % max 1 (strZ e)) else pieceLen b f e

/-- The next byte is in this member's own shard. -/
def OwnShard (e : Stream) : Prop := e.sharded = false ∨ e.delivered / max 1 (strZ e) = e.rank

theorem ownShard_iff (e : Stream) : (!e.sharded || e.delivered / max 1 (strZ e) == e.rank) = true ↔ OwnShard e := by simp [OwnShard]

/-- The block once a piece of this member's own shard is in the slot ring. -/
def pieceMoved (b : Blk) (m : Tab Byte) (f n : Nat) (e : Stream) : Blk :=
  let x := spaceStore b f (.stream f n) e.dstSpace (dstAddr e e.delivered) (pieceData b m f e e.delivered (nextLen b f e))
  modFn (modStr x f n fun s => { s with delivered := e.delivered + nextLen b f e }) f fun x => { x with moved := true }

/-- The block once a remote shard's bytes are requested. -/
def pieceRequested (b : Blk) (f n : Nat) (e : Stream) : Blk :=
  shardReq (modStr b f n fun s => { s with staged := nextLen b f e }) e e.delivered (nextLen b f e)

section
variable {b : Blk} (m : Tab Byte) {f : Nat} (n : Nat) {e : Stream}

theorem moveStream_eq {own : Bool} (h : own = true ↔ OwnShard e) : moveStream b m f n e =
    match missingXl b f (pieceNeeds e e.delivered (nextLen b f e) own) with
    | (_, a, w) :: _ => needXl b f a w (.stream f n a)
    | [] => if own then pieceMoved b m f n e else pieceRequested b f n e := by
  obtain rfl : (!e.sharded || e.delivered / max 1 (strZ e) == e.rank) = own := Bool.eq_iff_iff.mpr ((ownShard_iff e).trans h.symm)
  rfl

theorem moveStream_asks (ho : OwnShard e) {y a : Nat} {w : Bool} {rest : List (Nat × Nat × Bool)}
    (h : missingXl b f (pieceNeeds e e.delivered (nextLen b f e) true) = (y, a, w) :: rest) : moveStream b m f n e = needXl b f a w (.stream f n a) := by
  rw [moveStream_eq m n (iff_of_true rfl ho), h]

theorem moveStream_moves (ho : OwnShard e) (h : missingXl b f (pieceNeeds e e.delivered (nextLen b f e) true) = []) :
    moveStream b m f n e = pieceMoved b m f n e := by
  rw [moveStream_eq m n (iff_of_true rfl ho), h]; rfl

theorem moveStream_requests (ho : ¬ OwnShard e) (h : missingXl b f (pieceNeeds e e.delivered (nextLen b f e) false) = []) :
    moveStream b m f n e = pieceRequested b f n e := by
  rw [moveStream_eq m n (iff_of_false Bool.false_ne_true ho), h]; rfl

end

/-! ### What a move leaves -/

theorem shardReq_only (b : Blk) (e : Stream) (x n : Nat) : ∃ fab ports, shardReq b e x n = { b with fab := fab, ports := ports } := by
  unfold shardReq
  split
  · exact ⟨_, _, rfl⟩
  · exact sendPkt_only ..

section
variable {s : State} {f n : Nat} {e : Stream} (hv : e.valid = true) (he : getStr s.b f n = e)
include hv he

/-- A moved piece adds its bytes to those delivered, and its stores to memory. -/
theorem pieceMoved_leaves : let t := commit s (pieceMoved s.b s.mem f n e)
    getStr t.b f n = { e with delivered := e.delivered + nextLen s.b f e } ∧ t.b.cmds = s.b.cmds ∧ t.b.pens = s.b.pens ∧
    t.mem = applyStores s.mem (fnStore s.b f e.dstSpace (dstAddr e e.delivered) (pieceData s.b s.mem f e e.delivered (nextLen s.b f e))).stores := by
  obtain ⟨d2d, h⟩ := spaceStore_only s.b f (.stream f n) e.dstSpace (dstAddr e e.delivered) (pieceData s.b s.mem f e e.delivered (nextLen s.b f e))
  unfold pieceMoved
  dsimp only
  rw [h, fnStore_adds]
  subst he
  exact ⟨getStr_modStr hv, rfl, rfl, rfl⟩

/-- A requested piece is counted as staged, and nothing is in memory yet. -/
theorem pieceRequested_leaves (hs : s.b.stores = []) : let t := commit s (pieceRequested s.b f n e)
    getStr t.b f n = { e with staged := nextLen s.b f e } ∧ t.mem = s.mem ∧ t.b.cmds = s.b.cmds ∧ t.b.pens = s.b.pens := by
  unfold pieceRequested
  obtain ⟨fab, ports, h⟩ := shardReq_only (modStr s.b f n fun s' => { s' with staged := nextLen s.b f e }) e e.delivered (nextLen s.b f e)
  rw [h]
  subst he
  refine ⟨getStr_modStr hv, ?_, rfl, rfl⟩
  rw [commit_mem, modStr_stores, hs, applyStores_nil]

end

/-! ### STREAM_PIECE -/

theorem streamPiece_idle {s : State} (tile : Nat) (hs : s.b.stores = []) (h : nextStream s.b = none) : exec (.streamPiece tile) s = .next s := by
  rw [row_streamPiece]
  exact act_nop _ hs (by simp [h])

/-- A tile in service moves the most urgent stream on by a piece. -/
theorem streamPiece_moves {s : State} (ha : awake s.b = true) {tile f n : Nat} {e : Stream} (ht : tileUp s.b tile = true) (hn : n < 64)
    (h : nextStream s.b = some (f * 64 + n, e)) : exec (.streamPiece tile) s = .next (commit s (moveStream s.b s.mem f n e)) := by
  have hf : (f * 64 + n) / 64 = f := by omega
  have hm : (f * 64 + n) % 64 = n := by omega
  rw [row_streamPiece, act_awake ha, if_neg (by simp [ht, awake_run ha]), h]
  dsimp only
  rw [hf, hm]

/-- Settles O37: the stream taken by `streamPiece_moves`, and each case of its move by what `moveStream` is there. -/
theorem piecesAreMoved : Obligations.PiecesAreMoved := by
  unfold Obligations.PiecesAreMoved
  intro tile f n e s ha hs ht hn hv x own k
  refine ⟨streamPiece_idle tile hs, fun h he => ?taken⟩
  have run := streamPiece_moves ha ht hn h
  refine ⟨fun ho hx => ?moved, fun ho y a w rest hx => ?asked, fun ho hx => ?requested⟩
  case moved =>
    rw [moveStream_moves s.mem n ho hx] at run
    exact ⟨_, run, pieceMoved_leaves hv he⟩
  case asked =>
    rw [moveStream_asks s.mem n ho hx] at run
    exact run.trans (congrArg _ (commit_of_no_stores s _ (by rw [needXl_eq]; exact hs)))
  case requested =>
    rw [moveStream_requests s.mem n ho hx] at run
    exact ⟨_, run, pieceRequested_leaves hv he hs⟩

end Sys2Proof.Machine
end

section
/-!
O14: the debug selectors of a function's page and the snapshots that they take (R473, R474, R768, R769).
-/
namespace Sys2Proof.Machine

/-! ### The selectors' registers -/

section
variable {b : Blk} {f : Nat} (hf : f < 512) (ho : pageOpen b f = true)
include hf ho

theorem ctlWrite_penSel (v : Word) : ctlWrite b (pageOff f 0xE00) v = writePenSel b f v.toNat := by
  rw [ctlWrite_page b f 0xE00 v hf (by decide) (by decide)]
  unfold writePage
  rw [ho]
  rfl

theorem ctlWrite_strSel (v : Word) : ctlWrite b (pageOff f 0xE40) v = writeStrSel b f v.toNat := by
  rw [ctlWrite_page b f 0xE40 v hf (by decide) (by decide)]
  unfold writePage
  rw [ho]
  rfl

end

theorem pageOpen_of {s : State} {f : Nat} (h : PageOpen s f) : pageOpen s.b f = true := by
  obtain ⟨hp, hl⟩ := h
  simp [pageOpen, hp, hl]

/-- A pennant at its reset values reads as zero in the words of a snapshot. -/
theorem pen0_counts : BitVec.ofNat 64 (mk [(63, 16, pen0.sigCount), (13, 0, pen0.waiters)]) = 0 := by decide
theorem pen0_last : BitVec.ofNat 64 (mk [(63, 48, pen0.lastEp), (47, 39, pen0.lastFn), (38, 36, pen0.lastKind), (35, 35, b2n pen0.mapped),
    (31, 0, pen0.lastTag)]) = 0 := by decide

/-! ### The rows -/

section
variable {s : State} {f : Nat} (hc : CtlOpen s) (ho : PageOpen s f) (hs : s.b.stores = []) (hf : f < 512)
include hc ho hs hf

theorem fnPenSel_writes (v : Word) : exec (.fnPenSel f v) s = .next { s with b := writePenSel s.b f v.toNat } := by
  rw [row_fnPenSel, actCtl_open hc, ctlWrite_penSel hf (pageOpen_of ho)]
  exact congrArg _ (commit_of_no_stores s (writePenSel s.b f v.toNat) hs)

theorem fnStrSel_writes (v : Word) : exec (.fnStrSel f v) s = .next { s with b := writeStrSel s.b f v.toNat } := by
  rw [row_fnStrSel, actCtl_open hc, ctlWrite_strSel hf (pageOpen_of ho)]
  exact congrArg _ (commit_of_no_stores s (writeStrSel s.b f v.toNat) hs)

end

/-- Settles O14: each write is its selector's (`fnPenSel_writes`, `fnStrSel_writes`), in the case of the entry selected. -/
theorem selectorsTakeSnapshots : Obligations.SelectorsTakeSnapshots := by
  unfold Obligations.SelectorsTakeSnapshots
  intro f v s hc ho hs hf w
  have pen := fnPenSel_writes hc ho hs hf v
  have str := fnStrSel_writes hc ho hs hf v
  refine ⟨?mapped, fun hi => ?unmapped, ?inUse, fun hv => ?free⟩
  case mapped =>
    intro i hi hm p
    rw [pen, writePenSel, hi]
    dsimp only
    rw [if_pos hm, hm]
    rfl
  case unmapped =>
    rw [pen, writePenSel, hi]
    dsimp only
    rw [ite_self, pen0_counts, pen0_last]
    rfl
  case inUse =>
    intro hv e word
    rw [str, writeStrSel]
    simp only [hv, if_true, e, word, w]
  case free =>
    rw [str, writeStrSel]
    simp only [hv, Bool.false_eq_true, if_false, w]
    rfl

end Sys2Proof.Machine
end

section
/-!
O35: PENNANT SET, ADD and WAIT (R438, R445, R450, R453).
-/
namespace Sys2Proof.Machine

/-! ### A running command that waits for no pennant -/

/-- The command of an id runs and waits for no pennant: no release lets it go. -/
def RunsFree (id : CmdId) (b : Blk) : Prop := ∃ c, findCmd b id = some c ∧ c.phase = .running ∧ c.waitOn = none

namespace RunsFree

theorem of_cmds {id : CmdId} {b b' : Blk} (h : RunsFree id b) (e : b'.cmds = b.cmds) : RunsFree id b' := by
  obtain ⟨c, hc, h'⟩ := h
  exact ⟨c, (findCmd_congr id e).trans hc, h'⟩

/-- A change of every command that leaves those alone which wait for no pennant. -/
theorem map {id : CmdId} {b b' : Blk} (h : RunsFree id b) {g : Cmd → Cmd} (e : b'.cmds = b.cmds.map g) (hi : ∀ c, (g c).id = c.id)
    (hg : ∀ c, c.waitOn = none → g c = c) : RunsFree id b' := by
  obtain ⟨c, hc, hp, hw⟩ := h
  refine ⟨c, ?_, hp, hw⟩
  have hid : (fun c => decide (c.id = id)) ∘ g = fun c => decide (c.id = id) := funext fun c => by simp [hi]
  unfold findCmd at hc ⊢
  rw [e, List.find?_map, hid, hc, Option.map_some, hg c hw]

theorem modCmd {id : CmdId} {b : Blk} (h : RunsFree id b) (k : CmdId) {g : Cmd → Cmd} (hi : ∀ c, (g c).id = c.id)
    (hp : ∀ c, (g c).phase = c.phase) (hw : ∀ c, (g c).waitOn = c.waitOn) : RunsFree id (modCmd b k g) := by
  obtain ⟨c, hc, hc', hw'⟩ := h
  refine ⟨if c.id = k then g c else c, by rw [findCmd_modCmd b k id g hi, hc, Option.map_some], ?_⟩
  split
  · exact ⟨(hp c).trans hc', (hw c).trans hw'⟩
  · exact ⟨hc', hw'⟩

theorem penRelease {id : CmdId} {b : Blk} (h : RunsFree id b) (p : Nat) : RunsFree id (penRelease b p) := by
  unfold Machine.penRelease
  extract_lets v holds heads ws b1 b2 b3 d b4
  have h2 : RunsFree id b2 := h.map rfl (fun c => by split <;> simp [releaseHead_id]) fun c hw => if_neg (by simp [holds, hw])
  obtain ⟨fns, e3⟩ : ∃ fns, b3 = { b2 with fns := fns } := foldl_modFn_only heads (fun c => c.id.f) _ b2
  have e4 : b4.cmds = b3.cmds := by simp only [b4]; split <;> rfl
  obtain ⟨d2d, e5⟩ := foldl_notify_only ws v b4
  rw [e5]
  exact h2.of_cmds (e4.trans (by rw [e3]))

theorem penOp {id : CmdId} {b : Blk} (h : RunsFree id b) (p : Nat) (add : Bool) (v : Word) (ep fn kind tag : Nat) :
    RunsFree id (penOp b p add v ep fn kind tag) := by
  unfold Machine.penOp
  extract_lets b1 b2
  obtain ⟨fns, e2⟩ : ∃ fns, b2 = { b1 with fns := fns } := foldl_modFn_only _ (fun c : Cmd => c.id.f) _ b1
  exact (h.of_cmds (by rw [e2]; rfl)).penRelease p

/-- The status of such a command is decided without a wait to withdraw. -/
theorem ends {id : CmdId} {b : Blk} (h : RunsFree id b) (st r : Nat) :
    endCmd b id st r = Machine.modCmd b id fun c => { c with phase := .ended, status := st, result := r } := by
  obtain ⟨c, hc, hp, hw⟩ := h
  exact endCmd_ended st r hc (by rw [hp]; decide) hw

theorem endedWith {id : CmdId} {b : Blk} (h : RunsFree id b) (st r : Nat) : EndedWith (endCmd b id st r) id st r := by
  obtain ⟨c, hc, hp, -⟩ := h
  exact endCmd_endedWith st r hc (by rw [hp]; decide)

end RunsFree

/-! ### Records and carries -/

theorem progress_only (b : Blk) (c : Cmd) (sub a : Nat) (ws : List Nat) :
    ∃ fns stores cmds, progress b c sub a ws = { b with fns := fns, stores := stores, cmds := cmds } := by
  unfold progress
  dsimp only
  rw [appendLog_eq]
  exact ⟨_, _, _, rfl⟩

theorem RunsFree.progress {id : CmdId} {b : Blk} (h : RunsFree id b) (c : Cmd) (sub a : Nat) (ws : List Nat) :
    RunsFree id (progress b c sub a ws) := by
  unfold Machine.progress
  exact (h.of_cmds (appendLog_cmds b _ _)).modCmd _ (fun _ => rfl) (fun _ => rfl) (fun _ => rfl)

theorem streams_cmds (b : Blk) (str : Tab Stream) : ({ b with t := { b.t with stream := str } } : Blk).cmds = b.cmds := rfl
theorem streams_pens (b : Blk) (str : Tab Stream) : ({ b with t := { b.t with stream := str } } : Blk).pens = b.pens := rfl
theorem appendLog_pens (b : Blk) (f : Nat) (bs : List Byte) : (appendLog b f bs).pens = b.pens := by rw [appendLog_eq]

theorem writeAnchor_pens (b : Blk) (f : Nat) : (writeAnchor b f).pens = b.pens := by
  obtain ⟨_, _, h⟩ := writeAnchor_only b f
  rw [h]

theorem carryOne_pens (b : Blk) (f : Nat) : (carryOne b f).pens = b.pens := by
  unfold carryOne
  extract_lets tail n
  split
  · split
    extract_lets bs
    rw [writeAnchor_pens, modCmd_pens, appendLog_pens]
  · split
    · split
      extract_lets bs b1
      exact (writeAnchor_pens _ f).trans ((streams_pens b1 _).trans (appendLog_pens b f bs))
    · exact writeAnchor_pens ..

theorem RunsFree.carryOne {id : CmdId} {b : Blk} (h : RunsFree id b) (f : Nat) : RunsFree id (carryOne b f) := by
  have ha : ∀ bs, RunsFree id (appendLog b f bs) := fun bs => h.of_cmds (appendLog_cmds b f bs)
  have hc : ∀ {x : Blk} (k : CmdId) (lsn n : Nat), RunsFree id x → RunsFree id (Machine.modCmd x k fun c => { c with lsn := lsn, lines := n }) :=
    fun k lsn n hx => hx.modCmd k (fun _ => rfl) (fun _ => rfl) (fun _ => rfl)
  unfold Machine.carryOne
  extract_lets tail n
  split
  · split
    extract_lets bs
    exact (hc _ _ _ (ha bs)).of_cmds (writeAnchor_cmds _ f)
  · split
    · split
      extract_lets bs b1
      exact (ha bs).of_cmds ((writeAnchor_cmds _ f).trans (streams_cmds b1 _))
    · exact h.of_cmds (writeAnchor_cmds b f)

/-- Carries leave the pennants and a running command as they are. -/
theorem carryIfShort_keeps {b : Blk} {id : CmdId} (h : RunsFree id b) (f : Nat) :
    RunsFree id (carryIfShort b f) ∧ (carryIfShort b f).pens = b.pens := by
  unfold carryIfShort
  generalize b.cmds.length + b.t.stream.length + 1 = k
  induction k generalizing b with
  | zero => exact ⟨h, rfl⟩
  | succ k ih =>
    unfold carryLoop
    split
    · obtain ⟨hr, hp⟩ := ih (h.carryOne f)
      exact ⟨hr, hp.trans (carryOne_pens b f)⟩
    · exact ⟨h, rfl⟩

/-! ### SET and ADD -/

/-- What a SET or ADD of a command leaves of its pennant, but for the waiters (R438). -/
def operated (b : Blk) (c : Cmd) (add : Bool) (e : Pen) : Pen :=
  penApply e add (BitVec.ofNat 64 (fPenValue c)) (selfEp b) c.id.f 1 (tagOf c)

/-- The block in which a SET or ADD has operated on its pennant, its record written and APPLIED_LSN set to it. -/
def pennantDone (b : Blk) (c : Cmd) (p : Nat) (add : Bool) : Blk :=
  let x := progress b c 1 0 [fPenValue c, mk [(15, 0, fPen c), (16, 16, b2n add)], 0, 0]
  modFn (penOp x p add (BitVec.ofNat 64 (fPenValue c)) (selfEp x) c.id.f 1 (tagOf c)) c.id.f fun n => { n with appliedLsn := (getFn b c.id.f).head }

theorem pennantFx_mapped {b : Blk} {c : Cmd} {p : Nat} (add : Bool) (hp : penIdx b c.id.f (fPen c) = some p) :
    pennantFx b c add = endCmd (carryIfShort (pennantDone b c p add) c.id.f) c.id 0 (getPen (pennantDone b c p add) p).value.toNat := by
  unfold pennantFx
  dsimp only
  rw [hp]
  rfl

theorem progress_selfEp (b : Blk) (c : Cmd) (sub a : Nat) (ws : List Nat) : selfEp (progress b c sub a ws) = selfEp b := by
  obtain ⟨_, _, _, h⟩ := progress_only b c sub a ws
  rw [h]; rfl

theorem getPen_modFn (b : Blk) (f k : Nat) (g : Fn → Fn) : getPen (modFn b f g) k = getPen b k := rfl

theorem pennantDone_pens (b : Blk) (c : Cmd) (p : Nat) (add : Bool) :
    (∃ w, getPen (pennantDone b c p add) p = { operated b c add (getPen b p) with waiters := w }) ∧
    ∀ k, k ≠ p → getPen (pennantDone b c p add) k = getPen b k := by
  unfold pennantDone
  extract_lets x
  have hx : ∀ k, getPen x k = getPen b k := fun k => congrArg (fun t => tget pen0 t k) (progress_pens ..)
  have hself : selfEp x = selfEp b := progress_selfEp ..
  obtain ⟨⟨w, hw⟩, ho, -⟩ := penOp_leaves x p add (BitVec.ofNat 64 (fPenValue c)) (selfEp x) c.id.f 1 (tagOf c) (by decide)
  rw [hx] at hw
  refine ⟨⟨w, ?_⟩, fun k hk => ?_⟩
  · rw [getPen_modFn, hw, hself]; rfl
  · rw [getPen_modFn, ho k hk, hx]

theorem pennantDone_applied {b : Blk} {c : Cmd} (p : Nat) (add : Bool) (he : (getFn b c.id.f).enabled = true) :
    (getFn (pennantDone b c p add) c.id.f).enabled = true ∧ (getFn (pennantDone b c p add) c.id.f).appliedLsn = (getFn b c.id.f).head := by
  unfold pennantDone
  extract_lets x
  have hk : KeepsFlies b x := (KeepsFlies.refl b).progress ..
  obtain ⟨hx, -⟩ := hk.fn c.id.f he
  clear_value x
  obtain ⟨ho, -⟩ := (KeepsFlies.penOp x p add (BitVec.ofNat 64 (fPenValue c)) (selfEp x) c.id.f 1 (tagOf c)).fn c.id.f hx
  rw [getFn_applied _ ho]
  exact ⟨ho, rfl⟩

theorem RunsFree.pennantDone {b : Blk} {c : Cmd} (h : RunsFree c.id b) (p : Nat) (add : Bool) : RunsFree c.id (pennantDone b c p add) := by
  unfold Machine.pennantDone
  extract_lets x
  have hx : RunsFree c.id x := h.progress ..
  have ho := hx.penOp p add (BitVec.ofNat 64 (fPenValue c)) (selfEp x) c.id.f 1 (tagOf c)
  exact ho.of_cmds (modFn_cmds ..)

/-- A SET or ADD operates on its pennant alone, sets APPLIED_LSN to its record's, and ends OK with the value after it (R450). -/
theorem pennantFx_operates {b : Blk} {c : Cmd} {p : Nat} (add : Bool) (hr : RunsFree c.id b) (he : (getFn b c.id.f).enabled = true)
    (hp : penIdx b c.id.f (fPen c) = some p) :
    EndedWith (pennantFx b c add) c.id 0 (operated b c add (getPen b p)).value.toNat ∧
    (getFn (pennantFx b c add) c.id.f).appliedLsn = (getFn b c.id.f).head ∧
    (∃ w, getPen (pennantFx b c add) p = { operated b c add (getPen b p) with waiters := w }) ∧
    ∀ k, k ≠ p → getPen (pennantFx b c add) k = getPen b k := by
  obtain ⟨⟨w, hw⟩, ho⟩ := pennantDone_pens b c p add
  obtain ⟨hde, hda⟩ := pennantDone_applied p add he
  rw [pennantFx_mapped add hp, hw]
  have hd := hr.pennantDone p add
  generalize pennantDone b c p add = x at hd hde hda hw ho ⊢
  obtain ⟨hx, hxp⟩ := carryIfShort_keeps hd c.id.f
  have hl : (getFn (endCmd (carryIfShort x c.id.f) c.id 0 (operated b c add (getPen b p)).value.toNat) c.id.f).appliedLsn = _ :=
    ((((KeepsFlies.refl x).carryLoop _ c.id.f).endCmd c.id 0 _).fn _ hde).2
  have hpens : ∀ k, getPen (endCmd (carryIfShort x c.id.f) c.id 0 (operated b c add (getPen b p)).value.toNat) k = getPen x k := fun k => by
    rw [hx.ends]; exact congrArg (fun t => tget pen0 t k) hxp
  exact ⟨hx.endedWith 0 _, hl.trans hda, ⟨w, (hpens p).trans hw⟩, fun k hk => (hpens k).trans (ho k hk)⟩

theorem pennantFx_unmapped {b : Blk} {c : Cmd} (add : Bool) (hp : penIdx b c.id.f (fPen c) = none) : pennantFx b c add = endCmd b c.id 0x31 0 := by
  unfold pennantFx
  dsimp only
  rw [hp]

/-! ### The rows -/

/-- The rows of SET and ADD run `pennantFx` once the function's records are durable. -/
theorem pennantRows_run {s : State} {c : Cmd} (ha : awake s.b = true) : ∀ row ∈ ([(.pennantSet, 0), (.pennantAdd, 1)] : List ((CmdId → Instr) × Nat)),
    RunsNow s.b c.id 0x34 c → fPenOp c = row.2 → allDurable s.b c.id.f = true →
      exec (row.1 c.id) s = .next (commit s (pennantFx s.b c (row.2 == 1))) := by
  simp only [List.forall_mem_cons, List.not_mem_nil, false_implies, implies_true, and_true]
  refine ⟨fun hr ho hd => ?_, fun hr ho hd => ?_⟩
  · rw [row_pennantSet, act_awake ha, onRun_runs hr (awake_run ha), ho, hd]; rfl
  · rw [row_pennantAdd, act_awake ha, onRun_runs hr (awake_run ha), ho, hd]; rfl

theorem runsNow_free {b : Blk} {id : CmdId} {op : Nat} {c : Cmd} (h : RunsNow b id op c) (hw : c.waitOn = none) : RunsFree id b := by
  obtain ⟨hc, hp, -⟩ := h
  exact ⟨c, hc, hp, hw⟩

theorem runsNow_enabled {b : Blk} {id : CmdId} {op : Nat} {c : Cmd} (h : RunsNow b id op c) : (getFn b id.f).enabled = true := by
  obtain ⟨-, -, -, hl, -⟩ := h
  exact live_enabled hl

/-! ### WAIT -/

/-- A pennant with one more waiter. -/
def addWaiter (e : Pen) : Pen := { e with waiters := e.waiters + 1 }

theorem getPen_addWaiter (b : Blk) (p : Nat) : getPen (modPen b p addWaiter) p = addWaiter (getPen b p) :=
  getPen_modPen b p _ fun e => Nat.succ_ne_zero _ (congrArg Pen.waiters e)

section
variable {b : Blk} {c : Cmd} (hd : clauseDone c)
include hd

/-- Without a wait clause to come, the condition is the command's own. -/
theorem waitCond_own : waitCond c = (fPen c, fPenForm c, fPenValue c, fPenMask c) := by
  unfold waitCond
  exact if_neg (by rcases hd with h | h <;> simp [h])

theorem releaseHead_ends (v : Word) : releaseHead c v = { c with waitOn := none, phase := .ended, status := 0, result := v.toNat } := by
  unfold releaseHead
  exact if_neg (by rcases hd with h | h <;> simp [h])

/-- A WAIT whose condition holds already lets its command go at once (R453). -/
theorem penWait_ends {p : Nat} (h : condHolds (fPenForm c) (fPenValue c) (fPenMask c) (getPen b p).value.toNat = true) :
    penWait b c p = modCmd b c.id fun c => releaseHead c (getPen b p).value := by
  unfold penWait
  rw [waitCond_own hd]
  exact if_pos h

/-- A WAIT whose condition does not hold registers at its pennant (R453). -/
theorem penWait_waits {p : Nat} (h : condHolds (fPenForm c) (fPenValue c) (fPenMask c) (getPen b p).value.toNat = false) :
    penWait b c p = modCmd (modPen b p addWaiter) c.id fun c => { c with waitOn := some p } := by
  unfold penWait
  rw [waitCond_own hd]
  exact if_neg (Bool.eq_false_iff.mp h)

end

/-- A head that its wait has not ended runs on while it waits. -/
def runOn (c : Cmd) : Cmd := if decide (c.phase = .ended) then c else { c with phase := .running }

theorem runOn_id (c : Cmd) : (runOn c).id = c.id := by unfold runOn; split <;> rfl

/-- What WAIT at the head of its queue makes of the block. -/
def waitFx (b : Blk) (c : Cmd) : Blk :=
  match penIdx b c.id.f (fPen c) with
  | none => endCmd b c.id 0x31 0
  | some p => modCmd (penWait b c p) c.id runOn

section
variable {s : State} {c : Cmd} (hh : headCmd s.b c.id = some c) (hd : clauseDone c)
include hh hd

/-- WAIT at the head of its queue, whose clause is done (R450). -/
theorem pennantWait_exec (ha : awake s.b = true) (hop : opOf c = 0x34) (hpo : fPenOp c = 2) :
    exec (.pennantWait c.id) s = .next (commit s (waitFx s.b c)) := by
  have hw : (flWait c && !c.waitDone) = false := by rcases hd with h | h <;> simp [h]
  rw [row_pennantWait, act_awake ha, hh]
  dsimp only
  rw [if_neg (by simp [hop, hpo, hw])]
  rfl

/-- A WAIT whose condition holds already ends OK with the value, and touches no pennant. -/
theorem waitFx_ends {p : Nat} (hp : penIdx s.b c.id.f (fPen c) = some p)
    (h : condHolds (fPenForm c) (fPenValue c) (fPenMask c) (getPen s.b p).value.toNat = true) :
    EndedWith (waitFx s.b c) c.id 0 (getPen s.b p).value.toNat ∧ ∃ cmds, waitFx s.b c = { s.b with cmds := cmds } := by
  unfold waitFx
  rw [hp]
  dsimp only
  rw [penWait_ends hd h]
  refine ⟨⟨_, findCmd_modCmd_same _ runOn_id (findCmd_modCmd_same _ (fun c => releaseHead_id c _) (headCmd_find hh)), ?_⟩, _, rfl⟩
  rw [releaseHead_ends hd]
  exact ⟨rfl, rfl, rfl⟩

/-- A WAIT whose condition does not hold is counted with its pennant's waiters and runs on. -/
theorem waitFx_waits {p : Nat} (hp : penIdx s.b c.id.f (fPen c) = some p)
    (h : condHolds (fPenForm c) (fPenValue c) (fPenMask c) (getPen s.b p).value.toNat = false) :
    findCmd (waitFx s.b c) c.id = some { c with waitOn := some p, phase := .running } ∧
    ∃ cmds, waitFx s.b c = { modPen s.b p addWaiter with cmds := cmds } := by
  unfold waitFx
  rw [hp]
  dsimp only
  rw [penWait_waits hd h]
  have hf : findCmd (modPen s.b p addWaiter) c.id = some c := headCmd_find hh
  have hw := findCmd_modCmd_same (fun c => { c with waitOn := some p }) (fun _ => rfl) hf
  refine ⟨(findCmd_modCmd_same _ runOn_id hw).trans ?_, _, rfl⟩
  simp [runOn, headCmd_accepted hh]

end

/-- Settles O35: SET and ADD by `pennantFx_operates`, WAIT by `waitFx_ends` or `waitFx_waits` as its condition stands. -/
theorem pennantsOperate : Obligations.PennantsOperate := by
  unfold Obligations.PennantsOperate
  intro id c s ha hs hw
  refine ⟨fun row hrow hr hpo hdur => ?operates, fun hh hop hpo hd => ?waits⟩
  case operates =>
    obtain rfl := runs_id hr
    have run := pennantRows_run ha row hrow hr hpo hdur
    refine ⟨fun hp => ⟨_, run, ?_⟩, fun p hp => ?_⟩
    · rw [pennantFx_unmapped _ hp]
      exact runs_endedWith hr rfl _ _
    · obtain ⟨he, hl, ⟨w, hpen⟩, ho⟩ := pennantFx_operates (row.2 == 1) (runsNow_free hr hw) (runsNow_enabled hr) hp
      intro old v
      have hv : (operated s.b c (row.2 == 1) old).value = v := by simp [operated, penApply, v]
      refine ⟨_, w, run, hv ▸ EndedWith.of_cmds he rfl, hl, hpen.trans ?_, ho⟩
      rw [← hv]; rfl
  case waits =>
    obtain rfl := findCmd_id (headCmd_find hh)
    have run := pennantWait_exec hh hd ha hop hpo
    refine ⟨fun hp => ⟨_, run, ?_⟩, fun p hp => ⟨fun hc => ?_, fun hc => ?_⟩⟩
    · rw [waitFx, hp]
      exact endCmd_commit_endedWith _ _ (headCmd_find hh) (headCmd_accepted hh)
    · obtain ⟨he, cmds, hb⟩ := waitFx_ends hh hd hp hc
      refine ⟨_, run, EndedWith.of_cmds he rfl, by rw [hb]; rfl, ?_⟩
      rw [commit_mem, hb, hs]; rfl
    · obtain ⟨hf, cmds, hb⟩ := waitFx_waits hh hd hp hc
      refine ⟨_, run, hf, ?_, ?_, fun k hk => ?_⟩
      · rw [hb]; exact commit_of_no_stores s _ hs
      · rw [getPen_commit, hb]; exact getPen_addWaiter s.b p
      · rw [getPen_commit, hb]; exact getPen_modPen_other s.b p k addWaiter hk

end Sys2Proof.Machine
end

section
/-!
SUPPORT for O56: what sending to a die leaves of its port, what every request of a die meets first, and what fences and early ends leave of
the D2D ports and the watches (R459, R611, R715 to R721).
-/
namespace Sys2Proof.Machine

/-! ### Ports of dies -/

theorem getD2_modD2 {b : Blk} {p : Nat} (g : D2d → D2d) (h : p < b.d2d.length) : getD2 (modD2 b p g) p = g (getD2 b p) :=
  getD_modify_same _ _ _ _ h

theorem getD2_modD2_other (b : Blk) {p k : Nat} (g : D2d → D2d) (h : k ≠ p) : getD2 (modD2 b p g) k = getD2 b k :=
  getD_modify_other _ _ _ _ _ h

/-- Two changes that agree on the port as it stands are one. -/
theorem modD2_congr (b : Blk) (p : Nat) (g h : D2d → D2d) (e : g (getD2 b p) = h (getD2 b p)) : modD2 b p g = modD2 b p h := by
  unfold modD2
  rw [modify_congr b.d2d p g h d2d0 e]

theorem modD2_length (b : Blk) (p : Nat) (g : D2d → D2d) : (modD2 b p g).d2d.length = b.d2d.length := List.length_modify ..

/-- Messages leave a port with fewer credits, and change nothing else of it (R718). -/
theorem dPump_only (d : D2d) : ∃ outq sent req rsp oth, dPump d = { d with outq := outq, sent := sent, cReq := req, cRsp := rsp, cOth := oth } := by
  unfold dPump
  extract_lets step
  split
  · refine foldl_keeps (fun x : D2d × List Nat => ∃ outq sent req rsp oth, x.1 = { d with outq := outq, sent := sent, cReq := req, cRsp := rsp, cOth := oth })
      _ _ _ ⟨_, _, _, _, _, rfl⟩ ?_
    rintro ⟨x, held⟩ m ⟨_, _, _, _, _, h⟩
    dsimp only at h
    subst h
    simp only [step]
    split_ifs <;> exact ⟨_, _, _, _, _, rfl⟩
  · exact ⟨_, _, _, _, _, rfl⟩

/-- A message to a die changes what its port sends and has to send, and nothing else of any port. -/
theorem getD2_dSend (b : Blk) (k p : Nat) (x : DMsg) : ∃ outq sent req rsp oth,
    getD2 (dSend b k x) p = { getD2 b p with outq := outq, sent := sent, cReq := req, cRsp := rsp, cOth := oth } := by
  unfold dSend
  by_cases hk : p = k
  · subst hk
    by_cases hl : p < b.d2d.length
    · rw [getD2_modD2 _ hl]
      obtain ⟨_, _, _, _, _, e⟩ := dPump_only { getD2 b p with outq := (getD2 b p).outq ++ [x] }
      exact ⟨_, _, _, _, _, e⟩
    · have e : ∀ g, modD2 b p g = b := fun g => by unfold modD2; rw [List.modify_eq_self (Nat.le_of_not_lt hl)]
      rw [e]
      exact ⟨_, _, _, _, _, rfl⟩
  · rw [getD2_modD2_other b _ hk]
    exact ⟨_, _, _, _, _, rfl⟩

theorem dSend_length (b : Blk) (p : Nat) (x : DMsg) : (dSend b p x).d2d.length = b.d2d.length := modD2_length ..

theorem giveBack_length (b : Blk) (p cls units : Nat) : (giveBack b p cls units).d2d.length = b.d2d.length := dSend_length ..

section
variable (b : Blk) (k p cls units : Nat)

theorem getD2_giveBack : ∃ outq sent req rsp oth,
    getD2 (giveBack b k cls units) p = { getD2 b p with outq := outq, sent := sent, cReq := req, cRsp := rsp, cOth := oth } := getD2_dSend ..

theorem giveBack_outs : (getD2 (giveBack b k cls units) p).outs = (getD2 b p).outs := by
  obtain ⟨_, _, _, _, _, e⟩ := getD2_giveBack b k p cls units
  rw [e]

theorem giveBack_accs : (getD2 (giveBack b k cls units) p).accs = (getD2 b p).accs := by
  obtain ⟨_, _, _, _, _, e⟩ := getD2_giveBack b k p cls units
  rw [e]

theorem giveBack_nextAcc : (getD2 (giveBack b k cls units) p).nextAcc = (getD2 b p).nextAcc := by
  obtain ⟨_, _, _, _, _, e⟩ := getD2_giveBack b k p cls units
  rw [e]

theorem giveBack_held : (getD2 (giveBack b k cls units) p).held = (getD2 b p).held := by
  obtain ⟨_, _, _, _, _, e⟩ := getD2_giveBack b k p cls units
  rw [e]

end

/-! ### What every request meets first -/

section
variable {b : Blk} {p : Nat} (ht : dieTalks b p = true) (f tag type cls units zeros : Nat) (k : Blk → Blk)
include ht

/-- During a block reset a request is answered NOT_READY (R719). -/
theorem request_notReady (hr : b.life.phase ≠ .run) : request b p f tag type cls units zeros k =
    respond (giveBack b p cls units) p type f tag 3 (List.replicate zeros 0) := by
  simp [request, ht, hr]

/-- A request for a function that its port may not act for is answered DENIED and counted (R719). -/
theorem request_denied (hr : b.life.phase = .run) (hm : tb (getFn b f).d2dMask p = false) : request b p f tag type cls units zeros k =
    respond (denied (giveBack b p cls units) p) p type f tag 1 (List.replicate zeros 0) := by
  simp [request, ht, hr, hm]

/-- A permitted request goes on; an OTH one keeps its credit until it is injected. -/
theorem request_passes (hr : b.life.phase = .run) (hm : tb (getFn b f).d2dMask p = true) : request b p f tag type cls units zeros k =
    k (if cls == 2 then b else giveBack b p cls units) := by
  simp [request, ht, hr, hm]

end

/-! ### Early ends leave the dies and the watches as they are -/

/-- The D2D ports and the watches stand as they were. -/
structure KeepsDies (b b' : Blk) : Prop where
  d2d : b'.d2d = b.d2d
  watches : b'.watches = b.watches

namespace KeepsDies

theorem refl (b : Blk) : KeepsDies b b := ⟨rfl, rfl⟩

theorem trans {b b' b'' : Blk} (h : KeepsDies b b') (h' : KeepsDies b' b'') : KeepsDies b b'' :=
  ⟨h'.d2d.trans h.d2d, h'.watches.trans h.watches⟩

theorem foldl {α : Type} (l : List α) (g : Blk → α → Blk) (b : Blk) (h : ∀ b x, KeepsDies b (g b x)) : KeepsDies b (l.foldl g b) :=
  foldl_keeps (KeepsDies b) l g b (refl b) fun y x hy => hy.trans (h y x)

theorem event (b : Blk) (f code q info a0 a1 : Nat) : KeepsDies b (event b f code q info a0 a1) := by
  rw [event_eq]; exact ⟨rfl, rfl⟩

theorem streamError (b : Blk) (f n st : Nat) : KeepsDies b (streamError b f n st) := by
  rw [streamError_eq]; exact ⟨rfl, rfl⟩

theorem abandon (b : Blk) (gid gen : Nat) (cs : Option Nat) : KeepsDies b (abandon b gid gen cs) := by
  rw [abandon_eq]; exact ⟨rfl, rfl⟩

theorem failCmd (b : Blk) (id : CmdId) (st no : Nat) : KeepsDies b (failCmd b id st no) := by
  obtain ⟨_, _, _, _, _, _, _, _, h⟩ := failCmd_only b id st no
  rw [h]; exact ⟨rfl, rfl⟩

theorem leave (b : Blk) (x : Unsent) : KeepsDies b (leave b x) := by
  obtain ⟨_, _, _, _, _, _, h⟩ := (leave_sentFrom b x).frame
  rw [h]; exact ⟨rfl, rfl⟩

theorem modDst (b : Blk) (ep : Nat) (g : DstSt → DstSt) : KeepsDies b (modDst b ep g) := ⟨rfl, rfl⟩
theorem modMdst (b : Blk) (d : Nat) (g : DstSt → DstSt) : KeepsDies b (modMdst b d g) := ⟨rfl, rfl⟩
theorem purge (b : Blk) (id : CmdId) : KeepsDies b (purge b id) := ⟨rfl, rfl⟩

theorem flush (b : Blk) (ep : Nat) : KeepsDies b (flush b ep) := by
  unfold Machine.flush
  generalize (getDst b ep).waiting.length = n
  induction n generalizing b with
  | zero => exact refl b
  | succ n ih =>
    unfold flushDst
    split
    · exact refl b
    next x rest _ =>
      split
      · exact ((modDst b ep _).trans (leave _ x)).trans (ih _)
      · exact refl b

theorem mcCopies (b : Blk) (a : Nat) (p : Pkt) (d mask : Nat) : KeepsDies b (mcCopies b a p d mask) := by
  obtain ⟨_, h⟩ := mcCopies_only b a p d mask
  rw [h]; exact ⟨rfl, rfl⟩

theorem leaveMc (b : Blk) (d mask : Nat) (x : Unsent) : KeepsDies b (leaveMc b d mask x) := by
  unfold Machine.leaveMc
  extract_lets n p b1
  have h1 : KeepsDies b b1 := modMdst ..
  exact h1.trans (mcCopies b1 63 p d mask)

theorem flushMc (b : Blk) (d : Nat) : KeepsDies b (flushMc b d) := by
  unfold Machine.flushMc
  generalize (getMdst b d).waiting.length = n
  induction n generalizing b with
  | zero => exact refl b
  | succ n ih =>
    unfold flushMcAt
    split
    · exact refl b
    next x rest _ =>
      split
      · exact ((modMdst b d _).trans (leaveMc _ d _ x)).trans (ih _)
      · exact refl b

theorem endDrain (b : Blk) (id : CmdId) : KeepsDies b (endDrain b id) := by
  unfold Machine.endDrain
  split
  next d _ =>
    split
    · have h : KeepsDies b { b with fab := { b.fab with drain := none } } := ⟨rfl, rfl⟩
      exact (h.trans (foldl _ _ _ flush)).trans (foldl _ _ _ flushMc)
    · exact refl b
  · exact refl b

theorem dropHalyards (b : Blk) (h : Nat) : KeepsDies b (dropHalyards b h) :=
  foldl _ _ _ fun b e => by
    obtain ⟨_, _, _, h, -⟩ := releaseHaly_only b e.1
    rw [h]; exact ⟨rfl, rfl⟩

theorem unreserve (b : Blk) (id : CmdId) : KeepsDies b (unreserve b id) := by
  unfold Machine.unreserve withCmd
  split
  · dsimp only
    split
    next h _ =>
      split
      · have hd := (dropHalyards b h).trans (b'' := modHoist (Machine.dropHalyards b h) h fun _ => hoist0) ⟨modHoist_d2d .., modHoist_watches ..⟩
        exact hd.trans ⟨modCmd_d2d .., modCmd_watches ..⟩
      · exact refl b
    · exact refl b
  · exact refl b

theorem unstage (b : Blk) (id : CmdId) : KeepsDies b (unstage b id) :=
  ((unreserve b id).trans (endDrain _ id)).trans ⟨rfl, rfl⟩

theorem endEarly (b : Blk) (id : CmdId) (st no : Nat) : KeepsDies b (endEarly b id st no) := by
  unfold Machine.endEarly
  extract_lets b1
  have h1 : KeepsDies b b1 := by
    unfold b1 withCmd
    split
    · dsimp only
      split
      · exact abandon ..
      · exact refl b
    · exact refl b
  exact ((h1.trans (failCmd b1 id st no)).trans (purge _ id)).trans (unstage _ id)

theorem endSpace (b : Blk) (p st : Nat) : KeepsDies b (endSpace b p st) := foldl _ _ _ fun b c => endEarly b c.id st 0x10

theorem unitFenced (b : Blk) (kind cause idx sub : Nat) : KeepsDies b (unitFenced b kind cause idx sub) := event ..

end KeepsDies

/-- Notices of a fence to the watches leave the ports as many as they were. -/
theorem notifyFault_only (l : List Watch) (b : Blk) : ∃ pens d2d, d2d.length = b.d2d.length ∧
    l.foldl (fun b w => notify (modPen b w.pen fun e => { e with waiters := e.waiters - 1 }) w 2 0) b = { b with pens := pens, d2d := d2d } := by
  refine foldl_keeps (fun x : Blk => ∃ pens d2d, d2d.length = b.d2d.length ∧ x = { b with pens := pens, d2d := d2d }) l _ b ⟨_, _, rfl, rfl⟩ ?_
  rintro x w ⟨pens, d2d, hl, rfl⟩
  exact ⟨_, _, (dSend_length ..).trans hl, rfl⟩

/-- A D2D port that is fenced: its state, and no watch of it is left (R611). -/
theorem fenceD2d_fences {b : Blk} {p : Nat} (cause : Nat) (hp : p < 4) (hl : p < b.d2d.length) (hs : (getD2 b p).state ≠ 2) :
    (getD2 (fenceD2d b p cause) p).state = 2 ∧ ∀ w ∈ (fenceD2d b p cause).watches, w.port ≠ p := by
  unfold fenceD2d
  rw [if_neg (by simp [hs]; omega)]
  extract_lets ws b1 b2 b3 b4
  obtain ⟨pens, d2d, hlen, h1⟩ : ∃ pens d2d, d2d.length = b.d2d.length ∧ b1 = { b with pens := pens, d2d := d2d } := notifyFault_only ws b
  have h3 : (getD2 b3 p).state = 2 ∧ b3.watches = b.watches.filter fun w => w.port != p := by
    have hl2 : p < b2.d2d.length := by simp only [b2, h1, hlen]; exact hl
    exact ⟨by rw [getD2_modD2 _ hl2], by simp only [b3, b2, modD2_watches, h1]⟩
  have h4 : KeepsDies b3 b4 := .foldl _ _ _ fun b e => .streamError b _ _ _
  have h := (h4.trans (.endSpace b4 p 0x50)).trans (.unitFenced _ 4 cause p 0)
  obtain ⟨hs3, hw3⟩ := h3
  refine ⟨by unfold getD2 at hs3 ⊢; rw [h.d2d]; exact hs3, fun w hw => ?_⟩
  rw [h.watches, hw3] at hw
  simpa using (List.mem_filter.mp hw).2

end Sys2Proof.Machine
end

section
/-!
SUPPORT for O56: the requests of a die (R457 to R459, R719).
-/
namespace Sys2Proof.Machine

/-! ### What messages leave of pennants -/

theorem getPen_dSend (b : Blk) (p k : Nat) (x : DMsg) : getPen (dSend b p x) k = getPen b k := rfl
theorem dSend_stores (b : Blk) (p : Nat) (x : DMsg) : (dSend b p x).stores = b.stores := rfl
theorem penIdx_giveBack (b : Blk) (p cls units f vid : Nat) : penIdx (giveBack b p cls units) f vid = penIdx b f vid := rfl
theorem watches_giveBack (b : Blk) (p cls units : Nat) : (giveBack b p cls units).watches = b.watches := rfl

/-- The body of an answer without a value. -/
theorem leBytes_zero : leBytes (0 : Word).toNat 8 = List.replicate 8 0 := by decide

/-! ### Operations of a die on a pennant -/

/-- An operation leaves everything but its pennant's entry and that pennant's waiters (R457). -/
structure OperatedBy (b b' : Blk) (i : Nat) (add : Bool) (v : Word) (f tag : Nat) : Prop where
  stores : b'.stores = b.stores
  other : ∀ k, k ≠ i → getPen b' k = getPen b k
  entry : ∃ w, getPen b' i = { penApply (getPen b i) add v (selfEp b) f 4 tag with waiters := w }

/-- The die ports have no part in what an operation starts from. -/
theorem OperatedBy.of_dies {b b' : Blk} {d2d : List D2d} {i : Nat} {add : Bool} {v : Word} {f tag : Nat}
    (h : OperatedBy { b with d2d := d2d } b' i add v f tag) : OperatedBy b b' i add v f tag := by
  obtain ⟨hs, ho, he⟩ := h
  exact ⟨hs, ho, he⟩

theorem penNow_operates {b : Blk} {h : DHeld} {i : Nat} (p : Nat) (hi : penIdx b h.f h.vid = some i) :
    OperatedBy b (penNow b p h) i h.add h.value h.f h.tag := by
  obtain ⟨hw, ho, _, _, _, _, _, _, he⟩ := penOp_leaves b i h.add h.value (selfEp b) h.f 4 h.tag (by decide)
  unfold penNow
  rw [hi]
  dsimp only
  unfold penRsp respond
  refine ⟨?_, fun k hk => ?_, ?_⟩
  · rw [dSend_stores, he]
  · rw [getPen_dSend]; exact ho k hk
  · rw [getPen_dSend]; exact hw

/-- An operation that waits for no write is applied at once. -/
theorem releaseHeld_ready {b : Blk} {p : Nat} {h : DHeld} (hd : (getD2 b p).held = [h]) (hw : h.waits = []) :
    ∃ d2d, releaseHeld b p = penNow { b with d2d := d2d } p h := by
  unfold releaseHeld
  extract_lets d unanswered ready
  have hf : d.held.filter ready = [h] := by
    rw [show d.held = [h] from hd]
    simp [ready, hw]
  rw [hf]
  exact ⟨_, rfl⟩

/-- An operation stays held while a write that it waits for has no answer (R458). -/
theorem releaseHeld_waits {b : Blk} {p : Nat} {h : DHeld} (hl : p < b.d2d.length) (hd : (getD2 b p).held = [h])
    (hw : h.waits = ((getD2 b p).accs.filter (·.wr)).map (·.n)) (hn : (getD2 b p).accs.filter (·.wr) ≠ []) :
    (getD2 (releaseHeld b p) p).held = [h] ∧ (releaseHeld b p).pens = b.pens := by
  unfold releaseHeld
  extract_lets d unanswered ready
  have hr : ready h = false := by
    obtain ⟨a, as, ha⟩ := List.exists_cons_of_ne_nil hn
    simp [ready, unanswered, hw, d, ha]
  have hf : d.held.filter ready = [] := by
    rw [show d.held = [h] from hd]
    simp [hr]
  rw [hf, List.foldl_nil, getD2_modD2 _ hl]
  refine ⟨?_, modD2_pens ..⟩
  show d.held.filter _ = [h]
  rw [show d.held = [h] from hd]
  simp [hr]

theorem no_watch_pending {b : Blk} {p wtag : Nat} (hw : (b.watches.filter fun w => w.port == p && w.wtag == wtag) = []) :
    ¬ (b.watches.any fun w => w.port == p && w.wtag == wtag) = true := by
  rw [List.any_eq_true]
  rintro ⟨w, hm, h⟩
  exact List.filter_eq_nil_iff.mp hw w hm h

/-- A die's operation as it is held: behind a FENCE it waits for the writes that its port has not answered (R458). -/
def heldOp (b : Blk) (p f vid tag : Nat) (fence add : Bool) (v : Word) : DHeld :=
  { f, vid, tag, add, value := v, waits := if fence then ((getD2 b p).accs.filter (·.wr)).map (·.n) else [] }

/-- The block with the credit of an operation returned and the operation held. -/
def joined (b : Blk) (p : Nat) (h : DHeld) : Blk := modD2 (giveBack b p 0 (unitsOf 16)) p fun d => { d with held := d.held ++ [h] }

theorem joined_length (b : Blk) (p : Nat) (h : DHeld) : (joined b p h).d2d.length = b.d2d.length := (modD2_length ..).trans (giveBack_length ..)

theorem joined_held {b : Blk} {p : Nat} (h : DHeld) (hl : p < b.d2d.length) (hd : (getD2 b p).held = []) : (getD2 (joined b p h) p).held = [h] := by
  unfold joined
  rw [getD2_modD2 _ (by rw [giveBack_length]; exact hl), giveBack_held, hd]
  rfl

theorem joined_accs {b : Blk} {p : Nat} (h : DHeld) (hl : p < b.d2d.length) : (getD2 (joined b p h) p).accs = (getD2 b p).accs := by
  unfold joined
  rw [getD2_modD2 _ (by rw [giveBack_length]; exact hl), giveBack_accs]

section
variable {b : Blk} {p f : Nat} (ht : dieTalks b p = true) (hr : b.life.phase = .run) (hm : tb (getFn b f).d2dMask p = true)
include ht hr hm

/-- A permitted request goes on once the credit of its message is returned. -/
theorem request_takes (tag type units zeros : Nat) (k : Blk → Blk) : request b p f tag type 0 units zeros k = k (giveBack b p 0 units) :=
  request_passes ht f tag type 0 units zeros k hr hm

/-! ### D2D_SET, D2D_ADD, D2D_READ -/

/-- A SET or ADD joins the operations held, and what is ready goes on. -/
theorem diePen_joins (vid tag : Nat) (fence add : Bool) (v : Word) :
    diePen b p f vid tag fence add v = releaseHeld (joined b p (heldOp b p f vid tag fence add v)) p := by
  unfold diePen
  rw [request_takes ht hr hm]
  dsimp only
  rw [giveBack_accs]
  rfl

section
variable (vid tag : Nat) (add : Bool) (v : Word) (hl : p < b.d2d.length) (hd : (getD2 b p).held = [])
include hl hd

theorem diePen_operates {i : Nat} (hi : penIdx b f vid = some i) : OperatedBy b (diePen b p f vid tag false add v) i add v f tag := by
  rw [diePen_joins ht hr hm]
  obtain ⟨d2d, h⟩ := releaseHeld_ready (joined_held (heldOp b p f vid tag false add v) hl hd) rfl
  rw [h]
  have hx : penIdx { b with d2d := d2d } f vid = some i := hi
  exact (penNow_operates (h := heldOp b p f vid tag false add v) p hx).of_dies

theorem diePen_fenced (hn : (getD2 b p).accs.filter (·.wr) ≠ []) :
    (getD2 (diePen b p f vid tag true add v) p).held = [heldOp b p f vid tag true add v] ∧ (diePen b p f vid tag true add v).pens = b.pens := by
  rw [diePen_joins ht hr hm]
  have ha := joined_accs (heldOp b p f vid tag true add v) hl
  exact releaseHeld_waits (by rw [joined_length]; exact hl) (joined_held _ hl hd) (by rw [ha]; rfl) (by rw [ha]; exact hn)

end

theorem dieRead_unmapped {vid : Nat} (tag : Nat) (hi : penIdx b f vid = none) :
    dieRead b p f vid tag = respond (giveBack b p 0 (unitsOf 16)) p 3 f tag 2 (List.replicate 8 0) := by
  unfold dieRead
  rw [request_takes ht hr hm, penIdx_giveBack, hi, ← leBytes_zero]
  rfl

theorem dieRead_reads {vid i : Nat} (tag : Nat) (hi : penIdx b f vid = some i) :
    dieRead b p f vid tag = respond (giveBack b p 0 (unitsOf 16)) p 3 f tag 0 (leBytes (getPen b i).value.toNat 8) := by
  unfold dieRead
  rw [request_takes ht hr hm, penIdx_giveBack, hi]
  rfl

/-! ### WATCH and UNWATCH -/

/-- A second watch under a pending tag is refused and counted (R459). -/
theorem watchFx_refuses {wtag : Nat} (vid tag form : Nat) (v mask : Word) (h : (b.watches.filter fun w => w.port == p && w.wtag == wtag) ≠ []) :
    watchFx b p f vid tag wtag form v mask = respond (denied (giveBack b p 0 (unitsOf 16)) p) p 3 f tag 1 (List.replicate 8 0) := by
  have hany : (b.watches.any fun w => w.port == p && w.wtag == wtag) = true := by
    obtain ⟨w, hw⟩ := List.exists_mem_of_ne_nil _ h
    exact List.any_eq_true.mpr ⟨w, List.mem_filter.mp hw⟩
  unfold watchFx
  rw [request_takes ht hr hm, watches_giveBack, if_pos hany, ← leBytes_zero]
  rfl

section
variable {wtag : Nat} (hw : (b.watches.filter fun w => w.port == p && w.wtag == wtag) = [])
include hw

theorem watchFx_unmapped {vid : Nat} (tag form : Nat) (v mask : Word) (hi : penIdx b f vid = none) :
    watchFx b p f vid tag wtag form v mask = respond (giveBack b p 0 (unitsOf 16)) p 3 f tag 2 (List.replicate 8 0) := by
  unfold watchFx
  rw [request_takes ht hr hm, watches_giveBack, if_neg (no_watch_pending hw), penIdx_giveBack, hi, ← leBytes_zero]
  rfl

/-- A watch whose condition holds is notified behind its answer, any other is kept at its pennant (R459). -/
theorem watchFx_watches {vid i : Nat} (tag form : Nat) (v mask : Word) (hi : penIdx b f vid = some i) :
    watchFx b p f vid tag wtag form v mask =
      let x := respond (giveBack b p 0 (unitsOf 16)) p 3 f tag 0 (List.replicate 8 0)
      if condHolds form v.toNat mask.toNat (getPen b i).value.toNat then
        notify x { port := p, wtag, pen := i, f, form, value := v, mask } 0 (getPen b i).value
      else modPen { x with watches := b.watches ++ [{ port := p, wtag, pen := i, f, form, value := v, mask }] } i addWaiter := by
  unfold watchFx
  rw [request_takes ht hr hm, watches_giveBack, if_neg (no_watch_pending hw), penIdx_giveBack, hi, ← leBytes_zero]
  rfl

theorem unwatchFx_unknown (tag : Nat) : unwatchFx b p f tag wtag = respond (giveBack b p 0 (unitsOf 16)) p 3 f tag 5 (List.replicate 8 0) := by
  unfold unwatchFx
  rw [request_takes ht hr hm, watches_giveBack, ← List.head?_filter, hw, ← leBytes_zero]
  rfl

end

/-- A watch withdrawn leaves its pennant (R459, R720). -/
theorem unwatchFx_withdraws {wtag : Nat} {w : Watch} {r : List Watch} (tag : Nat)
    (hw : (b.watches.filter fun w => w.port == p && w.wtag == wtag) = w :: r) : unwatchFx b p f tag wtag =
      respond (modPen { giveBack b p 0 (unitsOf 16) with watches := b.watches.filter fun x => !(x.port == p && x.wtag == wtag) } w.pen
        fun e => { e with waiters := e.waiters - 1 }) p 3 f tag 0 (List.replicate 8 0) := by
  unfold unwatchFx
  rw [request_takes ht hr hm, watches_giveBack, ← List.head?_filter, hw, ← leBytes_zero]
  rfl

end

/-! ### Accesses of a die -/

/-- The access that a port with these numbers makes of a request. -/
def accOf (d : D2d) (tag f va : Nat) (wr : Bool) (runs : List (Nat × List Byte)) (lines : Nat) : DAcc := { n := d.nextAcc, tag, f, va, wr, runs, lines }

/-- The port once it has noted an access. -/
def takeAcc (tag f va : Nat) (wr : Bool) (runs : List (Nat × List Byte)) (lines : Nat) (d : D2d) : D2d :=
  { d with accs := d.accs ++ [accOf d tag f va wr runs lines], nextAcc := d.nextAcc + 1 }

theorem dieAcc_issues (b : Blk) (p f tag va : Nat) (wr : Bool) (runs : List (Nat × List Byte)) (lines : Nat) :
    dieAcc b p f tag va wr runs lines =
      dieIssue (modD2 b p (takeAcc tag f (va / 64 * 64) wr runs lines)) p (accOf (getD2 b p) tag f (va / 64 * 64) wr runs lines) := by
  unfold dieAcc
  dsimp only
  exact congrArg (fun x => dieIssue x p _) (modD2_congr b p _ _ rfl)

section
variable {b : Blk} {p f : Nat} (ht : dieTalks b p = true) (hr : b.life.phase = .run) (hm : tb (getFn b f).d2dMask p = true) (tag addr : Nat)
include ht hr hm

theorem mwrFx_issues (en : List Bool) (bs : List Byte) : mwrFx b p f tag addr en bs =
    dieIssue (modD2 (giveBack b p 0 (unitsOf bs.length)) p (takeAcc tag f (addr / 64 * 64) true (enabledRuns en bs) (cdiv bs.length 64))) p
      (accOf (getD2 b p) tag f (addr / 64 * 64) true (enabledRuns en bs) (cdiv bs.length 64)) := by
  unfold mwrFx
  rw [request_takes ht hr hm, dieAcc_issues, accOf, giveBack_nextAcc]
  rfl

theorem mrdFx_issues (len : Nat) : mrdFx b p f tag addr len =
    dieIssue (modD2 (giveBack b p 0 (unitsOf 8)) p (takeAcc tag f (addr / 64 * 64) false [] (max 1 (min 64 (cdiv len 64))))) p
      (accOf (getD2 b p) tag f (addr / 64 * 64) false [] (max 1 (min 64 (cdiv len 64)))) := by
  unfold mrdFx
  rw [request_takes ht hr hm, dieAcc_issues, accOf, giveBack_nextAcc]
  rfl

end

section
variable {b : Blk} {a : DAcc} (p : Nat)

theorem dieIssue_untranslated (h : b.xlats.find? (xlCovers · (getFn b a.f).context a.va) = none) :
    dieIssue b p a = needXl b a.f a.va a.wr (.die p a.n) := by
  unfold dieIssue
  rw [h]

variable {x : Xl} {m : Nat} (h : b.xlats.find? (xlCovers · (getFn b a.f).context a.va) = some x) (hp : portOf b (fnKey b a.f 0 a.va) = some m)
include h hp

/-- A write of a page that may be written goes to the port of its page. -/
theorem dieIssue_writes (hw : a.wr = true) (hx : x.wr = true) :
    let runs := a.runs.map fun r => (fnKey b a.f 0 a.va + r.1, r.2)
    dieIssue b p a = modM b m fun q => startMem { q with wrWait := q.wrWait ++
      [{ tag := 0, bytes := runs, puts := max 1 (putsOf runs), msi := false, use := .die p a.n }] } := by
  unfold dieIssue
  rw [h]
  dsimp only
  rw [if_neg (by simp [hx]), if_pos hw]
  unfold issueRuns
  rw [hp]

theorem dieIssue_reads (hw : a.wr = false) (hf : b.life.fatal = 0) :
    dieIssue b p a = modM b m fun q => startMem { q with rdWait := q.rdWait ++
      [{ tag := 0, addr := fnKey b a.f 0 a.va, lines := a.lines, vol := false, use := .die p a.n }] } := by
  unfold dieIssue
  rw [h]
  dsimp only
  rw [if_neg (by simp [hw]), if_neg (by simp [hw])]
  unfold issueRead
  rw [if_pos (by simp [hf]), hp]

end

end Sys2Proof.Machine
end

section
/-!
SUPPORT for O56: responses of a die, injected packets, and the state of the FDI (R346, R364, R712, R718 to R721).
-/
namespace Sys2Proof.Machine

/-! ### Accesses of this engine that fail -/

theorem accessEnd_endedWith {b : Blk} {id : CmdId} {c : Cmd} (a : AccFault) (hc : findCmd b id = some c) (hp : c.phase = .running) :
    ∃ r, EndedWith (accessEnd b c a) id (faultStatus a.kind) r := by
  obtain rfl := findCmd_id hc
  unfold accessEnd accessEvent
  refine endEarly_endedWith _ 0x10 (c := c) ((findCmd_congr c.id ?_).trans hc) (by rw [hp]; decide)
  rw [event_eq]

/-- An access that fails ends its command FAULT_ACCESS (R721). -/
theorem outFail_ends {b : Blk} {o : DOut} {id : CmdId} {c : Cmd} (p : Nat) (ho : o.who = .cmd id) (hc : findCmd b id = some c)
    (hp : c.phase = .running) : ∃ r, EndedWith (outFail b p o) id 0x31 r := by
  unfold outFail
  rw [ho]
  dsimp only
  unfold withCmd
  rw [hc]
  dsimp only
  rw [if_pos (by simp [hp])]
  exact accessEnd_endedWith _ hc hp

section
variable {b : Blk} {p : Nat} (ht : dieTalks b p = true) {tag : Nat} {write : Bool} (status units : Nat)
include ht

/-- A response that no access waits for is discarded. -/
theorem dieResponse_late (h : ((getD2 b p).outs.find? fun o => o.tag == tag && o.write == write) = none) :
    dieResponse b p tag status units write = giveBack b p 1 units := by
  unfold dieResponse
  rw [if_neg (by simp [ht])]
  dsimp only
  rw [giveBack_outs, h]

/-- A response ends its access, which has failed unless the status is 0. -/
theorem dieResponse_answers {o : DOut} (h : ((getD2 b p).outs.find? fun o => o.tag == tag && o.write == write) = some o) :
    dieResponse b p tag status units write =
      let x := modD2 (giveBack b p 1 units) p fun d => { d with outs := d.outs.erase o }
      if status = 0 then x else outFail x p o := by
  unfold dieResponse
  rw [if_neg (by simp [ht])]
  dsimp only
  rw [giveBack_outs, h]
  simp only [beq_iff_eq]

end

theorem outTimeout_none {b : Blk} {p tag : Nat} (h : ((getD2 b p).outs.find? fun o => o.tag == tag) = none) : outTimeout b p tag = b := by
  unfold outTimeout
  rw [h]

theorem outTimeout_fails {b : Blk} {p tag : Nat} {o : DOut} (h : ((getD2 b p).outs.find? fun o => o.tag == tag) = some o) :
    outTimeout b p tag = outFail (modD2 b p fun d => { d with outs := d.outs.erase o }) p o := by
  unfold outTimeout
  rw [h]

/-! ### PKT_TX -/

section
variable {b : Blk} {p f : Nat} (ht : dieTalks b p = true) (hr : b.life.phase = .run) (hm : tb (getFn b f).d2dMask p = true)
include ht hr hm

/-- A permitted packet of a die goes on, its credit kept for the injection. -/
theorem request_keeps (tag type units zeros : Nat) (k : Blk → Blk) : request b p f tag type 2 units zeros k = k b :=
  request_passes ht f tag type 2 units zeros k hr hm

/-- A packet without a route, or too long, is refused. -/
theorem pktTxFx_refuses {dst : Nat} {bytes : List Byte} (tag : Nat) (h : (dst ≠ selfEp b ∧ rtValid (routeOf b dst) = false) ∨ 3072 < bytes.length) :
    pktTxFx b p f tag dst bytes = respond (giveBack b p 2 (unitsOf bytes.length)) p 0x0B f tag 4 [] := by
  unfold pktTxFx
  dsimp only
  rw [request_keeps ht hr hm]
  exact if_pos (by rcases h with ⟨h1, h2⟩ | h <;> simp [*])

/-- An injected packet is sent; its credit returns at once while its output has room in this beat (R364). -/
theorem pktTxFx_injects {dst n : Nat} {bytes : List Byte} (tag : Nat) (hd : dst ≠ selfEp b) (hv : rtValid (routeOf b dst) = true)
    (hn : bytes.length ≤ 3072)
    (hp : portAt b (rtCode (routeOf b dst) (if tb (leAt bytes 0 8) 11 then false else chooseAlt b (routeOf b dst) 1) 0) = some n) :
    pktTxFx b p f tag dst bytes =
      let u := unitsOf bytes.length
      let pkt : Pkt := { hdr := hdrTo b dst 0 1, body := .other bytes }
      sendTo (modP (if mayInject b n then giveBack b p 2 u else modD2 b p fun d => { d with owed := d.owed + u }) n
        fun q => { q with injected := q.injected + (cellsOf pkt).length }) pkt none (b2n (tb (leAt bytes 0 8) 11)) := by
  unfold pktTxFx
  dsimp only
  rw [request_keeps ht hr hm, if_neg (by simp [hv]; omega)]
  unfold injectFx
  dsimp only
  rw [if_neg (by simpa using hd), hp]

end

/-! ### The FDI -/

section
variable {b : Blk} {p : Nat} (hp : p < 4) (hc : (getD2 b p).cfgErr = false)
include hp hc

/-- An FDI that becomes active in another configuration than R711's is disabled. -/
theorem fdiFx_misconfigured (h0 : (getD2 b p).state = 0) :
    fdiFx b p true false = modD2 b p fun d => { d with cfgErr := true, stateReq := fdiDisabled } := by
  unfold fdiFx
  simp [h0, hc]; omega

/-- An FDI that becomes active grants the die its credits (R712, R718). -/
theorem fdiFx_activates (h0 : (getD2 b p).state = 0) :
    fdiFx b p true true = dSend (modD2 b p fun d => { d with
      state := if b.life.phase = .run then 1 else 3, everActive := true, stateReq := fdiActive, cReq := 0, cRsp := 0, cOth := 0
      gReq := 1024, gRsp := 1024, gOth := 1024, owed := 0, sent := [] }) p (creditMsg 1024 1024 1024) := by
  unfold fdiFx
  simp [h0, hc]; omega

theorem fdiFx_loses (ok : Bool) (hs : (getD2 b p).state ≠ 2) (h0 : (getD2 b p).state ≠ 0) : fdiFx b p false ok = fdiLost b p := by
  unfold fdiFx
  simp [h0, hc, hs]; omega

end

end Sys2Proof.Machine
end

section
/-!
O56: the messages of a die and the state of its FDI (R364, R457 to R459, R712, R715 to R721).
-/
namespace Sys2Proof.Machine

/-! ### The rows -/

theorem alive_iff {b : Blk} : alive b = true ↔ (b.life.scanMode = false ∧ b.life.inReset = false) ∧ b.life.fatal = 0 := by
  simp [alive]

theorem sendTo_stores (b : Blk) (p : Pkt) (cmd : Option CmdId) (rank : Nat) : (sendTo b p cmd rank).stores = b.stores := by
  obtain ⟨_, _, _, _, _, _, h⟩ := (sendTo_sentFrom b p cmd rank).frame
  rw [h]

section
variable {s : State} (ha : alive s.b = true) {i : Instr} {F : Blk → Blk} (row : exec i s = actLive s fun b _ => F b)
include ha row

/-- A row whose effect on the block is known and stores no byte. -/
theorem live_yields {b : Blk} (h : F s.b = b) (hs : b.stores = []) : exec i s = .next { s with b } :=
  row.trans (actLive_yields ha h hs)

theorem live_commits : exec i s = .next (commit s (F s.b)) := row.trans (actLive_alive ha _)

/-- A row that ends a command. -/
theorem live_ends {id : CmdId} {st : Nat} (h : ∃ r, EndedWith (F s.b) id st r) : ∃ t r, exec i s = .next t ∧ EndedWith t.b id st r := by
  obtain ⟨r, h⟩ := h
  exact ⟨_, r, live_commits ha row, EndedWith.of_cmds h rfl⟩

end

/-- The rows of requests that are answered, with the type of the answer, the length of the request's body, and that of a refusal's body. -/
theorem requestRows_run (s : State) (p f tag vid : Nat) (v v' : Word) (fence : Bool) (wtag form addr len : Nat) (en : List Bool) (bs : List Byte) :
    ∀ row ∈ ([(.d2dSet p f vid tag fence v, 3, 16, 8), (.d2dAdd p f vid tag fence v, 3, 16, 8), (.d2dRead p f vid tag, 3, 16, 8),
        (.watch p f vid tag wtag form v v', 3, 16, 8), (.unwatch p f tag wtag, 3, 16, 8), (.mwr p f tag addr en bs, 6, bs.length, 0),
        (.mrd p f tag addr len, 8, 8, 0)] : List (Instr × Nat × Nat × Nat)),
      ∃ k, exec row.1 s = actLive s fun b _ => request b p f tag row.2.1 0 (unitsOf row.2.2.1) row.2.2.2 k := by
  simp only [List.forall_mem_cons, List.not_mem_nil, false_implies, implies_true, and_true]
  exact ⟨⟨_, row_d2dSet ..⟩, ⟨_, row_d2dAdd ..⟩, ⟨_, row_d2dRead ..⟩, ⟨_, row_watch ..⟩, ⟨_, row_unwatch ..⟩, ⟨_, row_mwr ..⟩, ⟨_, row_mrd ..⟩⟩

/-- The rows of responses, with the kind of access and the units of their message. -/
theorem responseRows_run (s : State) (p tag status : Nat) (bytes : List Byte) :
    ∀ row ∈ ([(.mwrRsp p tag status, true, 1), (.mrdData p tag status bytes, false, unitsOf bytes.length)] : List (Instr × Bool × Nat)),
      exec row.1 s = actLive s fun b _ => dieResponse b p tag status row.2.2 row.2.1 := by
  simp only [List.forall_mem_cons, List.not_mem_nil, false_implies, implies_true, and_true]
  exact ⟨row_mwrRsp .., row_mrdData ..⟩

/-- A permitted doorbell of a die is a write of FN_DB. -/
theorem d2dDoorbell_rings {s : State} {p f : Nat} (q : Nat) (ha : alive s.b = true) (ht : dieTalks s.b p = true)
    (hm : tb (getFn s.b f).d2dMask p = true) : exec (.d2dDoorbell p f q) s = exec (.doorbell f q 0) { s with b := giveBack s.b p 0 1 } := by
  obtain ⟨ho, -⟩ := alive_iff.mp ha
  have hm' : tb (getFn (giveBack s.b p 0 1) f).d2dMask p = true := hm
  rw [live_commits ha (row_d2dDoorbell p f q s), row_doorbell, actCtl_open (s := { s with b := giveBack s.b p 0 1 }) ho]
  unfold dieBell
  rw [if_neg (by simp [ht])]
  dsimp only
  rw [if_pos hm']
  rfl

/-- A doorbell for a function that its port may not act for is dropped and counted. -/
theorem dieBell_denied {b : Blk} {p f : Nat} (q : Nat) (ht : dieTalks b p = true) (hm : tb (getFn b f).d2dMask p = false) :
    dieBell b p f q = denied (giveBack b p 0 1) p := by
  have hm' : tb (getFn (giveBack b p 0 1) f).d2dMask p = false := hm
  unfold dieBell
  rw [if_neg (by simp [ht])]
  exact if_neg (by simp [hm'])

/-- A permitted SET or ADD without FENCE, of a port that holds none: its pennant operated on, and no byte of memory (R457). -/
theorem penRow_operates {s : State} {i : Instr} {p f vid tag k : Nat} {add : Bool} {v : Word} (ha : alive s.b = true) (hs : s.b.stores = [])
    (ht : dieTalks s.b p = true) (hr : s.b.life.phase = .run) (hm : tb (getFn s.b f).d2dMask p = true) (hl : p < s.b.d2d.length)
    (hd : (getD2 s.b p).held = []) (hi : penIdx s.b f vid = some k) (row : exec i s = actLive s fun b _ => diePen b p f vid tag false add v) :
    ∃ t w, exec i s = .next t ∧ t.mem = s.mem ∧ (∀ j, j ≠ k → getPen t.b j = getPen s.b j) ∧
      getPen t.b k = { penApply (getPen s.b k) add v (selfEp s.b) f 4 tag with waiters := w } := by
  obtain ⟨hst, ho, w, he⟩ := diePen_operates ht hr hm vid tag add v hl hd hi
  exact ⟨_, w, live_commits ha row, by rw [commit_mem, hst, hs]; rfl, ho, he⟩

/-- A link that stays away after it was active fences its port (R609, R721). -/
theorem d2dLinkLoss_fences {s : State} {p : Nat} (ha : alive s.b = true) (hl : p < s.b.d2d.length) (hp : p < 4) (h0 : (getD2 s.b p).state = 0)
    (hev : (getD2 s.b p).everActive = true) (hc : (getD2 s.b p).cfgErr = false) :
    ∃ t, exec (.d2dLinkLoss p) s = .next t ∧ (getD2 t.b p).state = 2 ∧ ∀ w ∈ t.b.watches, w.port ≠ p := by
  refine ⟨_, live_commits ha (row_d2dLinkLoss p s), ?_⟩
  rw [if_pos (by simp [h0, hev, hc])]
  exact fenceD2d_fences 3 hp hl (by simp [h0])

/-- Settles O56, message by message: what a request meets first by `request_notReady` and `request_denied`, then each permitted one by its effect;
responses by `dieResponse_answers`, injected packets by `pktTxFx_injects`, the FDI by `fdiFx` in its cases and `fenceD2d_fences`. -/
theorem dieMessagesAct : Obligations.DieMessagesAct := by
  unfold Obligations.DieMessagesAct
  intro s p f tag ha hs hl d next units back rsp zero mask may running ends
  refine ⟨?first, ?doorbell, ?pennants, ?watches, ?accesses, ?responses, fun h => ?late, fun o id c h ho ⟨hf, hrun⟩ => ?timeout, ?packets, ?credit, ?fdi⟩
  case first =>
    intro vid v v' fence wtag form addr len en bs row hrow ht
    obtain ⟨k, run⟩ := requestRows_run s p f tag vid v v' fence wtag form addr len en bs row hrow
    exact ⟨fun hr => live_yields ha run (request_notReady ht f tag _ _ _ _ k hr) hs,
      fun hr hm => live_yields ha run (request_denied ht f tag _ _ _ _ k hr hm) hs⟩
  case doorbell =>
    intro q ht
    exact ⟨d2dDoorbell_rings q ha ht, fun hm => live_yields ha (row_d2dDoorbell p f q s) (dieBell_denied q ht hm) hs⟩
  case pennants =>
    rintro ⟨ht, hr, hm⟩ vid v
    refine ⟨fun hi => live_yields ha (row_d2dRead p f vid tag s) (dieRead_unmapped ht hr hm tag hi) hs, ?_⟩
    intro i hi old
    refine ⟨?reads, ?operates, ?fenced⟩
    case reads => exact live_yields ha (row_d2dRead p f vid tag s) (dieRead_reads ht hr hm tag hi) hs
    case operates =>
      simp only [List.forall_mem_cons, List.not_mem_nil, false_implies, implies_true, and_true]
      exact ⟨fun hd => penRow_operates ha hs ht hr hm hl hd hi (row_d2dSet p f vid tag false v s),
        fun hd => penRow_operates ha hs ht hr hm hl hd hi (row_d2dAdd p f vid tag false v s)⟩
    case fenced =>
      intro add hn hd
      have h := diePen_fenced ht hr hm vid tag add v hl hd hn
      cases add with
      | false => exact ⟨_, live_commits ha (row_d2dSet p f vid tag true v s), h⟩
      | true => exact ⟨_, live_commits ha (row_d2dAdd p f vid tag true v s), h⟩
  case watches =>
    rintro ⟨ht, hr, hm⟩ vid wtag form v k pending w
    refine ⟨fun hw => live_yields ha (row_watch p f vid tag wtag form v k s) (watchFx_refuses ht hr hm vid tag form v k hw) hs,
      fun hw hi => live_yields ha (row_watch p f vid tag wtag form v k s) (watchFx_unmapped ht hr hm hw tag form v k hi) hs, ?_,
      fun hw => live_yields ha (row_unwatch p f tag wtag s) (unwatchFx_unknown ht hr hm hw tag) hs,
      fun x r hw => live_yields ha (row_unwatch p f tag wtag s) (unwatchFx_withdraws ht hr hm tag hw) hs⟩
    intro hw i hi now
    have h := watchFx_watches ht hr hm hw tag form v k hi
    exact ⟨fun hc => live_yields ha (row_watch p f vid tag wtag form v k s) (h.trans (if_pos hc)) hs,
      fun hc => live_yields ha (row_watch p f vid tag wtag form v k s) (h.trans (if_neg (Bool.eq_false_iff.mp hc))) hs⟩
  case accesses =>
    rintro ⟨ht, hr, hm⟩ addr en bs len va key acc
    obtain ⟨-, hf⟩ := alive_iff.mp ha
    have hwr := mwrFx_issues ht hr hm tag addr en bs
    have hrd := mrdFx_issues ht hr hm tag addr len
    refine ⟨?_, fun hx => ⟨?_, ?_⟩⟩
    · intro x m hx hp runs
      refine ⟨fun hxw => ?_, ?_⟩
      · exact live_yields ha (row_mwr p f tag addr en bs s) (hwr.trans (dieIssue_writes p hx hp rfl hxw)) hs
      · exact live_yields ha (row_mrd p f tag addr len s) (hrd.trans (dieIssue_reads p hx hp rfl hf)) hs
    · exact live_yields ha (row_mwr p f tag addr en bs s) (hwr.trans (dieIssue_untranslated p hx)) (by rw [needXl_eq]; exact hs)
    · exact live_yields ha (row_mrd p f tag addr len s) (hrd.trans (dieIssue_untranslated p hx)) (by rw [needXl_eq]; exact hs)
  case responses =>
    intro ht status bytes row hrow
    have run := responseRows_run s p tag status bytes row hrow
    refine ⟨fun h => live_yields ha run (dieResponse_late ht status _ h) hs, fun o h => ?_⟩
    have hx := dieResponse_answers ht status row.2.2 h
    refine ⟨fun h0 => live_yields ha run (hx.trans (if_pos h0)) hs, fun id c h0 ho ⟨hf, hrun⟩ => live_ends ha run ?_⟩
    rw [hx]
    dsimp only
    rw [if_neg h0]
    exact outFail_ends p ho hf hrun
  case late => exact (row_d2dTimeout p tag s).trans (actLive_nop _ hs (outTimeout_none h))
  case timeout =>
    refine live_ends ha (row_d2dTimeout p tag s) ?_
    rw [outTimeout_fails h]
    exact outFail_ends p ho hf hrun
  case packets =>
    rintro ⟨ht, hr, hm⟩ dst bytes u pkt ordered alt
    refine ⟨fun h => live_yields ha (row_pktTx p f tag dst bytes s) (pktTxFx_refuses ht hr hm tag h) hs, fun n hd hv hn hp => ?_⟩
    refine live_yields ha (row_pktTx p f tag dst bytes s) (pktTxFx_injects ht hr hm tag hd hv hn hp) ?_
    rw [sendTo_stores, modP_stores]
    split <;> exact hs
  case credit =>
    intro req r oth ht
    refine live_yields ha (row_credit p req r oth s) ?_ hs
    unfold creditFx
    exact if_neg (by simp [ht])
  case fdi =>
    intro hp h2 hc
    refine ⟨fun h0 => live_yields ha (row_fdiState p true false s) (fdiFx_misconfigured hp hc h0) hs,
      fun h0 => live_yields ha (row_fdiState p true true s) (fdiFx_activates hp hc h0) hs, fun h0 ok => ?lost, fun h0 hev => ?fences⟩
    case lost =>
      have hx := fdiFx_loses hp hc ok h2 h0
      refine ⟨fun ho => live_yields ha (row_fdiState p false ok s) (hx.trans ?_) hs, fun o id c ho hw ⟨hf, hrun⟩ => live_ends ha (row_fdiState p false ok s) ?_⟩
      · unfold fdiLost
        rw [ho]
        rfl
      · rw [hx]
        unfold fdiLost
        rw [ho]
        exact outFail_ends p hw hf hrun
    case fences => exact d2dLinkLoss_fences ha hl hp h0 hev hc

end Sys2Proof.Machine
end

section
/-!
O5, O8: the form in which each row acts, and what a block reset stops (R530, R548, R686).
-/
namespace Sys2Proof.Machine

theorem acts_next {s : State} {o : Host.Outcome State Fault Refusal} (h : Acts s o) : ∃ t, o = .next t := by
  obtain h | ⟨b, h⟩ := h
  · exact ⟨s, h⟩
  · exact ⟨commit s b, h⟩

/-- Settles O5: a row that acts answers a next state (`row_acts`). -/
theorem rowsComplete : Obligations.RowsComplete := by
  unfold Obligations.RowsComplete
  exact fun c s => (row_acts c s).imp_left acts_next

/-! ### Rows that a block reset stops -/

section
variable {s : State} (hr : s.b.life.phase ≠ .run)
include hr

theorem awake_reset : awake s.b = false := by simp [awake, hr]

/-- No command is acceptable while the block is reset. -/
theorem accept_reset (id : CmdId) : exec (.accept id) s = .next s := by
  have h : acceptable s.b id = none := by simp [acceptable, cmdIn, hr]
  show execAccept id s = _
  unfold execAccept
  rw [h]

/-- No command is a head that may be dispatched while the block is reset. -/
theorem commandDispatch_reset (id : CmdId) : exec (.commandDispatch id) s = .next s := by
  have h : headCmd s.b id = none := by simp [headCmd, hr]
  show execCommandDispatch id s = _
  unfold execCommandDispatch
  rw [h]

/-- A row that is neither live, nor a CTL access, nor a pin: its meaning is an act, which idles while the block does not work, or it takes a
command of a queue. -/
theorem row_reset (c : Instr) (hl : isLiveRow c = false) (hc : isCtlRow c = false) (hp : isPinRow c = false) : exec c s = .next s := by
  have idle := act_idle (awake_reset hr)
  cases c
  case accept id => exact accept_reset hr id
  case commandDispatch id => exact commandDispatch_reset hr id
  all_goals simp only [isLiveRow, isCtlRow, isPinRow, reduceCtorEq] at hl hc hp <;> simp only [↓idle,
    row_allreduce, row_reduceScatter, row_allgather, row_broadcast, row_reduce, row_gather, row_scatter, row_alltoall, row_alltoallv, row_barrier,
    row_topkGather, row_dispatch, row_combine, row_score, row_put, row_get, row_putSignal, row_memAtomic, row_pennantSet, row_pennantAdd,
    row_pennantWait, row_streamOpen, row_stageAhead, row_streamResume, row_streamCloseFinish, row_streamCloseAbort, row_strike, row_queueShutdown,
    row_functionEnable, row_functionDisable, row_pennantMap, row_unmap, row_groupCreate, row_groupReform, row_groupDestroy, row_hoistCompile,
    row_hoistInstall, row_hoistRelease, row_routeUpdate, row_tableRead, row_powerPolicy, row_fnRotate, row_linkSession, row_linkRekey, row_attest,
    row_selftest, row_unlistedOpcode, row_scan, row_hoistOnDemand, row_fly, row_completion, row_cqDelay, row_generationWaitTimeout, row_stepTimeout,
    row_autoReform, row_partnerAbsent, row_deadlock, row_blockDeadlock, row_frameSend, row_frameReceive, row_replay, row_replayTimeout,
    row_routedCell, row_data, row_signal, row_getReq, row_getResp, row_atomic, row_e2eAck, row_e2eAckSend, row_e2eResend, row_hold, row_holdResend,
    row_recompute, row_checkerSelftest, row_abortNotice, row_breakNotice, row_reserve, row_reserveReply, row_reserveTimeout, row_release,
    row_halyardCell, row_halyardWindow, row_overrun, row_multicast, row_ident, row_drainTimeout, row_routeDrainDone, row_linkTrainStart,
    row_adaptDone, row_rxGood, row_trainMessage, row_trainResend, row_trainingTimeout, row_laneFault, row_lossOfSignal, row_sleepRequest, row_sleep,
    row_wake, row_streamPiece, row_tableEcc, row_roleRestart, row_lpAck, row_sleepAnswerTimeout]

end

/-- Settles O8: such a row is an act, and the block does not work (`row_reset`). -/
theorem blockResetHolds : Obligations.BlockResetHolds := by
  unfold Obligations.BlockResetHolds
  exact fun c s hr hl hc hp => row_reset hr c hl hc hp

end Sys2Proof.Machine
end

section
/-!
O10 to O12: doorbells, the rings of a function and their heads (R482, R484, R517, R518, R525, R620, R621, R647, R796).
-/
namespace Sys2Proof.Machine

/-! ### CTL writes that change the block as computed -/

/-- A CTL write that a condition takes or leaves. -/
theorem actCtl_decides {s : State} {f : Blk → Tab Byte → Blk} {p : Prop} [Decidable p] {b : Blk} (hc : CtlOpen s) (hs : s.b.stores = [])
    (h : f s.b s.mem = if p then b else s.b) (hb : b.stores = s.b.stores) : actCtl s f = .next (if p then { s with b := b } else s) := by
  have hst : (f s.b s.mem).stores = [] := by
    rw [h]
    split
    · exact hb.trans hs
    · exact hs
  rw [actCtl_quiet hc f hst, h]
  split <;> rfl

/-- A ring register takes a write while its EN is 0, unless the write sets EN with a size out of range. -/
theorem ringTaken_iff (en set : Bool) (lo hi lg : Nat) :
    ¬ (en || (set && (decide (lg < lo) || decide (hi < lg)))) = true ↔ en = false ∧ (set = true → lo ≤ lg ∧ lg ≤ hi) := by
  cases en <;> cases set <;> simp

/-! ### Doorbells -/

/-- An offset of a function's page reads that page's register. -/
theorem ctlRead_page (b : Blk) {f k : Nat} (hf : f < 512) (hk : k < 0x1000) (h8 : k % 8 = 0) :
    ctlRead b (0x400000 + 0x1000 * f + k) = BitVec.ofNat 64 (fnReg b f k) := by
  have h : (0x400000 + 0x1000 * f + k) % 8 = 0 := by omega
  have hpage : (0x400000 + 0x1000 * f + k - 0x400000) / 0x1000 = f ∧ (0x400000 + 0x1000 * f + k) % 0x1000 = k := by omega
  unfold ctlRead
  rw [if_neg (by simp [h]), if_neg (by omega), if_neg (by omega), if_neg (by omega), if_neg (by omega), if_pos (by simp; omega), hpage.1, hpage.2]

section
variable {f q : Nat} (hq : q < 16)
include hq

theorem fnReg_bell (b : Blk) : fnReg b f (8 * q) = 0 := by
  interval_cases q <;> rfl

theorem writePage_bell (b : Blk) (v : Nat) : writePage b f (8 * q) v = ringBell b f q := by
  unfold writePage
  extract_lets
  rw [if_pos (by omega), Nat.mul_div_cancel_left q (by decide)]

/-- A doorbell is rung at FN_DB of its queue. -/
theorem ctlWrite_bell (hf : f < 512) (b : Blk) (v : Word) : ctlWrite b (pageOff f (8 * (q % 16))) v = ringBell b f q := by
  rw [Nat.mod_eq_of_lt hq, ctlWrite_page b f _ v hf (by omega) (by omega), writePage_bell hq]

end

theorem ringBell_eq (b : Blk) (f q : Nat) : ringBell b f q =
    if (getFn b f).enabled = true ∧ q < (getFn b f).nq ∧ ((getQ b f q).state = 1 ∨ (getQ b f q).state = 4)
    then modQ b f q fun x => { x with scanPending := true } else b := by
  simp only [ringBell, Bool.and_eq_true, Bool.or_eq_true, decide_eq_true_eq, beq_iff_eq, and_assoc]

/-- A doorbell is the write of its register. -/
theorem registerWrite_bell {f q : Nat} (hf : f < 512) (hq : q < 16) (v : Word) (s : State) :
    exec (.registerWrite (0x400000 + 0x1000 * f + 8 * q) v) s = exec (.doorbell f q v) s := by
  rw [row_registerWrite, row_doorbell, pageOff, Nat.mod_eq_of_lt hf, Nat.mod_eq_of_lt hq]

/-- Settles O10: the bell by `ringBell_eq`, its register by `registerWrite_bell` and `fnReg_bell`. -/
theorem doorbellIsCaptured : Obligations.DoorbellIsCaptured := by
  unfold Obligations.DoorbellIsCaptured
  intro f q v s hc hs hf hq
  refine ⟨?_, registerWrite_bell hf hq v s, ?_⟩
  · have hb := (ctlWrite_bell hq hf s.b v).trans (ringBell_eq s.b f q)
    rw [row_doorbell, actCtl_decides hc hs hb (modQ_stores ..)]
  · rw [ctlRead_page s.b hf (by omega) (by omega), fnReg_bell hq]
    rfl

/-! ### Rings -/

section
variable {b : Blk} {f : Nat} (hf : f < 512) (ho : pageOpen b f = true)
include hf ho

theorem ctlWrite_qring {q : Nat} (hq : q < 16) (v : Word) : ctlWrite b (pageOff f (0x100 + 16 * (q % 16))) v = writeQring b f q v.toNat := by
  have hk : (0x100 + 16 * q - 0x100) / 16 = q ∧ (0x100 + 16 * q) % 16 = 0 := by omega
  rw [Nat.mod_eq_of_lt hq, ctlWrite_page b f _ v hf (by omega) (by omega)]
  unfold writePage
  extract_lets
  rw [if_neg (by omega), if_neg (by simp [ho]), if_pos (by simp; omega), if_pos (by simp [hk.2]), hk.1]

/-- The rings and heads of an open page, each at its offset. -/
theorem ctlWrite_ring (v : Word) {k : Nat} {write : Blk → Nat → Nat → Blk}
    (h : (k, write) ∈ [(0x200, writeCring), (0x208, writeChead), (0x300, writeEqring), (0x308, writeEqhead), (0x400, writeSpill)]) :
    ctlWrite b (pageOff f k) v = write b f v.toNat := by
  simp only [List.mem_cons, Prod.mk.injEq, List.not_mem_nil, or_false] at h
  have hk : 0x200 ≤ k ∧ k < 0x800 ∧ k % 8 = 0 := by omega
  rw [ctlWrite_page b f k v hf (by omega) hk.2.2]
  unfold writePage
  extract_lets
  rw [if_neg (by omega), if_neg (by simp [ho]), if_neg (by simp; omega), if_neg (by simp; omega)]
  rcases h with ⟨e, rfl⟩ | ⟨e, rfl⟩ | ⟨e, rfl⟩ | ⟨e, rfl⟩ | ⟨e, rfl⟩ <;> split <;> simp_all

end

/-- A queue as a write of FN_QRING stores it (R484). -/
def qringStored (v : Nat) (x : Queue) : Queue := { x with cls := fld v 62 61, base := fld v 56 6 * 64, log2 := fld v 4 0 }

/-- A queue as a write of FN_QRING with EN opens it (R484). -/
def qringOpened (v : Nat) (x : Queue) : Queue :=
  { qringStored v x with state := 1, rseq := 0, taken := 0, scanSlot := 0, scanPending := false, ringFault := false, was := 0 }

theorem queueOpenish_iff (x : Queue) : queueOpenish x = true ↔ x.state ∈ [1, 2, 4] := by
  simp [queueOpenish, or_assoc]

theorem writeQring_eq (b : Blk) (f q v : Nat) : writeQring b f q v =
    if q < (getFn b f).nq ∧ (getQ b f q).state ∉ [1, 2, 4] ∧ (getFn b f).cqEn = true ∧ (tb v 63 = true → 4 ≤ fld v 4 0 ∧ fld v 4 0 ≤ 16)
    then modQ b f q (if tb v 63 then qringOpened v else qringStored v) else b := by
  have hx : (fun x => if tb v 63 then qringOpened v x else qringStored v x) = if tb v 63 then qringOpened v else qringStored v := by
    split <;> rfl
  have hw : writeQring b f q v = if !decide (q < (getFn b f).nq) || queueOpenish (getQ b f q) || !(getFn b f).cqEn ||
      (tb v 63 && (decide (fld v 4 0 < 4) || decide (16 < fld v 4 0))) then b else modQ b f q fun x => if tb v 63 then qringOpened v x else qringStored v x := rfl
  rw [hw, hx, ← ite_not]
  refine if_congr ?_ rfl rfl
  rw [ringTaken_iff, Bool.or_eq_false_iff, Bool.or_eq_false_iff, ← queueOpenish_iff, Bool.not_eq_true]
  simp [and_assoc]

/-- Settles O11: the write by `writeQring_eq`. -/
theorem queueRingOpens : Obligations.QueueRingOpens := by
  unfold Obligations.QueueRingOpens
  intro f q v s hc ho hs hf hq fields opened
  have hw := (ctlWrite_qring hf (pageOpen_of ho) hq v).trans (writeQring_eq s.b f q v.toNat)
  rw [row_fnQring, actCtl_decides hc hs hw (modQ_stores ..)]
  rfl

/-! ### Rings of completions, events and spill -/

section
variable (b : Blk) (f v : Nat)

theorem writeCring_eq : writeCring b f v =
    if (getFn b f).cqEn = false ∧ (tb v 63 = true → 8 ≤ fld v 4 0 ∧ fld v 4 0 ≤ 20)
    then modFn b f fun n => { n with cqEn := tb v 63, cqBase := fld v 56 6 * 64, cqLog2 := fld v 4 0 } else b := by
  unfold writeCring
  rw [← ite_not]
  exact if_congr (ringTaken_iff ..) rfl rfl

theorem writeEqring_eq : writeEqring b f v =
    if (getFn b f).eqEn = false ∧ (tb v 63 = true → 8 ≤ fld v 4 0 ∧ fld v 4 0 ≤ 16)
    then modFn b f fun n => { n with
      eqEn := tb v 63, eqBase := fld v 56 6 * 64, eqLog2 := fld v 4 0, eqLost := if tb v 63 then 0 else n.eqLost } else b := by
  unfold writeEqring
  rw [← ite_not]
  exact if_congr (ringTaken_iff ..) rfl rfl

theorem writeSpill_eq : writeSpill b f v =
    if (getFn b f).spEn = false ∧ (tb v 63 = true → 20 ≤ fld v 5 0 ∧ fld v 5 0 ≤ 40)
    then modFn b f fun n => { n with spEn := tb v 63, spBase := fld v 56 20 * 2 ^ 20, spLog2 := fld v 5 0 } else b := by
  unfold writeSpill
  rw [← ite_not]
  exact if_congr (ringTaken_iff ..) rfl rfl

/-! ### Heads -/

/-- A page whose CONSUMED has advanced to a written value (R518, R796). -/
def consumedTo (v : Nat) (n : Fn) : Fn := { n with consumed := n.consumed + ahead v n.consumed }

theorem writeChead_eq : writeChead b f v =
    if ahead v (getFn b f).consumed ≤ ahead (getFn b f).produced (getFn b f).consumed then
      if (getFn b f).full = true then settle (ringDrain ((getFn b f).ringWait.length + 1) f (modFn b f (consumedTo v))) else modFn b f (consumedTo v)
    else b := by
  have hstep : (fun n : Fn => { n with consumed := n.consumed + headStep (v % 2 ^ 32) n.consumed }) = consumedTo v := by
    funext n
    rw [headStep_ahead]
    rfl
  unfold writeChead
  dsimp only
  rw [hstep]
  exact if_congr (takesHead_iff ..) rfl rfl

theorem writeEqhead_eq : writeEqhead b f v =
    if ahead v (getFn b f).eqConsumed ≤ ahead (getFn b f).eqProduced (getFn b f).eqConsumed
    then modFn b f fun n => { n with eqConsumed := n.eqConsumed + ahead v n.eqConsumed } else b := by
  unfold writeEqhead
  simp only [headStep_ahead]
  exact if_congr (takesHead_iff ..) rfl rfl

end

/-- Settles O12: each write by its equation (`writeCring_eq`, `writeEqring_eq`, `writeSpill_eq`, `writeChead_eq`, `writeEqhead_eq`). -/
theorem functionRingsAndHeads : Obligations.FunctionRingsAndHeads := by
  unfold Obligations.FunctionRingsAndHeads
  intro f v s hc ho hs hf
  have ho' := pageOpen_of ho
  refine ⟨?cring, ?eqring, ?spill, fun hn => ?chead, fun hn => ?fullHead, ?eqhead⟩
  case cring =>
    have hw := (ctlWrite_ring (k := 0x200) (write := writeCring) hf ho' v (by simp)).trans (writeCring_eq s.b f v.toNat)
    rw [row_fnCring, actCtl_decides hc hs hw (modFn_stores ..)]
  case eqring =>
    have hw := (ctlWrite_ring (k := 0x300) (write := writeEqring) hf ho' v (by simp)).trans (writeEqring_eq s.b f v.toNat)
    rw [row_fnEqring, actCtl_decides hc hs hw (modFn_stores ..)]
  case spill =>
    have hw := (ctlWrite_ring (k := 0x400) (write := writeSpill) hf ho' v (by simp)).trans (writeSpill_eq s.b f v.toNat)
    rw [row_fnSpill, actCtl_decides hc hs hw (modFn_stores ..)]
  case chead =>
    have hw := (ctlWrite_ring (k := 0x208) (write := writeChead) hf ho' v (by simp)).trans (writeChead_eq s.b f v.toNat)
    rw [hn, if_neg Bool.false_ne_true] at hw
    rw [row_fnChead, actCtl_decides hc hs hw (modFn_stores ..)]
    rfl
  case fullHead =>
    have hw := (ctlWrite_ring (k := 0x208) (write := writeChead) hf ho' v (by simp)).trans (writeChead_eq s.b f v.toNat)
    rw [hn, if_pos rfl] at hw
    rw [row_fnChead, actCtl_open hc, hw]
    split
    · rfl
    · exact commit_id s hs
  case eqhead =>
    have hw := (ctlWrite_ring (k := 0x308) (write := writeEqhead) hf ho' v (by simp)).trans (writeEqhead_eq s.b f v.toNat)
    rw [row_fnEqhead, actCtl_decides hc hs hw (modFn_stores ..)]

end Sys2Proof.Machine
end

section
/-!
O15: the write that enables function 0 (R500, R501, R503, R627).
-/
namespace Sys2Proof.Machine

theorem ctlWrite_admin (b : Blk) (w : Word) : ctlWrite b 0x60 w = writeAdmin b w.toNat := rfl

/-- BLK_ADMIN as a write of it stores its fields (R501). -/
def adminStored (v : Nat) (c : Ctl) : Ctl :=
  { c with admin := BitVec.ofNat 64 (mk [(63, 63, fld v 63 63), (61, 58, fld v 61 58), (56, 20, fld v 56 20), (5, 0, fld v 5 0)]) }

/-- Function 0 as BLK_ADMIN enables it: every quota at its largest (R500). -/
def adminEnabled (b : Blk) (v : Nat) : Blk :=
  enableFn b 0 (fld v 61 58 + 1) 16384 1048576 4096 (fld b.ctl.adminCtx.toNat 31 0) (fld b.ctl.adminCtx.toNat 35 32) (fld v 56 20 * 2 ^ 20) (fld v 5 0)

theorem writeAdmin_eq (b : Blk) (v : Nat) : writeAdmin b v =
    if tb b.ctl.admin.toNat 63 = true ∨ b.life.fwVersion = 0 ∨ (tb v 63 = true ∧ (fld v 5 0 < 20 ∨ 40 < fld v 5 0)) then b
    else if tb v 63 = true ∧ b.life.fatal = 0 then adminEnabled { b with ctl := adminStored v b.ctl } v
    else { b with ctl := adminStored v b.ctl } := by
  unfold writeAdmin
  dsimp only
  refine if_congr ?_ rfl (if_congr ?_ rfl rfl) <;> simp [or_assoc]

/-- The page BLK_ADMIN enables function 0 with. -/
def adminPage (b : Blk) (v : Nat) : Fn :=
  enabledPage (getFn b 0) (fld v 61 58 + 1) 16384 1048576 4096 (fld b.ctl.adminCtx.toNat 31 0) (fld b.ctl.adminCtx.toNat 35 32)
    (fld v 56 20 * 2 ^ 20) (fld v 5 0)

/-- The two lines BLK_ADMIN issues: the anchor and the ENABLE record (R503). -/
def adminLines (b : Blk) (v : Nat) : List (Nat × List Byte) :=
  let n := adminPage b v
  [(memKey 0 (translate b n.context n.logBase), anchorBytes n 0 0),
    (memKey 0 (translate b n.context (n.logBase + 64)), logRecord { n with head := 0 } 6 0 0 0 0 0 [n.nq, 16384, 1048576, 4096] [])]

theorem adminEnabled_eq (b : Blk) (v : Nat) :
    adminEnabled b v = { b with fns := tput 0 (adminPage b v) b.fns, stores := b.stores ++ adminLines b v } := by
  have hq : (fld v 61 58 + 1) % 32 = fld v 61 58 + 1 := by
    have : fld v 61 58 < 2 ^ (61 + 1 - 58) := Nat.mod_lt _ (by decide)
    omega
  have h := enableFn_eq b 0 (fld v 61 58 + 1) 16384 1048576 4096 (fld b.ctl.adminCtx.toNat 31 0) (fld b.ctl.adminCtx.toNat 35 32)
    (fld v 56 20 * 2 ^ 20) (fld v 5 0) (by omega)
  rw [hq] at h
  exact h

/-- What enabling function 0 leaves: the page of function 0, its two lines in memory, and nothing else. -/
theorem commit_adminEnabled (s : State) {b : Blk} (hs : b.stores = []) (v : Nat) :
    commit s (adminEnabled b v) = { s with b := { b with fns := tput 0 (adminPage b v) b.fns }, mem := applyStores s.mem (adminLines b v) } := by
  rw [adminEnabled_eq]
  unfold commit
  dsimp only
  rw [hs, List.nil_append]

/-- Settles O15: the write by `writeAdmin_eq`, what enabling function 0 leaves by `commit_adminEnabled`. -/
theorem adminIsEnabled : Obligations.AdminIsEnabled := by
  unfold Obligations.AdminIsEnabled
  intro v s hc hs
  dsimp only
  have hw := (ctlWrite_admin s.b v).trans (writeAdmin_eq s.b v.toNat)
  rw [row_blkAdmin]
  refine ⟨fun h => ?ignored, fun h0 h1 h2 => ?kept, fun h0 h1 h2 h3 h4 h5 => ?enabled⟩
  case ignored => exact actCtl_nop _ hs (hw.trans (if_pos h))
  case kept =>
    rw [if_neg (by simp [h0, h1, h2]), if_neg (by simp [h2])] at hw
    rw [actCtl_quiet hc _ (by rw [hw]; exact hs), hw]
    rfl
  case enabled =>
    rw [if_neg (by simp [h0, h1]; omega), if_pos ⟨h2, h5⟩] at hw
    have hpage (m : Tab Fn) (n : Fn) (f : Nat) : tget fn0 (tput 0 n m) f = if f = 0 then n else tget fn0 m f := tget_tput ..
    have ht := actCtl_open hc fun b _ => ctlWrite b 0x60 v
    rw [hw, commit_adminEnabled s (by exact hs)] at ht
    refine ⟨_, ht, rfl, rfl, rfl, fun f hf => (hpage ..).trans (if_neg hf), ?_⟩
    have hzero := hpage s.b.fns (adminPage { s.b with ctl := adminStored v.toNat s.b.ctl } v.toNat) 0
    rw [if_pos rfl] at hzero
    unfold getFn
    rw [hzero]
    exact ⟨rfl, rfl, rfl, rfl, rfl, rfl, rfl, rfl, rfl, rfl, rfl, rfl, rfl, rfl, rfl⟩

end Sys2Proof.Machine
end

section
/-!
O24: what acceptance decides of a command (R127, R515, R544, R548, R60, R792).
-/
namespace Sys2Proof.Machine

/-! ### The checks read no command and no head of a logbook -/

/-- A block that differs in its pages, commands and stores, and agrees on what the checks of acceptance read of the pages. -/
structure SameChecks (b b' : Blk) (c : Cmd) : Prop where
  rest : b' = { b with fns := b'.fns, cmds := b'.cmds, stores := b'.stores }
  cls : (getQ b' c.id.f c.id.q).cls = (getQ b c.id.f c.id.q).cls
  mask : (getFn b' c.id.f).d2dMask = (getFn b c.id.f).d2dMask
  nq : ∀ f, (getFn b' f).nq = (getFn b f).nq

theorem SameChecks.firstStatus {b b' : Blk} {c : Cmd} (h : SameChecks b b' c) : firstStatus b' c = firstStatus b c := by
  obtain ⟨hr, hc, hm, hn⟩ := h
  have hform : formOk b' c = formOk b c := by unfold formOk; rw [hc]
  have hd (sp : Nat) : d2dOk b' c.id.f sp = d2dOk b c.id.f sp := by unfold d2dOk; rw [hm]
  have hperm : permOk b' c = permOk b c := by
    unfold permOk
    simp only [hd]
    rw [hr]
    rfl
  have hfields : fieldsOk b' c = fieldsOk b c := by
    unfold fieldsOk
    simp only [hn]
    rw [hr]
    rfl
  have hgen : cmdGenStatus b' c = cmdGenStatus b c := by rw [hr]; rfl
  unfold Machine.firstStatus acceptStatus
  rw [hform, hperm, hfields, hgen]

/-! ### What acceptance changes before it decides -/

/-- The stores that clear OWN in each slot of a packet (R515). -/
def ownStores (b : Blk) (c : Cmd) : List (Nat × List Byte) :=
  (List.range (entriesOf c)).map fun j =>
    (fnKey b c.id.f 0 (slotAddr (getQ b c.id.f c.id.q) (c.id.rseq + j) + 7), [BitVec.ofNat 8 (leAt c.raw (64 * j + 7) 1 % 128)])

theorem cutsOf_one (a : Nat) : cutsOf a 1 = [(a, 1)] := by
  have : min 1 (4096 - a % 4096) = 1 := by omega
  unfold cutsOf pageCuts
  simp [this]
  unfold pageCuts
  simp

/-- A byte stored is one store. -/
theorem fnStores_byte (b : Blk) (f space va : Nat) (x : Byte) : fnStores b f space va [x] = [(fnKey b f space va, [x])] := by
  unfold fnStores
  simp [cutsOf_one, slice]

theorem clearOwn_eq (b : Blk) (c : Cmd) : clearOwn b c = { b with stores := b.stores ++ ownStores b c } := by
  unfold clearOwn
  dsimp only
  rw [foldl_fnStore]
  simp only [fnStores_byte, ← List.map_eq_flatMap]
  rfl

/-- A command with its rank in the group it names. -/
def rankedOf (b : Blk) (c : Cmd) : Cmd :=
  { c with rank := if namesGroup c then (match findGroup b (fGid c) with | some (_, g) => (rankIn g c.id.f).getD 0 | none => 0) else 0 }

/-- A block that has accepted a command: OWN clear in its slots, its rank noted, its queue's RSEQ past its entries. -/
def acceptedBlk (b : Blk) (c : Cmd) : Blk :=
  let b' := modCmd { b with stores := b.stores ++ ownStores b c } c.id fun d => { d with rank := (rankedOf b c).rank, phase := .accepted }
  modFn (modQ b' c.id.f c.id.q fun x => { x with rseq := (x.rseq + entriesOf c) % 2 ^ 48 }) c.id.f fun n => { n with moved := true }

/-- A command of a SHUTTING queue ends with ABORTED, and the QUEUE_SHUTDOWNs of its queue count it. -/
def acceptShutting (b : Blk) (c : Cmd) : Blk :=
  let b := endCmd b c.id 0x10 0
  settle { b with cmds := b.cmds.map fun d => if shutsQueue d c.id.f c.id.q then { d with count := d.count + 1 } else d }

/-- What becomes of a command as it is accepted: a failed check, then an abort notice ends it. -/
def acceptChecked (b : Blk) (c : Cmd) : Blk :=
  match firstStatus b c with
  | some st => endCmd b c.id st 0
  | none => match heldAbort b c with
    | some st => endCmd b c.id st 0
    | none => unspill b c

theorem acceptFx_eq (b : Blk) (c : Cmd) : acceptFx b c =
    if ((getQ (carryIfShort (acceptedBlk b c) c.id.f) c.id.f c.id.q).state == 2) = true
    then acceptShutting (carryIfShort (acceptedBlk b c) c.id.f) (rankedOf b c)
    else acceptChecked (carryIfShort (acceptedBlk b c) c.id.f) (rankedOf b c) := by
  unfold acceptFx
  rw [clearOwn_eq]
  rfl

/-! ### Room in the logbook -/

/-- With 32 lines to spare no CARRY is due (R512). -/
theorem carryIfShort_room {b : Blk} {f : Nat} (h : liveLines b f + 32 ≤ logFree b f) : carryIfShort b f = b := by
  unfold carryIfShort carryLoop
  rw [if_neg (by omega)]

theorem liveLines_modCmd (b : Blk) (id : CmdId) (g : Cmd → Cmd) (hid : ∀ c, (g c).id = c.id) (hl : ∀ c, (g c).lines = c.lines) (f : Nat) :
    liveLines (modCmd b id g) f = liveLines b f := by
  have hi (c : Cmd) : (if c.id = id then g c else c).id = c.id := by split <;> simp [hid]
  have hln (c : Cmd) : (if c.id = id then g c else c).lines = c.lines := by split <;> simp [hl]
  unfold liveLines modCmd
  simp only [List.filter_map, List.map_map, Function.comp_def, hi, hln]

/-! ### The page and the queue of the function -/

theorem getFn_acceptedBlk_other {b : Blk} {c : Cmd} {k : Nat} (hk : k ≠ c.id.f) : getFn (acceptedBlk b c) k = getFn b k := by
  unfold acceptedBlk modQ
  exact (getFn_modFn_other _ _ _ _ hk).trans (getFn_modFn_other _ _ _ _ hk)

section
variable {b : Blk} {c : Cmd} (he : (getFn b c.id.f).enabled = true)
include he

theorem getFn_acceptedBlk : getFn (acceptedBlk b c) c.id.f =
    { getFn b c.id.f with
      queues := tmod queue0 (getFn b c.id.f).queues c.id.q fun x => { x with rseq := (x.rseq + entriesOf c) % 2 ^ 48 }, moved := true } := by
  unfold acceptedBlk modQ
  dsimp only
  have h1 := getFn_modFn (modCmd { b with stores := b.stores ++ ownStores b c } c.id fun d => { d with rank := (rankedOf b c).rank, phase := .accepted }) c.id.f
    (fun n => { n with queues := tmod queue0 n.queues c.id.q fun x => { x with rseq := (x.rseq + entriesOf c) % 2 ^ 48 } }) (enabled_ne (by exact he))
  rw [getFn_modFn _ _ _ (enabled_ne (by rw [h1]; exact he)), h1]
  rfl

theorem getQ_acceptedBlk (hq : (getQ b c.id.f c.id.q).state ≠ 0) :
    getQ (acceptedBlk b c) c.id.f c.id.q = { getQ b c.id.f c.id.q with rseq := ((getQ b c.id.f c.id.q).rseq + entriesOf c) % 2 ^ 48 } := by
  unfold getQ
  rw [getFn_acceptedBlk he]
  refine (tget_tset_of_ne queue0 _ _ _ _ fun h => hq ?_).trans (if_pos rfl)
  exact congrArg Queue.state h

/-- Acceptance takes no line of the logbook. -/
theorem acceptedBlk_room (h : liveLines b c.id.f + 32 ≤ logFree b c.id.f) : carryIfShort (acceptedBlk b c) c.id.f = acceptedBlk b c := by
  refine carryIfShort_room ?_
  have hl : liveLines (acceptedBlk b c) c.id.f = liveLines b c.id.f := 
    liveLines_modCmd b c.id (fun d => { d with rank := (rankedOf b c).rank, phase := .accepted }) (fun _ => rfl) (fun _ => rfl) c.id.f
  have hf : logFree (acceptedBlk b c) c.id.f = logFree b c.id.f := by
    unfold logFree
    rw [getFn_acceptedBlk he]
    rfl
  rw [hl, hf]
  exact h

theorem acceptedBlk_checks (hq : (getQ b c.id.f c.id.q).state ≠ 0) : SameChecks b (acceptedBlk b c) (rankedOf b c) where
  rest := rfl
  cls := by rw [show (rankedOf b c).id = c.id from rfl, getQ_acceptedBlk he hq]
  mask := by rw [show (rankedOf b c).id = c.id from rfl, getFn_acceptedBlk he]
  nq k := by
    by_cases hk : k = c.id.f
    · rw [hk, getFn_acceptedBlk he]
    · rw [getFn_acceptedBlk_other hk]

end

/-! ### What is decided -/

theorem findCmd_acceptedBlk {b : Blk} {c : Cmd} (h : findCmd b c.id = some c) :
    findCmd (acceptedBlk b c) c.id = some { rankedOf b c with phase := .accepted } :=
  findCmd_modCmd_same (b := b) (c := c) (fun d => { d with rank := (rankedOf b c).rank, phase := .accepted }) (fun _ => rfl) h

/-- With no data in spill none is taken from there. -/
theorem unspill_none {b : Blk} {c : Cmd} (h : (getFn b c.id.f).spill = []) : unspill b c = b := by
  unfold unspill
  simp [h]

/-- A command that has ended is no running QUEUE_SHUTDOWN: counting for those leaves it. -/
theorem acceptShutting_ends {b : Blk} {c d : Cmd} (h : findCmd b c.id = some d) (hp : d.phase ≠ .ended) : EndedWith (acceptShutting b c) c.id 0x10 0 := by
  obtain ⟨x, hx, hph, hst, hr⟩ := endCmd_endedWith 0x10 0 h hp
  refine EndedWith.keep ⟨x, ?_, hph, hst, hr⟩ (settle_keepsEnded _)
  have hx' : shutsQueue x c.id.f c.id.q = false := by simp [shutsQueue, hph]
  have hid (y : Cmd) : (if shutsQueue y c.id.f c.id.q then { y with count := y.count + 1 } else y).id = y.id := by split <;> rfl
  unfold findCmd at hx ⊢
  rw [List.find?_map]
  simp only [Function.comp_def, hid]
  rw [hx, Option.map_some, if_neg (by simp [hx'])]

/-- The block after a command of an OPEN queue is decided: ended by a failed check, ended by an abort notice, or standing accepted. -/
theorem acceptChecked_eq {b : Blk} {c d : Cmd} (h : findCmd b c.id = some d) (hp : d.phase ≠ .ended) (hw : d.waitOn = none)
    (hs : (getFn b c.id.f).spill = []) :
    acceptChecked b c = match (firstStatus b c).or (heldAbort b c) with
      | some st => modCmd b c.id fun c => { c with phase := .ended, status := st, result := 0 }
      | none => b := by
  unfold acceptChecked
  cases firstStatus b c with
  | some st => exact endCmd_ended st 0 h hp hw
  | none =>
    cases heldAbort b c with
    | some st => exact endCmd_ended st 0 h hp hw
    | none => exact unspill_none hs

/-- Deciding changes the command and nothing else. -/
theorem decided_cmds {b b' : Blk} {id : CmdId} {o : Option Nat}
    (h : b' = match o with | some st => modCmd b id fun c => { c with phase := .ended, status := st, result := 0 } | none => b) :
    ∃ l, b' = { b with cmds := l } := by
  cases o with
  | some st => exact ⟨_, h⟩
  | none => exact ⟨b.cmds, h⟩

theorem acceptable_cmd {b : Blk} {id : CmdId} {c : Cmd} (h : acceptable b id = some c) :
    findCmd b id = some c ∧ c.id = id ∧ c.phase = .taken ∧ (getFn b id.f).enabled = true := by
  unfold acceptable cmdIn at h
  simp only [Option.filter_eq_some_iff, Bool.and_eq_true, decide_eq_true_eq] at h
  obtain ⟨⟨hf, ⟨⟨hp, _⟩, hl⟩, _⟩, _⟩ := h
  exact ⟨hf, findCmd_id hf, hp, live_enabled hl⟩

/-- A command that breaks no rule, or one with a status of its own (R548). -/
def WellFormed (b : Blk) (c : Cmd) : Prop :=
  (firstStatus b (rankedOf b c)).isSome = true ∨ isUnlisted c = true ∨ malformedAtAccept b (rankedOf b c) = false

section
variable {id : CmdId} {c : Cmd} {s : State} (ha : awake s.b = true) (h : acceptable s.b id = some c)
include ha h

theorem execAccept_eq : exec (.accept id) s =
    if (awake s.b && (firstStatus s.b (rankedOf s.b c)).isNone && !isUnlisted (rankedOf s.b c) && malformedAtAccept s.b (rankedOf s.b c)) = true
    then .fault (.malformedCommand id) else .next (commit s (acceptFx s.b (rankedOf s.b c))) := by
  have hx : exec (.accept id) s =
      if (awake s.b && (firstStatus s.b (rankedOf s.b c)).isNone && !isUnlisted (rankedOf s.b c) && malformedAtAccept s.b (rankedOf s.b c)) = true
      then .fault (.malformedCommand id) else act s fun b _ => acceptFx b (rankedOf s.b c) := by
    show execAccept id s = _
    unfold execAccept
    rw [h]
    rfl
  rw [hx, act_awake ha]

theorem accept_malformed (hm : ¬ WellFormed s.b c) : exec (.accept id) s = .fault (.malformedCommand id) := by
  simp only [WellFormed, not_or, Bool.not_eq_true, Bool.not_eq_false] at hm
  rw [execAccept_eq ha h]
  refine if_pos ?_
  rw [ha, show isUnlisted (rankedOf s.b c) = isUnlisted c from rfl]
  simp [hm, ← Option.not_isSome]

theorem accept_wellFormed (hm : WellFormed s.b c) : exec (.accept id) s = .next (commit s (acceptFx s.b (rankedOf s.b c))) := by
  rw [execAccept_eq ha h]
  refine if_neg ?_
  rw [ha, show isUnlisted (rankedOf s.b c) = isUnlisted c from rfl]
  obtain hm | hm | hm := hm
  · simp [Option.isSome_iff_ne_none.mp hm]
  · simp [hm]
  · simp [hm]

end

/-- Accepting a command of a queue that is not CLOSED, where the logbook has room. -/
theorem acceptFx_room {b : Blk} {c : Cmd} (he : (getFn b c.id.f).enabled = true) (hq : (getQ b c.id.f c.id.q).state ≠ 0)
    (hr : liveLines b c.id.f + 32 ≤ logFree b c.id.f) : acceptFx b (rankedOf b c) =
      if (getQ b c.id.f c.id.q).state = 2 then acceptShutting (acceptedBlk b c) (rankedOf b c) else acceptChecked (acceptedBlk b c) (rankedOf b c) := by
  have h := acceptFx_eq b (rankedOf b c)
  rw [show acceptedBlk b (rankedOf b c) = acceptedBlk b c from rfl, show rankedOf b (rankedOf b c) = rankedOf b c from rfl,
    show (rankedOf b c).id = c.id from rfl, acceptedBlk_room he hr, getQ_acceptedBlk he hq] at h
  rw [h]
  exact if_congr beq_iff_eq rfl rfl

/-- Settles O24: what acceptance changes is `acceptedBlk`, what it decides then `acceptChecked_eq`, or `acceptShutting_ends` in a SHUTTING queue. -/
theorem acceptanceDecides : Obligations.AcceptanceDecides := by
  unfold Obligations.AcceptanceDecides
  intro id c s ha hs h hw ranked wellFormed
  obtain ⟨hf, rfl, hp, he⟩ := acceptable_cmd h
  refine ⟨accept_malformed ha h, fun hwf hr hsp => ⟨fun h2 => ?shutting, fun h1 => ?opened⟩⟩
  case shutting =>
    refine ⟨_, accept_wellFormed ha h hwf, ?_⟩
    rw [acceptFx_room he (by omega) hr, if_pos h2]
    exact acceptShutting_ends (c := rankedOf s.b c) (findCmd_acceptedBlk hf) (by simp)
  case opened =>
    have hq0 : (getQ s.b c.id.f c.id.q).state ≠ 0 := by omega
    have hfind := findCmd_acceptedBlk hf
    have heq := acceptChecked_eq (c := rankedOf s.b c) hfind (by simp) hw (by rw [show (rankedOf s.b c).id = c.id from rfl, getFn_acceptedBlk he]; exact hsp)
    rw [(acceptedBlk_checks he hq0).firstStatus] at heq
    refine ⟨_, accept_wellFormed ha h hwf, ?_⟩
    rw [acceptFx_room he hq0 hr, if_neg (by omega)]
    generalize acceptChecked (acceptedBlk s.b c) (rankedOf s.b c) = r at heq
    obtain ⟨l, hl⟩ := decided_cmds heq
    have hfns : r.fns = (acceptedBlk s.b c).fns := by rw [hl]
    have hrest : r = { s.b with fns := r.fns, cmds := r.cmds, stores := ownStores s.b c } := by
      rw [hl]
      unfold acceptedBlk modQ modFn modCmd
      rw [hs]
      rfl
    refine ⟨?mem, ?queue, ?pages, ?rest, fun st hst => ?failed, fun hn st hst => ?aborted, fun hn hst => ?stands⟩
    case mem =>
      rw [commit_mem, hrest]
      rfl
    case queue => exact (congrArg (fun t => tget queue0 (tget fn0 t c.id.f).queues c.id.q) hfns).trans (getQ_acceptedBlk he hq0)
    case pages => exact fun k hk => (congrArg (fun t => tget fn0 t k) hfns).trans (getFn_acceptedBlk_other hk)
    case rest =>
      have hstores : ({ s.b with fns := r.fns, cmds := r.cmds } : Blk) = { s.b with fns := r.fns, cmds := r.cmds, stores := [] } := by rw [← hs]
      exact (congrArg (fun x : Blk => { x with stores := [] }) hrest).trans hstores.symm
    case failed =>
      rw [show firstStatus s.b (rankedOf s.b c) = some st from hst] at heq
      exact heq ▸ ⟨_, findCmd_modCmd_same _ (fun _ => rfl) hfind, rfl, rfl, rfl⟩
    case aborted =>
      rw [show firstStatus s.b (rankedOf s.b c) = none from hn, show heldAbort (acceptedBlk s.b c) (rankedOf s.b c) = some st from hst] at heq
      exact heq ▸ ⟨_, findCmd_modCmd_same _ (fun _ => rfl) hfind, rfl, rfl, rfl⟩
    case stands =>
      rw [show firstStatus s.b (rankedOf s.b c) = none from hn, show heldAbort (acceptedBlk s.b c) (rankedOf s.b c) = none from hst] at heq
      exact heq ▸ hfind

end Sys2Proof.Machine
end

section
/-!
O30: a completion record and its COMPLETE record (R520 to R525, R528).
-/
namespace Sys2Proof.Machine

/-! ### Functions that nothing waits for -/

/-- A page whose function waits for nothing: not being disabled, no enable held, no queue SHUTTING. -/
def Settled (n : Fn) : Prop := n.disabling = false ∧ n.enableHeld = none ∧ ∀ q ∈ n.queues, q.2.state ≠ 2

theorem settled_fn0 : Settled fn0 := ⟨rfl, rfl, by simp [fn0]⟩

/-- An entry of a table is the default or stands in the table. -/
theorem tget_default_or_mem {α : Type} (d : α) (t : Tab α) (k : Nat) : tget d t k = d ∨ ∃ e ∈ t, e.2 = tget d t k := by
  induction t with
  | nil => exact .inl rfl
  | cons e r ih =>
    obtain ⟨j, v⟩ := e
    rw [tget_cons]
    split
    · exact .inr ⟨(j, v), .head _, rfl⟩
    · exact ih.imp id fun ⟨e, he, h⟩ => ⟨e, .tail _ he, h⟩

theorem mem_tset {α : Type} [DecidableEq α] (d v : α) (t : Tab α) (k : Nat) (e : Nat × α) (h : e ∈ tset d t k v) : e = (k, v) ∨ e ∈ t := by
  unfold tset at h
  split at h
  · exact .inr (mem_tdel t k e h)
  · exact mem_tput t k v e h

theorem nothingSettles_page {b : Blk} (h : NothingSettles b) (f : Nat) : Settled (getFn b f) := by
  obtain hd | ⟨e, he, hv⟩ := tget_default_or_mem fn0 b.fns f
  · unfold getFn
    rw [hd]
    exact settled_fn0
  · unfold getFn
    rw [← hv]
    exact h e he

theorem nothingSettles_modFn {b : Blk} (h : NothingSettles b) (f : Nat) (g : Fn → Fn) (hg : Settled (getFn b f) → Settled (g (getFn b f))) :
    NothingSettles (modFn b f g) := by
  intro e he
  obtain rfl | he := mem_tset fn0 _ _ _ e he
  · exact hg (nothingSettles_page h f)
  · exact h e he

theorem getFn_congr {b b' : Blk} (f : Nat) (h : b'.fns = b.fns) : getFn b' f = getFn b f := by
  unfold getFn
  rw [h]

/-- Pages alone decide what settles. -/
theorem nothingSettles_congr {b b' : Blk} (h : NothingSettles b) (e : b'.fns = b.fns) : NothingSettles b' := by
  unfold NothingSettles
  rw [e]
  exact h

theorem settle_nothing {b : Blk} (h : NothingSettles b) : settle b = b := by
  have hl : b.fns.filter (fun e => e.2.disabling || e.2.enableHeld.isSome || e.2.queues.any fun q => q.2.state == 2) = [] := by
    rw [List.filter_eq_nil_iff]
    intro e he
    obtain ⟨hd, hh, hq⟩ := h e he
    simp only [hd, hh, Bool.false_or, Option.isSome_none, List.any_eq_true, beq_iff_eq, not_exists, not_and, Prod.exists]
    exact fun k q hm => hq (k, q) hm
  unfold settle
  rw [hl]
  rfl

/-! ### Live lines -/

theorem liveLines_dropped {b b' : Blk} (p : Cmd → Bool) (hc : b'.cmds = b.cmds.filter p) (hs : b'.t.stream = b.t.stream) (f : Nat) :
    liveLines b' f ≤ liveLines b f := by
  unfold liveLines
  simp only [hc, hs, ← List.sum_eq_foldl]
  refine Nat.add_le_add_right (List.Sublist.sum_le_sum ?_ fun _ _ => Nat.zero_le _) _
  exact ((List.filter_sublist).filter _).map _

/-! ### What a record for the ring changes -/

@[simp] theorem ringBytes_length (n : Fn) (num : Nat) (w : List Nat) : (ringBytes n num w).length = 32 := by
  unfold ringBytes
  simp

/-- A completion record lies in one page. -/
theorem ringSlot_cut (base k : Nat) (h : base % 64 = 0) : cutsOf (base + 32 * k) 32 = [(base + 32 * k, 32)] := by
  have : min 32 (4096 - (base + 32 * k) % 4096) = 32 := by omega
  unfold cutsOf pageCuts
  simp [this]
  unfold pageCuts
  simp

theorem fnStore_ringSlot (b : Blk) (f base k : Nat) (bs : List Byte) (h : base % 64 = 0) (hl : bs.length = 32) :
    fnStore b f 0 (base + 32 * k) bs = store b (fnKey b f 0 (base + 32 * k)) bs := by
  rw [fnStore_adds]
  unfold fnStores
  rw [hl, ringSlot_cut base k h]
  simp [slice, hl, store]

/-- A signal changes the page's vectors alone. -/
theorem getFn_signalVec {b : Blk} {f : Nat} (v : Nat) (he : (getFn b f).enabled = true) :
    ∃ m, getFn (signalVec b f v) f = { getFn b f with msi := m } := by
  unfold signalVec
  dsimp only
  split
  · exact ⟨_, getFn_modFn b f _ (enabled_ne (by exact he))⟩
  · split <;> exact ⟨_, rfl⟩

theorem nothingSettles_signalVec {b : Blk} (h : NothingSettles b) (f v : Nat) : NothingSettles (signalVec b f v) := by
  unfold signalVec
  dsimp only
  split
  · exact nothingSettles_modFn h f _ id
  · split <;> exact nothingSettles_congr h rfl

/-- Counting the records signalled changes the page's vectors and that count alone. -/
theorem getFn_cqSignal {b : Blk} {f : Nat} (he : (getFn b f).enabled = true) : ∃ m a, getFn (cqSignal b f) f = { getFn b f with msi := m, irqA := a } := by
  unfold cqSignal
  dsimp only
  split
  · obtain ⟨m, hm⟩ := getFn_signalVec (fld (getFn b f).irqCfg.toNat 62 58) he
    exact ⟨m, (getFn b f).produced, by rw [getFn_modFn _ _ _ (enabled_ne (by rw [hm]; exact he)), hm]⟩
  · exact ⟨_, _, rfl⟩

theorem nothingSettles_cqSignal {b : Blk} (h : NothingSettles b) (f : Nat) : NothingSettles (cqSignal b f) := by
  unfold cqSignal
  dsimp only
  split
  · exact nothingSettles_modFn (nothingSettles_signalVec h f _) f _ id
  · exact h

/-- A command that leaves the table gives back its staging, its hoist and what ended of its group; nothing else changes. -/
theorem dropCmd_eq {b : Blk} {id : CmdId} {c : Cmd} (h : findCmd b id = some c) : ∃ hoist fab, dropCmd b id =
    { modFn b id.f fun n => { n with stagingUsed := n.stagingUsed - c.staging } with
      t := { b.t with hoist := hoist }, fab := fab, cmds := b.cmds.filter fun c => !decide (c.id = id) } := by
  unfold dropCmd withCmd
  rw [h]
  dsimp only
  cases c.handle <;> split <;> exact ⟨_, _, rfl⟩

/-- A page from which a completion record has gone out: one line of the logbook and one record of the ring further. -/
def completedPage (n : Fn) (staging : Nat) (msi : Tab Msi) (a : Nat) : Fn :=
  { n with head := n.head + 1, produced := n.produced + 1, moved := true, stagingUsed := n.stagingUsed - staging, msi := msi, irqA := a }

/-- The COMPLETE record of a completion (R528). -/
def completeRecord (n : Fn) (id : CmdId) (w : List Nat) : List Byte :=
  let num := n.produced % 2 ^ 48
  logRecord n 4 0 id.q id.rseq (w.getD 0 0 % 2 ^ 32) num ((List.range 4).map fun i => leAt (ringBytes n num w) (8 * i) 8) []

/-- The stores of a completion: the COMPLETE record at the head, the completion record in the slot of its number. -/
def completionStores (b : Blk) (id : CmdId) (w : List Nat) : List (Nat × List Byte) :=
  let n := getFn b id.f
  let num := n.produced % 2 ^ 48
  [(fnKey b id.f 0 (lineAddr n n.head), completeRecord n id w), (fnKey b id.f 0 (n.cqBase + 32 * (num % 2 ^ n.cqLog2)), ringBytes n num w)]

/-- A block that has written its records of a completion, the command still in the table. -/
def recordedBlk (b : Blk) (id : CmdId) (w : List Nat) : Blk :=
  let logged := modFn { b with stores := b.stores ++ completionStores b id w } id.f fun n => { n with head := n.head + 1, moved := true }
  modFn logged id.f fun n => { n with produced := n.produced + 1, moved := true }

/-- The records of a page keep its addresses. -/
theorem fnKey_headed {b : Blk} {f : Nat} (he : (getFn b f).enabled = true) (k : Nat) (bs : List Byte) (va : Nat) :
    fnKey (modFn (store b k bs) f fun n => { n with head := n.head + 1, moved := true }) f 0 va = fnKey b f 0 va := by
  have h := getFn_modFn (store b k bs) f (fun n => { n with head := n.head + 1, moved := true }) (enabled_ne (by exact he))
  unfold fnKey
  rw [if_pos rfl, if_pos rfl, h]
  rfl

theorem findCmd_recordedBlk {b : Blk} {id : CmdId} {w : List Nat} {c : Cmd} (h : findCmd b id = some c) : findCmd (recordedBlk b id w) id = some c :=
  (findCmd_congr id rfl).trans h

section
variable {b : Blk} {id : CmdId} {w : List Nat} (he : (getFn b id.f).enabled = true)
include he

theorem getFn_recordedBlk : getFn (recordedBlk b id w) id.f =
    { getFn b id.f with head := (getFn b id.f).head + 1, produced := (getFn b id.f).produced + 1, moved := true } := by
  unfold recordedBlk
  dsimp only
  have h := getFn_modFn { b with stores := b.stores ++ completionStores b id w } id.f (fun n => { n with head := n.head + 1, moved := true })
    (enabled_ne (by exact he))
  rw [getFn_modFn _ _ _ (enabled_ne (by rw [h]; exact he)), h]
  rfl

theorem ringWrite_eq (hlog : (getFn b id.f).logBase % 64 = 0) (hcq : (getFn b id.f).cqBase % 64 = 0) :
    ringWrite b id.f { w := w, cmd := some id } = cqSignal (dropCmd (recordedBlk b id w) id) id.f := by
  unfold ringWrite
  dsimp only
  rw [appendLog_one _ _ _ (logRecord_length ..) hlog, fnStore_ringSlot _ _ _ _ _ hcq (ringBytes_length ..)]
  have hstores (x y : Nat × List Byte) : b.stores ++ [x] ++ [y] = b.stores ++ [x, y] := List.append_assoc ..
  unfold recordedBlk completionStores
  rw [← hstores]
  dsimp only
  rw [fnKey_headed he]
  rfl

section
variable {c : Cmd} (h : findCmd b id = some c)
include h

/-- The page after a completion. -/
theorem getFn_completed : ∃ msi a, getFn (cqSignal (dropCmd (recordedBlk b id w) id) id.f) id.f = completedPage (getFn b id.f) c.staging msi a := by
  obtain ⟨hoist, fab, hd⟩ := dropCmd_eq (findCmd_recordedBlk (w := w) h)
  have hpage : getFn (dropCmd (recordedBlk b id w) id) id.f =
      { getFn b id.f with
        head := (getFn b id.f).head + 1, produced := (getFn b id.f).produced + 1, moved := true, stagingUsed := (getFn b id.f).stagingUsed - c.staging } := by
    rw [hd]
    have hr := getFn_recordedBlk (w := w) he
    have hp := getFn_modFn (recordedBlk b id w) id.f (fun n => { n with stagingUsed := n.stagingUsed - c.staging }) (enabled_ne (by rw [hr]; exact he))
    rw [hr] at hp
    exact (getFn_congr id.f rfl).trans hp
  obtain ⟨m, a, hp⟩ := getFn_cqSignal (b := dropCmd (recordedBlk b id w) id) (f := id.f) (by rw [hpage]; exact he)
  exact ⟨m, a, by rw [hp, hpage]; rfl⟩

end

end

section
variable {b : Blk} {id : CmdId} {w : List Nat} {c : Cmd} (h : findCmd b id = some c)
include h

/-- A completion changes pages, interrupt writes, the hoists' bindings and what has ended, takes the command from the table and stores its records. -/
theorem completed_only : ∃ fns memp hoist fab, cqSignal (dropCmd (recordedBlk b id w) id) id.f =
    { b with
      fns := fns, memp := memp, t := { b.t with hoist := hoist }, fab := fab, cmds := b.cmds.filter fun c => !decide (c.id = id)
      stores := b.stores ++ completionStores b id w } := by
  obtain ⟨hoist, fab, hd⟩ := dropCmd_eq (findCmd_recordedBlk (w := w) h)
  obtain ⟨fns, memp, hs⟩ := cqSignal_only (dropCmd (recordedBlk b id w) id) id.f
  have hr : recordedBlk b id w = { b with fns := (recordedBlk b id w).fns, stores := b.stores ++ completionStores b id w } := rfl
  generalize recordedBlk b id w = x at hd hr hs ⊢
  generalize dropCmd x id = y at hd hs ⊢
  subst hd
  refine ⟨fns, memp, hoist, fab, hs.trans ?_⟩
  rw [hr]
  rfl

theorem nothingSettles_completed (hn : NothingSettles b) : NothingSettles (cqSignal (dropCmd (recordedBlk b id w) id) id.f) := by
  refine nothingSettles_cqSignal ?_ id.f
  obtain ⟨hoist, fab, hd⟩ := dropCmd_eq (findCmd_recordedBlk (w := w) h)
  rw [hd]
  refine nothingSettles_congr (b := modFn (recordedBlk b id w) id.f fun n => { n with stagingUsed := n.stagingUsed - c.staging }) ?_ rfl
  unfold recordedBlk
  have h0 : NothingSettles { b with stores := b.stores ++ completionStores b id w } := nothingSettles_congr hn rfl
  exact nothingSettles_modFn (nothingSettles_modFn (nothingSettles_modFn h0 _ _ fun h => h) _ _ fun h => h) _ _ fun h => h

end

/-! ### The row -/

/-- A block in which a record waits behind a ring that is full already (R525). -/
def waitingBlk (b : Blk) (f : Nat) (r : RingRec) : Blk := modFn b f fun n => { n with full := true, ringWait := n.ringWait ++ [r] }

theorem getFn_waitingBlk {b : Blk} {f : Nat} (he : (getFn b f).enabled = true) (r : RingRec) :
    getFn (waitingBlk b f r) f = { getFn b f with full := true, ringWait := (getFn b f).ringWait ++ [r] } :=
  getFn_modFn b f _ (enabled_ne (by exact he))

theorem completion_awake {id : CmdId} {c : Cmd} {s : State} (ha : awake s.b = true) (h : findCmd s.b id = some c) (hm : mayComplete s.b c = true) :
    exec (.completion id) s =
      .next (commit s (settle (carryIfShort (ringPut s.b id.f { w := completionWords c, cmd := some id }) id.f))) := by
  rw [row_completion, act_awake ha]
  simp only [h, hm, if_true]

theorem mayComplete_live {b : Blk} {c : Cmd} (h : mayComplete b c = true) : (getFn b c.id.f).enabled = true ∧ (getFn b c.id.f).fenced = false := by
  simp only [mayComplete, fnLive, Bool.and_eq_true, Bool.not_eq_true'] at h
  obtain ⟨⟨⟨⟨_, hl⟩, _⟩, _⟩, _⟩ := h
  exact hl

/-- Settles O30: a record written by `ringWrite_eq` and `completed_only`, a waiting one by `ringPut`'s last case; nothing then carries or settles. -/
theorem completionsAreWritten : Obligations.CompletionsAreWritten := by
  unfold Obligations.CompletionsAreWritten
  intro id c s ha hs h
  obtain rfl := findCmd_id h
  dsimp only
  refine ⟨fun hm => ?early, fun hm hcq hroom hset hlog hbase => ⟨fun hw hfree => ?written, fun hw hfull => ?waits⟩⟩
  case early =>
    rw [row_completion]
    refine act_nop _ hs ?_
    simp only [h, hm]
    rfl
  case written =>
    obtain ⟨he, hf⟩ := mayComplete_live hm
    have hput : ringPut s.b c.id.f { w := completionWords c, cmd := some c.id } =
        cqSignal (dropCmd (recordedBlk s.b c.id (completionWords c)) c.id) c.id.f := by
      rw [← ringWrite_eq he hlog hbase]
      unfold ringPut
      simp [hf, hcq, hw, ringRoom, hfree]
    refine ⟨_, completion_awake ha h hm, ?_⟩
    rw [hput]
    obtain ⟨msi, a, hpage⟩ := getFn_completed (w := completionWords c) he h
    obtain ⟨fns, memp, hoist, fab, honly⟩ := completed_only (w := completionWords c) h
    have hsettled := nothingSettles_completed (w := completionWords c) h hset
    generalize cqSignal (dropCmd (recordedBlk s.b c.id (completionWords c)) c.id) c.id.f = r at hpage honly hsettled ⊢
    have hroom' : carryIfShort r c.id.f = r := by
      refine carryIfShort_room ?_
      have hl : liveLines r c.id.f ≤ liveLines s.b c.id.f := liveLines_dropped _ (congrArg Blk.cmds honly) (by rw [honly]) c.id.f
      unfold logFree at hroom ⊢
      dsimp only at hroom ⊢
      rw [hpage]
      show _ ≤ logLines (getFn s.b c.id.f) - 1 - ((getFn s.b c.id.f).head + 1 - (getFn s.b c.id.f).tailAnchor)
      omega
    rw [hroom', settle_nothing hsettled]
    refine ⟨?gone, ?produced, ?head, ?pens, ?group, ?stream, ?mem⟩
    case gone =>
      rw [findCmd_commit, honly]
      exact List.find?_eq_none.mpr (by simp)
    case produced => rw [getFn_commit, hpage]; rfl
    case head => rw [getFn_commit, hpage]; rfl
    case pens => rw [commit_b_pens, honly]
    case group => rw [commit_b_t, honly]
    case stream => rw [commit_b_t, honly]
    case mem =>
      rw [commit_mem, honly]
      exact congrArg (fun l => applyStores s.mem (l ++ completionStores s.b c.id (completionWords c))) hs
  case waits =>
    obtain ⟨he, hf⟩ := mayComplete_live hm
    have hput : ringPut s.b c.id.f { w := completionWords c, cmd := some c.id } = waitingBlk s.b c.id.f { w := completionWords c, cmd := some c.id } := by
      have hroom : ((getFn s.b c.id.f).ringWait.isEmpty && ringRoom (getFn s.b c.id.f)) = false := by
        simpa [ringRoom, Decidable.imp_iff_not_or, or_comm] using hw
      unfold ringPut
      simp only [hf, hcq, hroom, hfull]
      rfl
    have hpage := getFn_waitingBlk he { w := completionWords c, cmd := some c.id }
    have hroom' : liveLines (waitingBlk s.b c.id.f { w := completionWords c, cmd := some c.id }) c.id.f + 32 ≤
        logFree (waitingBlk s.b c.id.f { w := completionWords c, cmd := some c.id }) c.id.f := by
      unfold logFree at hroom ⊢
      rw [hpage]
      exact Nat.le_trans (Nat.le_succ _) hroom
    have hsettled : NothingSettles (waitingBlk s.b c.id.f { w := completionWords c, cmd := some c.id }) := nothingSettles_modFn hset _ _ fun h => h
    refine ⟨_, completion_awake ha h hm, ?_⟩
    rw [hput, carryIfShort_room hroom', settle_nothing hsettled]
    refine ⟨h, congrArg (applyStores s.mem) hs, ?_, ?_⟩ <;> rw [getFn_commit, hpage]

end Sys2Proof.Machine
end

section
/-!
O38: STRIKE, QUEUE_SHUTDOWN, FUNCTION_ENABLE and FUNCTION_DISABLE (R541 to R547, R500, R503, R575).
-/
namespace Sys2Proof.Machine

/-! ### The rows of accepted commands -/

section
variable {id : CmdId} {c : Cmd} {s : State} (ha : awake s.b = true)
include ha

theorem strike_accepted (h : AcceptedNow s.b id 0x50 c) : exec (.strike id) s = .next (commit s (settle (strikeFx s.b c))) := by
  rw [row_strike, act_awake ha, cmdIn_accepted h (awake_run ha)]

theorem queueShutdown_accepted (h : AcceptedNow s.b id 0x51 c) : exec (.queueShutdown id) s = .next (commit s (settle (shutdownFx s.b c))) := by
  rw [row_queueShutdown, act_awake ha, cmdIn_accepted h (awake_run ha)]

theorem functionEnable_accepted (h : AcceptedNow s.b id 0x80 c) : exec (.functionEnable id) s = .next (commit s (enableFx s.b c)) := by
  rw [row_functionEnable, act_awake ha, cmdIn_accepted h (awake_run ha)]

theorem functionDisable_runs (h : RunsNow s.b id 0x81 c) : exec (.functionDisable id) s = .next (commit s (disableFx s.b c)) := by
  rw [row_functionDisable, act_awake ha, onRun_runs h (awake_run ha)]

end

/-! ### STRIKE -/

section
variable {b : Blk} {c d : Cmd} (h : findCmd b c.id = some c) (hp : c.phase = .accepted)
include h hp

theorem endCmd_accepted (st r : Nat) : EndedWith (endCmd b c.id st r) c.id st r := endCmd_endedWith st r h (by simp [hp])

/-- A command that STRIKE stops is STRUCK, and the STRIKE answers 1. -/
theorem struck_ends (hd : findCmd b d.id = some d) (hn : d.id ≠ c.id) (he : d.phase ≠ .ended) :
    EndedWith (endCmd (endEarly b d.id 0x11 0x10) c.id 0 1) c.id 0 1 ∧ ∃ r, EndedWith (endCmd (endEarly b d.id 0x11 0x10) c.id 0 1) d.id 0x11 r := by
  obtain ⟨r, hr⟩ := endEarly_endedWith 0x11 0x10 hd he
  have hc : findCmd (endEarly b d.id 0x11 0x10) c.id = some c := (endEarly_find_other b 0x11 0x10 (Ne.symm hn)).trans h
  exact ⟨endCmd_endedWith 0 1 hc (by simp [hp]), r, (endCmd_keepsEnded _ c.id 0 1).ew _ _ _ hr⟩

end

/-! ### Shutting a queue -/

/-- Changing a command, but neither its id, its phase nor its status and result, keeps what has ended. -/
theorem modCmd_ew (b : Blk) (k : CmdId) (g : Cmd → Cmd) (h : ∀ c, (g c).id = c.id ∧ (g c).phase = c.phase ∧ (g c).status = c.status ∧ (g c).result = c.result) :
    KeepsEW b (modCmd b k g) := by
  rintro id st r ⟨c, hc, hp, hs, hr⟩
  have hf := findCmd_modCmd b k id g (fun c => (h c).1)
  rw [hc, Option.map_some] at hf
  obtain ⟨_, h2, h3, h4⟩ := h c
  refine ⟨_, hf, ?_⟩
  split
  · exact ⟨h2.trans hp, h3.trans hs, h4.trans hr⟩
  · exact ⟨hp, hs, hr⟩

/-- A list of commands ended early: each that had not ended stands ended with the status. -/
theorem foldl_endEarly_ends (l : List Cmd) (st no : Nat) {b : Blk} {d : Cmd} (hd : findCmd b d.id = some d) (hp : d.phase ≠ .ended) (hm : d ∈ l) :
    ∃ r, EndedWith (l.foldl (fun b c => endEarly b c.id st no) b) d.id st r := by
  induction l generalizing b with
  | nil => simp at hm
  | cons c l ih =>
    rw [List.foldl_cons]
    by_cases hc : d.id = c.id
    · obtain ⟨r, hr⟩ := endEarly_endedWith st no hd hp
      rw [← hc]
      exact ⟨r, KeepsEW.foldl l _ _ (fun b c => endEarly_ew b c.id st no) _ _ _ hr⟩
    · refine ih ((endEarly_find_other b st no hc).trans hd) ((List.mem_cons.mp hm).resolve_left fun e => hc (congrArg Cmd.id e))

theorem foldl_endEarly_find_other (l : List Cmd) (st no : Nat) (b : Blk) {k : CmdId} (hk : ∀ c ∈ l, k ≠ c.id) :
    findCmd (l.foldl (fun b c => endEarly b c.id st no) b) k = findCmd b k := by
  induction l generalizing b with
  | nil => rfl
  | cons c l ih =>
    rw [List.foldl_cons, ih _ fun x hx => hk x (.tail _ hx)]
    exact endEarly_find_other b st no (hk c (.head _))

theorem mem_endable {b : Blk} {f q : Nat} {self : CmdId} {d : Cmd} (h : d ∈ endable b f q self) :
    d ∈ b.cmds ∧ d.id.f = f ∧ d.id.q = q ∧ d.id ≠ self ∧ d.phase ≠ .ended := by
  simp only [endable, List.mem_filter, Bool.and_eq_true, beq_iff_eq, Bool.not_eq_true', decide_eq_false_iff_not, Bool.or_eq_true, decide_eq_true_eq] at h
  obtain ⟨hm, ⟨⟨⟨⟨hf, hq⟩, hs⟩, hp⟩, _⟩, _⟩ := h
  exact ⟨hm, hf, hq, hs, by obtain hp | hp := hp <;> simp [hp]⟩

/-- Changing the command that asks for a shutdown leaves what the shutdown can end. -/
theorem endable_modCmd {b : Blk} {f q : Nat} {self : CmdId} {d : Cmd} (h : d ∈ endable b f q self) (g : Cmd → Cmd) : d ∈ endable (modCmd b self g) f q self := by
  obtain ⟨hm, _, _, hs, _⟩ := mem_endable h
  refine List.mem_filter.mpr ⟨List.mem_map.mpr ⟨d, hm, if_neg hs⟩, ?_⟩
  exact (List.mem_filter.mp h).2

/-- A shutdown ends with ABORTED each command of the queue that can still be stopped. -/
theorem shutQueue_ends {b : Blk} {f q : Nat} {self : CmdId} {d : Cmd} (hd : findCmd b d.id = some d) (hm : d ∈ endable b f q self) :
    ∃ r, EndedWith (shutQueue b f q self) d.id 0x10 r := by
  obtain ⟨_, _, _, _, hp⟩ := mem_endable hm
  obtain ⟨r, hr⟩ := foldl_endEarly_ends (endable b f q self) 0x10 0x10 (b := modQ b f q fun x => { x with state := 2, scanPending := false }) hd hp hm
  exact ⟨r, modCmd_ew _ self (fun c => { c with count := c.count + (endable b f q self).length }) (fun _ => ⟨rfl, rfl, rfl, rfl⟩) _ _ _ hr⟩

theorem shutQueue_ew (b : Blk) (f q : Nat) (self : CmdId) : KeepsEW b (shutQueue b f q self) := by
  have h1 : KeepsEW b (modQ b f q fun x => { x with state := 2, scanPending := false }) := .of_cmds rfl
  exact (h1.trans (KeepsEW.foldl (endable b f q self) _ _ fun b c => endEarly_ew b c.id 0x10 0x10)).trans
    (modCmd_ew _ self (fun c => { c with count := c.count + (endable b f q self).length }) fun _ => ⟨rfl, rfl, rfl, rfl⟩)

/-- A shutdown leaves the commands of other queues. -/
theorem shutQueue_find_other (b : Blk) (f q : Nat) {self k : CmdId} (hq : k.q ≠ q) (hs : k ≠ self) : findCmd (shutQueue b f q self) k = findCmd b k := by
  refine (findCmd_modCmd_other (fun c => { c with count := c.count + (endable b f q self).length }) (fun _ => rfl) hs).trans ?_
  refine (foldl_endEarly_find_other _ 0x10 0x10 _ fun c hc e => hq ?_).trans (findCmd_congr k rfl)
  obtain ⟨_, _, hcq, _, _⟩ := mem_endable hc
  rw [e]
  exact hcq

/-! ### A queue that has left OPEN stays so -/

/-- A queue of an enabled function is not OPEN, and the function still has a command, so that it is not closed. -/
structure OffOpen (f q : Nat) (b : Blk) : Prop where
  enabled : (getFn b f).enabled = true
  notOpen : (getQ b f q).state ≠ 1
  hasCmd : ∃ d ∈ b.cmds, d.id.f = f

section
variable {f q : Nat} {b : Blk}

theorem QKept.has_cmd {b' : Blk} (hk : QKept b b') (h : ∃ d ∈ b.cmds, d.id.f = f) : ∃ d ∈ b'.cmds, d.id.f = f := by
  obtain ⟨d, hd, hf⟩ := h
  have hm : (d.id, d.raw) ∈ b'.cmds.map fun c => (c.id, c.raw) := hk.2 ▸ List.mem_map_of_mem hd
  obtain ⟨x, hx, e⟩ := List.mem_map.mp hm
  exact ⟨x, hx, by rw [(Prod.mk.inj e).1]; exact hf⟩

theorem OffOpen.kept {b' : Blk} (h : OffOpen f q b) (hk : QKept b b') : OffOpen f q b' := by
  obtain ⟨he, hq, hc⟩ := h
  obtain ⟨hen, hqs⟩ := hk.1 f he
  exact ⟨hen, by unfold getQ at hq ⊢; rwa [hqs], hk.has_cmd hc⟩

/-- A page change that keeps the function enabled and the queue out of OPEN. -/
theorem OffOpen.modPage (h : OffOpen f q b) (k : Nat) (g : Fn → Fn)
    (hg : k = f → (g (getFn b f)).enabled = true ∧ (tget queue0 (g (getFn b f)).queues q).state ≠ 1) : OffOpen f q (modFn b k g) := by
  obtain ⟨he, hq, hc⟩ := h
  by_cases hk : k = f
  · subst hk
    obtain ⟨h1, h2⟩ := hg rfl
    have hp := getFn_modFn b k g (enabled_ne h1)
    exact ⟨by rw [hp]; exact h1, by unfold getQ; rw [hp]; exact h2, hc⟩
  · have hp := getFn_modFn_other b k f g (Ne.symm hk)
    exact ⟨by rw [hp]; exact he, by unfold getQ; rw [hp]; exact hq, hc⟩

theorem OffOpen.foldl {α : Type} (l : List α) (g : Blk → α → Blk) (h : OffOpen f q b) (hg : ∀ b x, OffOpen f q b → OffOpen f q (g b x)) :
    OffOpen f q (l.foldl g b) :=
  foldl_keeps (OffOpen f q) l g b h fun y x hy => hg y x hy

/-- A change of a queue's state to one that is not OPEN leaves every queue that is not OPEN so. -/
theorem tmod_notOpen {t : Tab Queue} {g : Queue → Queue} (hg : ∀ x, (g x).state ≠ 1 ∧ g x ≠ queue0) (k q : Nat) (h : (tget queue0 t q).state ≠ 1) :
    (tget queue0 (tmod queue0 t k g) q).state ≠ 1 := by
  by_cases hk : q = k
  · subst hk
    unfold tmod
    rw [tget_tset_of_ne queue0 t q q _ (hg _).2, if_pos rfl]
    exact (hg _).1
  · rw [tget_tmod_other queue0 t k q g hk]
    exact h

theorem OffOpen.settleQueue (h : OffOpen f q b) (k j : Nat) : OffOpen f q (settleQueue b k j) := by
  unfold Machine.settleQueue
  split
  · refine OffOpen.foldl _ _ (OffOpen.modPage h k _ fun e => ?_) fun b x hb => hb.kept (endCmd_qkept ..)
    subst e
    exact ⟨h.enabled, tmod_notOpen (g := fun x => { x with state := 3 }) (fun x => ⟨by simp, fun e => by simpa [queue0] using congrArg Queue.state e⟩) j q h.notOpen⟩
  · exact h

theorem writeAnchor_qkept (b : Blk) (k : Nat) : QKept b (writeAnchor b k) := by
  unfold writeAnchor
  dsimp only
  rw [fnStore_adds]
  exact (QKept.same (b' := { b with stores := _ }) rfl rfl).trans (.modFn _ _ _ (fun _ => rfl) fun _ => rfl)

theorem appendLog_qkept (b : Blk) (k : Nat) (bs : List Byte) : QKept b (appendLog b k bs) := by
  unfold appendLog
  dsimp only
  rw [foldl_fnStore]
  exact (QKept.same (b' := { b with stores := _ }) rfl rfl).trans (.modFn _ _ _ (fun _ => rfl) fun _ => rfl)

/-- A function enabled has every queue CLOSED. -/
theorem OffOpen.enableFrom (h : OffOpen f q b) (c : Cmd) : OffOpen f q (enableFrom b c) := by
  unfold Machine.enableFrom enableFn
  dsimp only
  refine OffOpen.kept ?_ ((writeAnchor_qkept ..).trans (appendLog_qkept ..))
  exact OffOpen.modPage h _ _ fun _ => ⟨rfl, by simp [fn0, queue0]⟩

/-- The function is not closed while a command of it is in the table. -/
theorem OffOpen.closeFn (h : OffOpen f q b) {k : Nat} (hk : k ≠ f) : OffOpen f q (closeFn b k) := by
  unfold Machine.closeFn
  exact OffOpen.foldl _ _ (OffOpen.modPage (h.kept (writeAnchor_qkept b k)) k _ fun e => absurd e hk) fun b x hb => hb.kept (endCmd_qkept ..)

theorem OffOpen.settleFn (h : OffOpen f q b) (k : Nat) : OffOpen f q (settleFn b k) := by
  unfold Machine.settleFn
  extract_lets n x n' y n''
  have hx : OffOpen f q x := OffOpen.foldl _ _ h fun b j hb => hb.settleQueue k j
  have hy : OffOpen f q y := by
    simp only [y]
    split
    · rename_i hc
      refine hx.closeFn fun e => ?_
      obtain ⟨d, hd, hf⟩ := hx.hasCmd
      simp only [Bool.and_eq_true, Bool.not_eq_true', List.any_eq_false, beq_iff_eq] at hc
      obtain ⟨⟨⟨_, hnone⟩, _⟩, _⟩ := hc
      exact hnone d hd (hf.trans e.symm)
    · exact hx
  clear_value n'' y
  have hheld : OffOpen f q (modFn y k fun n => { n with enableHeld := none }) := hy.modPage k _ fun _ => ⟨hy.enabled, hy.notOpen⟩
  split
  · split
    · exact hy
    · split
      · split
        · exact hheld.kept (endCmd_qkept ..)
        · exact (hheld.enableFrom _).kept (endCmd_qkept ..)
      · exact hheld
  · exact hy

theorem OffOpen.settle (h : OffOpen f q b) : OffOpen f q (settle b) := by
  unfold Machine.settle
  exact OffOpen.foldl _ _ h fun b k hb => hb.settleFn k

/-- A shutdown takes its queue out of OPEN. -/
theorem shutQueue_offOpen (he : (getFn b f).enabled = true) (hc : ∃ d ∈ b.cmds, d.id.f = f) (self : CmdId) : OffOpen f q (shutQueue b f q self) := by
  have hq : getQ (modQ b f q fun x => { x with state := 2, scanPending := false }) f q = { getQ b f q with state := 2, scanPending := false } :=
    getQ_modQ b f q _ he fun e => by simpa [queue0] using congrArg Queue.state e
  have hp := getFn_modFn b f (fun n => { n with queues := tmod queue0 n.queues q fun x => { x with state := 2, scanPending := false } }) (enabled_ne (by exact he))
  have h : OffOpen f q (modQ b f q fun x => { x with state := 2, scanPending := false }) :=
    ⟨(congrArg Fn.enabled hp).trans he, by rw [hq]; simp, hc⟩
  have hs := OffOpen.foldl (endable b f q self) (fun b c => endEarly b c.id 0x10 0x10) h fun b c hb => hb.kept (endEarly_qkept ..)
  exact hs.kept (.modCmd _ _ _ (fun _ => rfl) fun _ => rfl)

end

/-! ### The rows' parts -/

section
variable {id : CmdId} {c : Cmd} {s : State} (ha : awake s.b = true)
include ha

theorem strike_part (h : AcceptedNow s.b id 0x50 c) (hit : Option Cmd)
    (hhit : hit = s.b.cmds.find? fun d => d.id.f == fFn c && d.id.q == fQ c && tagOf d == fTtag c && !decide (d.id = id) && !decide (d.phase = .taken)) :
    (hit = none → ∃ t, exec (.strike id) s = .next t ∧ EndedWith t.b id 0 0) ∧
    ∀ d, hit = some d → findCmd s.b d.id = some d →
      (d.phase = .ended ∨ tooLate s.b d = true ∨ (getFn s.b d.id.f).fenced = true → ∃ t, exec (.strike id) s = .next t ∧ EndedWith t.b id 0 2) ∧
      (d.phase ≠ .ended → tooLate s.b d = false → (getFn s.b d.id.f).fenced = false →
        ∃ t r, exec (.strike id) s = .next t ∧ EndedWith t.b id 0 1 ∧ EndedWith t.b d.id 0x11 r) := by
  have hrow := strike_accepted ha h
  obtain ⟨hf, hp, _, _⟩ := h
  obtain rfl := findCmd_id hf
  have hsettle (b : Blk) (i : CmdId) (st r : Nat) (hb : EndedWith b i st r) : EndedWith (settle b) i st r := EndedWith.keep hb (settle_keepsEnded b)
  refine ⟨fun hn => ?none, fun d hsome hd => ⟨fun hlate => ?late, fun h1 h2 h3 => ?struck⟩⟩
  case none =>
    have hx : strikeFx s.b c = endCmd s.b c.id 0 0 := by
      unfold strikeFx
      rw [← hhit, hn]
    exact ⟨_, hrow, hsettle _ _ _ _ (hx ▸ endCmd_accepted hf hp 0 0)⟩
  case late =>
    have hx : strikeFx s.b c = endCmd s.b c.id 0 2 := by
      unfold strikeFx
      rw [← hhit, hsome]
      exact if_pos (by simpa [or_assoc] using hlate)
    exact ⟨_, hrow, hsettle _ _ _ _ (hx ▸ endCmd_accepted hf hp 0 2)⟩
  case struck =>
    have hx : strikeFx s.b c = endCmd (endEarly s.b d.id 0x11 0x10) c.id 0 1 := by
      unfold strikeFx
      rw [← hhit, hsome]
      exact if_neg (by simp [h1, h2, h3])
    have hn : d.id ≠ c.id := by
      have hmatch := List.find?_some (hhit.symm.trans hsome)
      simp only [Bool.and_eq_true, Bool.not_eq_true', decide_eq_false_iff_not] at hmatch
      obtain ⟨⟨_, hn⟩, _⟩ := hmatch
      exact hn
    obtain ⟨hc, r, hr⟩ := struck_ends hf hp hd hn h1
    rw [← hx] at hc hr
    exact ⟨_, r, hrow, hsettle _ _ _ _ hc, hsettle _ _ _ _ hr⟩

theorem queueShutdown_part (h : AcceptedNow s.b id 0x51 c) :
    ((getQ s.b (fFn c) (fQ c)).state = 0 ∨ (getQ s.b (fFn c) (fQ c)).state = 3 → ∃ t, exec (.queueShutdown id) s = .next t ∧ EndedWith t.b id 0 0) ∧
    ((getQ s.b (fFn c) (fQ c)).state = 1 ∨ (getQ s.b (fFn c) (fQ c)).state = 2 → (getFn s.b (fFn c)).enabled = true →
      (∃ d ∈ s.b.cmds, d.id.f = fFn c ∧ d.id.q = fQ c) →
      ∃ t, exec (.queueShutdown id) s = .next t ∧ (getQ t.b (fFn c) (fQ c)).state ≠ 1 ∧
        ((getQ s.b (fFn c) (fQ c)).state = 1 → ∀ d ∈ endable s.b (fFn c) (fQ c) id, findCmd s.b d.id = some d → ∃ r, EndedWith t.b d.id 0x10 r)) := by
  have hrow := queueShutdown_accepted ha h
  obtain ⟨hf, hp, _, _⟩ := h
  obtain rfl := findCmd_id hf
  -- the shutdown runs, and every other command stands
  have hrun : QKept s.b (modCmd s.b c.id fun c => { c with phase := .running }) := .modCmd _ _ _ (fun _ => rfl) fun _ => rfl
  refine ⟨fun h0 => ⟨_, hrow, ?closed⟩, fun h1 he hc => ⟨_, hrow, ?opened⟩⟩
  case closed =>
    have hx : shutdownFx s.b c = endCmd (modCmd s.b c.id fun c => { c with phase := .running }) c.id 0 0 :=
      if_pos (by simpa using h0)
    refine EndedWith.keep ?_ (settle_keepsEnded _)
    rw [hx]
    exact endCmd_endedWith 0 0 (findCmd_modCmd_same (fun c => { c with phase := .running }) (fun _ => rfl) hf) (by simp)
  case opened =>
    obtain ⟨d, hd, hdf, _⟩ := hc
    have hcmd : ∃ d ∈ s.b.cmds, d.id.f = fFn c := ⟨d, hd, hdf⟩
    obtain h1 | h2 := h1
    · have hx : shutdownFx s.b c = shutQueue (modCmd s.b c.id fun c => { c with phase := .running }) (fFn c) (fQ c) c.id :=
        (if_neg (by simp [h1])).trans (if_neg (by simp [h1]))
      rw [hx]
      refine ⟨?_, fun _ d hd hfd => ?_⟩
      · exact (shutQueue_offOpen (q := fQ c) (hrun.1 _ he).1 (hrun.has_cmd hcmd) c.id).settle.notOpen
      · obtain ⟨_, _, _, hn, _⟩ := mem_endable hd
        obtain ⟨r, hr⟩ := shutQueue_ends ((findCmd_modCmd_other (fun c => { c with phase := .running }) (fun _ => rfl) hn).trans hfd)
          (endable_modCmd hd _)
        exact ⟨r, EndedWith.keep hr (settle_keepsEnded _)⟩
    · have hx : shutdownFx s.b c = modCmd s.b c.id fun c => { c with phase := .running } :=
        (if_neg (by simp [h2])).trans (if_pos (by simp [h2]))
      rw [hx]
      have hoff : OffOpen (fFn c) (fQ c) s.b := ⟨he, by omega, hcmd⟩
      exact ⟨(hoff.kept hrun).settle.notOpen, fun h1 => by omega⟩

/-- The page FUNCTION_ENABLE's packet asks for (R575). -/
def packetPage (b : Blk) (c : Cmd) : Fn :=
  enabledPage (getFn b (fFn c)) (pbits c 2 4 0) (pf c 16 2) (pf c 20 4) (pf c 24 2) (pf c 4 4) (pbits c 26 3 0) (pf c 8 8) (pbits c 3 5 0)

/-- The anchor and the ENABLE record of FUNCTION_ENABLE. -/
def enableLines (b : Blk) (c : Cmd) : List (Nat × List Byte) :=
  let p := packetPage b c
  [(memKey 0 (translate b (pf c 4 4) (pf c 8 8)), anchorBytes p (fFn c) 0),
    (memKey 0 (translate b (pf c 4 4) (pf c 8 8 + 64)),
      logRecord { p with head := 0 } 6 0 0 0 0 0 [p.nq % 32, p.groupQuota % 2 ^ 15, p.rosterQuota % 2 ^ 21, p.stagingQuota % 2 ^ 13] [])]

omit ha in
theorem enableFrom_eq {b : Blk} {c : Cmd} (h : enableFieldsOk c = true) :
    enableFrom b c = { b with fns := tput (fFn c) (packetPage b c) b.fns, stores := b.stores ++ enableLines b c } := by
  simp only [enableFieldsOk, Bool.and_eq_true, beq_iff_eq] at h
  obtain ⟨⟨⟨⟨⟨⟨_, hbase⟩, _⟩, _⟩, _⟩, _⟩, _⟩ := h
  exact enableFn_eq b (fFn c) _ _ _ _ _ _ _ _ (by omega)

theorem functionEnable_part (hs : s.b.stores = []) (hw : c.waitOn = none) (h : AcceptedNow s.b id 0x80 c) (hok : enableFieldsOk c = true)
    (hoff : (s.b.cmds.any fun d => opOf d == 0x81 && fFn d == fFn c && !decide (d.phase = .taken)) = false) (hdis : (getFn s.b (fFn c)).disabling = false) :
    ((getFn s.b (fFn c)).enabled = true → ∃ t, exec (.functionEnable id) s = .next t ∧ EndedWith t.b id 0x61 0) ∧
    ((getFn s.b (fFn c)).enabled = false → 4096 < poolUse s.b + pbits c 2 4 0 → ∃ t, exec (.functionEnable id) s = .next t ∧ EndedWith t.b id 0x60 0) ∧
    ((getFn s.b (fFn c)).enabled = false → poolUse s.b + pbits c 2 4 0 ≤ 4096 →
      ∃ t, exec (.functionEnable id) s = .next t ∧ EndedWith t.b id 0 (packetPage s.b c).epoch ∧ getFn t.b (fFn c) = packetPage s.b c ∧
        t.mem = applyStores s.mem (enableLines s.b c)) := by
  have hrow := functionEnable_accepted ha h
  obtain ⟨hf, hp, _, _⟩ := h
  obtain rfl := findCmd_id hf
  have hx : enableFx s.b c = if (getFn s.b (fFn c)).enabled then endCmd s.b c.id 0x61 0
      else if 4096 < poolUse s.b + pbits c 2 4 0 then endCmd s.b c.id 0x60 0
      else endCmd (enableFrom s.b c) c.id 0 (getFn (enableFrom s.b c) (fFn c)).epoch := by
    unfold enableFx
    simp only [hok, hoff, hdis]
    simp
  rw [hx] at hrow
  refine ⟨fun he => ?enabled, fun he hpool => ?pool, fun he hpool => ?enables⟩
  case enabled =>
    rw [if_pos he] at hrow
    exact ⟨_, hrow, endCmd_accepted hf hp 0x61 0⟩
  case pool =>
    rw [if_neg (by simp [he]), if_pos hpool] at hrow
    exact ⟨_, hrow, endCmd_accepted hf hp 0x60 0⟩
  case enables =>
    have hpage : getFn (enableFrom s.b c) (fFn c) = packetPage s.b c := by
      rw [enableFrom_eq hok]
      exact getFn_put s.b (fFn c) (packetPage s.b c)
    have hfind : findCmd (enableFrom s.b c) c.id = some c := (findCmd_congr c.id (enableFrom_cmds ..)).trans hf
    have hstores : (enableFrom s.b c).stores = enableLines s.b c := by
      rw [enableFrom_eq hok]
      exact congrArg (· ++ enableLines s.b c) hs
    rw [if_neg (by simp [he]), if_neg (by omega)] at hrow
    generalize enableFrom s.b c = x at hrow hpage hfind hstores
    have hend := endCmd_ended 0 (getFn x (fFn c)).epoch hfind (by simp [hp]) hw
    refine ⟨_, hrow, hpage ▸ endCmd_accepted hfind hp 0 _, ?_, ?_⟩
    · rw [hend]
      exact hpage
    · rw [hend]
      exact congrArg (applyStores s.mem) hstores

end

/-! ### FUNCTION_DISABLE -/

theorem getQ_modQ_other {b : Blk} {f j q : Nat} (g : Queue → Queue) (he : (getFn b f).enabled = true) (hj : q ≠ j) : getQ (modQ b f j g) f q = getQ b f q := by
  unfold modQ
  unfold getQ
  rw [getFn_modFn b f _ (enabled_ne (by exact he))]
  exact tget_tmod_other queue0 _ j q g hj

/-- A command of an OPEN queue of an enabled function waits there as it was accepted. -/
structure WaitsOpen (b : Blk) (d : Cmd) : Prop where
  enabled : (getFn b d.id.f).enabled = true
  isOpen : (getQ b d.id.f d.id.q).state = 1
  found : findCmd b d.id = some d

/-- Shutting one queue, with what FUNCTION_DISABLE does of it. -/
def disableQueue (f : Nat) (self : CmdId) (b : Blk) (q : Nat) : Blk :=
  if (getQ b f q).state == 0 || (getQ b f q).state == 3 then b else shutQueue b f q self

theorem disableQueue_ew (f : Nat) (self : CmdId) (b : Blk) (q : Nat) : KeepsEW b (disableQueue f self b q) := by
  unfold disableQueue
  split
  · exact .refl b
  · exact shutQueue_ew b f q self

section
variable {b : Blk} {d : Cmd} {self : CmdId} (h : WaitsOpen b d) (hn : d.id ≠ self)
include h hn

/-- Shutting another queue leaves it waiting. -/
theorem disableQueue_other {q : Nat} (hq : d.id.q ≠ q) : WaitsOpen (disableQueue d.id.f self b q) d := by
  unfold disableQueue
  split
  · exact h
  · have hk : QKept (modQ b d.id.f q fun x => { x with state := 2, scanPending := false }) (shutQueue b d.id.f q self) :=
      (QKept.foldl (endable b d.id.f q self) (fun b c => endEarly b c.id 0x10 0x10) _ fun b c => endEarly_qkept ..).trans
        (.modCmd _ _ _ (fun _ => rfl) fun _ => rfl)
    have hp := getFn_modFn b d.id.f (fun n => { n with queues := tmod queue0 n.queues q fun x => { x with state := 2, scanPending := false } })
      (enabled_ne (by exact h.enabled))
    obtain ⟨he, hqs⟩ := hk.1 d.id.f ((congrArg Fn.enabled hp).trans h.enabled)
    refine ⟨he, ?_, (shutQueue_find_other b _ q hq hn).trans h.found⟩
    have hg := getQ_modQ_other (fun x => { x with state := 2, scanPending := false }) h.enabled hq
    unfold getQ at hg ⊢
    rw [hqs, hg]
    exact h.isOpen

variable (hp : d.phase = .accepted) (hsig : d.sigSent = false) (happ : d.applied = none)
include hp hsig happ

/-- Shutting its own queue ends it. -/
theorem disableQueue_own : ∃ r, EndedWith (disableQueue d.id.f self b d.id.q) d.id 0x10 r := by
  have hlate : tooLate b d = false := by simp [tooLate, hp, hsig, happ]
  have hm : d ∈ endable b d.id.f d.id.q self := by
    refine List.mem_filter.mpr ⟨List.mem_of_find?_eq_some h.found, ?_⟩
    simp [hn, hp, hlate]
  unfold disableQueue
  rw [if_neg (by simp [h.isOpen])]
  exact shutQueue_ends h.found hm

theorem foldl_disableQueue_ends (l : List Nat) (hm : d.id.q ∈ l) : ∃ r, EndedWith (l.foldl (disableQueue d.id.f self) b) d.id 0x10 r := by
  induction l generalizing b with
  | nil => simp at hm
  | cons q l ih =>
    rw [List.foldl_cons]
    by_cases hq : d.id.q = q
    · obtain ⟨r, hr⟩ := disableQueue_own h hn hp hsig happ
      rw [hq] at hr
      exact ⟨r, KeepsEW.foldl l _ _ (disableQueue_ew d.id.f self) _ _ _ hr⟩
    · exact ih (disableQueue_other h hn hq) ((List.mem_cons.mp hm).resolve_left hq)

end

/-- A block whose function a FUNCTION_DISABLE has begun to disable. -/
def disablingBlk (b : Blk) (c : Cmd) : Blk :=
  modCmd (modFn b (fFn c) fun n => { n with disabling := true }) c.id fun c => { c with effectDone := true }

/-- That block with the function's queues shut. -/
def queuesShut (b : Blk) (c : Cmd) : Blk :=
  (List.range (getFn b (fFn c)).nq).foldl (disableQueue (fFn c) c.id) (disablingBlk b c)

theorem disablingBlk_waits {b : Blk} {c d : Cmd} (h : WaitsOpen b d) (hf : d.id.f = fFn c) (hn : d.id ≠ c.id) : WaitsOpen (disablingBlk b c) d := by
  have hpage : getFn (disablingBlk b c) d.id.f = { getFn b d.id.f with disabling := true } := by
    rw [hf]
    exact getFn_modFn b (fFn c) (fun n => { n with disabling := true }) (enabled_ne (by exact hf ▸ h.enabled))
  refine ⟨?_, ?_, ?_⟩
  · rw [hpage]
    exact h.enabled
  · unfold getQ
    rw [hpage]
    exact h.isOpen
  · exact (findCmd_modCmd_other (fun c => { c with effectDone := true }) (fun _ => rfl) hn).trans h.found

section
variable {id : CmdId} {c : Cmd} {s : State} (ha : awake s.b = true)
include ha

theorem functionDisable_part (h : RunsNow s.b id 0x81 c) :
    (fFn c = 0 ∨ (getFn s.b (fFn c)).enabled = false → ∃ t, exec (.functionDisable id) s = .next t ∧ EndedWith t.b id 0x61 0) ∧
    (fFn c ≠ 0 → (getFn s.b (fFn c)).enabled = true → (getFn s.b (fFn c)).fenced = true →
      ∃ t, exec (.functionDisable id) s = .next t ∧ EndedWith t.b id 0x50 0) ∧
    (fFn c ≠ 0 → (getFn s.b (fFn c)).enabled = true → (getFn s.b (fFn c)).fenced = false → (getFn s.b (fFn c)).disabling = false →
      ∃ t, exec (.functionDisable id) s = .next t ∧
        ∀ d, findCmd s.b d.id = some d → d.id.f = fFn c → d.id.q < (getFn s.b (fFn c)).nq → (getQ s.b (fFn c) d.id.q).state = 1 → d.phase = .accepted →
          d.sigSent = false → d.applied = none → d.id ≠ id → ∃ r, EndedWith t.b d.id 0x10 r) := by
  have hrow := functionDisable_runs ha h
  obtain ⟨hf, hp, _, _⟩ := h
  obtain rfl := findCmd_id hf
  have hne : c.phase ≠ .ended := by simp [hp]
  refine ⟨fun h0 => ?none, fun h0 he hfen => ?fenced, fun h0 he hfen hdis => ⟨_, hrow, fun d hd hdf hq hst hph hsig happ hn => ?disables⟩⟩
  case none =>
    have hx : disableFx s.b c = endCmd s.b c.id 0x61 0 := if_pos (by simpa using h0)
    exact ⟨_, hrow, hx ▸ endCmd_endedWith 0x61 0 hf hne⟩
  case fenced =>
    have hx : disableFx s.b c = endCmd s.b c.id 0x50 0 := (if_neg (by simp [h0, he])).trans (if_pos hfen)
    exact ⟨_, hrow, hx ▸ endCmd_endedWith 0x50 0 hf hne⟩
  case disables =>
    have hx : disableFx s.b c = settle (loseFn ((streamsOf (queuesShut s.b c) (fFn c)).foldl (fun b n => freeFinish b (fFn c) n) (queuesShut s.b c)) (fFn c)) :=
      (if_neg (by simp [h0, he])).trans ((if_neg (by simp [hfen])).trans (if_neg (by simp [hdis])))
    have hwait := disablingBlk_waits ⟨hdf ▸ he, hdf ▸ hst, hd⟩ hdf hn
    obtain ⟨r, hr⟩ := foldl_disableQueue_ends hwait hn hph hsig happ (List.range (getFn s.b (fFn c)).nq) (List.mem_range.mpr hq)
    have hrest : KeepsEW (queuesShut s.b c) (disableFx s.b c) := by
      rw [hx]
      exact ((KeepsEW.foldl _ _ _ fun b n => freeFinish_ew b (fFn c) n).trans (loseFn_ew _ _)).trans (settle_keepsEnded _).ew
    rw [hdf] at hr
    exact ⟨r, hrest _ _ _ hr⟩

end

/-- Settles O38, each row by its part: `strike_part`, `queueShutdown_part`, `functionEnable_part`, `functionDisable_part`. -/
theorem queuesAreControlled : Obligations.QueuesAreControlled := by
  unfold Obligations.QueuesAreControlled
  exact fun id c s ha hs hw =>
    ⟨fun h => strike_part ha h, fun h => queueShutdown_part ha h, fun h => functionEnable_part ha hs hw h, fun h => functionDisable_part ha h⟩

end Sys2Proof.Machine
end

section
/-!
O59: cold resets, the load of firmware and block resets (R530 to R532, R650 to R652, R681, R682, R685, R686, R689, R747).
-/
namespace Sys2Proof.Machine

/-! ### Cold reset -/

theorem coldReset_part {s : State} (hp : s.b.part = State.reset.b.part) : ∃ t, exec .coldReset s = .next t ∧ t.mem = s.mem ∧ ¬ CtlOpen t ∧
    t.b.ctl = State.reset.b.ctl ∧ t.b.t = State.reset.b.t ∧ t.b.fns = [] ∧ t.b.cmds = [] ∧ t.b.pens = [] ∧ t.b.ports = State.reset.b.ports ∧
    t.b.fab = State.reset.b.fab ∧ t.b.beat = State.reset.b.beat ∧ t.b.pwr = State.reset.b.pwr ∧ t.b.tiles = State.reset.b.tiles ∧
    t.b.sectors = State.reset.b.sectors ∧ t.b.memp = State.reset.b.memp ∧ t.b.d2d = State.reset.b.d2d ∧ t.b.xlats = [] ∧
    t.b.life = { State.reset.b.life with inReset := true } ∧ t.b.sec = { State.reset.b.sec with svnFloor := s.b.sec.svnFloor } := by
  have hpart {α : Type} (field : Blk → α) : field (blk0 s.b.part s.b.sec.svnFloor) = field (blk0 State.reset.b.part s.b.sec.svnFloor) := by rw [hp]
  exact ⟨_, row_coldReset s, rfl, fun h => Bool.noConfusion h.2, rfl, rfl, rfl, rfl, rfl, rfl, rfl, rfl, rfl, hpart Blk.tiles, hpart Blk.sectors,
    rfl, rfl, rfl, rfl, rfl⟩

theorem rstDone_part {s : State} (hs : s.b.stores = []) (h : s.b.life.scanMode = false) :
    exec .rstDone s = .next { s with b := { s.b with life := { s.b.life with inReset := false } } } := by
  rw [row_rstDone]
  unfold actAlways
  dsimp only
  rw [if_neg (by simp [h]), commit_of_no_stores s _ (by exact hs)]

/-! ### Firmware -/

/-- An image that may be loaded: signed, and not below the floor (R650). -/
def FwOk (floor : Nat) (i : FwImage) : Prop := i.sigOk = true ∧ floor ≤ i.svn

theorem imageOk_some {floor : Nat} {i : FwImage} (h : FwOk floor i) : imageOk floor (some i) = some i := by
  unfold imageOk Option.filter
  simp [h.1, h.2]

theorem imageOk_none {floor : Nat} {o : Option FwImage} (h : ∀ x, o = some x → ¬ FwOk floor x) : imageOk floor o = none := by
  unfold imageOk
  rw [Option.filter_eq_none_iff]
  rintro x hx hb
  rw [Bool.and_eq_true, decide_eq_true_eq] at hb
  exact h x hx hb

/-- The slot whose image is loaded: the only acceptable one, or the one of the higher version, A where they are equal. -/
theorem chooseImage_some {fl : FlashImage} {floor slot : Nat} {i : FwImage} (hd : fl.directoryOk = true) (hr : fl.repairOk = true)
    (h : (slot = 0 ∧ fl.fwA = some i ∧ FwOk floor i ∧ ((∀ x, fl.fwB = some x → ¬ FwOk floor x) ∨ ∃ c, fl.fwB = some c ∧ FwOk floor c ∧ c.version ≤ i.version)) ∨
      (slot = 1 ∧ fl.fwB = some i ∧ FwOk floor i ∧ ((∀ x, fl.fwA = some x → ¬ FwOk floor x) ∨ ∃ a, fl.fwA = some a ∧ FwOk floor a ∧ a.version < i.version))) :
    chooseImage fl floor = some (slot, i) := by
  unfold chooseImage
  rw [if_neg (by simp [hd, hr])]
  obtain ⟨rfl, hA, hi, hB | ⟨c, hB, hc, hv⟩⟩ | ⟨rfl, hB, hi, hA | ⟨a, hA, ha, hv⟩⟩ := h
  · rw [hA, imageOk_some hi, imageOk_none hB]
  · rw [hA, hB, imageOk_some hi, imageOk_some hc]
    exact if_neg (by omega)
  · rw [hB, imageOk_some hi, imageOk_none hA]
  · rw [hA, hB, imageOk_some hi, imageOk_some ha]
    exact if_pos hv

theorem chooseImage_none {fl : FlashImage} {floor : Nat}
    (h : fl.directoryOk = false ∨ fl.repairOk = false ∨ ((∀ x, fl.fwA = some x → ¬ FwOk floor x) ∧ ∀ x, fl.fwB = some x → ¬ FwOk floor x)) :
    chooseImage fl floor = none := by
  unfold chooseImage
  obtain hd | hr | ⟨hA, hB⟩ := h
  · exact if_pos (by simp [hd])
  · exact if_pos (by simp [hr])
  · rw [imageOk_none hA, imageOk_none hB]
    split <;> rfl

/-- A block that loads firmware: none is loaded since the cold reset. -/
def LoadsFw (b : Blk) : Prop := b.life.fwVersion = 0 ∧ b.life.lastCold = true ∧ b.life.phase = .run

section
variable {s : State} (hs : s.b.stores = []) (ha : alive s.b = true) (fl : FlashImage)
include hs ha

omit ha in
theorem firmwareLoad_not (h : ¬ LoadsFw s.b) : exec (.firmwareLoad fl) s = .next s := by
  rw [row_firmwareLoad]
  refine actLive_nop _ hs (if_neg fun hb => h ?_)
  simpa [LoadsFw, and_assoc] using hb

omit hs in
theorem firmwareLoad_loads (h : LoadsFw s.b) : exec (.firmwareLoad fl) s = .next (commit s (firmwareFx s.b fl)) := by
  obtain ⟨h1, h2, h3⟩ := h
  rw [row_firmwareLoad, actLive_alive ha, if_pos (by simp [h1, h2, h3])]

theorem firmwareLoad_part (h : LoadsFw s.b) {slot : Nat} {i : FwImage} (hc : chooseImage fl s.b.sec.svnFloor = some (slot, i)) :
    ∃ t, exec (.firmwareLoad fl) s = .next t ∧ t.b.life = { s.b.life with fwVersion := i.version % 2 ^ 24 } ∧ t.b.sec.fwSlot = slot ∧
      t.b.sec.svnFloor = (if i.version % 2 ^ 24 = 0 then s.b.sec.svnFloor else max s.b.sec.svnFloor (i.svn % 64 - 3)) ∧
      (∀ k, k < 2 → k < s.b.cores.length → (t.b.cores.getD k core0).role = k + 1) ∧ (∀ d ∈ t.b.d2d, d.stateReq = fdiActive) ∧ t.mem = s.mem ∧
      t.b.fns = s.b.fns := by
  refine ⟨_, firmwareLoad_loads ha fl h, ?_⟩
  unfold firmwareFx
  dsimp only
  rw [hc]
  refine ⟨rfl, rfl, ?floor, fun k hk hl => ?role, fun d hd => ?d2d, congrArg (applyStores s.mem) hs, rfl⟩
  case floor => simp
  case role => simp [List.getD_eq_getElem?_getD, hl, show k ≤ 1 by omega]
  case d2d =>
    obtain ⟨x, _, rfl⟩ := List.mem_map.mp hd
    rfl

omit hs in
theorem firmwareLoad_lost (h : LoadsFw s.b) (hc : chooseImage fl s.b.sec.svnFloor = none) :
    ∃ t, exec (.firmwareLoad fl) s = .next t ∧ t.b.life.fatal = 4 ∧ t.b.life.fwVersion = 0 := by
  refine ⟨_, firmwareLoad_loads ha fl h, ?_⟩
  obtain ⟨_, hf⟩ := alive_iff.mp ha
  unfold firmwareFx
  dsimp only
  rw [hc]
  unfold setFatal
  dsimp only
  rw [if_neg (by simp [hf])]
  exact ⟨by rw [commit_b_life, hf]; rfl, h.1⟩

end

/-! ### QUIESCE -/

/-- A page marked UNQUIESCED is not at its reset values, so the mark stays through marking others. -/
theorem foldl_unquiesced (l : List Nat) (b : Blk) (f : Nat) (h : f ∈ l ∨ (getFn b f).unquiesced = true) :
    (getFn (l.foldl (fun b f => modFn b f fun n => { n with unquiesced := true }) b) f).unquiesced = true := by
  induction l generalizing b with
  | nil => simpa using h
  | cons k l ih =>
    rw [List.foldl_cons]
    have hne (n : Fn) : ({ n with unquiesced := true } : Fn) ≠ fn0 := fun e => by simpa [fn0] using congrArg Fn.unquiesced e
    refine ih _ ?_
    by_cases hk : f = k
    · rw [hk, getFn_modFn b k _ (hne _)]
      exact .inr rfl
    · rw [getFn_modFn_other b k f _ hk]
      exact h.imp_left fun hm => (List.mem_cons.mp hm).resolve_left hk

section
variable {s : State} (hs : s.b.stores = []) (ha : alive s.b = true) (stuck : List Nat)
include hs ha

theorem quiesce_part (h : s.b.life.phase = .quiesce) (us : List Nat)
    (hus : us = ((stuck ++ writesOf s.b).eraseDups).filter fun f => (getFn s.b f).enabled) :
    ∃ t, exec (.quiesce stuck) s = .next t ∧ t.b.life = { s.b.life with phase := .firmware, unquiesced := us.length } ∧ t.mem = s.mem ∧
      (∀ f ∈ us, (getFn t.b f).unquiesced = true) ∧ (∀ q ∈ t.b.memp, q.rdWait = [] ∧ q.wrWait = [] ∧ q.xlWait = []) ∧
      t = { s with b := { s.b with fns := t.b.fns, life := t.b.life, memp := t.b.memp } } := by
  have hmark := foldl_unquiesced us { s.b with fns := tmap fn0 (fun _ (n : Fn) => { n with unquiesced := false }) s.b.fns }
  obtain ⟨fns, hf⟩ := foldl_modFn_only us (fun f => f) (fun n => { n with unquiesced := true })
    { s.b with fns := tmap fn0 (fun _ (n : Fn) => { n with unquiesced := false }) s.b.fns }
  rw [hf] at hmark
  have hx : quiesceFx s.b stuck =
      { s.b with fns := fns, life := { s.b.life with phase := .firmware, unquiesced := us.length }, memp := s.b.memp.map forgetUses } := by
    unfold quiesceFx
    rw [if_neg (by simp [h])]
    dsimp only
    rw [← hus, hf]
  refine ⟨_, (row_quiesce stuck s).trans (actLive_yields ha hx hs), rfl, rfl, fun f hm => hmark f (.inl hm), fun q hq => ?_, rfl⟩
  obtain ⟨p, _, rfl⟩ := List.mem_map.mp hq
  exact ⟨rfl, rfl, rfl⟩

omit ha in
theorem quiesce_not (h : s.b.life.phase ≠ .quiesce) : exec (.quiesce stuck) s = .next s := by
  rw [row_quiesce]
  exact actLive_nop _ hs (if_pos (by simp [h]))

end

/-! ### Replay without commands or streams -/

/-- What replay keeps of a block without commands and streams. -/
structure Replays (b x : Blk) : Prop where
  cmds : x.cmds = []
  stream : x.t.stream = []
  life : x.life = b.life
  pens : x.pens = b.pens
  haly : x.t.haly = b.t.haly
  dir : x.t.dir = b.t.dir
  route : x.t.route = b.t.route
  mcast : x.t.mcast = b.t.mcast
  sec : x.sec = b.sec
  beat : x.beat = b.beat

section
variable {b x : Blk} (h : Replays b x)
include h

/-- Pages, ports, the fabric and group entries do not matter to it. -/
theorem Replays.other (fns : Tab Fn) (memp : List MemP) (stores : List (Nat × List Byte)) (fab : Fabric) (ports : List Port) (group : Tab Group) (roster : Tab Nat) :
    Replays b { x with fns := fns, memp := memp, stores := stores, fab := fab, ports := ports, t := { x.t with group := group, roster := roster } } :=
  ⟨h.cmds, h.stream, h.life, h.pens, h.haly, h.dir, h.route, h.mcast, h.sec, h.beat⟩

theorem Replays.modPage (f : Nat) (g : Fn → Fn) : Replays b (modFn x f g) := h.other _ x.memp x.stores x.fab x.ports x.t.group x.t.roster

theorem Replays.foldl {α : Type} (l : List α) (g : Blk → α → Blk) (hg : ∀ x y, Replays b x → Replays b (g x y)) : Replays b (l.foldl g x) :=
  foldl_keeps (Replays b) l g x h fun y a hy => hg y a hy

theorem Replays.event (f code q info a0 a1 : Nat) : Replays b (event x f code q info a0 a1) := by
  rw [event_eq]
  exact h.other _ _ _ x.fab x.ports x.t.group x.t.roster

theorem Replays.fnStore (f sp va : Nat) (bs : List Byte) : Replays b (fnStore x f sp va bs) := by
  rw [fnStore_eq]
  exact h.other x.fns x.memp _ x.fab x.ports x.t.group x.t.roster

theorem Replays.writeAnchor (f : Nat) : Replays b (writeAnchor x f) := by
  obtain ⟨fns, stores, e⟩ := writeAnchor_only x f
  rw [e]
  exact h.other fns x.memp stores x.fab x.ports x.t.group x.t.roster

theorem Replays.withFab (fab : Fabric) : Replays b { x with fab := fab } := h.other x.fns x.memp x.stores fab x.ports x.t.group x.t.roster

theorem Replays.abandon (gid gen : Nat) (cs : Option Nat) : Replays b (abandon x gid gen cs) := by
  rw [abandon_eq]
  exact h.other _ _ _ _ x.ports x.t.group x.t.roster

/-- A generation that breaks has no command to end and no stream to fail. -/
theorem Replays.applyBreak (k cause : Nat) (ranks : List Nat) (stamp : Nat) : Replays b (applyBreak x k cause ranks stamp) := by
  have hend (y : Blk) (hy : Replays b y) (gid gen st : Nat) : endGenCmds y gid gen st = y := by
    unfold endGenCmds genCmds
    rw [hy.cmds]
    rfl
  have herr (y : Blk) (hy : Replays b y) (gid gen st : Nat) : groupStreamsError y gid gen st = y := by
    unfold groupStreamsError
    rw [hy.stream]
    rfl
  obtain ⟨ros, hr⟩ := markRanks_only x (tget group0 x.t.group k) cause ranks
  unfold Machine.applyBreak
  dsimp only
  rw [hr]
  split
  · exact h
  · split
    · exact h.other x.fns x.memp x.stores x.fab x.ports _ ros
    · generalize hy : modGroup (modGroup _ k _) k _ = y
      have hyr : Replays b y := hy ▸ h.other x.fns x.memp x.stores x.fab x.ports _ ros
      rw [hend y hyr, herr y hyr]
      exact (hyr.abandon _ _ none).withFab _ |>.foldl _ _ fun z f hz => hz.event f _ _ _ _ _

theorem Replays.detectBreak (k cause : Nat) (ranks : List Nat) : Replays b (detectBreak x k cause ranks) := by
  unfold Machine.detectBreak
  dsimp only
  split
  · exact h
  · obtain ⟨fab, ports, e⟩ := breakNotices_only x (tget group0 x.t.group k) cause ranks (beatNow x)
    rw [e]
    exact (h.other x.fns x.memp x.stores fab ports x.t.group x.t.roster).applyBreak ..

theorem Replays.fenceFn (f cause : Nat) : Replays b (fenceFn x f cause) := by
  unfold Machine.fenceFn
  dsimp only
  split
  · exact h
  · exact ((h.modPage f _).foldl _ _ fun y e hy => hy.detectBreak ..).event ..

theorem Replays.rewriteComplete (f : Nat) (bs : List Byte) : Replays b (rewriteComplete x f bs) := by
  unfold Machine.rewriteComplete
  dsimp only
  split
  · exact h.fnStore ..
  · exact h

theorem Replays.replayQueue (f q : Nat) (gone : List Cmd) : Replays b (replayQueue x f q gone) := by
  unfold Machine.replayQueue
  dsimp only
  split
  · exact (h.modPage ..).modPage ..
  · exact h.modPage ..

theorem Replays.streamsOf (f : Nat) : streamsOf x f = [] := by
  unfold Machine.streamsOf getStr
  rw [h.stream]
  exact List.filter_eq_nil_iff.mpr fun _ _ => by simp [stream0]

/-- Replay of a function without commands: its logbook's end, its completion records, its queues. -/
theorem Replays.replayFn (m : Tab Byte) (f : Nat) : Replays b (replayFn m [] x f) := by
  have hcmds (y : Blk) (hy : Replays b y) : Replays b { y with cmds := y.cmds ++ [] } :=
    ⟨(List.append_nil _).trans hy.cmds, hy.stream, hy.life, hy.pens, hy.haly, hy.dir, hy.route, hy.mcast, hy.sec, hy.beat⟩
  unfold Machine.replayFn
  dsimp only [List.filter_nil]
  split
  · exact (hcmds x h).fenceFn ..
  · rename_i tail _
    generalize walkLog x m f (logLines (getFn x f)) tail = w
    obtain ⟨recs, e⟩ := w
    have h1 : Replays b (recs.foldl (fun b r => Machine.rewriteComplete b f r) (modFn x f fun n => { n with head := e, tailAnchor := tail })) :=
      (h.modPage f _).foldl _ _ fun y r hy => hy.rewriteComplete f r
    dsimp only
    generalize recs.foldl _ _ = y at h1 ⊢
    have h2 := hcmds y h1
    rw [List.mergeSort_nil, List.foldl_nil, h2.streamsOf f]
    exact h2.foldl _ _ fun y q hy => hy.replayQueue ..

/-! ### What settles without commands -/

theorem Replays.settleQueue (f q : Nat) : Replays b (settleQueue x f q) := by
  unfold Machine.settleQueue
  split
  · dsimp only
    have hm := h.modPage f fun n => { n with queues := tmod queue0 n.queues q fun y => { y with state := 3 } }
    rw [show (modQ x f q fun y => { y with state := 3 }).cmds = [] from hm.cmds]
    exact hm
  · exact h

theorem Replays.closeFn (f : Nat) : Replays b (closeFn x f) := by
  unfold Machine.closeFn
  dsimp only
  have hm := (h.writeAnchor f).modPage f fun n => { fn0 with epoch := n.epoch, enableHeld := n.enableHeld }
  rw [hm.cmds]
  exact hm

theorem Replays.settleFn (f : Nat) : Replays b (settleFn x f) := by
  unfold Machine.settleFn
  extract_lets n y n' z n''
  have hy : Replays b y := h.foldl _ _ fun w q hw => hw.settleQueue f q
  have hz : Replays b z := by
    simp only [z]
    split
    · exact hy.closeFn f
    · exact hy
  clear_value n'' z
  have hnone (id : CmdId) : findCmd z id = none := by
    unfold findCmd
    rw [hz.cmds]
    rfl
  split
  · split
    · exact hz
    · rw [hnone]
      exact hz.modPage ..
  · exact hz

theorem Replays.settle : Replays b (settle x) := by
  unfold Machine.settle
  exact h.foldl _ _ fun y f hy => hy.settleFn f

theorem Replays.breakRemote : Replays b (breakRemote x) := by
  unfold Machine.breakRemote
  refine h.foldl _ _ fun y e hy => ?_
  split
  · exact hy.applyBreak ..
  · exact hy

end

/-! ### FIRMWARE_RESTART -/

/-- A memory port keeps its state and its halt while requests that wait go out. -/
theorem startMem_halt (p : MemP) : (startMem p).state = p.state ∧ (startMem p).halt = p.halt := by
  have hr : (startReads p).state = p.state ∧ (startReads p).halt = p.halt :=
    foldl_keeps (fun x : MemP => x.state = p.state ∧ x.halt = p.halt) _ _ _ ⟨rfl, rfl⟩ fun x r hx => by split <;> exact hx
  have hw : (startWrites (startReads p)).state = p.state ∧ (startWrites (startReads p)).halt = p.halt :=
    foldl_keeps (fun x : MemP => x.state = p.state ∧ x.halt = p.halt) _ _ _ hr fun x r hx => by split <;> exact hx
  exact foldl_keeps (fun x : MemP => x.state = p.state ∧ x.halt = p.halt) _ _ _ hw fun x r hx => by split <;> exact hx

theorem relock_run (x : Beat) (v : Bool) : (relock x v).run = x.run ∧ (relock x v).count = x.count := by
  unfold relock
  split <;> exact ⟨rfl, rfl⟩

/-- A block that runs again, but for its lock. -/
def restartedBlk (b : Blk) (us : Nat) : Blk :=
  { b with
    life := { b.life with phase := .run, replayUs := min us 0xFFFFFFFF }
    memp := b.memp.map fun (p : MemP) => if p.state == 2 then p else startMem { p with halt := false, halted := false, state := if p.state == 3 then 1 else p.state }
    d2d := b.d2d.map fun (d : D2d) => { d with state := if d.state == 3 then 1 else d.state }
    cores := b.cores.map fun (c : CoreSt) => { c with restarting := false }
    sec := { b.sec with hostSessions := 0 }
    beat := { b.beat with run := b.life.runWas } }

theorem runAgain_only (b : Blk) (us : Nat) : ∃ beat shadow, runAgain b us = { restartedBlk b us with beat := beat, shadow := shadow } ∧
    beat.run = b.life.runWas ∧ beat.count = b.beat.count := by
  have hx : runAgain b us = if (restartedBlk b us).beat.run && (restartedBlk b us).beat.live && isMaster (restartedBlk b us).beat
      then setLock { restartedBlk b us with beat := { (restartedBlk b us).beat with dist := 0 } } true else restartedBlk b us := rfl
  rw [hx]
  split
  · obtain ⟨shadow, hl⟩ := setLock_only { restartedBlk b us with beat := { (restartedBlk b us).beat with dist := 0 } } true
    rw [hl]
    obtain ⟨h1, h2⟩ := relock_run { (restartedBlk b us).beat with dist := 0 } true
    exact ⟨_, shadow, rfl, h1, h2⟩
  · exact ⟨_, _, rfl, rfl, rfl⟩

/-- Every port that is not fenced goes on. -/
theorem restartedBlk_memp (b : Blk) (us : Nat) : ∀ q ∈ (restartedBlk b us).memp, q.state ≠ 2 → q.halt = false := by
  intro q hq hst
  obtain ⟨p, _, rfl⟩ := List.mem_map.mp hq
  by_cases h2 : p.state == 2
  · rw [if_pos h2] at hst
    exact absurd (by simpa using h2) hst
  · rw [if_neg h2, (startMem_halt _).2]

/-- The block whose state in flight is cleared, as replay begins. -/
theorem clearFlight_replays {b : Blk} (h : b.t.stream = []) : Replays { clearFlight b with cmds := [] } { clearFlight b with cmds := [] } :=
  ⟨rfl, h, rfl, rfl, rfl, rfl, rfl, rfl, rfl, rfl⟩

/-- A restart without commands and streams clears what is in flight, replays, and runs again. -/
theorem restartFx_runs {b : Blk} (m : Tab Byte) (us : Nat) (hp : b.life.phase = .firmware) (hc : b.cmds = []) (hst : b.t.stream = []) :
    ∃ x, restartFx b m us = runAgain x us ∧ Replays { clearFlight b with cmds := [] } x := by
  unfold restartFx
  rw [if_neg (by simp [hp]), hc]
  dsimp only [List.foldl_nil]
  rw [hc]
  have hbreak := (clearFlight_replays hst).breakRemote
  generalize breakRemote { clearFlight b with cmds := [] } = y at hbreak ⊢
  have hsettle := (hbreak.foldl ((y.fns.filter fun e => e.2.enabled).map fun e => e.1) (replayFn m []) fun y f hy => hy.replayFn m f).settle
  exact ⟨_, rfl, hsettle.withFab _⟩

section
variable {s : State} (hs : s.b.stores = []) (ha : alive s.b = true) (us : Nat)

include hs in
theorem firmwareRestart_not (h : s.b.life.phase ≠ .firmware) : exec (.firmwareRestart us) s = .next s := by
  rw [row_firmwareRestart]
  exact actLive_nop _ hs (if_pos (by simp [h]))

include ha in
theorem firmwareRestart_part (hp : s.b.life.phase = .firmware) (hc : s.b.cmds = []) (hst : s.b.t.stream = []) :
    ∃ t, exec (.firmwareRestart us) s = .next t ∧ t.b.life = { s.b.life with phase := .run, replayUs := min us 0xFFFFFFFF } ∧ t.b.pens = s.b.pens ∧
      t.b.cmds = [] ∧ t.b.t.haly = [] ∧ t.b.t.dir = s.b.t.dir ∧ t.b.t.route = s.b.t.route ∧ t.b.t.mcast = s.b.t.mcast ∧
      t.b.sec = { s.b.sec with hostSessions := 0, gks := t.b.sec.gks } ∧ t.b.beat.run = s.b.life.runWas ∧ t.b.beat.count = s.b.beat.count ∧
      (∀ q ∈ t.b.memp, q.state ≠ 2 → q.halt = false) ∧ ∀ c ∈ t.b.cores, c.restarting = false := by
  obtain ⟨x, hx, h⟩ := restartFx_runs s.mem us hp hc hst
  obtain ⟨beat, shadow, hr, hrun, hcount⟩ := runAgain_only x us
  refine ⟨_, (row_firmwareRestart us s).trans (actLive_alive ha _), ?_⟩
  rw [hx, hr]
  refine ⟨?life, h.pens, h.cmds, h.haly, h.dir, h.route, h.mcast, ?sec, ?run, ?count, restartedBlk_memp x us, ?cores⟩
  case life => exact congrArg (fun l : Life => { l with phase := .run, replayUs := min us 0xFFFFFFFF }) h.life
  case sec =>
    have hsec : x.sec = s.b.sec := h.sec
    show ({ x.sec with hostSessions := 0 } : Sec) = { s.b.sec with hostSessions := 0, gks := x.sec.gks }
    rw [hsec]
  case run => exact hrun.trans (congrArg Life.runWas h.life)
  case count => exact hcount.trans (congrArg Beat.count h.beat)
  case cores =>
    intro c hm
    obtain ⟨d, _, rfl⟩ := List.mem_map.mp hm
    rfl

end

/-- Settles O59, each row by its part: `coldReset_part`, `rstDone_part`, `firmwareLoad_part`, `quiesce_part`, `firmwareRestart_part`. -/
theorem resetsRun : Obligations.ResetsRun := by
  unfold Obligations.ResetsRun
  intro s hs
  refine ⟨coldReset_part, rstDone_part hs, fun ha fl => ⟨firmwareLoad_not hs fl, fun hl hd hr i slot h => ?image, fun hl h => ?lost⟩,
    fun ha stuck => ⟨quiesce_not hs stuck, fun h => quiesce_part hs ha stuck h _ rfl⟩,
    fun ha us => ⟨firmwareRestart_not hs us, fun hp hc hst => firmwareRestart_part ha us hp hc hst⟩⟩
  case image => exact firmwareLoad_part hs ha fl hl (chooseImage_some hd hr h)
  case lost => exact firmwareLoad_lost ha fl hl (chooseImage_none h)

end Sys2Proof.Machine
end

section
/-!
O40: TABLE_READ, FN_ROTATE, ATTEST, SELFTEST and opcodes that R552 does not list (R580, R582, R646, R781 to R786, R553).
-/
namespace Sys2Proof.Machine

/-! ### A command that ends without a mark on memory, or with one write -/

section
variable {s : State} {id : CmdId} {c : Cmd} (hf : findCmd s.b id = some c) (hp : c.phase ≠ .ended) {i : Instr} {b : Blk} (hs : b.stores = []) {st r : Nat}
include hf hp hs

/-- A command that ends over a block with its commands as they were and no store leaves memory as it was. -/
theorem ends_unwritten (hb : b.cmds = s.b.cmds) (h : exec i s = .next (commit s (endCmd b id st r))) :
    ∃ t, exec i s = .next t ∧ EndedWith t.b id st r ∧ t.mem = s.mem := by
  refine ⟨_, h, EndedWith.of_cmds (endCmd_endedWith st r ((findCmd_congr id hb).trans hf) hp) rfl, ?_⟩
  rw [commit_mem, endCmd_stores, hs]
  rfl

/-- A command that ends as it writes: its bytes stand in memory, and the block differs from the one it wrote over in commands only. -/
theorem ends_written (hw : c.waitOn = none) {f a : Nat} {bs : List Byte} (hb : b.cmds = s.b.cmds)
    (h : exec i s = .next (commit s (endCmd (fnStore b f 0 a bs) id st r))) :
    ∃ t, exec i s = .next t ∧ EndedWith t.b id st r ∧ t.mem = applyStores s.mem (fnStore b f 0 a bs).stores ∧ t.b = { b with cmds := t.b.cmds } := by
  obtain ⟨w, hx⟩ := fnStore_only b f 0 a bs
  have hfind : findCmd { b with stores := w } id = some c := (findCmd_congr id hb).trans hf
  rw [hx, endCmd_ended st r hfind hp hw] at h
  refine ⟨_, h, ⟨_, findCmd_modCmd_same _ (fun _ => rfl) hfind, rfl, rfl, rfl⟩, by rw [hx]; rfl, ?_⟩
  show ({ modCmd { b with stores := w } id _ with stores := [] } : Blk) = _
  rw [← hs]
  rfl

end

/-! ### TABLE_READ -/

/-- The entries that TABLE_READ asks for, as the beat's start left them (R580). -/
def entriesRead (b : Blk) (c : Cmd) : List Byte := (List.range (pf c 4 4)).flatMap fun i => tableEntry b (pf c 0 1) (pf c 8 8 + i)

theorem tableReadFx_unknown (b : Blk) {c : Cmd} (h : tableShape (pf c 0 1) = none) : tableReadFx b c none = endCmd b c.id 0x61 0 := by
  unfold tableReadFx
  dsimp only
  rw [h]

section
variable (b : Blk) {c : Cmd} {m k : Nat} (hk : tableShape (pf c 0 1) = some (m, k))
include hk

theorem tableReadFx_outside (h : pf c 4 4 = 0 ∨ 65536 < pf c 4 4 ∨ k < pf c 8 8 + pf c 4 4) : tableReadFx b c none = endCmd b c.id 0x61 0 := by
  unfold tableReadFx
  dsimp only
  rw [hk]
  exact if_pos (by simpa [or_assoc] using h)

theorem tableReadFx_reads (h0 : pf c 4 4 ≠ 0) (h1 : pf c 4 4 ≤ 65536) (h2 : pf c 8 8 + pf c 4 4 ≤ k) :
    tableReadFx b c none =
      endCmd (fnStore b c.id.f 0 (pf c 16 8) (padTo (upTo (entriesRead b c).length 64) (entriesRead b c))) c.id 0 (pf c 4 4) := by
  unfold tableReadFx
  dsimp only
  rw [hk]
  exact if_neg (by simp [h0]; omega)

end

/-! ### ATTEST -/

/-- The sizes of ATTEST's request and of the room for its answer that R582 allows. -/
def AttestFits (c : Cmd) : Prop := 4 ≤ pf c 16 4 ∧ pf c 16 4 ≤ 65536 ∧ 64 ≤ pf c 20 4 ∧ pf c 20 4 ≤ 65536

/-- The request that ATTEST hands to the responder. -/
def attestRequest (b : Blk) (m : Tab Byte) (c : Cmd) : List Byte := fnRead b m c.id.f 0 (pf c 0 8) (pf c 16 4)

/-- The responder's answer to it. -/
def attestAnswer (b : Blk) (m : Tab Byte) (c : Cmd) : List Byte := Config.spdmResponse (attestRequest b m c) b.fresh

/-- The block once the responder has answered: a free value is drawn and the sessions follow the request. -/
def attested (b : Blk) (m : Tab Byte) (c : Cmd) : Blk :=
  { b with fresh := b.fresh + 1, sec := { b.sec with hostSessions := Config.spdmSessions (attestRequest b m c) b.sec.hostSessions } }

theorem attestFx_rejects (b : Blk) (m : Tab Byte) {c : Cmd} (h : ¬ AttestFits c) : attestFx b m c none = endCmd b c.id 0x61 0 :=
  if_pos (by simp only [AttestFits] at h; simp only [Bool.or_eq_true, decide_eq_true_eq]; omega)

section
variable {b : Blk} {m : Tab Byte} {c : Cmd} (h : AttestFits c)
include h

theorem attestFx_runs : attestFx b m c none =
    if pf c 20 4 < (attestAnswer b m c).length then endCmd (attested b m c) c.id 0x60 (attestAnswer b m c).length
    else endCmd (fnStore (attested b m c) c.id.f 0 (pf c 8 8) (attestAnswer b m c)) c.id 0 (attestAnswer b m c).length :=
  if_neg (by simp only [AttestFits] at h; simp only [Bool.or_eq_true, decide_eq_true_eq]; omega)

theorem attestFx_overflows (hl : pf c 20 4 < (attestAnswer b m c).length) :
    attestFx b m c none = endCmd (attested b m c) c.id 0x60 (attestAnswer b m c).length :=
  (attestFx_runs h).trans (if_pos hl)

theorem attestFx_answers (hl : (attestAnswer b m c).length ≤ pf c 20 4) :
    attestFx b m c none = endCmd (fnStore (attested b m c) c.id.f 0 (pf c 8 8) (attestAnswer b m c)) c.id 0 (attestAnswer b m c).length :=
  (attestFx_runs h).trans (if_neg (Nat.not_lt.mpr hl))

end

/-- What the responder changes moves no store. -/
theorem attested_fnStore (b : Blk) (m : Tab Byte) (c : Cmd) (f a : Nat) (bs : List Byte) :
    (fnStore (attested b m c) f 0 a bs).stores = (fnStore b f 0 a bs).stores := by
  rw [fnStore_adds, fnStore_adds, fnStores_congr (b := b) (b' := attested b m c) f 0 a bs rfl rfl]
  rfl

/-! ### SELFTEST -/

/-- What units that have all passed come to: their records, and no fence, restoration or repair. -/
def passedSum (recs : List (List Byte)) : TestSum :=
  { fenced := 0, restored := 0, repaired := 0, failed := false, unreplaced := false, recs := recs }

/-- A unit that passes and is neither returned to service nor a port that retrains (R783, R784). -/
def PassesInPlace (b : Blk) (sector : Nat) (u : UnitTest) : Prop :=
  u.result = 0 ∧ restoreUnit b sector u = none ∧ (u.kind = 2 → (getP b u.index).state ≠ 2)

theorem testUnit_passes {b : Blk} {sector : Nat} {u : UnitTest} (recs : List (List Byte)) (h : PassesInPlace b sector u) :
    testUnit sector (b, passedSum recs) u = (b, passedSum (recs ++ [testRecord u 0])) := by
  obtain ⟨hr, hn, hup⟩ := h
  have hstays : (u.kind == 2 && (getP b u.index).state == 2) = false := by simpa using hup
  unfold testUnit
  simp [hr, hn, hstays, passedSum, b2n]

/-- Units that all pass leave the block as it was. -/
theorem foldl_testUnit_passes {b : Blk} {sector : Nat} (us : List UnitTest) (h : ∀ u ∈ us, PassesInPlace b sector u) (recs : List (List Byte)) :
    us.foldl (testUnit sector) (b, passedSum recs) = (b, passedSum (recs ++ us.map (testRecord · 0))) := by
  induction us generalizing recs with
  | nil => simp
  | cons u us ih =>
    rw [List.foldl_cons, testUnit_passes recs (h u List.mem_cons_self), ih fun v hv => h v (List.mem_cons_of_mem u hv)]
    simp

/-- The sector whose spare a SELFTEST of a command may return to service. -/
def testSector (c : Cmd) : Nat := if testScope c = 0 then testIndex c / 16 else testIndex c

/-- The time that a SELFTEST's units take together. -/
def testTime (us : List UnitTest) : Nat := ((us.map (·.us)).foldl (· + ·) 0) % 2 ^ 32

theorem blockTestFx_rejects {b : Blk} {c : Cmd} (tests : List UnitTest) (h : testBad b c = true) : blockTestFx b c tests none = endCmd b c.id 0x61 0 :=
  if_pos h

theorem blockTestFx_passes {b : Blk} {c : Cmd} {tests : List UnitTest} (hb : testBad b c = false) (hset : testSet c = 0 ∨ b.test.flashRel = false)
    (h : ∀ u ∈ tests.filter (inScope b c), PassesInPlace b (testSector c) u) :
    blockTestFx b c tests none =
      endCmd (fnStore b c.id.f 0 (pf c 8 8) (testReport b c (testTime (tests.filter (inScope b c)))
        (passedSum ((tests.filter (inScope b c)).map (testRecord · 0))))) c.id 0 1 := by
  have hfold := foldl_testUnit_passes _ h []
  unfold passedSum at hfold
  have hsector : (if (testScope c == 0) = true then testIndex c / 16 else testIndex c) = testSector c := by simp [testSector]
  unfold blockTestFx
  rw [if_neg (by simp [hb]), if_neg (by simpa [or_iff_not_imp_left] using hset)]
  simp only [hsector, hfold]
  rfl

/-! ### Opcodes that are not listed -/

theorem opOf_lt (c : Cmd) : opOf c < 256 := Nat.mod_lt _ (by decide)

/-- A row that acts at acceptance, whatever the opcode. -/
theorem cmdIn_acceptedAny {b : Blk} {id : CmdId} {c : Cmd} (h : AcceptedNow b id (opOf c) c) (hr : b.life.phase = .run) :
    cmdIn b id .accepted (List.range 256) = some c := by
  obtain ⟨hc, hp, -, hl⟩ := h
  unfold cmdIn
  rw [hc]
  simp [Option.filter, hp, hl, hr, opOf_lt c]

/-! ### The rows -/

section
variable {id : CmdId} {c : Cmd} {s : State} (ha : awake s.b = true)
include ha

theorem tableRead_runs (h : RunsNow s.b id 0x8A c) : exec (.tableRead id none) s = .next (commit s (tableReadFx s.b c none)) := by
  rw [row_tableRead, act_awake ha, onRun_runs h (awake_run ha)]

theorem attest_runs (h : RunsNow s.b id 0x8D c) : exec (.attest id none) s = .next (commit s (attestFx s.b s.mem c none)) := by
  rw [row_attest, act_awake ha, onRun_runs h (awake_run ha)]

theorem selftest_runs (tests : List UnitTest) (h : RunsNow s.b id 0x8E c) :
    exec (.selftest id tests none) s = .next (commit s (blockTestFx s.b c tests none)) := by
  rw [row_selftest, act_awake ha, onRun_runs h (awake_run ha)]

theorem unlistedOpcode_accepted (h : AcceptedNow s.b id (opOf c) c) (hu : isUnlisted c = true) :
    exec (.unlistedOpcode id) s = .next (commit s (endCmd s.b id 0x61 0)) := by
  rw [row_unlistedOpcode, act_awake ha, cmdIn_acceptedAny h (awake_run ha)]
  dsimp only
  rw [if_pos hu]

end

/-! ### FN_ROTATE -/

/-- The function that FN_ROTATE names. -/
def rotatedFn (c : Cmd) : Nat := fld (pf c 2 2) 8 0

/-- A function in its next key epoch (R646). -/
def nextEpoch (n : Fn) : Fn := { n with keyEpoch := (n.keyEpoch + 1) % 2 ^ 32 }

/-- A function keeps units that were spilled under an older key. -/
def spillsOld (n : Fn) : Bool := n.spill.any fun u => u.epoch != n.keyEpoch

theorem fnRotate_runs {id : CmdId} {c : Cmd} {s : State} (ha : awake s.b = true) (h : RunsNow s.b id 0x8C c) (h0 : pf c 0 1 = 0) :
    exec (.fnRotate id) s = .next (commit s (
      if (getFn s.b (rotatedFn c)).enabled = false then endCmd s.b id 0x61 0
      else if spillsOld (getFn s.b (rotatedFn c)) = true then s.b
      else endCmd (modFn s.b (rotatedFn c) nextEpoch) id 0 (nextEpoch (getFn s.b (rotatedFn c))).keyEpoch)) := by
  rw [row_fnRotate, act_awake ha, onRun_runs h (awake_run ha)]
  dsimp only
  rw [if_neg (by simp [h0])]
  simp only [Bool.not_eq_true']
  rfl

theorem fnRotate_part {id : CmdId} {c : Cmd} {s : State} (ha : awake s.b = true) (hs : s.b.stores = []) (hw : c.waitOn = none)
    (h : RunsNow s.b id 0x8C c) (h0 : pf c 0 1 = 0) :
    let n := getFn s.b (rotatedFn c)
    (n.enabled = false → ∃ t, exec (.fnRotate id) s = .next t ∧ EndedWith t.b id 0x61 0 ∧ t.mem = s.mem) ∧
    (n.enabled = true → spillsOld n = true → exec (.fnRotate id) s = .next s) ∧
    (n.enabled = true → spillsOld n = false → ∃ t, exec (.fnRotate id) s = .next t ∧ EndedWith t.b id 0 (nextEpoch n).keyEpoch ∧
      getFn t.b (rotatedFn c) = nextEpoch n ∧ t = { s with b := { s.b with fns := t.b.fns, cmds := t.b.cmds } }) := by
  intro n
  have hrow := fnRotate_runs ha h h0
  obtain ⟨hf, hp⟩ := runs_find h
  refine ⟨fun he => ?disabled, fun he ho => ?waits, fun he ho => ?rotates⟩
  case disabled =>
    rw [if_pos he] at hrow
    exact ends_unwritten hf hp hs rfl hrow
  case waits =>
    rw [if_neg (by simp [n, he]), if_pos ho] at hrow
    exact hrow.trans (commit_id s hs)
  case rotates =>
    have hfind : findCmd (modFn s.b (rotatedFn c) nextEpoch) id = some c := hf
    rw [if_neg (by simp [n, he]), if_neg (by simp [n, ho]), endCmd_ended 0 _ hfind hp hw, commit_of_no_stores s _ (by exact hs)] at hrow
    exact ⟨_, hrow, ⟨_, findCmd_modCmd_same _ (fun _ => rfl) hfind, rfl, rfl, rfl⟩, getFn_modFn _ _ _ (enabled_ne he), rfl⟩

/-- Settles O40: each row runs its command's effect (`tableRead_runs`, `fnRotate_part`, `attest_runs`, `selftest_runs`, `unlistedOpcode_accepted`), and a
command ends with memory as it was (`ends_unwritten`) or with one write (`ends_written`). -/
theorem managementAnswers : Obligations.ManagementAnswers := by
  unfold Obligations.ManagementAnswers
  intro id c s ha hs hw writes ends
  refine ⟨fun hr => ?tables, fun hr h0 => fnRotate_part ha hs hw hr h0, fun hr => ?attest, fun tests hr => ?selftest, fun h hu => ?unlisted⟩
  case tables =>
    have run := tableRead_runs ha hr
    obtain ⟨hf, hp⟩ := runs_find hr
    obtain rfl := runs_id hr
    exact ⟨fun hk => ends_unwritten hf hp hs rfl (tableReadFx_unknown s.b hk ▸ run), fun m k hk =>
      ⟨fun h => ends_unwritten hf hp hs rfl (tableReadFx_outside s.b hk h ▸ run),
        fun h0 h1 h2 => ends_written hf hp hs hw rfl (tableReadFx_reads s.b hk h0 h1 h2 ▸ run)⟩⟩
  case attest =>
    have run := attest_runs ha hr
    obtain ⟨hf, hp⟩ := runs_find hr
    obtain rfl := runs_id hr
    refine ⟨fun h => ?rejected, fun h1 h2 h3 h4 => ?answered⟩
    case rejected =>
      have hbad : ¬ AttestFits c := by unfold AttestFits; omega
      exact ends_unwritten hf hp hs rfl (attestFx_rejects s.b s.mem hbad ▸ run)
    case answered =>
      have fits : AttestFits c := ⟨h1, h2, h3, h4⟩
      refine ⟨fun h => ends_unwritten (b := attested s.b s.mem c) hf hp hs rfl (attestFx_overflows fits h ▸ run), fun h => ?_⟩
      obtain ⟨t, ht, hend, hmem, hblk⟩ := ends_written (b := attested s.b s.mem c) hf hp hs hw rfl (attestFx_answers fits h ▸ run)
      exact ⟨t, ht, hend, hmem.trans (by rw [attested_fnStore]; rfl), hblk⟩
  case selftest =>
    have run := selftest_runs ha tests hr
    obtain ⟨hf, hp⟩ := runs_find hr
    obtain rfl := runs_id hr
    exact ⟨fun h => ends_unwritten hf hp hs rfl (blockTestFx_rejects tests h ▸ run),
      fun hb hset h => ends_written hf hp hs hw rfl (blockTestFx_passes hb hset h ▸ run)⟩
  case unlisted =>
    have run := unlistedOpcode_accepted ha h hu
    obtain ⟨hf, hp, -⟩ := h
    exact ends_unwritten hf (by rw [hp]; decide) hs rfl run

end Sys2Proof.Machine
end

section
/-!
O7: what a block with a fatal cause still takes (R627).
-/
namespace Sys2Proof.Machine

section
variable {s : State} (hf : s.b.life.fatal ≠ 0)
include hf

theorem alive_lost : alive s.b = false := by simp [alive, hf]

theorem awake_lost : awake s.b = false := by simp [awake, alive_lost hf]

/-- What a row would do to a living block does not happen. -/
theorem next_unless_alive (t : State) : (.next (if alive s.b then t else s) : Host.Outcome State Fault Refusal) = .next s :=
  congrArg Host.Outcome.next (if_neg (by simp [alive_lost hf]))

theorem next_unless_awake (t : State) : (.next (if awake s.b then t else s) : Host.Outcome State Fault Refusal) = .next s :=
  congrArg Host.Outcome.next (if_neg (by simp [awake_lost hf]))

/-- Of a lost block no command is accepted, and none is found malformed. -/
theorem accept_lost (id : CmdId) : exec (.accept id) s = .next s := by
  show execAccept id s = _
  unfold execAccept
  split
  · rfl
  · dsimp only
    rw [if_neg (by simp [awake_lost hf])]
    exact act_idle (awake_lost hf) _

/-- None is dispatched either. -/
theorem commandDispatch_lost (id : CmdId) : exec (.commandDispatch id) s = .next s := by
  show execCommandDispatch id s = _
  unfold execCommandDispatch
  split
  · rfl
  · rw [if_neg (by simp [awake_lost hf])]
    exact act_idle (awake_lost hf) _

/-- A row that a block reset does not stop acts only while the block is alive, unless it is a CTL access or a pin. -/
theorem liveRow_lost (c : Instr) (hl : isLiveRow c = true) : exec c s = .next s := by
  cases c <;> simp only [isLiveRow, Bool.false_eq_true] at hl <;> exact next_unless_alive hf _

/-- Any other row takes a command of a queue, or acts only while the block works. -/
theorem workRow_lost (c : Instr) (hl : isLiveRow c = false) (hc : isCtlRow c = false) (hp : isPinRow c = false) : exec c s = .next s := by
  cases c
  case accept id => exact accept_lost hf id
  case commandDispatch id => exact commandDispatch_lost hf id
  all_goals simp only [isLiveRow, isCtlRow, isPinRow, Bool.true_eq_false] at hl hc hp <;> exact next_unless_awake hf _

end

/-- Settles O7: the live rows by `liveRow_lost`, the others that are neither CTL accesses nor pins by `workRow_lost`. -/
theorem lostBlockStops : Obligations.LostBlockStops := by
  unfold Obligations.LostBlockStops
  intro c s hf hc hp
  cases hl : isLiveRow c with
  | true => exact liveRow_lost hf c hl
  | false => exact workRow_lost hf c hl hc hp

end Sys2Proof.Machine
end

section
/-!
O17: the requests that FLT_FENCE captures (R613).
-/
namespace Sys2Proof.Machine

theorem ctlWrite_fltFence (b : Blk) (w : Word) : ctlWrite b 0x10008 w = writeFence b w.toNat := rfl

/-- The units that FLT_FENCE can name, kind by kind, for an index of its nine bits (R613). -/
theorem unitExists_iff {b : Blk} {k i : Nat} (hi : i < 512) : unitExists b k i = true ↔
    (k = 0 ∧ i < 128 ∧ tileExists b i = true) ∨ (k = 1 ∧ sectorExists b i = true) ∨ (k = 2 ∧ portExists b i = true) ∨
      (k = 3 ∧ i < 16) ∨ (k = 4 ∧ i < 4) ∨ (k = 5 ∧ 0 < i) := by
  match k with
  | 0 | 1 | 2 | 3 | 4 => simp [unitExists]
  | 5 => simp [unitExists, hi]
  | k + 6 => simp [unitExists]

/-- The block with one more fence requested. -/
def fenceCaptured (b : Blk) (k i : Nat) : Blk := { b with ctl := { b.ctl with fences := b.ctl.fences ++ [{ kind := k, index := i }] } }

theorem writeFence_captures {b : Blk} {v : Nat} (hg : tb v 63 = true) (he : unitExists b (fld v 62 60) (fld v 8 0) = true) :
    writeFence b v = fenceCaptured b (fld v 62 60) (fld v 8 0) := if_pos (by simp [hg, he])

theorem writeFence_ignores {b : Blk} {v : Nat} (h : tb v 63 = false ∨ ¬ unitExists b (fld v 62 60) (fld v 8 0) = true) : writeFence b v = b :=
  if_neg (by rcases h with h | h <;> simp [h])

/-- Settles O17: the write by `writeFence_captures` and `writeFence_ignores`, the units by `unitExists_iff`. -/
theorem fenceIsCaptured : Obligations.FenceIsCaptured := by
  unfold Obligations.FenceIsCaptured
  intro v s ho hs k i exists'
  have hu : unitExists s.b k i = true ↔ exists' := unitExists_iff (Nat.mod_lt _ (by decide))
  have hw := ctlWrite_fltFence s.b v
  refine ⟨fun hg he => ?captured, fun h => ?ignored⟩
  case captured =>
    have hx := hw.trans (writeFence_captures hg (hu.mpr he))
    rw [row_fltFence, actCtl_quiet ho _ (by rw [hx]; exact hs), hx]
    rfl
  case ignored =>
    exact (row_fltFence v s).trans (actCtl_nop _ hs (hw.trans (writeFence_ignores (h.imp_right fun he => mt hu.mp he))))

end Sys2Proof.Machine
end

section
/-!
SUPPORT for fenced tiles: what fencing a tile or an array changes, and that a tile once fenced stays so (R44, R611).
-/
namespace Sys2Proof.Machine

theorem unitFenced_only (b : Blk) (kind cause idx sub : Nat) :
    ∃ fns memp st, unitFenced b kind cause idx sub = { b with fns := fns, memp := memp, stores := st } := event_only ..

theorem setFatal_only (b : Blk) (cause : Nat) : ∃ life ports d2d, setFatal b cause = { b with life := life, ports := ports, d2d := d2d } := by
  unfold setFatal
  extract_lets b1
  split
  · exact ⟨_, _, _, rfl⟩
  · exact ⟨_, _, _, rfl⟩

/-- A change of one tile, at that tile or at another. -/
theorem getTile_modTile_cases (b : Blk) (t n : Nat) (g : Tile → Tile) :
    getTile (modTile b t g) n = getTile b n ∨ n = t ∧ getTile (modTile b t g) n = g (getTile b n) := by
  by_cases hn : n = t
  · subst hn
    by_cases hl : n < b.tiles.length
    · exact .inr ⟨rfl, getD_modify_same _ _ _ _ hl⟩
    · refine .inl ?_
      unfold getTile modTile
      rw [List.modify_eq_self (Nat.le_of_not_lt hl)]
  · exact .inl (getD_modify_other _ _ _ _ _ hn)

theorem getTile_modTile_same {b : Blk} {t : Nat} (g : Tile → Tile) (h : t < b.tiles.length) : getTile (modTile b t g) t = g (getTile b t) :=
  getD_modify_same _ _ _ _ h

theorem getTile_congr {b b' : Blk} (h : b'.tiles = b.tiles) (n : Nat) : getTile b' n = getTile b n := by unfold getTile; rw [h]

/-- Fencing changes tiles, of which those fenced stay fenced and none forgets its self-tests; events, and the block's loss with its last tile. -/
structure Fences (b b' : Blk) : Prop where
  frame : ∃ fns memp st life ports d2d tiles, b' =
    { b with fns := fns, memp := memp, stores := st, life := life, ports := ports, d2d := d2d, tiles := tiles }
  length : b'.tiles.length = b.tiles.length
  stays : ∀ n, (getTile b n).state = 3 → (getTile b' n).state = 3
  selftest : ∀ n, (getTile b' n).selftest = (getTile b n).selftest

namespace Fences

theorem of_frame (b : Blk) (fns : Tab Fn) (memp : List MemP) (st : List (Nat × List Byte)) (life : Life) (ports : List Port) (d2d : List D2d) :
    Fences b { b with fns := fns, memp := memp, stores := st, life := life, ports := ports, d2d := d2d } :=
  ⟨⟨_, _, _, _, _, _, _, rfl⟩, rfl, fun _ h => h, fun _ => rfl⟩

theorem refl (b : Blk) : Fences b b := of_frame b b.fns b.memp b.stores b.life b.ports b.d2d

theorem trans {b b' b'' : Blk} (h : Fences b b') (h' : Fences b' b'') : Fences b b'' := by
  refine ⟨?_, h'.length.trans h.length, fun n hn => h'.stays n (h.stays n hn), fun n => (h'.selftest n).trans (h.selftest n)⟩
  obtain ⟨_, _, _, _, _, _, _, e⟩ := h.frame
  obtain ⟨_, _, _, _, _, _, _, e'⟩ := h'.frame
  exact ⟨_, _, _, _, _, _, _, by rw [e', e]⟩

theorem foldl {α : Type} (l : List α) (g : Blk → α → Blk) (b : Blk) (h : ∀ b x, Fences b (g b x)) : Fences b (l.foldl g b) :=
  foldl_keeps (Fences b) l g b (refl b) fun y x hy => hy.trans (h y x)

theorem modTile (b : Blk) (t : Nat) (g : Tile → Tile) (hs : ∀ x : Tile, x.state = 3 → (g x).state = 3) (ht : ∀ x, (g x).selftest = x.selftest) :
    Fences b (modTile b t g) := by
  refine ⟨⟨_, _, _, _, _, _, _, rfl⟩, List.length_modify .., fun n hn => ?_, fun n => ?_⟩ <;>
    rcases getTile_modTile_cases b t n g with e | ⟨-, e⟩ <;> rw [e]
  · exact hn
  · exact hs _ hn
  · exact ht _

theorem unitFenced (b : Blk) (kind cause idx sub : Nat) : Fences b (unitFenced b kind cause idx sub) := by
  obtain ⟨fns, memp, st, e⟩ := unitFenced_only b kind cause idx sub
  rw [e]; exact of_frame b fns memp st b.life b.ports b.d2d

theorem setFatal (b : Blk) (cause : Nat) : Fences b (setFatal b cause) := by
  obtain ⟨life, ports, d2d, e⟩ := setFatal_only b cause
  rw [e]; exact of_frame b b.fns b.memp b.stores life ports d2d

theorem fenceTile (b : Blk) (t cause : Nat) : Fences b (fenceTile b t cause) := by
  unfold Machine.fenceTile
  extract_lets x b1 b2
  split
  · exact refl b
  · have h1 : Fences b b1 := modTile b t _ (fun _ _ => rfl) fun _ => rfl
    have h2 : Fences b b2 := h1.trans (unitFenced b1 0 cause t 0)
    split
    · exact h2.trans (setFatal b2 1)
    · exact h2

theorem fenceArray (b : Blk) (t a cause : Nat) : Fences b (fenceArray b t a cause) := by
  unfold Machine.fenceArray
  extract_lets x phys b1 b2
  split
  · exact refl b
  · have h1 : Fences b b1 := modTile b t _ (fun _ h => h) fun _ => rfl
    have h2 : Fences b b2 := h1.trans (unitFenced b1 6 cause t a)
    split
    · exact h2.trans (fenceTile b2 t cause)
    · exact h2.trans (modTile b2 t _ (fun _ h => h) fun _ => rfl)

theorem fab {b b' : Blk} (h : Fences b b') : b'.fab = b.fab := by
  obtain ⟨_, _, _, _, _, _, _, e⟩ := h.frame
  rw [e]

theorem tileExists {b b' : Blk} (h : Fences b b') (n : Nat) : tileExists b' n = tileExists b n := by
  obtain ⟨_, _, _, _, _, _, _, e⟩ := h.frame
  rw [e]; rfl

end Fences

/-- A tile of the part that is fenced stands fenced, whatever it was (R611). -/
theorem fenceTile_fenced {b : Blk} {t : Nat} (cause : Nat) (he : tileExists b t = true) (hl : t < b.tiles.length) :
    (getTile (fenceTile b t cause) t).state = 3 := by
  unfold fenceTile
  extract_lets x b1 b2
  split
  next h => simpa [he] using h
  next =>
    have h1 : (getTile b1 t).state = 3 := by rw [getTile_modTile_same _ hl]
    have h2 : (getTile b2 t).state = 3 := (Fences.unitFenced b1 0 cause t 0).stays t h1
    split
    · exact (Fences.setFatal b2 1).stays t h2
    · exact h2

/-- Every tile of a list of tiles to fence stands fenced. -/
theorem foldl_fenceTile_fenced {n : Nat} (cause : Nat) (l : List Nat) (b : Blk) (hn : n ∈ l) (he : tileExists b n = true) (hl : n < b.tiles.length) :
    (getTile (l.foldl (fun b t => fenceTile b t cause) b) n).state = 3 := by
  induction l generalizing b with
  | nil => cases hn
  | cons t l ih =>
    have h := Fences.fenceTile b t cause
    rw [List.foldl_cons]
    rcases List.mem_cons.mp hn with rfl | hn
    · exact (Fences.foldl l _ _ fun b t => .fenceTile b t cause).stays n (fenceTile_fenced cause he hl)
    · exact ih _ hn (by rw [h.tileExists]; exact he) (by rw [h.length]; exact hl)

end Sys2Proof.Machine
end

section
/-!
SUPPORT for RECOMPUTE: the packets of a transfer once more, and what is kept for their destination (R602, R603).
-/
namespace Sys2Proof.Machine

theorem arbEvent_only (b : Blk) (fn outcome step tag ep rank role chunk : Nat) :
    ∃ fns memp st, arbEvent b fn outcome step tag ep rank role chunk = { b with fns := fns, memp := memp, stores := st } := event_only ..

theorem keptFor_congr {b b' : Blk} (h : b'.fab.dst = b.fab.dst) (ep : Nat) : keptFor b' ep = keptFor b ep := by
  unfold keptFor; rw [getDst_congr h]

theorem sendTo_tiles (b : Blk) (p : Pkt) (cmd : Option CmdId) (rank : Nat) : (sendTo b p cmd rank).tiles = b.tiles := by
  obtain ⟨_, _, _, _, _, _, h⟩ := (sendTo_sentFrom b p cmd rank).frame
  rw [h]

/-! ### The packets of a transfer -/

/-- The packets that a RECOMPUTE asks for again, of those kept for its sender: DATA and ATOMIC of its command and step, from its offset to the packet that it
names, and none sent again already (R603). -/
def transferOf (us : List Unacked) (q : Prefix) (top : Nat) : List Unacked :=
  us.filter fun u => let r := preOfPkt u.pkt
    r.gid == q.gid && r.gen == q.gen && r.cseq == q.cseq && r.srcRank == q.srcRank && r.step == q.step && (r.type == 1 || r.type == 5) &&
    !r.resend && decide (preOff q ≤ preOff r) && decide (preOff r ≤ top)

theorem transferOf_type {us : List Unacked} {q : Prefix} {top : Nat} {u : Unacked} (h : u ∈ transferOf us q top) :
    (preOfPkt u.pkt).type = 1 ∨ (preOfPkt u.pkt).type = 5 := by
  have hu := (List.mem_filter.mp h).2
  simp only [Bool.and_eq_true, Bool.or_eq_true, beq_iff_eq] at hu
  obtain ⟨⟨⟨⟨-, ht⟩, -⟩, -⟩, -⟩ := hu
  exact ht

/-- Their packets, cut as DATA, each with the packet kept. -/
def recutOf (mine : List Unacked) : List (Pkt × Unacked) := mine.flatMap fun u => (cutData u.pkt).map fun x => (x, u)

theorem recutOf_length (mine : List Unacked) : (recutOf mine).length = (mine.flatMap fun u => cutData u.pkt).length := by
  unfold recutOf
  simp only [List.length_flatMap, List.length_map]

/-- A packet cut from a sequenced one is sequenced. -/
theorem recutOf_sequenced {us : List Unacked} {q : Prefix} {top : Nat} {x : Pkt × Unacked} (h : x ∈ recutOf (transferOf us q top)) :
    sequenced x.1 = true := by
  simp only [recutOf, cutData, List.mem_flatMap, List.mem_map] at h
  obtain ⟨u, hu, _, ⟨_, _, rfl⟩, rfl⟩ := h
  show isSeqType (preOfPkt u.pkt).type = true
  rcases transferOf_type hu with ht | ht <;> rw [ht] <;> rfl

theorem setPre_sequenced (p : Pkt) (g : Prefix → Prefix) (hg : ∀ q, (g q).type = q.type) : sequenced (setPre p g) = sequenced p := by
  obtain ⟨hdr, body⟩ := p
  cases body with
  | coll pre d => simp [sequenced, setPre, isCollPkt, preOfPkt, hg]
  | other d => rfl

theorem setPre_hdr (p : Pkt) (g : Prefix → Prefix) : (setPre p g).hdr = p.hdr := by
  unfold setPre; split <;> rfl

/-- ATTEMPT 1 of a packet has its type and its header. -/
theorem reattempt_sequenced (b : Blk) (rank : Nat) (p : Pkt) : sequenced (reattempt b rank p) = sequenced p := by
  unfold reattempt
  rw [setPre_sequenced, cryptPkt_sequenced, cryptPkt_sequenced]
  exact fun _ => rfl

theorem reattempt_hdr (b : Blk) (rank : Nat) (p : Pkt) : (reattempt b rank p).hdr = p.hdr := by
  unfold reattempt
  rw [setPre_hdr, cryptPkt_hdr, cryptPkt_hdr]

/-! ### Sending them again -/

/-- A point-to-point command counts one more packet sent. -/
def countSent (b : Blk) (cmd : Option CmdId) : Blk :=
  match cmd with
  | some id => withCmd b id fun c => if isP2p (opOf c) then modCmd b id fun c => { c with sent := c.sent + 1 } else b
  | none => b

theorem countSent_only (b : Blk) (cmd : Option CmdId) : ∃ cmds, countSent b cmd = { b with cmds := cmds } := by
  unfold countSent withCmd
  split
  · split
    · dsimp only
      split <;> exact ⟨_, rfl⟩
    · exact ⟨_, rfl⟩
  · exact ⟨_, rfl⟩

/-- One packet of the transfer, sent again to the endpoint (R603). -/
def sendOnceMore (ep : Nat) (b : Blk) (x : Pkt × Unacked) : Blk :=
  sendTo (countSent b x.2.cmd) (reattempt (countSent b x.2.cmd) x.2.rank { x.1 with hdr := hdrTo (countSent b x.2.cmd) ep 0 0 }) x.2.cmd x.2.rank

theorem sendOnceMore_tiles (ep : Nat) (b : Blk) (x : Pkt × Unacked) : (sendOnceMore ep b x).tiles = b.tiles := by
  obtain ⟨cmds, e⟩ := countSent_only b x.2.cmd
  unfold sendOnceMore
  rw [sendTo_tiles, e]

theorem sendOnceMore_kept (ep : Nat) (b : Blk) {x : Pkt × Unacked} (h : sequenced x.1 = true) : keptFor (sendOnceMore ep b x) ep = keptFor b ep + 1 := by
  obtain ⟨cmds, e⟩ := countSent_only b x.2.cmd
  unfold sendOnceMore
  rw [e]
  generalize hp : reattempt _ x.2.rank { x.1 with hdr := _ } = p
  have hd : p.hdr.dst = ep := by rw [← hp, reattempt_hdr]; rfl
  have hs : sequenced p = true := by rw [← hp, reattempt_sequenced]; exact h
  have hk := sendTo_kept { b with cmds := cmds } p x.2.cmd x.2.rank hs
  rw [hd] at hk
  exact hk

theorem foldl_sendOnceMore_tiles (ep : Nat) (xs : List (Pkt × Unacked)) (b : Blk) : (xs.foldl (sendOnceMore ep) b).tiles = b.tiles :=
  foldl_keeps (fun y => y.tiles = b.tiles) xs _ b rfl fun y x h => (sendOnceMore_tiles ep y x).trans h

/-- Each packet sent again is kept for the endpoint. -/
theorem foldl_sendOnceMore_kept (ep : Nat) (xs : List (Pkt × Unacked)) (b : Blk) (h : ∀ x ∈ xs, sequenced x.1 = true) :
    keptFor (xs.foldl (sendOnceMore ep) b) ep = keptFor b ep + xs.length := by
  induction xs generalizing b with
  | nil => rfl
  | cons x xs ih =>
    rw [List.foldl_cons, ih _ fun y hy => h y (.tail _ hy), sendOnceMore_kept ep b (h x (.head _)), List.length_cons]
    omega

/-! ### RECOMPUTE -/

/-- The units fenced whose sliver digests differ (R603). -/
def fenceDiffering (b : Blk) (rc : Recomb) : Blk :=
  rc.badArrays.foldl (fun b x => fenceArray b x.1 x.2 1) (rc.badTiles.foldl (fun b t => fenceTile b t 1) b)

theorem fenceDiffering_fences (b : Blk) (rc : Recomb) : Fences b (fenceDiffering b rc) :=
  (Fences.foldl _ _ _ fun b t => .fenceTile b t 1).trans (.foldl _ _ _ fun b x => .fenceArray b x.1 x.2 1)

theorem fenceDiffering_fenced {b : Blk} {rc : Recomb} {n : Nat} (hn : n ∈ rc.badTiles) (he : tileExists b n = true) (hl : n < b.tiles.length) :
    (getTile (fenceDiffering b rc) n).state = 3 :=
  (Fences.foldl rc.badArrays _ _ fun b x => .fenceArray b x.1 x.2 1).stays n (foldl_fenceTile_fenced 1 rc.badTiles b hn he hl)

/-- A RECOMPUTE of a unicast transfer: units are fenced, an event tells of it, and the packets of the transfer go again. -/
theorem recomputeFx_sends {b : Blk} {p : Pkt} {last : Unacked} (rc : Recomb) (h : findUnacked b p.hdr.src (preOfPkt p).e2e = some (none, last)) :
    ∃ fns memp st, recomputeFx b p rc =
      (recutOf (transferOf (getDst b p.hdr.src).unacked (preOfPkt p) (preOff (preOfPkt last.pkt)))).foldl (sendOnceMore p.hdr.src)
        { fenceDiffering b rc with fns := fns, memp := memp, stores := st } := by
  unfold recomputeFx
  extract_lets q ep off b1 b2 out
  rw [h]
  dsimp -zeta only
  extract_lets top us mine b3
  have h3 : ∃ fns memp st, b3 = { fenceDiffering b rc with fns := fns, memp := memp, stores := st } := by
    unfold b3
    split
    · exact arbEvent_only ..
    · exact ⟨_, _, _, rfl⟩
  obtain ⟨fns, memp, st, e⟩ := h3
  rw [e]
  exact ⟨fns, memp, st, rfl⟩

/-- What a RECOMPUTE leaves: the packets of the transfer kept once more, and the units that differ fenced (R603). -/
theorem recomputeFx_leaves {b : Blk} {p : Pkt} {last : Unacked} (rc : Recomb) (h : findUnacked b p.hdr.src (preOfPkt p).e2e = some (none, last)) :
    keptFor (recomputeFx b p rc) p.hdr.src = keptFor b p.hdr.src +
      ((transferOf (getDst b p.hdr.src).unacked (preOfPkt p) (preOff (preOfPkt last.pkt))).flatMap fun u => cutData u.pkt).length ∧
    (recomputeFx b p rc).tiles = (fenceDiffering b rc).tiles := by
  obtain ⟨fns, memp, st, e⟩ := recomputeFx_sends rc h
  rw [e, foldl_sendOnceMore_kept _ _ _ fun x hx => recutOf_sequenced hx, recutOf_length, foldl_sendOnceMore_tiles]
  have hk : keptFor { fenceDiffering b rc with fns := fns, memp := memp, stores := st } p.hdr.src = keptFor b p.hdr.src :=
    keptFor_congr (congrArg Fabric.dst (fenceDiffering_fences b rc).fab) _
  exact ⟨by rw [hk], rfl⟩

theorem recompute_exec {s : State} {port : Nat} {p : Pkt} (rc : Recomb) (ha : awake s.b = true) (hc : isCollPkt p = true) (ht : (preOfPkt p).type = 7)
    (hk : fld (preOfPkt p).spec 7 0 = 1) (hh : p.hdr.hop ≠ 0) (hd : p.hdr.dst = selfEp s.b) :
    exec (.recompute port p rc) s = .next (commit s (recomputeFx (taken s.b port p) p rc)) := by
  rw [row_recompute, act_awake ha, if_neg (by simp [hk]), onPkt_here port _ hc ht hh hd (.inl rfl)]

end Sys2Proof.Machine
end

section
/-!
SUPPORT for what waits and is reserved for a command that ends: its release leaves the block's units as they are (R344, R363, R371).
-/
namespace Sys2Proof.Machine

theorem leave_sends (b : Blk) (x : Unsent) : Sends b (leave b x) := by
  obtain ⟨p, cmd, rank⟩ := x
  cases cmd with
  | none =>
    obtain ⟨fab, ports, h⟩ := leave_only b p rank
    rw [h]; exact .of_fab b fab ports
  | some id =>
    obtain ⟨fab, ports, h⟩ := leaveCmd_only b p id rank
    rw [h]; exact (Sends.moved b id.f).trans (.of_fab _ fab ports)

theorem flush_sends (b : Blk) (ep : Nat) : Sends b (flush b ep) := by
  unfold flush
  generalize (getDst b ep).waiting.length = n
  induction n generalizing b with
  | zero => exact .refl b
  | succ n ih =>
    unfold flushDst
    split
    · exact .refl b
    next x rest _ =>
      split
      · exact ((Sends.of_fab b _ b.ports).trans (leave_sends _ x)).trans (ih _)
      · exact .refl b

theorem modMdst_sends (b : Blk) (d : Nat) (g : DstSt → DstSt) : Sends b (modMdst b d g) := .of_fab b _ b.ports

theorem leaveMc_sends (b : Blk) (d mask : Nat) (x : Unsent) : Sends b (leaveMc b d mask x) := by
  unfold leaveMc
  extract_lets n p b1
  obtain ⟨ports, h⟩ := mcCopies_only b1 63 p d mask
  rw [h]
  exact (modMdst_sends b d _).trans (.of_fab b1 b1.fab ports)

theorem flushMc_sends (b : Blk) (d : Nat) : Sends b (flushMc b d) := by
  unfold flushMc
  generalize (getMdst b d).waiting.length = n
  induction n generalizing b with
  | zero => exact .refl b
  | succ n ih =>
    unfold flushMcAt
    split
    · exact .refl b
    next x rest _ =>
      split
      · exact ((modMdst_sends b d _).trans (leaveMc_sends _ d _ x)).trans (ih _)
      · exact .refl b

theorem endDrain_sends (b : Blk) (id : CmdId) : Sends b (endDrain b id) := by
  unfold endDrain
  split
  · split
    · exact ((Sends.of_fab b _ b.ports).trans (.foldl _ _ _ flush_sends)).trans (.foldl _ _ _ flushMc_sends)
    · exact .refl b
  · exact .refl b

theorem dropHalyards_only (b : Blk) (h : Nat) :
    ∃ haly fab ports, dropHalyards b h = { b with t := { b.t with haly := haly }, fab := fab, ports := ports } := by
  unfold dropHalyards
  refine foldl_keeps (fun x : Blk => ∃ haly fab ports, x = { b with t := { b.t with haly := haly }, fab := fab, ports := ports }) _ _ _ ⟨_, _, _, rfl⟩ ?_
  rintro x e ⟨_, _, _, rfl⟩
  obtain ⟨_, _, _, h, -⟩ := releaseHaly_only { b with t := _, fab := _, ports := _ } e.1
  rw [h]; exact ⟨_, _, _, rfl⟩

/-- Releasing what a hoist's command has reserved changes tables, packets, ports, the command and what is under way for its hoist. -/
theorem unreserve_only (b : Blk) (id : CmdId) : ∃ t fab ports compiles walks cmds, unreserve b id =
    { b with t := t, fab := fab, ports := ports, compiles := compiles, walks := walks, cmds := cmds } := by
  unfold unreserve withCmd
  split
  · dsimp only
    split
    next h _ =>
      split
      · obtain ⟨_, _, _, e⟩ := dropHalyards_only b h
        rw [e]; exact ⟨_, _, _, _, _, _, rfl⟩
      · exact ⟨_, _, _, _, _, _, rfl⟩
    · exact ⟨_, _, _, _, _, _, rfl⟩
  · exact ⟨_, _, _, _, _, _, rfl⟩

theorem unstage_tiles (b : Blk) (id : CmdId) : (unstage b id).tiles = b.tiles := by
  obtain ⟨_, _, _, _, _, _, e⟩ := unreserve_only b id
  obtain ⟨⟨_, _, _, e'⟩, -⟩ := endDrain_sends (unreserve b id) id
  unfold unstage
  rw [e', e]

end Sys2Proof.Machine
end

section
/-!
O53: how an arbitration ends at its sender and at its receiver (R602 to R606).
-/
namespace Sys2Proof.Machine

/-! ### Signals leave the tiles as they are -/

theorem applySignal_tiles (b : Blk) (g : Group) (p : Pkt) : (applySignal b g p).tiles = b.tiles := by
  unfold applySignal
  extract_lets q x issuer vid b1 b2
  have h1 : b1.tiles = b.tiles := by unfold b1; rw [takeSeq_eq]
  obtain ⟨_, _, _, e2⟩ : ∃ fns memp st, b2 = { b1 with fns := fns, memp := memp, stores := st } := event_only ..
  split
  · obtain ⟨-, -, _, _, _, _, _, _, e⟩ := penOp_leaves b1 _ (tb q.spec 48) (BitVec.ofNat 64 (ofLe (dataOfPkt p))) p.hdr.src issuer 3 x.tag (by decide)
    rw [e]; exact h1
  · rw [abortTo, sendBare_eq, e2]; exact h1

theorem releaseSignals_tiles (b : Blk) (g : Group) (src : Nat) (q : Prefix) : (releaseSignals b g src q).tiles = b.tiles := by
  unfold releaseSignals
  extract_lets ready now _ b1
  exact foldl_keeps (fun y => y.tiles = b.tiles) now _ b1 rfl fun y x h => (applySignal_tiles y g x.pkt).trans h

/-! ### Acknowledgements that stay due -/

theorem getSrc_modSrc_other (b : Blk) {k k' : Bool × Nat} (g : SrcSt → SrcSt) (h : k' ≠ k) : getSrc (modSrc b k g) k' = getSrc b k' := by
  obtain ⟨m, n⟩ := k
  obtain ⟨m', n'⟩ := k'
  have hn : m' = m → n' ≠ n := fun hm hn => h (by rw [hm, hn])
  cases m <;> cases m'
  · exact tget_tmod_other _ _ _ _ _ (hn rfl)
  · rfl
  · rfl
  · exact tget_tmod_other _ _ _ _ _ (hn rfl)

/-- What is due in a sequence space stays due when another acknowledgement falls due (R350, R351). -/
theorem ackDue_keepsDue {b : Blk} {k : Bool × Nat} {n : Nat} (k' : Bool × Nat) (seq : Nat) (h : n ∈ (getSrc b k).due) :
    n ∈ (getSrc (ackDue b k' seq) k).due := by
  unfold ackDue
  by_cases hk : k = k'
  · subst hk
    have hm : n ∈ (if (getSrc b k).due.contains seq then (getSrc b k).due else (getSrc b k).due ++ [seq]) := by
      split
      · exact h
      · exact List.mem_append_left _ h
    rw [getSrc_modSrc]
    · exact hm
    · intro e
      rw [show (if (getSrc b k).due.contains seq then (getSrc b k).due else (getSrc b k).due ++ [seq]) = [] from congrArg SrcSt.due e] at hm
      cases hm
  · rw [getSrc_modSrc_other b _ hk]; exact h

/-! ### A transfer that passes on another checker -/

/-- The sequence space of an arbitrated transfer. -/
def arbKey (a : Arb) : Bool × Nat := match a.dom with | some d => (true, d * 65536 + a.src) | none => (false, a.src)

/-- The transfer passes: its sequence is due to be acknowledged, and no arbitration or held signal changes (R602, R605). -/
theorem passAll_passes (b : Blk) (a : Arb) (q : Prefix) : a.seq ∈ (getSrc (passAll b a q) (arbKey a)).due ∧
    ∃ src msrc applied unver, passAll b a q = { b with fab := { b.fab with src := src, msrc := msrc, applied := applied, unver := unver } } := by
  unfold passAll
  extract_lets mine _ b1 key b2
  have h2 : a.seq ∈ (getSrc b2 (arbKey a)).due :=
    foldl_keeps (fun x => a.seq ∈ (getSrc x (arbKey a)).due) _ _ _ (getSrc_ackDue b1 (arbKey a) a.seq).1 fun x u h => ackDue_keepsDue (key u.src u.dom) u.seq h
  obtain ⟨_, _, e1⟩ := ackDue_only b1 (key a.src a.dom) a.seq
  obtain ⟨_, _, e2⟩ := foldl_ackDue_only mine (ackDue b1 (key a.src a.dom) a.seq)
  refine ⟨h2, ?_⟩
  rw [show b2 = _ from e2, e1]
  exact ⟨_, _, _, _, rfl⟩

/-- What a receiver knows an arbitrated transfer by. -/
def arbPre (a : Arb) : Prefix := { pre0 with gid := a.gid, gen := a.gen, cseq := a.cseq, srcRank := a.rank, step := a.step }

/-- The receiver's tile with one more self-test of its checker (R606). -/
def tested (b : Blk) (t : Nat) : Blk := modTile b t fun x => { x with selftest := bump x.selftest 65535 }

/-- The end of an arbitration by CHECKER_FAULT (R605). -/
def checkerFault (b : Blk) (a : Arb) : Blk := arbEvent (dropArb (passAll b a (arbPre a)) a) a.fn 1 a.step a.tag a.src a.rank 0 a.chunk

theorem checkerFault_ends (b : Blk) (a : Arb) : a.seq ∈ (getSrc (checkerFault b a) (arbKey a)).due ∧
    (checkerFault b a).fab.arbs = b.fab.arbs.erase a ∧ (checkerFault b a).fab.heldSigs = b.fab.heldSigs ∧ (checkerFault b a).tiles = b.tiles := by
  obtain ⟨hdue, _, _, _, _, e⟩ := passAll_passes b a (arbPre a)
  obtain ⟨_, _, _, e'⟩ := arbEvent_only (dropArb (passAll b a (arbPre a)) a) a.fn 1 a.step a.tag a.src a.rank 0 a.chunk
  unfold checkerFault
  rw [e']
  refine ⟨?due, ?_, ?_, ?_⟩
  case due =>
    rw [getSrc_congr (b := passAll b a (arbPre a))]
    exacts [hdue, rfl, rfl]
  all_goals unfold dropArb; rw [e]

/-- The tile of a checker that failed its self-test, fenced (R604, R606). -/
def checkerFenced (b : Blk) (a : Arb) : Blk := fenceTile (tested b a.tile) a.tile 4

/-- A checker that fails its self-test, and a transfer that passes on another: CHECKER_FAULT, and the signals that waited for the data (R604, R605). -/
theorem selftestFx_faults (b : Blk) (a : Arb) : selftestFx b a false .good = checkerFault (checkerFenced b a) a ∨
    ∃ g, selftestFx b a false .good = releaseSignals (checkerFault (checkerFenced b a) a) g a.src (arbPre a) := by
  unfold selftestFx
  dsimp only
  rw [if_neg Bool.false_ne_true]
  split
  · split
    · exact .inr ⟨_, rfl⟩
    · exact .inl rfl
  · exact .inl rfl

/-- The tile of the failing checker stands fenced, with its self-test counted (R604, R606). -/
theorem selftestFx_fences {b : Blk} {a : Arb} (he : tileExists b a.tile = true) (hl : a.tile < b.tiles.length) :
    (getTile (selftestFx b a false .good) a.tile).state = 3 ∧
    (getTile (selftestFx b a false .good) a.tile).selftest = bump (getTile b a.tile).selftest 65535 := by
  obtain ⟨-, -, -, hc⟩ := checkerFault_ends (checkerFenced b a) a
  have ht : (selftestFx b a false .good).tiles = (checkerFenced b a).tiles := by
    rcases selftestFx_faults b a with e | ⟨g, e⟩ <;> rw [e]
    · exact hc
    · exact (releaseSignals_tiles ..).trans hc
  have hl' : a.tile < (tested b a.tile).tiles.length := by rw [tested, modTile_tiles, List.length_modify]; exact hl
  have htested : getTile (tested b a.tile) a.tile = { getTile b a.tile with selftest := bump (getTile b a.tile).selftest 65535 } := getTile_modTile_same _ hl
  rw [getTile_congr ht, checkerFenced, (Fences.fenceTile ..).selftest, htested]
  exact ⟨fenceTile_fenced 4 he hl', rfl⟩

/-- Where no signal waits, the arbitration is over and the transfer due to be acknowledged (R605). -/
theorem selftestFx_settles {b : Blk} (a : Arb) (hh : b.fab.heldSigs = []) :
    (selftestFx b a false .good).fab.arbs = b.fab.arbs.erase a ∧ a.seq ∈ (getSrc (selftestFx b a false .good) (arbKey a)).due := by
  have hfab : (checkerFenced b a).fab = b.fab := (Fences.fenceTile (tested b a.tile) a.tile 4).fab
  obtain ⟨hdue, harbs, hsigs, -⟩ := checkerFault_ends (checkerFenced b a) a
  rw [hfab] at harbs hsigs
  have h : selftestFx b a false .good = checkerFault (checkerFenced b a) a := by
    rcases selftestFx_faults b a with e | ⟨g, e⟩
    · exact e
    · exact e.trans (releaseSignals_idle g a.src (arbPre a) (hsigs.trans hh))
  rw [h]
  exact ⟨harbs, hdue⟩

/-! ### A transfer that fails -/

/-- The block once an arbitration has ended as failed, and its values are recorded: before the command ends (R605). -/
theorem failArb_stops {b : Blk} {a : Arb} {q : Prefix} {c : Cmd} (ht : tb a.cseq 47 = false) (hc : cmdFor b q none = [c]) (hp : c.phase ≠ .ended) :
    ∃ y : Blk, y.cmds = b.cmds ∧ y.tiles = b.tiles ∧
      failArb b a q = unstage (stopCmd y c.id (if a.check = true then 0x40 else 0x41)) c.id := by
  unfold failArb
  extract_lets out st b1 info b2 b3 b4 _ b5 cs b6
  obtain ⟨_, _, _, e1⟩ : ∃ fns memp stores, b1 = { b with fns := fns, memp := memp, stores := stores } := arbEvent_only ..
  obtain ⟨_, _, _, e2⟩ : ∃ fns memp stores, b2 = { b1 with fns := fns, memp := memp, stores := stores } := event_only ..
  obtain ⟨_, _, _, e3⟩ : ∃ fns memp stores, b3 = { b2 with fns := fns, memp := memp, stores := stores } := event_only ..
  clear_value b1 b2 b3
  have h5 : b5.cmds = b.cmds ∧ b5.tiles = b.tiles := by
    unfold b5 b4 dropArb
    rw [e3, e2, e1]
    exact ⟨rfl, rfl⟩
  have hcs : cs = [c] := by
    rw [← hc]
    unfold cs cmdFor
    rw [h5.1]
  obtain ⟨_, _, e6⟩ := abortNotices_only b5 c st
  have h6 : b6 = abortNotices b5 c st := by
    unfold b6
    rw [hcs]
    rfl
  rw [if_neg (by simp [ht]), hcs, List.foldl_cons, List.foldl_nil, if_neg (by simp [hp])]
  exact ⟨b6, by rw [h6, e6]; exact h5.1, by rw [h6, e6]; exact h5.2, rfl⟩

/-- The command of a transfer that fails ends CHECK_FAIL or DIGEST_FAIL, and no tile changes (R605). -/
theorem failArb_ends {b : Blk} {a : Arb} {q : Prefix} {c : Cmd} (ht : tb a.cseq 47 = false) (hc : cmdFor b q none = [c]) (hf : findCmd b c.id = some c)
    (hp : c.phase ≠ .ended) : (∃ r, EndedWith (failArb b a q) c.id (if a.check = true then 0x40 else 0x41) r) ∧ (failArb b a q).tiles = b.tiles := by
  obtain ⟨y, hcmds, htiles, e⟩ := failArb_stops ht hc hp
  rw [e]
  refine ⟨stopped_endedWith _ ((findCmd_congr _ hcmds).trans hf) hp, ?_⟩
  rw [unstage_tiles, stopCmd_eq]
  exact htiles

theorem selftestFx_passes (b : Blk) (a : Arb) (tail : TailVerdict) : selftestFx b a true tail = failArb (tested b a.tile) a (arbPre a) := by
  unfold selftestFx
  exact if_pos rfl

/-! ### The rows -/

theorem checkerSelftest_exec {s : State} {ep seq : Nat} {a : Arb} (ok : Bool) (tail : TailVerdict) (ha : awake s.b = true)
    (hf : (s.b.fab.arbs.find? fun a => a.src == ep && a.seq == seq && a.second) = some a) :
    exec (.checkerSelftest ep seq ok tail) s = .next (commit s (selftestFx s.b a ok tail)) := by
  rw [row_checkerSelftest, act_awake ha, hf]

/-- Settles O53: the sender by `recomputeFx_leaves`; the receiver by `selftestFx_fences` and `selftestFx_settles` where its checker fails, by `failArb_ends`
where it passes. -/
theorem arbitrationEnds : Obligations.ArbitrationEnds := by
  unfold Obligations.ArbitrationEnds
  intro s port p rc ha hs q kept
  refine ⟨fun hc ht hk hh hd last hl => ?recompute, fun ep seq a tail hf hlen => ⟨fun he => ?fault, fun c ht hc hfind hp => ?fail⟩⟩
  case recompute =>
    obtain ⟨hkept, htiles⟩ := recomputeFx_leaves (b := taken s.b port p) rc hl
    exact ⟨_, recompute_exec rc ha hc ht hk hh hd, hkept, fun n hn he hlen =>
      (congrArg Tile.state (getTile_congr htiles n)).trans (fenceDiffering_fenced (b := taken s.b port p) hn he hlen)⟩
  case fault =>
    obtain ⟨hstate, htest⟩ := selftestFx_fences he hlen
    exact ⟨_, checkerSelftest_exec false .good ha hf, hstate, htest, fun hh => selftestFx_settles a hh⟩
  case fail =>
    obtain ⟨⟨r, hend⟩, htiles⟩ := failArb_ends (b := tested s.b a.tile) (q := arbPre a) ht hc hfind hp
    rw [← selftestFx_passes s.b a tail] at hend htiles
    exact ⟨_, r, checkerSelftest_exec true tail ha hf, hend,
      congrArg Tile.selftest ((getTile_congr htiles a.tile).trans (getTile_modTile_same _ hlen))⟩

end Sys2Proof.Machine
end

section
/-!
O1 to O4: the step and the queue of commands, the state after reset, and what every row keeps (R683, R747).
-/
namespace Sys2Proof.Machine

theorem step_front (c : Instr) (s : State) : step { s with pending := c :: s.pending } = exec c s := rfl

theorem step_idle {s : State} (h : s.pending = []) : step s = .next s := by
  unfold step
  rw [h]

/-- Settles O1, by `step_front` and `step_idle`. -/
theorem stepRunsFront : Obligations.StepRunsFront := by
  unfold Obligations.StepRunsFront
  exact ⟨step_front, fun _ => step_idle⟩

/-- Settles O2: memory is empty after reset, so canonical, and the rest are reset values. -/
theorem resetIsSafe : Obligations.ResetIsSafe := by
  unfold Obligations.ResetIsSafe Safe CtlOpen
  exact ⟨⟨rfl, rfl⟩, rfl, ⟨rfl, rfl⟩, rfl⟩

/-- A row that answers a next state keeps the queue, the canonical form of memory, and leaves no store behind. -/
theorem exec_keeps {c : Instr} {s t : State} (h : exec c s = .next t) :
    t.pending = s.pending ∧ (memWf s.mem = true → memWf t.mem = true) ∧ (s.b.stores = [] → t.b.stores = []) := by
  obtain hacts | ⟨id, hstop, -⟩ := row_acts c s
  · exact acts_keeps hacts h
  · rw [hstop] at h
    cases h

theorem exec_safe {c : Instr} {s t : State} (hs : Safe s) (h : exec c s = .next t) : Safe t :=
  have ⟨_, hmem, hstores⟩ := exec_keeps h
  ⟨hmem hs.1, hstores hs.2⟩

/-- Settles O4, by `exec_keeps`. -/
theorem queueUntouched : Obligations.QueueUntouched := by
  unfold Obligations.QueueUntouched
  exact fun _ _ _ h => (exec_keeps h).1

/-- Settles O3: an idle step changes nothing, and the row at the front keeps a safe state safe (`exec_safe`). -/
theorem safeIsKept : Obligations.SafeIsKept := by
  unfold Obligations.SafeIsKept
  intro s t hs ht
  cases hq : s.pending with
  | nil =>
    rw [step_idle hq] at ht
    cases ht
    exact hs
  | cons c rest =>
    have hexec : exec c { s with pending := rest } = .next t := by
      rw [← ht]
      unfold step
      rw [hq]
    exact exec_safe (s := { s with pending := rest }) hs hexec

end Sys2Proof.Machine
end

section
/-!
O6: scan mode holds the block (R683, R771).
-/
namespace Sys2Proof.Machine

section
variable {s : State} (hm : s.b.life.scanMode = true)
include hm

theorem alive_scan : alive s.b = false := by simp [alive, hm]

theorem awake_scan : awake s.b = false := by simp [awake, alive_scan hm]

theorem act_scan (f : Blk → Tab Byte → Blk) : act s f = .next s := act_idle (awake_scan hm) f

/-- What a row would do to a block that is awake, alive or open to CTL does not happen. -/
theorem next_unless_scan (t : State) :
    (.next (if awake s.b then t else s) : Host.Outcome State Fault Refusal) = .next s ∧
    (.next (if alive s.b then t else s) : Host.Outcome State Fault Refusal) = .next s ∧
    (.next (if !s.b.life.scanMode && !s.b.life.inReset then t else s) : Host.Outcome State Fault Refusal) = .next s := by
  simp [alive_scan hm, awake_scan hm, hm]

/-- In scan mode no command is accepted, and none is found malformed. -/
theorem accept_scan (id : CmdId) : exec (.accept id) s = .next s := by
  show execAccept id s = _
  unfold execAccept
  split
  · rfl
  · dsimp only
    rw [if_neg (by simp [awake_scan hm])]
    exact act_scan hm _

/-- None is dispatched either. -/
theorem commandDispatch_scan (id : CmdId) : exec (.commandDispatch id) s = .next s := by
  show execCommandDispatch id s = _
  unfold execCommandDispatch
  split
  · rfl
  · rw [if_neg (by simp [awake_scan hm])]
    exact act_scan hm _

/-- Register writes and the other CTL accesses reach no block in scan mode. -/
theorem ctlRow_scan (c : Instr) (hc : isCtlRow c = true) : exec c s = .next s := by
  cases c <;> simp only [isCtlRow, Bool.false_eq_true] at hc <;> exact (next_unless_scan hm _).2.2

theorem liveRow_scan (c : Instr) (hl : isLiveRow c = true) : exec c s = .next s := by
  cases c <;> simp only [isLiveRow, Bool.false_eq_true] at hl <;> exact (next_unless_scan hm _).2.1

/-- Any other row takes a command of a queue, or acts only while the block works. -/
theorem workRow_scan (c : Instr) (hl : isLiveRow c = false) (hc : isCtlRow c = false) (hp : isPinRow c = false) : exec c s = .next s := by
  cases c
  case accept id => exact accept_scan hm id
  case commandDispatch id => exact commandDispatch_scan hm id
  all_goals simp only [isLiveRow, isCtlRow, isPinRow, Bool.true_eq_false] at hl hc hp <;> exact (next_unless_scan hm _).1

theorem rstDone_scan (hs : s.b.stores = []) : exec .rstDone s = .next s := by
  have h : (if s.b.life.scanMode then s.b else { s.b with life := { s.b.life with inReset := false } }) = s.b := if_pos hm
  rw [row_rstDone]
  unfold actAlways
  exact (congrArg (fun b => Host.Outcome.next (commit s b)) h).trans (commit_id s hs)

end

/-- Settles O6: a row is a CTL access (`ctlRow_scan`), a live row (`liveRow_scan`), a row that needs the block at work (`workRow_scan`), or the
rise of RST_DONE (`rstDone_scan`). -/
theorem scanModeHolds : Obligations.ScanModeHolds := by
  unfold Obligations.ScanModeHolds
  rintro c s hm hs (hp | rfl)
  · cases hc : isCtlRow c with
    | true => exact ctlRow_scan hm c hc
    | false =>
      cases hl : isLiveRow c with
      | true => exact liveRow_scan hm c hl
      | false => exact workRow_scan hm c hl hc hp
  · exact rstDone_scan hm hs

end Sys2Proof.Machine
end

section
/-!
O9: what CTL reads of the block after reset (R747).
-/
namespace Sys2Proof.Machine

/-- Settles O9: the registers' reset values, evaluated. -/
theorem resetRegisters : Obligations.ResetRegisters := by
  unfold Obligations.ResetRegisters
  decide +kernel

end Sys2Proof.Machine
end

section
/-!
SUPPORT for CTL writes: a write that changes the block as computed.
-/
namespace Sys2Proof.Machine

theorem actCtl_yields {s : State} {f : Blk → Tab Byte → Blk} {b : Blk} (hc : CtlOpen s) (h : f s.b s.mem = b) (hs : b.stores = []) :
    actCtl s f = .next { s with b := b } := by
  subst h; exact actCtl_quiet hc f hs

end Sys2Proof.Machine
end

section
/-!
O13, O31: a function's interrupt vectors, and the delay of its completion vector (R763 to R767, R730).
-/
namespace Sys2Proof.Machine

/-! ### The vectors' registers -/

section
variable {b : Blk} {f : Nat} (hf : f < 512) (ho : pageOpen b f = true)
include hf ho

theorem ctlWrite_irqcfg (v : Word) : ctlWrite b (pageOff f 0x500) v = writeIrqcfg b f v.toNat := by
  rw [ctlWrite_page b f _ v hf (by decide) (by decide)]
  unfold writePage
  extract_lets
  rw [if_neg (by decide), if_neg (by simp [ho]), if_neg (by decide), if_neg (by decide)]
  rfl

theorem ctlWrite_msiAddr {vec : Nat} (hv : vec < 32) (v : Word) :
    ctlWrite b (pageOff f (0x800 + 16 * (vec % 32))) v = writeMsiAddr b f vec v.toNat := by
  have hk : (0x800 + 16 * vec - 0x800) / 16 = vec ∧ (0x800 + 16 * vec) % 16 = 0 := by omega
  rw [Nat.mod_eq_of_lt hv, ctlWrite_page b f _ v hf (by omega) (by omega)]
  unfold writePage
  extract_lets
  rw [if_neg (by omega), if_neg (by simp [ho]), if_neg (by simp; omega), if_pos (by simp; omega), if_pos (by simp [hk.2]), hk.1]

end

/-! ### Signals -/

/-- The interrupt write of a vector: DATA to ADDR (R730). -/
def irqWrite (f vec : Nat) (m : Msi) : MWr :=
  { tag := 0, bytes := [(memKey 0 m.addr, leBytes m.data 4)], puts := 1, msi := true, use := .msi f vec }

section
variable {b : Blk} {f vec : Nat}

theorem signalVec_masked (h : (tget msi0 (getFn b f).msi vec).mask = true) :
    signalVec b f vec = modFn b f fun n => { n with msi := tmod msi0 n.msi vec fun m => { m with pend := true } } := if_pos h

theorem signalVec_writes (h : (tget msi0 (getFn b f).msi vec).mask = false) (hl : b.life.fatal = 0) {p : Nat} (hp : portFrom b b.ctl.msiPort = some p) :
    signalVec b f vec = modM b p fun pt => startMem { pt with wrWait := pt.wrWait ++ [irqWrite f vec (tget msi0 (getFn b f).msi vec)] } := by
  have hport : (if b.life.fatal == 0 then portFrom b b.ctl.msiPort else none) = some p := by rw [if_pos (by simp [hl]), hp]
  unfold signalVec
  extract_lets m
  rw [if_neg (by simp [m, h]), hport]
  rfl

theorem signalVec_stores : (signalVec b f vec).stores = b.stores := by
  obtain ⟨_, _, h⟩ := signalVec_only b f vec
  rw [h]

theorem cqSignal_off (h : tb (getFn b f).irqCfg.toNat 63 = false) : cqSignal b f = b := if_neg (by simp [h])

/-- Nothing is signalled while every record written has been (R764). -/
theorem cqSignal_signalled (h : (getFn b f).produced ≤ (getFn b f).irqA) : cqSignal b f = b := if_neg (by simp; omega)

/-- A vector changed to other than its reset value reads as changed. -/
theorem tget_msi_modFn (he : (getFn b f).enabled = true) {g : Msi → Msi} (hg : g (tget msi0 (getFn b f).msi vec) ≠ msi0) :
    tget msi0 (getFn (modFn b f fun n => { n with msi := tmod msi0 n.msi vec g }) f).msi vec = g (tget msi0 (getFn b f).msi vec) := by
  have hne : { getFn b f with msi := tmod msi0 (getFn b f).msi vec g } ≠ fn0 := enabled_ne he
  rw [getFn_modFn b f _ hne]
  exact (tget_tset_of_ne msi0 _ vec vec _ hg).trans (if_pos rfl)

end

/-! ### FN_IRQCFG -/

/-- The fields that FN_IRQCFG stores (R763). -/
def irqCfgOf (v : Nat) : Word := BitVec.ofNat 64 (fld v 63 52 * 2 ^ 52 + fld v 47 16 * 2 ^ 16)

/-- A page as a write of FN_IRQCFG leaves it, whose fields are `w` with CQ_EN at `en` (R763, R764). -/
def irqStored (w : Word) (en : Bool) (n : Fn) : Fn := { n with irqCfg := w, irqA := if en && !tb n.irqCfg.toNat 63 then n.produced else n.irqA }

theorem irqStored_off (w : Word) (n : Fn) : irqStored w false n = { n with irqCfg := w } := rfl

theorem irqStored_rises (w : Word) {n : Fn} (h : tb n.irqCfg.toNat 63 = false) : irqStored w true n = { n with irqCfg := w, irqA := n.produced } := by
  simp [irqStored, h]

theorem getFn_irqStored {b : Blk} {f : Nat} (he : (getFn b f).enabled = true) (w : Word) (en : Bool) :
    getFn (modFn b f (irqStored w en)) f = irqStored w en (getFn b f) :=
  getFn_modFn b f _ (enabled_ne (n := irqStored w en (getFn b f)) he)

/-- With CQ_EN at 0 the fields are stored. -/
theorem cqSignal_irqStored_off {b : Blk} {f : Nat} (he : (getFn b f).enabled = true) {w : Word} (hw : tb w.toNat 63 = false) :
    cqSignal (modFn b f (irqStored w false)) f = modFn b f fun n => { n with irqCfg := w } := by
  rw [cqSignal_off (by rw [getFn_irqStored he]; exact hw)]
  exact modFn_congr _ _ _ _ (irqStored_off ..)

/-- The rise of CQ_EN counts every record written as signalled. -/
theorem cqSignal_irqStored_rises {b : Blk} {f : Nat} (he : (getFn b f).enabled = true) (hoff : tb (getFn b f).irqCfg.toNat 63 = false) (w : Word) :
    cqSignal (modFn b f (irqStored w true)) f = modFn b f fun n => { n with irqCfg := w, irqA := n.produced } := by
  rw [cqSignal_signalled (by rw [getFn_irqStored he, irqStored_rises w hoff])]
  exact modFn_congr _ _ _ _ (irqStored_rises w hoff)

theorem fld_top (v : Word) : fld v.toNat 63 52 = v.toNat / 4503599627370496 := by
  have hv : v.toNat < 18446744073709551616 := v.isLt
  simp only [fld, Nat.shiftRight_eq_div_pow]
  norm_num
  omega

theorem fld_count_lt (v : Nat) : fld v 47 16 < 4294967296 := by
  simp only [fld, Nat.shiftRight_eq_div_pow]
  norm_num
  omega

theorem tb_top (x : Nat) : tb x 63 = decide (x / 9223372036854775808 % 2 = 1) := by
  simp only [tb, Nat.testBit_eq_decide_div_mod_eq]

/-- The fields do not reach each other: the stored value's highest bit is CQ_EN. -/
theorem irqCfgOf_toNat (v : Word) : (irqCfgOf v.toNat).toNat = v.toNat / 4503599627370496 * 4503599627370496 + fld v.toNat 47 16 * 65536 := by
  have hlow := fld_count_lt v.toNat
  have hv : v.toNat < 18446744073709551616 := v.isLt
  simp only [irqCfgOf, fld_top, BitVec.toNat_ofNat]
  norm_num
  omega

theorem irqCfgOf_en (v : Word) : tb (irqCfgOf v.toNat).toNat 63 = tb v.toNat 63 := by
  have hlow := fld_count_lt v.toNat
  rw [irqCfgOf_toNat, tb_top, tb_top, decide_eq_decide]
  omega

theorem div_top (v : Word) : v.toNat / 2 ^ 52 = fld v.toNat 63 52 := by
  rw [fld_top]
  norm_num

theorem writeIrqcfg_eq (b : Blk) (f : Nat) (v : Word) :
    writeIrqcfg b f v.toNat = cqSignal (modFn b f (irqStored (irqCfgOf v.toNat) (tb v.toNat 63))) f := by
  unfold writeIrqcfg irqStored irqCfgOf
  rw [div_top]

/-! ### FN_MSI_ADDR -/

/-- A vector as a write of FN_MSI_ADDR leaves it (R765, R767). -/
def msiStored (v : Nat) (m : Msi) : Msi := { m with mask := tb v 63, addr := fld v 51 2 * 4, pend := m.pend && tb v 63 }

/-- The block with a vector as the write leaves it. -/
def msiWritten (b : Blk) (f vec v : Nat) : Blk := modFn b f fun n => { n with msi := tmod msi0 n.msi vec (msiStored v) }

section
variable {b : Blk} {f vec v : Nat}

theorem writeMsiAddr_quiet (h : (tget msi0 (getFn b f).msi vec).pend = false ∨ tb v 63 = true) :
    writeMsiAddr b f vec v = msiWritten b f vec v :=
  if_neg (by rcases h with h | h <;> simp [h])

theorem writeMsiAddr_signals (h : (tget msi0 (getFn b f).msi vec).pend = true) (hm : tb v 63 = false) :
    writeMsiAddr b f vec v = signalVec (msiWritten b f vec v) f vec :=
  if_pos (by simp [h, hm])

/-- A vector unmasked while it is pending: its interrupt write goes to a port in service (R767, R730). -/
theorem writeMsiAddr_writes (he : (getFn b f).enabled = true) (h : (tget msi0 (getFn b f).msi vec).pend = true) (hm : tb v 63 = false)
    (hl : b.life.fatal = 0) {p : Nat} (hp : portFrom b b.ctl.msiPort = some p) :
    writeMsiAddr b f vec v = modM (msiWritten b f vec v) p fun pt => startMem { pt with
      wrWait := pt.wrWait ++ [irqWrite f vec (msiStored v (tget msi0 (getFn b f).msi vec))] } := by
  have hvec : tget msi0 (getFn (msiWritten b f vec v) f).msi vec = msiStored v (tget msi0 (getFn b f).msi vec) :=
    tget_msi_modFn he fun e => absurd (congrArg Msi.mask e) (by simp [msiStored, hm, msi0])
  rw [writeMsiAddr_signals h hm, signalVec_writes (b := msiWritten b f vec v) (by rw [hvec]; exact hm) hl hp, hvec]

end

/-- Settles O13: FN_IRQCFG by `cqSignal_irqStored_off` and `cqSignal_irqStored_rises`, FN_MSI_ADDR by `writeMsiAddr_quiet` and `writeMsiAddr_writes`. -/
theorem vectorsAreSet : Obligations.VectorsAreSet := by
  unfold Obligations.VectorsAreSet
  intro f v s hc ho hs hf
  have he : (getFn s.b f).enabled = true := live_enabled ho.2
  have hcfg := (ctlWrite_irqcfg hf (pageOpen_of ho) v).trans (writeIrqcfg_eq s.b f v)
  refine ⟨fun hv => ?off, fun hv hoff => ?rises, fun vec hvec => ⟨fun h => ?quiet, fun h hm hl p hp => ?writes⟩⟩
  case off =>
    rw [hv] at hcfg
    exact (row_fnIrqcfg f v s).trans (actCtl_yields hc (hcfg.trans (cqSignal_irqStored_off he ((irqCfgOf_en v).trans hv))) hs)
  case rises =>
    rw [hv] at hcfg
    exact (row_fnIrqcfg f v s).trans (actCtl_yields hc (hcfg.trans (cqSignal_irqStored_rises he hoff _)) hs)
  all_goals have haddr := ctlWrite_msiAddr hf (pageOpen_of ho) hvec v
  case quiet => exact (row_fnMsiAddr f vec v s).trans (actCtl_yields hc (haddr.trans (writeMsiAddr_quiet h)) hs)
  case writes => exact (row_fnMsiAddr f vec v s).trans (actCtl_yields hc (haddr.trans (writeMsiAddr_writes he h hm hl hp)) hs)

/-! ### CQ_DELAY -/

/-- The block whose completion vector has been signalled for every record written (R764). -/
def delaySignalled (b : Blk) (f : Nat) : Blk :=
  modFn (signalVec b f (fld (getFn b f).irqCfg.toNat 62 58)) f fun n => { n with irqA := n.produced }

theorem delaySignalled_only (b : Blk) (f : Nat) : ∃ fns memp, delaySignalled b f = { b with fns := fns, memp := memp } := by
  obtain ⟨_, _, h⟩ := signalVec_only b f (fld (getFn b f).irqCfg.toNat 62 58)
  unfold delaySignalled modFn
  rw [h]
  exact ⟨_, _, rfl⟩

section
variable {b : Blk} {f : Nat} (he : (getFn b f).enabled = true)
include he

theorem getFn_delaySignalled : getFn (delaySignalled b f) f =
    { getFn (signalVec b f (fld (getFn b f).irqCfg.toNat 62 58)) f with irqA := (getFn b f).produced } := by
  have hen (vec : Nat) : (getFn (signalVec b f vec) f).enabled = true := (signalVec_keeps (·.enabled) (fun _ _ => rfl) b f vec f he).trans he
  have hproduced (vec : Nat) : (getFn (signalVec b f vec) f).produced = (getFn b f).produced :=
    signalVec_keeps (·.produced) (fun _ _ => rfl) b f vec f he
  rw [← hproduced]
  exact getFn_modFn _ f _ (enabled_ne (n := { getFn (signalVec b f _) f with irqA := _ }) (hen _))

theorem delaySignalled_pends (hm : (tget msi0 (getFn b f).msi (fld (getFn b f).irqCfg.toNat 62 58)).mask = true) :
    (tget msi0 (getFn (delaySignalled b f) f).msi (fld (getFn b f).irqCfg.toNat 62 58)).pend = true ∧ (delaySignalled b f).memp = b.memp := by
  constructor
  · rw [getFn_delaySignalled he, signalVec_masked hm]
    dsimp only
    rw [tget_msi_modFn he fun e => Bool.noConfusion (congrArg Msi.pend e)]
  · show (signalVec b f _).memp = b.memp
    rw [signalVec_masked hm]
    rfl

end

/-- Settles O31: the row leaves `delaySignalled`, where its condition holds. -/
theorem cqDelaySignals : Obligations.CqDelaySignals := by
  unfold Obligations.CqDelaySignals
  intro f s ha hs hlive n vec due
  have he : (getFn s.b f).enabled = true := live_enabled hlive
  have hrow : exec (.cqDelay f) s = act s fun b _ => if tb (getFn b f).irqCfg.toNat 63 && decide ((getFn b f).irqA < (getFn b f).produced) &&
      fld (getFn b f).irqCfg.toNat 31 16 != 0 && fnLive b f then delaySignalled b f else b := row_cqDelay f s
  refine ⟨fun hd => ⟨{ s with b := delaySignalled s.b f }, ?next, ?counted, ?frame, ?masked, ?unmasked⟩, fun hd => ?idle⟩
  case next =>
    obtain ⟨hen, hlt, hdelay⟩ := hd
    exact hrow.trans (act_yields ha (if_pos (by simp [hlive, n] at *; exact ⟨⟨hen, hlt⟩, hdelay⟩)) (signalVec_stores.trans hs))
  case counted => rw [getFn_delaySignalled he]
  case frame =>
    obtain ⟨_, _, h⟩ := delaySignalled_only s.b f
    rw [h]
  case masked => exact fun hm => delaySignalled_pends he hm
  case unmasked =>
    intro hm p hp
    show (signalVec s.b f vec).memp = _
    rw [signalVec_writes hm (alive_iff.mp (awake_alive ha)).2 hp]
    rfl
  case idle =>
    refine hrow.trans (act_nop _ hs (if_neg fun h => hd ?_))
    simp only [Bool.and_eq_true, decide_eq_true_eq, bne_iff_ne] at h
    exact ⟨h.1.1.1, h.1.1.2, h.1.2⟩

end Sys2Proof.Machine
end

section
/-!
O21: LNK_PRBS_CTL, the pattern test of a link port (R787, R788).
-/
namespace Sys2Proof.Machine

theorem ctlWrite_prbs {b : Blk} {n : Nat} (hn : n < 42) (he : portExists b n = true) (v : Word) :
    ctlWrite b (linkOff n 0x100) v = writePrbs b n v.toNat := by
  rw [ctlWrite_link b n _ v hn (by decide) (by decide)]
  unfold writeLink
  rw [if_neg (by simp [he])]
  rfl

theorem writePrbs_ignored {b : Blk} {n v : Nat} (hv : tb v 63 = true) (hoff : tb (getP b n).prbsCtl.toNat 63 = false) (he : (getP b n).enable = true) :
    writePrbs b n v = b := if_pos (by simp [hv, hoff, he])

theorem writePrbs_taken {b : Blk} {n v : Nat} (h : tb (getP b n).prbsCtl.toNat 63 = true ∨ (getP b n).enable = false) :
    writePrbs b n v = modP b n fun p => prbsPort p v := if_neg (by rcases h with h | h <;> simp [h])

/-- The stored value of LNK_PRBS_CTL while EN is 1 (R787). -/
def prbsCtlOf (v : Nat) : Word := BitVec.ofNat 64 (mk [(63, 63, 1), (62, 62, fld v 62 62), (59, 47, fld v 59 47)])

/-- A port whose pattern test is on as a write leaves it: the PHY runs, and the lanes outside LANES are idle (R788). -/
def prbsOn (v : Nat) (p : Port) : Port :=
  { p with prbsCtl := prbsCtlOf v, prbsAct := true, phyRstN := true, txei := 0x1FFF - fld v 59 47 }

section
variable {p : Port} {v : Nat} (hv : tb v 63 = true)
include hv

theorem prbsPort_rises (hoff : tb p.prbsCtl.toNat 63 = false) : prbsPort p v =
    { prbsOn v p with adaptReq := 0x1FFF, prbs := [], prbsBits := 0, inject := if tb v 61 then p.inject + 1 else p.inject } := by
  simp [prbsPort, hv, hoff, prbsOn, prbsCtlOf, b2n]

theorem prbsPort_injects (hon : tb p.prbsCtl.toNat 63 = true) (hi : tb v 61 = true) (hc : tb v 60 = false) :
    prbsPort p v = { prbsOn v p with inject := p.inject + 1 } := by
  simp [prbsPort, hv, hon, hi, hc, prbsOn, prbsCtlOf, b2n]

theorem prbsPort_clears (hon : tb p.prbsCtl.toNat 63 = true) (hi : tb v 61 = false) (hc : tb v 60 = true) :
    prbsPort p v = { prbsOn v p with prbsBits := 0, prbs := tmap checker0 (fun _ (c : Checker) => { c with err := 0 }) p.prbs } := by
  simp [prbsPort, hv, hon, hi, hc, prbsOn, prbsCtlOf, b2n]

end

/-- Settles O21: the write by `writePrbs_ignored` and `writePrbs_taken`, the port it leaves by `prbsPort_rises`, `prbsPort_injects` and
`prbsPort_clears`. -/
theorem patternTestRuns : Obligations.PatternTestRuns := by
  unfold Obligations.PatternTestRuns
  intro n v s hc hs hn hex p ctl
  have hw := ctlWrite_prbs hn hex v
  have taken {g : Port → Port} (ht : tb p.prbsCtl.toNat 63 = true ∨ p.enable = false) (hg : prbsPort p v.toNat = g p) :
      ctlWrite s.b (linkOff n 0x100) v = modP s.b n g :=
    hw.trans ((writePrbs_taken ht).trans (modP_congr s.b n _ g hg))
  refine ⟨fun hv hoff hen => ?ignored, fun hv hoff hdis => ?rises, fun hv hon hi hclr => ?injects, fun hv hon hi hclr => ?clears⟩
  case ignored => exact (row_prbsEn n v s).trans (actCtl_nop _ hs (hw.trans (writePrbs_ignored hv hoff hen)))
  case rises => exact (row_prbsEn n v s).trans (actCtl_yields hc (taken (.inr hdis) (prbsPort_rises hv hoff)) hs)
  case injects => exact (row_prbsInject n v s).trans (actCtl_yields hc (taken (.inl hon) (prbsPort_injects hv hon hi hclr)) hs)
  case clears => exact (row_prbsClr n v s).trans (actCtl_yields hc (taken (.inl hon) (prbsPort_clears hv hon hi hclr)) hs)

end Sys2Proof.Machine
end

section
/-!
O16: BLK_RESET and the block reset that it begins (R530, R685, R686, R732).
-/
namespace Sys2Proof.Machine

theorem ctlWrite_blkReset (b : Blk) (w : Word) : ctlWrite b 0x70 w = writeReset b w.toNat := rfl

/-! ### Ports that a block reset stops -/

/-- A port as a block reset leaves it: without what it held, electrically idle, and DOWN unless it is fenced. -/
def stoppedPort (p : Port) : Port :=
  idleLanes { dropHeld p with
    rekey := 0, state := if p.state == 3 then 3 else 0, phase := .reset, sleep := 0, woke := false, phyRstN := false, phyRdy := false
    sessOurs := false, sessTheirs := false, fsDone := false, fsConflict := false, msgs := [], inq := [], retryRun := 0 }

theorem endRekey_only (b : Blk) (n : Nat) : ∃ pens fns cmds dlck, endRekey b n =
    { b with pens := pens, fns := fns, cmds := cmds, dlck := dlck, ports := b.ports.modify n fun p => { p with rekey := 0 } } := by
  refine foldl_keeps (fun x : Blk => ∃ pens fns cmds dlck, x =
    { b with pens := pens, fns := fns, cmds := cmds, dlck := dlck, ports := b.ports.modify n fun p => { p with rekey := 0 } }) _ _ _ ⟨_, _, _, _, rfl⟩ ?_
  rintro x c ⟨_, _, _, _, rfl⟩
  rw [endCmd_eq]
  exact ⟨_, _, _, _, rfl⟩

theorem stopPort_only (b : Blk) (n : Nat) : ∃ pens fns cmds dlck haly, stopPort b n =
    { b with pens := pens, fns := fns, cmds := cmds, dlck := dlck, t := { b.t with haly := haly }, ports := b.ports.modify n stoppedPort } := by
  obtain ⟨pens, fns, cmds, dlck, h⟩ := endRekey_only (dropPort b n) n
  have hports : (stopPort b n).ports = b.ports.modify n stoppedPort := by
    unfold stopPort
    rw [modP_ports, endRekey_ports, dropPort_ports, List.modify_modify_eq, List.modify_modify_eq]
    rfl
  refine ⟨pens, fns, cmds, dlck, (dropPort b n).t.haly, ?_⟩
  rw [← hports]
  unfold stopPort
  rw [h]
  rfl

theorem stopPorts_only (b : Blk) (k : Nat) : ∃ pens fns cmds dlck haly, (List.range k).foldl stopPort b =
    { b with pens := pens, fns := fns, cmds := cmds, dlck := dlck, t := { b.t with haly := haly }
             ports := (List.range k).foldl (fun ps n => ps.modify n stoppedPort) b.ports } := by
  induction k with
  | zero => exact ⟨_, _, _, _, _, rfl⟩
  | succ k ih =>
    obtain ⟨_, _, _, _, _, h⟩ := ih
    rw [List.range_succ, List.foldl_append, List.foldl_append, h]
    obtain ⟨_, _, _, _, _, h'⟩ := stopPort_only _ k
    exact ⟨_, _, _, _, _, h'⟩

/-- Elements changed one after the other, below a bound. -/
theorem getD_modifyAll {α : Type} (g : α → α) (l : List α) (d : α) (k n : Nat) :
    ((List.range k).foldl (fun l i => l.modify i g) l).getD n d = if n < k ∧ n < l.length then g (l.getD n d) else l.getD n d := by
  induction k with
  | zero => simp
  | succ k ih =>
    have hlen : ((List.range k).foldl (fun l i => l.modify i g) l).length = l.length :=
      foldl_keeps (fun x : List α => x.length = l.length) _ _ _ rfl fun x i h => (List.length_modify ..).trans h
    rw [List.range_succ, List.foldl_append]
    by_cases hn : n = k
    · subst hn
      by_cases hl : n < l.length
      · rw [List.foldl_cons, List.foldl_nil, getD_modify_same _ _ _ _ (hlen.symm ▸ hl), ih, if_neg (by simp), if_pos ⟨Nat.lt_succ_self n, hl⟩]
      · rw [List.foldl_cons, List.foldl_nil, List.modify_eq_self (by omega), ih, if_neg (by simp), if_neg (by simp [hl])]
    · rw [List.foldl_cons, List.foldl_nil, getD_modify_other _ _ _ _ _ hn, ih]
      exact if_congr (by omega) rfl rfl

/-! ### The reset begins -/

/-- The block as the QUIESCE phase finds it, before its ports stop: the beat's run is noted and stopped, memory ports halt, dies are told
NOT_READY (R530, R732). -/
def quiescing (b : Blk) : Blk :=
  { b with
    life := { b.life with phase := .quiesce, lastCold := false, blockResets := satAdd b.life.blockResets 1 65535, runWas := b.beat.run }
    beat := { b.beat with run := false }
    memp := b.memp.map fun (p : MemP) => { p with halt := true, state := if p.state == 1 then 3 else p.state }
    d2d := b.d2d.map fun (d : D2d) => { d with state := if d.state == 1 then 3 else d.state }
    sectors := b.sectors.map fun (x : Sector) => { x with raiseTo := none, granted := false } }

/-- The block without a parent of its beat (R385). -/
def unsynced (b : Blk) : Blk := { b with beat := { b.beat with parent := 63, dist := 255, adopt := none } }

theorem writeReset_ignored {b : Blk} {v : Nat} (h : tb v 63 = false ∨ fld v 7 0 ≠ 0xA5 ∨ b.life.fatal ≠ 0 ∨ b.life.phase ≠ .run) :
    writeReset b v = b := if_pos (by rcases h with h | h | h | h <;> simp [h])

/-- A block reset that begins, but for pennants, functions, commands, halyards, the deadlock state and shadows, which its ports' ends may touch. -/
theorem writeReset_begins {b : Blk} {v : Nat} (hg : tb v 63 = true) (hk : fld v 7 0 = 0xA5) (hf : b.life.fatal = 0) (hr : b.life.phase = .run) :
    ∃ pens fns cmds dlck haly shadow ports, ports = (List.range 42).foldl (fun ps n => ps.modify n stoppedPort) b.ports ∧ writeReset b v =
      { quiescing b with
        pens := pens, fns := fns, cmds := cmds, dlck := dlck, shadow := shadow, t := { b.t with haly := haly }, ports := ports
        beat := relock { b.beat with run := false, parent := 63, dist := 255, adopt := none } false } := by
  have hw : writeReset b v = setLock (unsynced ((List.range 42).foldl stopPort (quiescing b))) false := by
    unfold writeReset
    rw [if_neg (by simp [hg, hk, hf, hr])]
    generalize List.range 42 = l
    rfl
  obtain ⟨pens, fns, cmds, dlck, haly, hstop⟩ := stopPorts_only (quiescing b) 42
  obtain ⟨shadow, hlock⟩ := setLock_only (unsynced ((List.range 42).foldl stopPort (quiescing b))) false
  rw [hw, hlock, hstop]
  generalize List.range 42 = l
  exact ⟨pens, fns, cmds, dlck, haly, shadow, _, rfl, rfl⟩

/-- A port that the part has not reads at its reset values, which are those of a stopped port. -/
theorem getP_stopped {b b' : Blk} (h : b'.ports = (List.range 42).foldl (fun ps n => ps.modify n stoppedPort) b.ports) {n : Nat} (hn : n < 42) :
    (getP b' n).state = (if (getP b n).state = 3 then 3 else 0) ∧ (getP b' n).txei = 0x1FFF ∧ (getP b' n).enable = (getP b n).enable := by
  unfold getP
  rw [h, getD_modifyAll]
  split
  · exact ⟨by simp [stoppedPort, idleLanes], rfl, rfl⟩
  next hout =>
    have hd : b.ports.getD n (port0 n) = port0 n := List.getD_eq_default _ _ (by omega)
    rw [hd]
    exact ⟨rfl, rfl, rfl⟩

/-- Settles O16: a write that does not count by `writeReset_ignored`, one that does by `writeReset_begins`. -/
theorem blockResetBegins : Obligations.BlockResetBegins := by
  unfold Obligations.BlockResetBegins
  intro v s hc hs
  have hw := ctlWrite_blkReset s.b v
  refine ⟨fun h => (row_blkReset v s).trans (actCtl_nop _ hs (hw.trans (writeReset_ignored h))), fun hg hk hf hr => ?begins⟩
  obtain ⟨pens, fns, cmds, dlck, haly, shadow, ports, hports, h⟩ := writeReset_begins hg hk hf hr
  obtain ⟨_, _, hlock⟩ := relock_only { s.b.beat with run := false, parent := 63, dist := 255, adopt := none } false
  rw [hlock] at h
  refine ⟨_, (row_blkReset v s).trans (actCtl_yields hc (hw.trans h) hs), rfl, rfl, rfl, rfl, rfl, fun n hn => getP_stopped hports hn, ?halts, ?dies,
    rfl, rfl, rfl, rfl, rfl, rfl, rfl, rfl⟩
  case halts =>
    rintro p hp
    obtain ⟨q, -, rfl⟩ := List.mem_map.mp hp
    refine ⟨rfl, ?_⟩
    dsimp only
    split <;> simp_all
  case dies =>
    rintro d hd
    obtain ⟨q, -, rfl⟩ := List.mem_map.mp hd
    dsimp only
    split <;> simp_all

end Sys2Proof.Machine
end

section
/-!
O60: scan mode, the TAP, TC_TAPCTL and the pattern checkers (R649, R771 to R775, R777, R780, R788, R789).
-/
namespace Sys2Proof.Machine

/-! ### Scan mode and the TAP -/

theorem actAlways_yields {s : State} {f : Blk → Tab Byte → Blk} {b : Blk} (h : f s.b s.mem = b) (hs : b.stores = []) :
    actAlways s f = .next { s with b := b } := by
  subst h
  exact congrArg Host.Outcome.next (commit_of_no_stores s _ hs)

theorem ctlWrite_tapctl (b : Blk) (w : Word) : ctlWrite b 0x1008 w = writeTapctl b w.toNat := rfl

/-- TC_TAPCTL as a write leaves it: DBG_DIS is kept once set, FLASH_REL waits for a flash access under way (R777, R780). -/
theorem writeTapctl_eq (b : Blk) (v : Nat) : writeTapctl b v = { b with test := { b.test with
    dbgDis := b.test.dbgDis || tb v 63
    flashRel := tb v 62 && (b.test.flashRel || !b.test.flashBusy), flashRelDue := tb v 62 && !b.test.flashRel && b.test.flashBusy } } := by
  unfold writeTapctl
  cases tb v 62 <;> rfl

/-- Outside scan mode CTLRD acts under its own instruction alone (R772, R774). -/
theorem tapActs_ctlrd {b : Blk} (hm : b.life.scanMode = false) : tapActs b = 8 ↔ b.test.ir = 8 := by
  by_cases h8 : b.test.ir = 8
  · simp [tapActs, h8]
  · by_cases h1 : b.test.ir = 1
    · simp [tapActs, h1]
    · simp [tapActs, h8, h1, hm]

theorem ctlrd_captures {s : State} (hc : CtlOpen s) (hs : s.b.stores = []) (h : s.b.test.ir = 8) (v : Nat) :
    exec (.ctlrd v) s = .next { s with b := { s.b with test := { s.b.test with
      capture := if s.b.test.dbgDis = true then 0 else ctlRead s.b (8 * (v % 2 ^ 21)) } } } :=
  (row_ctlrd v s).trans (actCtl_yields hc (if_neg (by simp [(tapActs_ctlrd hc.1).mpr h])) hs)

theorem ctlrd_idle {s : State} (hc : CtlOpen s) (hs : s.b.stores = []) (h : s.b.test.ir ≠ 8) (v : Nat) : exec (.ctlrd v) s = .next s :=
  (row_ctlrd v s).trans (actCtl_nop _ hs (if_pos (by simp [mt (tapActs_ctlrd hc.1).mp h])))

theorem tapctl_exec {s : State} (hc : CtlOpen s) (hs : s.b.stores = []) (v : Word) :
    actCtl s (fun b _ => ctlWrite b 0x1008 v) = .next { s with b := writeTapctl s.b v.toNat } :=
  actCtl_yields hc (ctlWrite_tapctl s.b v) hs

/-! ### Pattern checkers -/

/-- A port whose checker of a lane has received bits (R788, R789). -/
def checkedPort (lane : Nat) (bits : List Bool) (p : Port) : Port :=
  { p with
    prbs := tmod checker0 p.prbs lane fun c => bits.foldl (checkBit (tb p.prbsCtl.toNat 62)) c
    prbsBits := if (bitsSet (fld p.prbsCtl.toNat 59 47) 13).head? == some lane then min (p.prbsBits + bits.length) (2 ^ 64 - 1) else p.prbsBits }

theorem modP_same {b : Blk} {n : Nat} {g : Port → Port} (h : g (getP b n) = getP b n) : modP b n g = b := by
  rw [modP_congr b n g id h]
  unfold modP
  rw [List.modify_id]

theorem checkerFx_idle {b : Blk} {n lane : Nat} (bits : List Bool)
    (h : (getP b n).prbsAct = false ∨ tb (fld (getP b n).prbsCtl.toNat 59 47) lane = false) : checkerFx b n lane bits = b :=
  modP_same (if_pos (by rcases h with h | h <;> simp [h]))

theorem checkerFx_checks {b : Blk} {n lane : Nat} (bits : List Bool) (ha : (getP b n).prbsAct = true)
    (hl : tb (fld (getP b n).prbsCtl.toNat 59 47) lane = true) : checkerFx b n lane bits = modP b n (checkedPort lane bits) :=
  modP_congr b n _ _ (if_neg (by simp [ha, hl]))

section
variable (short : Bool) (c : Checker) (x : Bool)

/-- An unlocked checker counts no error, and locks with the 128th correct bit in a row. -/
theorem checkBit_unlocked (h : c.lock = false) : (checkBit short c x).err = c.err ∧
    ((checkBit short c x).lock = true ↔ c.hist.length = (if short = true then 13 else 31) ∧ x = prbsNext short c.hist ∧ 128 ≤ c.run + 1) := by
  unfold checkBit
  extract_lets k want aged win err good run
  rw [if_neg (by simp [h])]
  refine ⟨rfl, ?_⟩
  by_cases hg : good = true
  · have hg' := hg
    simp only [good, Bool.and_eq_true, beq_iff_eq] at hg'
    simp [run, hg, hg'.1, hg'.2, k, want]
  · have hg' := hg
    simp only [good, Bool.and_eq_true, beq_iff_eq] at hg'
    simp only [run, if_neg hg, decide_eq_true_eq]
    exact iff_of_false (by decide) fun e => hg' ⟨e.1, e.2.1⟩

/-- A locked checker counts each wrong bit, and unlocks at 64 of them among the last 1,024. -/
theorem checkBit_locked (h : c.lock = true) :
    (checkBit short c x).err = (if x = prbsNext short c.hist then c.err else min (c.err + 1) (2 ^ 64 - 1)) ∧
    ((checkBit short c x).lock = false ↔
      64 ≤ ((c.win.map (· + 1)).filter fun a => decide (a < 1024)).length + (if x = prbsNext short c.hist then 0 else 1)) := by
  unfold checkBit
  extract_lets k want aged win err good run
  have herr : err = if x = prbsNext short c.hist then c.err else min (c.err + 1) (2 ^ 64 - 1) := by simp [err, want]
  have hwin : win.length = aged.length + (if x = prbsNext short c.hist then 0 else 1) := by
    simp only [win, want, beq_iff_eq]
    split <;> rfl
  rw [if_pos h, ← hwin]
  split
  next hmany => exact ⟨herr, iff_of_true rfl hmany⟩
  next hfew => exact ⟨herr, iff_of_false (by simp [h]) hfew⟩

end

/-- Settles O60: scan mode and the TAP's events as they are, TC_TAPCTL by `writeTapctl_eq`, CTLRD by `ctlrd_captures` and `ctlrd_idle`, the
checkers by `checkerFx_idle` and `checkerFx_checks`, and one bit by `checkBit_unlocked` and `checkBit_locked`. -/
theorem testAccessWorks : Obligations.TestAccessWorks := by
  unfold Obligations.TestAccessWorks
  intro s hs
  refine ⟨⟨_, (row_scanMode s).trans (actAlways_yields rfl hs), rfl, rfl, ?ports, ?dies, rfl, rfl, rfl, rfl, rfl⟩,
    (row_tapReset s).trans (actAlways_yields rfl hs), fun ir => (row_tapInstruction ir s).trans (actAlways_yields rfl hs), fun hc v => ?tapctl,
    fun hc v => ⟨fun h => ctlrd_captures hc hs h v, fun h => ctlrd_idle hc hs h v⟩, fun ha n lane bits hn => ?checker⟩
  case ports =>
    intro p hp
    obtain ⟨q, -, rfl⟩ := List.mem_map.mp hp
    exact ⟨rfl, rfl, rfl, rfl⟩
  case dies =>
    intro d hd
    obtain ⟨q, -, rfl⟩ := List.mem_map.mp hd
    rfl
  case tapctl =>
    have h := (tapctl_exec hc hs v).trans (by rw [writeTapctl_eq])
    exact ⟨(row_dbgDis v s).trans h, (row_flashRel v s).trans h⟩
  case checker =>
    intro p lanes short old
    refine ⟨fun h => (row_prbsChecker n lane bits s).trans (actLive_nop _ hs (checkerFx_idle bits h)), fun hact hl => ?_⟩
    have hport : getP (modP s.b n (checkedPort lane bits)) n = checkedPort lane bits p := getP_modP_same s.b _ hn
    refine ⟨_, (row_prbsChecker n lane bits s).trans (actLive_yields ha (checkerFx_checks bits hact hl) hs), rfl, fun k hk => ?other, ?frame, fun k hk => ?lanes,
      fun x hx hwf => ?bit⟩
    case other => exact getD_modify_other _ _ _ _ _ hk
    case frame => rw [hport]; rfl
    case lanes => rw [hport]; exact tget_tmod_other checker0 p.prbs lane k (fun c => bits.foldl (checkBit short) c) hk
    case bit =>
      have hnew : tget checker0 (checkedPort lane bits p).prbs lane = checkBit short old x := by
        rw [hx]
        exact (tget_tmod checker0 p.prbs lane lane (fun c => [x].foldl (checkBit short) c) hwf).trans (if_pos rfl)
      rw [hport, hnew]
      exact ⟨checkBit_unlocked short old x, checkBit_locked short old x⟩

end Sys2Proof.Machine
end

section
/-!
O41: key handshakes of link ports, and updates of routes with their drain (R343, R366, R370 to R372, R579, R638).
-/
namespace Sys2Proof.Machine

/-! ### Key handshakes -/

theorem getP_modP_cases (b : Blk) (n : Nat) (g : Port → Port) : getP (modP b n g) n = g (getP b n) ∨ getP (modP b n g) n = getP b n := by
  by_cases hn : n < b.ports.length
  · exact .inl (getP_modP_same b g hn)
  · exact .inr (getP_congr (List.modify_eq_self (Nat.le_of_not_lt hn)) n)

/-- Rousing a port leaves its state and what it keeps for replay. -/
theorem rouse_keeps (p : Port) : (rouse p).state = p.state ∧ (rouse p).replay = p.replay := by
  unfold rouse
  split <;> exact ⟨rfl, rfl⟩

theorem quiet_waits {b : Blk} {n : Nat} (h : (getP b n).replay ≠ [] ∨ (getP b n).state ≠ 2) : quiet b n = b :=
  if_pos (by rcases h with h | h <;> simp [h])

section
variable {b : Blk} {c : Cmd} {kind : Nat} (hk : pf c 0 1 = kind)
include hk

theorem rekeyFx_rejects (h : portExists b (fld (pf c 1 1) 5 0) = false ∨ (getP b (keyPort b c)).enable = false) :
    rekeyFx b c kind = endCmd b c.id 0x61 0 := by
  unfold rekeyFx
  extract_lets code n p
  rw [if_neg (by simp [hk]), if_pos (by rcases h with h | h <;> simp [code, p, n, h])]

variable (he : portExists b (fld (pf c 1 1) 5 0) = true) (hen : (getP b (keyPort b c)).enable = true)
include he hen

theorem rekeyFx_fenced (h : (getP b (keyPort b c)).state = 3) : rekeyFx b c kind = endCmd b c.id 0 (getP b (keyPort b c)).keyEpoch := by
  unfold rekeyFx
  extract_lets code n p
  rw [if_neg (by simp [hk]), if_neg (by simp [code, p, n, he, hen]), if_pos (by simp [p, n, h])]

/-- A port with frames to be acknowledged, or not UP, notes what it is to repeat, and wakes (R638). -/
theorem rekeyFx_waits (h3 : (getP b (keyPort b c)).state ≠ 3) (ht : (getP b (keyPort b c)).trained = false)
    (h : (getP b (keyPort b c)).replay ≠ [] ∨ (getP b (keyPort b c)).state ≠ 2) :
    rekeyFx b c kind = modP b (keyPort b c) fun p => rouse { p with rekey := kind } := by
  unfold rekeyFx
  extract_lets code n p
  rw [if_neg (by simp [hk]), if_neg (by simp [code, p, n, he, hen]), if_neg (by simp [p, n, h3]), if_neg (by simp [p, n, ht])]
  refine quiet_waits ?_
  obtain hg | hg := getP_modP_cases b n fun p => rouse { p with rekey := kind }
  · rw [hg, (rouse_keeps _).1, (rouse_keeps _).2]
    exact h
  · rw [hg]
    exact h

end

/-- The rows of the two key handshakes run `rekeyFx` under their numbers. -/
theorem rekey_runs {s : State} {id : CmdId} {c : Cmd} (ha : awake s.b = true) (hr : RunsNow s.b id 0x8C c) {row : (CmdId → Instr) × Nat}
    (hrow : row ∈ ([(.linkSession, 1), (.linkRekey, 2)] : List ((CmdId → Instr) × Nat))) :
    exec (row.1 id) s = .next (commit s (rekeyFx s.b c row.2)) := by
  have hx : exec (row.1 id) s = act s fun b _ => onRun b id 0x8C fun c => rekeyFx b c row.2 := by
    simp only [List.mem_cons, List.not_mem_nil, or_false] at hrow
    rcases hrow with rfl | rfl
    · exact row_linkSession id s
    · exact row_linkRekey id s
  rw [hx, act_awake ha, onRun_runs hr (awake_run ha)]

/-! ### ROUTE_UPDATE -/

/-- The counts and the time limit of a ROUTE_UPDATE that R579 allows. -/
def RouteCounts (c : Cmd) : Prop := pf c 8 4 ≤ 65536 ∧ pf c 12 2 ≤ 1024 ∧ pf c 14 2 ≠ 0

/-- Entries that may come into force: each destination and each domain once, with valid paths and masks (R343, R366). -/
abbrev RouteEntries (b : Blk) (rs : List (Nat × Nat)) (ds : List (Nat × List Nat)) : Prop :=
  (rs.map (·.1)).Nodup ∧ (ds.map (·.1)).Nodup ∧ (∀ r ∈ rs, r.1 ≠ selfEp b → routeOk b r.2 = true) ∧ ∀ d ∈ ds, d.1 < 1024 ∧ domainOk d.2 = true

theorem routeEntries_iff (b : Blk) (rs : List (Nat × Nat)) (ds : List (Nat × List Nat)) :
    (!decide ((rs.map (·.1)).Nodup) || !decide ((ds.map (·.1)).Nodup) || (rs.any fun r => r.1 != selfEp b && !routeOk b r.2) ||
      (ds.any fun d => decide (1024 ≤ d.1) || !domainOk d.2)) = false ↔ RouteEntries b rs ds := by
  simp [RouteEntries, and_assoc]

section
variable {b : Blk} {c : Cmd} (m : Tab Byte)

theorem routeFx_empty (h : pf c 8 4 = 0 ∧ pf c 12 2 = 0) : routeFx b m c none = endCmd b c.id 0 0 := if_pos (by simp [h])

variable (h0 : ¬ (pf c 8 4 = 0 ∧ pf c 12 2 = 0))
include h0

theorem routeFx_badCounts (h : ¬ RouteCounts c) : routeFx b m c none = endCmd b c.id 0x61 0 := by
  have hbad : (decide (65536 < pf c 8 4) || decide (1024 < pf c 12 2) || pf c 14 2 == 0) = true := by
    simp only [Bool.or_eq_true, decide_eq_true_eq, beq_iff_eq]
    unfold RouteCounts at h
    omega
  unfold routeFx
  rw [if_neg (by simpa using h0), if_pos hbad]

variable (hc : RouteCounts c)
include hc

/-- With legal counts a ROUTE_UPDATE waits for a drain under way, or reads its entries. -/
theorem routeFx_counted : routeFx b m c none = if b.fab.drain.isSome then b else
    if RouteEntries b (ruRoutes b m c) (ruDomains b m c)
    then { b with fab := { b.fab with drain := some (ruDrain b c (ruRoutes b m c) (ruDomains b m c)) } } else endCmd b c.id 0x61 0 := by
  obtain ⟨hr, hd, ht⟩ := hc
  unfold routeFx
  rw [if_neg (by simpa using h0), if_neg (by simp [ht]; omega)]
  refine if_congr Iff.rfl rfl ?_
  dsimp only
  rw [← ite_not]
  refine if_congr ?_ rfl rfl
  rw [← routeEntries_iff, Bool.not_eq_true]

end

theorem routeUpdate_runs {s : State} {id : CmdId} {c : Cmd} (ha : awake s.b = true) (hr : RunsNow s.b id 0x89 c)
    (hd : ∀ d, s.b.fab.drain = some d → d.cmd ≠ id) : exec (.routeUpdate id none) s = .next (commit s (routeFx s.b s.mem c none)) := by
  rw [row_routeUpdate, act_awake ha, onRun_runs hr (awake_run ha)]
  split
  next d h => rw [if_neg (hd d h)]
  next => rfl

/-! ### The drain -/

/-- A change staged with its APPLIED record issued; what is stored and the fabric stay (R527). -/
theorem stage_stages {b : Blk} {c : Cmd} (hf : findCmd b c.id = some c) (result : Nat) (held : List Nat) :
    StagedWith b (stage b c result held) c.id result held ∧ (stage b c result held).stores = b.stores ∧ (stage b c result held).fab = b.fab := by
  unfold stage
  extract_lets n b1 b2
  obtain ⟨memp, h1⟩ : ∃ memp, b1 = modFn { b with memp := memp } c.id.f fun n => { n with head := n.head + _, moved := true } := issueLog_only ..
  have hb1 : b1.staged = b.staged ∧ b1.stores = b.stores ∧ b1.fab = b.fab ∧ findCmd b1 c.id = some c := by
    rw [h1]
    exact ⟨rfl, rfl, rfl, hf⟩
  obtain ⟨hstaged, hstores, hfab, hfind⟩ := hb1
  clear_value b1
  have h2 : findCmd b2 c.id = some { c with applied := some n.head, result, prog := some { lsn := n.head, sub := 2, a := 0, w := [result, beatNow b1] } } :=
    findCmd_modCmd_same (b := b1) _ (fun _ => rfl) hfind
  refine ⟨⟨?_, _, h2, rfl, rfl⟩, hstores, hfab⟩
  show b1.staged ++ _ = _
  rw [hstaged]

theorem StagedWith.congr {b x y : Blk} {id : CmdId} {r : Nat} {held : List Nat} (h : StagedWith b x id r held) (hs : y.staged = x.staged)
    (hc : y.cmds = x.cmds) : StagedWith b y id r held := by
  obtain ⟨hstaged, c, hfind, hrest⟩ := h
  exact ⟨hs.trans hstaged, c, (findCmd_congr id hc).trans hfind, hrest⟩

/-- A drain that is over changes the block as staging does, and the drain. -/
theorem drainOver_eq (b : Blk) (c : Cmd) (d : Drain) (bits : Nat) : drainOver b c d bits =
    { stage b c (bits + mk [(47, 32, beatNow b - d.since)]) [] with
      fab := { (stage b c (bits + mk [(47, 32, beatNow b - d.since)]) []).fab with drain := some { d with drainOff := true } } } := rfl

section
variable {s : State} {id : CmdId} {c : Cmd} (hr : RunsNow s.b id 0x89 c)
include hr

/-- A drain that is over stages its command's change with its beats. -/
theorem drainOver_stages (hs : s.b.stores = []) {i : Instr} {d : Drain} {bits : Nat} (h : exec i s = .next (commit s (drainOver s.b c d bits))) :
    ∃ t, exec i s = .next t ∧ StagedWith s.b t.b id (bits + mk [(47, 32, beatNow s.b - d.since)]) [] ∧
      t.b.fab = { s.b.fab with drain := some { d with drainOff := true } } ∧ t.mem = s.mem := by
  obtain rfl := findCmd_id hr.1
  obtain ⟨hstaged, hstores, hfab⟩ := stage_stages hr.1 (bits + mk [(47, 32, beatNow s.b - d.since)]) []
  rw [drainOver_eq, hfab] at h
  generalize stage s.b c (bits + mk [(47, 32, beatNow s.b - d.since)]) [] = x at h hstaged hstores
  refine ⟨_, h, StagedWith.congr hstaged rfl rfl, rfl, ?_⟩
  rw [commit_mem, hstores, hs]
  rfl

/-- A drain that has timed out without FORCE ends its command ABORTED (R371). -/
theorem drainTimeout_aborts {i : Instr} {r : Nat} (h : exec i s = .next (commit s (endCmd (endDrain s.b id) id 0x10 r))) :
    ∃ t, exec i s = .next t ∧ EndedWith t.b id 0x10 r := by
  obtain ⟨hf, hp, -⟩ := hr
  exact ⟨_, h, EndedWith.of_cmds (endCmd_endedWith 0x10 r ((findCmd_congr id (endDrain_cmds s.b id)).trans hf) (by rw [hp]; decide)) rfl⟩

variable (ha : awake s.b = true) {d : Drain} (hd : s.b.fab.drain = some d)
include ha hd

theorem routeDrainDone_decides : exec (.routeDrainDone id) s = .next (commit s
    (if d.cmd = id && !d.drainOff && drained s.b d then drainOver s.b c d 0 else s.b)) := by
  rw [row_routeDrainDone, act_awake ha, onRun_runs hr (awake_run ha), hd]

theorem drainTimeout_decides : exec (.drainTimeout id) s = .next (commit s
    (if d.cmd = id && !d.drainOff && decide (d.since + pf c 14 2 ≤ beatNow s.b) && !drained s.b d then
      if tb (pf c 16 1) 0 then drainOver s.b c d 3 else endCmd (endDrain s.b id) id 0x10 (1 + mk [(47, 32, beatNow s.b - d.since)])
    else s.b)) := by
  rw [row_drainTimeout, act_awake ha, onRun_runs hr (awake_run ha), hd]

end

/-- Settles O41: the handshakes by `rekeyFx_rejects`, `rekeyFx_fenced` and `rekeyFx_waits`, ROUTE_UPDATE by `routeFx` in each case, its drain by
`drainOver_stages` and `drainTimeout_aborts`. -/
theorem linksAndRoutesAreManaged : Obligations.LinksAndRoutesAreManaged := by
  unfold Obligations.LinksAndRoutesAreManaged
  intro id c s ha hs hw ends
  have ended {i : Instr} {st r op : Nat} (hr : RunsNow s.b id op c) (h : exec i s = .next (commit s (endCmd s.b c.id st r))) : ends i st r := by
    obtain rfl := findCmd_id hr.1
    exact ends_unwritten hr.1 (by rw [hr.2.1]; decide) hs rfl h
  refine ⟨fun row hrow hr hk => ?handshake, fun hr hd => ?update, fun d hr hd hid hoff => ?drain⟩
  case handshake =>
    intro code n p
    have hrun := rekey_runs ha hr hrow
    refine ⟨fun h => ended hr (hrun.trans (by rw [rekeyFx_rejects hk h])), fun he hen h3 => ended hr (hrun.trans (by rw [rekeyFx_fenced hk he hen h3])),
      fun he hen h3 ht h => ?_⟩
    rw [hrun, rekeyFx_waits hk he hen h3 ht h]
    exact congrArg Host.Outcome.next (commit_of_no_stores s _ hs)
  case update =>
    intro rs ds counts entries
    have hrun := routeUpdate_runs ha hr hd
    refine ⟨fun h => ended hr (hrun.trans (by rw [routeFx_empty _ h])), fun h0 hc => ended hr (hrun.trans (by rw [routeFx_badCounts _ h0 hc])),
      fun h0 hc hdr => ?waits, fun h0 hc hdr hbad => ?rejects, fun h0 hc hdr hok => ?begins⟩
    case waits => rw [hrun, routeFx_counted _ h0 hc, if_pos hdr, commit_id s hs]
    case rejects => exact ended hr (hrun.trans (by rw [routeFx_counted _ h0 hc, if_neg (by simp [hdr]), if_neg hbad]))
    case begins =>
      rw [hrun, routeFx_counted _ h0 hc, if_neg (by simp [hdr]), if_pos hok]
      exact congrArg Host.Outcome.next (commit_of_no_stores s _ hs)
  case drain =>
    intro beats endsWith
    have hdone := routeDrainDone_decides hr ha hd
    have htime := drainTimeout_decides hr ha hd
    refine ⟨fun h => ?finished, fun h => ?goesOn, fun hlate h => ⟨fun hforce => ?forced, fun hforce => ?aborted⟩, fun hearly => ?early⟩
    case finished => exact drainOver_stages hr hs (hdone.trans (by rw [if_pos (by simp [hid, hoff, h])]))
    case goesOn => rw [hdone, if_neg (by simp [h]), commit_id s hs]
    case forced => exact drainOver_stages hr hs (htime.trans (by rw [if_pos (by simp [hid, hoff, h, hlate]), if_pos hforce]))
    case aborted => exact drainTimeout_aborts hr (htime.trans (by rw [if_pos (by simp [hid, hoff, h, hlate]), if_neg (by simp [hforce])]))
    case early => rw [htime, if_neg (by simp; omega), commit_id s hs]

end Sys2Proof.Machine
end

section
/-!
SUPPORT for the memory ports: what starting requests, events and fences leave of them, invalidations that wait for nothing, and commands whose
accesses fail (R584, R611, R725, R728 to R732).
-/
namespace Sys2Proof.Machine

/-! ### One port -/

theorem getM_congr {b b' : Blk} (h : b'.memp = b.memp) (m : Nat) : getM b' m = getM b m := by unfold getM; rw [h]

theorem getM_modM_same {b : Blk} {m : Nat} (g : MemP → MemP) (h : m < b.memp.length) : getM (modM b m g) m = g (getM b m) :=
  getD_modify_same _ _ _ _ h

theorem getM_modM_other (b : Blk) {m k : Nat} (g : MemP → MemP) (h : k ≠ m) : getM (modM b m g) k = getM b k :=
  getD_modify_other _ _ _ _ _ h

theorem getM_modM_cases (b : Blk) (m k : Nat) (g : MemP → MemP) : getM (modM b m g) k = g (getM b k) ∨ getM (modM b m g) k = getM b k := by
  by_cases hk : k = m
  · subst hk
    by_cases hl : k < b.memp.length
    · exact .inl (getM_modM_same g hl)
    · exact .inr (getM_congr (List.modify_eq_self (Nat.le_of_not_lt hl)) k)
  · exact .inr (getM_modM_other b g hk)

theorem modM_modM (b : Blk) (m : Nat) (g h : MemP → MemP) : modM (modM b m g) m h = modM b m fun p => h (g p) := by
  unfold modM; dsimp only; rw [List.modify_modify_eq]; rfl

/-- What holds of each port holds of each after a change of one that keeps it. -/
theorem forall_modM {P : MemP → Prop} {b : Blk} (h : ∀ q ∈ b.memp, P q) (m : Nat) {g : MemP → MemP} (hg : ∀ q, P q → P (g q)) :
    ∀ q ∈ (modM b m g).memp, P q := by
  intro q hq
  obtain ⟨i, hi⟩ := List.mem_iff_getElem?.mp hq
  rw [modM_memp, List.getElem?_modify] at hi
  obtain ⟨p, hp, hpq⟩ := Option.map_eq_some_iff.mp hi
  have hmem := h p (List.mem_of_getElem? hp)
  split at hpq
  · exact hpq ▸ hg p hmem
  · exact hpq ▸ hmem

theorem getM_mem {b : Blk} {m : Nat} (h : m < b.memp.length) : getM b m ∈ b.memp := by
  unfold getM
  rw [List.getD_eq_getElem _ _ h]
  exact List.getElem_mem h

/-- Requests that go out leave what the port has to do with halts and invalidations (R725). -/
theorem startMem_invals (p : MemP) : (startMem p).invals = p.invals := by
  have hr : (startReads p).invals = p.invals :=
    foldl_keeps (fun x : MemP => x.invals = p.invals) _ _ _ rfl fun x r hx => by split <;> exact hx
  have hw : (startWrites (startReads p)).invals = p.invals :=
    foldl_keeps (fun x : MemP => x.invals = p.invals) _ _ _ hr fun x r hx => by split <;> exact hx
  exact foldl_keeps (fun x : MemP => x.invals = p.invals) _ _ _ hw fun x r hx => by split <;> exact hx

/-! ### Events leave the ports' states -/

/-- Every port is in the state in which it was, halted or not. -/
def KeepsHalts (b b' : Blk) : Prop := ∀ m, (getM b' m).state = (getM b m).state ∧ (getM b' m).halt = (getM b m).halt

namespace KeepsHalts

theorem same {b b' : Blk} (h : b'.memp = b.memp) : KeepsHalts b b' := fun m => by rw [getM_congr h]; exact ⟨rfl, rfl⟩

theorem trans {b b' b'' : Blk} (h : KeepsHalts b b') (h' : KeepsHalts b' b'') : KeepsHalts b b'' :=
  fun m => ⟨(h' m).1.trans (h m).1, (h' m).2.trans (h m).2⟩

theorem modM (b : Blk) (m : Nat) {g : MemP → MemP} (hg : ∀ p, (g p).state = p.state ∧ (g p).halt = p.halt) : KeepsHalts b (modM b m g) := by
  intro k
  obtain h | h := getM_modM_cases b m k g
  · rw [h]; exact hg _
  · rw [h]; exact ⟨rfl, rfl⟩

theorem signalVec (b : Blk) (f v : Nat) : KeepsHalts b (signalVec b f v) := by
  unfold Machine.signalVec
  extract_lets x
  split
  · exact same rfl
  · split
    · exact modM b _ fun p => startMem_halt _
    · exact same rfl

theorem eventIn (b : Blk) (f code q info a0 a1 : Nat) : KeepsHalts b (eventIn b f code q info a0 a1).1 := by
  unfold Machine.eventIn
  extract_lets n phase w0 b1 b2
  have h2 : KeepsHalts b b2 := same (by simp only [b2, b1, modFn_memp]; rw [fnStore_eq])
  split
  · exact same rfl
  · split
    · exact same rfl
    · dsimp only
      split
      · exact h2.trans (signalVec _ _ _)
      · exact h2

theorem event (b : Blk) (f code q info a0 a1 : Nat) : KeepsHalts b (event b f code q info a0 a1) := by
  have h1 := eventIn b f code q info a0 a1
  unfold Machine.event
  generalize Machine.eventIn b f code q info a0 a1 = e at h1 ⊢
  obtain ⟨b1, first⟩ := e
  dsimp only at h1 ⊢
  split
  · exact h1.trans (eventIn _ _ _ _ _ _ _)
  · exact h1

theorem unitFenced (b : Blk) (kind cause idx sub : Nat) : KeepsHalts b (unitFenced b kind cause idx sub) := event _ _ _ _ _ _ _

theorem setFatal (b : Blk) (cause : Nat) : KeepsHalts b (setFatal b cause) := by
  obtain ⟨_, _, _, h⟩ := setFatal_only b cause
  rw [h]
  exact same rfl

end KeepsHalts

/-- A port fenced is FENCED and halts (R611, R732). -/
theorem fenceMem_fences {b : Blk} {m : Nat} (cause : Nat) (hm : m < 16) (hl : m < b.memp.length) (hs : (getM b m).state ≠ 2) :
    (getM (fenceMem b m cause) m).state = 2 ∧ (getM (fenceMem b m cause) m).halt = true := by
  unfold fenceMem
  rw [if_neg (by simp [memFenced, hs]; omega)]
  extract_lets b1 b2
  have h1 : (getM b1 m).state = 2 ∧ (getM b1 m).halt = true := by rw [getM_modM_same _ hl]; exact ⟨rfl, rfl⟩
  have h2 : KeepsHalts b1 b2 := .unitFenced _ _ _ _ _
  have h3 : KeepsHalts b1 (if b2.memp.all (·.state == 2) then setFatal b2 0 else b2) := by
    split
    · exact h2.trans (.setFatal _ _)
    · exact h2
  exact ⟨(h3 m).1.trans h1.1, (h3 m).2.trans h1.2⟩

/-! ### Invalidations (R729) -/

/-- A port whose invalidations that nothing uses any more are answered. -/
def answeredPort (b : Blk) (p : MemP) : MemP :=
  { p with
    done := p.done ++ (p.invals.filter fun v => !(v.2.any (inRange b))).map (·.1)
    invals := p.invals.filter fun v => !(!(v.2.any (inRange b))) }

theorem answerInvals_eq (b : Blk) : answerInvals b = { b with memp := b.memp.map (answeredPort b) } := rfl

/-- With no invalidation to be answered nothing changes. -/
theorem answerInvals_quiet {b : Blk} (h : ∀ q ∈ b.memp, q.invals = []) : answerInvals b = b := by
  have hmap : b.memp.map (answeredPort b) = b.memp := by
    refine (List.map_congr_left fun q hq => ?_).trans (List.map_id _)
    obtain ⟨_, _, _, _, _, _, _, _, _, _, invals, done, _, _, _⟩ := q
    obtain rfl : invals = [] := h _ hq
    simp [answeredPort]
  rw [answerInvals_eq, hmap]

/-- A port changed by starting its requests, where no invalidation waits. -/
theorem answerInvals_modM {b : Blk} (h : ∀ q ∈ b.memp, q.invals = []) (m : Nat) {g : MemP → MemP} (hg : ∀ q, (g q).invals = q.invals) :
    answerInvals (modM b m g) = modM b m g := answerInvals_quiet (forall_modM h m fun q hq => (hg q).trans hq)

theorem inRange_none {b : Blk} (h : ∀ q ∈ b.memp, q.reads = [] ∧ q.rdWait = [] ∧ q.writes = [] ∧ q.wrWait = []) (r : Nat × Nat) : inRange b r = false := by
  unfold inRange
  simp only [List.any_eq_false]
  intro q hq
  obtain ⟨h1, h2, h3, h4⟩ := h q hq
  simp [h1, h2, h3, h4]

/-- With no request in its way every invalidation is answered. -/
theorem answeredPort_free {b : Blk} (h : ∀ r, inRange b r = false) (p : MemP) :
    answeredPort b p = { p with done := p.done ++ p.invals.map (·.1), invals := [] } := by
  have hany (l : List (Nat × Nat)) : l.any (inRange b) = false := by simp [List.any_eq_false, h]
  simp [answeredPort, hany]

/-! ### Accesses that fail (R584) -/

/-- The failure of a running command's access ends it. -/
theorem useFail_ends {b : Blk} {id : CmdId} {c : Cmd} (k : AccErr) (space va : Nat) (hc : findCmd b id = some c) (hp : c.phase = .running)
    (hf : (getFn b id.f).fenced = false) : ∃ r, EndedWith (useFail b (.cmd id space va) k) id (faultStatus k) r := by
  show ∃ r, EndedWith (useFailCmd b id k space va) id (faultStatus k) r
  unfold useFailCmd withCmd
  rw [hc]
  dsimp only
  rw [if_pos (by simp [hp, hf])]
  exact accessEnd_endedWith _ hc hp

/-- Bytes stored one after the other. -/
theorem foldl_store (l : List (Nat × List Byte)) (b : Blk) : l.foldl (fun b r => store b r.1 r.2) b = { b with stores := b.stores ++ l } := by
  induction l generalizing b with
  | nil => rw [List.append_nil]; rfl
  | cons r l ih => rw [List.foldl_cons, ih, store_stores, List.append_assoc]; rfl

end Sys2Proof.Machine
end

section
/-!
O57: the answers of memory ports, their invalidations, credits, time limits and halts (R723 to R732).
-/
namespace Sys2Proof.Machine

/-! ### Effects that end a command, fence a port, or change the block as computed -/

/-- A port error at a port in service fences it (R609, R728). -/
theorem protocolError_fences {s : State} {i : Instr} {m : Nat} (hm : m < 16) (hl : m < s.b.memp.length) (hs : (getM s.b m).state ≠ 2)
    (h : exec i s = .next (commit s (protocolError s.b m))) : ∃ t, exec i s = .next t ∧ (getM t.b m).state = 2 ∧ (getM t.b m).halt = true :=
  ⟨_, h, fenceMem_fences 3 hm hl hs⟩

/-- A row that ends in a failed access of a running command ends that command, whatever invalidations are answered then. -/
theorem useFail_endsRow {s : State} {i : Instr} {id : CmdId} {c : Cmd} {space va : Nat} {b : Blk} (k : AccErr)
    (hrun : findCmd s.b id = some c ∧ c.phase = .running ∧ (getFn s.b id.f).fenced = false) (hc : b.cmds = s.b.cmds) (hf : b.fns = s.b.fns) {fx : Blk}
    {u : MUse} (hu : u = .cmd id space va) (hfx : fx = useFail b u k ∨ fx = answerInvals (useFail b u k)) (h : exec i s = .next (commit s fx)) :
    ∃ t r, exec i s = .next t ∧ EndedWith t.b id (faultStatus k) r := by
  obtain ⟨hfind, hp, hfenced⟩ := hrun
  have hfenced' : (getFn b id.f).fenced = false := by unfold getFn at hfenced ⊢; rw [hf]; exact hfenced
  obtain ⟨r, hend⟩ := useFail_ends k space va ((findCmd_congr id hc).trans hfind) hp hfenced'
  subst hu
  rcases hfx with rfl | rfl
  · exact ⟨_, r, h, EndedWith.of_cmds hend rfl⟩
  · exact ⟨_, r, h, EndedWith.of_cmds hend rfl⟩

/-- A row that stores bytes and changes nothing else of what `b` says. -/
theorem commit_bytes {s : State} {b : Blk} (hb : b.stores = []) (l : List (Nat × List Byte)) :
    commit s { b with stores := l } = { s with b, mem := applyStores s.mem l } := by
  have : { b with stores := [] } = b := by rw [← hb]
  unfold commit
  rw [this]

/-- A port gives up a request that has its answer, and starts what waits. -/
def freed (b : Blk) (m : Nat) (g : MemP → MemP) : Blk := modM b m fun q => startMem (g q)

theorem answerInvals_freed {b : Blk} (h : ∀ q ∈ b.memp, q.invals = []) (m : Nat) {g : MemP → MemP} (hg : ∀ q, (g q).invals = q.invals) :
    answerInvals (freed b m g) = freed b m g := answerInvals_modM h m fun q => (startMem_invals _).trans (hg q)

/-! ### READ_DATA -/

section
variable {b : Blk} {m tag : Nat}

/-- The port without a read. -/
def readFreed (b : Blk) (m : Nat) (r : MRd) : Blk := freed b m fun q => { q with reads := q.reads.erase r }

theorem readDataFx_unasked (stat : Nat) (bytes : List Byte) (h : ∀ r ∈ (getM b m).reads, r.tag ≠ tag) :
    readDataFx b m tag stat bytes = protocolError b m := by
  unfold readDataFx
  rw [List.find?_eq_none.mpr fun r hr => by simpa using h r hr]

variable {r : MRd} (hr : ((getM b m).reads.find? fun r => r.tag == tag) = some r) {bytes : List Byte}
include hr

theorem readDataFx_fails {stat : Nat} (h : stat ≠ 0) : readDataFx b m tag stat bytes = answerInvals (useFail (answerErr (readFreed b m r) m) r.use .error) := by
  unfold readDataFx
  rw [hr]
  dsimp only
  rw [if_pos (by simp [h])]
  rfl

variable (hq : ∀ q ∈ b.memp, q.invals = []) (hl : bytes.length = 64 * r.lines)
include hq hl

theorem readDataFx_cmd {id : CmdId} {sp va : Nat} (hu : r.use = .cmd id sp va) : readDataFx b m tag 0 bytes = readFreed b m r := by
  unfold readDataFx
  rw [hr]
  dsimp only
  rw [if_neg (by decide), if_neg (by simp [hl]), hu]
  exact answerInvals_freed hq m fun _ => rfl

/-- Data for a die's read is its response (R717, R719). -/
theorem readDataFx_die {p n : Nat} (hu : r.use = .die p n) {a : DAcc} (ha : ((getD2 b p).accs.find? fun a => a.n == n) = some a) (hw : a.wr = false) :
    readDataFx b m tag 0 bytes = dSend (modD2 (readFreed b m r) p fun d => { d with accs := d.accs.filter fun a => a.n != n }) p
      { type := 8, flags := 0, fn := a.f, tag := a.tag, arg := 0, body := bytes } := by
  have hanswer : answerDie (readFreed b m r) p n 0 bytes =
      dSend (modD2 (readFreed b m r) p fun d => { d with accs := d.accs.filter fun a => a.n != n }) p
        { type := 8, flags := 0, fn := a.f, tag := a.tag, arg := 0, body := bytes } := by
    have hfind : ((getD2 (readFreed b m r) p).accs.find? fun a => a.n == n) = some a := ha
    unfold answerDie
    rw [hfind]
    simp [hw, respond, dropAcc]
  have hquiet : ∀ q ∈ (readFreed b m r).memp, q.invals = [] := forall_modM hq m fun q h => (startMem_invals _).trans h
  unfold readDataFx
  rw [hr]
  dsimp only
  rw [if_neg (by decide), if_neg (by simp [hl]), hu]
  exact (congrArg answerInvals hanswer).trans (answerInvals_quiet hquiet)

end

/-! ### WRITE_COMPLETION -/

section
variable {b : Blk} {m tag : Nat} (hf : b.life.fatal = 0)
include hf

/-- The port without a write. -/
def writeFreed (b : Blk) (m : Nat) (w : MWr) : Blk := freed b m fun q => { q with writes := q.writes.erase w }

theorem writeDoneFx_unasked (stat : Nat) (h : ∀ w ∈ (getM b m).writes, w.tag ≠ tag) : writeDoneFx b m tag stat = protocolError b m := by
  unfold writeDoneFx
  rw [List.find?_eq_none.mpr fun w hw => by simpa using h w hw]
  exact if_pos (by simp [hf])

variable {w : MWr} (hw : ((getM b m).writes.find? fun w => w.tag == tag) = some w)
include hw

theorem writeDoneFx_fails {stat : Nat} (h : stat ≠ 0) : writeDoneFx b m tag stat = answerInvals (useFail (answerErr (writeFreed b m w) m) w.use .error) := by
  unfold writeDoneFx
  split
  next hnone => exact absurd (hw.symm.trans hnone) (by simp)
  next w' hw' =>
    obtain rfl : w = w' := Option.some.inj (hw.symm.trans hw')
    extract_lets b1 b2 b3
    have h2 : b2 = answerErr (writeFreed b m w) m := if_neg (by simp [h])
    have h3 : b3 = useFail b2 w.use .error := if_pos (by simp [h])
    rw [if_neg (by rw [h2]; show ¬ (b.life.fatal != 0) = true; simp [hf]), h3, h2]

/-- A logbook record's bytes become visible (R507). -/
theorem writeDoneFx_log (hq : ∀ q ∈ b.memp, q.invals = []) {f lsn : Nat} (hu : w.use = .log f lsn) :
    writeDoneFx b m tag 0 = { writeFreed b m w with stores := b.stores ++ w.bytes } := by
  have hstores : w.bytes.foldl (fun b r => store b r.1 r.2) (writeFreed b m w) = { writeFreed b m w with stores := b.stores ++ w.bytes } := foldl_store ..
  have hquiet : ∀ q ∈ (writeFreed b m w).memp, q.invals = [] := forall_modM hq m fun q h => (startMem_invals _).trans h
  unfold writeDoneFx
  split
  next hnone => exact absurd (hw.symm.trans hnone) (by simp)
  next w' hw' =>
    obtain rfl : w = w' := Option.some.inj (hw.symm.trans hw')
    extract_lets b1 b2 b3
    have h2 : b2 = { writeFreed b m w with stores := b.stores ++ w.bytes } := (if_pos rfl).trans hstores
    have h3 : b3 = b2 := by simp only [b3, hu]; rfl
    rw [h3, h2, if_neg (by show ¬ (b.life.fatal != 0) = true; simp [hf])]
    exact answerInvals_quiet hquiet

end

/-! ### TRANSLATION_ANSWER -/

section
variable {b : Blk} {m tag : Nat} (page size : Nat) (wr : Bool)

theorem xlAnswerFx_unasked (stat : Nat) (h : ∀ x ∈ (getM b m).xlats, x.tag ≠ tag) : xlAnswerFx b m tag stat page size wr = protocolError b m := by
  unfold xlAnswerFx
  rw [List.find?_eq_none.mpr fun x hx => by simpa using h x hx]

/-- The port without a translation request. -/
def xlFreed (b : Blk) (m : Nat) (x : MXl) : Blk := freed b m fun q => { q with xlats := q.xlats.erase x }

/-- The translation that an answer gives (R729). -/
def answeredXl (x : MXl) (page size : Nat) (wr : Bool) : Xl :=
  { ctx := x.ctx, vpage := x.page / 2 ^ max 12 (min 30 size) * 2 ^ max 12 (min 30 size)
    ppage := page / 2 ^ max 12 (min 30 size) * 2 ^ max 12 (min 30 size), size := max 12 (min 30 size), wr }

/-- The block with one more translation kept. -/
def xlKept (b : Blk) (e : Xl) : Blk := { b with xlats := b.xlats ++ [e] }

variable {x : MXl} (hx : ((getM b m).xlats.find? fun x => x.tag == tag) = some x)
include hx

theorem xlAnswerFx_stale (stat : Nat) (hs : x.stale = true) : xlAnswerFx b m tag stat page size wr =
    modM (xlFreed b m x) m fun q => startMem { q with xlWait := q.xlWait ++ [{ x with stale := false }] } := by
  unfold xlAnswerFx
  rw [hx]
  exact if_pos hs

variable (hs : x.stale = false)
include hs

theorem xlAnswerFx_ok : xlAnswerFx b m tag 0 page size wr = keepXl (xlFreed b m x) x page size wr := by
  unfold xlAnswerFx
  rw [hx]
  exact if_neg (by simp [hs])

theorem xlAnswerFx_pageFault : xlAnswerFx b m tag 1 page size wr = useFail (xlFreed b m x) x.use .pageFault := by
  unfold xlAnswerFx
  rw [hx]
  exact if_neg (by simp [hs])

theorem xlAnswerFx_violates : xlAnswerFx b m tag 2 page size wr = useFail (xlFreed b m x) x.use .accessViolation := by
  unfold xlAnswerFx
  rw [hx]
  exact if_neg (by simp [hs])

end

section
variable {b : Blk} {x : MXl} (page size : Nat) {wr : Bool}

theorem keepXl_keeps {id : CmdId} {sp va : Nat} (hu : x.use = .cmd id sp va) (h : x.wr = false ∨ wr = true) :
    keepXl b x page size wr = xlKept b (answeredXl x page size wr) := by
  unfold keepXl
  extract_lets lg e b1
  rw [if_neg (by rcases h with h | h <;> simp [h]), hu]
  rfl

/-- A use that writes meets a translation that permits none. -/
theorem keepXl_violates (hx : x.wr = true) (h : wr = false) :
    keepXl b x page size wr = useFail (xlKept b (answeredXl x page size wr)) x.use .accessViolation := if_pos (by simp [hx, h])

end

/-! ### Invalidations -/

section
variable {b : Blk} {m tag : Nat} (ctx page size : Nat) (all : Bool)

theorem invalFx_unowed (h : 16 ≤ (getM b m).invals.length ∨ ∃ v ∈ (getM b m).invals, v.1 = tag) :
    invalFx b m tag ctx page size all = protocolError b m := if_pos (by simpa using h)

/-- A port whose requests for covered pages are stale (R729). -/
def stalePort (ctx page size : Nat) (all : Bool) (p : MemP) : MemP :=
  { p with xlats := p.xlats.map fun x => { x with stale := x.stale || covered all ctx page size x.ctx x.page 12 } }

/-- The block without the translations that an invalidation covers, requests for its pages stale. -/
def invalStale (b : Blk) (ctx page size : Nat) (all : Bool) : Blk :=
  { b with
    xlats := b.xlats.filter fun x => !covered all ctx page size x.ctx x.vpage x.size
    memp := b.memp.map (stalePort ctx page size all) }

/-- The block with an invalidation taken at a port, and the physical ranges it waits for (R729). -/
def invalTaken (b : Blk) (m tag ctx page size : Nat) (all : Bool) : Blk :=
  modM (invalStale b ctx page size all) m fun p => { p with
    invals := p.invals ++ [(tag, (b.xlats.filter fun x => covered all ctx page size x.ctx x.vpage x.size).map fun x => (x.ppage, 2 ^ x.size))] }

theorem getM_map {b : Blk} {m : Nat} (h : m < b.memp.length) (g : MemP → MemP) : getM { b with memp := b.memp.map g } m = g (getM b m) := by
  unfold getM
  rw [List.getD_eq_getElem _ _ (by simpa using h), List.getElem_map, List.getD_eq_getElem _ _ h]

theorem invalFx_takes (h : (getM b m).invals.length < 16) (hn : ∀ v ∈ (getM b m).invals, v.1 ≠ tag) :
    invalFx b m tag ctx page size all = answerInvals (invalTaken b m tag ctx page size all) := if_neg (by
    simpa only [Bool.or_eq_true, decide_eq_true_eq, List.any_eq_true, beq_iff_eq, not_or, not_exists, not_and, Nat.not_le] using And.intro h hn)

/-- An invalidation at a block without reads and writes is answered at once. -/
theorem invalTaken_answered (hl : m < b.memp.length) (hq : ∀ q ∈ b.memp, q.invals = [])
    (hf : ∀ q ∈ b.memp, q.reads = [] ∧ q.rdWait = [] ∧ q.writes = [] ∧ q.wrWait = []) :
    (getM (answerInvals (invalTaken b m tag ctx page size all)) m).done = (getM b m).done ++ [tag] ∧
    (getM (answerInvals (invalTaken b m tag ctx page size all)) m).invals = [] := by
  have hfree : ∀ q ∈ (invalTaken b m tag ctx page size all).memp, q.reads = [] ∧ q.rdWait = [] ∧ q.writes = [] ∧ q.wrWait = [] := by
    refine forall_modM ?_ m fun q h => h
    intro q hmem
    obtain ⟨p, hp, rfl⟩ := List.mem_map.mp hmem
    exact hf p hp
  have hport : getM (answerInvals (invalTaken b m tag ctx page size all)) m =
      answeredPort (invalTaken b m tag ctx page size all) (getM (invalTaken b m tag ctx page size all) m) := by
    exact getM_map (b := invalTaken b m tag ctx page size all) (by simpa [invalTaken, invalStale] using hl) _
  have htaken : (getM (invalTaken b m tag ctx page size all) m).done = (getM b m).done ∧
      (getM (invalTaken b m tag ctx page size all) m).invals.map (·.1) = [tag] := by
    have hinv : (getM b m).invals = [] := hq _ (getM_mem hl)
    have hstale : getM (invalStale b ctx page size all) m = stalePort ctx page size all (getM b m) := getM_map hl _
    unfold invalTaken
    rw [getM_modM_same _ (by simpa [invalStale] using hl), hstale]
    exact ⟨rfl, by simp [stalePort, hinv]⟩
  rw [hport, answeredPort_free (inRange_none hfree)]
  exact ⟨by rw [← htaken.1, ← htaken.2], rfl⟩

end

/-! ### Time limits and halts -/

/-- A request of a kind (0 read, 1 write, else translation) has no answer yet. -/
def unanswered (p : MemP) (kind tag : Nat) : Bool :=
  if kind == 0 then p.reads.any fun r => r.tag == tag else if kind == 1 then p.writes.any fun w => w.tag == tag else p.xlats.any fun x => x.tag == tag

theorem unanswered_iff (p : MemP) (kind tag : Nat) : unanswered p kind tag = true ↔
    (kind = 0 ∧ ∃ r ∈ p.reads, r.tag = tag) ∨ (kind = 1 ∧ ∃ r ∈ p.writes, r.tag = tag) ∨ (1 < kind ∧ ∃ r ∈ p.xlats, r.tag = tag) := by
  match kind with
  | 0 => simp [unanswered]
  | 1 => simp [unanswered]
  | k + 2 => simp [unanswered]

theorem memTimeout_row (m kind tag : Nat) (s : State) : exec (.memTimeout m kind tag) s = actLive s fun b _ =>
    if unanswered (getM b m) kind tag && (getM b m).state == 1 then protocolError b m else b := row_memTimeout m kind tag s

section
variable {b : Blk} {m : Nat}

theorem halt_idle (h : (getM b m).halt = false ∨ (getM b m).halted = true) : haltDoneFx b m = b ∧ haltTimeoutFx b m = b :=
  ⟨if_pos (by rcases h with h | h <;> simp [h]), if_pos (by rcases h with h | h <;> simp [h])⟩

/-- A port that has halted with what it had issued given up. -/
def haltedPort (q : MemP) : MemP := { q with halted := true, reads := [], writes := [], xlats := [] }

/-- A halted port whose reads and translations are to be issued again. -/
def reissuedPort (q : MemP) : MemP := { haltedPort q with rdWait := q.reads ++ q.rdWait, xlWait := q.xlats ++ q.xlWait }

variable (hh : (getM b m).halt = true) (hd : (getM b m).halted = false) (hs : (getM b m).state ≠ 2)
include hh hd hs

theorem haltDoneFx_discards (hq : ∀ q ∈ b.memp, q.invals = []) : haltDoneFx b m = modM b m haltedPort := by
  unfold haltDoneFx
  extract_lets p b1
  rw [if_neg (by simp [p, hh, hd]), if_neg (by simp [p, hs])]
  have hb : modM b1 m (fun p => { p with reads := [], writes := [], xlats := [] }) = modM b m haltedPort := modM_modM ..
  rw [hb]
  exact answerInvals_modM hq m fun _ => rfl

/-- At the time limit the writes without an answer are lost, and the rest is issued again (R732). -/
theorem haltTimeoutFx_reissues : haltTimeoutFx b m =
    answerInvals ((getM b m).writes.foldl (fun b w => useFail b w.use .error) (modM b m reissuedPort)) := by
  unfold haltTimeoutFx
  extract_lets p lost b1
  have hb1 : b1 = modM b m fun p => { p with reads := [], writes := [], xlats := [], rdWait := p.reads ++ p.rdWait, xlWait := p.xlats ++ p.xlWait } :=
    if_neg (c := (p.state == 2) = true) (by simp [p, hs])
  have hb : modM b1 m (fun p => { p with halted := true }) = modM b m reissuedPort := by
    rw [hb1, modM_modM]
    rfl
  rw [if_neg (by simp [p, hh, hd]), hb]

end

/-! ### The obligation -/

/-- Settles O57: each answer at a port by what the port has asked for, then invalidations, credits, time limits and halts. -/
theorem memoryPortsAnswer : Obligations.MemoryPortsAnswer := by
  unfold Obligations.MemoryPortsAnswer
  intro s m tag ha hs hl hm port next running ends fences quiet
  obtain ⟨hopen, hfatal⟩ := alive_iff.mp ha
  have hfences {i : Instr} (h : exec i s = .next (commit s (protocolError s.b m))) : fences i := fun h2 => protocolError_fences hm hl h2 h
  refine ⟨fun stat bytes page size wr => ⟨fun h => hfences ?unaskedRead, fun h => hfences ?unaskedWrite, fun h => hfences ?unaskedXl⟩,
    fun r bytes hr => ⟨fun id sp va hu => ⟨fun hq hlen => ?readCmd, fun c stat hstat hrun => ?readFails⟩, fun p n a hu hq hlen hacc hw => ?readDie⟩,
    fun w hw => ⟨fun f lsn hu hq => ?writeLog, fun id sp va c stat hu hstat hrun => ?writeFails⟩,
    fun x page size wr hx => ⟨fun stat hstale => ?xlStale,
      fun id sp va hstale hu => ⟨fun hwr => ?xlKept, fun c hrun => ⟨fun hxw hwr => ?xlReadOnly, ?xlFault, ?xlViolates⟩⟩⟩,
    fun ctx page size all => ⟨fun h => hfences ?invalUnowed, fun hlen hnew => ?invalTaken⟩,
    fun rq wq xq => ?credit,
    fun kind => ⟨fun hout hst => hfences ?lateRequest, fun h => ?noLateRequest⟩,
    fun hh hd hst hq => ⟨?haltDone, fun hw => ?haltReissues, fun w id sp va c hw hu hrun => ?haltLoses⟩,
    fun h => ⟨?idleDone, ?idleTimeout⟩⟩
  case unaskedRead => rw [row_readData, actLive_alive ha, readDataFx_unasked _ _ h]
  case unaskedWrite => rw [row_writeCompletion, actCtl_open hopen, writeDoneFx_unasked hfatal _ h]
  case unaskedXl => rw [row_translationAnswer, actLive_alive ha, xlAnswerFx_unasked _ _ _ _ h]
  case readCmd => exact (row_readData ..).trans (actLive_yields ha (readDataFx_cmd hr hq hlen hu) hs)
  case readFails =>
    exact useFail_endsRow .error hrun (b := answerErr (readFreed s.b m r) m)
      rfl rfl hu (.inr (readDataFx_fails hr hstat)) ((row_readData ..).trans (actLive_alive ha _))
  case readDie => exact (row_readData ..).trans (actLive_yields ha (readDataFx_die hr hq hlen hu hacc hw) hs)
  case writeLog =>
    rw [row_writeCompletion, actCtl_open hopen, writeDoneFx_log hfatal hw hq hu, hs]
    exact congrArg _ (commit_bytes (b := writeFreed s.b m w) hs w.bytes)
  case writeFails =>
    exact useFail_endsRow .error hrun (b := answerErr (writeFreed s.b m w) m)
      rfl rfl hu (.inr (writeDoneFx_fails hfatal hw hstat)) ((row_writeCompletion ..).trans (actCtl_open hopen _))
  case xlStale => exact (row_translationAnswer ..).trans (actLive_yields ha (xlAnswerFx_stale _ _ _ hx _ hstale) hs)
  case xlKept =>
    exact (row_translationAnswer ..).trans (actLive_yields ha ((xlAnswerFx_ok _ _ _ hx hstale).trans (keepXl_keeps _ _ hu hwr)) hs)
  case xlReadOnly =>
    exact useFail_endsRow .accessViolation hrun (b := Machine.xlKept (xlFreed s.b m x) (answeredXl x page size wr))
      rfl rfl hu (.inl ((xlAnswerFx_ok _ _ _ hx hstale).trans (keepXl_violates _ _ hxw hwr)))
      ((row_translationAnswer ..).trans (actLive_alive ha _))
  case xlFault =>
    exact useFail_endsRow .pageFault hrun (b := xlFreed s.b m x)
      rfl rfl hu (.inl (xlAnswerFx_pageFault _ _ _ hx hstale)) ((row_translationAnswer ..).trans (actLive_alive ha _))
  case xlViolates =>
    exact useFail_endsRow .accessViolation hrun (b := xlFreed s.b m x)
      rfl rfl hu (.inl (xlAnswerFx_violates _ _ _ hx hstale)) ((row_translationAnswer ..).trans (actLive_alive ha _))
  case invalUnowed => rw [row_invalidation, actLive_alive ha, invalFx_unowed _ _ _ _ h]
  case invalTaken =>
    refine ⟨_, (row_invalidation ..).trans (actLive_yields ha (invalFx_takes _ _ _ _ hlen hnew) hs), rfl, rfl, ?_⟩
    exact invalTaken_answered _ _ _ _ hl
  case credit => exact (row_memCredit ..).trans (actLive_yields ha (by simp [memCreditFx]) hs)
  case lateRequest =>
    have hlate : (unanswered port kind tag && port.state == 1) = true := by simpa [hst] using (unanswered_iff ..).mpr hout
    rw [memTimeout_row, actLive_alive ha, if_pos hlate]
  case noLateRequest =>
    refine (memTimeout_row ..).trans (actLive_nop _ hs (if_neg ?_))
    rw [Bool.and_eq_true, unanswered_iff, beq_iff_eq, not_and_or]
    exact h
  case haltDone => exact (row_haltDone ..).trans (actLive_yields ha (haltDoneFx_discards hh hd hst hq) hs)
  case haltReissues =>
    refine (row_haltTimeout ..).trans (actLive_yields ha ((haltTimeoutFx_reissues hh hd hst).trans ?_) hs)
    rw [hw]
    exact answerInvals_modM hq m fun _ => rfl
  case haltLoses =>
    refine useFail_endsRow .error hrun (b := modM s.b m reissuedPort) rfl rfl hu (.inr ?_) ((row_haltTimeout ..).trans (actLive_alive ha _))
    rw [haltTimeoutFx_reissues hh hd hst, hw]
    rfl
  case idleDone => exact (row_haltDone ..).trans (actLive_nop _ hs (halt_idle h).1)
  case idleTimeout => exact (row_haltTimeout ..).trans (actLive_nop _ hs (halt_idle h).2)

end Sys2Proof.Machine
end
